-- ==== Sys2Proof/Word.lean ====
section
/-! DEFINITION. The word types of the device and the type of sparse tables (R6, R8, R143). -/

namespace Sys2Proof

abbrev Byte := BitVec 8
abbrev Half := BitVec 16
abbrev Word := BitVec 32
abbrev DWord := BitVec 64

/-- A lane mask: bit j stands for lane j (R123). -/
abbrev Mask := BitVec 64

/-- A sparse table: pairs of key and value with rising keys; an absent key reads as the table's default. -/
abbrev SMap (α : Type) := List (Nat × α)

end Sys2Proof
end

