-- ==== Sys2Proof/Syntax.lean ====
section
/-! DEFINITION. Instructions as syntax: the fields of an instruction word (R314 to R332) and one constructor for each
row of the opcode table, instructions first, then the steps of the other agents with the data each names. -/

namespace Sys2Proof

/-- Length code of an instruction (R314). -/
inductive Len where
  /-- 64 bits: the base word. -/
  | l64
  /-- 96 bits: base word and extension word X. -/
  | l96
  /-- 128 bits: base word, X and control word CTL. -/
  | l128
  deriving DecidableEq, Repr

/-- A source field: kind and number (R321). -/
inductive Src where
  /-- Kind 0b00: a register of the operand's class. -/
  | reg (n : BitVec 8)
  /-- Kind 0b01: latch b0 to b3. -/
  | latch (n : BitVec 2)
  /-- Kind 0b10: 8-bit immediate. -/
  | imm (v : BitVec 8)
  /-- Special 0x00 to 0x3f: s(n) broadcast. -/
  | scal (n : BitVec 6)
  /-- Special 0x40 to 0x7f: indirect v[s(n) + k], k from X. -/
  | ind (n : BitVec 6)
  /-- Special 0x80: the 32-bit immediate in X. -/
  | immX
  /-- Special 0x81: the constant-window operand in X. -/
  | konst
  /-- Special 0x82: the lane's number. -/
  | laneNo
  /-- Any other pattern of the field; no well-formed instruction holds one. -/
  | bad (bits : BitVec 10)
  deriving DecidableEq, Repr

/-- GUARD (R320): invert bit and mask m0 to m7. -/
structure Guard where
  inv : Bool
  mask : BitVec 3
  deriving DecidableEq, Repr

/-- The control word CTL (R329). -/
structure Ctl where
  rc : BitVec 3
  sc : BitVec 3
  ord : BitVec 2
  sp : BitVec 3
  fmte : Bool
  sl : BitVec 3
  rm : BitVec 3
  xmod : BitVec 14
  deriving DecidableEq, Repr

/-- The prefix word (R331); its bits [31:24] are zero. -/
structure Pfx where
  pslo : BitVec 3
  fop : Src
  pz : Bool
  prm : BitVec 3
  pinv : Bool
  pmask : BitVec 4
  deriving DecidableEq, Repr

/-- Every field of an instruction but its operation (R318): `ty` is MOD[63:60] and `fn` MOD[59:57]. In a form without X or
CTL those words are zero (R330). -/
structure Fields where
  ty : BitVec 4
  fn : BitVec 3
  c : Src
  b : Src
  a : Src
  dst : BitVec 8
  lat : BitVec 2
  nwb : Bool
  guard : Guard
  len : Len
  x : Word
  ctl : Ctl
  pfx : Option Pfx
  deriving DecidableEq, Repr

/-- Who runs a chain of engine entries: context `ctx` of a gang slot (R223), or the chain of a walker's copy node (R472). -/
inductive Engine where
  | gang (core slot ctx : Nat)
  | walker (w node : Nat)
  deriving DecidableEq, Repr

/-- One constructor per row of spec/opcode_table.json. -/
inductive Instr where
  /-- R365. Does nothing except advance the PC; the 96-bit form ignores its extension word. -/
  | nop (f : Fields)
  /-- R359. Writes a scalar source to a scalar destination at the type's width, once per issue. -/
  | smov (f : Fields)
  /-- R359. Scalar add, reduced modulo 2^w and extended by type. -/
  | sadd (f : Fields)
  /-- R359. Scalar subtract, reduced modulo 2^w. -/
  | ssub (f : Fields)
  /-- R359. Scalar multiply, low w bits kept. -/
  | smul (f : Fields)
  /-- R359. Scalar high multiply: floor of the exact 2w-bit product divided by 2^w. -/
  | smulh (f : Fields)
  /-- R360. Scalar division truncating toward zero, with fixed results for division by zero and overflow and no trap. -/
  | sdiv (f : Fields)
  /-- R360. Scalar remainder with the sign of the dividend, with fixed results for division by zero. -/
  | srem (f : Fields)
  /-- R359. Scalar bitwise and on w bits. -/
  | sand (f : Fields)
  /-- R359. Scalar bitwise or on w bits. -/
  | sor (f : Fields)
  /-- R359. Scalar bitwise xor on w bits. -/
  | sxor (f : Fields)
  /-- R361. Scalar shift left; a count of w or more gives zero. -/
  | sshl (f : Fields)
  /-- R361. Scalar logical shift right on w bits. -/
  | sshr (f : Fields)
  /-- R361. Scalar arithmetic shift right, filling with the sign bit. -/
  | ssra (f : Fields)
  /-- R359. Scalar minimum in the type's signedness. -/
  | smin (f : Fields)
  /-- R359. Scalar maximum in the type's signedness. -/
  | smax (f : Fields)
  /-- R359. Writes 1 if the condition holds between two scalars, else 0. -/
  | scmp (f : Fields)
  /-- R359. Selects A or B according to a condition of C against zero. -/
  | ssel (f : Fields)
  /-- R361. Adds A to B shifted left by C. -/
  | slea (f : Fields)
  /-- R359. Counts the leading zero bits of a w-bit scalar. -/
  | sclz (f : Fields)
  /-- R359. Counts the one bits of a w-bit scalar. -/
  | spopc (f : Fields)
  /-- R361. Extracts a bit field from a scalar and sign- or zero-extends it. -/
  | sbfx (f : Fields)
  /-- R361. Inserts a bit field into the destination scalar's old value. -/
  | sbfi (f : Fields)
  /-- R362. Reads one lane of a vector register into a scalar. -/
  | sgetl (f : Fields)
  /-- R363. Writes a scalar into one launched, non-exited lane of a vector register. -/
  | vsetl (f : Fields)
  /-- R364. Copies a mask value, clearing bits at and above GW. -/
  | mmov (f : Fields)
  /-- R364. Mask and. -/
  | mand (f : Fields)
  /-- R364. Mask or. -/
  | mor (f : Fields)
  /-- R364. Mask xor. -/
  | mxor (f : Fields)
  /-- R364. Mask and-not. -/
  | mandn (f : Fields)
  /-- R364. Counts the set bits of a mask within GW into a scalar. -/
  | mpopc (f : Fields)
  /-- R364. Writes the index of the lowest set mask bit, or 64. -/
  | mffs (f : Fields)
  /-- R367. PC-relative branch of the guarded lanes; a backward branch raises their stamps. -/
  | br (f : Fields)
  /-- R367. Branch on a signed 64-bit comparison of two scalars. -/
  | brs (f : Fields)
  /-- R367. Jumps each taken lane to its own register target. -/
  | jmpi (f : Fields)
  /-- R367. Writes the link pair and branches PC-relative without changing stamps. -/
  | call (f : Fields)
  /-- R367. Writes the link pair and jumps to a per-lane register target. -/
  | calli (f : Fields)
  /-- R367. Returns each taken lane to the address in its register pair. -/
  | ret (f : Fields)
  /-- R369. Parks the taken lanes until every lane is parked or suspended; stamps are unchanged on release. -/
  | regang (f : Fields)
  /-- R369. Parks the taken lanes and on release gives them the greatest stamp so that they merge. -/
  | regangAny (f : Fields)
  /-- R370. Ends the taken lanes; ends the body, a callee item or the handler as the body kind gives. -/
  | exit (f : Fields)
  /-- R368. Decrements a counter once per issue and branches while the result is non-zero. -/
  | loop (f : Fields)
  /-- R376. Vector integer add, wrapping or saturating with .sat. -/
  | vaddInt (f : Fields)
  /-- R376. Vector integer subtract, wrapping or saturating. -/
  | vsubInt (f : Fields)
  /-- R376. Vector integer multiply, low bits kept. -/
  | vmulInt (f : Fields)
  /-- R376. Vector integer high multiply. -/
  | vmulh (f : Fields)
  /-- R376. Vector integer multiply-add modulo 2^w. -/
  | vmad (f : Fields)
  /-- R376. Vector integer division as sdiv, per element. -/
  | vdivInt (f : Fields)
  /-- R376. Vector integer remainder as srem, per element. -/
  | vrem (f : Fields)
  /-- R376. Vector integer absolute value modulo 2^w. -/
  | vabsInt (f : Fields)
  /-- R376. Vector integer negation modulo 2^w. -/
  | vnegInt (f : Fields)
  /-- R376. Vector integer minimum. -/
  | vminInt (f : Fields)
  /-- R376. Vector integer maximum. -/
  | vmaxInt (f : Fields)
  /-- R376. Vector bitwise and. -/
  | vand (f : Fields)
  /-- R376. Vector bitwise or. -/
  | vor (f : Fields)
  /-- R376. Vector bitwise xor. -/
  | vxor (f : Fields)
  /-- R376. Vector bitwise not. -/
  | vnot (f : Fields)
  /-- R377. Vector shift left per element. -/
  | vshl (f : Fields)
  /-- R377. Vector logical shift right per element. -/
  | vshr (f : Fields)
  /-- R377. Vector arithmetic shift right per element. -/
  | vsra (f : Fields)
  /-- R377. Vector rotate left by the count modulo w. -/
  | vrot (f : Fields)
  /-- R376. Vector leading-zero count. -/
  | vclz (f : Fields)
  /-- R376. Vector population count. -/
  | vpopc (f : Fields)
  /-- R379. Vector integer compare writing one mask bit per executing lane. -/
  | vcmpInt (f : Fields)
  /-- R380. Selects A or B per lane by a mask bit. -/
  | vsel (f : Fields)
  /-- R376. Vector move. -/
  | vmov (f : Fields)
  /-- R377. Vector bit-field extract per element. -/
  | vbfx (f : Fields)
  /-- R378. Per-lane dot product of packed 8- or 16-bit elements accumulated into 32 bits. -/
  | vdp4 (f : Fields)
  /-- R382. Vector float add rounded once. -/
  | vaddFloat (f : Fields)
  /-- R382. Vector float subtract rounded once. -/
  | vsubFloat (f : Fields)
  /-- R382. Vector float multiply rounded once. -/
  | vmulFloat (f : Fields)
  /-- R382. Fused multiply-add with one rounding. -/
  | vfma (f : Fields)
  /-- R382. Fused multiply-subtract with one rounding. -/
  | vfms (f : Fields)
  /-- R382. Fused negated multiply-add with one rounding. -/
  | vfnma (f : Fields)
  /-- R382. Vector float division, correctly rounded. -/
  | vdivFloat (f : Fields)
  /-- R382. Vector square root, correctly rounded. -/
  | vsqrt (f : Fields)
  /-- R382. Vector reciprocal square root, correctly rounded. -/
  | vrsqrt (f : Fields)
  /-- R382. Vector reciprocal, correctly rounded. -/
  | vrcp (f : Fields)
  /-- R382. Vector base-2 exponential, correctly rounded. -/
  | vexp2 (f : Fields)
  /-- R382. Vector base-2 logarithm, correctly rounded. -/
  | vlog2 (f : Fields)
  /-- R383. Vector float minimum with -0 below +0 and canonical NaN. -/
  | vminFloat (f : Fields)
  /-- R383. Vector float maximum with canonical NaN. -/
  | vmaxFloat (f : Fields)
  /-- R383. Clears the sign bit of a number; a NaN becomes canonical. -/
  | vabsFloat (f : Fields)
  /-- R383. Flips the sign bit of a number; a NaN becomes canonical. -/
  | vnegFloat (f : Fields)
  /-- R383. Vector FP32 compare including ordered and unordered tests, writing mask bits. -/
  | vcmpFloat (f : Fields)
  /-- R382. Rounds each element to an integral value under the encoded mode. -/
  | vrint (f : Fields)
  /-- R383. Writes a one-hot class code for each element. -/
  | vclass (f : Fields)
  /-- R382. Multiplies by a power of two given as a signed integer, rounded once. -/
  | vscale (f : Fields)
  /-- R382. Computes ln(e^a + e^b) rounded once. -/
  | vlse (f : Fields)
  /-- R385. Converts one element per lane between the fixed source and destination types. -/
  | vcvt (f : Fields)
  /-- R388. Narrows a wide run into a slot format, choosing block scales under R159. -/
  | vcvtn (f : Fields)
  /-- R389. Widens a slot-format run with its block scales into a wide format. -/
  | vcvtw (f : Fields)
  /-- R390. Decodes one CB2 index per lane into eight wide weights. -/
  | vcbd (f : Fields)
  /-- R391. Sets each executing lane's stochastic-rounding state. -/
  | vsetlfs (f : Fields)
  /-- R391. Reads each executing lane's stochastic-rounding state. -/
  | vgetlfs (f : Fields)
  /-- R393. Each executing lane reads A from a lane chosen by its own index. -/
  | vperm (f : Fields)
  /-- R393. Shuffles lanes by a uniform index, up, down or xor amount. -/
  | vshfl (f : Fields)
  /-- R393. Broadcasts A of the lowest executing lane. -/
  | vbcl (f : Fields)
  /-- R394. Reduces over the executing lanes in ascending order and writes the total to each. -/
  | vred (f : Fields)
  /-- R394. Inclusive scan over the executing lanes. -/
  | vscan (f : Fields)
  /-- R394. Exclusive scan over the executing lanes. -/
  | vscanx (f : Fields)
  /-- R395. Compacts selected lanes' values into the executing lanes. -/
  | vcomp (f : Fields)
  /-- R395. Expands consecutive lanes' values into the selected executing lanes. -/
  | vexpd (f : Fields)
  /-- R401. Loads one element, or a formatted run, per executing lane. -/
  | ld (f : Fields)
  /-- R401. Stores one element, or a formatted run, per executing lane. -/
  | st (f : Fields)
  /-- R403. Waits for a scratchpad granule to be full, reads it and optionally empties it. -/
  | ldfe (f : Fields)
  /-- R403. Writes a scratchpad granule and sets it full in one step, serving waiting ldfe lanes. -/
  | stfe (f : Fields)
  /-- R416. Sends one broadcast-window store of 16 to 128 bytes to the cluster transmitter. -/
  | stbw (f : Fields)
  /-- R408. Writes back the masked SWM bytes of a range to cluster or home depth. -/
  | rwb (f : Fields)
  /-- R408. Invalidates the SWM lines of a range at core or cluster depth. -/
  | rinv (f : Fields)
  /-- R409. Prefetches each lane's global line into the cluster L2 without visible effect. -/
  | prf (f : Fields)
  /-- R410. Locks the SWM lines of a range in the L1 or L2, or none if the limits forbid. -/
  | lkl (f : Fields)
  /-- R410. Writes back and unlocks the gang's locked lines of a range. -/
  | ulkl (f : Fields)
  /-- R405. Performs one indivisible read-modify-write per lane and returns the old value. -/
  | atom (f : Fields)
  /-- R406. Compare-and-swap per lane, returning the old value. -/
  | cas (f : Fields)
  /-- R407. Orders the lane's own accesses at a scope by kind. -/
  | fence (f : Fields)
  /-- R412. Initialises a barrier object as a release at its scope. -/
  | barinit (f : Fields)
  /-- R413. Arrives at a barrier with a count, completing the phase when COUNT reaches EXPECT. -/
  | bararr (f : Fields)
  /-- R414. Waits for a barrier phase to pass, with an optional bound. -/
  | barwait (f : Fields)
  /-- R421. Appends a multiply-accumulate entry to a matrix context and returns its sequence number. -/
  | mma (f : Fields)
  /-- R421. Appends a Hadamard-transform entry to a matrix context. -/
  | mhad (f : Fields)
  /-- R421. Appends a pass-through entry to a matrix context. -/
  | mpass (f : Fields)
  /-- R424. Loads eight AM words of a row into each executing lane. -/
  | amld (f : Fields)
  /-- R424. Stores eight words per executing lane into an AM tile after outstanding passes to it. -/
  | amst (f : Fields)
  /-- R424. Clears a whole AM tile. -/
  | amclr (f : Fields)
  /-- R424. Reads AM tile columns into lanes, transposing. -/
  | amtr (f : Fields)
  /-- R428. Declares a window handle with operator, group size and capacity. -/
  | wdecl (f : Fields)
  /-- R429. Pushes one folded contribution per lane group, expiring and flipping as needed. -/
  | wpush (f : Fields)
  /-- R430. Queries each lane group's window reduction. -/
  | wq (f : Fields)
  /-- R431. Resets a window, keeping its descriptor. -/
  | wrst (f : Fields)
  /-- R431. Sets the window length, expiring the oldest contributions as needed. -/
  | wlen (f : Fields)
  /-- R432. Writes a window's image to global memory in one indivisible step. -/
  | wsave (f : Fields)
  /-- R432. Loads and checks a window image into a handle. -/
  | wload (f : Fields)
  /-- R434. Fetches a recipe body, runs it into the tagged register and activates the entry. -/
  | rtag (f : Fields)
  /-- R435. Drops a tagged register, freeing a fully dropped oct's rows. -/
  | rdrop (f : Fields)
  /-- R435. Materialises a dropped tagged register. -/
  | rmat (f : Fields)
  /-- R435. Clears a recipe entry, materialising its register first if dropped. -/
  | rclr (f : Fields)
  /-- R439. Appends a copy entry to a copy context and returns its sequence number. -/
  | cp (f : Fields)
  /-- R440. Appends a collective broadcast entry to tl6. -/
  | bcast (f : Fields)
  /-- R440. Appends a collective reduce entry to tl6. -/
  | bcred (f : Fields)
  /-- R440. Appends a collective all-reduce entry to tl6. -/
  | bcall (f : Fields)
  /-- R441. Appends an edge-put entry to the graph-edge context. -/
  | eput (f : Fields)
  /-- R443. Waits until a timeline counter reaches a value and acquires those operations. -/
  | tlwaitGe (f : Fields)
  /-- R443. Waits until fewer than k operations of a context are outstanding. -/
  | tlwaitLt (f : Fields)
  /-- R446. Enqueues one child record per executing lane, contiguously, at the issuing core. -/
  | spawn (f : Fields)
  /-- R446. Enqueues one child record per issue. -/
  | spawnOne (f : Fields)
  /-- R447. Releases earlier accesses and sends a continuation record to a core's queue. -/
  | post (f : Fields)
  /-- R449. Turns each executing lane into a callee work item and suspends it. -/
  | callq (f : Fields)
  /-- R450. Returns each executing callee lane's v0-v7 to its caller and ends the lane. -/
  | retq (f : Fields)
  /-- R448. Decrements a record's JOIN as a wafer-scope release, posting it at zero. -/
  | join (f : Fields)
  /-- R445. Writes a continuation record in memory. -/
  | mkrec (f : Fields)
  /-- R451. Takes one token from an edge consumed by the running kernel node. -/
  | eget (f : Fields)
  /-- R453. Reads a system register of the gang, a target slot, its cluster or its core. -/
  | sysr (f : Fields)
  /-- R453. Writes a system register, with the permission rules of R454. -/
  | sysw (f : Fields)
  /-- R455. Claims boost for the cluster at a target frequency and returns PWSTAT. -/
  | bclaim (f : Fields)
  /-- R455. Ends the gang's boost claim. -/
  | brel (f : Fields)
  /-- R457. Reads the local timestamp, cluster cycle count or receive stamp. -/
  | tsr (f : Fields)
  /-- R458. Liveness hint; a switch point, and the stopping point of a pending hinted save. -/
  | phint (f : Fields)
  /-- R459. Handler resumes a trapped gang from its frame's replay queue. -/
  | rtrapResume (f : Fields)
  /-- R459. Handler kills the trapped gang's block. -/
  | rtrapKill (f : Fields)
  /-- R460. Sends a wafer-wide halt beacon from the issuing cluster. -/
  | halt (f : Fields)
  /-- R461. Writes a program trace record when enabled, never waiting. -/
  | trc (f : Fields)
  /-- R78. Host reads device memory or an alias window as a system-scope coherent access. -/
  | hostMemoryRead (off n : Nat)
  /-- R78. Host posted write to device memory or an alias window. -/
  | hostMemoryWrite (off : Nat) (data : List Byte)
  /-- R77. Host write to a mailbox or management register that has no behaviour of its own. -/
  | registerWrite (off size : Nat) (v : DWord)
  /-- R83. Host writes WSTARTw; the walker checks, reads the header, claims edges and fires ENTRY, or the start is refused. -/
  | walkerStart (w : Nat) (v : DWord)
  /-- R84. Host advances CQ_HEAD, freeing entries, returning faulted walkers to idle and raising an interrupt if entries remain. -/
  | cqHeadWrite (v : DWord)
  /-- R174. Host write of TLBINV starts an invalidation delivered to every core and cluster. -/
  | tlbInvalidate (v : DWord)
  /-- R174. An invalidation completes, TLBINV_CNT advances and instruction caches are invalidated. -/
  | tlbInvalidateComplete
  /-- R304. Host kills a graph run: no more firings, blocks killed, GRAPH_FAULT 0x0b written. -/
  | runkill (v : DWord)
  /-- R305. A doorbell with HRST = 0 queues a monitor entry at the core's handler. -/
  | monitorDoorbell (n : Nat) (v : DWord)
  /-- R305. A doorbell with HRST = 1 discards handler state and restarts it at HENTRY. -/
  | handlerRestart (n : Nat) (v : DWord)
  /-- R88. Host writes a defect-map word through DMAP_PORT in phase 0. -/
  | defectMapWrite (v : DWord) (checked : Bool)
  /-- R88. MGMT_STAT phase write to 1 requiring DMAP_OK. -/
  | phaseTables (v : DWord)
  /-- R88. Phase write to 2: tables checked, pilots of all groups checked and PLANE_OK set. -/
  | phasePlane (v : DWord) (dark : List (Nat × Nat))
  /-- R88. Phase write to 3: cores released, epochs zeroed, clusters enter the c1 pool. -/
  | phaseRunning (v : DWord)
  /-- R88. A MGMT_STAT write that repeats the phase clears its W1C flags only. -/
  | mgmtStatFlagClear (v : DWord)
  /-- R88. Host writes a router entry through TBL_LOAD in phase 1, stored in every router. -/
  | tableLoad (v : DWord)
  /-- R27. Host writes TBL_UPD; the update is kept and sent as a beacon by the beacon cluster. -/
  | tableUpdate (v : DWord)
  /-- R52. Host writes GRP_BIND; the rebind is checked and sent as a group-bind beacon. -/
  | groupBind (v : DWord)
  /-- R295. CHOLD with SET = 1 stops placements on a core. -/
  | coreHold (v : DWord)
  /-- R295. CHOLD with PRE = 1 also requests a block save of every block on the core. -/
  | coreHoldPreempt (v : DWord)
  /-- R295. CHOLD with SET = 0 releases a held core. -/
  | coreRelease (v : DWord)
  /-- R295. A held core with no block and no record sends a REGION entry with CAUSE 0x20. -/
  | heldCoreDrained (core : Nat)
  /-- R295. SLCOPY GO starts copying a logical core's slice to a spare, holding accesses to the home. -/
  | sliceCopy (v : DWord)
  /-- R295. The slice copy ends and GO reads 0. -/
  | sliceCopyComplete
  /-- R303. HALTCTL CMD = halt sends a halt beacon. -/
  | hostHalt
  /-- R303. HALTCTL CMD = resume sends a resume beacon. -/
  | hostResume
  /-- R55. REGION_CTL ENABLE moves an OFF region to RAMP. -/
  | regionEnable (r : Nat)
  /-- R55. REGION_CTL DISABLE moves a drained ON region, or a HOLD region, to OFF. -/
  | regionDisable (r : Nat)
  /-- R55. REGION_CTL RESTART moves a HOLD region to RESTART. -/
  | regionRestart (r : Nat)
  /-- R55. REGION_CTL RELEASE_HALT clears stage 3 and releases the region's cores below 100 °C. -/
  | regionReleaseHalt (r : Nat)
  /-- R55. Both rails within ±3 % for 10 µs move RAMP to ON. -/
  | rampComplete (r : Nat)
  /-- R55. 500 µs in RAMP without reaching ON trips the region. -/
  | rampTimeout (r : Nat)
  /-- R55. Overcurrent, undervoltage, overvoltage or a regulator fault trips an ON or RESTART region. -/
  | supplyFault (r : Nat) (cause : BitVec 4)
  /-- R55. Supply below 0.1 V moves TRIP to HOLD. -/
  | tripDischarged (r : Nat)
  /-- R56. 4 µs after settling, routers load tables from a neighbour region and apply buffered beacons. -/
  | restartTableLoad (r source : Nat)
  /-- R55. Rails settled and tables loaded move RESTART to ON. -/
  | restartComplete (r : Nat)
  /-- R55. 1 ms in RESTART trips the region with RESTART_FAIL. -/
  | restartTimeout (r : Nat)
  /-- R60. Current above 90 % of full scale for 1 µs without a trip counts OCWARN. -/
  | overcurrentWarning (r : Nat)
  /-- R68. Every 10 µs the controller measures module power and moves GOV down or up. -/
  | governorTick (watts : Nat)
  /-- R69. Every 100 ns the controller admits work or injects filler to keep the current slope within limit. -/
  | currentRampStep (r demand : Nat)
  /-- R67. The oldest waiting claim is granted once the region has no holder, a permit and governor admission. -/
  | boostGrant (r : Nat)
  /-- R65. At each 10 µs interval a permit is charged, or the claim is cancelled with BEXH and the fall begins. -/
  | boostInterval (r : Nat)
  /-- R65. 20 µs after a cancellation the cluster falls from 1.6 to 1.4 GHz. -/
  | boostFallStep (c : Nat)
  /-- R66. Each full 40 µs of idle time adds one permit. -/
  | permitRefill (r : Nat)
  /-- R63. A cluster's frequency change ends, XSN clears and deferred traps are taken. -/
  | frequencyChangeComplete (c : Nat)
  /-- R103. A hub moves a cluster idle for 20 µs into the pool of a starved launch. -/
  | poolTargetMove (hub c : Nat)
  /-- R62. A pool move's voltage and frequency change completes and placement may resume. -/
  | poolMoveComplete (c : Nat)
  /-- R72. Every 10 µs sensors are read and thermal stages 1-3 entered or cleared. -/
  | thermalSample (r temp : Nat)
  /-- R72. The analogue comparator at 115 °C removes supply and trips the region. -/
  | thermalTrip (r : Nat)
  /-- R37. A router takes a packet and arbitrates it onto an output port by priority. -/
  | meshPacketReceive (router dir : Nat) (plane : BitVec 2)
  /-- R37. A packet waiting 1,024 mesh cycles at a port rises one priority level. -/
  | packetAging (id : Nat)
  /-- R40. No heartbeat for 2 µs declares a link down and reports it. -/
  | linkHeartbeatTimeout (router dir : Nat)
  /-- R40. After 20 µs without a response a packet is re-injected once on the fallback order. -/
  | linkFallbackReinject (id : Nat)
  /-- R28. A NACK for a remapped core makes the sender look up and re-inject once, or complete with TARGET_RETIRED. -/
  | packetNack (id : Nat)
  /-- R25. Every millisecond each router scrubs its indirection table. -/
  | tableScrub (flips : List (Nat × Nat))
  /-- R26. A neighbour's copy of an uncorrectable entry arrives and the held packet is routed, or a machine check is raised. -/
  | tableRepairResponse (router entry : Nat)
  /-- R44. Each 1 GHz frame, a cluster receives all groups, applies completed messages in bus order and detects holes. -/
  | photonicFrame (c : Nat) (dark : List (Nat × Nat))
  /-- R50. A cluster compares a time beacon with its frame count and corrects it, recording any slip. -/
  | timeBeacon (c : Nat)
  /-- R48. The beacon cluster sends a time beacon every 1,024 frames. -/
  | timeBeaconSend
  /-- R27. A router applies a table-update beacon in host order and advances its epoch. -/
  | tableUpdateBeacon (c : Nat)
  /-- R52. Clusters apply a group-bind beacon; the writer then transmits an end marker and retransmits. -/
  | groupBindBeacon (c : Nat)
  /-- R301. A cluster applies a halt beacon and its cores stop issue from non-handler gangs. -/
  | haltBeacon (c : Nat)
  /-- R302. A resume beacon restarts every paused unit where it stopped. -/
  | resumeBeacon (c : Nat)
  /-- R51. A retained or retransmitted message arrives and is placed at its original completion frame, resolving a hole. -/
  | retainedCopyReceive (c id : Nat)
  /-- R51. A writer drops a retained message 40 µs after sending it. -/
  | retainedCopyExpire (id : Nat)
  /-- R51. A pilot absent 2 µs or 16 holes in 20 µs declares a group dead and reports it. -/
  | groupDead (c bus group : Nat)
  /-- R53. A hole unresolved for 100 µs raises a machine check. -/
  | holeTimeout (c bus : Nat)
  /-- R49. When the beacon cluster's region leaves ON, a new beacon cluster is named and resends kept beacons. -/
  | beaconClusterHandover
  /-- R189. A superblock's data arrives at a requester, which then answers snoops ordered after its own. -/
  | superblockResponse (c sb : Nat)
  /-- R189. An evicted superblock's data reaches the home, releasing held snoops. -/
  | evictionDataArrive (sb : Nat)
  /-- R191. The home slice serves a read, SWM atomic or masked write-back merge. -/
  | homeRequest (id : Nat)
  /-- R199. A load or atomic response returns to the requesting lane. -/
  | memoryResponse (id : Nat)
  /-- R200. A write is acknowledged when performed, letting waiting releases proceed. -/
  | writeAcknowledge (id : Nat)
  /-- R170. A cluster page walker performs a queued walk and fills the TLBs or faults. -/
  | pageWalk (c : Nat)
  /-- R91. A walker fires a node on a delivered token and acts by its kind. -/
  | nodeFire (w node : Nat)
  /-- R91. A kernel node completes when all blocks exit and engine work ends, delivering tokens. -/
  | kernelNodeComplete (w node : Nat)
  /-- R472. A copy node's chain ends or faults and the node completes or faults. -/
  | copyNodeComplete (w node : Nat)
  /-- R91. A signal-host node completes when its SIGNAL entry is written. -/
  | signalEntryWritten (w node : Nat)
  /-- R92. A wait node re-reads its word on a write or every 10 µs and completes when v ≥ ARG1. -/
  | waitNodePoll (w node : Nat)
  /-- R92. A wait node faults with cause 0x05 when its timeout passes. -/
  | waitNodeTimeout (w node : Nat)
  /-- R94. A stalled producer retries the free-slot counter on a write or every 10 µs. -/
  | freeSlotRetry (who : Engine)
  /-- R96. A run with nothing firing, empty edges and no stalled producer writes GRAPH_DONE and returns to idle. -/
  | runDone (w : Nat)
  /-- R98. A hub receives a launch and lists its own blocks. -/
  | launchReceive (hub ltag : Nat)
  /-- R99. A hub places its head block at the lowest fitting origin and reserves its resources. -/
  | blockPlace (hub : Nat)
  /-- R100. A launch's effective priority rises after 1 ms without a placement. -/
  | hubPriorityAging (hub ltag : Nat)
  /-- R101. A hub receives a steal request and hands over half its unplaced blocks of a launch, or answers empty. -/
  | stealRequest (victim : Nat)
  /-- R101. A thief receives the answer to its steal and appends blocks or asks the next hub. -/
  | stealResponse (thief : Nat)
  /-- R101. After 47 empty answers, a thief starts stealing again 10 µs later. -/
  | stealBackoffExpire (hub : Nat)
  /-- R109. A block whose gangs are idle and engine work complete exits and frees its resources. -/
  | blockExit (block : Nat)
  /-- R107. Each cycle an idle slot admits the first fitting record by priority. -/
  | recordAdmit (core : Nat)
  /-- R107. A queue head unserved for 1 ms moves to the tail of the next higher queue. -/
  | recordPromote (core prio : Nat)
  /-- R105. A core appends a posted record to its queue or refuses it with a NACK. -/
  | postReceive (id : Nat)
  /-- R105. A refused record is enqueued at the poster's core, or discarded if its block is gone. -/
  | postRefusedReturn (id : Nat)
  /-- R108. At a record run's end the parent's JOIN is decremented and the parent posted at zero. -/
  | joinDecrement (core slot : Nat)
  /-- R111. An idle slot drains the fullest callee queue into a callee gang. -/
  | calleeGangForm (core slot : Nat)
  /-- R111. Caller slices resume when all their items have returned. -/
  | callerResume (core slot : Nat)
  /-- R112. A callee queue waiting 2 µs makes the core pre-empt the oldest suspended caller. -/
  | callqSlotPreempt (core : Nat)
  /-- R135. A hold ends after 32 cycles without an issue from its gang. -/
  | holdTimeout (core islot : Nat)
  /-- R132. Parked lanes are released 4,096 cycles after the first parking, stamps unchanged. -/
  | regangTimeout (core slot : Nat)
  /-- R404. A timeout ldfe or stfe lane gives up after its bound and writes status 0. -/
  | ldfeTimeout (core slot lane : Nat)
  /-- R414. A waiter re-reads the barrier object on a write or every 1 µs and completes when its phase passed. -/
  | barrierWaitRecheck (core slot : Nat)
  /-- R414. A barrier wait's bound passes; it writes 1 and acquires nothing. -/
  | barrierWaitTimeout (core slot : Nat)
  /-- R211. An engine entry completes in sequence order, writes ST and advances TLCNT. -/
  | engineEntryComplete (who : Engine)
  /-- R230. A faulting entry stops its context and writes ST, CAUSE and PROG. -/
  | engineEntryFault (who : Engine) (cause : BitVec 8)
  /-- R240. The array starts a pass with the oldest waiting octet operation and fuses matching ones. -/
  | matrixPass (core : Nat)
  /-- R242. Matched collective entries combine in fixed order or fault with COLL_MISMATCH. -/
  | collectiveMatch (core slot : Nat)
  /-- R294. Each array runs a self-test every millisecond and reports a failure. -/
  | matrixSelfTest (core : Nat) (passed : Bool)
  /-- R225. A CHRINGn write waits until the context is drained, then sets the ring. -/
  | chringWrite (core slot ctx : Nat)
  /-- R232. ECTL RESUME continues a faulted entry at row DONE. -/
  | ectlResume (core slot ctx : Nat)
  /-- R232. ECTL ABANDON skips all outstanding entries and sets TLCNT to TLISS. -/
  | ectlAbandon (core slot ctx : Nat)
  /-- R47. A reader filter or landing register write switches each bus between messages. -/
  | filterWrite (core slot : Nat)
  /-- R306. The handler's MONDONE write sends a MONITOR completion entry after the slot is written. -/
  | mondoneWrite (core : Nat) (v : DWord)
  /-- R299. GDBG STOP stops or releases a gang's issue. -/
  | gangStop (core slot : Nat) (stop : Bool)
  /-- R299. GDBG STEP lets a stopped gang issue exactly one instruction. -/
  | gangStep (core slot : Nat)
  /-- R267. A gang waiting for a row to materialise a register is served when a row frees. -/
  | materialiseRowGrant (core : Nat)
  /-- R267. After 10 µs of every row holder waiting, the most recently admitted gang is slot-saved. -/
  | materialiseDeadlockSave (core : Nat)
  /-- R276. The handler takes the next queued trap, writes its frame and starts at HENTRY. -/
  | handlerEntry (core : Nat)
  /-- R283. No phint within 20 µs of a hinted request forces a full save. -/
  | hintTimeout (core slot : Nat)
  /-- R285. After draining, the save engine writes a gang's image for a slot or block save. -/
  | gangSave (core slot : Nat)
  /-- R288. A saved block is placed, its images reloaded and its queued records re-posted. -/
  | blockRestore (hub : Nat)
  /-- R293. An uncorrectable error traps the consuming gang or sends a MACHINE_CHECK entry. -/
  | eccError (core slot : Nat) (source : BitVec 8) (va : DWord)
  /-- R311. An issue slot's sample countdown reaches zero and tags an instruction for a trace record. -/
  | sampleTag (core islot : Nat) (next : Nat) (level : BitVec 4)
  /-- R76. A UCIe module fails lane repair and leaves the link, reported as a LINK entry. -/
  | linkModuleLoss
  /-- R298. On power removal the device sends the 48 black-box records to the host within 1 ms. -/
  | modulePowerLoss
  /-- R56. When the rails of a RESTART region settle, its clusters' photonic receivers start and buffer table-update and group-bind beacons. -/
  | restartRailsSettled (r : Nat)
  /-- R51. A writing cluster receives a receiver's mesh request for a retained message and sends back its retained copy. -/
  | retainedCopyRequest (c id : Nat)
  /-- R26. A router answers a request from another router for one table entry, or for its whole table with epoch and Q during a RESTART. -/
  | routerTableRequest (router entry : Nat)
  /-- R226. An engine finishes writing one row of an entry in progress, advancing DONE and filling scratchpad granules that the entry has now wholly written. -/
  | engineRowWritten (who : Engine)
  deriving DecidableEq, Repr

end Sys2Proof
end

