-- ==== Sys2Proof/WellFormed.lean ====
section
/-! DEFINITION. Which encodings are well formed: the stage 1 checks of R334 that need no state, one entry per operation
(R348, R349, R351, R352, R358, R375, R381, R384, R392, R396, R399, R400, R420, R423, R426, R433, R438, R444, R452). -/

namespace Sys2Proof

/-- Operand classes of the instruction reference. -/
inductive Cls where
  /-- The field is unused and must be zero. -/
  | none
  /-- Scalar of TYPE's width (R354, R355). -/
  | sT
  /-- 64-bit scalar, immediates sign-extended (R469). -/
  | s
  /-- 64-bit u-scalar, immediates zero-extended (R419, R469). -/
  | u
  /-- An even scalar register naming the pair s(A), s(A + 1) (R438). -/
  | sEven
  /-- A scalar register naming the run s(A) to s(A + 2) (R445). -/
  | sRun
  /-- Mask (R354). -/
  | m
  /-- Vector of TYPE's elements, a pair for 64-bit types (R371, R372). -/
  | v
  /-- 32-bit vector operand. -/
  | v32
  /-- 64-bit vector operand of R354. -/
  | v64
  /-- First register of a run, direct (R419). -/
  | run
  /-- A vector register by name, direct or indirect (R362, R433). -/
  | vreg
  /-- Vector register or special 0x00 to 0x3f (R420). -/
  | vDeck
  /-- Byte offset of an address, 32-bit vector class (R397). -/
  | off
  /-- Uniform (R396). -/
  | uni
  /-- Special 0x80 or 0x81 (R420). -/
  | kX
  /-- Displacement (R354, R444). -/
  | disp
  /-- Displacement in a group whose 128-bit form names X there (R437). -/
  | dispX
  /-- Special 0x80 only (R437). -/
  | immX
  /-- 8-bit immediate only, unsigned (R419). -/
  | imm8
  /-- 8-bit immediate or a zero field (R384). -/
  | imm8z
  deriving DecidableEq, Repr

/-- What the instruction reference says of one operation. -/
structure OpSpec where
  grp : BitVec 4
  op : BitVec 6
  /-- Lengths allowed (R349). -/
  l64 : Bool := true
  l96 : Bool := true
  l128 : Bool := false
  dst : Cls := .none
  a : Cls := .none
  b : Cls := .none
  c : Cls := .none
  /-- NWB = 1 is allowed when the operation has a result. -/
  nwbOk : Bool := true
  /-- MOD holds values the operation defines (R351, R352). -/
  modOk : Bool := true
  /-- CTL is used as R330 and the entry allow. -/
  ctlOk : Bool := true
  /-- A prefix is legal (R350). -/
  pfx : Bool := false
  /-- The operation takes a fourth operand (R350). -/
  fourth : Bool := false
  /-- The operation rounds (R350). -/
  rounds : Bool := false
  /-- SR is legal in some slot or type (R155, R385, R388, R402). -/
  srOk : Bool := false
  /-- The operation reads a format slot or names a type (R333). -/
  slotty : Bool := false
  /-- The immediate of the operation is sign-extended (R322). -/
  immS : Bool := true
  /-- Acts once per issue (R356, R436), so it has no lane-wise effect. -/
  once : Bool := false
  /-- Switch point (R136). -/
  switch : Bool := false
  /-- Resources the handler gang lacks (R470). -/
  noHandler : Bool := false
  /-- Only the handler gang may issue it (R452). -/
  handlerOnly : Bool := false
  /-- Further encoding rules of the entry. -/
  extra : Bool := true

def tyInt (f : Fields) : Bool := 4 ≤ f.ty.toNat && f.ty.toNat ≤ 0xb
def tyFloat (f : Fields) : Bool := f.ty.toNat ≤ 2
/-- TYPE is an `.i` type (R324). -/
def tySigned (f : Fields) : Bool := f.ty == 4 || f.ty == 6 || f.ty == 8 || f.ty == 0xa
/-- TYPE is 64 bits wide (R324). -/
def ty64 (f : Fields) : Bool := f.ty == 0xa || f.ty == 0xb
def ty3264 (f : Fields) : Bool := 8 ≤ f.ty.toNat && f.ty.toNat ≤ 0xb
def modZero (f : Fields) : Bool := f.ty == 0 && f.fn == 0
def Src.isZero (x : Src) : Bool := x == .reg 0
def Src.isImm : Src → Bool
  | .imm _ => true
  | _ => false
/-- The value of an 8-bit immediate field, zero otherwise. -/
def Src.immNat : Src → Nat
  | .imm v => v.toNat
  | _ => 0
def Src.regNat : Src → Nat
  | .reg n => n.toNat
  | _ => 0

def Ctl.zero : Ctl := ⟨0, 0, 0, 0, false, 0, 0, 0⟩

/-- ORD and SC of a load or store kind that may carry ordering `o` only (R399); `any` allows every ORD. -/
def ordOk (t : Ctl) (o : BitVec 2) (any : Bool) : Bool :=
  if t.ord == 0 then t.sc == 0 else (any || t.ord == o) && t.sc != 7

/-- CTL of `ld` and `st` (R330, R399, R402). -/
def ctlLoadStore (f : Fields) (o : BitVec 2) : Bool :=
  ordOk f.ctl o false && f.ctl.sp.toNat ≤ 1 && f.ctl.xmod == 0 &&
    (if f.ctl.fmte then f.ctl.rm.toNat ≤ 5 else f.ctl.sl == 0 && f.ctl.rm == 0)

/-- CTL of a memory operation that is not formatted. -/
def ctlMem (f : Fields) (scratchOk : Bool) : Bool :=
  (f.ctl.sp == 0 || (scratchOk && f.ctl.sp == 1)) && !f.ctl.fmte && f.ctl.sl == 0 && f.ctl.rm == 0 && f.ctl.xmod == 0

/-- CTL of a matrix operation (R420). -/
def ctlMatrix (f : Fields) (shift : Bool) : Bool :=
  f.ctl.rc == 0 && (f.ctl.sc == 4 || f.ctl.sc == 5) && f.ctl.ord == 0 && f.ctl.sp == 0 && f.ctl.fmte && f.ctl.rm == 0 &&
    f.ctl.xmod.toNat / 2048 == 0 && (shift || f.ctl.xmod.toNat / 32 == 0)

/-- CTL of group 0xa with RC and the context numbers `lo` to `hi` (R437, R438). -/
def ctlEngine (f : Fields) (lo hi : Nat) : Bool :=
  f.ctl.rc != 7 && lo ≤ f.ctl.sc.toNat && f.ctl.sc.toNat ≤ hi && f.ctl.ord == 0 && f.ctl.sp == 0

/-- CTL of group 0xb: a priority and a routing class where used (R444). -/
def ctlTask (f : Fields) (prio rc : Bool) : Bool :=
  (if prio then f.ctl.sc.toNat ≤ 3 else f.ctl.sc == 0) && (if rc then f.ctl.rc != 7 else f.ctl.rc == 0) &&
    f.ctl.ord == 0 && f.ctl.sp == 0 && !f.ctl.fmte && f.ctl.sl == 0 && f.ctl.rm == 0 && f.ctl.xmod == 0

/-- XMOD[13:12] CONV, [11:10] WIDE, [9:8] DSP, [7:6] SSP of `cp` and the collectives (R438). -/
def Ctl.conv (t : Ctl) : Nat := t.xmod.toNat / 4096 % 4
def Ctl.wide (t : Ctl) : Nat := t.xmod.toNat / 1024 % 4
def Ctl.dsp (t : Ctl) : Nat := t.xmod.toNat / 256 % 4
def Ctl.ssp (t : Ctl) : Nat := t.xmod.toNat / 64 % 4
def Ctl.fnc (t : Ctl) : Nat := t.xmod.toNat % 16

/-- The encoding rules of `cp` that need no state (R439). -/
def cpOk (f : Fields) : Bool :=
  let t := f.ctl
  t.xmod.toNat % 64 == 0 && t.conv != 3 && t.wide != 3 && t.ssp != 2 && (t.fmte == (t.conv != 0)) &&
    (t.conv != 0 || (t.rm == 0 && t.sl == 0)) && t.rm.toNat ≤ 5 && !(t.rm == 5 && t.conv == 1)

/-- The encoding rules of the collectives (R440). -/
def collOk (f : Fields) (hasFn : Bool) : Bool :=
  let t := f.ctl
  t.dsp ≤ 1 && t.ssp ≤ 1 && t.fnc < 8 && (hasFn || t.fnc == 0) && t.xmod.toNat / 1024 == 0 && t.xmod.toNat / 16 % 4 == 0 &&
    !t.fmte && t.sl == 0 && t.rm == 0 && f.x.toNat / 0x1000000 == 0

/-- Kind of a fence, MOD[63:62] (R407). -/
def Fields.fenceKind (f : Fields) : Nat := f.ty.toNat / 4
/-- Scope of a fence, MOD[61:59] (R407). -/
def Fields.fenceScope (f : Fields) : Nat := f.ty.toNat % 4 * 2 + f.fn.toNat / 4
/-- MOD[57]. -/
def Fields.m57 (f : Fields) : Bool := f.fn.getLsbD 0
/-- MOD[58]. -/
def Fields.m58 (f : Fields) : Bool := f.fn.getLsbD 1

/-- DIND (R328): the destination is indirect, when X is read as IND. -/
def Fields.xIsInd (f : Fields) : Bool :=
  f.len != .l64 && f.a != .immX && f.a != .konst && f.b != .immX && f.b != .konst && f.c != .immX && f.c != .konst
def Fields.dind (f : Fields) : Bool := f.xIsInd && f.x.getLsbD 31

/-- A group 0x0 operation with a TYPE (R358). -/
def sSpec (op : BitVec 6) (f : Fields) (a b c : Cls) (fnOk : Bool) : OpSpec :=
  { grp := 0, op, dst := .s, a, b, c, modOk := tyInt f && fnOk, immS := tySigned f, once := true }

/-- A mask operation (R358). -/
def mSpec (op : BitVec 6) (f : Fields) (dst a b : Cls) : OpSpec :=
  { grp := 0, op, dst, a, b, modOk := modZero f, once := true }

/-- A group 0x2 operation (R375). -/
def iSpec (op : BitVec 6) (f : Fields) (a b c : Cls) (fnOk : Bool) : OpSpec :=
  { grp := 2, op, dst := .v, a, b, c, modOk := tyInt f && fnOk, immS := tySigned f, pfx := true, slotty := true }

/-- A group 0x3 operation (R381). -/
def fSpec (op : BitVec 6) (f : Fields) (b c : Cls) (rounds : Bool) : OpSpec :=
  { grp := 3, op, dst := .v, a := .v, b, c, modOk := tyFloat f && f.fn == 0, pfx := true, slotty := true, rounds }

/-- A group 0x5 operation (R392). -/
def xSpec (op : BitVec 6) (f : Fields) (b : Cls) (fnOk : Bool) : OpSpec :=
  { grp := 5, op, dst := .v, a := .v, b, modOk := (f.ty == 0 || ty3264 f) && fnOk, immS := tySigned f, pfx := true, slotty := true }

/-- An operation of groups 0x6 and 0x7 with three lengths (R400). -/
def memSpec (grp : BitVec 4) (op : BitVec 6) (dst b c : Cls) (modOk ctlOk : Bool) : OpSpec :=
  { grp, op, l128 := true, dst, a := .s, b, c, modOk, ctlOk, switch := true }

/-- A group 0xc operation (R452). -/
def ySpec (op : BitVec 6) (f : Fields) (dst a b c : Cls) : OpSpec :=
  { grp := 0xc, op, dst, a, b, c, modOk := modZero f, once := true, switch := true }

/-- The entry of an instruction; none for the steps of the other agents. -/
def opSpec : Instr → Option OpSpec
  | .nop f => some { grp := 0, op := 0, modOk := modZero f, extra := f.guard == ⟨false, 0⟩, once := true }
  | .smov f => some (sSpec 0x01 f .sT .none .none (f.fn == 0))
  | .sadd f => some (sSpec 0x02 f .sT .sT .none (f.fn == 0))
  | .ssub f => some (sSpec 0x03 f .sT .sT .none (f.fn == 0))
  | .smul f => some (sSpec 0x04 f .sT .sT .none (f.fn == 0))
  | .smulh f => some (sSpec 0x05 f .sT .sT .none (f.fn == 0))
  | .sdiv f => some (sSpec 0x06 f .sT .sT .none (f.fn == 0))
  | .srem f => some (sSpec 0x07 f .sT .sT .none (f.fn == 0))
  | .sand f => some { sSpec 0x08 f .sT .sT .none (f.fn == 0) with immS := true }
  | .sor f => some { sSpec 0x09 f .sT .sT .none (f.fn == 0) with immS := true }
  | .sxor f => some { sSpec 0x0a f .sT .sT .none (f.fn == 0) with immS := true }
  | .sshl f => some (sSpec 0x0b f .sT .sT .none (f.fn == 0))
  | .sshr f => some (sSpec 0x0c f .sT .sT .none (f.fn == 0))
  | .ssra f => some (sSpec 0x0d f .sT .sT .none (f.fn == 0))
  | .smin f => some (sSpec 0x0e f .sT .sT .none (f.fn == 0))
  | .smax f => some (sSpec 0x0f f .sT .sT .none (f.fn == 0))
  | .scmp f => some (sSpec 0x10 f .sT .sT .none (f.fn.toNat ≤ 5))
  | .ssel f => some (sSpec 0x11 f .sT .sT .sT (f.fn.toNat ≤ 5))
  | .slea f => some (sSpec 0x12 f .sT .sT .sT (f.fn == 0))
  | .sclz f => some (sSpec 0x13 f .sT .none .none (f.fn == 0))
  | .spopc f => some (sSpec 0x14 f .sT .none .none (f.fn == 0))
  | .sbfx f => some (sSpec 0x15 f .sT .sT .sT (f.fn == 0))
  | .sbfi f => some (sSpec 0x16 f .sT .sT .sT (f.fn == 0))
  | .sgetl f => some (sSpec 0x17 f .vreg .sT .none (f.fn == 0))
  | .vsetl f => some { sSpec 0x18 f .sT .sT .none (f.fn == 0) with dst := .v }
  | .mmov f => some (mSpec 0x19 f .m .m .none)
  | .mand f => some (mSpec 0x1a f .m .m .m)
  | .mor f => some (mSpec 0x1b f .m .m .m)
  | .mxor f => some (mSpec 0x1c f .m .m .m)
  | .mandn f => some (mSpec 0x1d f .m .m .m)
  | .mpopc f => some (mSpec 0x1e f .s .m .none)
  | .mffs f => some (mSpec 0x1f f .s .m .none)
  | .br f => some { grp := 1, op := 0, a := .disp, modOk := modZero f }
  | .brs f => some { grp := 1, op := 1, a := .s, b := .s, c := .disp, modOk := f.ty == 0 && f.fn.toNat ≤ 5 }
  | .jmpi f => some { grp := 1, op := 2, a := .v64, modOk := modZero f }
  | .call f => some { grp := 1, op := 3, dst := .v64, a := .disp, modOk := modZero f }
  | .calli f => some { grp := 1, op := 4, dst := .v64, a := .v64, modOk := modZero f }
  | .ret f => some { grp := 1, op := 5, l96 := false, a := .v64, modOk := modZero f }
  | .regang f => some { grp := 1, op := 6, l96 := false, modOk := modZero f, switch := true }
  | .regangAny f => some { grp := 1, op := 6, l96 := false, modOk := f.ty == 0 && f.fn == 1, switch := true }
  | .exit f => some { grp := 1, op := 7, l96 := false, modOk := modZero f, switch := true }
  | .loop f => some { grp := 1, op := 8, dst := .s, a := .s, b := .disp, modOk := modZero f, extra := f.nwb || f.dst != 0 }
  | .vaddInt f => some (iSpec 0x00 f .v .v .none (f.fn.toNat ≤ 1))
  | .vsubInt f => some (iSpec 0x01 f .v .v .none (f.fn.toNat ≤ 1))
  | .vmulInt f => some (iSpec 0x02 f .v .v .none (f.fn == 0))
  | .vmulh f => some (iSpec 0x03 f .v .v .none (f.fn == 0))
  | .vmad f => some (iSpec 0x04 f .v .v .v (f.fn == 0))
  | .vdivInt f => some (iSpec 0x05 f .v .v .none (f.fn == 0))
  | .vrem f => some (iSpec 0x06 f .v .v .none (f.fn == 0))
  | .vabsInt f => some (iSpec 0x07 f .v .none .none (f.fn == 0))
  | .vnegInt f => some (iSpec 0x08 f .v .none .none (f.fn == 0))
  | .vminInt f => some (iSpec 0x09 f .v .v .none (f.fn == 0))
  | .vmaxInt f => some (iSpec 0x0a f .v .v .none (f.fn == 0))
  | .vand f => some { iSpec 0x0b f .v .v .none (f.fn == 0) with immS := true }
  | .vor f => some { iSpec 0x0c f .v .v .none (f.fn == 0) with immS := true }
  | .vxor f => some { iSpec 0x0d f .v .v .none (f.fn == 0) with immS := true }
  | .vnot f => some { iSpec 0x0e f .v .none .none (f.fn == 0) with immS := true }
  | .vshl f => some (iSpec 0x0f f .v .v .none (f.fn == 0))
  | .vshr f => some (iSpec 0x10 f .v .v .none (f.fn == 0))
  | .vsra f => some (iSpec 0x11 f .v .v .none (f.fn == 0))
  | .vrot f => some (iSpec 0x12 f .v .v .none (f.fn == 0))
  | .vclz f => some (iSpec 0x13 f .v .none .none (f.fn == 0))
  | .vpopc f => some (iSpec 0x14 f .v .none .none (f.fn == 0))
  | .vcmpInt f => some { iSpec 0x15 f .v .v .none (ty3264 f && f.fn.toNat ≤ 5) with dst := .m }
  | .vsel f => some (iSpec 0x16 f .v .v .m (f.fn == 0))
  | .vmov f => some (iSpec 0x17 f .v .none .none (f.fn == 0))
  | .vbfx f => some (iSpec 0x18 f .v .v .v (f.fn == 0))
  | .vdp4 f => some { iSpec 0x19 f .v .v .v32 (f.ty.toNat ≤ 7 && f.fn.toNat ≤ 1) with dst := .v32 }
  | .vaddFloat f => some (fSpec 0x00 f .v .none true)
  | .vsubFloat f => some (fSpec 0x01 f .v .none true)
  | .vmulFloat f => some (fSpec 0x02 f .v .none true)
  | .vfma f => some (fSpec 0x03 f .v .v true)
  | .vfms f => some (fSpec 0x04 f .v .v true)
  | .vfnma f => some (fSpec 0x05 f .v .v true)
  | .vdivFloat f => some (fSpec 0x06 f .v .none true)
  | .vsqrt f => some (fSpec 0x07 f .none .none true)
  | .vrsqrt f => some (fSpec 0x08 f .none .none true)
  | .vrcp f => some (fSpec 0x09 f .none .none true)
  | .vexp2 f => some (fSpec 0x0a f .none .none true)
  | .vlog2 f => some (fSpec 0x0b f .none .none true)
  | .vminFloat f => some (fSpec 0x0c f .v .none false)
  | .vmaxFloat f => some (fSpec 0x0d f .v .none false)
  | .vabsFloat f => some (fSpec 0x0e f .none .none false)
  | .vnegFloat f => some (fSpec 0x0f f .none .none false)
  | .vcmpFloat f => some { fSpec 0x10 f .v .none false with dst := .m, modOk := f.ty == 0 }
  | .vrint f => some { fSpec 0x11 f .none .none true with modOk := tyFloat f && f.fn.toNat ≤ 4 }
  | .vclass f => some (fSpec 0x12 f .none .none false)
  | .vscale f => some (fSpec 0x13 f .v .none true)
  | .vlse f => some (fSpec 0x14 f .v .none true)
  | .vcvt f => some { grp := 4, op := 0, dst := .v32, a := .v32, modOk := f.ty.toNat ≤ 9 && f.ty != 3, pfx := true,
                      rounds := true, srOk := f.ty == 4 || f.ty == 5, slotty := true }
  | .vcvtn f => some { grp := 4, op := 1, dst := .run, a := .run, b := .imm8z, c := .run, modOk := tyFloat f, nwbOk := false,
                       pfx := true, rounds := true, srOk := true, slotty := true, noHandler := true }
  | .vcvtw f => some { grp := 4, op := 2, dst := .run, a := .run, b := .imm8z, modOk := tyFloat f, nwbOk := false,
                       pfx := true, rounds := true, fourth := true, slotty := true, noHandler := true }
  | .vcbd f => some { grp := 4, op := 3, dst := .run, a := .v32, b := .imm8z, modOk := tyFloat f, nwbOk := false,
                      pfx := true, rounds := true, fourth := true, slotty := true, noHandler := true }
  | .vsetlfs f => some { grp := 4, op := 4, a := .v32, modOk := f.ty == 9 && f.fn == 0, immS := false, pfx := true, slotty := true }
  | .vgetlfs f => some { grp := 4, op := 5, dst := .v32, modOk := f.ty == 9 && f.fn == 0, pfx := true, slotty := true }
  | .vperm f => some (xSpec 0x00 f .v32 (f.fn == 0))
  | .vshfl f => some (xSpec 0x01 f .uni (f.fn.toNat ≤ 3))
  | .vbcl f => some (xSpec 0x02 f .none (f.fn == 0))
  | .vred f => some (xSpec 0x03 f .none (f.fn.toNat ≤ 5 && (f.ty != 0 || f.fn.toNat ≤ 2)))
  | .vscan f => some (xSpec 0x04 f .none (f.fn.toNat ≤ 5 && (f.ty != 0 || f.fn.toNat ≤ 2)))
  | .vscanx f => some (xSpec 0x05 f .none (f.fn.toNat ≤ 5 && (f.ty != 0 || f.fn.toNat ≤ 2)))
  | .vcomp f => some (xSpec 0x06 f .m (f.fn == 0))
  | .vexpd f => some (xSpec 0x07 f .m (f.fn == 0))
  | .ld f => some { memSpec 6 0 (if f.ctl.fmte then .run else .v) .off .none
                      (f.ty.toNat ≤ 0xb && f.ty != 3 && f.fn == 0) (ctlLoadStore f 1) with
                    pfx := true, slotty := true, rounds := f.ctl.fmte, noHandler := f.ctl.fmte,
                    extra := !f.ctl.fmte || (tyFloat f && f.ctl.rm != 5 && !f.nwb) }
  | .st f => some { memSpec 6 1 .none .off (if f.ctl.fmte then .run else .v)
                      (f.ty.toNat ≤ 0xb && f.ty != 3 && f.fn == 0) (ctlLoadStore f 2) with
                    immS := tySigned f, pfx := true, slotty := true, rounds := f.ctl.fmte, srOk := f.ctl.fmte, noHandler := f.ctl.fmte,
                    extra := !f.ctl.fmte || tyFloat f }
  | .ldfe f => some { memSpec 6 2 (if f.m58 then .v64 else .v32) .off (if f.m58 then .u else .none)
                        ((f.ty == 0 || f.ty == 8 || f.ty == 9) && f.fn.toNat ≤ 3) (ordOk f.ctl 0 false && ctlMem f true) with
                      pfx := true, slotty := true }
  | .stfe f => some { memSpec 6 3 (if f.m58 then .v32 else .none) .off .v32
                        ((f.ty == 0 || f.ty == 8 || f.ty == 9) && (f.fn == 0 || f.fn == 2)) (ordOk f.ctl 0 false && ctlMem f true) with
                      immS := tySigned f, pfx := true, slotty := true }
  | .stbw f => some { memSpec 6 4 .none .uni .run (f.ty == 0 && f.fn.toNat ≤ 3) (ordOk f.ctl 2 false && ctlMem f false) with once := true }
  | .rwb f => some { grp := 6, op := 5, a := .s, b := .u, modOk := f.ty == 0 && f.fn.toNat ≤ 1, once := true, switch := true }
  | .rinv f => some { grp := 6, op := 6, a := .s, b := .u, modOk := f.ty == 0 && f.fn.toNat ≤ 1, once := true, switch := true }
  | .prf f => some (memSpec 6 7 .none .off .none (modZero f) (ordOk f.ctl 0 false && ctlMem f false))
  | .lkl f => some { grp := 6, op := 8, dst := .s, a := .s, b := .u, modOk := f.ty == 0 && f.fn.toNat ≤ 1, once := true, switch := true }
  | .ulkl f => some { grp := 6, op := 9, a := .s, b := .u, modOk := f.ty == 0 && f.fn.toNat ≤ 1, once := true, switch := true }
  | .atom f => some { memSpec 7 0 .v .off .v ((f.ty == 0 && f.fn == 0) || (ty3264 f && f.fn.toNat ≤ 6))
                        (ordOk f.ctl 0 true && ctlMem f true) with immS := tySigned f }
  | .cas f => some { memSpec 7 1 .v .off .v (ty3264 f && f.fn == 0) (ordOk f.ctl 0 true && ctlMem f true) with
                     immS := tySigned f, nwbOk := false }
  | .fence f => some { grp := 7, op := 2, l96 := false, modOk := f.fenceKind != 0 && f.fenceScope != 7 && f.fn.toNat % 4 == 0, switch := true }
  | .barinit f => some { memSpec 7 3 .none .uni .u (modZero f) (f.ctl.ord == 2 && f.ctl.sc != 7 && ctlMem f true) with once := true }
  | .bararr f => some { memSpec 7 4 .s .uni .u (modZero f) (ordOk f.ctl 0 false && ctlMem f true) with once := true }
  | .barwait f => some { memSpec 7 5 .s .uni .u (modZero f) (ordOk f.ctl 0 false && ctlMem f true) with once := true }
  | .mma f => some { grp := 8, op := 0, l64 := false, l96 := false, l128 := true, dst := .s, a := .run, b := .vDeck, c := .kX,
                     modOk := modZero f, ctlOk := ctlMatrix f false, switch := true, once := true, noHandler := true }
  | .mhad f => some { grp := 8, op := 1, l64 := false, l96 := false, l128 := true, dst := .s, a := .run, c := .kX,
                      modOk := modZero f, ctlOk := ctlMatrix f true, switch := true, once := true, noHandler := true }
  | .mpass f => some { grp := 8, op := 2, l64 := false, l96 := false, l128 := true, dst := .s, a := .run, b := .vDeck, c := .kX,
                       modOk := modZero f, ctlOk := ctlMatrix f false, switch := true, once := true, noHandler := true }
  | .amld f => some { grp := 8, op := 3, dst := .run, a := .u, b := .u, modOk := modZero f, nwbOk := false, switch := true, noHandler := true,
                      extra := !f.dind }
  | .amst f => some { grp := 8, op := 4, a := .u, b := .u, c := .run, modOk := modZero f, switch := true, noHandler := true }
  | .amclr f => some { grp := 8, op := 5, a := .u, modOk := modZero f, switch := true, once := true, noHandler := true }
  | .amtr f => some { grp := 8, op := 6, dst := .run, a := .u, b := .u, modOk := modZero f, nwbOk := false, switch := true, noHandler := true,
                      extra := !f.dind }
  | .wdecl f => some { grp := 9, op := 0, a := .imm8, b := .imm8, c := .u, modOk := modZero f, switch := true, once := true,
                       noHandler := true, extra := f.b.immNat % 32 < 0x14 }
  | .wpush f => some { grp := 9, op := 1, a := .imm8, b := .v32, c := if f.m58 then .u else .none, modOk := f.ty == 0 && f.fn.toNat ≤ 3,
                       switch := true, noHandler := true }
  | .wq f => some { grp := 9, op := 2, dst := .v32, a := .imm8, c := if f.m58 then .u else .none, modOk := f.ty == 0 && f.fn.toNat ≤ 3,
                    switch := true, noHandler := true }
  | .wrst f => some { grp := 9, op := 3, a := .imm8, modOk := modZero f, switch := true, once := true, noHandler := true }
  | .wlen f => some { grp := 9, op := 4, a := .imm8, b := .u, modOk := modZero f, switch := true, once := true, noHandler := true }
  | .wsave f => some { grp := 9, op := 5, a := .imm8, b := .u, c := if f.m58 then .u else .none, modOk := f.ty == 0 && (f.fn == 0 || f.fn == 2),
                       switch := true, once := true, noHandler := true }
  | .wload f => some { grp := 9, op := 6, a := .imm8, b := .u, c := if f.m58 then .u else .none, modOk := f.ty == 0 && (f.fn == 0 || f.fn == 2),
                       switch := true, once := true, noHandler := true }
  | .rtag f => some { grp := 9, op := 0x10, dst := .v32, a := .imm8, b := .disp, c := .imm8, modOk := modZero f, nwbOk := false,
                      once := true, noHandler := true, extra := f.a.immNat < 32 && 1 ≤ f.c.immNat && f.c.immNat ≤ 4 }
  | .rdrop f => some { grp := 9, op := 0x11, a := .vreg, modOk := modZero f, once := true, noHandler := true }
  | .rmat f => some { grp := 9, op := 0x12, a := .vreg, modOk := modZero f, once := true, noHandler := true }
  | .rclr f => some { grp := 9, op := 0x13, a := .imm8, modOk := modZero f, once := true, noHandler := true, extra := f.a.immNat < 32 }
  | .cp f => some { grp := 0xa, op := 0, l64 := false, l96 := false, l128 := true, dst := .s, a := .sEven, b := .s, c := .immX,
                    modOk := modZero f, ctlOk := ctlEngine f 0 3 && cpOk f, switch := true, once := true, noHandler := true }
  | .bcast f => some { grp := 0xa, op := 1, l64 := false, l96 := false, l128 := true, dst := .s, a := .sEven, b := .u, c := .immX,
                       modOk := modZero f, ctlOk := ctlEngine f 6 6 && collOk f false, switch := true, once := true, noHandler := true }
  | .bcred f => some { grp := 0xa, op := 2, l64 := false, l96 := false, l128 := true, dst := .s, a := .sEven, b := .u, c := .immX,
                       modOk := modZero f, ctlOk := ctlEngine f 6 6 && collOk f true, switch := true, once := true, noHandler := true }
  | .bcall f => some { grp := 0xa, op := 3, l64 := false, l96 := false, l128 := true, dst := .s, a := .sEven, b := .u, c := .immX,
                       modOk := modZero f, ctlOk := ctlEngine f 6 6 && collOk f true, switch := true, once := true, noHandler := true }
  | .eput f => some { grp := 0xa, op := 4, l64 := false, l96 := false, l128 := true, dst := .s, a := .s, b := .s, c := .immX,
                      modOk := modZero f, switch := true, once := true, noHandler := true,
                      ctlOk := ctlEngine f 7 7 && !f.ctl.fmte && f.ctl.sl == 0 && f.ctl.rm == 0 && f.ctl.xmod == 0 }
  | .tlwaitGe f => some { grp := 0xa, op := 5, l64 := false, l96 := false, l128 := true, a := .u, b := .immX, modOk := modZero f,
                          switch := true, once := true, noHandler := true,
                          ctlOk := ctlEngine f 0 7 && f.ctl.rc == 0 && !f.ctl.fmte && f.ctl.sl == 0 && f.ctl.rm == 0 && f.ctl.xmod == 0 }
  | .tlwaitLt f => some { grp := 0xa, op := 5, l64 := false, l96 := false, l128 := true, a := .u, b := .immX, modOk := f.ty == 0 && f.fn == 1,
                          switch := true, once := true, noHandler := true,
                          ctlOk := ctlEngine f 0 7 && f.ctl.rc == 0 && !f.ctl.fmte && f.ctl.sl == 0 && f.ctl.rm == 0 && f.ctl.xmod == 0 }
  | .spawn f => some { grp := 0xb, op := 0, l128 := true, a := .dispX, b := .s, c := .v64, modOk := modZero f, ctlOk := ctlTask f true false, switch := true }
  | .spawnOne f => some { grp := 0xb, op := 0, l128 := true, a := .dispX, b := .s, c := .v64, modOk := f.ty == 0 && f.fn == 1,
                          ctlOk := ctlTask f true false, switch := true, once := true }
  | .post f => some { grp := 0xb, op := 1, l128 := true, a := .s, b := .u, c := .dispX, modOk := modZero f, ctlOk := ctlTask f true true, switch := true, once := true }
  | .callq f => some { grp := 0xb, op := 2, l128 := true, a := .v64, modOk := modZero f, ctlOk := ctlTask f false false, switch := true }
  | .retq f => some { grp := 0xb, op := 3, modOk := modZero f, switch := true }
  | .join f => some { grp := 0xb, op := 4, a := .s, c := .disp, modOk := modZero f, switch := true, once := true }
  | .mkrec f => some { grp := 0xb, op := 5, l128 := true, a := .sRun, b := .dispX, c := .u, modOk := modZero f, ctlOk := ctlTask f true true,
                       switch := true, once := true }
  | .eget f => some { grp := 0xb, op := 6, l128 := true, dst := .s, a := .s, b := .s, c := .dispX, modOk := modZero f,
                      ctlOk := ctlTask f false true, switch := true, once := true }
  | .sysr f => some (ySpec 0 f .s .u .none .u)
  | .sysw f => some (ySpec 1 f .none .u .s .u)
  | .bclaim f => some (ySpec 2 f .s .u .none .none)
  | .brel f => some (ySpec 3 f .none .none .none .none)
  | .tsr f => some { ySpec 4 f .s .imm8 .none .none with extra := f.a.immNat ≤ 2 }
  | .phint f => some (ySpec 5 f .none .disp .none .none)
  | .rtrapResume f => some { ySpec 6 f .none .u .u .none with l96 := false, handlerOnly := true }
  | .rtrapKill f => some { ySpec 6 f .none .u .u .none with l96 := false, handlerOnly := true, modOk := f.ty == 0 && f.fn == 1 }
  | .halt f => some { ySpec 7 f .none .none .none .none with l96 := false }
  | .trc f => some (ySpec 8 f .none .s .none .none)
  | _ => none

/-- The fields of an instruction; none for the steps of the other agents. -/
def Instr.fields? : Instr → Option Fields
  | .nop f | .smov f | .sadd f | .ssub f | .smul f | .smulh f | .sdiv f | .srem f | .sand f | .sor f | .sxor f | .sshl f
  | .sshr f | .ssra f | .smin f | .smax f | .scmp f | .ssel f | .slea f | .sclz f | .spopc f | .sbfx f | .sbfi f | .sgetl f
  | .vsetl f | .mmov f | .mand f | .mor f | .mxor f | .mandn f | .mpopc f | .mffs f | .br f | .brs f | .jmpi f | .call f
  | .calli f | .ret f | .regang f | .regangAny f | .exit f | .loop f | .vaddInt f | .vsubInt f | .vmulInt f | .vmulh f
  | .vmad f | .vdivInt f | .vrem f | .vabsInt f | .vnegInt f | .vminInt f | .vmaxInt f | .vand f | .vor f | .vxor f | .vnot f
  | .vshl f | .vshr f | .vsra f | .vrot f | .vclz f | .vpopc f | .vcmpInt f | .vsel f | .vmov f | .vbfx f | .vdp4 f
  | .vaddFloat f | .vsubFloat f | .vmulFloat f | .vfma f | .vfms f | .vfnma f | .vdivFloat f | .vsqrt f | .vrsqrt f | .vrcp f
  | .vexp2 f | .vlog2 f | .vminFloat f | .vmaxFloat f | .vabsFloat f | .vnegFloat f | .vcmpFloat f | .vrint f | .vclass f
  | .vscale f | .vlse f | .vcvt f | .vcvtn f | .vcvtw f | .vcbd f | .vsetlfs f | .vgetlfs f | .vperm f | .vshfl f | .vbcl f
  | .vred f | .vscan f | .vscanx f | .vcomp f | .vexpd f | .ld f | .st f | .ldfe f | .stfe f | .stbw f | .rwb f | .rinv f
  | .prf f | .lkl f | .ulkl f | .atom f | .cas f | .fence f | .barinit f | .bararr f | .barwait f | .mma f | .mhad f | .mpass f
  | .amld f | .amst f | .amclr f | .amtr f | .wdecl f | .wpush f | .wq f | .wrst f | .wlen f | .wsave f | .wload f | .rtag f
  | .rdrop f | .rmat f | .rclr f | .cp f | .bcast f | .bcred f | .bcall f | .eput f | .tlwaitGe f | .tlwaitLt f | .spawn f
  | .spawnOne f | .post f | .callq f | .retq f | .join f | .mkrec f | .eget f | .sysr f | .sysw f | .bclaim f | .brel f
  | .tsr f | .phint f | .rtrapResume f | .rtrapKill f | .halt f | .trc f => some f
  | _ => none

/-- Does the class take a pair of KONST words (R327, R354, R469)? -/
def Cls.pair (k : Cls) (f : Fields) : Bool :=
  match k with
  | .sT | .v => ty64 f
  | .s | .u | .m => true
  | _ => false

/-- Is the operand, of a class that names 64 bits, in a register pair (R120)? -/
def Cls.wide (k : Cls) (f : Fields) : Bool :=
  match k with
  | .v | .vreg => ty64 f
  | .v64 => true
  | _ => false

/-- A source field's kind and number are legal for its class (R321, R354, R372, R396, R419). -/
def srcOk (k : Cls) (f : Fields) : Src → Bool
  | .bad _ => false
  | .reg n =>
    match k with
    | .none | .imm8z => n == 0
    | .sT | .s | .u => n.toNat < 64
    | .sEven => n.toNat < 64 && n.toNat % 2 == 0
    | .sRun => n.toNat ≤ 61
    | .m => n.toNat < 16
    | .v | .v64 | .vreg => !k.wide f || n.toNat % 2 == 0
    | .v32 | .run | .vDeck | .off => true
    | .uni | .kX | .disp | .dispX | .immX | .imm8 => false
  | .latch _ =>
    match k with
    | .sT | .s | .u | .m | .v | .v32 | .v64 | .off => true
    | _ => false
  | .imm _ =>
    match k with
    | .sT | .s | .u | .m | .v | .v32 | .off | .uni | .disp | .imm8 | .imm8z => true
    | .dispX => f.len != .l128
    | _ => false
  | .immX =>
    match k with
    | .sT | .s | .u | .m | .v | .v32 | .off | .uni | .kX | .disp | .dispX | .immX => true
    | _ => false
  | .konst =>
    match k with
    | .sT | .s | .u | .m | .v | .v32 | .off | .uni | .kX => true
    | _ => false
  | .scal _ =>
    match k with
    | .v | .v32 | .v64 | .off | .uni | .vDeck => true
    | _ => false
  | .ind _ =>
    match k with
    | .v | .v32 | .v64 | .off | .vreg | .vDeck => true
    | _ => false
  | .laneNo =>
    match k with
    | .v => !ty64 f
    | .v32 | .v64 | .off => true
    | _ => false

/-- 16- and 8-bit element types, those of the source of `vcvt` among them, take no lane number: it is a 32-bit integer (R372). -/
def laneNoOk (sp : OpSpec) (f : Fields) : Bool :=
  let bad32 : Bool := !(f.ty == 0 || f.ty == 8 || f.ty == 9)
  let typed : Bool := sp.grp == 2 || sp.grp == 3 || sp.grp == 5
  !(sp.grp == 4 && sp.op == 0 && f.a == .laneNo && !(f.fn == 0 || f.fn == 3 || f.fn == 4)) && !(typed && bad32 && ((sp.a == .v && f.a == .laneNo) || (sp.b == .v && f.b == .laneNo) || (sp.c == .v && f.c == .laneNo)))

def Src.usesX : Src → Bool
  | .immX | .konst | .ind _ => true
  | _ => false

/-- DS (R328). -/
def Fields.ds (f : Fields) : Nat := f.x.toNat / 0x2000000 % 64
def Fields.ka (f : Fields) : Nat := f.x.toNat % 256
def Fields.kb (f : Fields) : Nat := f.x.toNat / 256 % 256
def Fields.kc (f : Fields) : Nat := f.x.toNat / 0x10000 % 256
/-- KWIN, KOFF and PAIR (R327). -/
def Fields.kwin (f : Fields) : Nat := f.x.toNat / 0x20000000
def Fields.koff (f : Fields) : Nat := f.x.toNat / 0x1000 % 0x20000
def Fields.kpair (f : Fields) : Bool := f.x.getLsbD 11

def Cls.isVector : Cls → Bool
  | .v | .v32 | .v64 | .run => true
  | _ => false

def Src.isInd : Src → Bool
  | .ind _ => true
  | _ => false

/-- The use of X (R325 to R328). -/
def xOk (sp : OpSpec) (f : Fields) : Bool :=
  let srcs := [(sp.a, f.a), (sp.b, f.b), (sp.c, f.c)]
  let useImm := srcs.any fun p => p.2 == .immX
  let useK := srcs.any fun p => p.2 == .konst
  let useInd := srcs.any fun p => p.2.isInd
  match f.len with
  | .l64 => f.x == 0 && !useImm && !useK && !useInd
  | _ =>
    if sp.grp == 0 && sp.op == 0 then true
    else if useImm then !useK && !useInd
    else if useK then
      !useInd && f.x.toNat % 2048 == 0 && !(f.kpair && f.koff % 2 == 1) &&
        srcs.all fun p => p.2 != .konst || (f.kpair == p.1.pair f)
    else
      (useInd || f.dind) && !f.x.getLsbD 24 && (f.dind || f.ds == 0) && (!f.dind || sp.dst.isVector) &&
        (f.a.isInd || f.ka == 0) && (f.b.isInd || f.kb == 0) && (f.c.isInd || f.kc == 0)

/-- The destination field (R323, R120). -/
def dstOk (sp : OpSpec) (f : Fields) : Bool :=
  match sp.dst with
  | .none => f.dst == 0 && f.lat == 0 && !f.nwb
  | k =>
    if f.nwb then sp.nwbOk && f.dst == 0
    else
      match k with
      | .s => f.dst.toNat < 64
      | .m => f.dst.toNat < 16 && f.dst != 0
      | .v | .v64 => f.dind || !k.wide f || f.dst.toNat % 2 == 0
      | _ => true

def lenOk (sp : OpSpec) (f : Fields) : Bool :=
  match f.len with
  | .l64 => sp.l64
  | .l96 => sp.l96
  | .l128 => sp.l128

/-- PRM names a mode that the operation may take (R331, R333, R155). -/
def prmOk (sp : OpSpec) (f : Fields) : Bool :=
  match f.pfx with
  | none => true
  | some p => p.prm.toNat ≤ 5 && (p.prm != 5 || !sp.rounds || sp.srOk)

/-- FOP of an operation with a fourth operand is a register or an 8-bit immediate (R389). -/
def fopOk (sp : OpSpec) (f : Fields) : Bool :=
  match f.pfx with
  | none => true
  | some p =>
    match p.fop with
    | .bad _ => false
    | .latch _ | .scal _ | .laneNo | .ind _ | .immX | .konst => !sp.fourth
    | _ => true

/-- No ILLEGAL_ENCODING (R334). -/
def encodingOk (sp : OpSpec) (f : Fields) : Bool :=
  lenOk sp f && f.guard != ⟨true, 0⟩ && srcOk sp.a f f.a && srcOk sp.b f f.b && srcOk sp.c f f.c && laneNoOk sp f &&
    dstOk sp f && xOk sp f && sp.modOk && sp.ctlOk && (f.len == .l128 || f.ctl == Ctl.zero) && prmOk sp f && fopOk sp f && sp.extra

/-- No ILLEGAL_PREFIX that the encoding alone shows (R333). -/
def prefixOk (sp : OpSpec) (f : Fields) : Bool :=
  match f.pfx with
  | none => true
  | some p =>
    sp.pfx && f.guard == ⟨false, 0⟩ && !(p.pmask == 0 && p.pinv) && (p.fop.isZero || sp.fourth) && !p.fop.usesX &&
      (p.prm == 0 || sp.rounds) && (p.pslo == 0 || sp.slotty)

/-- A well-formed instruction: an instruction row with neither ILLEGAL_ENCODING nor ILLEGAL_PREFIX. -/
def wellFormed (i : Instr) : Bool :=
  match opSpec i, i.fields? with
  | some sp, some f => encodingOk sp f && prefixOk sp f
  | _, _ => false

end Sys2Proof
end

