-- ==== Sys2Proof/Decode.lean ====
section
/-! DEFINITION. Decoding of instruction words (R314 to R334, R346 to R348), total on any bytes, and the encoder beside it. -/

namespace Sys2Proof

/-- Why bytes are no instruction (R334). -/
inductive DecodeFault where
  /-- The unit does not fit the bytes given: within a fetch block, FETCH_ALIGN (R315). -/
  | tooShort
  /-- An unassigned operation or a group 0xd to 0xf (R319). -/
  | illegalOpcode
  /-- R334's ILLEGAL_ENCODING. -/
  | illegalEncoding
  /-- R333's ILLEGAL_PREFIX. -/
  | illegalPrefix
  /-- The pad word: no instruction, and no fault of the device either: the fetch passes it (R316). -/
  | padWord
  deriving DecidableEq, Repr

/-- What a fetched unit is before the checks of R334. -/
inductive Unit32 where
  /-- An instruction of `len` bytes, its prefix included; it may be ill formed. -/
  | instr (i : Instr) (len : Nat)
  /-- The pad word, 4 bytes (R316). -/
  | pad
  | bad (e : DecodeFault)
  deriving DecidableEq, Repr

/-- Group 0x0 of the opcode map (R348). -/
def opMap0 (op : Nat) (f : Fields) : Option Instr :=
  match op with
  | 0 => some (.nop f)
  | 1 => some (.smov f)
  | 2 => some (.sadd f)
  | 3 => some (.ssub f)
  | 4 => some (.smul f)
  | 5 => some (.smulh f)
  | 6 => some (.sdiv f)
  | 7 => some (.srem f)
  | 8 => some (.sand f)
  | 9 => some (.sor f)
  | 10 => some (.sxor f)
  | 11 => some (.sshl f)
  | 12 => some (.sshr f)
  | 13 => some (.ssra f)
  | 14 => some (.smin f)
  | 15 => some (.smax f)
  | 16 => some (.scmp f)
  | 17 => some (.ssel f)
  | 18 => some (.slea f)
  | 19 => some (.sclz f)
  | 20 => some (.spopc f)
  | 21 => some (.sbfx f)
  | 22 => some (.sbfi f)
  | 23 => some (.sgetl f)
  | 24 => some (.vsetl f)
  | 25 => some (.mmov f)
  | 26 => some (.mand f)
  | 27 => some (.mor f)
  | 28 => some (.mxor f)
  | 29 => some (.mandn f)
  | 30 => some (.mpopc f)
  | 31 => some (.mffs f)
  | _ => none

/-- Group 0x1 of the opcode map (R348). -/
def opMap1 (op : Nat) (f : Fields) : Option Instr :=
  match op with
  | 0 => some (.br f)
  | 1 => some (.brs f)
  | 2 => some (.jmpi f)
  | 3 => some (.call f)
  | 4 => some (.calli f)
  | 5 => some (.ret f)
  | 6 => some (if f.fn.getLsbD 0 then .regangAny f else .regang f)
  | 7 => some (.exit f)
  | 8 => some (.loop f)
  | _ => none

/-- Group 0x2 of the opcode map (R348). -/
def opMap2 (op : Nat) (f : Fields) : Option Instr :=
  match op with
  | 0 => some (.vaddInt f)
  | 1 => some (.vsubInt f)
  | 2 => some (.vmulInt f)
  | 3 => some (.vmulh f)
  | 4 => some (.vmad f)
  | 5 => some (.vdivInt f)
  | 6 => some (.vrem f)
  | 7 => some (.vabsInt f)
  | 8 => some (.vnegInt f)
  | 9 => some (.vminInt f)
  | 10 => some (.vmaxInt f)
  | 11 => some (.vand f)
  | 12 => some (.vor f)
  | 13 => some (.vxor f)
  | 14 => some (.vnot f)
  | 15 => some (.vshl f)
  | 16 => some (.vshr f)
  | 17 => some (.vsra f)
  | 18 => some (.vrot f)
  | 19 => some (.vclz f)
  | 20 => some (.vpopc f)
  | 21 => some (.vcmpInt f)
  | 22 => some (.vsel f)
  | 23 => some (.vmov f)
  | 24 => some (.vbfx f)
  | 25 => some (.vdp4 f)
  | _ => none

/-- Group 0x3 of the opcode map (R348). -/
def opMap3 (op : Nat) (f : Fields) : Option Instr :=
  match op with
  | 0 => some (.vaddFloat f)
  | 1 => some (.vsubFloat f)
  | 2 => some (.vmulFloat f)
  | 3 => some (.vfma f)
  | 4 => some (.vfms f)
  | 5 => some (.vfnma f)
  | 6 => some (.vdivFloat f)
  | 7 => some (.vsqrt f)
  | 8 => some (.vrsqrt f)
  | 9 => some (.vrcp f)
  | 10 => some (.vexp2 f)
  | 11 => some (.vlog2 f)
  | 12 => some (.vminFloat f)
  | 13 => some (.vmaxFloat f)
  | 14 => some (.vabsFloat f)
  | 15 => some (.vnegFloat f)
  | 16 => some (.vcmpFloat f)
  | 17 => some (.vrint f)
  | 18 => some (.vclass f)
  | 19 => some (.vscale f)
  | 20 => some (.vlse f)
  | _ => none

/-- Group 0x4 of the opcode map (R348). -/
def opMap4 (op : Nat) (f : Fields) : Option Instr :=
  match op with
  | 0 => some (.vcvt f)
  | 1 => some (.vcvtn f)
  | 2 => some (.vcvtw f)
  | 3 => some (.vcbd f)
  | 4 => some (.vsetlfs f)
  | 5 => some (.vgetlfs f)
  | _ => none

/-- Group 0x5 of the opcode map (R348). -/
def opMap5 (op : Nat) (f : Fields) : Option Instr :=
  match op with
  | 0 => some (.vperm f)
  | 1 => some (.vshfl f)
  | 2 => some (.vbcl f)
  | 3 => some (.vred f)
  | 4 => some (.vscan f)
  | 5 => some (.vscanx f)
  | 6 => some (.vcomp f)
  | 7 => some (.vexpd f)
  | _ => none

/-- Group 0x6 of the opcode map (R348). -/
def opMap6 (op : Nat) (f : Fields) : Option Instr :=
  match op with
  | 0 => some (.ld f)
  | 1 => some (.st f)
  | 2 => some (.ldfe f)
  | 3 => some (.stfe f)
  | 4 => some (.stbw f)
  | 5 => some (.rwb f)
  | 6 => some (.rinv f)
  | 7 => some (.prf f)
  | 8 => some (.lkl f)
  | 9 => some (.ulkl f)
  | _ => none

/-- Group 0x7 of the opcode map (R348). -/
def opMap7 (op : Nat) (f : Fields) : Option Instr :=
  match op with
  | 0 => some (.atom f)
  | 1 => some (.cas f)
  | 2 => some (.fence f)
  | 3 => some (.barinit f)
  | 4 => some (.bararr f)
  | 5 => some (.barwait f)
  | _ => none

/-- Group 0x8 of the opcode map (R348). -/
def opMap8 (op : Nat) (f : Fields) : Option Instr :=
  match op with
  | 0 => some (.mma f)
  | 1 => some (.mhad f)
  | 2 => some (.mpass f)
  | 3 => some (.amld f)
  | 4 => some (.amst f)
  | 5 => some (.amclr f)
  | 6 => some (.amtr f)
  | _ => none

/-- Group 0x9 of the opcode map (R348). -/
def opMap9 (op : Nat) (f : Fields) : Option Instr :=
  match op with
  | 0 => some (.wdecl f)
  | 1 => some (.wpush f)
  | 2 => some (.wq f)
  | 3 => some (.wrst f)
  | 4 => some (.wlen f)
  | 5 => some (.wsave f)
  | 6 => some (.wload f)
  | 16 => some (.rtag f)
  | 17 => some (.rdrop f)
  | 18 => some (.rmat f)
  | 19 => some (.rclr f)
  | _ => none

/-- Group 0xa of the opcode map (R348). -/
def opMapa (op : Nat) (f : Fields) : Option Instr :=
  match op with
  | 0 => some (.cp f)
  | 1 => some (.bcast f)
  | 2 => some (.bcred f)
  | 3 => some (.bcall f)
  | 4 => some (.eput f)
  | 5 => some (if f.fn.getLsbD 0 then .tlwaitLt f else .tlwaitGe f)
  | _ => none

/-- Group 0xb of the opcode map (R348). -/
def opMapb (op : Nat) (f : Fields) : Option Instr :=
  match op with
  | 0 => some (if f.fn.getLsbD 0 then .spawnOne f else .spawn f)
  | 1 => some (.post f)
  | 2 => some (.callq f)
  | 3 => some (.retq f)
  | 4 => some (.join f)
  | 5 => some (.mkrec f)
  | 6 => some (.eget f)
  | _ => none

/-- Group 0xc of the opcode map (R348). -/
def opMapc (op : Nat) (f : Fields) : Option Instr :=
  match op with
  | 0 => some (.sysr f)
  | 1 => some (.sysw f)
  | 2 => some (.bclaim f)
  | 3 => some (.brel f)
  | 4 => some (.tsr f)
  | 5 => some (.phint f)
  | 6 => some (if f.fn.getLsbD 0 then .rtrapKill f else .rtrapResume f)
  | 7 => some (.halt f)
  | 8 => some (.trc f)
  | _ => none

/-- The opcode map (R346, R348); none is ILLEGAL_OPCODE (R319). -/
def opMap (grp op : Nat) (f : Fields) : Option Instr :=
  match grp with
  | 0 => opMap0 op f
  | 1 => opMap1 op f
  | 2 => opMap2 op f
  | 3 => opMap3 op f
  | 4 => opMap4 op f
  | 5 => opMap5 op f
  | 6 => opMap6 op f
  | 7 => opMap7 op f
  | 8 => opMap8 op f
  | 9 => opMap9 op f
  | 10 => opMapa op f
  | 11 => opMapb op f
  | 12 => opMapc op f
  | _ => none

/-- A source field (R321). -/
def decodeSrc (b : BitVec 10) : Src :=
  let n := b.extractLsb' 0 8
  match b.toNat / 256 with
  | 0 => .reg n
  | 1 => if n.toNat < 4 then .latch (b.extractLsb' 0 2) else .bad b
  | 2 => .imm n
  | _ =>
    if n.toNat < 0x40 then .scal (b.extractLsb' 0 6)
    else if n.toNat < 0x80 then .ind (b.extractLsb' 0 6)
    else if n.toNat = 0x80 then .immX
    else if n.toNat = 0x81 then .konst
    else if n.toNat = 0x82 then .laneNo
    else .bad b

/-- CTL (R329). -/
def decodeCtl (w : Word) : Ctl :=
  { rc := w.extractLsb' 29 3, sc := w.extractLsb' 26 3, ord := w.extractLsb' 24 2, sp := w.extractLsb' 21 3,
    fmte := w.getLsbD 20, sl := w.extractLsb' 17 3, rm := w.extractLsb' 14 3, xmod := w.extractLsb' 0 14 }

/-- The prefix word (R331). -/
def decodePfx (w : Word) : Pfx :=
  { pslo := w.extractLsb' 21 3, fop := decodeSrc (w.extractLsb' 11 10), pz := w.getLsbD 10, prm := w.extractLsb' 7 3,
    pinv := w.getLsbD 6, pmask := w.extractLsb' 2 4 }

def decodeLen (b : BitVec 2) : Option Len :=
  match b.toNat with
  | 0 => some .l64
  | 1 => some .l96
  | 2 => some .l128
  | _ => none

/-- Bytes of the length (R314). -/
def Len.bytes : Len → Nat
  | .l64 => 8
  | .l96 => 12
  | .l128 => 16

/-- The fields of a base word (R318) with its X and CTL words. -/
def decodeFields (w : DWord) (len : Len) (x ctl : Word) (pfx : Option Pfx) : Fields :=
  { ty := w.extractLsb' 60 4, fn := w.extractLsb' 57 3, c := decodeSrc (w.extractLsb' 47 10), b := decodeSrc (w.extractLsb' 37 10),
    a := decodeSrc (w.extractLsb' 27 10), dst := w.extractLsb' 19 8, lat := w.extractLsb' 17 2, nwb := w.getLsbD 16,
    guard := ⟨w.getLsbD 15, w.extractLsb' 12 3⟩, len, x, ctl := decodeCtl ctl, pfx }

/-- A little-endian 32-bit word and the bytes after it. -/
def takeWord : List Byte → Option (Word × List Byte)
  | b0 :: b1 :: b2 :: b3 :: rest => some (b3 ++ b2 ++ b1 ++ b0, rest)
  | _ => none

/-- A base with its X and CTL (R318), `pre` bytes after the start of its unit. -/
def decodeBase (bytes : List Byte) (pre : Nat) (pfx : Option Pfx) : Unit32 :=
  match takeWord bytes with
  | none => .bad .tooShort
  | some (w0, r0) =>
    match decodeLen (w0.extractLsb' 0 2), takeWord r0 with
    | none, _ => .bad .illegalEncoding
    | _, none => .bad .tooShort
    | some len, some (w1, r1) =>
      let w : DWord := w1 ++ w0
      let build (x ctl : Word) : Unit32 :=
        match opMap (w.extractLsb' 8 4).toNat (w.extractLsb' 2 6).toNat (decodeFields w len x ctl pfx) with
        | some i => .instr i (pre + len.bytes)
        | none => .bad .illegalOpcode
      match len with
      | .l64 => build 0 0
      | .l96 =>
        match takeWord r1 with
        | none => .bad .tooShort
        | some (x, _) => build x 0
      | .l128 =>
        match takeWord r1 with
        | none => .bad .tooShort
        | some (x, r2) =>
          match takeWord r2 with
          | none => .bad .tooShort
          | some (ctl, _) => build x ctl

/-- The unit at the start of the bytes (R314 to R316). -/
def decodeUnit (bytes : List Byte) : Unit32 :=
  match takeWord bytes with
  | none => .bad .tooShort
  | some (w, rest) =>
    if w = 0xffffffff then .pad
    else if w.extractLsb' 0 2 = 3 then
      if w.extractLsb' 24 8 ≠ 0 then .bad .illegalEncoding
      else
        match takeWord rest with
        | none => .bad .tooShort
        | some (w', _) =>
          if w'.extractLsb' 0 2 = 3 then
            if w' = 0xffffffff ∨ w'.extractLsb' 24 8 = 0 then .bad .illegalPrefix else .bad .illegalEncoding
          else decodeBase rest 4 (some (decodePfx w))
    else decodeBase bytes 0 none

/-- The well-formed instruction at the start of the bytes and its length in bytes, or why there is none. The pad word is
no instruction (R316). -/
def decode (bytes : List Byte) : Except DecodeFault (Instr × Nat) :=
  match decodeUnit bytes with
  | .bad e => .error e
  | .pad => .error .padWord
  | .instr i n =>
    match opSpec i, i.fields? with
    | some sp, some f =>
      if !encodingOk sp f then .error .illegalEncoding
      else if !prefixOk sp f then .error .illegalPrefix
      else .ok (i, n)
    | _, _ => .error .illegalOpcode

/-- The bytes of a number, least significant first (R144). -/
def bytesOf : Nat → Nat → List Byte
  | 0, _ => []
  | n + 1, v => BitVec.ofNat 8 v :: bytesOf n (v / 256)

/-- The instruction in the bits of a table word: the longest unit is a prefix and 128 bits. -/
def decodeTableWord (nbits w : Nat) : Option Instr :=
  match decode (bytesOf 20 (w % 2 ^ nbits)) with
  | .ok (i, _) => some i
  | .error _ => none

/-! ## The encoder -/

def encodeSrc : Src → BitVec 10
  | .reg n => (0 : BitVec 2) ++ n
  | .latch n => (0x40 : BitVec 8) ++ n
  | .imm v => (2 : BitVec 2) ++ v
  | .scal n => (0xc : BitVec 4) ++ n
  | .ind n => (0xd : BitVec 4) ++ n
  | .immX => 0x380
  | .konst => 0x381
  | .laneNo => 0x382
  | .bad bits => bits

def encodeLen : Len → BitVec 2
  | .l64 => 0
  | .l96 => 1
  | .l128 => 2

def encodeCtl (t : Ctl) : Word :=
  t.rc ++ t.sc ++ t.ord ++ t.sp ++ BitVec.ofBool t.fmte ++ t.sl ++ t.rm ++ t.xmod

def encodePfx (p : Pfx) : Word :=
  (0 : BitVec 8) ++ p.pslo ++ encodeSrc p.fop ++ BitVec.ofBool p.pz ++ p.prm ++ BitVec.ofBool p.pinv ++ p.pmask ++ (3 : BitVec 2)

/-- The base word (R318). -/
def encodeBase (grp : BitVec 4) (op : BitVec 6) (f : Fields) : DWord :=
  f.ty ++ f.fn ++ encodeSrc f.c ++ encodeSrc f.b ++ encodeSrc f.a ++ f.dst ++ f.lat ++ BitVec.ofBool f.nwb ++
    BitVec.ofBool f.guard.inv ++ f.guard.mask ++ grp ++ op ++ encodeLen f.len

/-- The four bytes of a word, lowest address first. -/
def wordBytes (w : Word) : List Byte :=
  [w.extractLsb' 0 8, w.extractLsb' 8 8, w.extractLsb' 16 8, w.extractLsb' 24 8]

/-- The bytes of an instruction (R314, R318, R331). -/
def encode (i : Instr) : List Byte :=
  match opSpec i, i.fields? with
  | some sp, some f =>
    let w := encodeBase sp.grp sp.op f
    let base := wordBytes (w.extractLsb' 0 32) ++ wordBytes (w.extractLsb' 32 32)
    let tail := match f.len with
      | .l64 => []
      | .l96 => wordBytes f.x
      | .l128 => wordBytes f.x ++ wordBytes (encodeCtl f.ctl)
    (match f.pfx with
      | none => []
      | some p => wordBytes (encodePfx p)) ++ base ++ tail
  | _, _ => []

end Sys2Proof
end

