-- ==== Sys2Proof/Config.lean ====
section
/-! DEFINITION. What an implementation fixes and the free values: values the manual leaves open, which no proof can see. -/

namespace Sys2Proof

/-- The n-th free 64-bit value, for an amount the manual does not state (R70: the energy of instructions and
engine operations). Log entry 3. -/
opaque Config.freeValue : Nat → DWord

/-- The rounding of a transcendental result whose 640-bit enclosure does not decide it: a free choice between
the two ends of the enclosure (R382). Log entry 20. -/
opaque Config.roundUpChoice : Nat → Bool

/-- The victim among the unlocked ways of a full set, by the number of the eviction (R185, R191: the manual
names no replacement rule). Log entry 10. -/
opaque Config.victim : Nat → Nat

/-- The base core clock of class c (R61), in 100 MHz. -/
def Config.classFreq : Nat → Nat
  | 0 => 10
  | 1 => 14
  | 2 => 16
  | _ => 14

/-- Rail voltage of a class at its base frequency, in mV (R61). -/
def Config.classMilliVolt : Nat → Nat
  | 0 => 620
  | 1 => 720
  | 2 => 780
  | _ => 720

/-- Rail voltage of a boosting c3 cluster between its base and 1.9 GHz, in mV by frequency in 100 MHz (R61: up to 0.90 V at
1.9 GHz). Log entry 9. -/
opaque Config.boostMilliVolt : Nat → Nat

/-- Rail voltage of a cluster of a pool at a frequency, in mV (R61). -/
def Config.railMilliVolt (pool freq : Nat) : Nat :=
  if pool = 3 then (if freq ≤ 14 then 720 else if 19 ≤ freq then 900 else min 900 (max 720 (Config.boostMilliVolt freq)))
  else Config.classMilliVolt pool

end Sys2Proof
end

