-- ==== Sys2Proof/Machine/State.lean ====
section
/-! DEFINITION. The state of the device as plain data, the reasons a step can stop, and the machine right after reset.
Tables (`SMap`) hold what differs from the value at reset; `Sys2Proof/Machine/Ops.lean` reads and writes them. -/

namespace Sys2Proof.Machine

/-- Bytes by address in one canonical form: addresses strictly rising, no entry equal to 0, what an unlisted byte reads
as (log entry 1). -/
abbrev Memory := List Host.Cell

/-! ## Gangs -/

/-- What a gang slot runs (R107, R111, R274). -/
inductive Body where
  | entry
  | record
  | callee
  | handler
  deriving DecidableEq, Repr

/-- Control state of one lane (R124, R125). -/
structure LaneSt where
  pc : DWord := 0
  stamp : Word := 0
  exited : Bool := false
  parked : Bool := false
  /-- Parked at a `regang.any` (R132). -/
  parkAny : Bool := false
  /-- Suspended in a `callq` (R110), whose number `call` is. -/
  susp : Bool := false
  call : Nat := 0
  deriving DecidableEq, Repr

/-- What a gang slot holds from placement to the block's exit (R99, R117, R118, R175, R178, R245). -/
structure Seat where
  /-- A gang is resident. -/
  used : Bool := false
  block : Nat := 0
  ltag : Half := 0
  /-- Gang index in the block. -/
  gidx : Nat := 0
  /-- Width in lanes: 16, 32 or 64. -/
  gw : Nat := 16
  octs : Nat := 0
  /-- First quarter of the register file. -/
  quarter : Nat := 0
  spkb : Nat := 0
  /-- First core-wide byte of the gang's private scratchpad. -/
  spadBase : Nat := 0
  /-- First core-wide byte and size of the block's shared scratchpad. -/
  shareBase : Nat := 0
  shareSize : Nat := 0
  amt : Nat := 0
  /-- Physical tiles of the core's AM behind tiles 0, 1, … of the gang (R178). -/
  amTiles : List Nat := []
  nwin : Nat := 0
  deriving DecidableEq, Repr

/-- An entry of a lane's acquired set (R221). -/
structure AcqEntry where
  ltag : Half
  block : Word
  thread : BitVec 18
  int : Word
  deriving DecidableEq, Repr

/-- The window of one lane group (R251): f[FH] onwards, the back values, BAGG and NEXTIDX. A value lies in [31:0] and its
index in [63:32]. -/
structure WinGroup where
  front : List DWord := []
  back : List DWord := []
  bagg : DWord := 0
  next : Word := 0
  deriving DecidableEq, Repr

/-- A window accumulator (R246). -/
structure Win where
  wdesc : DWord := 0
  wlen : DWord := 0
  groups : SMap WinGroup := []
  deriving DecidableEq, Repr

/-- A recipe table entry RCPn (R260). -/
structure Recipe where
  bcopy : BitVec 512 := 0
  body : DWord := 0
  act : Bool := false
  drop : Bool := false
  nm1 : BitVec 2 := 0
  treg : BitVec 11 := 0
  deriving DecidableEq, Repr

/-- An outstanding matrix entry: its number, A run (first register and length) and tiles (R241, R425). -/
structure MatRun where
  seq : DWord
  areg : Nat
  regs : Nat
  tile : Nat
  tiles : Nat
  /-- The entry as it was issued. -/
  bits : BitVec 512
  /-- Octets whose passes have not ended. -/
  left : List Nat
  /-- AM words of the passes that have ended, in order: they are performed at the entry's completion (R240). -/
  out : List (Nat × Word) := []
  deriving DecidableEq, Repr

/-- An entry in progress as its engine has read it, at its address: its bits, and those of its descriptor (R228). -/
structure Held where
  va : Nat
  entry : BitVec 512
  desc : BitVec 2048 := 0
  deriving DecidableEq, Repr

/-- An engine context (R224, R225, R226, R235). -/
structure ECtx where
  chring : DWord := 0
  tlcnt : DWord := 0
  tliss : DWord := 0
  /-- PROGn CAUSE and DONE. -/
  cause : BitVec 8 := 0
  done : Nat := 0
  /-- A faulted context runs on after a RESUME; CAUSE stands until its entry completes (R226, R232). -/
  resumed : Bool := false
  /-- Rows that later entries of a copy context have read ahead: the entry's number, the row, its elements and its scales (R229). -/
  ahead : List (Nat × Nat × Nat × Nat) := []
  lfs : Word := 0
  /-- Collective entries this context has matched and copied (R242). -/
  matched : Nat := 0
  /-- Numbers of collective entries whose COUNT operand passed 32 bits (R440). -/
  wideCount : List DWord := []
  /-- The entry in progress, once a row of it has been written or it has been matched. -/
  held : Option Held := none
  mats : List MatRun := []
  deriving DecidableEq, Repr

/-- An instruction of a replay queue still to be re-issued (R278, R279): its words, lanes and captured operands by lane. -/
structure Replay where
  base : BitVec 128
  pfx : Word
  pc : DWord
  mask : Mask
  /-- The group that issued it: these lanes advance when it completes. -/
  group : Mask
  cause : BitVec 8
  cap : BitVec 4
  /-- Captured values: operand q, lane j at key 64q + j. -/
  vals : SMap DWord
  /-- The number of its issue: entries stand in the order of issue (R278). -/
  seq : Nat := 0
  deriving DecidableEq, Repr

/-- A gang that waits inside an instruction (R404, R414, R443): its lanes, address, the cluster cycle of the first
attempt, the lanes already served and the lanes whose bound has passed. -/
structure Wait where
  lanes : Mask
  pc : DWord
  since : Nat
  done : Mask := 0
  timedOut : Mask := 0
  /-- The barrier object and phase waited for (R414): in scratchpad or not, core, address, phase. -/
  bar : Option (Bool × Nat × Nat × Nat) := none
  /-- The object's address as the group formed it: every look at it is translated anew (R174). -/
  va : Nat := 0
  /-- Words that lanes have already received (R177). -/
  got : SMap Word := []
  /-- The instruction, its executing lanes and its length. -/
  ins : Option Fields := none
  ex : Mask := 0
  /-- Lanes that PZ zeroes, and the first destination register. -/
  zero : Mask := 0
  dst : Nat := 0
  len : Nat := 0
  /-- The instruction is an `ldfe`. -/
  ldfe : Bool := false
  /-- Bound in core cycles. -/
  bound : Option Nat := none
  /-- The entry of a trap it may end in. -/
  entry : Option Replay := none
  /-- A `sysw` that waits (R47, R225): the slot written, the register's number and the value. -/
  sysw : Option (Nat × Nat × DWord) := none
  /-- A timeline wait (R231): its context, its argument, and whether it is `tlwait.ge`. -/
  tl : Option (Nat × Nat × Bool) := none
  deriving DecidableEq, Repr

/-- The latches of one issue slot or of the handler (R134): latch l, lane j at key 64l + j. -/
structure Latches where
  vec : SMap DWord := []
  sca : SMap DWord := []
  /-- The gang slot that last wrote each latch; a missing or cleared entry is an invalid latch (R137). -/
  owner : SMap (Option Nat) := []
  deriving DecidableEq, Repr

/-- A trap waiting for the handler or being served (R270 to R278, R471). -/
structure TrapRec where
  slot : Nat
  /-- Causes with their lane masks, in stage then code order. -/
  causes : List (Nat × Mask)
  inner : BitVec 8 := 0
  rcp : BitVec 5 := 0
  fetch : Bool := false
  va : DWord := 0
  /-- TRAISE. -/
  raised : Nat := 0
  entry : Replay
  /-- Entries of later instructions of the gang that failed before the frame was written, each with its causes (R278). -/
  more : List (Replay × List (Nat × Mask)) := []
  /-- Raised after the body's end (R471). -/
  ended : Bool := false
  /-- The trapping gang's latches (R137). -/
  lats : Latches := {}
  deriving DecidableEq, Repr

/-- The caller of a callee lane (R110, R307): the `callq`, the lane, and the grid block and thread that name it. -/
structure Caller where
  call : Nat := 0
  lane : Nat := 0
  block : Nat := 0
  thread : Nat := 0
  deriving DecidableEq, Repr

/-- One lane's item in a callee queue (R110). -/
structure CallItem where
  target : DWord
  ltag : Half
  /-- The caller's block. -/
  block : Nat
  caller : Caller
  v : List Word
  stamp : DWord
  deriving DecidableEq, Repr

/-- What a gang that could not issue waits for before any of its groups is eligible again (R45, R172, R225, R425, R446): room in its
transmitter's queue of a bus, in the chain ring of a context, in its cluster's queue of page walks, for `n` records in its core's queue of
a priority, or the end of the matrix entries that write a tile. -/
inductive Stall where
  | tile (t : Nat)
  | bus (b : Nat)
  | ring (ctx : Nat)
  | walks
  | records (prio n : Nat)
  deriving DecidableEq, Repr

/-- An uncorrectable error that a gang's next instruction consumes: its source and address (R293), and the lanes. -/
structure Ecc where
  source : BitVec 8
  va : DWord
  mask : Mask
  deriving DecidableEq, Repr

/-- One gang: a slot of a core (R115 to R125), the handler gang included (R274). -/
structure Gang where
  seat : Seat := {}
  /-- The slot runs a body; a resident slot that does not is idle (R107). -/
  live : Bool := false
  kind : Body := .entry
  lanes : SMap LaneSt := []
  /-- Number of the first parking of the lanes now parked (R132), in cluster cycles. -/
  parkAt : Option Nat := none
  s : SMap DWord := []
  m : SMap Mask := []
  /-- v(r) of lane j at key 64r + j. -/
  v : SMap Word := []
  lfs : SMap Word := []
  acq : SMap (List AcqEntry) := []
  rcp : SMap Recipe := []
  wins : SMap Win := []
  ctxs : SMap ECtx := []
  enacc : DWord := 0
  /-- Boost claim: the target frequency in 100 MHz (R455). -/
  claim : Option Nat := none
  /-- PARENT of the record under way (R108). -/
  parent : DWord := 0
  /-- Receive stamp of the body (R456). -/
  stampRx : DWord := 0
  /-- The caller of each launched lane of a callee gang (R111). -/
  callers : SMap Caller := []
  /-- The `callq`s that its lanes are suspended in: the number and the instruction (R138, R268). -/
  callIns : List (Nat × Replay) := []
  /-- Stopped by a trap that `rtrap` has not answered (R274). -/
  trapped : Bool := false
  replay : List Replay := []
  /-- Groups that wait inside an instruction. -/
  waits : List Wait := []
  stall : Option Stall := none
  /-- An error in the data of its next instruction (R293). -/
  ecc : Option Ecc := none
  /-- Per lane: the access that the last `fence.rel` stands before, as its number and scope (R208). -/
  fences : SMap (Nat × Nat) := []
  gdbStop : Bool := false
  gdbStep : Bool := false
  /-- A pre-emption that waits for a hint, with the time of its request (R283). -/
  saveReq : Option Nat := none
  /-- Stopped for a save (R283, R285): a forced full one, or the address of the hint record taken. -/
  saveStop : Option (Option DWord) := none
  /-- The save frees the slot for callee gangs (R112). -/
  saveCall : Bool := false
  /-- A post of this gang is unanswered (R105). -/
  posts : Nat := 0
  /-- The body has ended and its join or its traps are not settled (R108, R471). -/
  ending : Bool := false
  endPc : DWord := 0
  /-- Bits of the instruction that ended the body. -/
  endBase : BitVec 128 := 0
  /-- Contexts whose fault after the body's end has been raised (R471). -/
  endFaults : List Nat := []
  /-- Time at which the body was admitted (R267). -/
  bodyAt : Nat := 0
  /-- Waiting for a register row since (R267), the rows it needs in each quarter, and those granted to it. -/
  rowAt : Option Nat := none
  rowNeed : Nat := 0
  rowGrant : Nat := 0
  /-- The lanes whose instruction waits for them. -/
  rowLanes : Mask := 0
  deriving DecidableEq, Repr

/-! ## Cores -/

/-- A line of software-managed or landing data (R185, R191): byte i at bits [8i+7:8i]. -/
structure Line where
  valid : Bool := false
  mask : DWord := 0
  data : BitVec 512 := 0
  /-- Gang slots holding the line locked, as core·16 + slot (R410). -/
  lock : List Nat := []
  deriving DecidableEq, Repr

/-- A TLB entry (R172): the page's first VA and size, and what its leaf gave. -/
structure TlbEntry where
  asn : Half
  /-- Root of the walk that filled it (R173). -/
  root : Nat := 0
  va : Nat
  size : Nat
  base : Nat
  mt : BitVec 2
  w : Bool
  x : Bool
  imm : Bool
  deriving DecidableEq, Repr

/-- A hold on an issue slot (R135). -/
structure Hold where
  slot : Nat
  count : Nat
  since : Nat
  deriving DecidableEq, Repr

/-- A queued record with its sender's stamp and whether a block-position parent posted it (R105, R446). -/
structure QRec where
  bits : BitVec 256
  /-- Address of the record, 0 for a child of `spawn`. -/
  va : DWord
  stamp : DWord
  deriving DecidableEq, Repr

/-- What the handler serves (R276, R305). -/
inductive Serving where
  | trap (t : TrapRec) (frame : DWord)
  | monitor (seq : Half)
  deriving DecidableEq, Repr

/-- What waits for the handler, in arrival order. -/
inductive HWork where
  | trap (t : TrapRec)
  | doorbell (seq : Half)
  deriving DecidableEq, Repr

/-- A lane that waits on a full-empty granule (R177, R403, R404): `fill` lanes wait until it is full, the others write `data`
once it is empty. -/
structure FeWaiter where
  slot : Nat
  lane : Nat
  granule : Nat
  /-- Core-wide byte of the access, and its address as the lane formed it. -/
  addr : Nat
  va : Nat := 0
  fill : Bool
  clr : Bool
  data : Word
  /-- Bound in core cycles of a timeout form, and the cycle of the first attempt. -/
  bound : Option Nat
  since : Nat
  /-- Re-issued from an entry with CAUSE WATCH (R313). -/
  noWatch : Bool := false
  deriving DecidableEq, Repr

/-- An octet operation waiting for the matrix array (R240). -/
structure OctOp where
  slot : Nat
  ctx : Nat
  seq : DWord
  oct : Nat
  arrived : Nat
  deriving DecidableEq, Repr

/-- A trace record queued at its core: the record and its walker (R309). -/
structure TraceRec where
  walker : Nat
  bits : BitVec 256
  deriving DecidableEq, Repr

/-- An instruction tagged for a sample, its record still to be written (R311): the walker, the name, the time, the instruction, its number, and
half of the least and greatest count that may follow. -/
structure Sample where
  walker : Nat
  name : BitVec 80
  at_ : Nat
  slot : Nat
  pc : DWord
  seq : Nat
  half : Nat
  deriving DecidableEq, Repr

/-- A gang whose slot was saved (R112, R267, R282): its slot, the VA of its image, what the image does not hold, and its pending traps. -/
structure SlotSave where
  slot : Nat
  va : DWord
  /-- The save freed the slot for callee gangs (R112). -/
  call : Bool := false
  rest : Gang
  traps : List TrapRec := []
  deriving DecidableEq, Repr

/-- One logical core. -/
structure CoreSt where
  gangs : SMap Gang := []
  work : List HWork := []
  serving : Option Serving := none
  hStopped : Bool := false
  recQ : SMap (List QRec) := []
  /-- Per priority: the time since which its record heads the queue, and the cycle of its first blocking (R107). -/
  recHeadAt : SMap Nat := []
  recBlockAt : SMap (Option Nat) := []
  calleeQ : SMap (List CallItem) := []
  /-- The target that each callee queue is bound to while it holds items (R110). -/
  calleeBind : SMap DWord := []
  /-- Per callee queue: the time since which it waits with no idle slot of its head's launch (R112). -/
  calleeAt : SMap (Option Nat) := []
  /-- Items returned to suspended callers: the `callq`, the lane and v0 to v7 (R111). -/
  returns : List (Nat × Nat × List Word) := []
  slotSaves : List SlotSave := []
  spad : Memory := []
  spadFE : SMap Bool := []
  feWait : List FeWaiter := []
  /-- AM word of physical tile t, row r, column c at key 2048t + 32r + c (R178). -/
  am : SMap Word := []
  l1 : SMap Line := []
  /-- Coherent superblocks of which the L1 holds lines, most recent first (R185, R187). -/
  coh : List Nat := []
  /-- Units that a scaled access wrote and whose lines are dirty in the L1 (R163). -/
  ties : List (List Nat) := []
  icache : SMap (BitVec 512) := []
  /-- Constant cache lines at key LTAG·2^36 + PA/64, with 2^35 added for a window offset in a broadcast page (R181). -/
  kcache : SMap (BitVec 512) := []
  tlb : List TlbEntry := []
  /-- Latches of issue slots 0 to 3 and, at 4, of the handler. -/
  latches : SMap Latches := []
  holds : SMap (Option Hold) := []
  lastIssue : SMap (Option Nat) := []
  octQ : List OctOp := []
  selfTest : Nat := 0
  waddr : SMap DWord := []
  wval : SMap DWord := []
  wmask : SMap DWord := []
  wctl : SMap DWord := []
  held : Bool := false
  /-- The REGION entry of the hold has been sent (R295). -/
  drained : Bool := false
  /-- Held in reset since a RESTART of its region, until its entry is written again (R56). -/
  inReset : Bool := false
  /-- How far LTS runs ahead of the wafer time, in ns, and since when it slews back (R456). -/
  ltsLead : Nat := 0
  ltsSlew : Option Nat := none
  trq : List TraceRec := []
  /-- Per issue slot: issues still to count before the next tag (R311). -/
  sampleCnt : SMap Nat := []
  /-- Per issue slot: the instruction tagged, until its record is written. -/
  sampled : SMap (Option Sample) := []
  /-- Gang slots waiting for a register row, in order (R267). -/
  rowWait : List Nat := []
  deriving DecidableEq, Repr

/-! ## Clusters and regions -/

inductive Moesi where
  | i
  | s
  | e
  | o
  | m
  deriving DecidableEq, Repr

inductive Snoop where
  | rs
  | rx
  | up
  | ev
  deriving DecidableEq, Repr

/-- A hole on a bus at a cluster: the group, its first and its last failing frame so far (R51). -/
structure Hole where
  bus : Nat
  group : Nat
  frame : Nat
  last : Nat
  /-- Its machine check has been raised (R53). -/
  told : Bool := false
  deriving DecidableEq, Repr

/-- A queued page walk (R172): the page's address space, root and address, and the cores whose misses it serves. -/
structure WalkReq where
  asn : Half
  root : Nat
  va : Nat
  cores : List Nat
  deriving DecidableEq, Repr

/-- One cluster (R14). -/
structure Cluster where
  inPool : Bool := false
  pool : Nat := 1
  moving : Option Nat := none
  freq : Nat := 14
  nextFreq : Option Nat := none
  thr : Bool := false
  bexh : Bool := false
  /-- The claim: the wafer time at which it was made (R64). -/
  claimAge : Option Nat := none
  /-- A fall under way: the time of its second step (R65). -/
  fallAt : Option Nat := none
  idleSince : Nat := 0
  fbase : SMap DWord := []
  flim : SMap DWord := []
  fland : SMap DWord := []
  /-- The cluster's frame count, and the frames for which it still waits (R50). -/
  frames : Nat := 0
  stall : Nat := 0
  beaconAt : Nat := 0
  epoch : Nat := 0
  /-- Table-update beacons are counted in `epoch`; group-bind beacons applied here (R42, R52). -/
  bindEpoch : Nat := 0
  /-- The last frame received, and per bus the frame up to which the cluster has applied it (R44). -/
  rxTo : Nat := 0
  appliedTo : SMap Nat := []
  /-- Per bus: the frame number in the cluster's last report (R200). -/
  reports : SMap Nat := []
  /-- Failing frames of the last 20 µs: bus, group, first frame, frames (R51). -/
  fails : List (Nat × Nat × Nat × Nat) := []
  /-- Messages applied out of a retransmission or behind a hole, by identity. -/
  applied : List Nat := []
  holes : List Hole := []
  l2 : SMap Line := []
  moesi : SMap Moesi := []
  /-- Units that a scaled access wrote and whose lines are dirty in the L2 (R163). -/
  ties : List (List Nat) := []
  tlb : List TlbEntry := []
  /-- Queued page walks, in order of arrival (R172). -/
  walks : List WalkReq := []
  /-- Core cycles since bring-up, in tenths. -/
  cyc : Nat := 0
  halted : Bool := false
  /-- Wafer time and core cycle at which the halt in force was applied (R302). -/
  haltAt : Nat := 0
  haltCyc : Nat := 0
  /-- Evictions so far: numbers the replacement choices. -/
  evicts : Nat := 0
  deriving DecidableEq, Repr

inductive RegState where
  | off
  | ramp
  | on
  | trip
  | hold
  | restart
  deriving DecidableEq, Repr

/-- One region (R54 to R74). -/
structure Region where
  st : RegState := .off
  cause : BitVec 4 := 0
  stage : Nat := 0
  refused : Bool := false
  permits : Nat := 64
  temp : Nat := 0
  trips : Nat := 0
  rampfail : Nat := 0
  ocwarn : Nat := 0
  therm : Nat := 0
  orphan : DWord := 0
  holder : Option Nat := none
  grantAt : Nat := 0
  /-- Start of the idle time not yet counted as a permit (R66); none while a cluster runs above nominal. -/
  idleFrom : Option Nat := some 0
  since : Nat := 0
  settled : Bool := false
  /-- When the rails settled: beacons sent from then on are buffered (R56). -/
  settledAt : Nat := 0
  tablesIn : Bool := false
  amps : Nat := 0
  /-- Time of the last step of its current (R69). -/
  rampAt : Nat := 0
  /-- The region has been ON since its clusters were last retired: its clusters are counted (R200). -/
  counted : Bool := false
  deriving DecidableEq, Repr

/-! ## Interconnect -/

/-- Kinds of beacon (R48). -/
inductive BeaconKind where
  | halt (on : Bool) (src : Nat) (core : Nat)
  | time
  | table (core : Nat) (entry : Word)
  | bind (bus cluster group : Nat)
  deriving DecidableEq, Repr

/-- A beacon on the plane (R43, R48). -/
structure Beacon where
  seq : Nat
  kind : BeaconKind
  /-- Frame that carries it: it is sent once this frame has passed. -/
  frame : Nat
  id : Nat := 0
  /-- The bus, the sending cluster, the group and the message number of its frame. -/
  bus : Nat := 0
  writer : Nat := 0
  group : Nat := 0
  mseq : Half := 0
  /-- Clusters that saw a hole in its frame, and those to which the retained copy is on its way. -/
  lostAt : List Nat := []
  copies : List Nat := []
  deriving DecidableEq, Repr

/-- An end marker (R53): the bus and the old group, the last frame used on it, and the frame in which the retransmission ends. -/
structure EndMark where
  bus : Nat
  writer : Nat
  group : Nat
  last : Nat
  ends : Nat
  deriving DecidableEq, Repr

/-- What a bus message carries (R43). -/
inductive MsgBody where
  | snoop (k : Snoop) (sb : Nat) (req : Nat)
  | store (off : Nat) (data : List Byte)
  deriving DecidableEq, Repr

/-- A message on a bus (R43, R44); `core` issued it. -/
structure Msg where
  id : Nat
  bus : Nat
  writer : Nat
  core : Nat
  /-- Launch of the gang that issued it (R79). -/
  ltag : Half := 0
  group : Nat
  seq : Half
  /-- Frames that it takes, and its completion frame. -/
  frames : Nat := 1
  done : Nat
  body : MsgBody
  /-- Clusters whose receiver saw a hole in this message (R51). -/
  lostAt : List Nat := []
  /-- Clusters to which a copy is on its way (R51, R53). -/
  copies : List Nat := []
  /-- Frame in which its retransmission after a rebind ends (R53). -/
  resent : Nat := 0
  /-- Acknowledged to its issuing core (R200). -/
  acked : Bool := false
  /-- The writer still keeps its copy (R51). -/
  retained : Bool := true
  deriving DecidableEq, Repr

/-- A request for a superblock under way (R188, R189). -/
structure SbReq where
  cluster : Nat
  sb : Nat
  kind : Snoop
  msg : Nat
  /-- The requester's snoop has been applied. -/
  placed : Bool := false
  /-- The home answered with SHR = 0. -/
  alone : Bool := false
  /-- The core from which the data comes, and whether it has been sent (R33, R188). -/
  sup : Option Nat := none
  sent : Bool := false
  /-- Snoops ordered behind it, not yet answered. -/
  behind : List (Snoop × Nat) := []
  deriving DecidableEq, Repr

/-- Kinds of access in flight. -/
inductive AccKind where
  | load
  | store
  | atom (fn : Nat)
  | cas
  | bcast
  deriving DecidableEq, Repr

/-- Does an access of the kind return a value? -/
def AccKind.returns : AccKind → Bool
  | .load | .atom _ | .cas => true
  | .store | .bcast => false

/-- Page kinds of a leaf (R169). -/
inductive PageKind where
  | coherent
  | swm
  | broadcast
  deriving DecidableEq, Repr

/-- A lane's access in flight (R196, R199). -/
structure Pend where
  id : Nat
  core : Nat
  /-- 16 once the gang is gone: nothing is delivered to it. -/
  slot : Nat
  /-- Launch of its gang (R79). -/
  ltag : Half := 0
  lane : Nat
  kind : AccKind
  page : PageKind
  va : Nat
  pa : Nat
  /-- Address space and page size of its translation (R174). -/
  asn : Half := 0
  size : Nat := 0
  /-- The instruction's number: the lanes of one instruction share it (R195). -/
  batch : Nat := 0
  /-- For a write behind a `fence.rel`: the lane's accesses numbered below it come first (R208). -/
  after : Nat := 0
  /-- The scope of that fence; 0 for none. -/
  fenceScope : Nat := 0
  /-- Physical core it was sent to (R28). -/
  phys : Nat
  bytes : Nat
  ty : BitVec 4
  data : DWord
  cmp : DWord
  /-- Destination register, and the latch; no register with NWB. -/
  dst : Option Nat
  lat : Nat
  acq : Bool
  rel : Bool
  scope : Nat := 0
  /-- Routing class, and the order of its requests (R35). -/
  rc : Nat := 0
  order : Nat := 0
  /-- Made by hardware through its cluster's L2, for no lane: a status, an image, a trace record, a mark. -/
  engine : Bool := false
  /-- The run whose trace record it is part of (R309). -/
  run : Option Nat := none
  /-- The snoop or broadcast message it waits for. -/
  msg : Option Nat := none
  performed : Bool := false
  /-- The cause it completes with where it is not performed. -/
  failed : Option Nat := none
  /-- Source of a machine check that it completes with: a route that fails, or an error in its data (R293). -/
  errSrc : BitVec 8 := 8
  value : DWord := 0
  instr : Replay
  deriving DecidableEq, Repr

/-- What a mesh packet carries (R33, R105). -/
inductive PktBody where
  | post (r : QRec) (prio : Nat) (slot : Nat)
  | access (pend : Nat)
  /-- A broadcast store on its way to its cluster's transmitter (R45), with its gang's launch. -/
  | store (off : Nat) (data : List Byte) (ltag : Half)
  /-- The data of a superblock for the request of this number (R188), of an evicted one (R189), and a retained copy of a message or beacon for
  a cluster (R51). -/
  | supply (req : Nat)
  | evict (sb : Nat)
  | copy (id cluster : Nat)
  deriving DecidableEq, Repr

/-- A packet on the mesh (R34 to R40). -/
structure Packet where
  id : Nat
  src : Nat
  dst : Nat
  /-- Physical cores of its source, of its destination and of the router that holds it. -/
  srcPhys : Nat
  dstPhys : Nat
  at_ : Nat
  /-- Table epoch of the injecting router at its lookup (R28). -/
  epoch : Nat := 0
  /-- Routing class and the order that it selects (R35). -/
  rc : Nat := 0
  clsOrder : Nat := 0
  /-- Present order, plane of the request, virtual channel and priority level (0 is below PRIO 0). -/
  order : Nat
  plane : Nat
  vc : Nat
  prio : Nat
  /-- Input port by which it came to its router: 0 north, 1 south, 2 east, 3 west, 4 local (R37). -/
  inPort : Nat := 4
  /-- Granted the local port at the end of its way. -/
  taken : Bool := false
  /-- On its way back on the response plane (R33): the answer, or a NACK. -/
  ret : Bool := false
  nack : Bool := false
  /-- Time of its injection (R40), and of its arrival at its output port or its last rise (R37). -/
  since : Nat
  portAt : Nat
  reinjected : Bool := false
  fallback : Bool := false
  /-- Discarded on a link that is down (R40). -/
  lost : Bool := false
  /-- Waits for its router's table entry (R26). -/
  held : Bool := false
  body : PktBody
  deriving DecidableEq, Repr

/-! ## Scheduler -/

/-- A launch (R80, R98, R104). -/
structure Launch where
  walker : Nat := 0
  node : Nat := 0
  asn : Half := 0
  root : Nat := 0
  code : DWord := 0
  gx : Nat := 0
  gy : Nat := 0
  bw : Nat := 0
  bh : Nat := 0
  gw : Nat := 16
  octs : Nat := 0
  cls : Nat := 1
  prio : Nat := 0
  gangs : Nat := 0
  spkb : Nat := 0
  amt : Nat := 0
  nwin : Nat := 0
  rct : List Half := []
  fs : List (BitVec 128) := []
  /-- CB2 tables by format slot, copied when the launch is checked (R150). -/
  cb : SMap (BitVec 16384) := []
  /-- Windows k0 to k7: base and size in words. -/
  kwin : List (DWord × Nat) := []
  /-- Virtual address of the token's slot, or 0 (R95). -/
  token : DWord := 0
  /-- Registers of the run taken at its start (R167, R219, R287, R308). -/
  raceCtl : DWord := 0
  raceSh : DWord := 0
  raceLog : DWord := 0
  save : DWord := 0
  trBuf : DWord := 0
  trCtl : DWord := 0
  /-- Blocks not yet exited. -/
  left : Nat := 0
  /-- A block was killed: no further block is placed (R97). -/
  dead : Bool := false
  deriving DecidableEq, Repr

/-- Where a lane or an engine context stands (R197): its launch and its gang slot's block, its core, its gang. -/
structure Place where
  ltag : Half
  /-- None for the handler gang, which belongs to no block. -/
  block : Option Nat
  core : Option Nat
  gidx : Nat
  deriving DecidableEq, Repr

/-- A barrier object in a block's list (R292, R415). -/
structure BarEntry where
  /-- Scratchpad of core `core`, or global memory at PA `addr`. -/
  spad : Bool
  core : Nat
  addr : Nat
  prev : Nat := 0
  cur : Nat := 0
  /-- Gangs of the block (core·16 + slot) that arrived in the current phase (R221). -/
  arrived : List Nat := []
  deriving DecidableEq, Repr

/-- A saved image of a block (R286): core position in the block, gang index, the image's VA, whether the save engine has written it,
and what it does not hold. -/
structure Image where
  pos : Nat
  gidx : Nat
  va : DWord
  done : Bool := false
  rest : Gang := {}
  traps : List TrapRec := []
  /-- A slot save of the same slot still outstanding. -/
  saved : Option SlotSave := none
  deriving DecidableEq, Repr

/-- A block (R99, R109, R282). -/
structure Block where
  ltag : Half := 0
  index : Nat := 0
  placed : Bool := false
  saved : Bool := false
  /-- A region has lost gangs of it (R57): it never exits. -/
  lost : Bool := false
  origin : Nat := 0
  bint : Word := 0
  bars : List BarEntry := []
  images : List Image := []
  /-- Call items of a saved block's lanes that no callee gang has taken, with the core position (R110, R282). -/
  calls : List (Nat × CallItem) := []
  /-- A block save asked for: its time, and whether it waits for a hint (R282). -/
  saveReq : Option (Nat × Bool) := none
  deriving DecidableEq, Repr

/-- The blocks of one launch that a hub holds (R98, R100). -/
structure HubList where
  ltag : Half
  blocks : List Nat
  /-- The launch has reached the hub: its own blocks have joined the list (R98). -/
  own : Bool := false
  eff : Nat
  since : Nat
  /-- Time since which the head block has not fitted (R103). -/
  blockedAt : Option Nat := none
  deriving DecidableEq, Repr

/-- One hub. -/
structure Hub where
  lists : List HubList := []
  last : Half := 0
  /-- A steal in flight: the victim asked and the launches named (R101). -/
  steal : Option (Nat × List Half) := none
  /-- An answer on its way back: the launch and its blocks, none for empty. -/
  answer : Option (Half × List Nat) := none
  empties : Nat := 0
  backoff : Option Nat := none
  deriving DecidableEq, Repr

/-- An edge of a graph image (R82, R93): queue address, slots, slot size, counter address and consumer. -/
structure Edge where
  queue : Nat
  slots : Nat
  size : Nat
  counter : Nat
  cons : Nat
  deriving DecidableEq, Repr

/-- A firing under way (R90, R91): its node, the edge whose token it took, and what it still has to do. -/
structure Firing where
  node : Nat
  edge : Option Nat
  /-- KIND, ARG0 to ARG2 and the successors of the node as it was reached (R82). -/
  kind : Nat := 0
  arg0 : DWord := 0
  arg1 : DWord := 0
  arg2 : DWord := 0
  succ : List Nat := []
  /-- Launch tag of a kernel firing. -/
  ltag : Half := 0
  /-- Progress of a copy chain: the entry, its rows and cause (R472). -/
  chain : DWord := 0
  rows : Nat := 0
  held : Option Held := none
  chainCore : Nat := 0
  at_ : Nat := 0
  /-- Edges still to receive a token, once the firing has completed. -/
  give : Option (List Nat) := none
  /-- Time of the last attempt of a stalled delivery. -/
  stallAt : Option Nat := none
  deriving DecidableEq, Repr

/-- A run of a walker (R90 to R97). -/
structure Run where
  base : Nat := 0
  nnode : Nat := 0
  /-- The node fired once without a token, until it has fired (R90). -/
  entry : Option Nat := none
  edges : List Edge := []
  asn : Half := 0
  root : Nat := 0
  raceCtl : DWord := 0
  raceSh : DWord := 0
  raceLog : DWord := 0
  save : DWord := 0
  trBuf : DWord := 0
  trCtl : DWord := 0
  trPos : DWord := 0
  firings : List Firing := []
  joins : SMap Nat := []
  whiles : SMap Nat := []
  /-- Images of the save pool in use, by index (R287). -/
  images : List Nat := []
  /-- Full head tokens in the order observed: edges (R95). -/
  tokens : List Nat := []
  fault : Option (Nat × DWord) := none
  /-- RUNKILL has ended it: what is left of it ends in a halt too (R304). -/
  killed : Bool := false
  deriving DecidableEq, Repr

/-- A walker context (R83). -/
structure Walker where
  st : BitVec 2 := 0
  tag : Half := 0
  run : Option Run := none
  /-- Where its GRAPH_FAULT entry stands in the completion queue, once written (R83). -/
  faultAt : Option Nat := none
  deriving DecidableEq, Repr

/-- A completion-queue entry (R84). -/
structure CqEntry where
  payload : DWord
  tag : Half
  src : Half
  cause : BitVec 8
  kind : BitVec 8
  deriving DecidableEq, Repr

/-- A black box of one field (R298). -/
structure BlackBox where
  slots : SMap (BitVec 128) := []
  cnt : Nat := 0
  deriving DecidableEq, Repr

/-! ## The machine -/

/-- The next thing that comes about (log entry 2): a gang's issue, a step of another agent, or passing time. -/
inductive Move where
  /-- The group of the gang's slice that holds `lane` issues; with `fly` its global accesses stay in flight. -/
  | issue (core slot lane : Nat) (fly : Bool)
  /-- A bit of an entry flips in the table of a physical core's router (R25). -/
  | strike (router entry : Nat)
  /-- The TLB entries of a core and its cluster for a page are refilled from the page table (R173). -/
  | refill (core : Nat) (asn : Half) (va : Nat)
  /-- A copy context of a gang reads ahead the next row of its entry of this number (R229). -/
  | readAhead (core slot ctx entry : Nat)
  | event (i : Instr)
  /-- `n` frames of 1 ns pass. -/
  | tick (n : Nat)
  deriving DecidableEq, Repr

/-- The instruction under way: its gang, the active-mask lanes of the issuing group (R126), its address and length. -/
structure Focus where
  core : Nat := 0
  slot : Nat := 0
  lanes : Mask := 0
  pc : DWord := 0
  len : Nat := 0
  fly : Bool := false
  /-- The instruction has issued: its lanes have moved on. -/
  done : Bool := false
  /-- The replay entry that is re-issued, if one is (R279). -/
  replay : Option Replay := none
  /-- An operand of it needed a recipe replay (R135). -/
  replayed : Bool := false
  deriving DecidableEq, Repr

structure State where
  agenda : List Move := []
  focus : Focus := {}
  freeCtr : Nat := 0
  powered : Bool := true
  now : Nat := 0
  irqs : Nat := 0
  hostReads : List (BitVec 128) := []
  linkMods : Nat := 8
  mgmt : DWord := 0
  /-- Plain registers: mailbox offset, or 0x1000000 plus the management offset. -/
  hostRegs : SMap DWord := []
  hroot : DWord := 0
  hentry : DWord := 0
  hfbase : DWord := 0
  dmapWords : List DWord := []
  tbl : SMap Word := []
  upds : List (Nat × Word) := []
  /-- Entries of routers' tables, by physical core: with one flipped bit, and uncorrectable (R25, R26). -/
  softEntries : List (Nat × Nat) := []
  badEntries : List (Nat × Nat) := []
  eccFixed : SMap Nat := []
  /-- Answers to a router's request for an entry: the asking router, the entry, and whether the copy is good (R26). -/
  tblAnswers : List (Nat × Nat × Bool) := []
  beaconsKept : List Beacon := []
  beacons : List Beacon := []
  beaconSeq : Nat := 0
  bclu : Nat := 0
  /-- Accepted group-bind writes, oldest first: bus·192 + cluster and group; a cluster is bound to its own number at reset (R42). -/
  binds : List (Nat × Nat) := []
  deadGroups : List (Nat × Nat) := []
  msgs : List Msg := []
  msgSeq : SMap Half := []
  txFree : SMap Nat := []
  endMarks : List EndMark := []
  cq : SMap (BitVec 128) := []
  cqHead : Nat := 0
  cqTail : Nat := 0
  cqOver : List CqEntry := []
  cqHeld : List CqEntry := []
  cqWait : List CqEntry := []
  haltOn : Bool := false
  haltSrc : BitVec 2 := 0
  haltCore : BitVec 14 := 0
  haltTime : DWord := 0
  tlbQ : List (DWord × Nat) := []
  tlbCnt : Word := 0
  slcopy : DWord := 0
  /-- A copied slice whose accesses are held until its table update: the logical core and the copy's physical core (R295). -/
  slHeld : Option (Nat × Nat) := none
  gov : Nat := 15
  /-- Time of the last measurement (R68). -/
  govAt : Nat := 0
  boostOk : Bool := true
  bbox : SMap BlackBox := []
  dram : Memory := []
  /-- Operand decks by physical core (R12). -/
  decks : SMap Memory := []
  /-- OWN (bit 0) and SHR (bit 1) per superblock, by logical PA/256 (R189). -/
  homeBits : SMap (BitVec 2) := []
  evicting : List Nat := []
  sbReqs : List SbReq := []
  pends : List Pend := []
  packets : List Packet := []
  /-- Where the writer that a race record names stood at its write, by PA/16 of the record (R197, R221). -/
  raceFrom : SMap (Option Place) := []
  linksDown : List (Nat × Nat) := []
  /-- Input port of the last grant per output port and plane, at key 4·(5·router + port) + plane (R37). -/
  portLast : SMap Nat := []
  nextId : Nat := 0
  launches : SMap Launch := []
  nextLtag : Half := 1
  blocks : SMap Block := []
  nextBlock : Nat := 0
  regions : SMap Region := []
  clusters : SMap Cluster := []
  cores : SMap CoreSt := []
  walkers : SMap Walker := []
  hubs : SMap Hub := []
  deriving DecidableEq, Repr

/-- Why the machine stops. -/
inductive Fault where
  /-- Raised by every step after module power is gone (R298): nothing is powered any more. Safe: no effect is invented. -/
  | unpowered
  deriving DecidableEq, Repr

/-- Why an instruction has no meaning. -/
inductive Refusal where
  /-- Raised by `exec` for an instruction that is not modelled yet, by its mnemonic. Safe. -/
  | notModelled (mnemonic : String)
  deriving DecidableEq, Repr

abbrev Out := Host.Outcome State Fault Refusal

/-- The machine right after reset: phase 0, every region OFF, nothing placed (R58, R87). The values the spec does not
give are named in log entries 1 to 17. -/
def State.reset : State := {}

end Sys2Proof.Machine
end

