-- ==== Sys2Proof/Machine/Sparse.lean ====
section
/-! DEFINITION. Sparse tables and byte memory: the one place where they are read and written. -/

namespace Sys2Proof

/-- The value at key `n`; `d` where nothing is listed. -/
def SMap.get {α : Type} (d : α) : SMap α → Nat → α
  | [], _ => d
  | (k, x) :: m, n => if k = n then x else SMap.get d m n

/-- The table with `x` at key `n`. -/
def SMap.put {α : Type} : SMap α → Nat → α → SMap α
  | [], n, x => [(n, x)]
  | (k, y) :: m, n, x =>
    if n < k then (n, x) :: (k, y) :: m
    else if n = k then (n, x) :: m
    else (k, y) :: SMap.put m n x

/-- Writes a list of keys and values, the first first. -/
def SMap.putAll {α : Type} (m : SMap α) (l : List (Nat × α)) : SMap α :=
  l.foldl (fun m p => m.put p.1 p.2) m

/-- The table without the keys that `p` holds of. -/
def SMap.drop {α : Type} (m : SMap α) (p : Nat → Bool) : SMap α :=
  m.filter fun e => !p e.1

namespace Machine

/-- The byte at `a`; 0 where nothing is listed (log entry 1). -/
def Memory.read : Memory → Nat → Byte
  | [], _ => 0
  | (k, x) :: m, a => if k = a then x else Memory.read m a

/-- Inserts a byte before the first higher address. -/
def Memory.insert : Memory → Nat → Byte → Memory
  | [], a, b => [(a, b)]
  | (k, x) :: m, a, b => if a < k then (a, b) :: (k, x) :: m else (k, x) :: Memory.insert m a b

/-- The memory with nothing listed at `a`. -/
def Memory.erase (m : Memory) (a : Nat) : Memory := m.filter fun c => c.1 ≠ a

/-- Writes one byte; a zero is not listed. -/
def Memory.write (m : Memory) (a : Nat) (b : Byte) : Memory :=
  if b = 0 then m.erase a else (m.erase a).insert a b

/-- Does the canonical form hold: addresses strictly rising, no listed zero? -/
def Memory.wf : Memory → Bool
  | [] => true
  | [c] => c.2 != 0
  | c :: d :: m => c.2 != 0 && c.1 < d.1 && Memory.wf (d :: m)

/-- Little-endian value of `n` bytes from `a` (R144). -/
def Memory.readN (m : Memory) (a : Nat) : Nat → Nat
  | 0 => 0
  | n + 1 => (m.read a).toNat + 256 * Memory.readN m (a + 1) n

/-- Writes `n` bytes of `v` from `a`, least significant first. -/
def Memory.writeN (m : Memory) (a : Nat) : Nat → Nat → Memory
  | 0, _ => m
  | n + 1, v => Memory.writeN (m.write a (BitVec.ofNat 8 v)) (a + 1) n (v / 256)

/-- Writes bytes from `a` upwards. -/
def Memory.writeBytes (m : Memory) (a : Nat) : List Byte → Memory
  | [] => m
  | b :: bs => Memory.writeBytes (m.write a b) (a + 1) bs

/-- The bytes of `[a, a + n)`. -/
def Memory.bytes (m : Memory) (a n : Nat) : List Byte :=
  (List.range n).map fun i => m.read (a + i)

/-- The memory with the bytes of `[a, a + n)` zero. -/
def Memory.clear (m : Memory) (a n : Nat) : Memory :=
  m.filter fun c => c.1 < a || a + n ≤ c.1

/-- The lanes of a mask, ascending. -/
def lanesOf (m : Mask) : List Nat := (List.range 64).filter fun j => m.getLsbD j

/-- Lane `j` alone. -/
def laneBit (j : Nat) : Mask := (1 : Mask) <<< j

/-- The mask of the lanes that `p` holds of, below `n`. -/
def maskOf (n : Nat) (p : Nat → Bool) : Mask :=
  (List.range n).foldl (fun m j => if p j then m ||| laneBit j else m) 0

/-- Number of one bits below bit `n`. -/
def popCount (n : Nat) (v : Nat) : Nat := ((List.range n).filter fun i => v.testBit i).length

/-- Number of zero bits above the highest one bit, below bit `n`. -/
def leadingZeros (n : Nat) (v : Nat) : Nat := ((List.range n).takeWhile fun i => !v.testBit (n - 1 - i)).length

/-- Index of the lowest one bit below `n`. -/
def lowestOne (n : Nat) (v : Nat) : Option Nat := (List.range n).find? fun i => v.testBit i

/-- The low `w` bits of `v`, read as signed or unsigned. -/
def toInt (signed : Bool) (w : Nat) (v : Nat) : Int :=
  let u := v % 2 ^ w
  if signed && u.testBit (w - 1) then (u : Int) - (2 ^ w : Nat) else (u : Int)

/-- An integer reduced modulo 2^w. -/
def wrap (w : Nat) (i : Int) : Nat := (i % (2 ^ w : Nat)).toNat

/-- Bit `i` and the `n - 1` bits above it. -/
def bits (v i n : Nat) : Nat := v / 2 ^ i % 2 ^ n

end Machine
end Sys2Proof
end

