-- ==== Sys2Proof/Machine/Flags.lean ====
section
/-! DEFINITION. Conditions, element widths and the integer arithmetic of scalars and vector elements
(R324, R355, R359 to R361, R371, R376, R377). The device has no flag register: a comparison writes a register or a mask. -/

namespace Sys2Proof.Machine

/-- Element width of a TYPE (R324). -/
def tyBits (ty : BitVec 4) : Nat :=
  match ty.toNat with
  | 0 | 8 | 9 => 32
  | 1 | 2 | 6 | 7 => 16
  | 4 | 5 => 8
  | _ => 64

/-- TYPE is an `.i` type. -/
def tyIsI (ty : BitVec 4) : Bool := ty == 4 || ty == 6 || ty == 8 || ty == 0xa

/-- Conditions 0 to 5 (R358). -/
def intCond (c : Nat) (a b : Int) : Bool :=
  match c with
  | 0 => a == b
  | 1 => a != b
  | 2 => a < b
  | 3 => a ≤ b
  | 4 => b < a
  | _ => b ≤ a

/-- Smallest value of a type (R143). -/
def intMin (sg : Bool) (w : Nat) : Int := if sg then -(2 ^ (w - 1) : Nat) else 0
/-- Largest value of a type. -/
def intMax (sg : Bool) (w : Nat) : Int := if sg then (2 ^ (w - 1) : Nat) - 1 else (2 ^ w : Nat) - 1

/-- The value clamped to the type's range (R143). -/
def clampInt (sg : Bool) (w : Nat) (i : Int) : Int := max (intMin sg w) (min (intMax sg w) i)

/-- An operation on the w-bit patterns `a` and `b`, read as signed or not: the w-bit pattern of the result. -/
abbrev IntOp := Bool → Nat → Nat → Nat → Nat

def intAdd : IntOp := fun sg w a b => wrap w (toInt sg w a + toInt sg w b)
def intSub : IntOp := fun sg w a b => wrap w (toInt sg w a - toInt sg w b)
def intAddSat : IntOp := fun sg w a b => wrap w (clampInt sg w (toInt sg w a + toInt sg w b))
def intSubSat : IntOp := fun sg w a b => wrap w (clampInt sg w (toInt sg w a - toInt sg w b))
def intMul : IntOp := fun sg w a b => wrap w (toInt sg w a * toInt sg w b)
/-- The floor of the exact product over 2^w (R359). -/
def intMulh : IntOp := fun sg w a b => wrap w (toInt sg w a * toInt sg w b / (2 ^ w : Nat))

/-- Division truncating toward zero, all ones by zero (R360). -/
def intDiv : IntOp := fun sg w a b =>
  if toInt sg w b = 0 then 2 ^ w - 1 else wrap w ((toInt sg w a).tdiv (toInt sg w b))

/-- Remainder with the sign of the dividend, the dividend by zero (R360). -/
def intRem : IntOp := fun sg w a b =>
  if toInt sg w b = 0 then a % 2 ^ w else wrap w ((toInt sg w a).tmod (toInt sg w b))

def intMinOp : IntOp := fun sg w a b => wrap w (min (toInt sg w a) (toInt sg w b))
def intMaxOp : IntOp := fun sg w a b => wrap w (max (toInt sg w a) (toInt sg w b))
def intAnd : IntOp := fun _ w a b => (a &&& b) % 2 ^ w
def intOr : IntOp := fun _ w a b => (a ||| b) % 2 ^ w
def intXor : IntOp := fun _ w a b => (a ^^^ b) % 2 ^ w

/-- Shifts by an unsigned count (R361). -/
def intShl : IntOp := fun _ w a b => if w ≤ b then 0 else a % 2 ^ w * 2 ^ b % 2 ^ w
def intShr : IntOp := fun _ w a b => if w ≤ b then 0 else a % 2 ^ w / 2 ^ b
def intSra : IntOp := fun _ w a b => wrap w (toInt true w a / (2 ^ min b w : Nat))
/-- Rotation left by the count modulo w (R377). -/
def intRot : IntOp := fun _ w a b =>
  let k := b % w
  (a % 2 ^ w * 2 ^ k % 2 ^ w) ||| (a % 2 ^ w / 2 ^ (w - k))

/-- `slea`: a + (b << c) (R361). -/
def intLea (w a b c : Nat) : Nat := (a + (if w ≤ c then 0 else b % 2 ^ w * 2 ^ c)) % 2 ^ w

/-- Bit-field extraction (R361). -/
def intBfx (sg : Bool) (w a pos len : Nat) : Nat :=
  if len = 0 ∨ w < pos + len then 0
  else
    let f := a % 2 ^ w / 2 ^ pos % 2 ^ len
    if sg then wrap w (toInt true len f) else f

/-- Bit-field insertion into `old` (R361). -/
def intBfi (w old a pos len : Nat) : Nat :=
  if len = 0 ∨ w < pos + len then old % 2 ^ w
  else
    let o := old % 2 ^ w
    o - (o / 2 ^ pos % 2 ^ len) * 2 ^ pos + (a % 2 ^ len) * 2 ^ pos

def intNot (w a : Nat) : Nat := 2 ^ w - 1 - a % 2 ^ w
def intAbs (sg : Bool) (w a : Nat) : Nat := wrap w (toInt sg w a).natAbs
def intNeg (w a : Nat) : Nat := wrap w (-(toInt false w a))
def intClz (w a : Nat) : Nat := leadingZeros w (a % 2 ^ w)
def intPopc (w a : Nat) : Nat := popCount w a

/-- A w-bit result extended to 64 bits by TYPE's signedness (R355). -/
def extend (sg : Bool) (w r : Nat) : DWord := BitVec.ofInt 64 (toInt sg w r)

/-- Element k of a register of w-bit elements (R371). -/
def elem (w k v : Nat) : Nat := v / 2 ^ (w * k) % 2 ^ w

/-- Number of elements of a lane. -/
def elems (w : Nat) : Nat := if w = 64 then 1 else 32 / w

/-- A lane's result, element by element (R371). -/
def packElems (w : Nat) (f : Nat → Nat) : Nat :=
  (List.range (elems w)).foldl (fun acc k => acc + f k % 2 ^ w * 2 ^ (w * k)) 0

end Sys2Proof.Machine
end

