-- ==== Sys2Proof/Machine/Float.lean ====
section
/-! DEFINITION. Number formats, exact values, rounding and the float operations (R141 to R161, R381 to R383). A value is
decoded exactly, the operation is exact, and one rounding ends it. -/

namespace Sys2Proof.Machine

/-- A floating-point format (R141): exponent and mantissa bits, bias, whether it has infinities, and its NaNs: 0 none,
1 exponent all ones, 2 the one pattern of E4M3. -/
structure Fmt where
  e : Nat
  m : Nat
  bias : Nat
  inf : Bool
  nan : Nat
  deriving DecidableEq, Repr

def fp32 : Fmt := ⟨8, 23, 127, true, 1⟩
def bf16 : Fmt := ⟨8, 7, 127, true, 1⟩
def fp16 : Fmt := ⟨5, 10, 15, true, 1⟩
def e4m3 : Fmt := ⟨4, 3, 7, false, 2⟩
def e5m2 : Fmt := ⟨5, 2, 15, true, 1⟩
def e2m3 : Fmt := ⟨2, 3, 1, false, 0⟩
def e3m2 : Fmt := ⟨3, 2, 3, false, 0⟩
def e2m1 : Fmt := ⟨2, 1, 1, false, 0⟩

def Fmt.bits (f : Fmt) : Nat := 1 + f.e + f.m
/-- FTZ governs FP32, BF16 and FP16 only (R154). -/
def Fmt.wide (f : Fmt) : Bool := f.bits ≥ 16

/-- An exact value: ± mant · 2^exp. With `more` the magnitude lies strictly between mant and mant + 1 units; such a value
has at least 64 significant bits, so that one rounding decides it. -/
inductive XVal where
  | nan
  | inf (neg : Bool)
  | fin (neg : Bool) (mant : Nat) (exp : Int) (more : Bool)
  deriving DecidableEq, Repr

def XVal.neg? : XVal → Bool
  | .nan => false
  | .inf n => n
  | .fin n _ _ _ => n

def XVal.negate : XVal → XVal
  | .nan => .nan
  | .inf n => .inf !n
  | .fin n m e s => .fin (!n) m e s

/-- The value of a bit pattern (R141). -/
def Fmt.decode (f : Fmt) (v : Nat) : XVal :=
  let s := v.testBit (f.e + f.m)
  let e := v / 2 ^ f.m % 2 ^ f.e
  let m := v % 2 ^ f.m
  let top := 2 ^ f.e - 1
  if f.nan = 1 ∧ e = top then (if m = 0 then .inf s else .nan)
  else if f.nan = 2 ∧ e = top ∧ m = 2 ^ f.m - 1 then .nan
  else if e = 0 then .fin s m (1 - (f.bias : Int) - f.m) false
  else .fin s (2 ^ f.m + m) ((e : Int) - f.bias - f.m) false

/-- A subnormal pattern: exponent zero, mantissa not (R154). -/
def Fmt.subnormal (f : Fmt) (v : Nat) : Bool := v / 2 ^ f.m % 2 ^ f.e == 0 && v % 2 ^ f.m != 0

/-- ftz_src and the decoding of a source (R154). -/
def Fmt.source (f : Fmt) (ftz : Bool) (v : Nat) : XVal :=
  if ftz && f.wide && f.subnormal v then .fin (v.testBit (f.e + f.m)) 0 0 false else f.decode v

/-- The canonical NaN (R142), +0 in a format without NaN (R155). -/
def Fmt.canonNaN (f : Fmt) : Nat :=
  match f.nan with
  | 0 => 0
  | 1 => (2 ^ f.e - 1) * 2 ^ f.m + 2 ^ (f.m - 1)
  | _ => 2 ^ (f.e + f.m) - 1

/-- The largest finite pattern, without its sign. -/
def Fmt.largest (f : Fmt) : Nat :=
  match f.nan with
  | 0 => 2 ^ (f.e + f.m) - 1
  | 1 => (2 ^ f.e - 1) * 2 ^ f.m - 1
  | _ => 2 ^ (f.e + f.m) - 2

/-- Rounding modes (R155). -/
abbrev Mode := Nat
def modeRNE : Mode := 0
def modeRTZ : Mode := 1
def modeRUP : Mode := 2
def modeRDN : Mode := 3
def modeRNA : Mode := 4
def modeSR : Mode := 5

/-- Overflow results (R156). -/
def Fmt.overflow (f : Fmt) (neg : Bool) (mode : Mode) (sat : Bool) : Nat :=
  let sg := if neg then 2 ^ (f.e + f.m) else 0
  let toLargest := sat || f.nan == 0 || mode == modeRTZ || (mode == modeRUP && neg) || (mode == modeRDN && !neg)
  if toLargest then sg + f.largest
  else if f.inf then sg + (2 ^ f.e - 1) * 2 ^ f.m
  else f.canonNaN

/-- The units of a magnitude mant · 2^exp at spacing 2^q: floor, the remainder's comparison with one half (0 exact, 1 below,
2 half, 3 above), and the first 16 fraction bits. -/
def unitsAt (mant : Nat) (exp : Int) (more : Bool) (q : Int) : Nat × Nat × Nat :=
  if q ≤ exp then (mant * 2 ^ (exp - q).toNat, if more then 1 else 0, 0)
  else
    let sh := (q - exp).toNat
    let fl := mant / 2 ^ sh
    let r := mant % 2 ^ sh
    let half := 2 ^ (sh - 1)
    let c := if r = 0 then (if more then 1 else 0) else if r < half then 1 else if r = half then (if more then 3 else 2) else 3
    (fl, c, r * 65536 / 2 ^ sh)

/-- Does the magnitude round up? (R155, R157). `z` is LFS[15:0] of a stochastic rounding. -/
def roundsUp (mode : Mode) (neg : Bool) (fl c frac z : Nat) : Bool :=
  if c = 0 then false
  else if mode = modeRNE then c == 3 || (c == 2 && fl % 2 == 1)
  else if mode = modeRTZ then false
  else if mode = modeRUP then !neg
  else if mode = modeRDN then neg
  else if mode = modeRNA then c ≥ 2
  else 65536 ≤ frac + z

/-- round(x, fmt, mode, slot) for a floating format (R155). -/
def Fmt.round (f : Fmt) (mode : Mode) (ftz sat : Bool) (z : Nat) : XVal → Nat
  | .nan => f.canonNaN
  | .inf neg => f.overflow neg mode sat
  | .fin neg mant exp more =>
    let sg := if neg then 2 ^ (f.e + f.m) else 0
    if mant = 0 ∧ more = false then sg
    else
      let lg : Int := (Nat.log2 mant : Int) + exp
      if lg > 4000 then f.overflow neg mode sat
      else
        let emin : Int := 1 - f.bias
        let q : Int := if emin ≤ lg then lg - f.m else emin - f.m
        let (fl, c, frac) := if lg < -4000 then (0, 1, 0) else unitsAt mant exp more q
        let y := if roundsUp mode neg fl c frac z then fl + 1 else fl
        let big := y = 2 ^ (f.m + 1)
        let y' := if big then 2 ^ f.m else y
        let q' := if big then q + 1 else q
        if y' < 2 ^ f.m then (if ftz && f.wide && y' != 0 then sg else sg + y')
        else
          let e : Int := q' + f.bias + f.m
          let mag : Int := e * (2 ^ f.m : Nat) + (y' - 2 ^ f.m : Nat)
          if mag > f.largest then f.overflow neg mode sat else sg + mag.toNat

/-- The integer nearest to a value under a mode, for `vrint` and integer destinations. -/
def roundInt (mode : Mode) (z : Nat) (neg : Bool) (mant : Nat) (exp : Int) (more : Bool) : Nat :=
  if mant = 0 ∧ more = false then 0
  else
    let lg : Int := (Nat.log2 mant : Int) + exp
    let (fl, c, frac) :=
      if lg < -4000 then (0, 1, 0) else if lg > 4000 then (2 ^ 4000, 0, 0) else unitsAt mant exp more 0
    if roundsUp mode neg fl c frac z then fl + 1 else fl

/-- round(x, fmt, …) for an integer format: saturating, NaN gives 0 (R155). -/
def roundToInt (sg : Bool) (w : Nat) (mode : Mode) (z : Nat) : XVal → Nat
  | .nan => 0
  | .inf neg => wrap w (if neg then intMin sg w else intMax sg w)
  | .fin neg mant exp more =>
    let n : Int := roundInt mode z neg mant exp more
    wrap w (clampInt sg w (if neg then -n else n))

/-- An integer as an exact value. -/
def XVal.ofInt (i : Int) : XVal := .fin (i < 0) i.natAbs 0 false

/-! ## Exact arithmetic -/

/-- The sum; `down` is rounding toward −∞, which makes an exact zero of unlike signs −0 (IEEE 754). -/
def XVal.add (down : Bool) : XVal → XVal → XVal
  | .nan, _ => .nan
  | _, .nan => .nan
  | .inf a, .inf b => if a = b then .inf a else .nan
  | .inf a, _ => .inf a
  | _, .inf b => .inf b
  | .fin na ma ea _, .fin nb mb eb _ =>
    if ma = 0 ∧ mb = 0 then .fin (if na = nb then na else down) 0 0 false
    else if ma = 0 then .fin nb mb eb false
    else if mb = 0 then .fin na ma ea false
    else
      let e := min ea eb
      let a : Int := (ma * 2 ^ (ea - e).toNat : Nat)
      let b : Int := (mb * 2 ^ (eb - e).toNat : Nat)
      let s := (if na then -a else a) + (if nb then -b else b)
      if s = 0 then .fin down 0 0 false else .fin (s < 0) s.natAbs e false

def XVal.mul : XVal → XVal → XVal
  | .nan, _ => .nan
  | _, .nan => .nan
  | .inf a, .inf b => .inf (a != b)
  | .inf a, .fin nb mb _ _ => if mb = 0 then .nan else .inf (a != nb)
  | .fin na ma _ _, .inf b => if ma = 0 then .nan else .inf (na != b)
  | .fin na ma ea _, .fin nb mb eb _ => .fin (na != nb) (ma * mb) (ea + eb) false

/-- Guard bits of an inexact quotient or root. -/
def guardBits : Nat := 200

def XVal.div : XVal → XVal → XVal
  | .nan, _ => .nan
  | _, .nan => .nan
  | .inf _, .inf _ => .nan
  | .inf a, .fin nb _ _ _ => .inf (a != nb)
  | .fin na _ _ _, .inf b => .fin (na != b) 0 0 false
  | .fin na ma ea _, .fin nb mb eb _ =>
    if mb = 0 then (if ma = 0 then .nan else .inf (na != nb))
    else .fin (na != nb) (ma * 2 ^ guardBits / mb) (ea - eb - guardBits) (ma * 2 ^ guardBits % mb != 0)

/-- Integer square root by bits, the `n` low bits of the root still to decide. -/
def sqrtLoop (v : Nat) : Nat → Nat → Nat
  | 0, r => r
  | n + 1, r =>
    let r' := r + 2 ^ n
    sqrtLoop v n (if r' * r' ≤ v then r' else r)

def isqrt (v : Nat) : Nat := sqrtLoop v (Nat.log2 v / 2 + 1) 0

def XVal.sqrt : XVal → XVal
  | .nan => .nan
  | .inf neg => if neg then .nan else .inf false
  | .fin neg m e _ =>
    if m = 0 then .fin neg 0 0 false
    else if neg then .nan
    else
      let (m, e) := if e % 2 = 0 then (m, e) else (2 * m, e - 1)
      let v := m * 2 ^ (2 * guardBits)
      let r := isqrt v
      .fin false r (e / 2 - guardBits) (r * r != v)

def XVal.rsqrt : XVal → XVal
  | .nan => .nan
  | .inf neg => if neg then .nan else .fin false 0 0 false
  | .fin neg m e _ =>
    if m = 0 then .inf neg
    else if neg then .nan
    else
      let (m, e) := if e % 2 = 0 then (m, e) else (2 * m, e - 1)
      let v := 2 ^ (2 * guardBits + 2 * 64) / m
      let r := isqrt v
      .fin false r (-(e / 2) - (guardBits + 64)) (r * r * m != 2 ^ (2 * guardBits + 2 * 64))

def XVal.rcp (x : XVal) : XVal := XVal.div (.fin false 1 0 false) x

/-- x · 2^k (`vscale`). -/
def XVal.scale (x : XVal) (k : Int) : XVal :=
  match x with
  | .fin n m e s => .fin n m (e + k) s
  | y => y

/-! ## exp2, log2 and lse in fixed point

A value v of fixed point stands for v · 2^-640. Truncations of the series below amount to far less than `fixErr` units
(DEDUCED, log entry 20). -/

def fixP : Nat := 640
def fixOne : Nat := 2 ^ fixP
/-- The bound on the error of a series. -/
def fixErr : Nat := 2 ^ 32
/-- floor(ln 2 · 2^640). -/
def fixLn2 : Nat :=
  3162442850577000144542819255265044123884198300717798677536341180773118696995660441338367561063358767323571958122307070903190084685977847936741854327993944726832264493303953239866611699627604094

/-- e^r for 0 ≤ r < 1: the terms r^k/k! from the k-th, `t` the (k − 1)-th. -/
def expLoop (r : Nat) : Nat → Nat → Nat → Nat → Nat
  | 0, _, _, acc => acc
  | n + 1, k, t, acc =>
    let t' := t * r / fixOne / k
    expLoop r n (k + 1) t' (acc + t')

def fixExp (r : Nat) : Nat := expLoop r 140 1 fixOne fixOne

/-- The terms z^(2k+1)/(2k+1) from the k-th, `t` the power of z. -/
def lnLoop (z2 : Nat) : Nat → Nat → Nat → Nat → Nat
  | 0, _, _, acc => acc
  | n + 1, k, t, acc => lnLoop z2 n (k + 2) (t * z2 / fixOne) (acc + t / k)

/-- ln x for 1 ≤ x ≤ 2. -/
def fixLn (x : Nat) : Nat :=
  let z := (x - fixOne) * fixOne / (x + fixOne)
  2 * lnLoop (z * z / fixOne) 210 1 z 0

/-- A real between the two ends, which it does not reach; both ends equal and exact where the value is exact. -/
structure Enclosure where
  lo : XVal
  hi : XVal
  deriving DecidableEq, Repr

def Enclosure.exact (x : XVal) : Enclosure := ⟨x, x⟩

/-- The enclosure of a fixed-point magnitude v · 2^(exp − 640). -/
def encloseMag (v : Nat) (exp : Int) : Enclosure :=
  ⟨.fin false (v - fixErr) (exp - fixP) true, .fin false (v + fixErr) (exp - fixP) true⟩

/-- The enclosure of a signed fixed-point value. -/
def encloseInt (v : Int) : Enclosure :=
  let e (i : Int) : XVal := .fin (i < 0) i.natAbs (-(fixP : Int)) true
  ⟨e (v - fixErr), e (v + fixErr)⟩

/-- mant · 2^exp in fixed point; exact for every dyadic with exponent at or above −640. -/
def toFix (mant : Nat) (exp : Int) : Nat :=
  if 0 ≤ exp + fixP then mant * 2 ^ (exp + fixP).toNat else mant / 2 ^ (-(exp + fixP)).toNat

def XVal.exp2 : XVal → Enclosure
  | .nan => .exact .nan
  | .inf neg => .exact (if neg then .fin false 0 0 false else .inf false)
  | .fin neg m e _ =>
    if m = 0 then .exact (.fin false 1 0 false)
    else if (Nat.log2 m : Int) + e > 20 then
      .exact (if neg then .fin false (2 ^ 64) (-10000) true else .fin false 1 10000 false)
    else
      let v : Int := (if neg then -1 else 1) * (toFix m e : Int)
      let n := v / fixOne
      let f := (v % fixOne).toNat
      if f = 0 then .exact (.fin false 1 n false) else encloseMag (fixExp (f * fixLn2 / fixOne)) n

def XVal.log2 : XVal → Enclosure
  | .nan => .exact .nan
  | .inf neg => .exact (if neg then .nan else .inf false)
  | .fin neg m e _ =>
    if m = 0 then .exact (.inf true)
    else if neg then .exact .nan
    else
      let k := Nat.log2 m
      let n : Int := k + e
      if m = 2 ^ k then .exact (.fin (n < 0) n.natAbs 0 false)
      else encloseInt (n * fixOne + (fixLn (m * 2 ^ (fixP - k)) * fixOne / fixLn2 : Nat))

/-- The signed fixed-point value of a finite value; its magnitude is below 2^300 here. -/
def XVal.toFixInt : XVal → Int
  | .fin n m e _ => if n then -(toFix m e : Int) else toFix m e
  | _ => 0

/-- A value just above `x`: x + δ with 0 < δ < 2^-400. -/
def XVal.justAbove : XVal → XVal
  | .fin n m e _ =>
    if m = 0 then .fin false (2 ^ 64) (-10000) true
    else if n then .fin true (m * 2 ^ 128 - 1) (e - 128) true
    else .fin false (m * 2 ^ 128) (e - 128) true
  | x => x

/-- ln(e^a + e^b) (R247, R382): the exact value is never representable when both are finite. -/
def XVal.lse (a b : XVal) : Enclosure :=
  match a, b with
  | .nan, _ => .exact .nan
  | _, .nan => .exact .nan
  | .inf false, _ => .exact (.inf false)
  | _, .inf false => .exact (.inf false)
  | .inf true, x => .exact x
  | x, .inf true => .exact x
  | x, y =>
    let fx := x.toFixInt
    let fy := y.toFixInt
    let (hi, d) := if fx ≥ fy then (x, (fx - fy).toNat) else (y, (fy - fx).toNat)
    if d > 300 * fixOne then .exact hi.justAbove
    else
      let k := d / fixLn2
      let ed := fixOne * fixOne / fixExp (d % fixLn2) / 2 ^ k
      encloseInt (hi.toFixInt + (fixLn (fixOne + ed) : Int))

/-- Rounds an enclosure: both ends agree but where the enclosure does not decide, which `choice` then settles
(Config.roundUpChoice, log entry 20). -/
def Enclosure.round (f : Fmt) (mode : Mode) (ftz sat : Bool) (choice : Bool) (x : Enclosure) : Nat :=
  let lo := f.round mode ftz sat 0 x.lo
  let hi := f.round mode ftz sat 0 x.hi
  if lo = hi then lo else if choice then hi else lo

/-! ## Operations that do not round (R383) -/

/-- a < b of two numbers, −0 below +0 when `zeros`. -/
def XVal.lt (zeros : Bool) : XVal → XVal → Bool
  | .nan, _ => false
  | _, .nan => false
  | .inf a, .inf b => a && !b
  | .inf a, _ => a
  | _, .inf b => !b
  | .fin na ma ea _, .fin nb mb eb _ =>
    if ma = 0 ∧ mb = 0 then zeros && na && !nb
    else
      let e := min ea eb
      let a : Int := (ma * 2 ^ (ea - e).toNat : Nat)
      let b : Int := (mb * 2 ^ (eb - e).toNat : Nat)
      (if na then -a else a) < (if nb then -b else b)

def XVal.isNan (x : XVal) : Bool := x == .nan

/-- Encodes a decoded value back, exactly. -/
def Fmt.encode (f : Fmt) (x : XVal) : Nat := f.round modeRTZ false true 0 x

/-- Encodes a decoded value, keeping infinities. -/
def Fmt.keep (f : Fmt) (x : XVal) : Nat :=
  match x with
  | .inf neg => f.overflow neg modeRNE false
  | y => f.encode y

def Fmt.minmax (f : Fmt) (isMax ftz : Bool) (a b : Nat) : Nat :=
  let x := f.source ftz a
  let y := f.source ftz b
  if x.isNan || y.isNan then f.canonNaN
  else if isMax then (if x.lt true y then f.keep y else f.keep x)
  else (if y.lt true x then f.keep y else f.keep x)

def Fmt.abs (f : Fmt) (ftz : Bool) (a : Nat) : Nat :=
  match f.source ftz a with
  | .nan => f.canonNaN
  | x => f.keep (if x.neg? then x.negate else x)

def Fmt.neg (f : Fmt) (ftz : Bool) (a : Nat) : Nat :=
  match f.source ftz a with
  | .nan => f.canonNaN
  | x => f.keep x.negate

/-- Conditions 0 to 7 (R351, R383). -/
def Fmt.cond (f : Fmt) (ftz : Bool) (c : Nat) (a b : Nat) : Bool :=
  let x := f.source ftz a
  let y := f.source ftz b
  let un := x.isNan || y.isNan
  let lt := x.lt false y
  let gt := y.lt false x
  let eq := !un && !lt && !gt
  match c with
  | 0 => eq
  | 1 => !eq
  | 2 => lt
  | 3 => lt || eq
  | 4 => gt
  | 5 => gt || eq
  | 6 => !un
  | _ => un

/-- `vclass` (R383). -/
def Fmt.classOf (f : Fmt) (a : Nat) : Nat :=
  match f.decode a with
  | .nan => 2 ^ 8
  | .inf neg => if neg then 1 else 2 ^ 7
  | .fin neg m _ _ =>
    if m = 0 then (if neg then 2 ^ 3 else 2 ^ 4)
    else if f.subnormal a then (if neg then 2 ^ 2 else 2 ^ 5)
    else (if neg then 2 else 2 ^ 6)

/-- `vrint` (R382). -/
def Fmt.rint (f : Fmt) (mode : Mode) (ftz sat : Bool) (a : Nat) : Nat :=
  match f.source ftz a with
  | .fin neg m e s => f.round modeRNE ftz sat 0 (.fin neg (roundInt mode 0 neg m e s) 0 false)
  | .inf neg => f.overflow neg modeRNE false
  | x => f.round mode ftz sat 0 x

/-- The binary operations that round once (R382): 0 add, 1 sub, 2 mul, 3 div. -/
def Fmt.arith (f : Fmt) (op : Nat) (mode : Mode) (ftz sat : Bool) (a b : Nat) : Nat :=
  let x := f.source ftz a
  let y := f.source ftz b
  f.round mode ftz sat 0
    (match op with
     | 0 => x.add (mode == modeRDN) y
     | 1 => x.add (mode == modeRDN) y.negate
     | 2 => x.mul y
     | _ => x.div y)

/-- `vfma`, `vfms`, `vfnma`: ±(a · b) ± c, rounded once (R382). -/
def Fmt.fma (f : Fmt) (negP negC : Bool) (mode : Mode) (ftz sat : Bool) (a b c : Nat) : Nat :=
  let p := (f.source ftz a).mul (f.source ftz b)
  let z := f.source ftz c
  f.round mode ftz sat 0 ((if negP then p.negate else p).add (mode == modeRDN) (if negC then z.negate else z))

/-- The FP32 sum of `vred`, `atom.add` and the window operators. -/
def addF32 (a b : Nat) : Nat := fp32.arith 0 modeRNE false false a b
def mulF32 (a b : Nat) : Nat := fp32.arith 2 modeRNE false false a b

/-! ## Scales, slots and blocks (R145 to R160) -/

/-- An E8M0 scale (R145): none for NaN, else its exponent. -/
def scaleExp (e : Nat) : Option Int := if e = 255 then none else some ((e : Int) - 127)

/-- What a format slot's FMT names (R151). -/
inductive SlotFmt where
  | flt (f : Fmt)
  | int (sg : Bool) (w : Nat)
  | cb2
  | none
  deriving DecidableEq, Repr

def slotFmt (code : Nat) : SlotFmt :=
  match code with
  | 0 => .flt fp32
  | 1 => .flt bf16
  | 2 => .flt fp16
  | 3 => .flt e4m3
  | 4 => .flt e5m2
  | 5 => .flt e2m3
  | 6 => .flt e3m2
  | 7 => .flt e2m1
  | 8 => .int true 8
  | 9 => .int false 8
  | 10 => .int true 4
  | 11 => .int false 4
  | 12 => .int true 32
  | 13 => .int false 32
  | 14 => .cb2
  | 15 => .int true 16
  | 16 => .int false 16
  | _ => .none

def SlotFmt.bits : SlotFmt → Nat
  | .flt f => f.bits
  | .int _ w => w
  | .cb2 => 2
  | .none => 0

/-- A format slot (R151). -/
structure Slot where
  code : Nat
  ftz : Bool
  blk : Nat
  slay : Bool
  sat : Bool
  cb : Nat
  deriving DecidableEq, Repr

def slotOf (b : BitVec 128) : Slot :=
  let v := b.toNat
  { code := bits v 0 5, ftz := v.testBit 6, blk := bits v 7 2, slay := v.testBit 9, sat := v.testBit 10, cb := bits v 64 64 }

/-- A slot with FTZ = SAT = 0 (R153). -/
def plainSlot : Slot := { code := 0, ftz := false, blk := 0, slay := false, sat := false, cb := 0 }

def Slot.fmt (s : Slot) : SlotFmt := slotFmt s.code

/-- The checks of R152. -/
def slotOk (b : BitVec 128) : Bool :=
  let v := b.toNat
  let s := slotOf b
  bits v 11 53 == 0 && !v.testBit 5 && s.code ≤ 0x10 && s.blk != 3 &&
    (s.blk == 0 || (3 ≤ s.code && s.code ≤ 8) || (s.code == 10 && s.blk == 1) || (s.code == 14 && s.blk == 1)) &&
    (s.code != 14 || (s.blk == 1 && s.cb != 0 && s.cb % 2048 == 0)) && (s.code == 14 || s.cb == 0)

/-- Elements of a block; 1 when unscaled. -/
def Slot.blockSize (s : Slot) : Nat := if s.blk = 0 then 1 else if s.blk = 1 then 8 else 32

/-- An element's value with its block's scale (R146, R148); `scale` is ignored when unscaled. -/
def Slot.element (s : Slot) (ftz : Bool) (scale : Nat) (v : Nat) : XVal :=
  let x : XVal := match s.fmt with
    | .flt f => f.source ftz v
    | .int sg w => XVal.ofInt (toInt sg w v)
    | _ => .nan
  if s.blk = 0 then x
  else
    match scaleExp scale with
    | none => .nan
    | some k => x.scale (if s.blk = 2 ∧ s.code = 8 then k - 6 else k)

/-- Rounds into the slot's format (R155, R156). -/
def Slot.roundTo (s : Slot) (mode : Mode) (sat : Bool) (z : Nat) (x : XVal) : Nat :=
  match s.fmt with
  | .flt f => f.round mode s.ftz sat z x
  | .int sg w => roundToInt sg w mode z x
  | _ => 0

/-- emax of R159. -/
def Slot.emax (s : Slot) : Int :=
  match s.code with
  | 3 => 8
  | 4 => 15
  | 5 => 2
  | 6 => 4
  | 7 => 2
  | 8 => if s.blk = 2 then 0 else 6
  | 10 => 2
  | _ => 0

/-- floor(log2 |x|) of a finite non-zero value. -/
def XVal.ilog : XVal → Option Int
  | .fin _ m e _ => if m = 0 then Option.none else some ((Nat.log2 m : Int) + e)
  | _ => Option.none

def XVal.finite : XVal → Bool
  | .fin _ _ _ _ => true
  | _ => false

/-- The scale byte of a block (R159). -/
def Slot.blockScale (s : Slot) (xs : List XVal) : Nat :=
  if xs.any fun x => !x.finite then 255
  else
    match xs.foldl (fun acc x => match acc, x.ilog with
        | Option.none, l => l
        | some a, some l => some (max a l)
        | some a, Option.none => some a) Option.none with
    | Option.none => 127
    | some l => (max 0 (min 254 (l - s.emax + 127))).toNat

/-- One element of a scaled block (R159): MX INT8 elements are sixty-fourths (R148). Saturating. -/
def Slot.blockElem (s : Slot) (e : Nat) (mode : Mode) (z : Nat) (x : XVal) : Nat :=
  if e = 255 then 0
  else s.roundTo mode true z (x.scale ((127 : Int) - e + (if s.blk = 2 ∧ s.code = 8 then 6 else 0)))

/-- 16 Galois steps of LFS (R157). -/
def lfsStep (l : Word) : Word := if l.getLsbD 0 then (l >>> 1) ^^^ 0x80200003 else l >>> 1
def lfsSteps : Nat → Word → Word
  | 0, l => l
  | n + 1, l => lfsSteps n (lfsStep l)
def lfsAdvance (l : Word) : Word := lfsSteps 16 l

/-- The weights of a CB2 index (R149), with the scale byte. -/
def cb2Decode (idx : Nat) (entry : Nat) (scale : Nat) : List XVal :=
  let par := popCount 7 (bits idx 8 7) % 2 == 1
  (List.range 8).map fun j =>
    let sg := if j < 7 then idx.testBit (8 + j) else par
    match scaleExp scale with
    | none => .nan
    | some k => .fin sg (bits entry (4 * j) 4) (k - 2) false

/-- The table entry number of a CB2 index. -/
def cb2Entry (idx : Nat) : Nat := (if idx.testBit 15 then 256 else 0) + idx % 256

end Sys2Proof.Machine
end

