-- ==== Sys2Proof/Machine/Alu.lean ====
section
/-! DEFINITION. What one lane of an element-wise vector instruction computes (R376 to R385): used by the instructions and by
recipe bodies. Values are 64-bit patterns; a 32-bit operand lies in the low half. -/

namespace Sys2Proof.Machine

/-- Rounding mode and format slot of an instruction (R153, R381), and the number that stands for a choice. -/
structure Env where
  mode : Mode := 0
  slot : Slot := plainSlot
  deriving DecidableEq, Repr

/-- Format of a float TYPE (R324). -/
def fmtOfTy (ty : BitVec 4) : Fmt := if ty = 1 then bf16 else if ty = 2 then fp16 else fp32

def laneInt2 (op : IntOp) (f : Fields) (a b : Nat) : Nat :=
  let w := tyBits f.ty
  packElems w fun k => op (tyIsI f.ty) w (elem w k a) (elem w k b)

def laneInt1 (op : Bool → Nat → Nat → Nat) (f : Fields) (a : Nat) : Nat :=
  let w := tyBits f.ty
  packElems w fun k => op (tyIsI f.ty) w (elem w k a)

def laneMad (f : Fields) (a b c : Nat) : Nat :=
  let w := tyBits f.ty
  let g := toInt (tyIsI f.ty) w
  packElems w fun k => wrap w (g (elem w k a) * g (elem w k b) + g (elem w k c))

def laneBfx (f : Fields) (a b c : Nat) : Nat :=
  let w := tyBits f.ty
  packElems w fun k => intBfx (tyIsI f.ty) w (elem w k a) (elem w k b) (elem w k c)

/-- `vdp4` (R378). -/
def laneDp4 (f : Fields) (a b c : Nat) : Nat :=
  let w := tyBits f.ty
  let sg := tyIsI f.ty
  let p := (List.range (elems w)).foldl (fun acc k => acc + toInt sg w (elem w k a) * toInt sg w (elem w k b)) (0 : Int)
  let r := toInt sg 32 c + p
  wrap 32 (if f.fn.getLsbD 0 then clampInt sg 32 r else r)

def laneF1 (op : Fmt → Nat → Nat) (f : Fields) (a : Nat) : Nat :=
  let m := fmtOfTy f.ty
  packElems m.bits fun k => op m (elem m.bits k a)

def laneF2 (op : Fmt → Nat → Nat → Nat) (f : Fields) (a b : Nat) : Nat :=
  let m := fmtOfTy f.ty
  packElems m.bits fun k => op m (elem m.bits k a) (elem m.bits k b)

def laneF3 (op : Fmt → Nat → Nat → Nat → Nat) (f : Fields) (a b c : Nat) : Nat :=
  let m := fmtOfTy f.ty
  packElems m.bits fun k => op m (elem m.bits k a) (elem m.bits k b) (elem m.bits k c)

/-- A unary operation on an exact value, rounded once. -/
def unaryF (op : XVal → XVal) (e : Env) (m : Fmt) (a : Nat) : Nat :=
  m.round e.mode e.slot.ftz e.slot.sat 0 (op (m.source e.slot.ftz a))

/-- A transcendental operation, rounded once. -/
def enclosedF (op : XVal → Enclosure) (e : Env) (m : Fmt) (a : Nat) : Nat :=
  (op (m.source e.slot.ftz a)).round m e.mode e.slot.ftz e.slot.sat (Config.roundUpChoice a)

def lseF (e : Env) (m : Fmt) (a b : Nat) : Nat :=
  ((m.source e.slot.ftz a).lse (m.source e.slot.ftz b)).round m e.mode e.slot.ftz e.slot.sat
    (Config.roundUpChoice (a * 2 ^ 32 + b))

def scaleF (e : Env) (m : Fmt) (a b : Nat) : Nat :=
  m.round e.mode e.slot.ftz e.slot.sat 0 ((m.source e.slot.ftz a).scale (toInt true m.bits b))

/-- The source of `vcvt` by its code (R385). -/
def cvtSource (code : Nat) (ftz : Bool) (a : Nat) : XVal :=
  match code with
  | 0 => fp32.source ftz (a % 2 ^ 32)
  | 1 => bf16.source ftz (a % 2 ^ 16)
  | 2 => fp16.source ftz (a % 2 ^ 16)
  | 3 => XVal.ofInt (toInt true 32 a)
  | 4 => XVal.ofInt (toInt false 32 a)
  | 5 => XVal.ofInt (toInt true 16 a)
  | 6 => XVal.ofInt (toInt false 16 a)
  | _ => XVal.ofInt (toInt true 8 a)

/-- `vcvt` (R385); `z` is LFS[15:0] of a stochastic rounding. -/
def laneCvt (f : Fields) (e : Env) (z a : Nat) : Nat :=
  let x := cvtSource f.fn.toNat e.slot.ftz a
  if f.ty.toNat < 4 then (fmtOfTy f.ty).round e.mode e.slot.ftz e.slot.sat z x
  else
    let w := tyBits f.ty
    (BitVec.ofInt 32 (toInt (tyIsI f.ty) w (roundToInt (tyIsI f.ty) w e.mode z x))).toNat

/-- The result of an element-wise instruction with a per-lane result and no mask operand; none for any other. -/
def laneFn (i : Instr) (e : Env) (a b c : Nat) : Option Nat :=
  match i with
  | .vaddInt f => some (laneInt2 (if f.fn.getLsbD 0 then intAddSat else intAdd) f a b)
  | .vsubInt f => some (laneInt2 (if f.fn.getLsbD 0 then intSubSat else intSub) f a b)
  | .vmulInt f => some (laneInt2 intMul f a b)
  | .vmulh f => some (laneInt2 intMulh f a b)
  | .vmad f => some (laneMad f a b c)
  | .vdivInt f => some (laneInt2 intDiv f a b)
  | .vrem f => some (laneInt2 intRem f a b)
  | .vabsInt f => some (laneInt1 intAbs f a)
  | .vnegInt f => some (laneInt1 (fun _ w x => intNeg w x) f a)
  | .vminInt f => some (laneInt2 intMinOp f a b)
  | .vmaxInt f => some (laneInt2 intMaxOp f a b)
  | .vand f => some (laneInt2 intAnd f a b)
  | .vor f => some (laneInt2 intOr f a b)
  | .vxor f => some (laneInt2 intXor f a b)
  | .vnot f => some (laneInt1 (fun _ w x => intNot w x) f a)
  | .vshl f => some (laneInt2 intShl f a b)
  | .vshr f => some (laneInt2 intShr f a b)
  | .vsra f => some (laneInt2 intSra f a b)
  | .vrot f => some (laneInt2 intRot f a b)
  | .vclz f => some (laneInt1 (fun _ w x => intClz w x) f a)
  | .vpopc f => some (laneInt1 (fun _ w x => intPopc w x) f a)
  | .vmov f => some (laneInt1 (fun _ _ x => x) f a)
  | .vbfx f => some (laneBfx f a b c)
  | .vdp4 f => some (laneDp4 f a b c)
  | .vaddFloat f => some (laneF2 (fun m => m.arith 0 e.mode e.slot.ftz e.slot.sat) f a b)
  | .vsubFloat f => some (laneF2 (fun m => m.arith 1 e.mode e.slot.ftz e.slot.sat) f a b)
  | .vmulFloat f => some (laneF2 (fun m => m.arith 2 e.mode e.slot.ftz e.slot.sat) f a b)
  | .vdivFloat f => some (laneF2 (fun m => m.arith 3 e.mode e.slot.ftz e.slot.sat) f a b)
  | .vfma f => some (laneF3 (fun m => m.fma false false e.mode e.slot.ftz e.slot.sat) f a b c)
  | .vfms f => some (laneF3 (fun m => m.fma false true e.mode e.slot.ftz e.slot.sat) f a b c)
  | .vfnma f => some (laneF3 (fun m => m.fma true false e.mode e.slot.ftz e.slot.sat) f a b c)
  | .vsqrt f => some (laneF1 (unaryF XVal.sqrt e) f a)
  | .vrsqrt f => some (laneF1 (unaryF XVal.rsqrt e) f a)
  | .vrcp f => some (laneF1 (unaryF XVal.rcp e) f a)
  | .vexp2 f => some (laneF1 (enclosedF XVal.exp2 e) f a)
  | .vlog2 f => some (laneF1 (enclosedF XVal.log2 e) f a)
  | .vminFloat f => some (laneF2 (fun m => m.minmax false e.slot.ftz) f a b)
  | .vmaxFloat f => some (laneF2 (fun m => m.minmax true e.slot.ftz) f a b)
  | .vabsFloat f => some (laneF1 (fun m => m.abs e.slot.ftz) f a)
  | .vnegFloat f => some (laneF1 (fun m => m.neg e.slot.ftz) f a)
  | .vrint f => some (laneF1 (fun m => m.rint e.mode e.slot.ftz e.slot.sat) f a)
  | .vclass f => some (laneF1 (fun m => m.classOf) f a)
  | .vscale f => some (laneF2 (scaleF e) f a b)
  | .vlse f => some (laneF2 (lseF e) f a b)
  | .vcvt f => some (laneCvt f e 0 a)
  | _ => none

end Sys2Proof.Machine
end

