-- ==== Sys2Proof/Machine/Ops.lean ====
section
/-! DEFINITION. The named operations over the state: places and numbers of the wafer, reads and writes of cores, gangs and
clusters, the completion queue, and taking a trap. -/

namespace Sys2Proof.Machine

/-! ## Places (R13 to R15, R41) -/

def nCores : Nat := 12288
/-- The handler gang's slot number in the model. -/
def handlerSlot : Nat := 15
def clusterOf (c : Nat) : Nat := c / 1024 * 16 + c % 128 / 8
def fieldOf (c : Nat) : Nat := c / 2048 * 8 + c % 128 / 16
def regionOf (k : Nat) : Nat := k / 2
def fieldOfCluster (k : Nat) : Nat := k / 32 * 8 + k % 16 / 2
/-- The 64 cores of a cluster, ascending. -/
def clusterCores (k : Nat) : List Nat :=
  (List.range 8).flatMap fun y => (List.range 8).map fun x => (k / 16 * 8 + y) * 128 + k % 16 * 8 + x
def regionClusters (r : Nat) : List Nat := [2 * r, 2 * r + 1]
def regionCores (r : Nat) : List Nat := (regionClusters r).flatMap clusterCores
def fieldClusters (f : Nat) : List Nat :=
  let b := f / 8 * 32 + f % 8 * 2
  [b, b + 1, b + 16, b + 17]
/-- Region that supplies a physical core (R15). -/
def regionOfPhys (p : Nat) : Nat := p / 144 / 8 * 8 + p % 144 / 18
/-- Directions of a router's ports: 0 north, 1 south, 2 east, 3 west. -/
def neighbour (p dir : Nat) : Option Nat :=
  let x := p % 144
  let y := p / 144
  match dir with
  | 0 => if y = 0 then none else some (p - 144)
  | 1 => if y = 95 then none else some (p + 144)
  | 2 => if x = 143 then none else some (p + 1)
  | 3 => if x = 0 then none else some (p - 1)
  | _ => none

def busOf (pa : Nat) : Nat := pa / 256 % 16

/-! ## Reads and writes of the parts of the state -/

def State.core (s : State) (c : Nat) : CoreSt := s.cores.get {} c
def State.setCore (s : State) (c : Nat) (x : CoreSt) : State := { s with cores := s.cores.put c x }
def State.modCore (s : State) (c : Nat) (f : CoreSt → CoreSt) : State := s.setCore c (f (s.core c))

def State.gang (s : State) (c g : Nat) : Gang := (s.core c).gangs.get {} g
def State.setGang (s : State) (c g : Nat) (x : Gang) : State :=
  s.modCore c fun k => { k with gangs := k.gangs.put g x }
def State.modGang (s : State) (c g : Nat) (f : Gang → Gang) : State := s.setGang c g (f (s.gang c g))

def State.cluster (s : State) (k : Nat) : Cluster := s.clusters.get {} k
def State.setCluster (s : State) (k : Nat) (x : Cluster) : State := { s with clusters := s.clusters.put k x }
def State.modCluster (s : State) (k : Nat) (f : Cluster → Cluster) : State := s.setCluster k (f (s.cluster k))

def State.region (s : State) (r : Nat) : Region := s.regions.get {} r
def State.setRegion (s : State) (r : Nat) (x : Region) : State := { s with regions := s.regions.put r x }
def State.modRegion (s : State) (r : Nat) (f : Region → Region) : State := s.setRegion r (f (s.region r))

def State.walker (s : State) (w : Nat) : Walker := s.walkers.get {} w
def State.setWalker (s : State) (w : Nat) (x : Walker) : State := { s with walkers := s.walkers.put w x }

def State.hub (s : State) (h : Nat) : Hub := s.hubs.get {} h
def State.setHub (s : State) (h : Nat) (x : Hub) : State := { s with hubs := s.hubs.put h x }

def State.launch (s : State) (l : Nat) : Launch := s.launches.get {} l
def State.setLaunch (s : State) (l : Nat) (x : Launch) : State := { s with launches := s.launches.put l x }

def State.block (s : State) (b : Nat) : Block := s.blocks.get {} b
def State.setBlock (s : State) (b : Nat) (x : Block) : State := { s with blocks := s.blocks.put b x }
def State.modBlock (s : State) (b : Nat) (f : Block → Block) : State := s.setBlock b (f (s.block b))

/-- Records that a queue holds: 16 on chip and 16,368 in its ring. -/
def recCap : Nat := 16384

/-- Has a core's queue of a priority room for `n` records? -/
def State.recRoom (s : State) (c p n : Nat) : Bool := ((s.core c).recQ.get [] p).length + n ≤ recCap

/-- The gang under way. -/
def State.me (s : State) : Gang := s.gang s.focus.core s.focus.slot
def State.setMe (s : State) (g : Gang) : State := s.setGang s.focus.core s.focus.slot g
def State.modMe (s : State) (f : Gang → Gang) : State := s.setMe (f s.me)
def State.myCore (s : State) : CoreSt := s.core s.focus.core
def State.myCluster (s : State) : Nat := clusterOf s.focus.core

def Gang.lane (g : Gang) (j : Nat) : LaneSt := g.lanes.get {} j
def Gang.setLane (g : Gang) (j : Nat) (x : LaneSt) : Gang := { g with lanes := g.lanes.put j x }
def Gang.isHandler (g : Gang) : Bool := g.kind == .handler
def Gang.sreg (g : Gang) (n : Nat) : DWord := if n = 0 then 0 else g.s.get 0 n
def Gang.mreg (g : Gang) (n : Nat) : Mask := g.m.get 0 n
def Gang.vreg (g : Gang) (r j : Nat) : Word := g.v.get 0 (64 * r + j)
def Gang.ctx (g : Gang) (n : Nat) : ECtx := g.ctxs.get {} n
def Gang.setCtx (g : Gang) (n : Nat) (x : ECtx) : Gang := { g with ctxs := g.ctxs.put n x }
def Gang.win (g : Gang) (n : Nat) : Win := g.wins.get {} n
def Gang.recipe (g : Gang) (n : Nat) : Recipe := g.rcp.get {} n
def Gang.lfsOf (g : Gang) (j : Nat) : Word := g.lfs.get 0 j
/-- Registers per lane: 8·OCTS, 64 of the handler (R119, R274). -/
def Gang.nregs (g : Gang) : Nat := if g.isHandler then 64 else 8 * g.seat.octs
def Gang.gw (g : Gang) : Nat := if g.isHandler then 16 else g.seat.gw
/-- The bits below GW. -/
def Gang.gwMask (g : Gang) : Mask := BitVec.ofNat 64 (2 ^ g.gw - 1)

/-- A scalar write; s0 discards it (R122). -/
def Gang.setS (g : Gang) (n : Nat) (v : DWord) : Gang := if n = 0 then g else { g with s := g.s.put n v }
/-- A mask write; bits at and above GW are discarded (R123). -/
def Gang.setM (g : Gang) (n : Nat) (v : Mask) : Gang := { g with m := g.m.put n (v &&& g.gwMask) }

/-- Lanes launched and not exited. -/
def Gang.liveLanes (g : Gang) : Mask :=
  maskOf 64 fun j => (g.mreg 0).getLsbD j && !(g.lane j).exited

/-- A lane that runs (R125). -/
def Gang.running (g : Gang) (j : Nat) : Bool :=
  (g.mreg 0).getLsbD j && !(g.lane j).exited && !(g.lane j).parked && !(g.lane j).susp

/-- Registers a body starts with (R119, R122, R123): everything zero, then m0 and the given scalars. -/
def Gang.fresh (g : Gang) (m0 : Mask) (pc : DWord) (scal : List (Nat × DWord)) : Gang :=
  { g with
    live := true, s := SMap.putAll [] scal, m := [(0, m0)], v := [], rcp := [],
    lanes := (lanesOf m0).map fun j => (j, { pc := pc }),
    parkAt := none, callers := [], callIns := [], parent := 0, trapped := false, replay := [], waits := [],
    ending := false, rowAt := none, rowNeed := 0, rowGrant := 0, rowLanes := 0, posts := 0, stall := none, fences := [] }

/-- Physical tile of a gang's tile (R178). -/
def Seat.tile (x : Seat) (t : Nat) : Nat := x.amTiles.getD t 0

/-- A context is faulted and stopped (R230, R232). -/
def ECtx.stopped (x : ECtx) : Bool := x.cause != 0 && !x.resumed

/-- Seed of LFS (R158). -/
def lfsSeed (i thread : Nat) : Word :=
  let x : Word := BitVec.ofNat 32 (i * 0x01000193 + thread + 1)
  if x = 0 then 1 else x

/-- The handler gang as it stands at phase 3, after a RESTART and after a monitor restart: idle, LFS seeded (R158). -/
def freshHandler (c : Nat) : Gang :=
  { kind := .handler, lfs := SMap.putAll [] ((List.range 16).map fun j => (j, lfsSeed 0 (c * 16 + j))) }

/-! ## Tables and homes (R19 to R28) -/

/-- The last update of `core` in a list of accepted updates. -/
def lastUpd (core : Nat) (l : List (Nat × Word)) : Option Word :=
  (l.reverse.find? fun p => p.1 == core).map (·.2)

/-- The router table entry of a logical core as the routers of cluster `k` hold it (R27). -/
def State.tableAt (s : State) (k core : Nat) : Word :=
  (lastUpd core (s.upds.take (s.cluster k).epoch)).getD (s.tbl.get 0 core)

/-- The entry with every accepted update applied. -/
def State.tableNow (s : State) (core : Nat) : Word := (lastUpd core s.upds).getD (s.tbl.get 0 core)

def entryV (w : Word) : Bool := w.getLsbD 23
def entryRet (w : Word) : Bool := w.getLsbD 24
/-- Physical core number of an entry (R13, R20). -/
def entryPhys (w : Word) : Nat := bits w.toNat 8 7 * 144 + bits w.toNat 15 8

/-- The physical core that stands for a logical core, as its own cluster's routers have it (R23, R27). -/
def State.physOf (s : State) (c : Nat) : Nat := entryPhys (s.tableAt (clusterOf c) c)

/-- Does a physical core stand for `core`, by the table of its own router (R28)? -/
def State.stands (s : State) (p core : Nat) : Bool :=
  entryV (s.tableAt (clusterOf core) core) && !entryRet (s.tableAt (clusterOf core) core) && s.physOf core == p

/-- The cluster with which a router applies updates: that of the logical core its physical core stands for; the even one of its region
for a spare (log entry 40). -/
def State.routerCluster (s : State) (p : Nat) : Nat :=
  match (regionCores (regionOfPhys p)).find? fun c => s.stands p c with
  | some c => clusterOf c
  | none => 2 * regionOfPhys p

/-- Phase of bring-up (R87). -/
def State.phase (s : State) : Nat := bits s.mgmt.toNat 2 2

/-- A table whose routers route: no entry with V = 0 and RET = 0 (R20). Phase 2 requires every loaded entry valid (R88), so from then on only
updated entries can break it. -/
def State.tableRoutes (s : State) (k : Nat) : Bool :=
  (2 ≤ s.phase || (List.range nCores).all fun c => entryV (s.tableAt k c) || entryRet (s.tableAt k c)) &&
    (s.upds.take (s.cluster k).epoch).all fun p => entryV (s.tableAt k p.1) || entryRet (s.tableAt k p.1)

/-- Do the routers of every cluster route? -/
def State.allRoute (s : State) : Bool :=
  s.upds.all (fun p => entryV p.2 || entryRet p.2) || (List.range 192).all s.tableRoutes

/-- A router reads an entry: a single-bit error is corrected, written back and counted (R25). -/
def State.readEntry (s : State) (router entry : Nat) : State :=
  if s.softEntries.contains (router, entry) then
    { s with
      softEntries := s.softEntries.filter (· != (router, entry))
      eccFixed := s.eccFixed.put router (s.eccFixed.get 0 router + 1) }
  else s

/-- A bit of an entry flips (R25, R26): a second flipped bit makes the entry uncorrectable. -/
def State.strike (s : State) (router entry : Nat) : State :=
  if 13824 ≤ router ∨ nCores ≤ entry ∨ s.badEntries.contains (router, entry) then s
  else if s.softEntries.contains (router, entry) then
    { s with softEntries := s.softEntries.filter (· != (router, entry)), badEntries := s.badEntries ++ [(router, entry)] }
  else { s with softEntries := s.softEntries ++ [(router, entry)] }

/-- Routers of a region forward while it is ON, and in RESTART once their tables are loaded (R54). -/
def State.forwards (s : State) (r : Nat) : Bool :=
  (s.region r).st == .on || ((s.region r).st == .restart && (s.region r).tablesIn)

/-- Does a link carry flits (R40, R57)? -/
def State.linkUp (s : State) (router dir : Nat) : Bool :=
  match neighbour router dir with
  | none => false
  | some q => !s.linksDown.contains (router, dir) && s.forwards (regionOfPhys router) && s.forwards (regionOfPhys q)

/-- The output port toward `q` in XY order, or with `yx` in YX order (R35). -/
def portToward (yx : Bool) (p q : Nat) : Nat :=
  let ew := if p % 144 < q % 144 then 2 else 3
  let ns := if p / 144 < q / 144 then 1 else 0
  if yx then (if p / 144 = q / 144 then ew else ns) else if p % 144 = q % 144 then ns else ew

/-- The physical cores one hop nearer to `q` from `p` that west-first order allows over links that carry flits (R35). -/
def State.westFirst (s : State) (p q : Nat) : List Nat :=
  let dirs := if q % 144 < p % 144 then [3]
    else (if p % 144 < q % 144 then [2] else []) ++ (if p / 144 < q / 144 then [1] else if q / 144 < p / 144 then [0] else [])
  (dirs.filter (s.linkUp p)).filterMap (neighbour p)

/-- Does some way in west-first order lead to `q` from one of the physical cores? -/
def State.westUp (s : State) (q : Nat) : Nat → List Nat → Bool
  | 0, l => l.contains q
  | n + 1, l => l.contains q || (!l.isEmpty && State.westUp s q n (l.flatMap fun p => s.westFirst p q).dedup)

/-- Does every link from `p` to `q` in an order carry flits? -/
def State.pathUp (s : State) (yx : Bool) : Nat → Nat → Nat → Bool
  | 0, _, _ => false
  | n + 1, p, q =>
    p == q || (s.linkUp p (portToward yx p q) &&
      match neighbour p (portToward yx p q) with
      | some r => State.pathUp s yx n r q
      | none => false)

/-- Does an access from one physical core to another, and its answer, arrive by its class's order or by the fallback order (R35, R40)? Of XY
and YX each is the other's fallback, and the way back is the same; west-first falls back on YX. -/
def State.wayUp (s : State) (p q : Nat) (order : Nat := 0) : Bool :=
  s.pathUp true 240 p q || (if order = 2 then s.westUp q 240 [p] && s.westUp p 240 [q] else s.pathUp false 240 p q)

/-- How a packet to a logical core ends when cluster `k` injects it (R20, R28, R40). -/
inductive Route where
  | to (phys : Nat)
  | retired
  | unreachable
  deriving DecidableEq, Repr

/-- Where cluster `k`'s routers send a packet for a logical core, by their own table (R19, R20). -/
def State.sends (s : State) (k core : Nat) : Route :=
  let e := s.tableAt k core
  if entryRet e then .retired else if !entryV e || !s.tableRoutes k then .unreachable else .to (entryPhys e)

/-- The physical core that answers for `core`: looked up in cluster `k`'s table; refused there, looked up once more in
the updated table, which is then the one that the core's own cluster has (R28). An entry with V = 0 and RET = 0 routes nothing: the
access ends as unreachable (log entry 40). -/
def State.route (s : State) (k core : Nat) : Route :=
  let e := s.tableAt k core
  let n := s.tableAt (clusterOf core) core
  if entryRet e then .retired
  else if !entryV e || !s.tableRoutes k then .unreachable
  else
    let p := entryPhys e
    if entryV n && entryPhys n == p then (if s.forwards (regionOfPhys p) then .to p else .unreachable)
    else if entryRet n then .retired
    else if !entryV n then .unreachable
    else if s.forwards (regionOfPhys (entryPhys n)) then .to (entryPhys n) else .unreachable

/-- Are accesses to a home held while its slice is copied (R295)? -/
def State.homeHeld (s : State) (core : Nat) : Bool := (s.slHeld.map fun h => h.1 == core).getD false

/-- Does a packet of core `c` to a logical core reach its home without waiting: the entry of `c`'s router is good (R26), the home's
routers have applied the same updates of it (R27, R28), no router on the way stands still for its table (R20), and its slice is not being
copied (R295)? -/
def State.homeOpen (s : State) (c core : Nat) : Bool :=
  !s.badEntries.contains (s.physOf c, core) && s.tableAt (clusterOf c) core == s.tableAt (clusterOf core) core && s.allRoute && !s.homeHeld core

/-- Byte `off` of the DRAM slice of a physical core, as a key of `dram` (R165, R24). -/
def dramKey (phys off : Nat) : Nat := phys * 2 ^ 27 + off % 2 ^ 27

/-- The home of a physical address for host accesses (R78): the core that stands for it, whose routers route (R20). -/
def State.hostKey (s : State) (pa : Nat) : Option Nat :=
  let c := pa / 2 ^ 27
  if c < nCores && entryV (s.tableAt (clusterOf c) c) && s.tableRoutes (clusterOf c) then some (dramKey (s.physOf c) pa) else none

/-! ## Time -/

/-- Wafer time as a cluster reports it (R50). -/
def State.timeAt (s : State) (k : Nat) : Nat := (s.cluster k).frames

/-- Core cycles of a cluster since bring-up (R457). -/
def State.cycles (s : State) (k : Nat) : Nat := (s.cluster k).cyc / 10

/-! ## Black boxes (R298) -/

/-- Records an event in a field's black box. -/
def State.bboxEvent (s : State) (field kind source : Nat) (data : Nat) : State :=
  let b := s.bbox.get {} field
  let ev : BitVec 128 := BitVec.ofNat 48 s.now ++ BitVec.ofNat 8 kind ++ BitVec.ofNat 16 source ++ BitVec.ofNat 56 data
  { s with bbox := s.bbox.put field { slots := b.slots.put (b.cnt % 4096) ev, cnt := b.cnt + 1 } }

/-- An event whose source and data the spec does not state: free values (log entry 23). -/
def State.bboxOpen (s : State) (field kind : Nat) : State :=
  { s with freeCtr := s.freeCtr + 2 }.bboxEvent field kind (Config.freeValue s.freeCtr).toNat (Config.freeValue (s.freeCtr + 1)).toNat

/-! ## The completion queue (R84 to R86) -/

def kindGraphDone : BitVec 8 := 1
def kindGraphFault : BitVec 8 := 2
def kindStartRefused : BitVec 8 := 3
def kindSignal : BitVec 8 := 4
def kindRegion : BitVec 8 := 5
def kindThermal : BitVec 8 := 6
def kindMachineCheck : BitVec 8 := 7
def kindLink : BitVec 8 := 8
def kindMonitor : BitVec 8 := 9

def CqEntry.bits (e : CqEntry) : BitVec 128 :=
  e.payload ++ e.tag ++ e.src ++ (0 : BitVec 8) ++ e.cause ++ (0 : BitVec 8) ++ e.kind
/-- The privileged kinds (R85). -/
def CqEntry.privileged (e : CqEntry) : Bool := 5 ≤ e.kind.toNat && e.kind.toNat ≤ 8

def State.cqFree (s : State) : Nat := 4095 - (s.cqTail + 4096 - s.cqHead) % 4096

/-- Sets a flag of MGMT_STAT. -/
def State.flag (s : State) (b : Nat) : State := { s with mgmt := s.mgmt ||| (1 <<< b) }

/-- Writes an entry at CQ_TAIL and advances it; an interrupt when the queue was empty (R84, R86). A GRAPH_FAULT entry's
place is kept for its walker (R83). -/
def State.cqWrite (s : State) (e : CqEntry) : State :=
  let at_ := s.cqTail
  let s := { s with
    cq := s.cq.put at_ e.bits, cqTail := (at_ + 1) % 4096,
    irqs := if s.cqTail = s.cqHead then s.irqs + 1 else s.irqs }
  if e.kind = kindGraphFault then
    s.setWalker e.src.toNat { s.walker e.src.toNat with faultAt := some at_ }
  else s

/-- Counts a message into a waiting one of the same kind, source and cause (R85): the oldest, where several are (log entry 39). -/
def mergeInto (e : CqEntry) : List CqEntry → Option (List CqEntry)
  | [] => none
  | f :: l =>
    if f.kind = e.kind ∧ f.src = e.src ∧ f.cause = e.cause then
      let n := min 0xffff (bits f.payload.toNat 48 16 + 1)
      some ({ f with payload := BitVec.ofNat 16 n ++ e.payload.extractLsb' 0 48 } :: l)
    else (mergeInto e l).map (f :: ·)

/-- Sends a message to the host (R85). -/
def State.cqPost (s : State) (e : CqEntry) : State :=
  if e.privileged then
    if s.cqOver.isEmpty && 0 < s.cqFree then s.cqWrite e
    else
      let s := { s.flag 10 with irqs := s.irqs + 1 }
      if s.cqOver.length < 1024 then { s with cqOver := s.cqOver ++ [e] }
      else
        match mergeInto e s.cqOver with
        | some l => { s with cqOver := l }
        | none =>
          match mergeInto e s.cqHeld with
          | some l => { s with cqHeld := l }
          | none => { s with cqHeld := s.cqHeld ++ [e] }
  else if s.cqWait.isEmpty && s.cqOver.isEmpty && 64 < s.cqFree then s.cqWrite e
  else { s with cqWait := s.cqWait ++ [e] }

/-- Moves waiting messages into the queue while entries are free, privileged ones first (R85). -/
def State.cqDrain : Nat → State → State
  | 0, s => s
  | n + 1, s =>
    match s.cqOver, s.cqHeld, s.cqWait with
    | e :: l, h, _ =>
      if 0 < s.cqFree then
        State.cqDrain n ({ s with cqOver := l ++ h.take 1, cqHeld := h.drop 1 }.cqWrite e)
      else s
    | [], e :: l, _ => State.cqDrain n { s with cqOver := [e], cqHeld := l }
    | [], [], e :: l =>
      if 64 < s.cqFree then State.cqDrain n ({ s with cqWait := l }.cqWrite e) else s
    | [], [], [] => s

/-- A privileged message: [47:0] of the payload are its contents. -/
def State.message (s : State) (kind : BitVec 8) (src : Nat) (cause : Nat) (payload : Nat) : State :=
  s.cqPost { payload := BitVec.ofNat 64 (payload % 2 ^ 48), tag := 0, src := BitVec.ofNat 16 src, cause := BitVec.ofNat 8 cause, kind }

/-! ## Trap causes (R270) -/

/-- No cause: what cannot be done yet. -/
def cWaits : Nat := 0
def cFetchAlign : Nat := 0x01
def cIllegalOpcode : Nat := 0x02
def cIllegalEncoding : Nat := 0x03
def cIllegalPrefix : Nat := 0x04
def cRegRange : Nat := 0x05
def cLatchLost : Nat := 0x06
def cRecipeBad : Nat := 0x07
def cRecipeFault : Nat := 0x08
def cSlotMismatch : Nat := 0x09
def cMisalign : Nat := 0x10
def cSpadRange : Nat := 0x11
def cAmRange : Nat := 0x12
def cDeckRange : Nat := 0x13
def cKonstRange : Nat := 0x14
def cWinRange : Nat := 0x15
def cTlRange : Nat := 0x16
def cChainFault : Nat := 0x17
def cPageFault : Nat := 0x20
def cPermFault : Nat := 0x21
def cRace : Nat := 0x22
def cTargetRetired : Nat := 0x30
def cMachineCheck : Nat := 0x40
def cBarrierBroken : Nat := 0x41
def cBarrierOverrun : Nat := 0x42
def cEngineFault : Nat := 0x43
def cJoinUnderflow : Nat := 0x44
def cWatch : Nat := 0x45

/-- The pipeline stage of a cause (R270). -/
def stageOf (code : Nat) : Nat :=
  if code < 0x10 then 1 else if code < 0x20 then 2 else if code < 0x30 then 3 else if code < 0x40 then 4 else 5

/-- Causes with their lanes, in stage then code order; codes rise with the stage. -/
abbrev Causes := List (Nat × Mask)

/-- Enters a cause in some lanes; nothing for no lane. -/
def Causes.add (code : Nat) (m : Mask) : Causes → Causes
  | [] => if m = 0 then [] else [(code, m)]
  | (k, n) :: l =>
    if m = 0 then (k, n) :: l
    else if code < k then (code, m) :: (k, n) :: l
    else if code = k then (k, n ||| m) :: l
    else (k, n) :: Causes.add code m l

def Causes.addIf (c : Bool) (code : Nat) (m : Mask) (l : Causes) : Causes := if c then l.add code m else l

/-- Both lists of causes together. -/
def Causes.merge (a b : Causes) : Causes := b.foldl (fun l p => Causes.add p.1 p.2 l) a

/-- The lanes that hold a cause. -/
def Causes.lanes (l : Causes) : Mask := l.foldl (fun m p => m ||| p.2) 0

/-! ## Taking a trap (R272 to R281) -/

/-- Ends the hold of a gang on its issue slot (R135, R137). -/
def State.endHold (s : State) (c g : Nat) : State :=
  s.modCore c fun k =>
    match k.holds.get none (g % 4) with
    | some h => if h.slot = g then { k with holds := k.holds.put (g % 4) none } else k
    | none => k

/-- A MACHINE_CHECK entry of a core (R280). -/
def State.coreCheck (s : State) (c cause : Nat) : State :=
  let s := s.message kindMachineCheck (clusterOf c) cause c
  s.bboxEvent (fieldOf c) 3 c cause

/-- The code that a list of causes reports: its lowest. -/
def firstCode (l : Causes) : Nat := (l.head?.map (·.1)).getD 0

/-- The first lane of the reported cause: the lowest faulting lane (R277). -/
def Causes.reportedLane (l : Causes) : Nat := ((l.head?.bind fun p => (lanesOf p.2).head?)).getD 0

/-- Each lane keeps its lowest cause, that of the first check it fails (R271). -/
def Causes.least (a b : Causes) : Causes :=
  ((Causes.merge a b).foldl (fun (acc : Causes × Mask) p => (acc.1.add p.1 (p.2 &&& ~~~acc.2), acc.2 ||| p.2)) ([], 0)).1

/-- Lanes of one instruction that fail one after another share an entry, whose CAUSE is their lowest (R271, R273). -/
def Replay.join (q e : Replay) (causes : Causes) : Replay :=
  { q with mask := q.mask ||| e.mask, vals := q.vals.putAll e.vals, cause := BitVec.ofNat 8 (firstCode causes) }

/-- An entry joins those of the same gang in the order of issue (R278). -/
def joinEntry (e : Replay) (c : Causes) : List (Replay × Causes) → List (Replay × Causes)
  | [] => [(e, c)]
  | (q, d) :: l =>
    if q.seq = e.seq then (q.join e (Causes.merge d c), Causes.merge d c) :: l
    else if e.seq < q.seq then (e, c) :: (q, d) :: l
    else (q, d) :: joinEntry e c l

/-- A queued trap of the same gang takes in a further one: the earliest instruction is the reported one (R278). -/
def TrapRec.join (t u : TrapRec) : TrapRec :=
  if u.entry.seq < t.entry.seq then { u with raised := t.raised, lats := t.lats, more := (t.entry, t.causes) :: t.more }
  else if u.entry.seq = t.entry.seq then
    let causes := Causes.merge t.causes u.causes
    let first := decide (firstCode u.causes < firstCode t.causes) ||
      (firstCode u.causes == firstCode t.causes && decide (Causes.reportedLane u.causes < Causes.reportedLane t.causes))
    { t with
      causes, entry := t.entry.join u.entry causes
      inner := if first then u.inner else t.inner
      va := if first then u.va else t.va }
  else { t with more := joinEntry u.entry u.causes t.more }

/-- TAKING A TRAP. The gang stops and its trap joins the core's queue, where the handler finds it (R274); `HANDLER_ENTRY`
writes its frame and starts the handler. A trap of the handler itself stops the handler and tells the host (R280). A machine check is an
event of the field's black box, whose source and data the spec does not state (R298; log entry 23). -/
def State.takeTrap (s : State) (c : Nat) (t : TrapRec) : State :=
  if t.slot = handlerSlot then
    let s := s.modCore c fun k => { k with hStopped := true }
    s.coreCheck c (firstCode t.causes)
  else
    let s := s.endHold c t.slot
    let t := { t with lats := (s.core c).latches.get {} (t.slot % 4) }
    let queued := (s.core c).work.any fun w => match w with
      | .trap u => u.slot == t.slot && !u.ended && !t.ended
      | .doorbell _ => false
    let s := s.modCore c fun k =>
      { k with
        work :=
          if queued then
            k.work.map fun w => match w with
              | .trap u => if u.slot == t.slot && !u.ended then .trap (u.join t) else w
              | w => w
          else k.work ++ [.trap t] }
    let s := if t.causes.any fun q => q.1 == cMachineCheck then s.bboxOpen (fieldOf c) 3 else s
    s.modGang c t.slot fun g => { g with trapped := true, waits := g.waits.filter fun w => w.pc != t.entry.pc || (w.lanes ||| w.ex) &&& t.entry.mask == 0 }

/-- A trap that arises after a gang's body has ended (R471). -/
def State.takeEndTrap (s : State) (c g code : Nat) (va : DWord) : State :=
  let x := s.gang c g
  let s := s.takeTrap c
    { slot := g, causes := [(code, x.mreg 0)], va, raised := s.timeAt (clusterOf c), ended := true,
      entry := { base := x.endBase, pfx := 0, pc := x.endPc, mask := 0, group := 0, cause := BitVec.ofNat 8 code, cap := 0, vals := [] } }
  s.modGang c g fun x => { x with live := true, ending := true }

/-- A resident slot that runs no body, its traps served and its posts answered (R107). -/
def Gang.idle (g : Gang) : Bool := g.seat.used && !g.live && !g.trapped && g.posts == 0 && g.saveStop.isNone

/-- Each callee queue of a core that holds items while no slot of its head's launch is idle counts the time of it (R112). -/
def State.markCalls (s : State) (c : Nat) : State :=
  let k := s.core c
  if k.calleeQ.all fun q => q.2.isEmpty then (if k.calleeAt.isEmpty then s else s.setCore c { k with calleeAt := [] })
  else
    let waits (q : Nat) : Bool := match k.calleeQ.get [] q with
      | [] => false
      | h :: _ => !((List.range 15).any fun g => (k.gangs.get {} g).idle && (k.gangs.get {} g).seat.ltag == h.ltag)
    s.setCore c { k with calleeAt := SMap.putAll [] (((List.range 16).filter waits).map fun q => (q, some ((k.calleeAt.get none q).getD s.now))) }

/-- A gang whose body has ended goes idle (R107) once its join is made, its posts are answered and its traps are served; each
context that has faulted first raises ENGINE_FAULT (R109, R471). -/
def State.tryIdle (s : State) (c g : Nat) : State :=
  let x := s.gang c g
  if !x.ending || x.parent != 0 || x.posts != 0 || x.trapped then s
  else
    match (List.range 8).find? fun n => (x.ctx n).stopped && !x.endFaults.contains n with
    | some n => (s.setGang c g { x with endFaults := n :: x.endFaults }).takeEndTrap c g cEngineFault 0
    | none => (s.setGang c g { x with live := false, ending := false }).markCalls c

end Sys2Proof.Machine
end

