-- ==== Sys2Proof/Machine/Bus.lean ====
section
/-! DEFINITION. Injecting packets into the mesh (R19, R25, R26, R34 to R38), and the photonic plane's transmitters: binding tables, messages and beacons on the buses, and what the clusters report
(R41 to R45, R48, R49, R52, R53, R200, R303). -/

namespace Sys2Proof.Machine

/-! ## Packets (R34 to R38) -/

/-- Order, plane and priority level of a routing class; a level is one above the class's PRIO, and 0 for class 7 (R35, R36). The handler
gang belongs to no launch: its classes are an entry's reset value (log entry 44). -/
def Launch.route (l : Launch) (rc addr : Nat) : Nat × Nat × Nat :=
  if rc = 7 then (0, 0, 0)
  else
    let e := (l.rct[rc]?.getD 1).toNat
    let plane := bits e 2 2
    (bits e 4 2, if plane = 3 then (if addr.testBit 8 then 2 else 1) else plane, bits e 0 2 + 1)

/-- Injects a packet at a core's router, which looks its destination up in its own table (R19, R25): an uncorrectable entry holds it
(R26). YX packets travel on channel 1, others on 0 (R38). -/
def State.inject (s : State) (src dst : Nat) (l : Launch) (rc addr : Nat) (body : PktBody) : State :=
  let (order, plane, prio) := l.route rc addr
  let from_ := s.physOf src
  let e := s.tableAt (clusterOf src) dst
  let held := s.badEntries.contains (from_, dst)
  let s := s.readEntry from_ dst
  { s with
    nextId := s.nextId + 1
    packets := s.packets ++ [{ id := s.nextId, src, dst, srcPhys := from_, dstPhys := entryPhys e, at_ := from_
                               epoch := (s.cluster (clusterOf src)).epoch, rc, clsOrder := order, order, plane
                               vc := if order = 1 then 1 else 0, prio, since := s.now, portAt := s.now, held, body }] }

/-- The core whose router a cluster's transmitter and its L2 use: the first of the cluster, beside which they are taken to lie (log entry 41). -/
def transmitter (k : Nat) : Nat := (clusterCores k).headD 0

/-- A response on its way from core `q` to core `c`: it travels back as an answer would (R33), on class 0 of no launch (log entry 41). -/
def State.respond (s : State) (q c : Nat) (body : PktBody) : State :=
  { s with
    nextId := s.nextId + 1
    packets := s.packets ++ [{ id := s.nextId, src := c, dst := q, srcPhys := s.physOf c, dstPhys := s.physOf q, at_ := s.physOf q
                               order := 0, plane := 0, vc := 0, prio := 2, ret := true, since := s.now, portAt := s.now, body }] }

/-! ## Binding tables (R42, R52) -/

/-- The group a list of group-bind writes binds a cluster to on a bus; its own number where none does. -/
def boundTo (l : List (Nat × Nat)) (bus k : Nat) : Nat :=
  ((l.reverse.find? fun p => p.1 == bus * 192 + k).map (·.2)).getD k

/-- The group that cluster `w` is bound to on a bus, as cluster `k` has it. -/
def State.bindAt (s : State) (k bus w : Nat) : Nat := boundTo (s.binds.take (s.cluster k).bindEpoch) bus w

/-- The group on which a cluster transmits on a bus. -/
def State.groupOf (s : State) (bus k : Nat) : Nat := s.bindAt k bus k

/-- The group that the newest accepted group-bind write gives a cluster. -/
def State.groupNow (s : State) (bus k : Nat) : Nat := boundTo s.binds bus k

/-! ## Messages (R43 to R45) -/

def Msg.sb? (m : Msg) : Option (Snoop × Nat) :=
  match m.body with
  | .snoop k sb _ => some (k, sb)
  | .store _ _ => none

/-- First frame of a message. -/
def Msg.start (m : Msg) : Nat := m.done + 1 - m.frames

/-- A message comes before another in the bus order (R44). -/
def Msg.before (a b : Msg) : Bool := a.done < b.done || (a.done == b.done && a.group < b.group)

/-- Sends a message of `frames` frames from core `core` on cluster `k`'s group of a bus: messages on a group never interleave
(R43). Answers its number. -/
def State.sendMsg (s : State) (bus k core frames : Nat) (body : MsgBody) (ltag : Half := 0) : State × Nat :=
  let at_ := bus * 192 + k
  let done := max (s.now + 1) (s.txFree.get 0 at_) + frames - 1
  let m : Msg := { id := s.nextId, bus, writer := k, core, group := s.groupOf bus k, seq := s.msgSeq.get 0 at_, frames, done, body, ltag }
  ({ s with
     nextId := s.nextId + 1
     msgs := s.msgs ++ [m]
     msgSeq := s.msgSeq.put at_ (s.msgSeq.get 0 at_ + 1)
     txFree := s.txFree.put at_ (done + 1) }, s.nextId)

/-- Messages of a writer on a bus not yet sent whole: its transmitter's queue (R45). -/
def State.txQueue (s : State) (bus k : Nat) : Nat :=
  (s.msgs.filter fun m => m.bus == bus && m.writer == k && s.now < m.done).length

/-- A snoop that its cluster sends and every cluster applies within one step: it takes its number and its frame (R43). -/
def State.countSnoop (s : State) (bus k : Nat) : State :=
  let at_ := bus * 192 + k
  { s with
    msgSeq := s.msgSeq.put at_ (s.msgSeq.get 0 at_ + 1)
    txFree := s.txFree.put at_ (max (s.now + 1) (s.txFree.get 0 at_) + 1) }

/-- The first frame after `now` in which a cluster may send a beacon on a bus: after the message in progress and the beacons before it
(R48). -/
def State.beaconSlot (s : State) (bus k : Nat) : Nat :=
  let busy := (s.msgs.filter fun m => m.bus == bus && m.writer == k && m.start ≤ s.now && s.now < m.done).map fun (m : Msg) => m.done + 1
  let sent := (s.beacons.filter fun b => b.bus == bus && b.writer == k && s.now < b.frame).map fun (b : Beacon) => b.frame + 1
  (busy ++ sent).foldl max (s.now + 1)

/-- A cluster's messages on a bus that have not begun by `now`: they move behind what goes first, `n` frames and `d` numbers on. -/
def State.pushBack (s : State) (bus k n : Nat) (d : Half) (group : Nat) : State :=
  let at_ := bus * 192 + k
  { s with
    msgs := s.msgs.map fun (m : Msg) =>
      if m.bus = bus ∧ m.writer = k ∧ s.now < m.start then { m with done := m.done + n, seq := m.seq + d, group } else m
    msgSeq := s.msgSeq.put at_ (s.msgSeq.get 0 at_ + d)
    txFree := s.txFree.put at_ (max (s.now + 1) (s.txFree.get 0 at_) + n) }

/-- Number of a writer's next message on a bus that has not begun. -/
def State.nextSeq (s : State) (bus k : Nat) : Half :=
  s.msgSeq.get 0 (bus * 192 + k) - BitVec.ofNat 16 (s.msgs.filter fun m => m.bus == bus && m.writer == k && s.now < m.start).length

/-! ## What the clusters have applied (R200) -/

/-- The clusters that a transmitter of cluster `w` counts: of ON regions, and of regions that have left ON until the table update that
retires their cores has been applied there. -/
def State.counted (s : State) (w k : Nat) : Bool :=
  let r := s.region (regionOf k)
  r.st == .on || (r.counted && (clusterCores k).any fun c => !entryRet (s.tableAt w c))

/-- The applied-through frame of a bus at cluster `w`: the least report of the counted clusters. -/
def State.appliedThrough (s : State) (w bus : Nat) : Option Nat :=
  (((List.range 192).filter (s.counted w)).map fun k => (s.cluster k).reports.get 0 bus).min?

def State.msg? (s : State) (id : Nat) : Option Msg := s.msgs.find? (·.id == id)

/-- A message is acknowledged, or gone because it was. -/
def State.msgAcked (s : State) (id : Nat) : Bool :=
  match s.msg? id with
  | some m => m.acked
  | none => true

/-- A cluster has applied a message. -/
def State.msgApplied (s : State) (k : Nat) (m : Msg) : Bool :=
  (m.done ≤ (s.cluster k).appliedTo.get 0 m.bus && !m.lostAt.contains k) || (s.cluster k).applied.contains m.id

/-- Every broadcast store applied at a cluster is acknowledged (R203). -/
def State.bcastClear (s : State) (k : Nat) : Bool :=
  s.msgs.all fun m =>
    match m.body with
    | .store _ _ => m.acked || !s.msgApplied k m
    | .snoop _ _ _ => true

/-- Nothing is under way on a bus: every message is acknowledged and no cluster holds a bus back. A snoop sent now is then the next in
the bus order, and every cluster may apply it in the step that sends it. -/
def State.busQuiet (s : State) (bus : Nat) : Bool :=
  (s.msgs.all fun m => m.bus != bus || m.acked) && s.clusters.all fun p => p.2.holes.all fun h => h.bus != bus

/-- Will every cluster that is counted at `w` apply a snoop sent now in the step that sends it, and say so: it runs, and its own group on the
bus is not dead (R199, R200)? -/
def State.busHeard (s : State) (w bus : Nat) : Bool :=
  s.regions.all fun p => (regionClusters p.1).all fun k =>
    !s.counted w k || ((s.region p.1).st == .on && !s.deadGroups.contains (bus, s.groupOf bus k))

/-! ## Beacons (R48, R49, R303) -/

/-- The bus on which a cluster sends its beacons: the lowest-numbered one where its bound group is live. Where it is live on none, which the
spec does not treat, bus 0 (DESIGN CHOICE, log entry 41). -/
def State.beaconBus (s : State) (k : Nat) : Nat :=
  ((List.range 16).find? fun b => !s.deadGroups.contains (b, s.groupOf b k)).getD 0

/-- A beacon leaves cluster `k`'s transmitter as soon as the message in progress ends; what has not begun goes behind it. -/
def State.launchBeacon (s : State) (k : Nat) (b : Beacon) : State :=
  let bus := s.beaconBus k
  let g := s.groupOf bus k
  let b := { b with frame := s.beaconSlot bus k, id := s.nextId, bus, writer := k, group := g, mseq := s.nextSeq bus k, lostAt := [], copies := [] }
  let s := s.pushBack bus k 1 1 g
  { s with nextId := s.nextId + 1, beacons := s.beacons ++ [b] }

/-- Issues a beacon at cluster `k`. -/
def State.sendBeacon (s : State) (k : Nat) (kind : BeaconKind) : State :=
  { s with beaconSeq := s.beaconSeq + 1 }.launchBeacon k { seq := s.beaconSeq, kind, frame := s.now }

/-- The halt registers after a halt or a resume is issued; the halt in force is the first issued (R303). -/
def State.noteHalt (s : State) (on : Bool) (src core : Nat) : State :=
  if on then
    if s.haltOn then s
    else
      { s with
        haltOn := true
        haltSrc := BitVec.ofNat 2 src
        haltCore := BitVec.ofNat 14 core
        haltTime := BitVec.ofNat 64 s.now }
  else { s with haltOn := false, haltSrc := 0, haltCore := 0, haltTime := 0 }

/-- A halt or resume beacon of a debug trigger, from its own cluster (R48). -/
def State.sendHalt (s : State) (k : Nat) (on : Bool) (src core : Nat) : State :=
  (s.sendBeacon k (.halt on src core)).noteHalt on src core

end Sys2Proof.Machine
end

