-- ==== Sys2Proof/Machine/Mem.lean ====
section
/-! DEFINITION. Memory: page tables and TLBs, coherent memory at the home slices, software-managed and landing lines in the
caches, and the scratchpad (R164 to R192). -/

namespace Sys2Proof.Machine

/-! ## Home slices -/

/-- `n` bytes at a physical address, at the core that stands for its home: those who read have asked before whether the home answers. Of
coherent data every cached copy equals these bytes (R188, R189; log entry 24). -/
def State.homeRead (s : State) (_k pa n : Nat) : Nat := s.dram.readN (dramKey (s.physOf (pa / 2 ^ 27)) pa) n

/-- Writes `n` bytes at a physical address; nothing where no home answers. -/
def State.homeWrite (s : State) (k pa n v : Nat) : State :=
  match s.route k (pa / 2 ^ 27) with
  | .to p => { s with dram := s.dram.writeN (dramKey p pa) n v }
  | _ => s

/-- Writes `n` bytes of coherent data, held in M by the writer's cluster. -/
def State.cohWrite (s : State) (pa n v : Nat) : State := { s with dram := s.dram.writeN (dramKey (s.physOf (pa / 2 ^ 27)) pa) n v }

/-- The logical core of a superblock's home slice, and its cluster. -/
def homeCoreOf (sb : Nat) : Nat := sb * 256 / 2 ^ 27
def homeCluster (sb : Nat) : Nat := clusterOf (homeCoreOf sb)

/-- `n` free bytes. -/
def freeBytes (k n : Nat) : List Byte := (List.range n).map fun i => (Config.freeValue (k + i)).extractLsb' 0 8

/-- The data of a superblock whose only current copy is lost (log entry 24). -/
def State.loseSuperblock (s : State) (sb : Nat) : State :=
  { s with
    homeBits := s.homeBits.put sb 0
    dram := s.dram.writeBytes (dramKey (s.physOf (256 * sb / 2 ^ 27)) (256 * sb)) (freeBytes s.freeCtr 256)
    freeCtr := s.freeCtr + 256 }

/-- The router of a core reads the entry of the home that an access goes to (R25). -/
def State.askHome (s : State) (c pa : Nat) : State := s.readEntry (s.physOf c) (pa / 2 ^ 27)

/-! ## Coherent superblocks: the states the snoops leave (R187 to R189) -/

def State.moesiOf (s : State) (k sb : Nat) : Moesi := (s.cluster k).moesi.get .i sb

/-- The L1 copies of a superblock in the cores of a cluster that `p` holds of are dropped (R187). -/
def State.dropCopies (s : State) (k sb : Nat) (p : Nat → Bool) : State :=
  (clusterCores k).foldl (fun (s : State) c =>
    if p c && (s.core c).coh.contains sb then s.modCore c fun x => { x with coh := x.coh.filter (· != sb) } else s) s

/-- The cores of a cluster whose L1s hold lines of a coherent superblock: what the L2 records of it (R187). -/
def State.holders (s : State) (k sb : Nat) : List Nat := (clusterCores k).filter fun c => (s.core c).coh.contains sb

/-- A superblock takes a state in a cluster; one that is lost leaves the cluster's L1s (R187). -/
def State.setMoesi (s : State) (k sb : Nat) (m : Moesi) : State :=
  let s := if m = .i then s.dropCopies k sb fun _ => true else s
  s.modCluster k fun x => { x with moesi := x.moesi.put sb m }

/-- A holder's state after another cluster's snoop (R188). -/
def Moesi.after (m : Moesi) (k : Snoop) : Moesi :=
  match k, m with
  | .rs, .m => .o
  | .rs, .e => .s
  | .rs, x => x
  | .ev, x => x
  | _, _ => .i

/-- Every other cluster that holds a superblock applies a snoop of cluster `k`. -/
def State.snoopOthers (s : State) (k sb : Nat) (sn : Snoop) : State :=
  ((s.clusters.filter fun p => p.1 != k && s.moesiOf p.1 sb != .i).map (·.1)).foldl
    (fun s q => s.setMoesi q sb ((s.moesiOf q sb).after sn)) s

/-- The snoop that an access to a coherent superblock needs in its cluster's state (R188). -/
def snoopFor (writes : Bool) (st : Moesi) : Option Snoop :=
  match writes, st with
  | false, .i => some .rs
  | false, _ => none
  | true, .i => some .rx
  | true, .s => some .up
  | true, .o => some .up
  | true, _ => none

/-! ## Lines of software-managed and landing data (R184, R185, R191, R192) -/

def Line.byteAt (l : Line) (i : Nat) : Nat := bits l.data.toNat (8 * i) 8

/-- 512-bit mask of the bytes of a 64-bit byte mask. -/
def byteMask (m : DWord) : BitVec 512 :=
  BitVec.ofNat 512 ((List.range 64).foldl (fun a i => if m.getLsbD i then a + 255 * 2 ^ (8 * i) else a) 0)

/-- The bytes of `new` where the mask is set, of `old` elsewhere. -/
def mergeBytes (m : DWord) (old new : BitVec 512) : BitVec 512 :=
  (new &&& byteMask m) ||| (old &&& ~~~(byteMask m))

/-- Byte mask of `n` bytes from byte `i`. -/
def runMask (i n : Nat) : DWord := BitVec.ofNat 64 ((2 ^ n - 1) * 2 ^ i)

def Line.write (l : Line) (i n v : Nat) : Line :=
  { l with
    mask := l.mask ||| runMask i n
    data := mergeBytes (runMask i n) l.data (BitVec.ofNat 512 (v % 2 ^ (8 * n) * 2 ^ (8 * i))) }

def Line.read (l : Line) (i n : Nat) : Nat := bits l.data.toNat (8 * i) (8 * n)

def State.l1Line (s : State) (c la : Nat) : Line := (s.core c).l1.get {} la
def State.setL1 (s : State) (c la : Nat) (l : Line) : State := s.modCore c fun k => { k with l1 := k.l1.put la l }
def State.l2Line (s : State) (k la : Nat) : Line := (s.cluster k).l2.get {} la
def State.setL2 (s : State) (k la : Nat) (l : Line) : State := s.modCluster k fun x => { x with l2 := x.l2.put la l }

/-- Lines of landing copies lie beside the lines of the other pages: bit 35 of the line number marks them, so that another mapping of a
landing area does not meet them (R184). -/
def landKey (pa : Nat) : Nat := 2 ^ 41 + pa

/-- Physical address of a line. -/
def linePa (la : Nat) : Nat := la * 64 % 2 ^ 41

/-- Writes the masked bytes of an L2 line to its home, whose table entry its router reads (R25); the line becomes clean. -/
def State.l2WriteBack (s : State) (k la : Nat) : State :=
  let l := s.l2Line k la
  if l.mask = 0 then s
  else
    let s := s.askHome (transmitter k) (linePa la)
    let old := BitVec.ofNat 512 (s.homeRead k (linePa la) 64)
    (s.homeWrite k (linePa la) 64 (mergeBytes l.mask old l.data).toNat).setL2 k la { l with mask := 0 }

/-- The lines that go with `la` to the next level: its own, and those of the units that a scaled access wrote there (R163). -/
def tied (ties : List (List Nat)) (la : Nat) : List Nat :=
  (List.range ties.length).foldl (fun l _ => (l ++ (ties.filter fun t => t.any l.contains).flatten).dedup) [la]

/-- Writes an L2 line back with the lines of its units. -/
def State.l2WriteUnit (s : State) (k la : Nat) : State :=
  let l := tied (s.cluster k).ties la
  let s := l.foldl (fun s a => s.l2WriteBack k a) s
  if (s.cluster k).ties.isEmpty then s else s.modCluster k fun x => { x with ties := x.ties.filter fun t => !t.any l.contains }

/-- Can a line of an L2, with the lines of its units, be written back now (R19, R26, R295)? -/
def State.backOpen (s : State) (k la : Nat) : Bool :=
  (tied (s.cluster k).ties la).all fun a => (s.l2Line k a).mask == 0 || s.homeOpen (transmitter k) (linePa a / 2 ^ 27)

/-- Superblock tags of a list of lines (R185). -/
def tagsOf (ls : SMap Line) : List Nat := (ls.map fun p => p.1 / 4).dedup

/-- Writes back and drops the lines of a superblock from an L2. -/
def State.l2Evict (s : State) (k sb : Nat) : State :=
  let s := (List.range 4).foldl (fun s i => s.l2WriteUnit k (4 * sb + i)) s
  s.modCluster k fun x => { x with l2 := x.l2.drop (fun la => la / 4 == sb), evicts := x.evicts + 1 }

/-- Tags of a set that hold no locked line, in rising order. -/
def unlockedTags (ls : SMap Line) (sets set : Nat) : List Nat :=
  (tagsOf ls).filter fun sb => sb % sets == set && ls.all fun p => p.1 / 4 != sb || p.2.lock.isEmpty

/-- Coherent superblocks that a cluster holds in a set, beside its other lines' tags (R185). -/
def State.setTags (s : State) (k set : Nat) : List Nat :=
  ((((s.cluster k).moesi.filter fun p => p.2 != .i).map (·.1)) ++ tagsOf (s.cluster k).l2).filter fun t => t % 2048 == set

/-- A coherent superblock leaves an L2: with EV, and its data on its way to the home, where it was held in M, O or E, silently in S (R188,
R189). -/
def State.loseCoherent (s : State) (k sb : Nat) : State :=
  let st := s.moesiOf k sb
  let s := (s.setMoesi k sb .i).modCluster k fun x => { x with evicts := x.evicts + 1 }
  if st = .s ∨ st = .i then s
  else
    let s := (s.sendMsg (sb % 16) k (transmitter k) 1 (.snoop .ev sb 0)).1
    { s.inject (transmitter k) (256 * sb / 2 ^ 27) {} 0 (256 * sb) (.evict sb) with evicting := s.evicting ++ [sb] }

/-- The superblocks of the units that the lines of a superblock belong to: none of them makes room for another (R163). -/
def unitTags (ties : List (List Nat)) (sb : Nat) : List Nat := ((List.range 4).flatMap fun i => (tied ties (4 * sb + i)).map (· / 4)).dedup

/-- Superblocks of an L2 set that an eviction may take now, none of `keep` among them: unlocked lines whose homes take their bytes, and coherent
superblocks that leave silently or whose EV finds room in the transmitter (R45). -/
def State.l2Victims (s : State) (k sb : Nat) (keep : List Nat) : List Nat :=
  let free := (unlockedTags (s.cluster k).l2 2048 (sb % 2048)).filter fun t => (List.range 4).all fun i => s.backOpen k (4 * t + i)
  let coh := (s.setTags k (sb % 2048)).filter fun t =>
    s.moesiOf k t != .i && (s.moesiOf k t == .s || decide (s.txQueue (t % 16) k < 64)) && !(tagsOf (s.cluster k).l2).contains t
  let keep := keep ++ unitTags (s.cluster k).ties sb
  (free ++ coh).filter fun t => !keep.contains t

/-- Has an L2 set room for a superblock, or can it be made (R185, R191)? -/
def State.l2RoomOpen (s : State) (k sb : Nat) : Bool :=
  let here := (s.setTags k (sb % 2048)).dedup
  here.contains sb || decide (here.length < 16) || !(s.l2Victims k sb [sb]).isEmpty

/-- One superblock of a full L2 set goes (R185, R188, R191). -/
def State.l2Shrink (s : State) (k sb : Nat) (keep : List Nat) : State :=
  let all := s.l2Victims k sb (sb :: keep)
  match all[(Config.victim (s.cluster k).evicts) % max 1 all.length]? with
  | some v =>
    let s := if (tagsOf (s.cluster k).l2).contains v then s.l2Evict k v else s
    if s.moesiOf k v = .i then s else s.loseCoherent k v
  | none => s

/-- Makes room for a superblock in a full L2 set by an eviction, which takes none of `keep`. -/
def State.l2Room (s : State) (k sb : Nat) (keep : List Nat := []) : State :=
  let here := (s.setTags k (sb % 2048)).dedup
  if here.contains sb || here.length < 16 then s else s.l2Shrink k sb keep

/-- A set that has taken in a coherent superblock beyond its ways loses another. -/
def State.evictCoherent (s : State) (k sb : Nat) : State :=
  if (s.setTags k (sb % 2048)).dedup.length ≤ 16 then s else s.l2Shrink k sb []

/-- Can an access of a cluster be made now, as far as its superblock goes: held in a state that suffices, or asked for on a quiet bus with
nothing of the superblock under way, room for it, and for a write every counted cluster to say that it has applied the snoop in this step
(R188, R189, R199, R200)? -/
def State.sbOpen (s : State) (k sb : Nat) (writes : Bool) : Bool :=
  (snoopFor writes (s.moesiOf k sb)).isNone ||
    (s.busQuiet (sb % 16) && !(s.sbReqs.any fun r => r.sb == sb) && !s.evicting.contains sb && (192 ≤ k || s.l2RoomOpen k sb) &&
      (!writes || s.busHeard k (sb % 16)))

/-- A load's effect on the states: RS on a miss; E when the home answers with SHR = 0, else S. -/
def State.share (s : State) (k sb : Nat) : State :=
  if s.moesiOf k sb ≠ .i then s
  else
    let s := (s.l2Room k sb).countSnoop (sb % 16) k
    let h := s.homeBits.get 0 sb
    let home := !h.getLsbD 0
    let alone := home && !h.getLsbD 1
    let s := s.snoopOthers k sb .rs
    let s := s.setMoesi k sb (if alone then .e else .s)
    { s with homeBits := s.homeBits.put sb (if alone then 3 else if home then h ||| 2 else h) }

/-- A store's or atomic's effect: M here, I elsewhere; OWN set and SHR cleared where a snoop was needed. -/
def State.own (s : State) (k sb : Nat) : State :=
  match s.moesiOf k sb with
  | .m => s
  | .e => s.setMoesi k sb .m
  | _ =>
    let s := (s.l2Room k sb).countSnoop (sb % 16) k
    let s := s.snoopOthers k sb .rx
    let s := s.setMoesi k sb .m
    { s with homeBits := s.homeBits.put sb 1 }

/-- Brings a line into an L2: its dirty bytes over the home's (R191). -/
def State.l2Fetch (s : State) (k la : Nat) : State :=
  let s := s.l2Room k (la / 4)
  let l := s.l2Line k la
  if l.valid then s
  else s.setL2 k la { l with valid := true, data := mergeBytes l.mask (BitVec.ofNat 512 (s.homeRead k (linePa la) 64)) l.data }

/-- Writes the masked bytes of an L1 line to the L2, where they stay dirty, room made without a superblock of `keep`; the L1 line becomes
clean. -/
def State.l1WriteBack (s : State) (c la : Nat) (keep : List Nat := []) : State :=
  let l := s.l1Line c la
  if l.mask = 0 then s
  else
    let k := clusterOf c
    let s := s.l2Room k (la / 4) keep
    let b := s.l2Line k la
    (s.setL2 k la { b with mask := b.mask ||| l.mask, data := mergeBytes l.mask b.data l.data }).setL1 c la { l with mask := 0 }

/-- Writes an L1 line back with the lines of its units, which stay together in the L2. -/
def State.l1WriteUnit (s : State) (c la : Nat) : State :=
  let old := (s.core c).ties
  let l := tied old la
  let s := l.foldl (fun s a => s.l1WriteBack c a (l.map (· / 4))) s
  if old.isEmpty then s
  else
    let s := s.modCore c fun k => { k with ties := k.ties.filter fun t => !t.any l.contains }
    s.modCluster (clusterOf c) fun x => { x with ties := x.ties ++ old.filter fun t => t.any l.contains }

def State.l1Evict (s : State) (c sb : Nat) : State :=
  let s := (List.range 4).foldl (fun s i => s.l1WriteUnit c (4 * sb + i)) s
  let s := s.modCore c fun k => { k with l1 := k.l1.drop fun la => la / 4 == sb }
  s.modCluster (clusterOf c) fun x => { x with evicts := x.evicts + 1 }

/-- Superblocks of an L1 set, the coherent ones among them. -/
def CoreSt.l1Set (k : CoreSt) (sb : Nat) : List Nat :=
  (((tagsOf k.l1).filter fun t => t % 64 == sb % 64) ++ k.coh.filter fun t => t % 64 == sb % 64).dedup

/-- Superblocks of an L1 set that an eviction may take now: unlocked lines for whose dirty bytes the L2 has room, and coherent ones. -/
def State.l1Victims (s : State) (c sb : Nat) : List Nat :=
  let k := s.core c
  let free := (unlockedTags k.l1 64 (sb % 64)).filter fun t => (List.range 4).all fun i =>
    (tied k.ties (4 * t + i)).all fun a => (s.l1Line c a).mask == 0 || s.l2RoomOpen (clusterOf c) (a / 4)
  let keep := unitTags k.ties sb
  (free ++ k.coh.filter fun t => t % 64 == sb % 64 && !(tagsOf k.l1).contains t).filter fun t => !keep.contains t

/-- Has an L1 set room for a superblock, or can it be made? -/
def State.l1RoomOpen (s : State) (c sb : Nat) : Bool :=
  ((s.core c).l1Set sb).contains sb || decide (((s.core c).l1Set sb).length < 8) || !(s.l1Victims c sb).isEmpty

/-- Makes room for a superblock in a full L1 set by an eviction (R185); a coherent superblock is clean and only leaves (R187). -/
def State.l1Room (s : State) (c sb : Nat) : State :=
  if ((s.core c).l1Set sb).contains sb || ((s.core c).l1Set sb).length < 8 then s
  else
    let all := s.l1Victims c sb
    match all[(Config.victim (s.cluster (clusterOf c)).evicts) % max 1 all.length]? with
    | some v =>
      let s := if (tagsOf (s.core c).l1).contains v then s.l1Evict c v else s
      s.modCore c fun k => { k with coh := k.coh.filter (· != v) }
    | none => s

/-- A load brings a coherent superblock's line into the L1 (R185, R187). -/
def State.cohFill (s : State) (c sb : Nat) : State :=
  if (s.core c).coh.contains sb then s
  else (s.l1Room c sb).modCore c fun k => { k with coh := sb :: k.coh }

/-- Brings a line into an L1 through the L2 (R191). -/
def State.l1Fetch (s : State) (c la : Nat) : State :=
  let s := s.l1Room c (la / 4)
  let l := s.l1Line c la
  if l.valid then s
  else
    let s := s.l2Fetch (clusterOf c) la
    s.setL1 c la { l with valid := true, data := mergeBytes l.mask (s.l2Line (clusterOf c) la).data l.data }

/-- Does a load of bytes of a line fetch it from the home: it has V = 0 in the L1 and in the L2 (R191)? -/
def State.needsHome (s : State) (c pa _n : Nat) : Bool := !((s.l1Line c (pa / 64)).valid || (s.l2Line (clusterOf c) (pa / 64)).valid)

/-! ## How an access meets its home (R26 to R28, R40, R290) -/

/-- How an access of a core to a physical address ends where its home does not answer, on a class of the given order: its cause. -/
def State.homeCause (s : State) (c pa : Nat) (order : Nat := 0) : Option Nat :=
  match s.route (clusterOf c) (pa / 2 ^ 27) with
  | .to p => if s.wayUp (s.physOf c) p order then none else some cMachineCheck
  | .retired => some cTargetRetired
  | .unreachable => some cMachineCheck

/-- Does a coherent access of a core hit in its cluster's L2: nothing leaves the cluster? -/
def State.cohHit (s : State) (c pa : Nat) (writes : Bool) : Bool := (snoopFor writes (s.moesiOf (clusterOf c) (pa / 256))).isNone

/-- The same of a coherent access: one that hits needs no home. -/
def State.cohCause (s : State) (c pa : Nat) (writes : Bool) (order : Nat := 0) : Option Nat :=
  if s.cohHit c pa writes then none else s.homeCause c pa order

/-- Can a coherent access of a core be made now? -/
def State.cohOpen (s : State) (c pa : Nat) (writes : Bool) : Bool :=
  s.cohHit c pa writes || (s.homeOpen c (pa / 2 ^ 27) && s.sbOpen (clusterOf c) (pa / 256) writes)

/-! ## Page tables (R167 to R171) -/

/-- What a translation gives: the physical address, or the window offset of a broadcast page (R182). -/
structure Trans where
  pa : Nat
  kind : PageKind
  w : Bool
  x : Bool
  imm : Bool
  deriving DecidableEq, Repr

/-- Page size of a leaf at a level; the head of a group at level 1 (R168). -/
def leafSize (lvl : Nat) (c32 : Bool) : Nat :=
  match lvl with
  | 1 => if c32 then 2 ^ 35 else 2 ^ 30
  | 2 => 2 ^ 21
  | _ => 2 ^ 16

/-- Size of the table below a level (R168). -/
def nextTableSize (lvl : Nat) : Nat :=
  match lvl with
  | 0 => 2 ^ 17
  | 1 => 2 ^ 12
  | _ => 2 ^ 8

/-- Base of a leaf: PA[40:16], or the window offset [39:16]. -/
def leafBase (e : Nat) : Nat := bits e 16 25 * 2 ^ 16

/-- A malformed entry (R170). -/
def malformed (e lvl idx : Nat) : Bool :=
  let leaf := e.testBit 1
  let c32 := e.testBit 7
  bits e 41 23 != 0 ||
    (if leaf then
      lvl == 0 || bits e 5 2 == 3 || bits e 8 8 != 0 || (c32 && (lvl != 1 || idx % 32 != 0)) ||
        (bits e 5 2 == 2 && e.testBit 40) || leafBase e % leafSize lvl c32 != 0
    else lvl == 3 || bits e 2 6 != 0 || (bits e 8 33 * 256) % nextTableSize lvl != 0)

/-- A leaf as a TLB entry; none where its page passes the last slice (R170). -/
def leafEntry (asn : Half) (va e lvl : Nat) : Option TlbEntry :=
  let size := leafSize lvl (e.testBit 7)
  let mt := bits e 5 2
  if mt ≠ 2 ∧ leafBase e + size > nCores * 2 ^ 27 then none
  else some { asn, va := va / size * size, size, base := leafBase e, mt := BitVec.ofNat 2 mt, w := e.testBit 2, x := e.testBit 3,
              imm := e.testBit 4 }

/-- Index bits of a level (R168): the lowest bit and the number of bits. -/
def levelBits (lvl : Nat) : Nat × Nat :=
  match lvl with
  | 0 => (44, 13)
  | 1 => (30, 14)
  | 2 => (21, 9)
  | _ => (16, 5)

/-- The top 2 MiB of every slice (R166). -/
def inHole (pa : Nat) : Bool := pa % 2 ^ 27 ≥ 0x7e00000

/-- How the read of a page-table entry ends where there is no answer: PERM_FAULT in a slice's hole, else its home's cause. -/
def State.entryCause (s : State) (c pa : Nat) : Option Nat := if inHole pa then some cPermFault else s.cohCause c pa false

/-- The walk from table `t` at level `lvl` (R170): the entries read, and what it gives. -/
def State.walkFrom (s : State) (c : Nat) (asn : Half) (va : Nat) : Nat → Nat → Nat → List Nat × Except Nat TlbEntry
  | 0, _, _ => ([], .error cPageFault)
  | n + 1, lvl, t =>
    let k := clusterOf c
    let idx := bits va (levelBits lvl).1 (levelBits lvl).2
    let leaf (at_ e l : Nat) : Except Nat TlbEntry :=
      if malformed e l (at_ % 2 ^ 14) then .error cPageFault
      else match leafEntry asn va e l with
        | some x => .ok x
        | none => .error cPageFault
    let hpa := t + 8 * (idx / 32 * 32)
    let pa := t + 8 * idx
    let head := s.homeRead k hpa 8
    let first := if lvl = 1 then [hpa] else []
    match if lvl = 1 then s.entryCause c hpa else none with
    | some e => (first, .error e)
    | none =>
      if lvl = 1 ∧ head.testBit 0 ∧ head.testBit 1 ∧ head.testBit 7 then (first, leaf (idx / 32 * 32) head 1)
      else
        match s.entryCause c pa with
        | some e => (first ++ [pa], .error e)
        | none =>
          let e := s.homeRead k pa 8
          if !e.testBit 0 || malformed e lvl idx then (first ++ [pa], .error cPageFault)
          else if e.testBit 1 then (first ++ [pa], leaf idx e lvl)
          else
            let (l, r) := State.walkFrom s c asn va n (lvl + 1) (bits e 8 33 * 256)
            (first ++ pa :: l, r)

/-- The walk of a page for a core of its cluster. -/
def State.walk (s : State) (c : Nat) (asn : Half) (root va : Nat) : Except Nat TlbEntry :=
  match (s.walkFrom c asn va 4 0 root).2 with
  | .ok e => .ok { e with root }
  | .error e => .error e

/-- The superblocks that a walk reads. -/
def State.walkReads (s : State) (c : Nat) (asn : Half) (root va : Nat) : List Nat :=
  ((s.walkFrom c asn va 4 0 root).1.filter fun pa => !inHole pa).map (· / 256)

def TlbEntry.covers (e : TlbEntry) (asn : Half) (va : Nat) : Bool := e.asn == asn && e.va ≤ va && va < e.va + e.size

/-- The entry that both TLBs of a core hold for `va`, its own first (R172). -/
def State.tlbHit (s : State) (c : Nat) (asn : Half) (va : Nat) : Option TlbEntry :=
  match (s.core c).tlb.find? (·.covers asn va) with
  | some e => some e
  | none => (s.cluster (clusterOf c)).tlb.find? (·.covers asn va)

/-- The entry that translates `va` for a core: its TLB's, its cluster's, or a walk's, or the cause of the walk (R172). -/
def State.lookup (s : State) (c : Nat) (asn : Half) (root va : Nat) : Except Nat TlbEntry :=
  match s.tlbHit c asn va with
  | some e => .ok e
  | none => s.walk c asn root va

/-- Two misses ask for one page: the walk of one covers the other; where it gives no page, the smallest page (R172). -/
def State.samePage (s : State) (c : Nat) (asn : Half) (root va : Nat) (w : WalkReq) : Bool :=
  w.asn == asn && w.root == root &&
    match s.walk c asn root w.va with
    | .ok e => e.covers asn va
    | .error _ => w.va / 2 ^ 16 == va / 2 ^ 16

/-- A miss in both TLBs queues a walk of the page, which misses of one page share (R172). -/
def State.askWalk (s : State) (c : Nat) (asn : Half) (root va : Nat) : State :=
  if (s.tlbHit c asn va).isSome ∨ 2 ^ 57 ≤ va then s
  else
    let same := s.samePage c asn root va
    let join (w : WalkReq) : WalkReq := if same w && !w.cores.contains c then { w with cores := w.cores ++ [c] } else w
    let x := s.cluster (clusterOf c)
    if x.walks.any same then s.setCluster (clusterOf c) { x with walks := x.walks.map join }
    else if 256 ≤ x.walks.length then s
    else s.setCluster (clusterOf c) { x with walks := x.walks ++ [{ asn, root, va, cores := [c] }] }

/-- The entries of a walk are read: coherent reads through the cluster's L2; a miss reads its home's table entry (R25, R170, R185). -/
def State.readWalk (s : State) (c : Nat) (asn : Half) (root va : Nat) : State :=
  (s.walkReads c asn root va).foldl (fun (s : State) sb =>
    if s.moesiOf (clusterOf c) sb = .i then (s.readEntry (s.physOf c) (sb / 2 ^ 19)).share (clusterOf c) sb else s) s

/-- A miss queues its walk, and the walk reads its entries. -/
def State.queueWalk (s : State) (c : Nat) (asn : Half) (root va : Nat) : State :=
  if (s.tlbHit c asn va).isSome ∨ 2 ^ 57 ≤ va then s else (s.readWalk c asn root va).askWalk c asn root va

/-- Has the walk of a page started, or would it at once: walks start in order of arrival at the cluster's 16 walkers (R172)? -/
def State.walkStarts (s : State) (c : Nat) (asn : Half) (root va : Nat) : Bool :=
  (s.cluster (clusterOf c)).walks.length < 16 || ((s.cluster (clusterOf c)).walks.take 16).any (s.samePage c asn root va)

/-- May a translation go on now: a hit, or a walk that has started and whose entries can be read (R172)? -/
def State.walkOpen (s : State) (c : Nat) (asn : Half) (root va : Nat) : Bool :=
  (s.tlbHit c asn va).isSome || 2 ^ 57 ≤ va ||
    (s.walkStarts c asn root va && (s.walkFrom c asn va 4 0 root).1.all fun pa => inHole pa || s.cohOpen c pa false)

/-- Does a miss find its cluster's queue of walks full? -/
def State.walksFull (s : State) (c : Nat) (asn : Half) (root va : Nat) : Bool :=
  (s.tlbHit c asn va).isNone && va < 2 ^ 57 && 256 ≤ (s.cluster (clusterOf c)).walks.length &&
    !(s.cluster (clusterOf c)).walks.any (s.samePage c asn root va)

/-- The page's entries are filled anew in the TLBs that hold one (R173). -/
def State.refill (s : State) (c : Nat) (asn : Half) (va : Nat) : State :=
  match s.tlbHit c asn va with
  | none => s
  | some e =>
    match s.walk c asn e.root va with
    | .error _ => s
    | .ok n =>
      if (s.walkReads c asn e.root va).all fun sb => s.cohOpen c (256 * sb) false then
        let s := s.readWalk c asn e.root va
        let new (l : List TlbEntry) : List TlbEntry := l.map fun x => if x.covers asn va then n else x
        (s.modCore c fun k => { k with tlb := new k.tlb }).modCluster (clusterOf c) fun x => { x with tlb := new x.tlb }
      else s

/-- A TLB of `sets` sets of `ways` takes in an entry (R172). The spec names no index of the sets and no victim (log entry 10): the set is that
of the page's number, and `n` numbers the choice. -/
def tlbInsert (sets ways n : Nat) (e : TlbEntry) (l : List TlbEntry) : List TlbEntry :=
  let rest := l.filter (· != e)
  let set := rest.filter fun x => x.va / x.size % sets == e.va / e.size % sets
  e :: if set.length < ways then rest else rest.filter fun x => some x != set[Config.victim n % max 1 set.length]?

def TlbEntry.trans (e : TlbEntry) (va : Nat) : Trans :=
  { pa := e.base + (va - e.va), kind := if e.mt = 0 then .coherent else if e.mt = 1 then .swm else .broadcast, w := e.w, x := e.x,
    imm := e.imm }

/-- What an access asks of a page (R171). -/
inductive Want where
  | read
  | write
  | fetch
  /-- The broadcast store, which only a broadcast page takes (R416). -/
  | window
  deriving DecidableEq, Repr

/-- The landing place of a window offset under a cluster's filters: the lowest-numbered enabled one that covers it
(R46, R184). -/
def Cluster.landing (x : Cluster) (o : Nat) : Option Nat :=
  ((List.range 8).find? fun n =>
    let b := (x.fbase.get 0 n).toNat
    b.testBit 63 && bits b 7 33 ≤ o / 128 && o / 128 ≤ bits (x.flim.get 0 n).toNat 7 33).map fun n =>
      bits (x.fland.get 0 n).toNat 7 34 * 128 + o - bits (x.fbase.get 0 n).toNat 7 33 * 128

/-- Does an access lie in the hole of a slice: at its own physical address, or at the landing copy that it reads (R166)? -/
def State.holed (s : State) (c : Nat) (t : Trans) : Bool :=
  match t.kind with
  | .broadcast => (((s.cluster (clusterOf c)).landing t.pa).map inHole).getD false
  | _ => inHole t.pa

/-- Translation and permission of an access at `va` (R164, R166, R170, R171, R186): the cause it fails with, or its place. -/
def State.translate (s : State) (c : Nat) (asn : Half) (root : Nat) (va : Nat) (want : Want) : Except Nat Trans :=
  if 2 ^ 57 ≤ va then .error cPageFault
  else
    match s.lookup c asn root va with
    | .error e => .error e
    | .ok e =>
      let t := e.trans va
      let bad : Bool := match want with
        | .read => false
        | .write => !t.w || t.imm || t.kind == .broadcast
        | .fetch => !t.x || t.kind == .broadcast
        | .window => !t.w || t.imm || t.kind != .broadcast
      if bad || s.holed c t then .error cPermFault else .ok t

/-- Address space and root of a gang's accesses: the run's, or the handler's (R167, R274). -/
def State.space (s : State) (g : Gang) : Half × Nat :=
  if g.isHandler then (s.hroot.extractLsb' 48 16, bits s.hroot.toNat 16 25 * 2 ^ 16)
  else ((s.launch g.seat.ltag.toNat).asn, (s.launch g.seat.ltag.toNat).root)

/-- Translation for a gang of a core. -/
def State.translateFor (s : State) (c : Nat) (g : Gang) (va : Nat) (want : Want) : Except Nat Trans :=
  s.translate c (s.space g).1 (s.space g).2 va want

/-! ## One access to global memory at its point of performance -/

/-- The physical address at whose home an access of a core is made; none where nothing leaves its cluster: a coherent superblock held in a state
that suffices, a line that is here, a store to software-managed data (R190, R191). -/
def State.homePa (s : State) (c : Nat) (t : Trans) (n : Nat) (write atomic : Bool) : Option Nat :=
  match t.kind with
  | .coherent => if s.cohHit c t.pa write then none else some t.pa
  | .swm => if atomic || (!write && s.needsHome c t.pa n) then some t.pa else none
  | .broadcast =>
    ((s.cluster (clusterOf c)).landing t.pa).bind fun pa => if s.needsHome c (landKey pa) n then some pa else none

/-- How an access ends where no home answers it (R28, R40): its cause. -/
def State.reach (s : State) (c : Nat) (t : Trans) (n : Nat) (write : Bool) (order : Nat := 0) (atomic : Bool := false) : Option Nat :=
  (s.homePa c t n write atomic).bind fun pa => s.homeCause c pa order

/-- Does the way of an access to its home and back carry flits on its own order? Where it does not, the access takes the time of its fallback
(R40). -/
def State.wayOpen (s : State) (c : Nat) (t : Trans) (n : Nat) (write atomic : Bool) (order : Nat) : Bool :=
  match s.homePa c t n write atomic with
  | none => true
  | some pa =>
    match s.route (clusterOf c) (pa / 2 ^ 27) with
    | .to p =>
      let q := s.physOf c
      if order = 2 then s.westUp p 240 [q] && s.westUp q 240 [p]
      else s.pathUp (order == 1) 240 q p && s.pathUp (order == 1) 240 p q
    | _ => true

/-- Can a line of software-managed or landing data be read now: it is here, or its home answers at once and both caches have room? -/
def State.lineOpen (s : State) (c pa key n : Nat) : Bool :=
  s.l1RoomOpen c (key / 256) && (!s.needsHome c key n || (s.homeOpen c (pa / 2 ^ 27) && s.l2RoomOpen (clusterOf c) (key / 256)))

/-- Can an access of `n` bytes be made in one step now: nothing that it needs has to be waited for? -/
def State.accessOpen (s : State) (c : Nat) (t : Trans) (n : Nat) (write : Bool) (atomic : Bool := false) : Bool :=
  match t.kind with
  | .coherent => s.cohOpen c t.pa write && (write || s.l1RoomOpen c (t.pa / 256))
  | .swm =>
    if atomic then s.homeOpen c (t.pa / 2 ^ 27)
    else if write then s.l1RoomOpen c (t.pa / 256) else s.lineOpen c t.pa t.pa n
  | .broadcast =>
    match (s.cluster (clusterOf c)).landing t.pa with
    | none => true
    | some pa => s.lineOpen c pa (landKey pa) n

/-- The home's entry is read for a coherent access that leaves the cluster (R25). -/
def State.askCoh (s : State) (c pa : Nat) (writes : Bool) : State := if s.cohHit c pa writes then s else s.askHome c pa

/-- Reads `n` bytes inside one line. -/
def State.memRead (s : State) (c : Nat) (t : Trans) (n : Nat) : State × Nat :=
  let viaLine (pa : Nat) : State × Nat :=
    let s := (if s.needsHome c pa n then s.askHome c (pa % 2 ^ 41) else s).l1Fetch c (pa / 64)
    (s, (s.l1Line c (pa / 64)).read (pa % 64) n)
  match t.kind with
  | .coherent =>
    let s := ((s.askCoh c t.pa false).share (clusterOf c) (t.pa / 256)).cohFill c (t.pa / 256)
    (s, s.homeRead (clusterOf c) t.pa n)
  | .swm => viaLine t.pa
  | .broadcast =>
    match (s.cluster (clusterOf c)).landing t.pa with
    | none => (s, 0)
    | some pa => viaLine (landKey pa)

/-- Writes `n` bytes inside one line: coherent data at its home, with every other L1 copy of the cluster dropped first (R187);
software-managed data in the L1. -/
def State.memWrite (s : State) (c : Nat) (t : Trans) (n v : Nat) : State :=
  match t.kind with
  | .coherent =>
    let k := clusterOf c
    let s := ((s.askCoh c t.pa true).own k (t.pa / 256)).dropCopies k (t.pa / 256) (· != c)
    s.cohWrite t.pa n v
  | .swm =>
    let s := s.l1Room c (t.pa / 256)
    s.setL1 c (t.pa / 64) ((s.l1Line c (t.pa / 64)).write (t.pa % 64) n v)
  | .broadcast => s

/-- An atomic's read and write: coherent data in the cluster's L2 with the superblock in M, software-managed data at the
home (R190). -/
def State.memAtomic (s : State) (c : Nat) (t : Trans) (n : Nat) (f : Nat → Option Nat) : State × Nat :=
  let k := clusterOf c
  let s := if t.kind = .coherent then ((s.askCoh c t.pa true).own k (t.pa / 256)).dropCopies k (t.pa / 256) fun _ => true else s.askHome c t.pa
  let old := s.homeRead k t.pa n
  match f old with
  | some v => (if t.kind = .coherent then s.cohWrite t.pa n v else s.homeWrite k t.pa n v, old)
  | none => (s, old)

/-- What a read would return, with no line brought in: for replays and records read by the hardware. -/
def State.memPeek (s : State) (c : Nat) (t : Trans) (n : Nat) : Nat := (s.memRead c t n).2

/-- Writes made by an engine or the save hardware, through the cluster's L2 (R185). -/
def State.engineWrite (s : State) (c : Nat) (t : Trans) (n v : Nat) : State :=
  let k := clusterOf c
  match t.kind with
  | .coherent =>
    let s := ((s.askCoh c t.pa true).own k (t.pa / 256)).dropCopies k (t.pa / 256) fun _ => true
    s.cohWrite t.pa n v
  | .swm =>
    let s := s.l2Room k (t.pa / 256)
    s.setL2 k (t.pa / 64) ((s.l2Line k (t.pa / 64)).write (t.pa % 64) n v)
  | .broadcast => s

/-- Reads made by an engine, through the cluster's L2. -/
def State.engineRead (s : State) (c : Nat) (t : Trans) (n : Nat) : State × Nat :=
  let k := clusterOf c
  let viaLine (pa : Nat) : State × Nat :=
    let s := (if (s.l2Line k (pa / 64)).valid then s else s.askHome c (pa % 2 ^ 41)).l2Fetch k (pa / 64)
    (s, (s.l2Line k (pa / 64)).read (pa % 64) n)
  match t.kind with
  | .coherent =>
    let s := (s.askCoh c t.pa false).share k (t.pa / 256)
    (s, s.homeRead k t.pa n)
  | .swm => viaLine t.pa
  | .broadcast =>
    match (s.cluster k).landing t.pa with
    | none => (s, 0)
    | some pa => viaLine (landKey pa)

/-- How an access through the cluster's L2 ends where its home does not answer, on a class of the given order: its cause, or `cWaits` where it
has to wait. -/
def State.engReach (s : State) (c : Nat) (t : Trans) (write : Bool) (order : Nat := 0) : Option Nat :=
  let k := clusterOf c
  let line (pa key : Nat) : Option Nat :=
    if (s.l2Line k (key / 64)).valid then none
    else if !s.homeOpen c (pa / 2 ^ 27) || !s.l2RoomOpen k (key / 256) then some cWaits
    else s.homeCause c pa order
  match t.kind with
  | .coherent => if !s.cohOpen c t.pa write then some cWaits else s.cohCause c t.pa write order
  | .swm => if write then (if s.l2RoomOpen k (t.pa / 256) then none else some cWaits) else line t.pa t.pa
  | .broadcast =>
    match (s.cluster k).landing t.pa with
    | none => none
    | some pa => line pa (landKey pa)

/-! ## Overlap (R196) -/

def overlaps (a n b m : Nat) : Bool := a < b + m && b < a + n

/-- Two accesses touch overlapping bytes of one location (R196): by their physical addresses. -/
def Pend.meets (q : Pend) (t : Trans) (n : Nat) : Bool :=
  (q.page == .broadcast) == (t.kind == .broadcast) && overlaps q.pa q.bytes t.pa n

/-! ## Scratchpad (R175 to R177) -/

/-- Core-wide byte of a gang's scratchpad offset, for an access of `n` bytes; none beyond its view. -/
def Gang.spadAddr (g : Gang) (off n : Nat) : Option Nat :=
  if g.isHandler ∨ 2 ^ 20 ≤ off then none
  else if off.testBit 19 then
    (if off % 2 ^ 19 + n ≤ g.seat.shareSize then some (g.seat.shareBase + off % 2 ^ 19) else none)
  else if off + n ≤ g.seat.spkb * 1024 then some (g.seat.spadBase + off) else none

def State.spadRead (s : State) (c a n : Nat) : Nat := (s.core c).spad.readN a n
def State.spadWrite (s : State) (c a n v : Nat) : State := s.modCore c fun k => { k with spad := k.spad.writeN a n v }
def State.granFull (s : State) (c gr : Nat) : Bool := (s.core c).spadFE.get false gr
def State.setGran (s : State) (c gr : Nat) (b : Bool) : State :=
  s.modCore c fun k => { k with spadFE := k.spadFE.put gr b }

end Sys2Proof.Machine
end

