-- ==== Sys2Proof/Machine/Operands.lean ====
section
/-! DEFINITION. Every operand form (R121, R321 to R328, R354, R372, R396, R419, R469), recipe replays (R259 to R268), the checks
of stage 1 (R270, R334), results (R134, R355, R373), and the one frame in which an instruction is issued. -/

namespace Sys2Proof

/-- Classes whose register form names vector registers. -/
def Cls.vectorReg : Cls → Bool
  | .v | .v32 | .v64 | .run | .vreg | .vDeck | .off => true
  | _ => false

/-- The prefix fields, zero without a prefix word (R331). -/
def Fields.pslo (f : Fields) : Nat := (f.pfx.map fun p => p.pslo.toNat).getD 0
def Fields.prm (f : Fields) : Nat := (f.pfx.map fun p => p.prm.toNat).getD 0
def Fields.fop (f : Fields) : Src := (f.pfx.map fun p => p.fop).getD (.reg 0)

/-- Classes read once for the gang. -/
def Cls.isScalar : Cls → Bool
  | .sT | .s | .u | .m | .uni => true
  | _ => false

namespace Machine

/-! ## Immediates -/

/-- How an operand reads an immediate: as integers of a width or as numbers of a format (R322, R326). -/
inductive Num where
  | int (sg : Bool) (w : Nat)
  | flt (f : Fmt)
  deriving DecidableEq, Repr

/-- An 8-bit immediate in every element (R322, R372). -/
def Num.imm8 (n : Num) (v : BitVec 8) : Nat :=
  match n with
  | .int sg w => packElems w fun _ => wrap w (toInt sg 8 v.toNat)
  | .flt f => packElems f.bits fun _ => f.round modeRNE false false 0 (XVal.ofInt (toInt true 8 v.toNat))

/-- IMM in every element (R326). -/
def Num.immX (n : Num) (x : Word) : Nat :=
  match n with
  | .int sg w => if w = 64 then wrap 64 (toInt sg 32 x.toNat) else packElems w fun _ => x.toNat
  | .flt f => packElems f.bits fun _ => f.round modeRNE false false 0 (fp32.decode x.toNat)

/-- How a vector operand of class `k` reads immediates. -/
def numFor (sp : OpSpec) (f : Fields) (k : Cls) : Num :=
  match k with
  | .v => if f.ty.toNat < 4 then .flt (fmtOfTy f.ty) else .int sp.immS (tyBits f.ty)
  | .v32 =>
    if sp.grp = 4 ∧ sp.op = 0 then
      (match f.fn.toNat with
       | 0 => .flt fp32
       | 1 => .flt bf16
       | 2 => .flt fp16
       | 3 => .int true 32
       | 4 => .int false 32
       | 5 => .int true 16
       | 6 => .int false 16
       | _ => .int true 8)
    else if sp.grp = 6 ∧ f.ty = 0 then .flt fp32 else .int sp.immS 32
  | .v64 => .int sp.immS 64
  | _ => .int true 32

/-! ## Register numbers -/

/-- The register a vector source names: v(n), or v[s(n) + k] (R121); none for the other kinds. -/
def srcReg (g : Gang) (k : Nat) : Src → Option Nat
  | .reg n => some n.toNat
  | .ind n => some ((g.sreg n.toNat).toNat + k)
  | _ => none

/-- The destination register, direct or indirect (R323, R328). -/
def dstReg (g : Gang) (f : Fields) : Nat :=
  if f.dind then (g.sreg f.ds).toNat + f.dst.toNat else f.dst.toNat

/-- A register, or pair, inside the allocation; an odd computed pair is out of range (R119, R120). -/
def regOk (g : Gang) (wide computed : Bool) (r : Nat) : Bool :=
  r + (if wide then 1 else 0) < g.nregs && !(wide && computed && r % 2 == 1)

def srcRegOk (g : Gang) (f : Fields) (k : Cls) (kk : Nat) (x : Src) : Bool :=
  if k.vectorReg then
    (match srcReg g kk x with
     | some r => regOk g (k.wide f) x.isInd r
     | none => true)
  else true

/-- A result register of vector class. -/
def dstRegOk (g : Gang) (sp : OpSpec) (f : Fields) : Bool :=
  if sp.dst.isVector && !f.nwb then regOk g (sp.dst.wide f) f.dind (dstReg g f) else true

/-! ## Format slots -/

/-- FMT of a TYPE (R151); none of them for 64-bit types. -/
def slotCodeOfTy (ty : BitVec 4) : Nat :=
  match ty.toNat with
  | 0 => 0
  | 1 => 1
  | 2 => 2
  | 4 => 8
  | 5 => 9
  | 6 => 0xf
  | 7 => 0x10
  | 8 => 0xc
  | 9 => 0xd
  | _ => 99

def State.slotN (s : State) (g : Gang) (n : Nat) : Slot := slotOf ((s.launch g.seat.ltag.toNat).fs[n % 8]?.getD 0)

/-- The slot that governs vector arithmetic: the override, or a plain one (R153). -/
def State.envSlot (s : State) (g : Gang) (f : Fields) : Slot := if f.pslo = 0 then plainSlot else s.slotN g f.pslo

/-- The mode of an instruction without a rounding field of its own (R381). -/
def State.env (s : State) (f : Fields) : Env := { mode := f.prm, slot := s.envSlot s.me f }

/-- Does a PSLO override fit the instruction's type? Conversions to and from a slot take any (R153, R385, R386). -/
def slotFits (s : State) (g : Gang) (sp : OpSpec) (f : Fields) : Bool :=
  f.pslo == 0 || g.isHandler || (sp.grp == 4 && 1 ≤ sp.op.toNat && sp.op.toNat ≤ 3) || (sp.grp == 6 && f.ctl.fmte) ||
    (s.slotN g f.pslo).code == slotCodeOfTy f.ty

/-! ## Constant windows (R180, R181) -/

/-- Key of the constant cache line of a launch that a translated address lies in. -/
def konstKey (ltag : Half) (t : Trans) : Nat := ltag.toNat * 2 ^ 36 + (if t.kind = .broadcast then 2 ^ 35 else 0) + t.pa / 64

/-- The launch tag of a key. -/
def konstLtag (key : Nat) : Nat := key / 2 ^ 36

/-- The constant cache line of a core at a key. -/
def CoreSt.konstLine (k : CoreSt) (key : Nat) : Option (BitVec 512) := (k.kcache.find? fun p => p.1 == key).map (·.2)

/-- The address of word `off` of a launch's window; none beyond the window or for the handler. -/
def State.konstVa (s : State) (g : Gang) (win off : Nat) : Option Nat :=
  let (base, size) := (s.launch g.seat.ltag.toNat).kwin[win]?.getD (0, 0)
  if g.isHandler || size ≤ off then none else some (base.toNat + 4 * off)

/-- One word of a window, or the cause it fails with: `cWaits` where its translation or its line has to be waited for. -/
def State.konstWord (s : State) (c : Nat) (g : Gang) (win off : Nat) : Except Nat Nat :=
  match s.konstVa g win off with
  | none => .error cKonstRange
  | some va =>
    if !s.walkOpen c (s.space g).1 (s.space g).2 va then .error cWaits
    else
      match s.translateFor c g va .read with
      | .error e => .error e
      | .ok t =>
        match (s.core c).konstLine (konstKey g.seat.ltag t) with
        | some l => .ok (bits l.toNat (8 * (t.pa % 64)) 32)
        | none =>
          let line := { t with pa := t.pa / 64 * 64 }
          if !s.accessOpen c line 64 false then .error cWaits
          else
            match s.reach c line 64 false with
            | some e => .error e
            | none => .ok (s.memPeek c t 4)

/-- The operand of the KONST word X (R327). -/
def State.konst (s : State) (c : Nat) (g : Gang) (f : Fields) : Except Nat Nat :=
  match s.konstWord c g f.kwin f.koff with
  | .error e => .error e
  | .ok lo =>
    if f.kpair then
      match s.konstWord c g f.kwin (f.koff + 1) with
      | .error e => .error e
      | .ok hi => .ok (lo + 2 ^ 32 * hi)
    else .ok lo

/-- Does a source name a constant? -/
def usesKonst (f : Fields) : Bool := f.a == .konst || f.b == .konst || f.c == .konst

/-- The addresses of the constant words of an instruction. -/
def State.konstVas (s : State) (g : Gang) (f : Fields) : List Nat :=
  if usesKonst f then (f.koff :: if f.kpair then [f.koff + 1] else []).filterMap (s.konstVa g f.kwin) else []

/-- Brings the constant cache line of an address in through the L1 (R181), its page's walk queued (R172); a full cache loses a line. -/
def State.konstFetch (s : State) (c : Nat) (g : Gang) (va : Nat) : State :=
  match s.translateFor c g va .read with
  | .error _ => s
  | .ok t =>
    let s := s.queueWalk c (s.space g).1 (s.space g).2 va
    let key := konstKey g.seat.ltag t
    if ((s.core c).konstLine key).isSome then s
    else
      let (s, v) := s.memRead c { t with pa := t.pa / 64 * 64 } 64
      s.modCore c fun k =>
        let old := if k.kcache.length < 512 then k.kcache else k.kcache.drop fun q => some q == (k.kcache[Config.victim 0 % 512]?).map (·.1)
        { k with kcache := SMap.put old key (BitVec.ofNat 512 v) }

/-- Fills the constant cache lines that an instruction reads. -/
def State.konstFill (s : State) (c : Nat) (g : Gang) (f : Fields) : State :=
  (s.konstVas g f).foldl (fun (s : State) va => s.konstFetch c g va) s

/-- Are the lines of an instruction's constants in the cache? -/
def State.konstHere (s : State) (c : Nat) (g : Gang) (f : Fields) : Bool :=
  (s.konstVas g f).all fun va => match s.translateFor c g va .read with
    | .ok t => ((s.core c).konstLine (konstKey g.seat.ltag t)).isSome
    | .error _ => true

/-! ## Recipes: replay (R261 to R268) -/

/-- The entry that tags a register. -/
def Gang.tagOf (g : Gang) (r : Nat) : Option Nat :=
  (List.range 32).find? fun n => (g.recipe n).act && (g.recipe n).treg.toNat == r

/-- The register is dropped: its entry. -/
def Gang.droppedAs (g : Gang) (r : Nat) : Option Nat :=
  match g.tagOf r with
  | some n => if (g.recipe n).drop then some n else none
  | none => none

/-- The instructions of a body (R260). -/
def Recipe.instrs (x : Recipe) : List Instr :=
  (List.range (x.nm1.toNat + 1)).filterMap fun i =>
    match decodeUnit (bytesOf 16 (bits x.bcopy.toNat (128 * i) 128)) with
    | .instr ins _ => some ins
    | _ => none

/-- The fault of a replay (R268): its inner cause, the entry it arose in and the address of the load that meets it. With `cWaits` it is no
fault: the replay waits for what stands at the address, or for the constants of an instruction of the body. -/
structure ReplayErr where
  inner : Nat
  rcp : Nat
  va : DWord := 0
  konst : Option Fields := none
  deriving DecidableEq, Repr

/-- Does the replay have to wait? -/
def ReplayErr.waits (e : ReplayErr) : Bool := e.inner == cWaits

/-- A replay's outcome. -/
abbrev Replayed := Except ReplayErr Nat

/-- The rounding mode of a body's instruction: FN of `vrint` (R381). -/
def bodyMode : Instr → Mode
  | .vrint f => f.fn.toNat
  | _ => 0

/-- Has a load of a body nothing left to bring in: its superblock or its line is in the cluster (R170, R188)? -/
def State.bodyHit (s : State) (c : Nat) (t : Trans) (n : Nat) : Bool :=
  match t.kind with
  | .coherent => s.moesiOf (clusterOf c) (t.pa / 256) != .i
  | .swm => !s.needsHome c t.pa n
  | .broadcast =>
    match (s.cluster (clusterOf c)).landing t.pa with
    | none => true
    | some pa => !s.needsHome c (landKey pa) n

/-- A load of `n` bytes of a body (R262): its value, or the cause it fails with, `cWaits` while its page or its line is still to be brought
in. -/
def State.bodyLoad (s : State) (c : Nat) (g : Gang) (va n : Nat) : Except Nat Nat :=
  if va % n ≠ 0 then .error cMisalign
  else if !s.walkOpen c (s.space g).1 (s.space g).2 va then .error cWaits
  else
    match s.translateFor c g va .read with
    | .error e => .error e
    | .ok t =>
      if (s.tlbHit c (s.space g).1 va).isNone then .error cWaits
      else if !t.imm then .error cPermFault
      else if s.bodyHit c t n then .ok (s.memPeek c t n)
      else if !s.accessOpen c t n false then .error cWaits
      else
        match s.reach c t n false with
        | some e => .error e
        | none => .error cWaits

/-- What a replay waits for is asked for, or brought in: the walk of a page, a load's line, a constant's line. -/
def State.replayFetch (s : State) (c : Nat) (g : Gang) (e : ReplayErr) : State :=
  match e.konst with
  | some f =>
    let s := (s.konstVas g f).foldl (fun (s : State) va => s.askWalk c (s.space g).1 (s.space g).2 va) s
    (match s.konst c g f with
     | .ok _ => s.konstFill c g f
     | .error _ => s)
  | none =>
    let va := e.va.toNat
    if !s.walkOpen c (s.space g).1 (s.space g).2 va then s.askWalk c (s.space g).1 (s.space g).2 va
    else
      match s.translateFor c g va .read with
      | .error _ => s
      | .ok t =>
        if (s.tlbHit c (s.space g).1 va).isNone then s.queueWalk c (s.space g).1 (s.space g).2 va
        else if s.accessOpen c t 1 false && (s.reach c t 1 false).isNone then (s.memRead c t 1).1
        else s

/-- Runs the instructions of a body in lane `j`; `lat` holds the body's four latches, and at 4 + l the lane's bit of the scalar
part of latch l; `rd` reads a register. -/
def State.runBody (s : State) (c : Nat) (g : Gang) (n j : Nat) (rd : Nat → Replayed) :
    List Instr → SMap Nat → Nat → Replayed
  | [], _, last => .ok last
  | i :: rest, lat, _ =>
    match opSpec i, i.fields? with
    | some sp, some f =>
      let opnd (k : Cls) (x : Src) : Replayed :=
        match x with
        | .reg r =>
          if k.wide f then
            match rd r.toNat, rd (r.toNat + 1) with
            | .ok lo, .ok hi => .ok (lo + 2 ^ 32 * hi)
            | .error e, _ => .error e
            | _, .error e => .error e
          else if k == .none then .ok 0
          else if k == .s then .ok (g.sreg r.toNat).toNat
          else rd r.toNat
        | .latch l => .ok (lat.get 0 (if k == .m then 4 + l.toNat else l.toNat))
        | .imm v => .ok (if k == .m then (if (wrap 64 (toInt true 8 v.toNat)).testBit j then 1 else 0) else (numFor sp f k).imm8 v)
        | .konst =>
          match s.konst c g f with
          | .ok v => if s.konstHere c g f then .ok v else .error { inner := cWaits, rcp := n, konst := some f }
          | .error e => .error { inner := e, rcp := n, konst := if e = cWaits then some f else none }
        | _ => .ok 0
      match opnd sp.a f.a, opnd sp.b f.b, opnd sp.c f.c with
      | .ok a, .ok b, .ok x =>
        let res : Replayed :=
          match i with
          | .ld f =>
            let va := ((a : Int) + toInt true 32 b) % (2 ^ 64 : Nat)
            let w := tyBits f.ty
            (match s.bodyLoad c g va.toNat (w / 8) with
             | .error e => .error { inner := e, rcp := n, va := BitVec.ofInt 64 va }
             | .ok v => .ok ((BitVec.ofInt 64 (toInt (tyIsI f.ty && w < 32) w v)).toNat % 2 ^ (max 32 w)))
          | .vcmpInt f =>
            .ok (if intCond f.fn.toNat (toInt (tyIsI f.ty) (tyBits f.ty) a) (toInt (tyIsI f.ty) (tyBits f.ty) b) then 1 else 0)
          | .vcmpFloat f => .ok (if fp32.cond false f.fn.toNat a b then 1 else 0)
          | .vsel _ => .ok (if x % 2 = 1 then a else b)
          | i => .ok ((laneFn i { mode := bodyMode i, slot := plainSlot } a b x).getD 0)
        match res with
        | .error e => .error e
        | .ok v => State.runBody s c g n j rd rest (lat.put (if sp.dst == .m then 4 + f.lat.toNat else f.lat.toNat) v) v
      | .error e, _, _ => .error e
      | _, .error e, _ => .error e
      | _, _, .error e => .error e
    | _, _ => .error { inner := cIllegalEncoding, rcp := n }

/-- Reads a 32-bit register of a lane, replaying it when it is dropped (R265). A register's recipe may read another
dropped register; at most 32 entries exist. Of nested replays INNER and RCP name the innermost one that fails, which the spec does not say (DESIGN
CHOICE, log entry 36). -/
def State.readV (s : State) (c : Nat) (g : Gang) : Nat → Nat → Nat → Replayed
  | 0, r, j => .ok (g.vreg r j).toNat
  | fuel + 1, r, j =>
    match g.droppedAs r with
    | none => .ok (g.vreg r j).toNat
    | some n => (s.runBody c g n j (fun q => s.readV c g fuel q j) (g.recipe n).instrs [] 0).map (· % 2 ^ 32)

/-- The value of a register, 0 where its replay faults (the instruction then does not execute). -/
def State.vval (s : State) (c : Nat) (g : Gang) (r j : Nat) : Nat :=
  match s.readV c g 33 r j with
  | .ok v => v
  | .error _ => 0

/-- The fault of a replay of one of the registers. A body runs in every launched lane that has not exited (R263). -/
def State.replayFault (s : State) (c : Nat) (g : Gang) (regs : List Nat) : Option ReplayErr :=
  (regs.filter fun r => (g.droppedAs r).isSome).findSome? fun r => (lanesOf g.liveLanes).findSome? fun j =>
    match s.readV c g 33 r j with
    | .ok _ => none
    | .error e => some e

/-- Registers that an active entry's body sources: vector, and scalar other than s0 (R261). -/
def Recipe.vecOps (x : Recipe) : List Nat :=
  x.instrs.flatMap fun i =>
    match opSpec i, i.fields? with
    | some sp, some f =>
      let one (k : Cls) (y : Src) : List Nat :=
        match y with
        | .reg r => if k.vectorReg then (if k.wide f then [r.toNat, r.toNat + 1] else [r.toNat]) else []
        | _ => []
      one sp.a f.a ++ one sp.b f.b ++ one sp.c f.c
    | _, _ => []

def Recipe.scaOps (x : Recipe) : List Nat :=
  x.instrs.flatMap fun i =>
    match i with
    | .ld f =>
      (match f.a with
       | .reg r => if r = 0 then [] else [r.toNat]
       | _ => [])
    | _ => []

/-! ## Register rows and materialisation (R107, R117, R264, R266, R267) -/

/-- Octs of a gang whose eight registers are all dropped. -/
def Gang.freedOcts (g : Gang) : List Nat :=
  (List.range g.seat.octs).filter fun k => (List.range 8).all fun i => (g.droppedAs (8 * k + i)).isSome

/-- Rows a gang holds in each of its quarters. -/
def Gang.rows (g : Gang) : Nat := if g.seat.used && g.live then g.seat.octs - g.freedOcts.length + g.rowGrant else 0

def Seat.quarters (x : Seat) : List Nat := (List.range (x.gw / 16)).map (x.quarter + ·)

/-- Free oct rows of a quarter of a core. -/
def CoreSt.freeRows (k : CoreSt) (q : Nat) : Nat :=
  256 - ((List.range 15).foldl (fun a g =>
    let x := k.gangs.get {} g
    if x.seat.quarters.contains q then a + x.rows else a) 0)

/-- Free rows of the least free of a seat's quarters (R118). -/
def CoreSt.freeFor (k : CoreSt) (x : Seat) : Nat := (x.quarters.map k.freeRows).foldl min 256

/-- Writes the replayed value of a dropped register in every live lane and marks the entry not dropped (R266). -/
def State.materialise (s : State) (c g n : Nat) : State :=
  let x := s.gang c g
  let e := x.recipe n
  if !e.drop then s
  else
    let r := e.treg.toNat
    let vals := (lanesOf x.liveLanes).map fun j => (64 * r + j, BitVec.ofNat 32 (s.vval c x r j))
    s.setGang c g { x with v := x.v.putAll vals, rcp := x.rcp.put n { e with drop := false } }

/-- Clears an entry, its register materialised first (R266). -/
def State.clearRecipe (s : State) (c g n : Nat) : State :=
  let s := s.materialise c g n
  s.modGang c g fun x => { x with rcp := x.rcp.put n { x.recipe n with act := false, drop := false } }

/-- Entries that a write to the given vector and scalar registers clears: those that tag or source them (R266). -/
def Gang.touched (g : Gang) (vs ss : List Nat) : List Nat :=
  if g.rcp.isEmpty then []
  else
    (List.range 32).filter fun n =>
      let e := g.recipe n
      e.act && (vs.contains e.treg.toNat || e.vecOps.any vs.contains || e.scaOps.any ss.contains)

/-- What a write to registers does to recipes, before the write (R266). -/
def State.touch (s : State) (c g : Nat) (vs ss : List Nat) : State :=
  ((s.gang c g).touched vs ss).foldl (fun s n => s.clearRecipe c g n) s

/-- Rows that materialising the given entries takes. -/
def Gang.rowsNeeded (g : Gang) (ns : List Nat) : Nat :=
  (((ns.filter fun n => (g.recipe n).drop).map fun n => (g.recipe n).treg.toNat / 8).dedup.filter g.freedOcts.contains).length

/-- Do the rows that a gang waits for, or has been granted, belong to what issues in these lanes? No lane stands for the handler's write of
the gang's registers (R454). -/
def Gang.ownsRow (g : Gang) (lanes : Mask) : Bool :=
  (g.rowAt.isSome || g.rowGrant != 0) && (if lanes = 0 then g.rowLanes == 0 else lanes &&& g.rowLanes != 0)

/-- May entries be materialised now: nothing is needed, the rows are granted, or the gang's quarters have them and no gang waits ahead (R267)? -/
def State.rowsReady (s : State) (c g : Nat) (ns : List Nat) (lanes : Mask) : Bool :=
  let x := s.gang c g
  let n := x.rowsNeeded ns
  let own := x.ownsRow lanes
  n == 0 || (own && n ≤ x.rowGrant) ||
    (n ≤ (s.core c).freeFor x.seat + (if own then x.rowGrant else 0) && (own || x.rowAt.isNone) && ((s.core c).rowWait.head?.getD g) == g)

/-- The gang joins the core's waiters for rows: the entries it materialises, and the lanes of the instruction that does. What waits for rows
of the gang already stands first. -/
def State.waitRow (s : State) (c g : Nat) (ns : List Nat) (lanes : Mask) : State :=
  let x := s.gang c g
  if (x.rowAt.isSome || x.rowGrant != 0) && !x.ownsRow lanes then s
  else
    let s := s.modCore c fun k => { k with rowWait := if k.rowWait.contains g then k.rowWait else k.rowWait ++ [g] }
    s.modGang c g fun x => { x with rowAt := some (x.rowAt.getD s.now), rowNeed := x.rowsNeeded ns, rowLanes := lanes }

/-- The gang waits for rows no longer. -/
def State.rowDone (s : State) (c g : Nat) : State :=
  let x := s.gang c g
  if x.rowAt.isNone && x.rowGrant == 0 then s
  else
    let s := s.modCore c fun k => { k with rowWait := k.rowWait.filter (· != g) }
    s.setGang c g { x with rowAt := none, rowNeed := 0, rowGrant := 0, rowLanes := 0 }

/-- A gang that waits for rows may issue once they are there (R267). -/
def State.rowsThere (s : State) (c g : Nat) : Bool :=
  let x := s.gang c g
  x.rowAt.isNone || x.rowNeed ≤ x.rowGrant ||
    (x.rowNeed ≤ (s.core c).freeFor x.seat + x.rowGrant && ((s.core c).rowWait.head?.getD g) == g)

/-! ## Reading operands of the instruction under way -/

/-- Latches a gang slot reads and writes: its issue slot's, or the handler's (R134, R274). -/
def latchIdx (g : Nat) : Nat := if g = handlerSlot then 4 else g % 4

def State.latches (s : State) : Latches := s.myCore.latches.get {} (latchIdx s.focus.slot)
def State.latchVec (s : State) (l j : Nat) : DWord := s.latches.vec.get 0 (64 * l + j)
def State.latchSca (s : State) (l : Nat) : DWord := s.latches.sca.get 0 l
def State.latchValid (s : State) (l : Nat) : Bool := s.latches.owner.get none l == some s.focus.slot

/-- The captured value of operand q, if the re-issued entry holds one (R278, R279). -/
def State.captured (s : State) (q j : Nat) : Option Nat :=
  match s.focus.replay with
  | some r => if r.cap.getLsbD q then some (r.vals.get 0 (64 * q + j)).toNat else none
  | none => none

/-- A vector operand of lane `j` as it stands in the registers: `q` is its place, A to C or the fourth operand. -/
def State.rawVec (s : State) (sp : OpSpec) (f : Fields) (k : Cls) (kk : Nat) (x : Src) (j : Nat) : Nat :=
  let g := s.me
  let c := s.focus.core
  let pair (r : Nat) : Nat :=
    if k.wide f then s.vval c g r j + 2 ^ 32 * s.vval c g (r + 1) j else s.vval c g r j
  match x with
  | .reg n => pair n.toNat
  | .ind n => pair ((g.sreg n.toNat).toNat + kk)
  | .latch l => if k.wide f then (s.latchVec l.toNat j).toNat else (s.latchVec l.toNat j).toNat % 2 ^ 32
  | .imm v => (numFor sp f k).imm8 v
  | .immX => (numFor sp f k).immX f.x
  | .konst =>
    (match s.konst c g f with
     | .ok v => v
     | .error _ => 0)
  | .scal n => if k.wide f then (g.sreg n.toNat).toNat else (g.sreg n.toNat).toNat % 2 ^ 32
  | .laneNo => j
  | .bad _ => 0

/-- A vector operand of lane `j`. -/
def State.rdVec (s : State) (sp : OpSpec) (f : Fields) (q : Nat) (k : Cls) (kk : Nat) (x : Src) (j : Nat) : Nat :=
  match s.captured q j with
  | some v => v
  | none => s.rawVec sp f k kk x j

/-- A scalar, mask or uniform operand (R354, R469). -/
def State.rawSca (s : State) (sp : OpSpec) (f : Fields) (k : Cls) (x : Src) : Nat :=
  let g := s.me
  match x with
  | .reg n => if k == .m then (g.mreg n.toNat).toNat else (g.sreg n.toNat).toNat
  | .latch l => (s.latchSca l.toNat).toNat
  | .imm v =>
    (match k with
     | .sT => wrap 64 (toInt sp.immS 8 v.toNat)
     | .u | .imm8 | .imm8z => v.toNat
     | .uni => if sp.grp = 5 then v.toNat else wrap 32 (toInt true 8 v.toNat)
     | _ => wrap 64 (toInt true 8 v.toNat))
  | .immX =>
    (match k with
     | .sT => if tyBits f.ty = 64 then wrap 64 (toInt sp.immS 32 f.x.toNat) else f.x.toNat % 2 ^ tyBits f.ty
     | .u | .uni | .kX => f.x.toNat
     | _ => wrap 64 (toInt true 32 f.x.toNat))
  | .konst =>
    (match s.konst s.focus.core g f with
     | .ok v => v
     | .error _ => 0)
  | .scal n => (g.sreg n.toNat).toNat % 2 ^ 32
  | _ => 0

def State.rdSca (s : State) (sp : OpSpec) (f : Fields) (q : Nat) (k : Cls) (x : Src) : Nat :=
  match s.captured q 0 with
  | some v => v
  | none => s.rawSca sp f k x

/-- Operands A, B and C of a lane, and the scalar ones. -/
def State.va (s : State) (sp : OpSpec) (f : Fields) (j : Nat) : Nat := s.rdVec sp f 0 sp.a f.ka f.a j
def State.vb (s : State) (sp : OpSpec) (f : Fields) (j : Nat) : Nat := s.rdVec sp f 1 sp.b f.kb f.b j
def State.vc (s : State) (sp : OpSpec) (f : Fields) (j : Nat) : Nat := s.rdVec sp f 2 sp.c f.kc f.c j
def State.sa (s : State) (sp : OpSpec) (f : Fields) : Nat := s.rdSca sp f 0 sp.a f.a
def State.sb (s : State) (sp : OpSpec) (f : Fields) : Nat := s.rdSca sp f 1 sp.b f.b
def State.sc (s : State) (sp : OpSpec) (f : Fields) : Nat := s.rdSca sp f 2 sp.c f.c

/-- A displacement (R354): a signed count, from an 8-bit immediate or IMM. -/
def dispOf (f : Fields) : Src → Int
  | .imm v => toInt true 8 v.toNat
  | _ => toInt true 32 f.x.toNat

/-- The prefix's fourth operand in a lane as it stands: an immediate, or the register that holds scale byte B of the run it names (R332,
R387, R389). -/
def State.fopVal (s : State) (f : Fields) (j : Nat) : Nat :=
  match f.fop with
  | .imm v => v.toNat
  | .reg r => s.vval s.focus.core s.me (r.toNat + f.b.immNat / 4) j
  | _ => 0

/-- The register that the fourth operand reads. -/
def fopReg (f : Fields) : List Nat :=
  match f.fop with
  | .reg r => if f.fop.isZero then [] else [r.toNat + f.b.immNat / 4]
  | _ => []

/-! ## Which lanes execute (R320, R332) -/

/-- The lanes a guard lets through. -/
def guardMask (g : Gang) (f : Fields) : Mask :=
  match f.pfx with
  | some p => if p.pinv then ~~~(g.mreg p.pmask.toNat) else g.mreg p.pmask.toNat
  | none =>
    if f.guard = ⟨false, 0⟩ then BitVec.allOnes 64
    else if f.guard.inv then ~~~(g.mreg f.guard.mask.toNat) else g.mreg f.guard.mask.toNat

/-- The executing lanes: those of the issuing group that pass the guard, or the lanes of a replay entry (R279). A prefix
of mask m0 names the launched lanes and passes them all. -/
def State.execLanes (s : State) (f : Fields) : Mask :=
  match s.focus.replay with
  | some r => r.mask
  | none => s.focus.lanes &&& guardMask s.me f

/-- The lanes that PZ = 1 zeroes (R332). -/
def State.zeroLanes (s : State) (f : Fields) : Mask :=
  if (f.pfx.map fun p => p.pz).getD false then s.focus.lanes &&& ~~~(s.execLanes f) else 0

/-! ## Results (R134, R355, R373) -/

/-- Writes latch LAT: lanes of the vector part, or the scalar part. The vector part is held by the gang's lane number, whatever quarters of the
core the gang stands in; the spec names no index (DESIGN CHOICE, log entry 15). -/
def State.setLatch (s : State) (lat : Nat) (vec : List (Nat × DWord)) (sca : Option DWord) : State :=
  s.modCore s.focus.core fun k =>
    let i := latchIdx s.focus.slot
    let l := k.latches.get {} i
    { k with
      latches := k.latches.put i
        { vec := l.vec.putAll (vec.map fun p => (64 * lat + p.1, p.2)),
          sca := (match sca with
            | some v => l.sca.put lat v
            | none => l.sca),
          owner := l.owner.put lat (some s.focus.slot) } }

/-- A result that comes after the instruction has waited: its latch keeps what it held where the issue slot has passed to another gang
since, whose latches it then holds (R134, R137). -/
def State.lateLatch (s before : State) : State :=
  if s.focus.slot = handlerSlot ∨ (before.core s.focus.core).lastIssue.get none (s.focus.slot % 4) = some s.focus.slot then s
  else s.modCore s.focus.core fun k => { k with latches := (before.core s.focus.core).latches }

/-- Writes a scalar result to sD and the latch, or to the latch alone. -/
def State.wrS (s : State) (f : Fields) (v : DWord) : State :=
  let s := s.setLatch f.lat.toNat [] (some v)
  if f.nwb then s else s.modMe fun g => g.setS f.dst.toNat v

/-- Writes a mask result, cleared at and above GW (R364). -/
def State.wrM (s : State) (f : Fields) (v : Mask) : State :=
  let v := v &&& s.me.gwMask
  let s := s.setLatch f.lat.toNat [] (some v)
  if f.nwb then s else s.modMe fun g => g.setM f.dst.toNat v

/-- Writes 32-bit registers of lanes: (register, lane, value). -/
def Gang.setV (g : Gang) (l : List (Nat × Nat × Nat)) : Gang :=
  { g with v := g.v.putAll (l.map fun p => (64 * p.1 + p.2.1, BitVec.ofNat 32 p.2.2)) }

/-- Writes a vector result from register `r` in the executing lanes and zero in the lanes PZ names (R373). -/
def State.wrVAt (s : State) (f : Fields) (r : Nat) (wide : Bool) (ex zero : Mask) (val : Nat → Nat) : State :=
  let vals := (lanesOf ex).map (fun j => (j, val j % 2 ^ (if wide then 64 else 32))) ++ (lanesOf zero).map fun j => (j, 0)
  let s := s.setLatch f.lat.toNat (vals.map fun p => (p.1, BitVec.ofNat 64 p.2)) none
  if f.nwb then s
  else
    s.modMe fun g =>
      g.setV (if wide then vals.flatMap fun p => [(r, p.1, p.2 % 2 ^ 32), (r + 1, p.1, p.2 / 2 ^ 32)]
              else vals.map fun p => (r, p.1, p.2))

/-- Writes a vector result to the instruction's destination. -/
def State.wrV (s : State) (f : Fields) (wide : Bool) (ex zero : Mask) (val : Nat → Nat) : State :=
  s.wrVAt f (dstReg s.me f) wide ex zero val

/-- Writes a run of registers from `r`; the latch takes the first two (R373). `val k j` is register k of lane j. -/
def State.wrRun (s : State) (f : Fields) (r n : Nat) (ex zero : Mask) (val : Nat → Nat → Nat) : State :=
  let row (v : Nat → Nat) (j : Nat) : List (Nat × Nat × Nat) := (List.range n).map fun k => (r + k, j, v k)
  let lat (v : Nat → Nat) : DWord := BitVec.ofNat 64 (v 0 % 2 ^ 32 + (if 1 < n then v 1 % 2 ^ 32 * 2 ^ 32 else 0))
  let s := s.setLatch f.lat.toNat
    ((lanesOf ex).map (fun j => (j, lat fun k => val k j)) ++ (lanesOf zero).map fun j => (j, 0)) none
  s.modMe fun g =>
    g.setV ((lanesOf ex).flatMap (fun j => row (fun k => val k j) j) ++ (lanesOf zero).flatMap fun j => row (fun _ => 0) j)

/-! ## Ending an instruction -/

/-- The replay entry under way is done. -/
def State.popReplay (s : State) : State :=
  match s.focus.replay with
  | some _ => s.modMe fun g => { g with replay := g.replay.drop 1 }
  | none => s

/-- The instruction under way counts as issued. -/
def State.issued (s : State) : State := { s with focus := { s.focus with done := true } }

/-- The lanes of the group move on, each to its own next address and stamp increment (R124, R366). -/
def State.moveOn (s : State) (next : Nat → DWord × Nat) : State :=
  let s := s.popReplay.issued
  s.modMe fun g =>
    { g with
      waits := g.waits.filter fun w => w.lanes &&& s.focus.lanes == 0
      lanes := g.lanes.putAll ((lanesOf s.focus.lanes).map fun j =>
        let x := g.lane j
        (j, { x with pc := (next j).1, stamp := x.stamp + BitVec.ofNat 32 (next j).2 })) }

/-- The instruction has issued and waits: its lanes offer no other until it ends (R128). A later trap of the gang has a higher number (R278). -/
def State.waitIn (s : State) (w : Wait) : State :=
  { s.popReplay.issued.modMe (fun g => { g with waits := w :: g.waits }) with nextId := s.nextId + 1 }

/-- Address of the next instruction. -/
def State.pcNext (s : State) : DWord := s.focus.pc + BitVec.ofNat 64 s.focus.len

/-- Ends an instruction that every lane of the group continues after. -/
def State.finish (s : State) : State := s.moveOn fun _ => (s.pcNext, 0)

/-! ## Raising a trap from the instruction under way -/

/-- The operands an instruction reads as lanes or scalars: place, class, K field and source. -/
def operandList (sp : OpSpec) (f : Fields) : List (Nat × Cls × Nat × Src) :=
  [(0, sp.a, f.ka, f.a), (1, sp.b, f.kb, f.b), (2, sp.c, f.kc, f.c)]

/-- The values a trap of stage 2 or later captures (R278): those that were read, which a constant whose read has failed was not; a
cross-lane instruction has read every live lane. -/
def State.capture (s : State) (sp : OpSpec) (f : Fields) (lanes : Mask) : BitVec 4 × SMap DWord :=
  let lanes := if sp.grp = 5 then lanes ||| s.me.liveLanes else lanes
  let fourth (j : Nat) : Nat := (s.captured 3 j).getD (s.fopVal f j)
  let acc0 : BitVec 4 × SMap DWord :=
    if sp.fourth && !f.fop.isZero then (8, SMap.putAll [] ((lanesOf lanes).map fun j => (192 + j, BitVec.ofNat 64 (fourth j)))) else (0, [])
  let unread (x : Src) : Bool := x == .konst && (match s.konst s.focus.core s.me f with
    | .ok _ => false
    | .error _ => true)
  (operandList sp f).foldl (fun (acc : BitVec 4 × SMap DWord) (o : Nat × Cls × Nat × Src) =>
    let (q, k, kk, x) := o
    if unread x then acc
    else if k.isScalar then (acc.1 ||| (1 <<< q), acc.2.put (64 * q) (BitVec.ofNat 64 (s.rdSca sp f q k x)))
    else if k == .v || k == .v32 || k == .v64 || k == .off then
      (acc.1 ||| (1 <<< q), acc.2.putAll ((lanesOf lanes).map fun j => (64 * q + j, BitVec.ofNat 64 (s.rdVec sp f q k kk x j))))
    else acc) acc0

/-- The base word, X and CTL as one number, zeros above (R278). -/
def baseBits (i : Instr) (f : Fields) : BitVec 128 :=
  let l := (encode i).drop (if f.pfx.isSome then 4 else 0)
  BitVec.ofNat 128 (l.foldr (fun b acc => acc * 256 + b.toNat) 0)

def pfxBits (f : Fields) : Word :=
  match f.pfx with
  | some p => encodePfx p
  | none => 0

/-- What a trap says beside its causes. -/
structure TrapInfo where
  inner : Nat := 0
  rcp : Nat := 0
  fetch : Bool := false
  /-- Address of a faulting lane, by lane. -/
  va : Nat → DWord := fun _ => 0

/-- INNER: the given one, or mesh route failure for a machine check (R40, R293). -/
def TrapInfo.innerOf (x : TrapInfo) (causes : Causes) : BitVec 8 :=
  if x.inner = 0 ∧ (causes.head?.map (·.1)) = some cMachineCheck then 8 else BitVec.ofNat 8 x.inner

/-- Raises a precise trap (R272): nothing has changed; MASK holds `mask`. A trap of stage 2 or later, and a jump to a misaligned
target, has read its operands. -/
def State.trapPrecise (s : State) (i : Instr) (sp : OpSpec) (f : Fields) (causes : Causes) (mask : Mask) (info : TrapInfo) : State :=
  let st := stageOf (firstCode causes)
  let (cap, vals) := if 2 ≤ st || causes == [(cFetchAlign, mask)] then s.capture sp f mask else (0, [])
  let entry : Replay :=
    { base := baseBits i f, pfx := pfxBits f, pc := s.focus.pc, mask, group := s.focus.lanes,
      cause := BitVec.ofNat 8 (firstCode causes), cap, vals, seq := s.nextId }
  s.popReplay.takeTrap s.focus.core
    { slot := s.focus.slot, causes, inner := info.innerOf causes, rcp := BitVec.ofNat 5 info.rcp, fetch := info.fetch,
      va := info.va causes.reportedLane, raised := s.timeAt s.myCluster, entry }

/-- The replay entry of lanes that end an instruction with a cause; `s0` is the state the operands were read in. -/
def State.lateEntry (s0 : State) (i : Instr) (sp : OpSpec) (f : Fields) (mask : Mask) (code : Nat) : Replay :=
  let (cap, vals) := s0.capture sp f mask
  { base := baseBits i f, pfx := pfxBits f, pc := s0.focus.pc, mask, group := 0, cause := BitVec.ofNat 8 code, cap, vals, seq := s0.nextId }

/-- Raises a late trap (R273): the lanes without a cause have completed and moved on; the entry holds the others. `s0` is
the state the operands were read in. -/
def State.trapLate (s s0 : State) (i : Instr) (sp : OpSpec) (f : Fields) (causes : Causes) (info : TrapInfo) : State :=
  let entry := s0.lateEntry i sp f causes.lanes (firstCode causes)
  s.takeTrap s.focus.core
    { slot := s.focus.slot, causes, inner := info.innerOf causes, rcp := BitVec.ofNat 5 info.rcp,
      va := info.va causes.reportedLane, raised := s.timeAt s.myCluster, entry }

/-! ## The frame of every instruction -/

/-- Causes of stage 1 that the encoding and the register numbers show (R334): in every lane of the issuing group. -/
def State.encCauses (s : State) (sp : OpSpec) (f : Fields) (extra : Causes) : Causes :=
  let g := s.me
  let all := s.focus.lanes
  let regs := srcRegOk g f sp.a f.ka f.a && srcRegOk g f sp.b f.kb f.b && srcRegOk g f sp.c f.kc f.c && dstRegOk g sp f
  Causes.addIf (!encodingOk sp f) cIllegalEncoding all
    (Causes.addIf (!prefixOk sp f || !slotFits s g sp f) cIllegalPrefix all
      (Causes.addIf (!regs) cRegRange all extra))

/-- The vector registers the sources read; `rdrop` and `rmat` read none (R433). -/
def State.srcRegs (s : State) (sp : OpSpec) (f : Fields) : List Nat :=
  (operandList sp f).flatMap fun o =>
    let (_, k, kk, x) := o
    if k.vectorReg && !(sp.grp == 9 && k == .vreg) then
      match srcReg s.me kk x with
      | some r => if k.wide f then [r, r + 1] else [r]
      | none => []
    else []

def usesLatch (f : Fields) : List Nat :=
  [f.a, f.b, f.c].filterMap fun x =>
    match x with
    | .latch l => some l.toNat
    | _ => none

/-- LATCH_LOST (R137). -/
def State.lostCauses (s : State) (f : Fields) (ex : Mask) : Causes :=
  if (usesLatch f).any fun l => !s.latchValid l then Causes.add cLatchLost ex [] else []

/-- The fault of a constant operand (R180). -/
def State.konstCauses (s : State) (f : Fields) (ex : Mask) : Causes :=
  if usesKonst f then
    (match s.konst s.focus.core s.me f with
     | .ok _ => []
     | .error e => Causes.add e ex [])
  else []

/-- A constant operand has to be waited for. -/
def State.konstWaits (s : State) (f : Fields) : Bool :=
  usesKonst f && (match s.konst s.focus.core s.me f with
    | .error e => e == cWaits
    | .ok _ => false)

/-- No lane's address depends on a constant that could not be read: operand A or B. -/
def addrRead (f : Fields) : Bool := f.a != .konst && f.b != .konst

/-- The instructions the handler gang lacks the resources for, and those only it may issue (R436, R452, R470). -/
def State.handlerFault (s : State) (sp : OpSpec) (f : Fields) : Bool :=
  if s.me.isHandler then sp.noHandler || f.pslo != 0 else sp.handlerOnly

/-- The scalar registers that an instruction reads: scalar sources, indirect and scalar register numbers, and the index of an indirect
destination. -/
def scaSrc (sp : OpSpec) (f : Fields) : List Nat :=
  ((operandList sp f).flatMap fun o =>
    match o.2.2.2 with
    | .reg n => if o.2.1.isScalar && o.2.1 != .m then [n.toNat] else []
    | .ind n => [n.toNat]
    | .scal n => [n.toNat]
    | _ => []) ++ if f.dind then [f.ds] else []

/-- What an instruction that waits still owes: its latch, its vector registers, and its scalar register (R129). -/
def Wait.owes (w : Wait) : Option (Nat × List Nat × List Nat) :=
  match w.ins with
  | none => none
  | some f =>
    if w.bar.isSome then some (f.lat.toNat, [], if f.nwb then [] else [f.dst.toNat])
    else if w.sysw.isSome || w.tl.isSome || !(w.ldfe || f.m58) then none
    else some (f.lat.toNat, (if f.nwb then [] else if w.ldfe && f.m58 then [w.dst, w.dst + 1] else [w.dst]), [])

/-- Registers and latches whose value an access in flight, or an instruction that waits, still owes (R129, R273): an instruction that names
one is not issued. A vector register is owed in the lanes of the access; instructions across lanes and runs read every lane. -/
def State.pendBusy (s : State) (sp : OpSpec) (f : Fields) (regs scal : List Nat) : Bool :=
  let run := sp.a == .run || sp.c == .run || sp.dst == .run
  let lanes : Mask := if run || sp.grp == 5 || sp.grp == 8 then BitVec.allOnes 64 else s.focus.lanes
  let named (l : Nat) : Bool := s.latchValid l && ((usesLatch f).contains l || (sp.dst != .none && f.lat.toNat == l))
  (s.pends.any fun p =>
    p.core == s.focus.core && p.slot == s.focus.slot && p.kind.returns &&
      ((lanes.getLsbD p.lane && match p.dst with
        | some r => run || regs.contains r || ((p.ty.toNat == 0xa || p.ty.toNat == 0xb) && regs.contains (r + 1))
        | none => false) || named p.lat)) ||
    s.me.waits.any fun w =>
      match w.owes with
      | none => false
      | some (l, vs, ss) =>
        ((w.ex ||| w.zero) &&& lanes != 0 && (vs.any fun r => run || regs.contains r)) || ss.any (scaSrc sp f ++ scal).contains || named l

/-- Is a value in flight into one of the registers of the gang (R129, R273)? -/
def State.landing (s : State) (regs : List Nat) : Bool :=
  s.pends.any fun p =>
    p.core == s.focus.core && p.slot == s.focus.slot &&
      (match p.dst with
       | some r => regs.contains r || ((p.ty.toNat == 0xa || p.ty.toNat == 0xb) && regs.contains (r + 1))
       | none => false)

/-- Registers of an outstanding matrix entry's A run that are not yet read (R241). -/
def Gang.matrixHolds (g : Gang) (regs : List Nat) : Bool :=
  [4, 5].any fun n => (g.ctx n).mats.any fun m => !m.left.isEmpty && regs.any fun r => m.areg ≤ r && r < m.areg + m.regs

/-- What an instruction does beyond the frame: further encoding causes, the registers whose dropped values it reads in which
lanes, the vector and scalar registers it writes, the checks of stages 1 to 3 over the executing lanes, and its effect. -/
structure Plan where
  enc : Causes := []
  /-- Registers read beyond those its sources name. -/
  reads : List Nat := []
  vs : List Nat := []
  ss : List Nat := []
  /-- Vector registers that it materialises (R266). -/
  mat : List Nat := []
  /-- Stage 1 causes of executing lanes beyond those of the encoding. -/
  first : Mask → Causes := fun _ => []
  checks : Mask → Causes := fun _ => []
  va : Nat → DWord := fun _ => 0
  inner : Nat := 0
  rcp : Nat := 0
  /-- The cause is a fetch fault (R434). -/
  fetch : Bool := false
  /-- The addresses that it translates. -/
  walks : Mask → List Nat := fun _ => []
  /-- The instruction is not issued yet: an order or a resource it waits for. -/
  stall : Mask → Bool := fun _ => false
  /-- The instruction is not issued, and its gang is not eligible, until there is room (R45, R172, R225). -/
  hold : Mask → Option Stall := fun _ => none
  /-- What a replay that the instruction runs itself waits for. -/
  need : Option ReplayErr := none
  /-- The dropped registers that it needs are replayed after its checks (R421, R434). -/
  late : Bool := false
  /-- It writes no register: its destination is not among what it touches (R363). -/
  idle : Bool := false
  /-- No trap beyond stage 1 (R409). -/
  quiet : Bool := false

/-- The state in which an instruction's effect comes about: the recipes that its writes touch are settled, the registers it
materialises are written and its constants are fetched (R181, R266, R267). -/
def State.readied (s : State) (f : Fields) (vs ss mat : List Nat) : State :=
  let s := if s.me.ownsRow s.focus.lanes then s.rowDone s.focus.core s.focus.slot else s
  let s := s.touch s.focus.core s.focus.slot vs ss
  let s := (mat.filterMap s.me.droppedAs).foldl (fun s n => s.materialise s.focus.core s.focus.slot n) s
  s.konstFill s.focus.core s.me f

/-- An operand of the instruction needs a recipe replay (R135, R136). -/
def State.markReplay (s : State) (regs : List Nat) : State :=
  if !s.me.rcp.isEmpty && regs.any fun r => (s.me.droppedAs r).isSome then { s with focus := { s.focus with replayed := true } } else s

/-- Causes of stage 1 that executing lanes meet beyond those of the encoding. -/
def State.firstCauses (s : State) (f : Fields) (p : Plan) (ex : Mask) : Causes :=
  if ex = 0 then [] else Causes.merge (s.lostCauses f ex) (p.first ex)

/-- Causes of the constants and of the instruction's own checks; no check that depends on a constant that could not be read, or that
still waits for what it needs. -/
def State.laterCauses (s : State) (f : Fields) (p : Plan) (ex : Mask) : Causes :=
  if ex = 0 then []
  else
    let k := s.konstCauses f ex
    (if k.isEmpty then p.checks ex else if addrRead f then Causes.least k (p.checks ex) else k).filter fun p => p.1 != cWaits

/-- The instruction's causes beside a replay's: each lane stops at the first check it fails (R271). -/
def State.ownCauses (s : State) (f : Fields) (p : Plan) (ex : Mask) : Causes :=
  let early := s.firstCauses f p ex
  if early.isEmpty then s.laterCauses f p ex else Causes.least early (s.laterCauses f p ex)

/-- Do the instruction's own causes come before a replay's: RECIPE_FAULT is of stage 1 (R268, R270)? -/
def State.beforeReplay (s : State) (f : Fields) (p : Plan) (ex : Mask) : Bool :=
  if p.late then !(s.ownCauses f p ex).isEmpty
  else !(s.firstCauses f p ex).isEmpty && firstCode (s.firstCauses f p ex) < cRecipeFault

/-- The pages whose walks have not started yet are asked for (R172). -/
def State.askWalks (s : State) (vas : List Nat) : State :=
  let (asn, root) := s.space s.me
  (vas.filter fun va => !s.walkOpen s.focus.core asn root va).foldl (fun (s : State) va => s.askWalk s.focus.core asn root va) s

/-- What keeps an instruction from issuing: a constant to be waited for, then an order or a resource. An instruction that a cause of
its sources already stops waits for neither. -/
def State.waitsFirst (s : State) (f : Fields) (p : Plan) (ex : Mask) : Option State :=
  if !(s.firstCauses f p ex).isEmpty then none
  else if s.konstWaits f then some (s.askWalks (s.konstVas s.me f))
  else if !(s.konstCauses f ex).isEmpty then none
  else
    match p.need with
    | some e => some (s.replayFetch s.focus.core s.me e)
    | none =>
      if p.stall ex then some (s.askWalks (p.walks ex))
      else (p.hold ex).map fun h => (s.askWalks (p.walks ex)).modMe fun g => { g with stall := some h }

/-- Does an instruction act on each executing lane by itself? One that does not consumes its data as a whole. -/
def laneWise (sp : OpSpec) (f : Fields) : Bool :=
  sp.grp == 2 || sp.grp == 3 || (sp.grp == 4 && (sp.op == 0 || sp.op == 4 || sp.op == 5)) ||
    (sp.grp == 6 && (sp.op == 0 || sp.op == 1) && !f.ctl.fmte) || (sp.grp == 7 && (sp.op == 0 || sp.op == 1))

/-- An instruction that consumes data in error (R293): a machine check in the lanes that consume it, which completes in the others (R273). -/
def State.consume (s t : State) (i : Instr) (f : Fields) (sp : OpSpec) (e : Ecc) (ex zero : Mask) (body : State → Mask → Mask → Out) : Out :=
  let info : TrapInfo := { inner := e.source.toNat, va := fun _ => e.va }
  let bad := if ex &&& e.mask = 0 then ex else ex &&& e.mask
  if laneWise sp f then
    let t := t.modMe fun g => { g with ecc := none }
    match body t (ex &&& ~~~bad) zero with
    | .next u => .next (u.trapLate t i sp f [(cMachineCheck, bad)] info)
    | o => o
  else .next ((s.modMe fun g => { g with ecc := none }).trapPrecise i sp f [(cMachineCheck, ex)] ex info)

/-- THE FRAME. Stage 1 causes of the encoding come first, at every issue; with no lane to execute and none to zero the
instruction only moves on; then the handler's limits, what the instruction must wait for, and the checks of stages 1 to 3
over the executing lanes. A cause in any lane is a precise trap and nothing else changes (R171, R271, R272). The effect
runs with the recipes that its writes touch already settled (R266). -/
def State.issue (s : State) (i : Instr) (f : Fields) (sp : OpSpec) (p : Plan) (body : State → Mask → Mask → Out) : Out :=
  let enc := s.encCauses sp f p.enc
  let ex := s.execLanes f
  let zero := s.zeroLanes f
  if !enc.isEmpty then .next (s.trapPrecise i sp f enc ex { })
  else if ex = 0 ∧ zero = 0 then .next s.finish
  else if ex ≠ 0 ∧ s.handlerFault sp f then .next (s.trapPrecise i sp f [(cPermFault, ex)] ex { })
  else
    let regs := s.srcRegs sp f ++ p.reads
    if s.pendBusy sp f (regs ++ p.vs) p.ss || s.me.matrixHolds p.vs then .next s
    else
      match s.waitsFirst f p ex with
      | some t => .next t
      | none =>
        let ns := s.me.touched p.vs p.ss ++ p.mat.filterMap s.me.droppedAs
        let own := s.ownCauses f p ex
        let replay := if s.beforeReplay f p ex then none
          else s.replayFault s.focus.core s.me (regs ++ ns.map fun n => (s.me.recipe n).treg.toNat)
        let s := s.markReplay regs
        match replay with
        | some e =>
          if e.waits then .next (s.replayFetch s.focus.core s.me e)
          else .next (s.trapPrecise i sp f [(cRecipeFault, ex)] ex { inner := e.inner, rcp := e.rcp, va := fun _ => e.va })
        | none =>
          if !own.isEmpty then
            if p.quiet && 2 ≤ stageOf (firstCode own) then .next s.finish
            else .next (s.trapPrecise i sp f own ex { inner := p.inner, rcp := p.rcp, va := p.va, fetch := p.fetch })
          else if !s.rowsReady s.focus.core s.focus.slot ns s.focus.lanes then
            .next (s.waitRow s.focus.core s.focus.slot ns s.focus.lanes)
          else
            match if ex = 0 then none else s.me.ecc with
            | none => body (s.readied f p.vs p.ss p.mat) ex zero
            | some e => s.consume (s.readied f p.vs p.ss p.mat) i f sp e ex zero body

/-- Registers a vector destination writes. -/
def State.dstRegs (s : State) (sp : OpSpec) (f : Fields) : List Nat :=
  if sp.dst.isVector && !f.nwb then
    (if sp.dst.wide f then [dstReg s.me f, dstReg s.me f + 1] else [dstReg s.me f])
  else []

/-- Registers a scalar destination writes. -/
def scaDst (sp : OpSpec) (f : Fields) : List Nat :=
  if (sp.dst == .sT || sp.dst == .s) && !f.nwb && f.dst != 0 then [f.dst.toNat] else []

/-- Runs an instruction: its entry in the reference, its plan, its effect. -/
def State.run (s : State) (i : Instr) (f : Fields) (p : OpSpec → Plan) (body : OpSpec → State → Mask → Mask → Out) : Out :=
  match opSpec i with
  | some sp =>
    s.issue i f sp { p sp with vs := (p sp).vs ++ (if (p sp).idle then [] else s.dstRegs sp f), ss := (p sp).ss ++ scaDst sp f } (body sp)
  | none => .next s

end Machine
end Sys2Proof
end

