-- ==== Sys2Proof/Machine/Fetch.lean ====
section
/-! DEFINITION. Which group issues, fetching its instruction, gang switches and holds (R113, R114, R125 to R137, R186, R315 to
R317), and the passing of time. -/

namespace Sys2Proof.Machine

/-! ## Keys and groups (R125, R126) -/

/-- a is before b: stamps by their signed difference, then addresses (R124, R125). -/
def keyLt (a b : Word × DWord) : Bool :=
  if a.1 = b.1 then a.2 < b.2 else (a.1 - b.1).msb

/-- The key of a slice: the least (stamp, PC) of its running lanes. -/
def Gang.sliceKey (g : Gang) (k : Nat) : Option (Word × DWord) :=
  (List.range 4).foldl (fun (acc : Option (Word × DWord)) i =>
    let j := 4 * k + i
    if g.running j then
      let key := ((g.lane j).stamp, (g.lane j).pc)
      match acc with
      | none => some key
      | some a => some (if keyLt key a then key else a)
    else acc) none

/-- Does a lane wait inside an instruction of its group? -/
def Gang.waiting (g : Gang) (j : Nat) : Bool := g.waits.any fun w => (w.lanes ||| w.ex).getLsbD j

/-- Does some lane of a slice wait? Its group has issued its instruction and not completed it, so the slice offers none (R125, R128). -/
def Gang.sliceWaits (g : Gang) (k : Nat) : Bool := (List.range 4).any fun i => g.waiting (4 * k + i)

/-- The active-mask lanes of the group that holds lane `j`'s slice, and its address (R125, R126); none while it waits (R128). -/
def Gang.group (g : Gang) (j : Nat) : Option (Mask × DWord) :=
  if g.sliceWaits (j / 4) then none
  else
    match g.sliceKey (j / 4) with
    | none => none
    | some key =>
      some (maskOf g.gw (fun i => g.running i && ((g.lane i).stamp, (g.lane i).pc) == key && g.sliceKey (i / 4) == some key &&
        !g.sliceWaits (i / 4)), key.2)

/-! ## Fetch (R186, R271, R315) -/

/-- The instruction line that holds a translated address, as the core's cache or the L2 gives it. -/
def State.codePeek (s : State) (c : Nat) (t : Trans) : BitVec 512 :=
  match (s.core c).icache.find? fun p => p.1 == t.pa / 64 with
  | some p => p.2
  | none => BitVec.ofNat 512 (s.engineRead c { t with pa := t.pa / 64 * 64 } 64).2

/-- Brings the line into the instruction cache; a full set of its 256, 4-way, loses a line. The spec names no index of
the sets: it is PA[13:6] (DESIGN CHOICE, log entry 10). -/
def State.codeFill (s : State) (c : Nat) (t : Trans) : State :=
  match (s.core c).icache.find? fun p => p.1 == t.pa / 64 with
  | some _ => s
  | none =>
    let (s, v) := s.engineRead c { t with pa := t.pa / 64 * 64 } 64
    s.modCore c fun k =>
      let set := k.icache.filter fun p => p.1 % 256 == t.pa / 64 % 256
      let old := if set.length < 4 then k.icache else k.icache.drop fun q => some q == (set[Config.victim (t.pa / 64) % 4]?).map (·.1)
      { k with icache := SMap.put old (t.pa / 64) (BitVec.ofNat 512 v) }

/-- Can the line be brought in now: nothing that its read needs has to be waited for? -/
def State.codeOpen (s : State) (c : Nat) (t : Trans) : Bool :=
  ((s.core c).icache.find? fun p => p.1 == t.pa / 64).isSome ||
    (match t.kind with
     | .coherent => s.cohOpen c t.pa false
     | _ => (s.l2Line (clusterOf c) (t.pa / 64)).valid || s.homeOpen c (t.pa / 2 ^ 27))

/-- Bytes from an address to the end of its 32-byte fetch block, out of the line that holds it. -/
def blockBytes (line : BitVec 512) (pa : Nat) : List Byte :=
  (List.range (32 - pa % 32)).map fun i => BitVec.ofNat 8 (line.toNat / 2 ^ (8 * (pa % 64 + i)))

/-- Where an instruction at `pc` is fetched from, or the cause the fetch fails with. -/
def State.codeAt (s : State) (c : Nat) (g : Gang) (pc : DWord) : Except Nat Trans :=
  match s.translateFor c g pc.toNat .fetch with
  | .error e => .error e
  | .ok t =>
    if ((s.core c).icache.find? fun p => p.1 == t.pa / 64).isSome then .ok t
    else
      match s.reach c t 1 false with
      | some e => .error e
      | none => .ok t

/-- The unit at `pc`, with nothing brought in. -/
def State.unitAt (s : State) (c : Nat) (g : Gang) (pc : DWord) : Option Unit32 :=
  match s.codeAt c g pc with
  | .error _ => none
  | .ok t => some (decodeUnit (blockBytes (s.codePeek c t) t.pa))

/-- Does the next instruction at `pc`, past pad words, name a latch as a source? -/
def State.nextNamesLatch (s : State) (c : Nat) (g : Gang) : Nat → DWord → Bool
  | 0, _ => false
  | n + 1, pc =>
    match s.unitAt c g pc with
    | some (.instr i _) => (i.fields?.map fun f => !(usesLatch f).isEmpty).getD false
    | some .pad => State.nextNamesLatch s c g n (pc + 4)
    | _ => false

/-! ## Holds and switches (R113, R114, R135, R137) -/

/-- The issue slot an issue of the gang takes: its own, where no other gang holds it; for the handler the lowest with no
hold. -/
def CoreSt.issueSlot (k : CoreSt) (g : Nat) : Option Nat :=
  if g = handlerSlot then (List.range 4).find? fun i => (k.holds.get none i).isNone
  else
    match k.holds.get none (g % 4) with
    | none => some (g % 4)
    | some h => if h.slot = g then some (g % 4) else none

/-- A refused record of the gang has come back and waits for room in its own core's queue (R105). -/
def State.postStuck (s : State) (c g : Nat) : Bool :=
  s.packets.any fun p => match p.body with
    | .post _ _ slot => p.nack && p.taken && p.reinjected && p.src == c && slot == g
    | _ => false

/-- Broadcast stores of a cluster on a bus that wait in its transmitter's queue or are on their way to it (R45). -/
def State.busQueued (s : State) (bus k : Nat) : Nat :=
  s.txQueue bus k + (s.packets.filter fun p => match p.body with
    | .store off _ _ => busOf off == bus && clusterOf p.src == k
    | _ => false).length

/-- CHRINGn (R225): EN, LOG, BASE, its entries, and whether an engine instruction takes it. -/
def ringEn (r : DWord) : Bool := r.getLsbD 0
def ringLog (r : DWord) : Nat := bits r.toNat 8 4
def ringBase (r : DWord) : Nat := bits r.toNat 12 45 * 4096
def ringSize (r : DWord) : Nat := 64 * 2 ^ ringLog r
def ringOk (r : DWord) : Bool := ringEn r && ringLog r ≤ 10 && ringBase r % (64 * ringSize r) == 0

/-- Address of the ring slot of entry number n + 1. -/
def ringSlot (r : DWord) (n : Nat) : Nat := ringBase r + 64 * (n % ringSize r)

/-- The ring is full: an entry is not issued. -/
def Gang.ringFull (g : Gang) (n : Nat) : Bool :=
  let x := g.ctx n
  ringOk x.chring && ringSize x.chring ≤ (x.tliss - x.tlcnt).toNat

/-- Outstanding matrix entries of the gang that write a tile. -/
def Gang.tileBusy (g : Gang) (t : Nat) : Bool :=
  [4, 5].any fun n => (g.ctx n).mats.any fun m => m.tile ≤ t && t < m.tile + m.tiles

/-- What the gang waited for has come (R45, R172, R225, R425, R446). -/
def State.stallOver (s : State) (c g : Nat) : Bool :=
  match (s.gang c g).stall with
  | none => true
  | some (.bus b) => s.busQueued b (clusterOf c) < 64
  | some (.ring n) => !(s.gang c g).ringFull n
  | some (.tile t) => !(s.gang c g).tileBusy t
  | some .walks => (s.cluster (clusterOf c)).walks.length < 256
  | some (.records p n) => s.recRoom c p n

/-- Do the cores' clocks run (R23, R54, R56, R73, R88)? In phase 3, in an ON region that stage 3 has not emptied here, out of reset, and
named by a valid entry. -/
def State.coreRuns (s : State) (c : Nat) : Bool :=
  let r := s.region (regionOf (clusterOf c))
  s.phase == 3 && r.st == .on && !(s.core c).inReset && entryV (s.tableAt (clusterOf c) c) &&
    (r.stage < 3 || (s.core c).gangs.any fun p => p.2.seat.used)

/-- Are the engines of a core clocked (R54, R73), out of reset and named by a valid entry (R23, R56)? -/
def State.enginesUp (s : State) (c : Nat) : Bool :=
  s.phase == 3 && (s.region (regionOf (clusterOf c))).st == .on && !(s.core c).inReset && entryV (s.tableAt (clusterOf c) c)

/-- Do the engines and the matrix array of a core run: up, and not halted (R301)? -/
def State.enginesRun (s : State) (c : Nat) : Bool := s.enginesUp c && !(s.cluster (clusterOf c)).halted

/-- A `sysw` of the gang that has to wait holds the whole gang: it is performed before the gang's next instruction issues (R225, R454, R467). -/
def Gang.syswWaits (g : Gang) : Bool := g.waits.any fun w => w.sysw.isSome

/-- Is the gang free to issue: alive, on a core that runs, not stopped by a trap, a save, a debugger, its body's end, a full queue, a `sysw`
under way, a wait for rows, a sample of its issue slot to be written (R311) or a halt? -/
def State.canIssue (s : State) (c g : Nat) : Bool :=
  let x := s.gang c g
  s.coreRuns c && x.live && !x.trapped && !x.ending && x.saveStop.isNone && !s.postStuck c g && s.stallOver c g && !x.syswWaits && s.rowsThere c g &&
    (if g = handlerSlot then !(s.core c).hStopped
     else (!x.gdbStop || x.gdbStep) && ((s.core c).sampled.get none (g % 4)).isNone && !(s.cluster (clusterOf c)).halted)

/-- The issue slot passes to gang `g`: the latches of the gang switched away become invalid. The handler's own are not
among them. -/
def State.switchTo (s : State) (c g slot : Nat) : State :=
  s.modCore c fun k =>
    match k.lastIssue.get none slot with
    | some p =>
      if p = g ∨ p = handlerSlot then { k with lastIssue := k.lastIssue.put slot (some g) }
      else
        let l := k.latches.get {} slot
        { k with
          lastIssue := k.lastIssue.put slot (some g)
          latches := k.latches.put slot { l with owner := l.owner.map fun q => (q.1, if q.2 = some p then none else q.2) } }
    | none => { k with lastIssue := k.lastIssue.put slot (some g) }

/-- Sets the hold of an issue slot. -/
def State.setHold (s : State) (c slot : Nat) (h : Option Hold) : State :=
  s.modCore c fun k => { k with holds := k.holds.put slot h }

/-- The hold after an issue (R135): `replayed` says whether an operand was replayed. A trap has already ended it. -/
def State.holdAfter (s : State) (slot : Nat) (i : Instr) (replayed : Bool) : State :=
  let c := s.focus.core
  let g := s.me
  if s.focus.slot = handlerSlot ∨ g.trapped then s
  else
    match opSpec i, i.fields? with
    | some sp, some f =>
      let keyed (j : Nat) : Bool := g.running j && g.sliceKey (j / 4) == some ((g.lane j).stamp, (g.lane j).pc)
      let next := (((lanesOf s.focus.lanes).filter keyed).map fun j => (g.lane j).pc).dedup
      let chain := !sp.switch && !replayed && (f.nwb || next.any fun pc => s.nextNamesLatch c g 8 pc)
      let count := match (s.core c).holds.get none slot with
        | some h => h.count + 1
        | none => 1
      if chain && count < 16 then
        s.setHold c slot (some { slot := s.focus.slot, count, since := s.cycles s.myCluster })
      else s.setHold c slot none
    | _, _ => s

/-! ## Re-issue of replay entries (R278, R279) -/

/-- The instruction of a replay entry: its prefix and base words. -/
def Replay.unit (r : Replay) : Unit32 :=
  decodeUnit ((if r.pfx = 0 then [] else bytesOf 4 r.pfx.toNat) ++ bytesOf 16 r.base.toNat)

/-- Bytes of the instruction of an entry, from the length code and the prefix. -/
def Replay.len (r : Replay) : Nat :=
  (if r.pfx = 0 then 0 else 4) + (match bits r.base.toNat 0 2 with
    | 0 => 8
    | 1 => 12
    | _ => 16)

/-! ## What issues next -/

/-- What a move of the agenda comes to: a state, or an instruction to run in a state. -/
inductive Ready where
  | stay (s : State)
  | go (i : Instr) (slot : Nat) (s : State)
  deriving DecidableEq, Repr

/-- A stage 1 trap of words that are no instruction, or a fetch fault (R271): in the group's whole active mask. It completes a single step
(R299). -/
def State.rawTrap (s : State) (causes : Causes) (fetch : Bool) (base : BitVec 128) (pfx : Word) : State :=
  let m := s.focus.lanes
  (s.popReplay.modMe fun g => { g with gdbStep := false }).takeTrap s.focus.core
    { slot := s.focus.slot, causes, inner := if firstCode causes = cMachineCheck then 8 else 0, fetch, va := if fetch then s.focus.pc else 0
      raised := s.timeAt s.myCluster
      entry := { base, pfx, pc := s.focus.pc, mask := m, group := m, cause := BitVec.ofNat 8 (firstCode causes), cap := 0, vals := [], seq := s.nextId } }

def DecodeFault.cause : DecodeFault → Nat
  | .tooShort => cFetchAlign
  | .illegalOpcode => cIllegalOpcode
  | .illegalPrefix => cIllegalPrefix
  | _ => cIllegalEncoding

/-- The causes of a unit that is no instruction (R333, R334): its own, and with an operation that need not be known those that its prefix
word shows by itself. -/
def DecodeFault.causes (e : DecodeFault) (pfx : Word) (m : Mask) : Causes :=
  match e with
  | .illegalEncoding | .illegalPrefix =>
    if pfx = 0 then [(DecodeFault.cause e, m)]
    else
      let p := decodePfx pfx
      let badKind := match p.fop with
        | .bad _ => true
        | _ => false
      Causes.addIf (6 ≤ p.prm.toNat || badKind) cIllegalEncoding m
        (Causes.addIf (p.pmask == 0 && p.pinv || p.fop.usesX) cIllegalPrefix m [(DecodeFault.cause e, m)])
  | _ => [(DecodeFault.cause e, m)]

/-- The base words and the prefix word at the start of a block's bytes (R278). -/
def rawWords (b : List Byte) : BitVec 128 × Word :=
  let le (l : List Byte) : Nat := l.foldr (fun x acc => acc * 256 + x.toNat) 0
  let w := le (b.take 4)
  let isPfx := w % 4 == 3 && w / 2 ^ 24 == 0
  let rest := if isPfx then b.drop 4 else b
  let n := if le (rest.take 4) % 4 = 0 then 8 else if le (rest.take 4) % 4 = 1 then 12 else 16
  (BitVec.ofNat 128 (le (rest.take n)), if isPfx then BitVec.ofNat 32 w else 0)

/-- The group of a lane issues: gang switch, then the next replay entry or the unit at the group's address. -/
def State.ready (s : State) (c g j : Nat) (fly : Bool) : Ready :=
  let x := s.gang c g
  if !s.canIssue c g then .stay s
  else
    match (s.core c).issueSlot g with
    | none => .stay s
    | some slot =>
      match x.replay with
      | r :: _ =>
        if x.waits.any fun w => w.ex &&& r.mask != 0 then .stay s else
        let s := { s with focus := { core := c, slot := g, lanes := r.group, pc := r.pc, len := r.len, fly, replay := some r } }
        (match r.unit with
         | .instr i _ => .go i slot (s.switchTo c g slot)
         | .pad => .stay s.finish
         | .bad e => .stay ((s.switchTo c g slot).rawTrap (DecodeFault.causes e r.pfx r.group) false r.base r.pfx))
      | [] =>
        match x.group j with
        | none => .stay s
        | some (lanes, pc) =>
          let s := { s with focus := { core := c, slot := g, lanes, pc, len := 0, fly } }
          if s.walksFull c (s.space x).1 (s.space x).2 pc.toNat then .stay (s.modMe fun g => { g with stall := some .walks })
          else if !s.walkOpen c (s.space x).1 (s.space x).2 pc.toNat then .stay (s.askWalk c (s.space x).1 (s.space x).2 pc.toNat)
          else
            let s := s.queueWalk c (s.space x).1 (s.space x).2 pc.toNat
            match s.codeAt c x pc with
            | .error e => .stay ((s.switchTo c g slot).rawTrap [(e, lanes)] true 0 0)
            | .ok t =>
              if !s.codeOpen c t then .stay s
              else
                let bytes := blockBytes (s.codePeek c t) t.pa
                let s := s.codeFill c t
                match decodeUnit bytes with
                | .instr i len => .go i slot ({ s with focus := { s.focus with len } }.switchTo c g slot)
                | .pad => .stay { s with focus := { s.focus with len := 4 } }.finish
                | .bad e =>
                  let (base, pfx) := rawWords bytes
                  .stay ((s.switchTo c g slot).rawTrap (DecodeFault.causes e pfx lanes) false base pfx)

/-- What an issue leaves: nothing has switched where the instruction did not issue (R113); otherwise the hold, and the single step
(R299). -/
def State.settle (before : State) (slot : Nat) (i : Instr) (after : State) : State :=
  let c := after.focus.core
  let g := after.focus.slot
  if !after.focus.done && !after.me.trapped then
    after.modCore c fun k =>
      { k with lastIssue := (before.core c).lastIssue, latches := (before.core c).latches }
  else
    let s := after.holdAfter slot i after.focus.replayed
    s.modGang c g fun x => { x with gdbStep := false, stall := none }

/-! ## Time (R41, R50, R61, R63) -/

/-- Frequency at which a cluster runs, in 100 MHz: the lower of old and new during a change (R63). -/
def Cluster.speed (x : Cluster) : Nat :=
  match x.nextFreq with
  | some f => min f x.freq
  | none => x.freq

/-- `n` frames pass at a cluster: its count waits for `stall` of them (R50). -/
def Cluster.tick (n : Nat) (x : Cluster) : Cluster :=
  { x with frames := x.frames + (n - x.stall), stall := x.stall - n, cyc := x.cyc + n * x.speed }

/-- `n` frames of 1 ns pass. -/
def State.tick (s : State) (n : Nat) : State :=
  { s with now := s.now + n, clusters := (List.range 192).map fun k => (k, (s.cluster k).tick n) }

/-! ## The next fetch -/

/-- The page and line that `withFetchWord` places: the 64 KiB page at VA 0 and PA 0. -/
def fetchPage : TlbEntry := { asn := 0, va := 0, size := 2 ^ 16, base := 0, mt := 0, w := false, x := true, imm := false }

/-- Gang slot 0 of core 0 of a running device, converged at VA 0 with 16 lanes, where an instruction line holds `w`. -/
def State.placeWord (s : State) (w : Nat) : State :=
  { s with
    mgmt := s.mgmt ||| 15
    tbl := s.tbl.put 0 0x800000
    regions := s.regions.put 0 { s.region 0 with st := .on, stage := 0 }
    agenda := [.issue 0 0 0 false]
    cores := s.cores.put 0
      { s.core 0 with
        tlb := [fetchPage]
        icache := [(0, BitVec.ofNat 512 w)]
        gangs := (s.core 0).gangs.put 0
          ({ (s.gang 0 0) with seat := { used := true, ltag := 0, gw := 16, octs := 32 } }.fresh 0xffff 0 []) } }

end Sys2Proof.Machine
end

