-- ==== Sys2Proof/Machine/Blocks.lean ====
section
/-! DEFINITION. Blocks and runs as wholes: a walker's accesses, the fault and the end of a run, cache locks of a gang, barrier
lists, trace stores, and freeing and killing a block (R82 to R97, R291, R292, R309, R410, R415). -/

namespace Sys2Proof.Machine

/-! ## Walkers and their accesses -/

/-- The core through which a walker reaches memory: the lowest of its field. -/
def walkCore (w : Nat) : Nat := ((fieldClusters (w / 8)).head?.bind fun k => (clusterCores k).head?).getD 0

def State.runOf (s : State) (w : Nat) : Run := (s.walker w).run.getD {}
def State.setRun (s : State) (w : Nat) (r : Run) : State := s.setWalker w { s.walker w with run := some r }
def State.modRun (s : State) (w : Nat) (f : Run → Run) : State := s.setRun w (f (s.runOf w))

/-- Reads up to a line at a run's address, or the cause it fails with. -/
def State.wPeek (s : State) (w va n : Nat) : Except Nat Nat :=
  let r := s.runOf w
  match s.translate (walkCore w) r.asn r.root va .read with
  | .error e => .error e
  | .ok t =>
    match s.engReach (walkCore w) t false with
    | some e => .error e
    | none => .ok (s.engineRead (walkCore w) t n).2

/-- Writes at a run's address, at system scope. -/
def State.wPut (s : State) (w va n v : Nat) : Except Nat State :=
  let r := s.runOf w
  match s.translate (walkCore w) r.asn r.root va .write with
  | .error e => .error e
  | .ok t =>
    match s.engReach (walkCore w) t true with
    | some e => .error e
    | none => .ok (s.engineWrite (walkCore w) t n v)

/-- What a write of hardware belongs to: the launch or the run whose completion waits for it (R79, R309), and its class. -/
structure Owner where
  ltag : Half := 0
  run : Option Nat := none
  rc : Nat := 0
  deriving DecidableEq, Repr

/-- A write of hardware that cannot be performed yet stays in flight, for no lane (R199). -/
def State.latePut (s : State) (c : Nat) (asn : Half) (t : Trans) (va n v : Nat) (o : Owner := {}) (kind : AccKind := .store) : State :=
  { s with
    nextId := s.nextId + 1
    pends := s.pends ++ [{ id := s.nextId, core := c, slot := 16, ltag := o.ltag, lane := 0, kind, page := t.kind, va, pa := t.pa, asn
                           batch := s.nextId, phys := entryPhys (s.tableAt (clusterOf c) (t.pa / 2 ^ 27)), bytes := n, ty := 0
                           data := BitVec.ofNat 64 v, cmp := 0, dst := none, lat := 0, acq := false, rel := false, rc := o.rc, engine := true
                           run := o.run
                           instr := { base := 0, pfx := 0, pc := 0, mask := 0, group := 0, cause := 0, cap := 0, vals := [] } }] }

/-- Does an earlier write of hardware still wait that meets this one? It is made after it (R196). -/
def State.putBehind (s : State) (c : Nat) (t : Trans) (n : Nat) : Bool :=
  s.pends.any fun q => q.engine && q.core == c && !q.performed && q.failed.isNone && q.meets t n

/-- A write of hardware at an address: made, left in flight where it has to wait, and dropped where the page or its home does not
take it (R228). -/
def State.hwPut (s : State) (c : Nat) (asn : Half) (root va n v : Nat) (o : Owner := {}) : State :=
  match s.translate c asn root va .write with
  | .error _ => s
  | .ok t =>
    if s.putBehind c t n then s.latePut c asn t va n v o
    else
      match s.engReach c t true with
      | none => s.engineWrite c t n v
      | some e => if e = cWaits then s.latePut c asn t va n v o else s

/-- A write that a fault leaves unmade. -/
def State.wTry (s : State) (w va n v : Nat) : State :=
  s.hwPut (walkCore w) (s.runOf w).asn (s.runOf w).root va n v { run := some w }

/-- Gives the edges of a run back (R93): OWNER := 0xffff. -/
def State.releaseEdges (s : State) (w : Nat) : State :=
  (s.runOf w).edges.foldl (fun s e => s.wTry w (e.queue + 4) 2 0xffff) s

/-! ## Trace stores (R307 to R310) -/

/-- Performs the trace stores queued at a core, one record after another, in the rings of their runs: stores of the core at class 7 (R308). -/
def State.drainTrace (s : State) (c : Nat) : State :=
  let s1 := (s.core c).trq.foldl (fun (s : State) (r : TraceRec) =>
    let run := s.runOf r.walker
    let k := bits run.trBuf.toNat 59 5
    let va := bits run.trBuf.toNat 5 52 * 32 + 32 * (run.trPos.toNat % 2 ^ k)
    let s := (List.range 4).foldl (fun s i =>
      s.hwPut c run.asn run.root (va + 8 * i) 8 (bits r.bits.toNat (64 * i) 64) { run := some r.walker, rc := 7 }) s
    let s := s.modRun r.walker fun x => { x with trPos := x.trPos + 1 }
    { s with hostRegs := s.hostRegs.put (0x39000 + 8 * r.walker) (run.trPos + 1) }) s
  s1.modCore c fun k => { k with trq := [] }

/-- Every queued trace record leaves its core. -/
def State.drainTraces (s : State) : State :=
  (s.cores.map (·.1)).foldl (fun s c => if (s.core c).trq.isEmpty then s else s.drainTrace c) s

/-- `n` frames of 1 ns pass, and the trace records queued so far leave their cores. -/
def State.pass (s : State) (n : Nat) : State := (s.tick n).drainTraces

/-- Queues a trace record, or counts it as dropped (R309, R310). -/
def State.traceRecord (s : State) (c w : Nat) (b : BitVec 256) : State :=
  if (s.core c).trq.length < 64 then s.modCore c fun k => { k with trq := k.trq ++ [{ walker := w, bits := b }] }
  else
    let a := 0x1400000 + 8 * c
    let old := s.hostRegs.get 0 a
    let n := min 0xffffffff (bits old.toNat 0 32 + 1)
    { s with hostRegs := s.hostRegs.put a (BitVec.ofNat 64 (bits old.toNat 32 32 * 2 ^ 32 + n)) }

/-! ## The end of a run (R83, R96, R97) -/

/-- The run's fault, the first that arises. -/
def State.runFault (s : State) (w cause node edge : Nat) : State :=
  s.modRun w fun r =>
    { r with fault := some (r.fault.getD (cause, BitVec.ofNat 64 (node % 2 ^ 32 + edge % 2 ^ 32 * 2 ^ 32))) }

/-- Every write of the launches that `of` names is performed (R79): accesses in flight, broadcast stores on their way and not yet applied
everywhere. -/
def State.writesDone (s : State) (of : Half → Bool) : Bool :=
  (s.pends.all fun p => !(of p.ltag && p.kind != .load && !p.performed && p.failed.isNone)) &&
    (s.packets.all fun p => match p.body with
      | .store _ _ l => !of l || p.lost
      | _ => true) &&
    s.msgs.all fun (m : Msg) => match m.body with
      | .store _ _ => !of m.ltag || m.acked
      | .snoop _ _ _ => true

/-- Every write of a run's work, and every record of its trace, is performed; no sample of it is still to be written. -/
def State.workDone (s : State) (w : Nat) : Bool :=
  s.writesDone (fun l => l != 0 && (s.launch l.toNat).walker == w) &&
    (s.pends.all fun p => !(p.run == some w && !p.performed && p.failed.isNone)) &&
    s.cores.all fun p => p.2.sampled.all fun q => (q.2.map (·.walker)) != some w

/-- Can a run's edges be given back now, none of the writes having to wait? -/
def State.edgesOpen (s : State) (w : Nat) : Bool :=
  (s.runOf w).edges.all fun e => match s.wPut w (e.queue + 4) 2 0xffff with
    | .error c => c != cWaits
    | .ok _ => true

/-- A message of the sender goes into the queue at once: nothing waits before it and more than 64 entries are free (R85). -/
def State.cqTakes (s : State) : Bool := s.cqWait.isEmpty && s.cqOver.isEmpty && 64 < s.cqFree

/-- Writes GRAPH_FAULT: the walker is faulted until the host passes the entry. -/
def State.writeFault (s : State) (w cause : Nat) (payload : DWord) : State :=
  let s := (s.drainTraces).releaseEdges w
  let x := s.walker w
  let s := s.setWalker w { x with st := 3, run := none }
  s.cqPost { payload, tag := x.tag, src := BitVec.ofNat 16 w, cause := BitVec.ofNat 8 cause, kind := kindGraphFault }

/-- WSTAT of a running walker: 2 while a delivery stalls (R94). -/
def State.showStall (s : State) (w : Nat) : State :=
  let x := s.walker w
  match x.run with
  | some r => s.setWalker w { x with st := if r.firings.any (·.stallAt.isSome) then 2 else 1 }
  | none => s

/-- A faulted run discards the tokens still to be delivered, and writes its fault once its firings have all ended and freed their slots, its
writes are performed and the queue takes the entry (R79, R85, R95, R97). -/
def State.settleFault (s : State) (w : Nat) : State :=
  let r := s.runOf w
  match r.fault with
  | some (c, p) =>
    let r := { r with firings := r.firings.filter fun (f : Firing) => f.give.isNone || f.edge.isSome }
    let s := if (s.walker w).run.isSome then (s.setRun w r).showStall w else s
    if r.firings.isEmpty && (s.walker w).run.isSome && s.workDone w && s.edgesOpen w && s.cqTakes then s.writeFault w c p else s
  | none => s

/-! ## Cores of a block -/

/-- The cores of a placed block, by core index ly·2^BW + lx (R116). -/
def State.blockCores (s : State) (b : Nat) : List Nat :=
  let k := s.block b
  let l := s.launch k.ltag.toNat
  if k.placed then
    (List.range (2 ^ l.bh)).flatMap fun y => (List.range (2 ^ l.bw)).map fun x => k.origin + 128 * y + x
  else []

/-- Gang slots of a core that a block holds. -/
def State.blockSlots (s : State) (b c : Nat) : List Nat :=
  (List.range 15).filter fun g => (s.gang c g).seat.used && (s.gang c g).seat.block == b

/-- Gangs of a block: core and slot. -/
def State.blockGangs (s : State) (b : Nat) : List (Nat × Nat) :=
  (s.blockCores b).flatMap fun c => (s.blockSlots b c).map fun g => (c, g)

/-- Is a block of a launch resident at a core? -/
def State.residentAt (s : State) (c : Nat) (ltag : Half) : Bool :=
  (List.range 15).any fun g => (s.gang c g).seat.used && (s.gang c g).seat.ltag == ltag

/-! ## Locks (R291, R410) -/

/-- A gang's number in a line's list of holders. -/
def lockId (c g : Nat) : Nat := c * 16 + g

/-- Unlocks the lines that `p` holds of in a core's L1, their masked bytes written back to the L2 with the lines of their units (R163). -/
def State.unlockL1 (s : State) (c g : Nat) (p : Nat → Bool) : State :=
  (((s.core c).l1.filter fun e => p e.1 && e.2.lock.contains (lockId c g)).map (·.1)).foldl (fun s la =>
    let s := s.l1WriteUnit c la
    let l := s.l1Line c la
    s.setL1 c la { l with lock := l.lock.filter (· != lockId c g) }) s

/-- The masked bytes of an L2 line whose home does not take them yet are on their way to it, each byte of its own (R26, R295). -/
def State.lateBack (s : State) (k la : Nat) (ltag : Half) : State :=
  let l := s.l2Line k la
  let s := ((List.range 64).filter fun i => l.mask.getLsbD i).foldl (fun (s : State) i =>
    s.latePut (transmitter k) 0 { pa := linePa la + i, kind := .swm, w := true, x := false, imm := false } 0 1 (l.byteAt i) { ltag } (.atom 6)) s
  s.setL2 k la { l with mask := 0 }

/-- The same in the cluster's L2, the bytes written to the home. -/
def State.unlockL2 (s : State) (c g : Nat) (p : Nat → Bool) : State :=
  let k := clusterOf c
  (((s.cluster k).l2.filter fun e => p e.1 && e.2.lock.contains (lockId c g)).map (·.1)).foldl (fun s la =>
    let s := if s.backOpen k la then s.l2WriteUnit k la else s.lateBack k la (s.gang c g).seat.ltag
    let l := s.l2Line k la
    s.setL2 k la { l with lock := l.lock.filter (· != lockId c g) }) s

/-- Every lock of a gang ends. -/
def State.releaseLocks (s : State) (c g : Nat) : State := (s.unlockL1 c g fun _ => true).unlockL2 c g fun _ => true

/-! ## Barrier objects (R292, R411, R415) -/

/-- Where a barrier object of a block's list lies. -/
def State.barRead (s : State) (c : Nat) (e : BarEntry) : Nat :=
  if e.spad then s.spadRead e.core e.addr 16
  else s.homeRead (clusterOf c) e.addr 16

def State.barWrite (s : State) (c : Nat) (e : BarEntry) (v : Nat) : State :=
  if e.spad then s.spadWrite e.core e.addr 16 v
  else (((s.askCoh c e.addr true).own (clusterOf c) (e.addr / 256)).dropCopies (clusterOf c) (e.addr / 256) fun _ => true).cohWrite e.addr 16 v

/-- An object's broken flag is set: at once, or by a write in flight that sets its bit in byte 0 (R292). -/
def State.barBreak (s : State) (c : Nat) (e : BarEntry) (v : Nat) (ltag : Half) : State :=
  let t : Trans := { pa := e.addr, kind := .coherent, w := true, x := false, imm := false }
  if e.spad || (s.cohOpen c e.addr true && (s.cohCause c e.addr true).isNone) then s.barWrite c e (v ||| 0x80)
  else s.latePut c 0 t 0 1 0x80 { ltag } (.atom 4)

def barPhase (v : Nat) : Nat := bits v 0 4
def barScope (v : Nat) : Nat := bits v 4 3
def barBroken (v : Nat) : Bool := v.testBit 7
def barCount (v : Nat) : Nat := bits v 40 24
def barExpect (v : Nat) : Nat := bits v 72 24
/-- A malformed object counts as broken (R411). -/
def barBad (v : Nat) : Bool :=
  barBroken v || barScope v == 7 || barExpect v == 0 || barExpect v ≤ barCount v || bits v 8 32 != 0 || bits v 64 8 != 0 ||
    bits v 96 32 != 0

/-- Does some gang wait on the object's current phase? -/
def State.barAwaited (s : State) (c : Nat) (e : BarEntry) : Bool :=
  let v := s.barRead c e
  s.cores.any fun p => p.2.gangs.any fun q => q.2.waits.any fun w => w.bar == some (e.spad, e.core, e.addr, barPhase v)

/-- Breaks every object of the block's list that it still owes an arrival. -/
def State.breakBarriers (s : State) (b : Nat) : State :=
  let c := (s.block b).origin
  (s.block b).bars.foldl (fun s e =>
    let v := s.barRead c e
    if e.cur < e.prev && (barCount v != 0 || s.barAwaited c e) then s.barBreak c e v (s.block b).ltag else s) s

/-! ## Freeing and killing -/

/-- Planned filler for a context that leaves its engines, in nJ (R70): half the rail voltage times its share of the regional
current, a free value up to that current, times the ramp in whole steps of 100 ns. -/
def State.filler (s : State) (c : Nat) : State × Nat :=
  let k := clusterOf c
  let share := (Config.freeValue s.freeCtr).toNat % ((s.region (regionOf k)).amps + 1)
  let volt := Config.railMilliVolt (if (s.cluster k).thr then 0 else (s.cluster k).pool) (s.cluster k).freq
  ({ s with freeCtr := s.freeCtr + 1 }, volt * share * ((share + 2519) / 2520) / 20000)

/-- The filler of a gang that leaves the engines goes to its account (R70). -/
def State.chargeFiller (s : State) (c g : Nat) : State :=
  let (s, e) := s.filler c
  s.modGang c g fun x => { x with enacc := x.enacc + BitVec.ofNat 64 e }

/-! ## Boost claims (R64, R65, R455) -/

/-- The greatest target among a cluster's claims. -/
def State.claimedFreq (s : State) (k : Nat) : Nat :=
  (clusterCores k).foldl (fun a c => (List.range 16).foldl (fun a g => max a ((s.gang c g).claim.getD 0)) a) 0

/-- A boost claim of a gang ends; the cluster's ends with the last, and a holder drops to 1.4 GHz at once; with others left it runs at the
greatest of theirs. -/
def State.endClaim (s : State) (c g : Nat) : State :=
  let was := (s.gang c g).claim
  let s := s.modGang c g fun x => { x with claim := none }
  let k := clusterOf c
  let holds := (s.region (regionOf k)).holder = some k
  if was.isNone then s
  else if (clusterCores k).any fun q => (List.range 16).any fun h => (s.gang q h).claim.isSome then
    if holds then s.modCluster k fun x => { x with nextFreq := if s.claimedFreq k = x.freq then none else some (s.claimedFreq k) } else s
  else
    let s := s.modCluster k fun x => { x with claimAge := none, nextFreq := if holds then some 14 else x.nextFreq }
    s.modRegion (regionOf k) fun r =>
      if r.holder = some k then { r with holder := none, idleFrom := some s.now } else r

/-- Every claim of a cluster ends: it leaves the c3 pool (R64). -/
def State.endClaims (s : State) (k : Nat) : State :=
  (((clusterCores k).flatMap fun c => (List.range 16).map fun g => (c, g)).filter fun p => (s.gang p.1 p.2).claim.isSome).foldl
    (fun s p => s.endClaim p.1 p.2) s

/-- A gang leaves its slot: the latches that it wrote lose their owner, and the slot's next issue is another gang's (R114, R137). -/
def State.forgetLatches (s : State) (c g : Nat) : State :=
  s.modCore c fun k =>
    let l := k.latches.get {} (g % 4)
    { k with
      latches := k.latches.put (g % 4) { l with owner := l.owner.map fun q => (q.1, if q.2 = some g then none else q.2) }
      lastIssue := k.lastIssue.map fun q => (q.1, if q.2 = some g then none else q.2) }

/-- A packet of a gang whose slot becomes free answers nobody. -/
def Packet.orphan (c g : Nat) (p : Packet) : Packet :=
  match p.body with
  | .post r prio slot => if p.src = c ∧ slot = g then { p with body := .post r prio 16 } else p
  | _ => p

/-- A gang slot becomes free; what its accesses and posts still owe goes to nobody. -/
def State.dropGang (s : State) (c g : Nat) : State :=
  let s := ((s.endHold c g).forgetLatches c g).endClaim c g
  let s := { s with
    pends := s.pends.map fun (p : Pend) => if p.core == c && p.slot == g then { p with slot := 16, dst := none } else p
    packets := s.packets.map (Packet.orphan c g) }
  s.modCore c fun k =>
    { k with
      gangs := k.gangs.put g {}
      work := k.work.filter fun w => match w with
        | .trap t => t.slot != g
        | _ => true
      feWait := k.feWait.filter (·.slot != g)
      octQ := k.octQ.filter (·.slot != g)
      rowWait := k.rowWait.filter (· != g)
      slotSaves := k.slotSaves.filter (·.slot != g)
      serving := match k.serving with
        | some (.trap t f) => if t.slot = g then none else some (.trap t f)
        | x => x }

/-- The region's account of the filler of a killed context (R70). -/
def State.orphan (s : State) (c : Nat) : State :=
  let (s, e) := s.filler c
  s.modRegion (regionOf (clusterOf c)) fun r => { r with orphan := r.orphan + BitVec.ofNat 64 e }

/-- A copy node's chain runs on a core's engines (R472). -/
def State.chainOn (s : State) (c : Nat) : Bool :=
  s.walkers.any fun w => (w.2.run.map fun r => r.firings.any fun (f : Firing) => f.chain != 0 && f.give.isNone && f.chainCore == c).getD false

/-- No gang is resident in a cluster, no engine context is busy and no record is queued (R62). -/
def State.clusterIdle (s : State) (k : Nat) : Bool :=
  (clusterCores k).all fun c =>
    (List.range 15).all (fun g => !(s.gang c g).seat.used) && !s.chainOn c &&
      (List.range 4).all fun p => ((s.core c).recQ.get [] p).isEmpty

/-- Keeps the queued records of a core that `keep` holds of; a queue with another head begins its head's times anew (R107). -/
def State.keepRecs (s : State) (c : Nat) (keep : QRec → Bool) : State :=
  let k := s.core c
  let moved := (List.range 4).filter fun p => ((k.recQ.get [] p).head?.map keep) == some false
  s.setCore c
    { k with
      recQ := k.recQ.map fun q => (q.1, q.2.filter keep)
      recHeadAt := moved.foldl (fun m p => m.put p s.now) k.recHeadAt
      recBlockAt := moved.foldl (fun m p => m.put p none) k.recBlockAt }

/-- Every cluster counts the moment from which it is idle (R62, R103). -/
def State.markIdle (s : State) (c : Nat) : State :=
  let k := clusterOf c
  if s.clusterIdle k then s.modCluster k fun x => { x with idleSince := s.now } else s

/-- Images go back to a run's pool (R287). -/
def State.returnImages (s : State) (w : Nat) (vas : List DWord) : State :=
  match (s.walker w).run with
  | some r =>
    let base := bits r.save.toNat 21 36
    s.setRun w { r with images := r.images.filter fun i => !vas.any fun (v : DWord) => v.toNat / 2 ^ 21 == base + i }
  | none => s

/-- The images that a block holds. -/
def State.imagesOf (s : State) (b : Nat) : List DWord :=
  (s.block b).images.flatMap (fun (i : Image) => i.va :: (i.saved.map (·.va)).toList) ++
    (s.blockGangs b).flatMap fun p => ((s.core p.1).slotSaves.filter fun (x : SlotSave) => x.slot == p.2).map (·.va)

/-- A byte that hardware writes at a gang's address; dropped where the page or its home does not take it (R228). -/
def State.gangPut (s : State) (c g va v : Nat) : State :=
  s.hwPut c (s.space (s.gang c g)).1 (s.space (s.gang c g)).2 va 1 v { ltag := (s.gang c g).seat.ltag }

/-- The bytes of an entry of a gang's ring that hold KIND and ST: 0 where they cannot be read. -/
def State.ringByte (s : State) (c g va : Nat) : Nat :=
  match s.translateFor c (s.gang c g) va .read with
  | .error _ => 0
  | .ok t => if (s.homeCause c t.pa).isSome then 0 else (s.engineRead c t 1).2

/-- A killed block's gangs that wait in a collective entry fault with COLL_BROKEN (R242, R291): the entry in their ring says so. -/
def State.breakColls (s : State) (b : Nat) : State :=
  (s.blockGangs b).foldl (fun (s : State) p =>
    let x := (s.gang p.1 p.2).ctx 6
    let va := ringSlot x.chring x.tlcnt.toNat
    let kind := s.ringByte p.1 p.2 (va + 16) % 16
    if !x.stopped && x.tlcnt.toNat < x.tliss.toNat && x.matched ≤ x.tlcnt.toNat && 5 ≤ kind && kind ≤ 7 then
      let old := s.ringByte p.1 p.2 (va + 17)
      ((s.gangPut p.1 p.2 (va + 17) (old - old % 4 + 2)).gangPut p.1 p.2 (va + 19) 0x09).modGang p.1 p.2 fun g =>
        g.setCtx 6 { x with cause := 0x09, resumed := false }
    else s) s

/-- A kill abandons every context of a block's gangs: the outstanding entries take ST = 3 (R232, R291). -/
def State.abandonAll (s : State) (b : Nat) : State :=
  (s.blockGangs b).foldl (fun (s : State) p =>
    (List.range 8).foldl (fun (s : State) n =>
      let x := (s.gang p.1 p.2).ctx n
      (List.range (x.tliss - x.tlcnt).toNat).foldl (fun (s : State) i =>
        let va := ringSlot x.chring (x.tlcnt.toNat + i)
        let old := s.ringByte p.1 p.2 (va + 17)
        s.gangPut p.1 p.2 (va + 17) (old - old % 4 + 3)) s) s) s

/-- A block leaves its cores: gangs freed, records of its launch discarded where no other block of it remains (R291). -/
def State.freeBlock (s : State) (b : Nat) (killed : Bool) : State :=
  let ltag := (s.block b).ltag
  let cores := s.blockCores b
  let s := s.returnImages (s.launch ltag.toNat).walker (s.imagesOf b)
  let s := (s.blockGangs b).foldl (fun s p =>
    let s := s.releaseLocks p.1 p.2
    (if killed then s.orphan p.1 else s).dropGang p.1 p.2) (s.breakBarriers b)
  let s := cores.foldl (fun s c =>
    let s := if s.residentAt c ltag then s
      else s.keepRecs c fun r => r.bits.extractLsb' 240 16 != ltag
    let s := s.modCore c fun k => { k with calleeQ := k.calleeQ.map fun q => (q.1, q.2.filter (·.block != b)) }
    (s.markCalls c).markIdle c) s
  { s with blocks := s.blocks.drop (· == b) }

/-- A block exits (R109): one block fewer of its launch. -/
def State.exitBlock (s : State) (b : Nat) : State :=
  let l := (s.block b).ltag.toNat
  let s := s.freeBlock b false
  s.setLaunch l { s.launch l with left := (s.launch l).left - 1 }

/-- Blocks of a launch in the hubs' lists that are never to be placed; those saved by pre-emption are restored as usual (R97). -/
def State.dropUnplaced (s : State) (ltag : Half) : State :=
  let saved (i : Nat) : Bool := s.blocks.any fun q => q.2.ltag == ltag && q.2.index == i && q.2.saved
  { s with hubs := s.hubs.map fun (h : Nat × Hub) => (h.1, { h.2 with
      lists := h.2.lists.map fun (y : HubList) => if y.ltag == ltag then { y with blocks := y.blocks.filter saved } else y
      answer := h.2.answer.map fun a => if a.1 == ltag then (a.1, a.2.filter saved) else a }) }

/-- A saved block that is killed leaves the hubs' lists. -/
def State.unlistBlock (s : State) (ltag : Half) (i : Nat) : State :=
  { s with hubs := s.hubs.map fun (h : Nat × Hub) => (h.1, { h.2 with
      lists := h.2.lists.map fun (y : HubList) => if y.ltag == ltag then { y with blocks := y.blocks.filter (· != i) } else y
      answer := h.2.answer.map fun a => if a.1 == ltag then (a.1, a.2.filter (· != i)) else a }) }

/-- Number of blocks of a launch that no hub has placed. -/
def State.unplaced (s : State) (ltag : Half) : Nat :=
  let fresh (i : Nat) : Bool := !(s.blocks.any fun q => q.2.ltag == ltag && q.2.index == i && q.2.saved)
  (s.hubs.map fun h =>
    ((h.2.lists.filter (·.ltag == ltag)).map fun y => (y.blocks.filter fresh).length).sum +
      (match h.2.answer with
       | some (l, b) => if l == ltag then (b.filter fresh).length else 0
       | none => 0)).sum

/-- A launch places no further block (R97). -/
def State.killLaunch (s : State) (ltag : Half) : State :=
  let x := s.launch ltag.toNat
  if x.dead then s
  else (s.dropUnplaced ltag).setLaunch ltag.toNat { x with dead := true, left := x.left - s.unplaced ltag }

/-- A block is killed (R291, R97): its kernel node faults with cause 0x07, and the launch's unplaced blocks are never placed. -/
def State.killBlock (s : State) (b : Nat) : State :=
  let blk := s.block b
  let l := blk.ltag.toNat
  let s := ((s.bboxEvent (fieldOf blk.origin) 8 blk.origin blk.index).abandonAll b).breakColls b
  let s := if blk.saved then s.unlistBlock blk.ltag blk.index else s
  let s := ((s.freeBlock b true).runFault (s.launch l).walker 0x07 (s.launch l).node 0).killLaunch blk.ltag
  s.setLaunch l { s.launch l with left := (s.launch l).left - 1 }

end Sys2Proof.Machine
end

