-- ==== Sys2Proof/Machine/Plane.lean ====
section
/-! DEFINITION. The names of lanes (R116, R307) and the cores' clocks (R456). -/

namespace Sys2Proof.Machine

/-! ## Names of lanes (R116, R307) -/

/-- Core index of a core in its block. -/
def State.coreIndex (s : State) (c : Nat) (g : Gang) : Nat :=
  let b := s.block g.seat.block
  let l := s.launch g.seat.ltag.toNat
  (c / 128 - b.origin / 128) * 2 ^ l.bw + (c % 128 - b.origin % 128)

/-- The thread number of a lane. -/
def State.threadOf (s : State) (c : Nat) (g : Gang) (j : Nat) : Nat :=
  (s.coreIndex c g * (s.launch g.seat.ltag.toNat).gangs + g.seat.gidx) * g.seat.gw + j

/-- Launch, grid block and thread that name a lane; a callee lane takes its caller's name, a handler lane its own. -/
structure LaneName where
  ltag : Half
  block : Nat
  thread : Nat
  ctx : Nat
  deriving DecidableEq, Repr

def State.nameOf (s : State) (c : Nat) (g : Gang) (j : Nat) : LaneName :=
  match g.kind with
  | .handler => ⟨0, 0, c * 16 + j, 3⟩
  | .callee =>
    let x := g.callers.get {} j
    ⟨g.seat.ltag, x.block, x.thread, 2⟩
  | k => ⟨g.seat.ltag, (s.block g.seat.block).index, s.threadOf c g j, if k = .record then 1 else 0⟩

/-- NAME of R307. -/
def LaneName.bits (n : LaneName) : BitVec 80 :=
  n.ltag ++ BitVec.ofNat 32 n.block ++ BitVec.ofNat 18 n.thread ++ BitVec.ofNat 2 n.ctx ++ (0 : BitVec 12)

/-- How far LTS of a core is ahead of the wafer time: while it slews back it runs at half its rate (R456). -/
def State.ltsAhead (s : State) (c : Nat) : Nat :=
  match (s.core c).ltsSlew with
  | none => (s.core c).ltsLead
  | some t => (s.core c).ltsLead - (s.now - t) / 2

/-- LTS of a core (R456). -/
def State.ltsOf (s : State) (c : Nat) : Nat := s.now + s.ltsAhead c

/-- A stamp arrives: LTS := max(LTS, sender + 1). -/
def State.stampAt (s : State) (c : Nat) (sender : DWord) : State :=
  if sender.toNat + 1 ≤ s.ltsOf c then s
  else s.modCore c fun k => { k with ltsLead := sender.toNat + 1 - s.now, ltsSlew := none }

end Sys2Proof.Machine
end

