-- ==== Sys2Proof/Machine/Access.lean ====
section
/-! DEFINITION. One lane's access to memory: the race detector, watchpoints, its point of performance, and accesses in flight
(R190, R195 to R206, R219 to R222, R290, R312, R313). -/

namespace Sys2Proof.Machine

/-! ## What an access does -/

/-- A lane's access. -/
structure Access where
  va : Nat
  bytes : Nat
  kind : AccKind
  ty : BitVec 4 := 8
  data : Nat := 0
  cmp : Nat := 0
  acq : Bool := false
  rel : Bool := false
  scope : Nat := 0
  /-- The order that its routing class selects (R35). -/
  order : Nat := 0
  /-- Re-issued from an entry with CAUSE WATCH: not checked again (R313). -/
  noWatch : Bool := false
  /-- The lane's own writes in flight that it reads at once are those numbered below it; all, for an access made in its step (R199). With 0
it reads none, and waits for them. -/
  upTo : Option Nat := none
  deriving DecidableEq, Repr

def AccKind.writes : AccKind → Bool
  | .load => false
  | _ => true
def AccKind.isAtomic : AccKind → Bool
  | .atom _ => true
  | .cas => true
  | _ => false

/-- The new value of an atomic operation (R405). -/
def atomFn (fn : Nat) (ty : BitVec 4) (old c : Nat) : Nat :=
  let w := tyBits ty
  match fn with
  | 0 => if ty = 0 then addF32 old c else intAdd false w old c
  | 1 => intMinOp (tyIsI ty) w old c
  | 2 => intMaxOp (tyIsI ty) w old c
  | 3 => intAnd false w old c
  | 4 => intOr false w old c
  | 5 => intXor false w old c
  | _ => c % 2 ^ w

/-- What an access writes over the value it finds; none for no write. -/
def Access.newValue (a : Access) (old : Nat) : Option Nat :=
  match a.kind with
  | .load => none
  | .store | .bcast => some a.data
  | .atom fn => some (atomFn fn a.ty old a.data)
  | .cas => if old = a.cmp % 2 ^ (8 * a.bytes) then some a.data else none

/-! ## Scopes (R197, R198) -/

/-- An agent (R194): one of a gang's lanes or contexts, a walker, a hub, or the host die. -/
inductive Party where
  | gang (p : Place)
  | walker (w : Nat)
  | hub (f : Nat)
  | host
  deriving DecidableEq, Repr

def Party.core? : Party → Option Nat
  | .gang p => p.core
  | _ => none
def Party.field? : Party → Option Nat
  | .gang p => p.core.map fieldOf
  | .walker w => some (w / 8)
  | .hub f => some f
  | .host => none

/-- Does the instance of a scope around agent `a` hold agent `b` (R197)? The instances of a walker and a hub begin at field scope, the
host's at system scope. -/
def inScope (scope : Nat) (a b : Party) : Bool :=
  match scope, a, b with
  | 0, .gang p, .gang q => p == q
  | 1, .gang p, .gang q => p.core.isSome && p.core == q.core
  | 2, .gang p, .gang q => p.block.isSome && p.ltag == q.ltag && p.block == q.block
  | 3, .gang p, .gang q => p.core.isSome && p.core.map clusterOf == q.core.map clusterOf
  | 4, a, b => a.field?.isSome && a.field? == b.field?
  | 5, a, b => a != .host && b != .host
  | 6, _, _ => true
  | _, _, _ => false

/-- The placed block of a launch with a grid block number. -/
def State.blockNamed (s : State) (ltag : Half) (block : Nat) : Option Block :=
  (s.blocks.find? fun p => p.2.ltag == ltag && p.2.index == block && p.2.placed).map (·.2)

/-- The agent that a recorded name stands for where the model has not kept it: its block's core, where the block is placed. -/
def State.partyNamed (s : State) (ltag : Half) (block thread : Nat) : Party :=
  let l := s.launch ltag.toNat
  let gang := thread / max 1 l.gw
  let idx := gang / max 1 l.gangs
  .gang { ltag, block := some block, gidx := gang % max 1 l.gangs
          core := (s.blockNamed ltag block).map fun x => x.origin + 128 * (idx / 2 ^ l.bw) + idx % 2 ^ l.bw }

/-- A lane of a gang as an agent: it belongs to the block of its gang slot (R197). -/
def State.placeOf (s : State) (c : Nat) (g : Gang) : Place :=
  { ltag := g.seat.ltag, core := some c, gidx := g.seat.gidx
    block := if g.isHandler then none else some (s.block g.seat.block).index }
def State.partyOf (s : State) (c : Nat) (g : Gang) : Party := .gang (s.placeOf c g)

/-! ## The race detector (R219 to R222) -/

def State.raceMode (s : State) (g : Gang) : Nat := bits (s.launch g.seat.ltag.toNat).raceCtl.toNat 8 2

/-- Shadow record address of a checked address; none outside the range. -/
def State.shadowOf (s : State) (g : Gang) (va : Nat) : Option Nat :=
  let l := s.launch g.seat.ltag.toNat
  let lo := bits l.raceCtl.toNat 16 41 * 2 ^ 16
  if lo ≤ va ∧ va < lo + 2 ^ bits l.raceCtl.toNat 10 6 * 2 ^ 16 then
    some (bits l.raceSh.toNat 4 53 * 16 + (va - lo) / 32 * 16)
  else none

/-- Reads 16 bytes of a record at its home (R221); none where it faults. -/
def State.recRead (s : State) (c : Nat) (g : Gang) (va : Nat) : Option Nat :=
  match s.translateFor c g va .read with
  | .ok t => if t.kind != .broadcast && (s.homeCause c t.pa).isNone then some (s.homeRead (clusterOf c) t.pa 16) else none
  | .error _ => none

/-- Writes `n` bytes of a record at its home; a faulting record keeps nothing. -/
def State.recWrite (s : State) (c : Nat) (g : Gang) (va n v : Nat) : State :=
  match s.translateFor c g va .write with
  | .ok t =>
    if (s.homeCause c t.pa).isSome then s
    else if t.kind = .coherent then s.engineWrite c t n v
    else (s.askHome c t.pa).homeWrite (clusterOf c) t.pa n v
  | .error _ => s

/-- The record of a sector, by its physical address. -/
def State.recKey (s : State) (c : Nat) (g : Gang) (va : Nat) : Option Nat :=
  match s.translateFor c g va .write with
  | .ok t => some (t.pa / 16)
  | .error _ => none

/-- The agent that a record of launch `ltag`, block and thread names (R197, R221): where its writer stood, as the model keeps it. -/
def State.writerOf (s : State) (c : Nat) (g : Gang) (at_ : Nat) (ltag : Half) (block thread : Nat) : Party :=
  match (s.recKey c g at_).bind fun k => s.raceFrom.get none k with
  | some p => if p.ltag = ltag then .gang p else s.partyNamed ltag block thread
  | none => s.partyNamed ltag block thread

/-- A record keeps where its writer stands. -/
def State.keepWriter (s : State) (c : Nat) (g : Gang) (at_ : Nat) : State :=
  match s.recKey c g at_ with
  | some k => { s with raceFrom := s.raceFrom.put k (some (s.placeOf c g)) }
  | none => s

/-- Does an access write: a `cas` does where its comparison holds (R406)? -/
def State.accWrites (s : State) (c : Nat) (g : Gang) (a : Access) : Bool :=
  match a.kind with
  | .cas =>
    (match s.translateFor c g a.va .write with
     | .ok t => (a.newValue (s.homeRead (clusterOf c) t.pa a.bytes)).isSome
     | .error _ => false)
  | k => k.writes

/-- Shadow record address of an access that the detector checks: to a coherent or software-managed page in the range (R220). -/
def State.checkedAt (s : State) (c : Nat) (g : Gang) (a : Access) : Option Nat :=
  match s.translateFor c g a.va .read with
  | .ok t => if t.kind = .broadcast then none else s.shadowOf g a.va
  | .error _ => s.shadowOf g a.va

/-- One lane's check: the state with the record and the acquired set updated, whether it is a hazard, and a mismatch of scopes
(R221). -/
def State.raceCheck (s : State) (c slot j : Nat) (a : Access) : State × Bool × Bool :=
  let g := s.gang c slot
  match s.checkedAt c g a with
  | none => (s, false, false)
  | some at_ =>
    match s.recRead c g at_ with
    | none => (s, false, false)
    | some shadow =>
      let me := s.nameOf c g j
      let bint := ((s.blockNamed me.ltag me.block).getD (s.block g.seat.block)).bint
      let valid := shadow.testBit 58
      let ltag : Half := BitVec.ofNat 16 (bits shadow 112 16)
      let blk := bits shadow 80 32
      let thr := bits shadow 62 18
      let int : Word := BitVec.ofNat 32 (bits shadow 0 32)
      let other := valid && !(ltag == me.ltag && blk == me.block && thr == me.thread)
      let h1 := other && ltag == me.ltag
      let h2 := h1 && !(blk == me.block && int < bint)
      let acq := g.acq.get [] j
      let h3 := h2 && !(acq.any fun e => e.ltag == ltag && e.block.toNat == blk && e.thread.toNat == thr && int ≤ e.int)
      let scope := bits shadow 59 3
      let mine := s.partyOf c g
      let theirs := s.writerOf c g at_ ltag blk thr
      let meet := a.acq && scope != 7 && inScope scope theirs mine && inScope a.scope mine theirs
      let hazard := h3 && !meet
      let mis := h3 && a.acq && !meet
      let entry : AcqEntry := { ltag, block := BitVec.ofNat 32 blk, thread := BitVec.ofNat 18 thr, int }
      let join := (h3 && meet) || (a.acq && valid && !hazard && blk == me.block && ltag == me.ltag)
      let writes := s.accWrites c g a
      let s := if join then
          s.modGang c slot fun x => { x with acq := x.acq.put j ((acq ++ [entry]).drop ((acq.length + 1) - 8)) }
        else s
      let s := if writes then
          (s.keepWriter c g at_).recWrite c g at_ 16 (bint.toNat + 2 ^ 58 + (if a.rel then a.scope else 7) * 2 ^ 59 + me.thread % 2 ^ 18 * 2 ^ 62 +
            me.block % 2 ^ 32 * 2 ^ 80 + me.ltag.toNat * 2 ^ 112)
        else s
      (s, hazard, mis)

/-- Reports a hazard in the log (R222). -/
def State.raceReport (s : State) (c slot j : Nat) (a : Access) (shadow : Nat) (mis : Bool) : State :=
  let g := s.gang c slot
  let l := s.launch g.seat.ltag.toNat
  let k := bits l.raceLog.toNat 59 5
  let base := bits l.raceLog.toNat 5 52 * 32
  let n := ((s.recRead c g base).getD 0) % 2 ^ 64
  let me := s.nameOf c g j
  let nm (ltag block thread : Nat) : Nat := thread % 2 ^ 18 + block % 2 ^ 32 * 2 ^ 18 + ltag % 2 ^ 16 * 2 ^ 50
  let v := ((s.blockNamed me.ltag me.block).getD (s.block g.seat.block)).bint.toNat + bits shadow 0 32 * 2 ^ 32 +
    nm (bits shadow 112 16) (bits shadow 80 32) (bits shadow 62 18) * 2 ^ 64 + nm me.ltag.toNat me.block me.thread * 2 ^ 130 +
    (if mis then 2 ^ 197 else 0) + (if s.accWrites c g a then 2 ^ 198 else 0) + (a.va / 32 * 32) % 2 ^ 57 * 2 ^ 199
  (s.recWrite c g base 8 (n + 1)).recWrite c g (base + 32 * (1 + n % (2 ^ k - 1))) 32 v

/-- In log mode: the check, and its report (R222). -/
def State.raceLogged (s : State) (c slot j : Nat) (a : Access) : State :=
  let g := s.gang c slot
  if s.raceMode g ≠ 2 then s
  else
    let shadow := ((s.checkedAt c g a).bind fun at_ => s.recRead c g at_).getD 0
    let (t, hazard, mis) := s.raceCheck c slot j a
    if hazard then t.raceReport c slot j a shadow mis else t

/-- In trap mode: every lane's check in ascending order before any access (R222): the state after them and the lanes with a
hazard. -/
def State.raceTrapped (s : State) (c slot : Nat) (l : List (Nat × Access)) : State × Mask :=
  if s.raceMode (s.gang c slot) ≠ 1 then (s, 0)
  else
    l.foldl (fun (acc : State × Mask) p =>
      let (t, h, _) := acc.1.raceCheck c slot p.1 p.2
      (t, if h then acc.2 ||| laneBit p.1 else acc.2)) (s, 0)

/-- Can a record of the detector be read and written at its home now? One that faults keeps nothing. -/
def State.recOpen (s : State) (c : Nat) (g : Gang) (va : Nat) : Bool :=
  s.walkOpen c (s.space g).1 (s.space g).2 va &&
    match s.translateFor c g va .write with
    | .ok t => if t.kind = .coherent then s.cohOpen c t.pa true else s.homeOpen c (t.pa / 2 ^ 27)
    | .error _ => true

/-- The log's count, and the slot that the next report goes to (R222). -/
def State.logSlot (s : State) (c : Nat) (g : Gang) : Nat × Nat :=
  let l := s.launch g.seat.ltag.toNat
  let base := bits l.raceLog.toNat 5 52 * 32
  let n := ((s.recRead c g base).getD 0) % 2 ^ 64
  (n, base + 32 * (1 + n % (2 ^ bits l.raceLog.toNat 59 5 - 1)))

/-- Can the records of an access be read and written at their homes now (R221), in log mode those of the log too (R222)? -/
def State.raceOpen (s : State) (c slot : Nat) (a : Access) : Bool :=
  let g := s.gang c slot
  if s.raceMode g = 0 then true
  else
    match s.checkedAt c g a with
    | none => true
    | some at_ =>
      s.recOpen c g at_ && (s.raceMode g != 2 ||
        (s.recOpen c g (bits (s.launch g.seat.ltag.toNat).raceLog.toNat 5 52 * 32) && s.recOpen c g (s.logSlot c g).2))

/-! ## Watchpoints (R312, R313) -/

/-- The watchpoints that a write of the 8-byte word at `va` fires: their numbers and actions. -/
def State.watchFires (s : State) (c : Nat) (g : Gang) (spad : Bool) (va old new : Nat) : List (Nat × Nat) :=
  if g.isHandler then []
  else
    let k := s.core c
    ((List.range 4).filter fun n =>
      let ctl := (k.wctl.get 0 n).toNat
      let addr := (k.waddr.get 0 n).toNat
      let mask := (k.wmask.get 0 n).toNat
      ctl.testBit 0 && ctl.testBit 2 == spad && (bits ctl 16 16 == 0 || bits ctl 16 16 == g.seat.ltag.toNat) &&
        (if spad then bits addr 3 17 == va / 8 else bits addr 3 54 == va / 8) &&
        (if ctl.testBit 1 then (new ^^^ old) &&& mask != 0 else (new ^^^ (k.wval.get 0 n).toNat) &&& mask == 0)).map fun n =>
      (n, bits (k.wctl.get 0 n).toNat 3 2)

/-- An 8-byte word with `n` bytes from byte `i` replaced. -/
def patchWord (old i n v : Nat) : Nat :=
  old - old / 2 ^ (8 * i) % 2 ^ (8 * n) * 2 ^ (8 * i) + v % 2 ^ (8 * n) * 2 ^ (8 * i)

/-- A watch record (R309, R313). -/
def State.watchRecord (s : State) (c : Nat) (g : Gang) (j va n : Nat) : State :=
  let l := s.launch g.seat.ltag.toNat
  if l.trCtl.getLsbD 1 then
    s.traceRecord c l.walker ((s.nameOf c g j).bits ++ BitVec.ofNat 48 (s.timeAt (clusterOf c)) ++ BitVec.ofNat 8 2 ++
      BitVec.ofNat 57 va ++ BitVec.ofNat 2 n ++ (0 : BitVec 61))
  else s

/-- What a watchpoint compares of an access: what it writes, or what a `cas` that fails leaves; none for a load (R313, R397). -/
def Access.watched (a : Access) (old : Nat) : Option Nat :=
  match a.kind with
  | .cas => some ((a.newValue old).getD old)
  | _ => a.newValue old

/-- The watch on a lane's write: the state with the actions taken, and whether the write traps. A write that traps is not performed, so
no other watchpoint acts on it. -/
def State.watch (s : State) (c slot j : Nat) (spad : Bool) (a : Access) (va oldWord : Nat) (new : Option Nat) : State × Bool :=
  match new with
  | none => (s, false)
  | some v =>
    let g := s.gang c slot
    let fired := if a.noWatch then [] else s.watchFires c g spad va oldWord (patchWord oldWord (va % 8) a.bytes v)
    if fired.any (·.2 == 0) then (s, true)
    else (fired.foldl (fun (t : State) p => if p.2 = 1 then t.watchRecord c g j a.va p.1 else t.sendHalt (clusterOf c) true 2 c) s, false)

/-! ## Performing an access -/

/-- `n` bytes read at a place, with the bytes that the lane's own stores in flight have written, the youngest last (R199). -/
def State.ownBytes (s : State) (c slot j : Nat) (t : Trans) (a : Access) (v : Nat) : Nat :=
  ((s.pends.filter fun q => q.core == c && q.slot == slot && q.lane == j && q.kind == .store && !q.performed && q.failed.isNone &&
      ((a.upTo.map fun n => decide (q.id < n)).getD true) && q.meets t a.bytes)).foldl (fun v q =>
    (List.range a.bytes).foldl (fun v i =>
      if q.pa ≤ t.pa + i ∧ t.pa + i < q.pa + q.bytes then
        v - bits v (8 * i) 8 * 2 ^ (8 * i) + bits q.data.toNat (8 * (t.pa + i - q.pa)) 8 * 2 ^ (8 * i)
      else v) v) v

/-- Performs a lane's global access: the value a load or an atomic returns, or the cause it ends with (R190, R199, R290). With `served` its
request has reached the home. -/
def State.perform (s : State) (c slot j : Nat) (t : Trans) (a : Access) (served : Bool := false) : State × Except Nat Nat :=
  if a.kind == .bcast then (s, .ok 0) else
  match if served then none else s.reach c t a.bytes a.kind.writes a.order a.kind.isAtomic with
  | some e => (s, .error e)
  | none =>
    let word := if a.kind.isAtomic then s.homeRead (clusterOf c) (t.pa / 8 * 8) 8 else s.memPeek c { t with pa := t.pa / 8 * 8 } 8
    let old := if a.kind.isAtomic then s.homeRead (clusterOf c) t.pa a.bytes else 0
    let (s, traps) := s.watch c slot j false a (a.va / 8 * 8 + t.pa % 8) word (a.watched old)
    if traps then (s, .error cWatch)
    else
      let s := s.raceLogged c slot j a
      match a.kind with
      | .load =>
        let (s, v) := s.memRead c t a.bytes
        (s, .ok (s.ownBytes c slot j t a v))
      | .store | .bcast => (s.memWrite c t a.bytes a.data, .ok 0)
      | .atom _ | .cas =>
        let (s, v) := s.memAtomic c t a.bytes a.newValue
        (s, .ok v)

/-- Performs a lane's scratchpad access at core-wide byte `p`. -/
def State.performSpad (s : State) (c slot j p : Nat) (a : Access) : State × Except Nat Nat :=
  let old := s.spadRead c p a.bytes
  let new := a.newValue old
  let (s, traps) := s.watch c slot j true a p (s.spadRead c (p / 8 * 8) 8) (a.watched old)
  if traps then (s, .error cWatch)
  else
    match new with
    | some v => (s.spadWrite c p a.bytes v, .ok old)
    | none => (s, .ok old)

/-! ## Accesses in flight (R196, R199, R203, R204) -/

/-- The earlier accesses of a lane in flight. -/
def State.lanePends (s : State) (c slot j : Nat) : List Pend :=
  s.pends.filter fun p => p.core == c && p.slot == slot && p.lane == j

/-- Does an earlier access of the lane hold a later one back: overlapping bytes of one location (R196), unless a load reads a store of
its own lane, whose bytes it takes (R199)? -/
def Pend.holds (q : Pend) (t : Option Trans) (va n : Nat) (load : Bool) : Bool :=
  let meets := match t with
    | some t => q.meets t n
    | none => overlaps q.va q.bytes va n
  meets && !(load && q.kind == .store)

/-- Must a lane's access at `va` wait for its earlier ones: overlapping, behind an acquire, a release behind any, or a write behind a
`fence.rel`? A release at cluster scope or wider waits for the broadcast stores applied here (R203). -/
def State.mustWait (s : State) (c slot j : Nat) (a : Access) : Bool :=
  let t := match s.translateFor c (s.gang c slot) a.va .read with
    | .ok t => some t
    | .error _ => none
  let (mark, scope) := if a.kind.writes then (s.gang c slot).fences.get (0, 0) j else (0, 0)
  ((s.lanePends c slot j).any fun p =>
    !p.performed && p.failed.isNone && (a.rel || p.acq || decide (p.id < mark) || p.holds t a.va a.bytes (a.kind == .load && a.upTo != some 0))) ||
    (((a.rel && 3 ≤ a.scope) || 3 ≤ scope) && !s.bcastClear (clusterOf c))

/-- The access of a pending one. -/
def Pend.access (p : Pend) : Access :=
  { va := p.va, bytes := p.bytes, kind := p.kind, ty := p.ty, data := p.data.toNat, cmp := p.cmp.toNat, acq := p.acq, rel := p.rel,
    scope := p.scope, order := p.order, noWatch := p.instr.cause.toNat == cWatch, upTo := some p.id }

def Pend.trans (p : Pend) : Trans := { pa := p.pa, kind := p.page, w := true, x := false, imm := false }

def State.setPend (s : State) (q : Pend) : State := { s with pends := s.pends.map fun (p : Pend) => if p.id = q.id then q else p }
def State.dropPend (s : State) (id : Nat) : State := { s with pends := s.pends.filter fun (p : Pend) => p.id != id }
def State.pend? (s : State) (id : Nat) : Option Pend := s.pends.find? (·.id == id)

/-- Has the answer that a pending access waits for come: its superblock, and for a write every counted cluster's application,
in bus order (R199, R200, R201)? -/
def State.answered (s : State) (p : Pend) : Bool :=
  match p.msg with
  | none => true
  | some m =>
    !(s.sbReqs.any fun r => r.msg == m) && !(s.packets.any fun x => x.id == m) &&
      (!p.kind.writes || (s.msgAcked m &&
        (match s.msg? m with
         | none => true
         | some x => s.pends.all fun q =>
             q.performed || q.id == p.id || q.pa / 256 != p.pa / 256 || !q.kind.writes || q.page != .coherent ||
               (match q.msg.bind s.msg? with
                | some y => !y.before x
                | none => true))))

/-- Have the caches of a core room for a line that an answer brings in? -/
def State.lineRoom (s : State) (c key : Nat) : Bool := s.l1RoomOpen c (key / 256) && s.l2RoomOpen (clusterOf c) (key / 256)

/-- Can a pending access be made in this step as far as its place goes: nothing that it needs beyond its core has to be waited for, or with `served`
its request has reached the home; records that can be reached (R188, R221)? -/
def State.pendOpen (s : State) (p : Pend) (served : Bool := false) : Bool :=
  if p.engine then (if p.kind == .store then s.engReach p.core p.trans true != some cWaits else s.accessOpen p.core p.trans p.bytes true true)
  else
    p.kind == .bcast || (s.raceOpen p.core p.slot p.access &&
      (if served then
        match p.page with
        | .broadcast => (((s.cluster (clusterOf p.core)).landing p.pa).map fun pa => s.lineRoom p.core (landKey pa)).getD true
        | _ => p.kind.isAtomic || s.lineRoom p.core p.pa
       else s.accessOpen p.core p.trans p.bytes p.kind.writes p.kind.isAtomic))

/-- May a pending access be performed now: answered, and in the order of its lane, of its fences and of its instruction's lanes, which
write one place, and are checked for races, in ascending order (R195, R208, R221, R405)? -/
def State.canPerform (s : State) (p : Pend) (served : Bool := false) : Bool :=
  !p.performed && p.failed.isNone && s.answered p && s.pendOpen p served &&
    (s.pends.all fun q =>
      q.id ≥ p.id || q.core != p.core || q.slot != p.slot || q.performed || q.failed.isSome ||
        (if q.lane = p.lane then
          !(p.rel || q.acq || decide (q.id < p.after) || q.holds (some p.trans) p.va p.bytes (p.kind == .load))
         else
          !(q.batch == p.batch &&
            ((p.kind.writes && q.meets p.trans p.bytes) || s.raceMode (s.gang p.core p.slot) == 2)))) &&
    (((!p.rel || p.scope < 3) && p.fenceScope < 3) || s.bcastClear (clusterOf p.core))

/-- A write of hardware at its point of performance. -/
def State.performEngine (s : State) (p : Pend) : State × Except Nat Nat :=
  match p.kind with
  | .atom _ | .cas =>
    (match s.reach p.core p.trans p.bytes true p.order true with
     | some e => (s, .error e)
     | none => ((s.memAtomic p.core p.trans p.bytes p.access.newValue).1, .ok 0))
  | _ =>
    match s.engReach p.core p.trans true p.order with
    | some e => (s, .error e)
    | none => (s.engineWrite p.core p.trans p.bytes p.data.toNat, .ok 0)

/-- Performs a pending access. -/
def State.performPend (s : State) (p : Pend) (served : Bool := false) : State :=
  let (s, r) := if p.engine then s.performEngine p else s.perform p.core p.slot p.lane p.trans p.access served
  match r with
  | .ok v => s.setPend { p with performed := true, value := BitVec.ofNat 64 v }
  | .error e => s.setPend { p with failed := some e }

/-- Asks for the superblock of a pending coherent access: a snoop on its bus, shared with a request under way, where the transmitter's queue has
room (R45). -/
def State.requestSb (s : State) (p : Pend) : State :=
  let k := clusterOf p.core
  let sb := p.pa / 256
  match snoopFor p.kind.writes (s.moesiOf k sb) with
  | none => s.setPend { p with msg := none }
  | some kind =>
    match s.sbReqs.find? fun r => r.cluster == k && r.sb == sb && (!p.kind.writes || r.kind != .rs) with
    | some r => s.setPend { p with msg := some r.msg }
    | none =>
      if 64 ≤ s.txQueue (busOf p.pa) k then s.setPend { p with msg := none }
      else
        let (s, id) := s.sendMsg (busOf p.pa) k p.core 1 (.snoop kind sb p.id)
        { s.setPend { p with msg := some id } with
          sbReqs := s.sbReqs ++ [{ cluster := k, sb, kind, msg := id }] }

/-- Asks for what a pending access needs beyond its core, and enters it: its superblock, or with a packet its home. The core's router looks the
home's entry up first: a retired home refuses at injection (R28), and an uncorrectable entry holds the packet, or the request (R26). -/
def State.request (s : State) (p : Pend) : State :=
  match s.homePa p.core p.trans p.bytes p.kind.writes p.kind.isAtomic with
  | none => s.setPend { p with msg := none }
  | some pa =>
    let home := pa / 2 ^ 27
    let packet := (s.setPend p).inject p.core home (s.launch p.ltag.toNat) p.rc pa (.access p.id)
    if p.kind == .bcast then s.setPend p
    else if s.badEntries.contains (s.physOf p.core, home) then (if p.page = .coherent then s.setPend { p with msg := none } else packet)
    else
      match s.sends (clusterOf p.core) home with
      | .retired => s.setPend { p with failed := some cTargetRetired }
      | .unreachable => s.setPend { p with failed := some cMachineCheck }
      | .to _ => if p.page = .coherent then (s.askHome p.core pa).requestSb p else packet

/-- Does a coherent access in flight, with nothing of it under way, lack the state it needs? It asks anew. -/
def State.lacks (s : State) (p : Pend) : Bool :=
  p.page == .coherent && !p.performed && p.failed.isNone && p.kind != .bcast && s.answered p &&
    !s.cohOpen p.core p.pa p.kind.writes

/-- The packet of a pending access. -/
def State.accessPacket (s : State) (id : Nat) : Option Packet := s.packets.find? fun p => p.body == .access id

/-- Leaves an access in flight; it is performed at once where nothing stands before it. -/
def State.launchPend (s : State) (p : Pend) : State :=
  let p := { p with id := s.nextId }
  let s := { s with nextId := s.nextId + 1, pends := s.pends ++ [p] }
  let s := s.request p
  match s.pend? p.id with
  | some q =>
    let way := s.wayOpen q.core q.trans q.bytes q.kind.writes q.kind.isAtomic q.order
    if s.canPerform q && (s.accessPacket q.id).isNone && (q.kind == .bcast || way) then s.performPend q else s
  | none => s

end Sys2Proof.Machine
end

