-- ==== Sys2Proof/Machine/Convert.lean ====
section
/-! DEFINITION. Group 0x4: conversions, CB2 decoding and the stochastic-rounding state (R384 to R391), and the register runs of
formatted values, which formatted loads and stores share (R386, R402). -/

namespace Sys2Proof.Machine

/-! ## Runs -/

/-- Value of `n` registers from `r` in a lane, the first lowest (R144). -/
def State.runVal (s : State) (r n j : Nat) : Nat :=
  (List.range n).foldl (fun acc k => acc + s.vval s.focus.core s.me (r + k) j * 2 ^ (32 * k)) 0

/-- Elements of width `w` as one number, the first lowest. -/
def packList (w : Nat) (l : List Nat) : Nat := l.foldr (fun x acc => x % 2 ^ w + 2 ^ w * acc) 0

/-- A run of registers lies inside the allocation (R119). -/
def runOk (g : Gang) (r n : Nat) : Bool := r + n ≤ g.nregs

/-- The slot an instruction names: PSLO, or its own index (R153). -/
def slotIndex (f : Fields) (own : Nat) : Nat := if f.pslo ≠ 0 then f.pslo else own
def State.slotAt (s : State) (f : Fields) (own : Nat) : Slot := s.slotN s.me (slotIndex f own)

/-- Elements a lane converts (R386). -/
def Slot.count (s : Slot) : Nat := if s.blk = 2 then 32 else if s.code = 5 ∨ s.code = 6 then 16 else 8
/-- Registers of the narrow run. -/
def Slot.narrowRegs (s : Slot) : Nat := s.count * s.fmt.bits / 32
/-- Registers of a wide run of n elements. -/
def wideRegs (ty : BitVec 4) (n : Nat) : Nat := n * tyBits ty / 32
/-- A 6-bit run starts at a multiple of 3 (R144). -/
def Slot.startOk (s : Slot) (r : Nat) : Bool := !(s.code == 5 || s.code == 6) || r % 3 == 0
/-- Slots that conversions refuse (R386). -/
def Slot.convertible (s : Slot) : Bool := s.code != 0 && s.code != 12 && s.code != 13 && s.code != 14
/-- Legal block numbers (R387). -/
def Slot.blockOk (s : Slot) (q : Nat) : Bool :=
  if s.blk = 0 then q == 0
  else q ≤ 15 && (!(s.blk == 1 && (s.code == 5 || s.code == 6)) || (q ≤ 14 && q % 2 == 0))
/-- Blocks of one instruction, as numbers of element and scale. -/
def Slot.blocks (s : Slot) : Nat := if s.blk = 0 then 0 else s.count / s.blockSize

/-! ## Rounding one lane's elements -/

/-- Rounds a list of elements one after another; each stochastic rounding advances LFS first (R157). -/
def roundList (mode : Mode) (round : Nat → XVal → Nat) : Word → List XVal → List Nat × Word
  | l, [] => ([], l)
  | l, x :: xs =>
    let l := if mode = modeSR then lfsAdvance l else l
    let r := roundList mode round l xs
    (round (l.toNat % 65536) x :: r.1, r.2)

/-- Narrows elements of a wide format block by block (R159), the blocks of the given lengths: elements, scales and the new LFS. Only the
search for the greatest magnitude reads its sources under the slot's FTZ. -/
def narrowParts (s : Slot) (wide : Fmt) (mode : Mode) : List Nat → Word → List Nat → List Nat × List Nat × Word
  | [], l, _ => ([], [], l)
  | m :: n, l, vs =>
    let e := s.blockScale ((vs.take m).map (wide.source s.ftz))
    let r := if e = 255 then (List.replicate m 0, l) else roundList mode (fun z x => s.blockElem e mode z x) l ((vs.take m).map wide.decode)
    let rest := narrowParts s wide mode n r.2 (vs.drop m)
    (r.1 ++ rest.1, e :: rest.2.1, rest.2.2)

/-- `n` whole blocks. -/
def narrowBlocks (s : Slot) (wide : Fmt) (mode : Mode) (n : Nat) (l : Word) (vs : List Nat) : List Nat × List Nat × Word :=
  narrowParts s wide mode (List.replicate n s.blockSize) l vs

/-- Narrows a lane's elements of a wide format into a slot's format: elements, scales (none when unscaled) and the new LFS. -/
def Slot.narrow (s : Slot) (wide : Fmt) (mode : Mode) (l : Word) (vs : List Nat) : List Nat × List Nat × Word :=
  if s.blk = 0 then
    let r := roundList mode (fun z x => s.roundTo mode s.sat z x) l (vs.map wide.decode)
    (r.1, [], r.2)
  else narrowBlocks s wide mode s.blocks l vs

/-- The wide elements of a lane's run. -/
def State.wideElems (s : State) (ty : BitVec 4) (r n j : Nat) : List Nat :=
  let w := tyBits ty
  let v := s.runVal r (wideRegs ty n) j
  (List.range n).map fun k => v / 2 ^ (w * k) % 2 ^ w

/-- The elements of a narrow run as exact values: element k with the scale of its block (R389). -/
def Slot.widen (s : Slot) (scale : Nat → Nat) (v : Nat) : List XVal :=
  (List.range s.count).map fun k =>
    s.element (s.ftz && (s.code == 1 || s.code == 2)) (scale (k / s.blockSize)) (v / 2 ^ (s.fmt.bits * k) % 2 ^ s.fmt.bits)

/-- Rounds exact values into a wide format with FTZ = SAT = 0 and packs them. -/
def packWide (ty : BitVec 4) (mode : Mode) (xs : List XVal) : Nat :=
  packList (tyBits ty) (xs.map fun x => (fmtOfTy ty).round mode false false 0 x)

/-! ## Scale bytes in registers (R387) -/

/-- The scale of block q, which is B or the block after it: byte q mod 4 of its register, or an immediate byte. -/
def State.scaleOf (s : State) (f : Fields) (q j : Nat) : Nat :=
  let v := (s.captured 3 j).getD (s.fopVal f j)
  match f.fop with
  | .reg _ => v / 2 ^ (8 * (q % 4)) % 256
  | _ => v % 256

/-- A register with one byte replaced. -/
def putByte (v b x : Nat) : Nat := v - v / 2 ^ (8 * b) % 256 * 2 ^ (8 * b) + x % 256 * 2 ^ (8 * b)

/-! ## The instructions -/

/-- R385; stochastic rounding draws on each executing lane's LFS. -/
def execVcvt (f : Fields) (s : State) : Out :=
  let e := s.env f
  s.run (.vcvt f) f (fun _ => {}) fun sp s ex zero =>
    let lfs (j : Nat) : Word := if e.mode = modeSR then lfsAdvance (s.me.lfsOf j) else s.me.lfsOf j
    let t := s.wrV f false ex zero fun j => laneCvt f e ((lfs j).toNat % 65536) (s.va sp f j)
    .next ((if e.mode = modeSR then t.modMe fun g => { g with lfs := g.lfs.putAll ((lanesOf ex).map fun j => (j, lfs j)) } else t).finish)

/-- Encoding causes of a conversion between a wide and a narrow run: the block number, the scale operand and the runs (R386, R387). -/
def State.convCauses (s : State) (f : Fields) (sl : Slot) (zeroScale : Bool) (wide narrow : Nat) (scale : Option Nat) : Causes :=
  let g := s.me
  let all := s.focus.lanes
  let q := f.b.immNat
  let badEnc := !sl.blockOk q || (sl.blk == 0 && !zeroScale) || (f.prm == 5 && sl.fmt.bits > 8)
  let runs := runOk g wide (wideRegs f.ty sl.count) && runOk g narrow sl.narrowRegs && sl.startOk narrow &&
    (match scale with
     | some r => sl.blk == 0 || runOk g r 4
     | none => true)
  if g.isHandler then Causes.addIf (15 < q) cIllegalEncoding all []
  else Causes.addIf badEnc cIllegalEncoding all (Causes.addIf (sl.convertible && !runs) cRegRange all [])

/-- SLOT_MISMATCH, in the executing lanes (R320, R386). -/
def slotCauses (bad : Bool) (ex : Mask) : Causes := Causes.addIf bad cSlotMismatch ex []

/-- R388. -/
def execVcvtn (f : Fields) (s : State) : Out :=
  let sl := s.slotAt f f.fn.toNat
  let a := (srcReg s.me f.ka f.a).getD 0
  let c := (srcReg s.me f.kc f.c).getD 0
  let d := dstReg s.me f
  let q := f.b.immNat
  let scaled := sl.blk ≠ 0
  s.run (.vcvtn f) f
    (fun _ => { enc := s.convCauses f sl f.c.isZero a d (some c)
                first := slotCauses (!sl.convertible)
                reads := (List.range (wideRegs f.ty sl.count)).map (a + ·) ++ (if scaled then [c + q / 4] else [])
                vs := (List.range sl.narrowRegs).map (d + ·) ++ (if scaled then [c + q / 4] else []) })
    fun _ s ex zero =>
      let res (j : Nat) := sl.narrow (fmtOfTy f.ty) f.prm (s.me.lfsOf j) (s.wideElems f.ty a sl.count j)
      let old (j r : Nat) : Nat := s.vval s.focus.core s.me r j
      let t := s.wrRun f d sl.narrowRegs ex zero fun k j => packList sl.fmt.bits (res j).1 / 2 ^ (32 * k) % 2 ^ 32
      let scales : List (Nat × Nat × Nat) := (lanesOf ex).map fun j =>
        (c + q / 4, j, (res j).2.1.zipIdx.foldl (fun v p => putByte v ((q + p.2) % 4) p.1) (old j (c + q / 4)))
      let t := if scaled then t.modMe fun g => g.setV scales else t
      .next ((if f.prm = modeSR then t.modMe fun g => { g with lfs := g.lfs.putAll ((lanesOf ex).map fun j => (j, (res j).2.2)) }
              else t).finish)

/-- A scaled slot without a scale (R389). -/
def scaleMissing (f : Fields) (sl : Slot) : Bool := sl.blk != 0 && f.fop.isZero

/-- The scale operand's run lies inside the allocation. -/
def State.scaleRun (s : State) (f : Fields) (sl : Slot) : Causes :=
  Causes.addIf (!s.me.isHandler && sl.blk != 0 && !(match f.fop with
    | .reg r => runOk s.me r.toNat 4
    | _ => true)) cRegRange s.focus.lanes []

/-- R389. -/
def execVcvtw (f : Fields) (s : State) : Out :=
  let sl := s.slotAt f f.fn.toNat
  let a := (srcReg s.me f.ka f.a).getD 0
  let d := dstReg s.me f
  let q := f.b.immNat
  let n := wideRegs f.ty sl.count
  s.run (.vcvtw f) f
    (fun _ => { enc := (s.convCauses f sl f.fop.isZero d a none).merge (s.scaleRun f sl)
                first := slotCauses (!sl.convertible || scaleMissing f sl)
                reads := (List.range sl.narrowRegs).map (a + ·) ++ (if sl.blk ≠ 0 then fopReg f else [])
                vs := (List.range n).map (d + ·) })
    fun _ s ex zero =>
      let res (j : Nat) : Nat := packWide f.ty f.prm (sl.widen (fun b => s.scaleOf f (q + b) j) (s.runVal a sl.narrowRegs j))
      .next ((s.wrRun f d n ex zero fun k j => res j / 2 ^ (32 * k) % 2 ^ 32).finish)

/-- The CB2 table of a slot, copied at the launch's check (R150). -/
def State.cbEntry (s : State) (idx n : Nat) : Nat :=
  bits ((s.launch s.me.seat.ltag.toNat).cb.get 0 idx).toNat (32 * n) 32

/-- R390. -/
def execVcbd (f : Fields) (s : State) : Out :=
  let idx := slotIndex f f.fn.toNat
  let sl := s.slotN s.me idx
  let d := dstReg s.me f
  let q := f.b.immNat
  let n := wideRegs f.ty 8
  let all := s.focus.lanes
  let enc : Causes :=
    if s.me.isHandler ∨ sl.code ≠ 14 then Causes.addIf (15 < q) cIllegalEncoding all []
    else (Causes.addIf (15 < q) cIllegalEncoding all (Causes.addIf (!runOk s.me d n) cRegRange all [])).merge (s.scaleRun f sl)
  s.run (.vcbd f) f (fun _ => { enc, first := slotCauses (sl.code != 14 || scaleMissing f sl), reads := fopReg f, vs := (List.range n).map (d + ·) }) fun sp s ex zero =>
    let res (j : Nat) : Nat :=
      let i := s.va sp f j / 2 ^ (16 * (q % 2)) % 65536
      packWide f.ty f.prm (cb2Decode i (s.cbEntry idx (cb2Entry i)) (s.scaleOf f q j))
    .next ((s.wrRun f d n ex zero fun k j => res j / 2 ^ (32 * k) % 2 ^ 32).finish)

/-- R391. -/
def execVsetlfs (f : Fields) (s : State) : Out :=
  s.run (.vsetlfs f) f (fun _ => {}) fun sp s ex _ =>
    let v (j : Nat) : Word := BitVec.ofNat 32 (if s.va sp f j % 2 ^ 32 = 0 then 1 else s.va sp f j)
    .next ((s.modMe fun g => { g with lfs := g.lfs.putAll ((lanesOf ex).map fun j => (j, v j)) }).finish)

/-- R391. -/
def execVgetlfs (f : Fields) (s : State) : Out :=
  s.run (.vgetlfs f) f (fun _ => {}) fun _ s ex zero => .next ((s.wrV f false ex zero fun j => (s.me.lfsOf j).toNat).finish)

end Sys2Proof.Machine
end

