-- ==== Sys2Proof/Machine/Memory.lean ====
section
/-! DEFINITION. Groups 0x6 and 0x7: loads, stores, full-empty forms, atomics, fences, range maintenance, locks, barriers and
broadcast stores (R396 to R417, R464). -/

namespace Sys2Proof

/-- SP names the scratchpad (R329, R397). -/
def Fields.scratch (f : Fields) : Bool := f.ctl.sp == 1
def Fields.acq (f : Fields) : Bool := f.ctl.ord.getLsbD 0
def Fields.rel (f : Fields) : Bool := f.ctl.ord.getLsbD 1

namespace Machine

/-! ## Addresses (R397) -/

/-- s(A) plus a signed 32-bit offset. -/
def effAddr (base b : Nat) : Nat := ((base : Int) + toInt true 32 b) % (2 ^ 64 : Nat) |>.toNat

def State.eaOf (s : State) (sp : OpSpec) (f : Fields) (j : Nat) : Nat := effAddr (s.sa sp f) (s.vb sp f j)
/-- The address of an instruction with a uniform offset. -/
def State.eaUni (s : State) (sp : OpSpec) (f : Fields) : Nat := effAddr (s.sa sp f) (s.sb sp f)

/-- Where an access goes: a core-wide scratchpad byte, or a translated address. -/
inductive Aim where
  | spad (p : Nat)
  | glob (t : Trans)
  deriving DecidableEq, Repr

/-- The checks of stages 2 and 3 of an access of `n` bytes: its place, or its cause. -/
def State.aim (s : State) (scratch : Bool) (want : Want) (ea n align : Nat) : Except Nat Aim :=
  if ea % align ≠ 0 then .error cMisalign
  else if scratch then
    match s.me.spadAddr ea n with
    | some p => .ok (.spad p)
    | none => .error cSpadRange
  else (s.translateFor s.focus.core s.me ea want).map .glob

/-- Causes of the lanes whose check fails. -/
def laneCauses (ex : Mask) (chk : Nat → Except Nat Aim) : Causes :=
  (lanesOf ex).foldl (fun acc j =>
    match chk j with
    | .error e => Causes.add e (laneBit j) acc
    | .ok _ => acc) []

/-- The order that an instruction's routing class selects for its requests (R35). -/
def State.orderOf (s : State) (f : Fields) : Nat := ((s.launch s.me.seat.ltag.toNat).route f.ctl.rc.toNat 0).1

/-- The instruction is re-issued from an entry with CAUSE WATCH (R313). -/
def State.noWatch (s : State) : Bool := (s.focus.replay.map fun r => r.cause.toNat == cWatch).getD false

/-! ## Accesses of one element per lane -/

/-- The checks of a per-lane access, the race detector's in trap mode among them (R222, R397). -/
def State.accessChecks (s : State) (chk : Nat → Except Nat Aim) (acc : Nat → Access) (ex : Mask) : Causes :=
  let bad := laneCauses ex chk
  let (_, race) := s.raceTrapped s.focus.core s.focus.slot
    (((lanesOf ex).filter fun j => match chk j with
      | .ok (.glob _) => true
      | _ => false).map fun j => (j, acc j))
  bad.add cRace race

/-- Some address's translation cannot go on yet, its cluster's queue of walks having room (R172). -/
def State.walkWaits (s : State) (vas : List Nat) : Bool :=
  let c := s.focus.core
  let (asn, root) := s.space s.me
  vas.any fun va => !s.walkOpen c asn root va && !s.walksFull c asn root va

/-- A miss that finds the queue of walks full holds its gang (R172). -/
def State.walkHold (s : State) (vas : List Nat) : Option Stall :=
  let (asn, root) := s.space s.me
  if vas.any fun va => s.walksFull s.focus.core asn root va then some .walks else none

/-- Queues the walks of pages in no TLB (R172). -/
def State.beginWalks (s : State) (vas : List Nat) : State :=
  vas.foldl (fun (t : State) va => t.queueWalk s.focus.core (s.space s.me).1 (s.space s.me).2 va) s

/-- What global accesses begin with: walks queued for pages in no TLB (R172), and the race detector's checks in trap mode (R222). -/
def State.accessBegin (s : State) (scratch : Bool) (acc : Nat → Access) (ex : Mask) : State :=
  if scratch then s
  else
    let t := s.beginWalks ((lanesOf ex).map fun j => (acc j).va)
    (t.raceTrapped t.focus.core t.focus.slot ((lanesOf ex).map fun j => (j, acc j))).1

/-- Can a lane's access be made in this step: nothing that it needs has to be waited for? -/
def State.accOpen (s : State) (aim : Except Nat Aim) (a : Access) : Bool :=
  match aim with
  | .ok (.glob t) =>
    s.accessOpen s.focus.core t a.bytes a.kind.writes a.kind.isAtomic && s.raceOpen s.focus.core s.focus.slot a
  | _ => true

/-- And its own way carries flits? -/
def State.accDirect (s : State) (aim : Except Nat Aim) (a : Access) : Bool :=
  s.accOpen aim a &&
    match aim with
    | .ok (.glob t) => s.wayOpen s.focus.core t a.bytes a.kind.writes a.kind.isAtomic a.order
    | _ => true

/-- Makes the lanes' accesses in ascending order: at once, or left in flight (`fly`, or from the first for which something has to be waited for)
as `pend` says. The values that lanes receive, the causes of others, and the lanes in flight. -/
def State.performLanes (s : State) (chk : Nat → Except Nat Aim) (acc : Nat → Access) (fly : Bool) (pend : Nat → Trans → Pend) (ex : Mask) :
    State × SMap Nat × Causes × Mask :=
  (lanesOf ex).foldl (fun (r : State × SMap Nat × Causes × Mask) j =>
    let (s, vals, bad, flying) := r
    match chk j with
    | .error e => (s, vals, Causes.add e (laneBit j) bad, flying)
    | .ok (.spad p) =>
      (match s.performSpad s.focus.core s.focus.slot j p (acc j) with
       | (s, .ok v) => (s, vals.put j v, bad, flying)
       | (s, .error e) => (s, vals, Causes.add e (laneBit j) bad, flying))
    | .ok (.glob t) =>
      if fly || flying != 0 || !s.accDirect (chk j) (acc j) then (s.launchPend (pend j t), vals, bad, flying ||| laneBit j)
      else
        match s.perform s.focus.core s.focus.slot j t (acc j) with
        | (s, .ok v) => (s, vals.put j v, bad, flying)
        | (s, .error e) => (s, vals, Causes.add e (laneBit j) bad, flying)) (s, [], [], 0)

/-- A lane's access waits for its earlier ones; a scratchpad access overlaps no global one. -/
def State.laneWaits (s : State) (f : Fields) (j : Nat) (a : Access) : Bool :=
  s.mustWait s.focus.core s.focus.slot j (if f.scratch then { a with va := 2 ^ 64 + a.va } else a)

/-- Earlier accesses of the executing lanes that are not performed. -/
def State.owes (s : State) (ex : Mask) (p : Pend → Bool) : Bool :=
  s.pends.any fun q => q.core == s.focus.core && q.slot == s.focus.slot && ex.getLsbD q.lane && !q.performed && q.failed.isNone && p q

/-- A release at a scope still waits (R203). -/
def State.releaseWaits (s : State) (ex : Mask) (scope : Nat) : Bool :=
  s.owes ex (fun _ => true) || (3 ≤ scope && !s.bcastClear s.myCluster)

/-- The pending access of a lane. -/
def State.newPend (s : State) (i : Instr) (sp : OpSpec) (f : Fields) (j : Nat) (t : Trans) (a : Access) (dst : Option Nat) : Pend :=
  let (after, fenceScope) := if a.kind.writes then s.me.fences.get (0, 0) j else (0, 0)
  { id := 0, core := s.focus.core, slot := s.focus.slot, ltag := s.me.seat.ltag, lane := j, kind := a.kind, page := t.kind, va := a.va
    pa := t.pa, asn := (s.space s.me).1
    size := match s.lookup s.focus.core (s.space s.me).1 (s.space s.me).2 a.va with
      | .ok e => e.size
      | .error _ => 0
    batch := s.nextId, after, fenceScope, phys := entryPhys (s.tableAt s.myCluster (t.pa / 2 ^ 27))
    bytes := a.bytes, ty := a.ty, data := BitVec.ofNat 64 a.data, cmp := BitVec.ofNat 64 a.cmp, dst, lat := f.lat.toNat
    acq := a.acq, rel := a.rel, scope := a.scope, rc := f.ctl.rc.toNat, order := a.order
    instr := s.lateEntry i sp f (laneBit j) (if a.noWatch then cWatch else 0) }

/-- What a load of TYPE writes (R401). -/
def loadExt (ty : BitVec 4) (v : Nat) : Nat :=
  let w := tyBits ty
  (BitVec.ofInt 64 (toInt (tyIsI ty && w < 32) w v)).toNat % 2 ^ (max 32 w)

/-- A per-lane access of one element: at once, or in flight for global memory. -/
def State.elementAccess (s : State) (i : Instr) (f : Fields) (want : Want) (ret : Bool) (reads : List Nat)
    (acc : OpSpec → State → Nat → Access) : Out :=
  let chk (sp : OpSpec) (s : State) (j : Nat) : Except Nat Aim :=
    let a := acc sp s j
    s.aim f.scratch want a.va a.bytes a.bytes
  let wide := ty64 f
  s.run i f
    (fun sp =>
      { reads
        checks := fun ex => s.accessChecks (chk sp s) (acc sp s) ex
        va := fun j => BitVec.ofNat 64 (s.eaOf sp f j)
        walks := fun ex => if f.scratch then [] else (lanesOf ex).map fun j => (acc sp s j).va
        stall := fun ex =>
          ((lanesOf ex).any fun j => s.laneWaits f j (acc sp s j)) ||
            (!f.scratch && (s.walkWaits ((lanesOf ex).map fun j => (acc sp s j).va) ||
              (s.raceMode s.me == 1 && (lanesOf ex).any fun j => !s.raceOpen s.focus.core s.focus.slot (acc sp s j))))
        hold := fun ex => if f.scratch then none else s.walkHold ((lanesOf ex).map fun j => (acc sp s j).va) })
    fun sp s ex zero =>
      let s0 := s
      let dst := if ret && !f.nwb then some (dstReg s0.me f) else none
      let (s, vals, bad, flying) := (s.accessBegin f.scratch (acc sp s0) ex).performLanes (chk sp s0) (acc sp s0) s.focus.fly
        (fun j t => s0.newPend i sp f j t (acc sp s0 j) dst) ex
      let done := ex &&& ~~~bad.lanes &&& ~~~flying
      let s := if ret then s.wrV f wide done zero fun j => loadExt f.ty (vals.get 0 j) else s
      let s := s.finish
      .next (if bad.isEmpty then s else s.trapLate s0 i sp f bad { va := fun j => BitVec.ofNat 64 (s0.eaOf sp f j) })

/-! ## Formatted accesses (R402) -/

/-- The pieces of `[a, a + n)` at multiples of 8: address and bytes. -/
def cut8 : Nat → Nat → Nat → List (Nat × Nat)
  | 0, _, _ => []
  | fuel + 1, a, n =>
    if n = 0 then []
    else
      let k := min n (8 - a % 8)
      (a, k) :: cut8 fuel (a + k) (n - k)

/-- Where a lane's blocks lie: the elements' address and the scales' addresses. -/
structure FmtPlace where
  elems : Nat
  scales : List Nat
  deriving DecidableEq, Repr

/-- Bytes of one block. -/
def Slot.blockBytes (s : Slot) : Nat := s.blockSize * s.fmt.bits / 8

/-- The lane's place in memory, or MISALIGN. -/
def fmtPlace (sl : Slot) (base b : Nat) : Except Nat FmtPlace :=
  let ea := effAddr base b
  if sl.blk = 0 then (if ea % 4 = 0 then .ok ⟨ea, []⟩ else .error cMisalign)
  else
    let u := toInt true 32 b
    let bpb := sl.blockBytes
    let g := 16 + 16 * bpb
    let q := (u % (g : Int)).toNat
    let group := (((base : Int) + u - q) % (2 ^ 64 : Nat)).toNat
    let k := (q - 16) / bpb
    if base % 16 ≠ 0 || q < 16 || (q - 16) % bpb ≠ 0 || (sl.blocks = 2 && k % 2 = 1) then .error cMisalign
    else .ok ⟨ea, (List.range sl.blocks).map fun i => group + k + i⟩

/-- The accesses of a lane: scales first, then the elements cut at multiples of 8. -/
def fmtPieces (sl : Slot) (p : FmtPlace) : List (Nat × Nat) :=
  p.scales.map (fun a => (a, 1)) ++ cut8 17 p.elems (sl.count * sl.fmt.bits / 8)

def State.fmtAim (s : State) (f : Fields) (want : Want) (sl : Slot) (base b : Nat) : Except Nat Aim :=
  match fmtPlace sl base b with
  | .error e => .error e
  | .ok p => (fmtPieces sl p).foldl (fun acc x =>
      match acc with
      | .error e => .error e
      | .ok _ => s.aim f.scratch want x.1 x.2 1) (.ok (.spad 0))

/-- One lane's pieces; on a cause its writes are not performed. -/
def State.fmtLane (s : State) (f : Fields) (want : Want) (j : Nat) (acc : Access) : List (Nat × Nat × Nat) → State × Except Nat (List Nat)
  | [] => (s, .ok [])
  | (a, n, v) :: rest =>
    let x := { acc with va := a, bytes := n, data := v }
    let (t, r) := match s.aim f.scratch want a n 1 with
      | .ok (.spad p) => s.performSpad s.focus.core s.focus.slot j p x
      | .ok (.glob t) => s.perform s.focus.core s.focus.slot j t x
      | .error e => (s, .error e)
    match r with
    | .error e => (s, .error e)
    | .ok v =>
      match State.fmtLane t f want j acc rest with
      | (u, .ok l) => (u, .ok (v :: l))
      | (_, .error e) => (s, .error e)

/-- The checks of stages 1 to 3 that formatted loads and stores share, `wide` being the first register of the wide run. -/
def State.fmtPlan (s : State) (f : Fields) (want : Want) (sl : Slot) (wide : Nat) (acc : Access) (p : Plan) (sp : OpSpec) : Plan :=
  let all := s.focus.lanes
  let n := wideRegs f.ty sl.count
  let mode := if f.prm ≠ 0 then f.prm else f.ctl.rm.toNat
  let base := s.sa sp f
  let one (j : Nat) : List (Nat × Access) :=
    match fmtPlace sl base (s.vb sp f j) with
    | .ok q => (fmtPieces sl q).map fun x => (j, { acc with va := x.1, bytes := x.2 })
    | .error _ => []
  let bad := !sl.convertible || (sl.blk != 0 && !sl.slay)
  { p with
    enc :=
      if s.me.isHandler then []
      else
        Causes.addIf (mode == 5 && sl.fmt.bits > 8) cIllegalEncoding all (Causes.addIf (!bad && !runOk s.me wide n) cRegRange all [])
    first := slotCauses bad
    walks := fun ex => if f.scratch then [] else (lanesOf ex).flatMap fun j => (one j).map fun x => x.2.va
    checks := fun ex =>
      let bad := laneCauses ex fun j => s.fmtAim f want sl base (s.vb sp f j)
      if f.scratch then bad
      else bad.add cRace (s.raceTrapped s.focus.core s.focus.slot ((lanesOf (ex &&& ~~~bad.lanes)).flatMap one)).2
    va := fun j => BitVec.ofNat 64 (s.eaOf sp f j)
    stall := fun ex => (lanesOf ex).any fun j => (one j).any fun x =>
      s.laneWaits f j x.2 || (!f.scratch && (s.walkWaits [x.2.va] || !s.accOpen (s.aim false want x.2.va x.2.bytes 1) x.2))
    hold := fun ex => if f.scratch then none else s.walkHold ((lanesOf ex).flatMap fun j => (one j).map fun x => x.2.va) }

/-- The lines of software-managed data that one block and its scale lie in, by block (R163). -/
def State.unitLines (s : State) (sl : Slot) (q : FmtPlace) : List (List Nat) :=
  (List.range sl.blocks).map fun i =>
    let at_ := q.elems + i * sl.blockBytes
    ([q.scales.getD i 0, at_, at_ + sl.blockBytes - 1].filterMap fun va =>
      match s.translateFor s.focus.core s.me va .read with
      | .ok t => if t.kind = .swm then some (t.pa / 64) else none
      | .error _ => none).dedup

/-- A scaled read takes the lines of its units from the L2 together: clean bytes in the L1 are read anew (R163, R218). -/
def State.freshUnits (s : State) (l : List (List Nat)) : State :=
  ((l.filter fun u => 1 < u.length).flatten).foldl (fun (s : State) la =>
    if (s.l1Line s.focus.core la).valid then s.setL1 s.focus.core la { s.l1Line s.focus.core la with valid := false } else s) s

/-- The lines of a scaled write's units go to the next level together (R163, R218). -/
def State.tieUnits (s : State) (l : List (List Nat)) : State :=
  let new := l.filter fun u => 1 < u.length
  if new.isEmpty then s else s.modCore s.focus.core fun k => { k with ties := k.ties ++ new.filter fun u => !k.ties.contains u }

/-- Runs the pieces of every lane: `vals j` gives the values a store writes. -/
def State.fmtRun (s : State) (sp : OpSpec) (f : Fields) (want : Want) (sl : Slot) (acc : Access) (ex : Mask)
    (vals : Nat → List Nat) : State × SMap (List Nat) × Causes :=
  let s0 := s
  let race := (lanesOf ex).flatMap fun j =>
    match fmtPlace sl (s0.sa sp f) (s0.vb sp f j) with
    | .ok q => (fmtPieces sl q).map fun x => (j, { acc with va := x.1, bytes := x.2 })
    | .error _ => []
  let s := if f.scratch then s else s.beginWalks (race.map fun x => x.2.va)
  let s := (s.raceTrapped s.focus.core s.focus.slot (if f.scratch then [] else race)).1
  (lanesOf ex).foldl (fun (r : State × SMap (List Nat) × Causes) j =>
    let (s, got, bad) := r
    match fmtPlace sl (s0.sa sp f) (s0.vb sp f j) with
    | .error e => (s, got, Causes.add e (laneBit j) bad)
    | .ok q =>
      let ps := fmtPieces sl q
      let vs := vals j
      let units := if f.scratch ∨ sl.blk = 0 then [] else s0.unitLines sl q
      let s := if acc.kind.writes then s.tieUnits units else s.freshUnits units
      match s.fmtLane f want j acc (ps.zipIdx.map fun x => (x.1.1, x.1.2, vs.getD x.2 0)) with
      | (s, .ok l) => (s, got.put j l, bad)
      | (s, .error e) => (s, got, Causes.add e (laneBit j) bad)) (s, [], [])

/-- A lane's element bits as one number, from the values of its element pieces. -/
def joinPieces : List (Nat × Nat) → List Nat → Nat
  | (_, n) :: ps, v :: vs => v % 2 ^ (8 * n) + 2 ^ (8 * n) * joinPieces ps vs
  | _, _ => 0

/-- The element bits cut into the values of their pieces. -/
def splitPieces : List (Nat × Nat) → Nat → List Nat
  | (_, n) :: ps, v => v % 2 ^ (8 * n) :: splitPieces ps (v / 2 ^ (8 * n))
  | [], _ => []

def State.fmtAccess (s : State) (f : Fields) (k : AccKind) : Access :=
  { va := 0, bytes := 1, kind := k, acq := f.acq && !k.writes, rel := f.rel && k.writes, scope := f.ctl.sc.toNat, order := s.orderOf f, noWatch := s.noWatch }

/-- A formatted load (R402). -/
def State.fmtLoad (s : State) (i : Instr) (f : Fields) : Out :=
  let sl := s.slotAt f f.ctl.sl.toNat
  let d := dstReg s.me f
  let n := wideRegs f.ty sl.count
  let acc := s.fmtAccess f .load
  let mode := if f.prm ≠ 0 then f.prm else f.ctl.rm.toNat
  s.run i f (s.fmtPlan f .read sl d acc { vs := (List.range n).map (d + ·) }) fun sp s ex zero =>
    let s0 := s
    let (s, got, bad) := s.fmtRun sp f .read sl acc ex fun _ => []
    let res (j : Nat) : Nat :=
      let l := got.get [] j
      let nb := if sl.blk = 0 then 0 else sl.blocks
      let ea := s0.eaOf sp f j
      packWide f.ty mode (sl.widen (fun b => l.getD b 0) (joinPieces (cut8 17 ea (sl.count * sl.fmt.bits / 8)) (l.drop nb)))
    let s := s.wrRun f d n (ex &&& ~~~bad.lanes) zero fun k j => res j / 2 ^ (32 * k) % 2 ^ 32
    let s := s.finish
    .next (if bad.isEmpty then s else s.trapLate s0 i sp f bad { va := fun j => BitVec.ofNat 64 (s0.eaOf sp f j) })

/-- A formatted store (R402). -/
def State.fmtStore (s : State) (i : Instr) (f : Fields) : Out :=
  let sl := s.slotAt f f.ctl.sl.toNat
  let c := f.c.regNat
  let n := wideRegs f.ty sl.count
  let acc := s.fmtAccess f .store
  let mode := if f.prm ≠ 0 then f.prm else f.ctl.rm.toNat
  s.run i f (s.fmtPlan f .write sl c acc { reads := (List.range n).map (c + ·) }) fun sp s ex _ =>
    let s0 := s
    let res (j : Nat) := sl.narrow (fmtOfTy f.ty) mode (s0.me.lfsOf j) (s0.wideElems f.ty c sl.count j)
    let vals (j : Nat) : List Nat :=
      (res j).2.1 ++ splitPieces (cut8 17 (s0.eaOf sp f j) (sl.count * sl.fmt.bits / 8)) (packList sl.fmt.bits (res j).1)
    let (s, _, bad) := s.fmtRun sp f .write sl acc ex vals
    let s := if mode = modeSR then
        s.modMe fun g => { g with lfs := g.lfs.putAll ((lanesOf (ex &&& ~~~bad.lanes)).map fun j => (j, (res j).2.2)) }
      else s
    let s := s.finish
    .next (if bad.isEmpty then s else s.trapLate s0 i sp f bad { va := fun j => BitVec.ofNat 64 (s0.eaOf sp f j) })

/-! ## `ld`, `st`, `atom`, `cas` (R401, R405, R406) -/

/-- R401, R402. -/
def execLd (f : Fields) (s : State) : Out :=
  if f.ctl.fmte then s.fmtLoad (.ld f) f
  else
    s.elementAccess (.ld f) f .read true [] fun sp s j =>
      { va := s.eaOf sp f j, bytes := tyBits f.ty / 8, kind := .load, ty := f.ty, acq := f.acq, scope := f.ctl.sc.toNat, order := s.orderOf f, noWatch := s.noWatch }

/-- R401, R402. -/
def execSt (f : Fields) (s : State) : Out :=
  if f.ctl.fmte then s.fmtStore (.st f) f
  else
    s.elementAccess (.st f) f .write false [] fun sp s j =>
      { va := s.eaOf sp f j, bytes := tyBits f.ty / 8, kind := .store, ty := f.ty, data := s.vc sp f j % 2 ^ tyBits f.ty, rel := f.rel
        scope := f.ctl.sc.toNat, order := s.orderOf f, noWatch := s.noWatch }

/-- R405. -/
def execAtom (f : Fields) (s : State) : Out :=
  s.elementAccess (.atom f) f .write true [] fun sp s j =>
    { va := s.eaOf sp f j, bytes := tyBits f.ty / 8, kind := .atom f.fn.toNat, ty := f.ty, data := s.vc sp f j % 2 ^ tyBits f.ty
      acq := f.acq, rel := f.rel, scope := f.ctl.sc.toNat, order := s.orderOf f, noWatch := s.noWatch }

/-- The value of the destination register, or pair, before any write. -/
def State.oldDst (s : State) (f : Fields) (wide : Bool) (j : Nat) : Nat :=
  let r := dstReg s.me f
  s.vval s.focus.core s.me r j + (if wide then 2 ^ 32 * s.vval s.focus.core s.me (r + 1) j else 0)

/-- R406. -/
def execCas (f : Fields) (s : State) : Out :=
  let r := dstReg s.me f
  s.elementAccess (.cas f) f .write true (if ty64 f then [r, r + 1] else [r]) fun sp s j =>
    { va := s.eaOf sp f j, bytes := tyBits f.ty / 8, kind := .cas, ty := f.ty, data := s.vc sp f j % 2 ^ tyBits f.ty
      cmp := s.oldDst f (ty64 f) j, acq := f.acq, rel := f.rel, scope := f.ctl.sc.toNat, order := s.orderOf f, noWatch := s.noWatch }

/-! ## Full-empty forms (R177, R403, R404) -/

/-- A lane of a waiting gang has its word. -/
def State.feGot (s : State) (c slot lane : Nat) (v : Word) : State :=
  s.modGang c slot fun g =>
    { g with waits := g.waits.map fun w =>
        if w.ex.getLsbD lane then { w with done := w.done ||| laneBit lane, got := w.got.put lane v } else w }

/-- The first waiter of a granule that its bit lets proceed. -/
def CoreSt.feNext (k : CoreSt) (gr : Nat) (full : Bool) : Option FeWaiter := k.feWait.find? fun w => w.granule == gr && w.fill == full

/-- Drops one waiter. -/
def CoreSt.feDrop (k : CoreSt) (w : FeWaiter) : CoreSt :=
  { k with feWait := k.feWait.filter fun x => !(x.slot == w.slot && x.lane == w.lane && x.granule == w.granule) }

/-- A lane's write that a watchpoint traps is not performed: the lane ends with WATCH, the others of its instruction wait on (R273, R313). -/
def State.feTrap (s : State) (c slot lane va : Nat) : State :=
  let ws := (s.gang c slot).waits
  match ws.find? fun w => w.ex.getLsbD lane with
  | none => s
  | some w =>
    let s := match w.entry with
      | some e => s.takeTrap c
          { slot, causes := [(cWatch, laneBit lane)], va := BitVec.ofNat 64 va, raised := s.timeAt (clusterOf c)
            entry := { e with mask := laneBit lane, group := 0, cause := BitVec.ofNat 8 cWatch } }
      | none => s
    s.modGang c slot fun g =>
      { g with waits := ws.map fun w => if w.ex.getLsbD lane then { w with ex := w.ex &&& ~~~laneBit lane } else w }

/-- A lane's store of a full-empty form reaches the bank: the data with the bit, where no watchpoint traps (R177, R313). -/
def State.feStore (s : State) (c : Nat) (w : FeWaiter) : State :=
  let a : Access := { va := w.va, bytes := 4, kind := .store, noWatch := w.noWatch }
  let (s, traps) := s.watch c w.slot w.lane true a w.addr (s.spadRead c (w.addr / 8 * 8) 8) (some w.data.toNat)
  if traps then s.feTrap c w.slot w.lane w.va
  else ((s.spadWrite c w.addr 4 w.data.toNat).setGran c w.granule true).feGot c w.slot w.lane 0

/-- Serves the waiters of a granule, in the order of their first attempts, while its bit allows. -/
def State.feServe (c gr : Nat) : Nat → State → State
  | 0, s => s
  | n + 1, s =>
    let full := s.granFull c gr
    match (s.core c).feNext gr full with
    | none => s
    | some w =>
      let s := s.modCore c (·.feDrop w)
      if w.fill then
        let v := BitVec.ofNat 32 (s.spadRead c w.addr 4)
        let s := if w.clr then s.setGran c gr false else s
        State.feServe c gr n (s.feGot c w.slot w.lane v)
      else
        State.feServe c gr n (s.feStore c w)

/-- Writes the results of a full-empty instruction whose lanes are all served or timed out, and ends it. -/
def State.feResult (s : State) (f : Fields) (w : Wait) : State :=
  let old := s
  let s :=
    if w.ldfe then
      if f.m58 then
        let was (j : Nat) : Nat := s.vval s.focus.core s.me w.dst j
        s.wrVAt f w.dst true w.ex w.zero fun j =>
          if w.done.getLsbD j then (w.got.get 0 j).toNat + 2 ^ 32
          else if f.nwb then (s.latchVec f.lat.toNat j).toNat % 2 ^ 32 else was j
      else s.wrVAt f w.dst false w.ex w.zero fun j => (w.got.get 0 j).toNat
    else if f.m58 then s.wrVAt f w.dst false w.ex w.zero fun j => if w.done.getLsbD j then 1 else 0
    else s
  (s.lateLatch old).finish

/-- Gives the focus to the group of a gang that waits inside an instruction. -/
def State.focusWait (s : State) (c slot : Nat) (w : Wait) : State :=
  { s with focus := { core := c, slot, lanes := w.lanes, pc := w.pc, len := w.len } }

/-- The wait of a group ends: the focus is the group's, so that its instruction can complete. -/
def State.endWait (s : State) (c slot : Nat) (w : Wait) : State :=
  (s.focusWait c slot w).modGang c slot fun g => { g with waits := g.waits.filter (· != w) }

/-- A wait inside a full-empty instruction: its words. -/
def Wait.fe? (w : Wait) : Option Fields := if w.bar.isNone && w.sysw.isNone && w.tl.isNone then w.ins else none

/-- Ends each full-empty instruction of a gang whose lanes are all served or timed out. -/
def State.feSettle (s : State) (c slot : Nat) : State :=
  (s.gang c slot).waits.foldl (fun (s : State) w =>
    match w.fe? with
    | some f =>
      if w.ex &&& ~~~(w.done ||| w.timedOut) == 0 then { (s.endWait c slot w).feResult f w with focus := s.focus } else s
    | none => s) s

/-- Ends what serving has completed on a core. -/
def State.feSettleAll (s : State) (c : Nat) : State :=
  (List.range 15).foldl (fun s g => s.feSettle c g) s

/-- A granule of a core has turned full or empty: its waiters are served. -/
def State.granTurned (s : State) (c gr : Nat) : State :=
  (State.feServe c gr (s.core c).feWait.length s).feSettleAll c

/-- A full-empty instruction: lanes reach the bank in ascending order; those that cannot proceed wait, or end when their bound is
zero. `step` performs a lane, or answers none where it must wait. -/
def State.fullEmpty (s : State) (i : Instr) (f : Fields) (ldfe : Bool) (reads : List Nat) (bound : OpSpec → State → Nat → Option Nat)
    (data : OpSpec → State → Nat → Nat) : Out :=
  s.run i f
    (fun sp =>
      { enc := Causes.addIf (f.nwb && reads.any fun r => !regOk s.me false f.dind r) cRegRange s.focus.lanes []
        reads
        checks := fun ex => laneCauses ex fun j => s.aim true .read (s.eaOf sp f j) 4 4
        va := fun j => BitVec.ofNat 64 (s.eaOf sp f j)
        stall := fun ex => (lanesOf ex).any fun j =>
          s.mustWait s.focus.core s.focus.slot j { va := 2 ^ 64, bytes := 4, kind := if ldfe then .load else .store, rel := !ldfe, scope := 1 } })
    fun sp s ex zero =>
      let s0 := s
      let c := s.focus.core
      let slot := s.focus.slot
      let now := s.cycles s.myCluster
      let start : Wait :=
        { lanes := s.focus.lanes, pc := s.focus.pc, since := now, ins := some f, ex, zero, dst := dstReg s0.me f, len := s.focus.len, ldfe
          entry := some (s0.lateEntry i sp f ex cWatch) }
      let s := s.waitIn start
      let s := (lanesOf ex).foldl (fun (s : State) j =>
        match s0.aim true .read (s0.eaOf sp f j) 4 4 with
        | .ok (.spad p) =>
          let gr := p / 16
          let full := s.granFull c gr
          let b := bound sp s0 j
          let waits := (s.core c).feWait.any fun w => w.granule == gr && w.fill == ldfe
          let me : FeWaiter :=
            { slot, lane := j, granule := gr, addr := p, va := s0.eaOf sp f j, fill := ldfe, clr := ldfe && f.m57
              data := BitVec.ofNat 32 (data sp s0 j), bound := b, since := now, noWatch := s0.noWatch }
          if ldfe && full && !waits then
            let v := BitVec.ofNat 32 (s.spadRead c p 4)
            let s := (if f.m57 then s.setGran c gr false else s).feGot c slot j v
            if f.m57 then State.feServe c gr (s.core c).feWait.length s else s
          else if !ldfe && (!f.m58 || (!full && !waits)) then
            let s := s.feStore c me
            State.feServe c gr (s.core c).feWait.length s
          else if b = some 0 then
            s.modMe fun g =>
              { g with waits := g.waits.map fun w =>
                  if w.ex.getLsbD j then { w with timedOut := w.timedOut ||| laneBit j } else w }
          else
            s.modCore c fun k => { k with feWait := k.feWait ++ [me] }
        | _ => s) s
      .next (s.feSettleAll c)

/-- R403, R404. -/
def execLdfe (f : Fields) (s : State) : Out :=
  let r := dstReg s.me f
  s.fullEmpty (.ldfe f) f true (if f.m58 && !f.nwb then [r] else []) (fun sp s _ => if f.m58 then some (s.sc sp f) else none) fun _ _ _ => 0

/-- R403, R404. -/
def execStfe (f : Fields) (s : State) : Out :=
  s.fullEmpty (.stfe f) f false (if f.m58 then [dstReg s.me f] else [])
    (fun _ s j => if f.m58 then some (s.oldDst f false j) else none) fun sp s j => s.vc sp f j % 2 ^ 32

/-! ## Broadcast stores (R416) -/

/-- A broadcast store of a core enters its transmitter at once: no earlier one of the core for the bus is under way, and the way to
the transmitter is free (R45). -/
def State.storeNear (s : State) (c bus : Nat) : Bool :=
  (s.packets.all fun p => match p.body with
    | .store off _ _ => p.src != c || busOf off != bus
    | _ => true) && s.homeOpen c (transmitter (clusterOf c)) && s.wayUp (s.physOf c) (s.physOf (transmitter (clusterOf c)))

/-- Sends a broadcast store of a core to its transmitter: its packet on the mesh, or with the way done its message; answers its
number. -/
def State.sendStore (s : State) (c : Nat) (l : Half) (rc off : Nat) (data : List Byte) (near : Bool) : State × Nat :=
  let k := clusterOf c
  if near then s.sendMsg (busOf off) k c (1 + data.length / 16) (.store off data) l
  else (s.inject c (transmitter k) (s.launch l.toNat) rc off (.store off data l), s.nextId)

/-- An instruction whose group makes one write waits as each of its lanes would (R203, R208, R416). -/
def State.groupWaits (s : State) (ex : Mask) (acq : Pend → Bool) (rel : Bool) (scope : Nat) : Bool :=
  let marks := (lanesOf ex).map fun j => (j, s.me.fences.get (0, 0) j)
  (if rel then s.releaseWaits ex scope else s.owes ex acq) ||
    marks.any fun p => s.owes (laneBit p.1) (fun q => decide (q.id < p.2.1)) || (3 ≤ p.2.2 && !s.bcastClear s.myCluster)

/-- Does an earlier access in flight touch the window bytes of a broadcast store (R196, R416)? -/
def State.windowMeets (s : State) (q : Pend) (ea size : Nat) : Bool :=
  match s.aim false .window ea size size with
  | .ok (.glob t) => !q.kind.writes && q.meets t size
  | _ => false

/-- R416. -/
def execStbw (f : Fields) (s : State) : Out :=
  let size := 16 * 2 ^ f.fn.toNat
  let c := f.c.regNat
  let n := (size / 4 + s.me.gw - 1) / s.me.gw
  s.run (.stbw f) f
    (fun sp =>
      { enc := Causes.addIf (!runOk s.me c n) cRegRange s.focus.lanes []
        reads := (List.range n).map (c + ·)
        checks := fun ex =>
          match s.aim false .window (s.eaUni sp f) size size with
          | .error e => Causes.add e ex []
          | .ok _ => []
        va := fun _ => BitVec.ofNat 64 (s.eaUni sp f)
        walks := fun _ => [s.eaUni sp f]
        stall := fun ex => s.walkWaits [s.eaUni sp f] ||
          s.groupWaits ex (fun q => q.acq || s.windowMeets q (s.eaUni sp f) size) f.rel f.ctl.sc.toNat
        hold := fun _ =>
          match s.walkHold [s.eaUni sp f], s.aim false .window (s.eaUni sp f) size size with
          | some h, _ => some h
          | none, .ok (.glob t) => if 64 ≤ s.busQueued (busOf t.pa) s.myCluster then some (.bus (busOf t.pa)) else none
          | none, _ => none })
    fun sp s ex _ =>
      match s.aim false .window (s.eaUni sp f) size size with
      | .ok (.glob t) =>
        let word (i : Nat) : Nat :=
          let l := i % s.me.gw
          if s.me.liveLanes.getLsbD l then s.vval s.focus.core s.me (c + i / s.me.gw) l else 0
        let data := (List.range size).map fun b => BitVec.ofNat 8 (word (b / 4) / 2 ^ (8 * (b % 4)))
        let s0 := s
        let s := s.beginWalks [s.eaUni sp f]
        let (s1, mid) := s.sendStore s.focus.core s.me.seat.ltag f.ctl.rc.toNat t.pa data
          (!s.focus.fly && s.storeNear s.focus.core (busOf t.pa))
        let s2 := (lanesOf ex).foldl (fun (u : State) j =>
          let p := s0.newPend (.stbw f) sp f j t { va := s.eaUni sp f, bytes := size, kind := .bcast, rel := f.rel, scope := f.ctl.sc.toNat } none
          { u with nextId := u.nextId + 1, pends := u.pends ++ [{ p with id := u.nextId, msg := some mid }] }) s1
        .next s2.finish
      | _ => .next s.finish

/-! ## Ranges of lines (R192, R408, R410, R464) -/

/-- The 64 KiB pages that a range touches. -/
def pagesOf (a b : Nat) : List Nat := if b = 0 then [] else (List.range ((a + b - 1) / 65536 - a / 65536 + 1)).map (a / 65536 + ·)

/-- The lowest failing page of a range: its cause and address. -/
def State.rangeFault (s : State) (a b : Nat) : Option (Nat × Nat) :=
  (pagesOf a b).findSome? fun p =>
    match s.translateFor s.focus.core s.me (max a (p * 65536)) .read with
    | .error e => some (e, max a (p * 65536))
    | .ok _ => none

/-- The physical line numbers `[lo, hi)` of the software-managed pages of a range. -/
def State.rangeLines (s : State) (a b : Nat) : List (Nat × Nat) :=
  (pagesOf a b).filterMap fun p =>
    let lo := max a (p * 65536)
    let hi := min (a + b) ((p + 1) * 65536)
    match s.translateFor s.focus.core s.me lo .read with
    | .ok t => if t.kind = .swm then some (t.pa / 64, (t.pa + (hi - lo)) / 64) else none
    | .error _ => none

def inLines (l : List (Nat × Nat)) (la : Nat) : Bool := l.any fun p => p.1 ≤ la && la < p.2

/-- Causes of an ill-formed or failing range. -/
def State.rangeChecks (s : State) (a b limit : Nat) (ex : Mask) : Causes :=
  if a % 64 ≠ 0 || b % 64 ≠ 0 || limit < b then Causes.add cMisalign ex []
  else
    match s.rangeFault a b with
    | some (e, _) => Causes.add e ex []
    | none => []

/-- The VAs at which the pages of a range are translated. -/
def pageVas (a b : Nat) : List Nat := (pagesOf a b).map fun p => max a (p * 65536)

/-- The earlier accesses of the gang that a range instruction waits for. A write of the range comes after the gang's writes, after its
accesses to the range's bytes, and after what a `fence.rel` or `fence.ar` of an executing lane stands behind; a read of it comes after the gang's
software-managed accesses (R196, R208, R407, R464). -/
def State.rangeWaits (s : State) (lines : List (Nat × Nat)) (writes : Bool) (ex : Mask) : Bool :=
  s.owes (BitVec.allOnes 64) (fun q => q.acq ||
      if writes then q.kind.writes || (q.page == .swm && inLines lines (q.pa / 64)) else q.page == .swm) ||
    (writes && s.groupWaits ex (fun _ => false) false 0)

/-- The plan of a range instruction: `homes` are the lines that it writes to their homes or fetches from them. -/
def State.rangePlan (s : State) (f : Fields) (limit : Nat) (writes : Bool) (homes : List Nat) (sp : OpSpec) : Plan :=
  let a := s.sa sp f
  let b := s.sb sp f
  let bad := a % 64 != 0 || b % 64 != 0 || decide (limit < b)
  { checks := fun ex => s.rangeChecks a b limit ex
    va := fun _ => BitVec.ofNat 64 (((s.rangeFault a b).map (·.2)).getD a)
    walks := fun _ => if bad then [] else pageVas a b
    stall := fun ex => s.rangeWaits (if bad then [] else s.rangeLines a b) writes ex ||
      (!bad && (s.walkWaits (pageVas a b) || homes.any fun la => !s.homeOpen s.focus.core (linePa la / 2 ^ 27)))
    hold := fun _ => if bad then none else s.walkHold (pageVas a b) }

/-- How a line's home ends a write-back or a fetch (R290). -/
def State.lineReach (s : State) (la order : Nat) : Option Nat := s.homeCause s.focus.core (linePa la) order

/-- The cause of the first line whose home does not answer. -/
def State.linesReach (s : State) (l : List Nat) (order : Nat) : Option Nat := l.findSome? fun la => s.lineReach la order

/-- Ends a range instruction: complete, or with a late cause in its executing lanes. -/
def State.rangeEnd (s s0 : State) (i : Instr) (sp : OpSpec) (f : Fields) (ex : Mask) (bad : Option Nat) : Out :=
  match bad with
  | none => .next s.finish
  | some e => .next (s.finish.trapLate s0 i sp f [(e, ex)] { va := fun _ => BitVec.ofNat 64 (s0.sa sp f) })

/-- Dirty lines of the issuing cluster's L2 that `p` holds of. -/
def State.dirtyL2 (s : State) (p : Nat → Bool) : List Nat := ((s.cluster s.myCluster).l2.filter fun e => p e.1 && e.2.mask != 0).map (·.1)

/-- Lines that the write-back of a range sends to their homes, those its L1 holds dirty among them. -/
def State.backLines (s : State) (a b : Nat) : List Nat :=
  let p := inLines (s.rangeLines a b)
  (s.dirtyL2 p ++ (s.myCore.l1.filter fun e => p e.1 && e.2.mask != 0).map (·.1)).dedup

/-- Writes back the L1 lines that `p` holds of, with their units. -/
def State.backL1 (s : State) (p : Nat → Bool) : State :=
  ((s.myCore.l1.filter fun e => p e.1 && e.2.mask != 0).map (·.1)).foldl (fun s la => s.l1WriteUnit s.focus.core la) s

/-- Writes back the L2 lines that `p` holds of and whose homes answer, with their units. -/
def State.backL2 (s : State) (p : Nat → Bool) (order : Nat) : State :=
  ((s.dirtyL2 p).filter fun la => (s.lineReach la order).isNone).foldl (fun s la => s.l2WriteUnit s.myCluster la) s

/-- R408, R464. -/
def execRwb (f : Fields) (s : State) : Out :=
  s.run (.rwb f) f (fun sp => s.rangePlan f (2 ^ 30) true
      (if f.m57 then s.backLines (s.sa sp f) (s.sb sp f) else []) sp) fun sp s ex _ =>
    let p := inLines (s.rangeLines (s.sa sp f) (s.sb sp f))
    let s0 := s
    let s := s.beginWalks (pageVas (s.sa sp f) (s.sb sp f))
    let t := s.backL1 p
    if !f.m57 then .next t.finish
    else (t.backL2 p (s0.orderOf f)).rangeEnd s0 (.rwb f) sp f ex (t.linesReach (t.dirtyL2 p) (s0.orderOf f))

/-- A line whose bytes are dropped; a locked one stays locked with V = 0 (R410). -/
def dropLine (l : Line) : Line := { l with valid := false, mask := 0 }

/-- Drops the lines that `p` holds of. -/
def dropLines (m : SMap Line) (p : Nat → Bool) : SMap Line :=
  m.filterMap fun e => if !p e.1 then some e else if e.2.lock.isEmpty then none else some (e.1, dropLine e.2)

/-- R408, R464. -/
def execRinv (f : Fields) (s : State) : Out :=
  s.run (.rinv f) f (fun sp => s.rangePlan f (2 ^ 30) false
      (if f.m57 then s.dirtyL2 (inLines (s.rangeLines (s.sa sp f) (s.sb sp f))) else []) sp) fun sp s ex _ =>
    let p := inLines (s.rangeLines (s.sa sp f) (s.sb sp f))
    let s0 := s
    let s := s.beginWalks (pageVas (s.sa sp f) (s.sb sp f))
    let t := s.modCore s.focus.core fun k => { k with l1 := dropLines k.l1 p }
    if !f.m57 then .next t.finish
    else
      let bad := t.linesReach (t.dirtyL2 p) (s0.orderOf f)
      let u := t.backL2 p (s0.orderOf f)
      let v := u.modCluster u.myCluster fun x => { x with l2 := dropLines x.l2 fun la => p la && (u.lineReach la (s0.orderOf f)).isNone }
      v.rangeEnd s0 (.rinv f) sp f ex bad

/-- R409: lines come into the cluster's L2; nothing visible changes. -/
def execPrf (f : Fields) (s : State) : Out :=
  s.run (.prf f) f (fun _ => { quiet := true }) fun sp s ex _ =>
    .next ((lanesOf ex).foldl (fun (s : State) j =>
      let va := s.eaOf sp f j
      if !s.walkOpen s.focus.core (s.space s.me).1 (s.space s.me).2 va then s
      else
        let s := s.beginWalks [va]
        match s.translateFor s.focus.core s.me va .read with
        | .error _ => s
        | .ok t =>
          if (s.reach s.focus.core t 1 false).isNone && s.accessOpen s.focus.core t 1 false then (s.engineRead s.focus.core t 1).1 else s) s).finish

/-- The lines of intervals. -/
def linesOf (l : List (Nat × Nat)) : List Nat := l.flatMap fun p => (List.range (p.2 - p.1)).map (p.1 + ·)

/-- May a gang lock further lines at a level: ways of each set and its own count (R410)? -/
def lockFits (ls : SMap Line) (id sets ways own : Nat) (want : List Nat) : Bool :=
  let locked := (ls.filter fun e => !e.2.lock.isEmpty).map (·.1)
  let mine := (ls.filter fun e => e.2.lock.contains id).map (·.1)
  let tags := ((locked ++ want).map (· / 4)).dedup
  ((mine ++ want).dedup).length ≤ own && tags.all fun t => (tags.filter fun u => u % sets == t % sets).length ≤ ways

/-- Lines to lock that come from their homes. -/
def State.lockMissing (s : State) (f : Fields) (want : List Nat) : List Nat :=
  want.filter fun la => if f.m57 then !(s.l2Line s.myCluster la).valid else s.needsHome s.focus.core (la * 64) 64

/-- R410. -/
def execLkl (f : Fields) (s : State) : Out :=
  s.run (.lkl f) f (fun sp => s.rangePlan f (if f.m57 then 2 ^ 20 else 2 ^ 16) false
      (s.lockMissing f (linesOf (s.rangeLines (s.sa sp f) (s.sb sp f)))) sp) fun sp s ex _ =>
    let c := s.focus.core
    let k := s.myCluster
    let id := lockId c s.focus.slot
    let s0 := s
    let s := s.beginWalks (pageVas (s.sa sp f) (s.sb sp f))
    let want := linesOf (s.rangeLines (s.sa sp f) (s.sb sp f))
    let fits := if f.m57 then lockFits (s.cluster k).l2 id 2048 8 16384 want else lockFits s.myCore.l1 id 64 4 1024 want
    let bad := if fits then s.linesReach (s.lockMissing f want) (s0.orderOf f) else none
    if bad.isSome then s.rangeEnd s0 (.lkl f) sp f ex bad
    else
      let t := if !fits then s
        else
          let s := (s.lockMissing f want).foldl (fun (s : State) la => s.askHome c (linePa la)) s
          want.foldl (fun (s : State) la =>
            if f.m57 then
              let s := s.l2Fetch k la
              let l := s.l2Line k la
              s.setL2 k la { l with lock := if l.lock.contains id then l.lock else l.lock ++ [id] }
            else
              let s := s.l1Fetch c la
              let l := s.l1Line c la
              s.setL1 c la { l with lock := if l.lock.contains id then l.lock else l.lock ++ [id] }) s
      .next ((t.wrS f (if fits then 1 else 0)).finish)

/-- Dirty L2 lines of a range that the issuing gang holds locked. -/
def State.heldDirty (s : State) (l : List (Nat × Nat)) : List Nat :=
  s.dirtyL2 fun la => inLines l la && (s.l2Line s.myCluster la).lock.contains (lockId s.focus.core s.focus.slot)

/-- R410. -/
def execUlkl (f : Fields) (s : State) : Out :=
  s.run (.ulkl f) f (fun sp => s.rangePlan f (if f.m57 then 2 ^ 20 else 2 ^ 16) true
      (if f.m57 then s.heldDirty (s.rangeLines (s.sa sp f) (s.sb sp f)) else []) sp) fun sp s ex _ =>
    let c := s.focus.core
    let l := s.rangeLines (s.sa sp f) (s.sb sp f)
    let p := inLines l
    let s0 := s
    let s := s.beginWalks (pageVas (s.sa sp f) (s.sb sp f))
    if f.m57 then
      let bad := s.linesReach (s.heldDirty l) (s0.orderOf f)
      if bad.isSome then s.rangeEnd s0 (.ulkl f) sp f ex bad else .next (s.unlockL2 c s.focus.slot p).finish
    else .next (s.unlockL1 c s.focus.slot p).finish

/-! ## Fences (R208, R407) -/

/-- The executing lanes' later writes come after their accesses so far, at the widest scope of their fences (R208). -/
def State.markFence (s : State) (ex : Mask) (scope : Nat) : State :=
  s.modMe fun g =>
    { g with fences := g.fences.putAll ((lanesOf ex).map fun j => (j, (s.nextId, max scope (g.fences.get (0, 0) j).2))) }

/-- R407: an acquire waits until the earlier loads are performed, `fence.ar` until every earlier access is; `fence.rel` orders them before
the later writes alone. -/
def execFence (f : Fields) (s : State) : Out :=
  s.run (.fence f) f
    (fun _ => { stall := fun ex =>
      if f.fenceKind = 1 then s.owes ex (·.kind.returns)
      else if f.fenceKind = 2 then false
      else s.releaseWaits ex f.fenceScope })
    fun _ s ex _ => .next (if f.fenceKind = 2 then s.markFence ex f.fenceScope else s).finish

/-! ## Barriers (R292, R411 to R415) -/

/-- A barrier object's place: in scratchpad, the core that holds it, its address. -/
structure BarAt where
  spad : Bool
  core : Nat
  addr : Nat
  deriving DecidableEq, Repr

/-- Place of the instruction's object, or the cause of its address. -/
def State.barAt (s : State) (sp : OpSpec) (f : Fields) : Except Nat BarAt :=
  match s.aim f.scratch .write (s.eaUni sp f) 16 16 with
  | .error e => .error e
  | .ok (.spad p) => .ok ⟨true, s.focus.core, p⟩
  | .ok (.glob t) => if t.kind = .coherent then .ok ⟨false, 0, t.pa⟩ else .error cPermFault

def BarAt.entry (b : BarAt) : BarEntry := { spad := b.spad, core := b.core, addr := b.addr }
def BarEntry.names (e : BarEntry) (b : BarAt) : Bool := e.spad == b.spad && e.core == b.core && e.addr == b.addr

/-- The object cannot be reached: its cause (R290). -/
def State.barReach (s : State) (b : BarAt) (writes : Bool) (order : Nat) : Option Nat :=
  if b.spad then none else s.cohCause s.focus.core b.addr writes order

/-- The block's list has no room for a new object (R292). -/
def State.barListFull (s : State) (b : BarAt) : Bool :=
  let l := (s.block s.me.seat.block).bars
  !s.me.isHandler && !l.any (·.names b) && 32 ≤ l.length

/-- Enters the object in the block's list. -/
def State.barEnter (s : State) (b : BarAt) : State :=
  if s.me.isHandler then s
  else s.modBlock s.me.seat.block fun k => if k.bars.any (·.names b) then k else { k with bars := k.bars ++ [b.entry] }

/-- Can the object be read, or with `writes` written, now? -/
def State.barOpen (s : State) (b : BarAt) (writes : Bool) : Bool := b.spad || s.cohOpen s.focus.core b.addr writes

/-- The object as an access of the executing lanes. -/
def barAccess (f : Fields) (va : Nat) (kind : AccKind) : Access :=
  { va := if f.scratch then 2 ^ 64 + va else va, bytes := 16, kind, upTo := some 0 }

/-- The plan of a barrier instruction: `waits` are the releases it makes, by the object's scope. -/
def State.barPlan (s : State) (f : Fields) (kind : AccKind) (waits : Nat → Mask → Bool) (sp : OpSpec) : Plan :=
  { checks := fun ex =>
      match s.barAt sp f with
      | .error e => Causes.add e ex []
      | .ok _ => []
    va := fun _ => BitVec.ofNat 64 (s.eaUni sp f)
    walks := fun _ => if f.scratch then [] else [s.eaUni sp f]
    stall := fun ex =>
      (!f.scratch && s.walkWaits [s.eaUni sp f]) ||
        ((lanesOf ex).any fun j => s.mustWait s.focus.core s.focus.slot j (barAccess f (s.eaUni sp f) kind)) ||
        match s.barAt sp f with
        | .ok b => !s.barOpen b kind.writes || s.barListFull b || waits (barScope (s.barRead s.focus.core b.entry)) ex
        | .error _ => false
    hold := fun _ => if f.scratch then none else s.walkHold [s.eaUni sp f] }

/-- What a barrier instruction begins with: a walk queued for a page in no TLB. -/
def State.barBegin (s : State) (sp : OpSpec) (f : Fields) : State := if f.scratch then s else s.beginWalks [s.eaUni sp f]

/-- Ends a barrier instruction with a late cause. -/
def State.barTrap (s s0 : State) (i : Instr) (sp : OpSpec) (f : Fields) (ex : Mask) (e : Nat) : Out :=
  .next (s.finish.trapLate s0 i sp f [(e, ex)] { va := fun _ => BitVec.ofNat 64 (s0.eaUni sp f) })

/-- R412. -/
def execBarinit (f : Fields) (s : State) : Out :=
  s.run (.barinit f) f (s.barPlan f .store fun _ ex => s.releaseWaits ex f.ctl.sc.toNat) fun sp s ex _ =>
    match s.barAt sp f with
    | .error _ => .next s.finish
    | .ok b =>
      let s := s.barBegin sp f
      let n := s.sc sp f
      match s.barReach b true (s.orderOf f) with
      | some e => s.barTrap s (.barinit f) sp f ex e
      | none =>
        let s1 := s.barEnter b
        if n = 0 ∨ 16777215 < n then s1.barTrap s (.barinit f) sp f ex cBarrierOverrun
        else .next (s1.barWrite s.focus.core b.entry (n * 2 ^ 72 + f.ctl.sc.toNat * 16)).finish

/-- A phase of an object has completed: the counts of every block that lists it (R415) and the interval of every block whose gangs
have all arrived (R221). -/
def State.barComplete (s : State) (b : BarAt) : State :=
  { s with
    blocks := s.blocks.map fun p =>
      let k := p.2
      match k.bars.find? (·.names b) with
      | none => p
      | some e =>
        let gangs := s.blockGangs p.1
        let all := k.placed && !gangs.isEmpty && gangs.all fun q => e.arrived.contains (lockId q.1 q.2)
        let bars := if e.cur = 0 then k.bars.filter fun x => !x.names b
          else k.bars.map fun x => if x.names b then { x with prev := x.cur, cur := 0, arrived := [] } else x
        (p.1, { k with bars, bint := if all then k.bint + 1 else k.bint }) }

/-- R413. -/
def execBararr (f : Fields) (s : State) : Out :=
  s.run (.bararr f) f (s.barPlan f .cas fun scope ex => s.releaseWaits ex scope) fun sp s ex _ =>
    match s.barAt sp f with
    | .error _ => .next s.finish
    | .ok b =>
      let s := s.barBegin sp f
      match s.barReach b true (s.orderOf f) with
      | some e => s.barTrap s (.bararr f) sp f ex e
      | none =>
        let s1 := s.barEnter b
        let v := s1.barRead s.focus.core b.entry
        let n := s.sc sp f
        if barBad v then s1.barTrap s (.bararr f) sp f ex cBarrierBroken
        else if n = 0 ∨ barExpect v < barCount v + n then s1.barTrap s (.bararr f) sp f ex cBarrierOverrun
        else
          let p := barPhase v
          let ends := barCount v + n == barExpect v
          let self := lockId s.focus.core s.focus.slot
          let s2 := if s.me.isHandler then s1
            else s1.modBlock s.me.seat.block fun k =>
              { k with
                bars := k.bars.map fun x =>
                  if x.names b then { x with cur := x.cur + n, arrived := if x.arrived.contains self then x.arrived else x.arrived ++ [self] } else x }
          let v' := v - v % 16 - barCount v * 2 ^ 40 + (if ends then (p + 1) % 16 else p + (barCount v + n) * 2 ^ 40)
          let s3 := s2.barWrite s.focus.core b.entry v'
          let s4 := if ends then s3.barComplete b else s3
          .next ((s4.wrS f (BitVec.ofNat 64 ((if ends then 16 else 0) + p))).finish)

/-- Has phase `p` passed in the object (R414)? -/
def barPassed (v p : Nat) : Bool :=
  let d := (barPhase v + 16 - p) % 16
  1 ≤ d && d ≤ 8

/-- Looks at an object: a read through its cluster's L2 of one in global memory. -/
def State.barLook (s : State) (c : Nat) (e : BarEntry) : State :=
  if e.spad then s else (s.askCoh c e.addr false).share (clusterOf c) (e.addr / 256)

/-- R414: the first look at the object; the group that must wait is not eligible until an event ends the wait. -/
def execBarwait (f : Fields) (s : State) : Out :=
  s.run (.barwait f) f (s.barPlan f .load fun _ _ => false) fun sp s ex _ =>
    match s.barAt sp f with
    | .error _ => .next s.finish
    | .ok b =>
      let s := s.barBegin sp f
      match s.barReach b false (s.orderOf f) with
      | some e => s.barTrap s (.barwait f) sp f ex e
      | none =>
        let s1 := (s.barEnter b).barLook s.focus.core b.entry
        let v := s1.barRead s.focus.core b.entry
        let p := s.sc sp f % 16
        let t := s.sc sp f / 16
        if barBad v then s1.barTrap s (.barwait f) sp f ex cBarrierBroken
        else if barPassed v p then .next ((s1.wrS f 0).finish)
        else
          .next (s1.waitIn
            { lanes := s.focus.lanes, pc := s.focus.pc, since := s.cycles s.myCluster, bar := some (b.spad, b.core, b.addr, p)
              va := s.eaUni sp f
              ins := some f, ex, len := s.focus.len, bound := if t = 0 then none else some t
              entry := some (s.lateEntry (.barwait f) sp f ex cBarrierBroken) })

end Machine
end Sys2Proof
end

