-- ==== Sys2Proof/Machine/Edges.lean ====
section
/-! DEFINITION. Accesses of agents that are no gang's lanes, and the edges of a graph: descriptors, queue headers, delivering,
finding and freeing tokens (R82, R93 to R95). -/

namespace Sys2Proof.Machine

/-! ## Accesses of an agent -/

/-- Where an agent's accesses start: the core whose cluster L2 they use, the address space and its root. -/
structure Agent where
  core : Nat
  asn : Half
  root : Nat
  /-- The order of its class (R35). -/
  order : Nat := 0
  deriving DecidableEq, Repr

/-- A walker's own accesses (R91), through the lowest cluster of its field (log entry 21). -/
def State.walkAgent (s : State) (w : Nat) : Agent := { core := walkCore w, asn := (s.runOf w).asn, root := (s.runOf w).root }

/-- A gang's engine accesses (R228). -/
def State.gangAgent (s : State) (c slot : Nat) : Agent :=
  let p := s.space (s.gang c slot)
  { core := c, asn := p.1, root := p.2 }

/-- Where an access goes, or the cause it ends with; `cWaits` where its translation or its home has to be waited for. -/
def State.agPlace (s : State) (a : Agent) (va : Nat) (want : Want) : Except Nat Trans :=
  if !s.walkOpen a.core a.asn a.root va then .error cWaits
  else
    match s.translate a.core a.asn a.root va want with
    | .error e => .error e
    | .ok t =>
      match s.engReach a.core t (want == .write) a.order with
      | some e => .error e
      | none => .ok t

/-- A miss of the agent's access queues its walk (R172). -/
def State.agWalk (s : State) (a : Agent) (va : Nat) : State := s.queueWalk a.core a.asn a.root va

/-- Reads `n` bytes inside one line. -/
def State.agRead (s : State) (a : Agent) (va n : Nat) : Except Nat (State × Nat) :=
  (s.agPlace a va .read).map fun t => (s.agWalk a va).engineRead a.core t n

def State.agPeek (s : State) (a : Agent) (va n : Nat) : Except Nat Nat := (s.agRead a va n).map (·.2)

/-- Writes `n` bytes inside one line. -/
def State.agWrite (s : State) (a : Agent) (va n v : Nat) : Except Nat State :=
  (s.agPlace a va .write).map fun t => (s.agWalk a va).engineWrite a.core t n v

/-- Reads, and writes what `f` gives, in one step; answers the value read. -/
def State.agAtomic (s : State) (a : Agent) (va n : Nat) (f : Nat → Option Nat) : Except Nat (State × Nat) :=
  if !s.walkOpen a.core a.asn a.root va then .error cWaits
  else
    match s.translate a.core a.asn a.root va .write with
    | .error e => .error e
    | .ok t =>
      let free := if t.kind = .coherent then s.cohOpen a.core t.pa true else s.homeOpen a.core (t.pa / 2 ^ 27)
      if !free then .error cWaits
      else
        match s.reach a.core t n true a.order true with
        | some e => .error e
        | none => .ok ((s.agWalk a va).memAtomic a.core t n f)

/-- Reads the pieces of a list one after another, the first lowest in the value. -/
def State.agReads (s : State) (a : Agent) : List (Nat × Nat) → Except Nat (State × Nat)
  | [] => .ok (s, 0)
  | (va, n) :: l =>
    match s.agRead a va n with
    | .error e => .error e
    | .ok (s, v) =>
      match State.agReads s a l with
      | .error e => .error e
      | .ok (s, r) => .ok (s, v % 2 ^ (8 * n) + 2 ^ (8 * n) * r)

/-- Writes the pieces of a list one after another out of a value. -/
def State.agWrites (s : State) (a : Agent) : List (Nat × Nat) → Nat → Except Nat State
  | [], _ => .ok s
  | (va, n) :: l, v =>
    match s.agWrite a va n (v % 2 ^ (8 * n)) with
    | .error e => .error e
    | .ok s => State.agWrites s a l (v / 2 ^ (8 * n))

/-- The pieces of `[va, va + n)`, each inside a line. -/
def pieces8 (va n : Nat) : List (Nat × Nat) := cut8 (n + 1) va n

/-- A value of `n` bytes at an address. -/
def State.agValue (s : State) (a : Agent) (va n : Nat) : Except Nat Nat := (s.agReads a (pieces8 va n)).map (·.2)

/-! ## The save pool (R287) -/

/-- VA of an image of the run's pool. -/
def Launch.imageVa (l : Launch) (i : Nat) : DWord := BitVec.ofNat 64 ((bits l.save.toNat 21 36 + i) * 2 ^ 21)

/-- Images in the pool; with none, pre-emption is refused. -/
def Launch.nimg (l : Launch) : Nat := bits l.save.toNat 0 21

/-- Does every page of an image take writes of a launch's gangs at core `c`, now or once it has been waited for? -/
def State.imageTakes (s : State) (c : Nat) (l : Launch) (i : Nat) : Bool :=
  (List.range 32).all fun k =>
    match s.agPlace { core := c, asn := l.asn, root := l.root } ((l.imageVa i).toNat + 0x10000 * k) .write with
    | .ok _ => true
    | .error e => e == cWaits

/-- The lowest `n` free images of a launch's run that take writes, where there are as many. -/
def State.freeImages (s : State) (c : Nat) (l : Launch) (n : Nat) : Option (List Nat) :=
  let held := (s.runOf l.walker).images
  let is := ((List.range (min l.nimg (held.length + n))).filter fun i => !held.contains i).take n
  if is.length = n && is.all (s.imageTakes c l) then some is else none

/-- A block save obtains one image for each gang of the block; none where it cannot. -/
def State.obtainImages (s : State) (b : Nat) : Option State :=
  if !(s.block b).images.isEmpty then some s
  else
    let l := s.launch (s.block b).ltag.toNat
    let at_ := (s.blockCores b).zipIdx.flatMap fun p => (s.blockSlots b p.1).map fun g => (p.2, (s.gang p.1 g).seat.gidx)
    match s.freeImages (s.block b).origin l at_.length with
    | none => none
    | some is =>
      let s := s.modRun l.walker fun r => { r with images := is ++ r.images }
      some (s.modBlock b fun x => { x with images := (at_.zip is).map fun q => { pos := q.1.1, gidx := q.1.2, va := l.imageVa q.2 } })

/-- A gang of a block save that waits for a hint stops, at its hint or with none, once the images are obtained; until then the request
waits and it runs on (R283, R287). -/
def State.stopAtHint (s : State) (c slot : Nat) (hint : Option DWord) : State :=
  match s.obtainImages (s.gang c slot).seat.block with
  | none => s
  | some t => (t.modGang c slot fun g => { g with saveStop := some hint, saveReq := none }).markCalls c

/-! ## Descriptors and headers (R82, R93) -/

def edgeOf (d : Nat) : Edge := { queue := bits d 0 64, slots := bits d 64 16, size := bits d 80 16, counter := bits d 128 64, cons := 0 }

def powerOfTwo (n : Nat) : Bool := n != 0 && 2 ^ Nat.log2 n == n

/-- Is a descriptor legal? -/
def edgeDescOk (d : Nat) : Bool :=
  let e := edgeOf d
  powerOfTwo e.slots && e.slots ≤ 32768 && e.queue % 64 == 0 && e.counter % 8 == 0 && e.size % 8 == 0 && 8 ≤ e.size && e.size ≤ 4096 &&
    bits d 96 32 == 0 && bits d 192 64 == 0

/-- Are a queue header's reserved fields zero, and its consumer below `nnode`? -/
def edgeHeadOk (h nnode : Nat) : Bool := bits h 128 384 == 0 && bits h 48 16 == 0 && bits h 0 32 < nnode

def headOwner (h : Nat) : Nat := bits h 32 16
def headCons (h : Nat) : Nat := bits h 0 32
def headHead (h : Nat) : Nat := bits h 64 32
def headTail (h : Nat) : Nat := bits h 96 32

/-- The header of an edge's queue. -/
def State.edgeHead (s : State) (a : Agent) (e : Edge) : Except Nat Nat := s.agValue a e.queue 64

/-- Address of the slot that a count names. -/
def Edge.slotAt (e : Edge) (n : Nat) : Nat := e.queue + 64 + n % e.slots * e.size

/-! ## Tokens (R94, R95) -/

/-- The walker that owns an edge sees a token's FULL write. -/
def State.tokenSeen (s : State) (owner : Nat) (e : Edge) (root : Nat) : State :=
  match (s.walker owner).run with
  | some r =>
    if r.root ≠ root then s
    else
      match r.edges.findIdx? (·.queue == e.queue) with
      | some k => s.setRun owner { r with tokens := r.tokens ++ [k] }
      | none => s
  | none => s

/-- Delivers one token with the payload given as a value: none while the free-slot counter is zero (R94). The FULL write is a release at
system scope: it waits for the broadcast stores applied in its cluster (R203). -/
def State.deliver (s : State) (a : Agent) (e : Edge) (payload : Nat) : Except Nat (Option State) :=
  if !s.bcastClear (clusterOf a.core) then .error cWaits
  else
  match s.agAtomic a e.counter 8 fun v => if v = 0 then none else some (v - 1) with
  | .error c => .error c
  | .ok (_, 0) => .ok none
  | .ok (s, _) =>
    match s.agAtomic a (e.queue + 12) 4 fun v => some ((v + 1) % 2 ^ 32) with
    | .error c => .error c
    | .ok (s, n) =>
      let at_ := e.slotAt n
      match s.agWrites a (pieces8 (at_ + 8) (e.size - 8)) payload with
      | .error c => .error c
      | .ok s =>
        match s.agWrite a at_ 8 (1 + (n + 1) % 2 ^ 32 * 2 ^ 32), s.edgeHead a e with
        | .ok t, .ok h => .ok (some (t.tokenSeen (headOwner h) e a.root))
        | .error c, _ => .error c
        | _, .error c => .error c

/-- The token at the head of an edge: its slot's address and header, once it is full. -/
def State.headToken (s : State) (a : Agent) (e : Edge) : Except Nat (Option (Nat × Nat)) :=
  match s.edgeHead a e with
  | .error c => .error c
  | .ok h =>
    let at_ := e.slotAt (headHead h)
    match s.agPeek a at_ 8 with
    | .error c => .error c
    | .ok t => .ok (if t.testBit 0 then some (at_, t) else none)

/-- Frees the slot at an edge's head (R95); the counter's increment is a release (R203). -/
def State.freeSlot (s : State) (a : Agent) (e : Edge) : Except Nat State :=
  if !s.bcastClear (clusterOf a.core) then .error cWaits
  else
  match s.edgeHead a e with
  | .error c => .error c
  | .ok h =>
    let at_ := e.slotAt (headHead h)
    match s.agPeek a at_ 8 with
    | .error c => .error c
    | .ok t =>
      match s.agWrite a at_ 8 (t - t % 2) with
      | .error c => .error c
      | .ok s =>
        match s.agWrite a (e.queue + 8) 4 ((headHead h + 1) % 2 ^ 32) with
        | .error c => .error c
        | .ok s => (s.agAtomic a e.counter 8 fun v => some ((v + 1) % 2 ^ 64)).map (·.1)

/-- A run's token of an edge is consumed. -/
def Run.taken (r : Run) (k : Nat) : Run := { r with tokens := r.tokens.erase k }

end Sys2Proof.Machine
end

