-- ==== Sys2Proof/Machine/Chain.lean ====
section
/-! DEFINITION. Engine chains as the engine instructions see them: the ring, its checks and the append (R223 to R228). -/

namespace Sys2Proof.Machine

/-- Where the next entry of a context goes. -/
def Gang.nextSlot (g : Gang) (n : Nat) : Nat := ringSlot (g.ctx n).chring (g.ctx n).tliss.toNat

/-- CHAIN_FAULT, or the fault of the ring slot's store (R225, R228). -/
def State.chainCauses (s : State) (n : Nat) (ex : Mask) : Causes :=
  if !ringOk (s.me.ctx n).chring then Causes.add cChainFault ex []
  else
    match s.translateFor s.focus.core s.me (s.me.nextSlot n) .write with
    | .error e => Causes.add e ex []
    | .ok _ => []

/-- The cause with which the store of the entry ends where no home answers (R290). -/
def State.chainReach (s : State) (n : Nat) : Option Nat :=
  match s.translateFor s.focus.core s.me (s.me.nextSlot n) .write with
  | .error e => some e
  | .ok t => s.engReach s.focus.core t true

/-- The store of the entry waits for its page's walk or for its home (R172, R228). -/
def State.slotWaits (s : State) (n : Nat) : Bool :=
  ringOk (s.me.ctx n).chring &&
    (s.walkWaits [s.me.nextSlot n] ||
      match s.translateFor s.focus.core s.me (s.me.nextSlot n) .write with
      | .ok t => s.engReach s.focus.core t true == some cWaits
      | .error _ => false)

/-- Writes 64 bytes of an entry, or of a part of one, at a translated address. -/
def State.putLine (s : State) (c : Nat) (t : Trans) (v : Nat) : State :=
  (List.range 8).foldl (fun s i => s.engineWrite c { t with pa := t.pa + 8 * i } 8 (bits v (64 * i) 64)) s

/-- Bits [159:0] of a new entry (R227, R228). -/
def entryHead (kind rc next : Nat) (seq : DWord) : Nat := next + seq.toNat * 2 ^ 64 + kind * 2 ^ 128 + rc * 2 ^ 132

/-- Appends an entry: `body` holds its bits from 160 up. Answers SEQ and the entry. -/
def State.append (s : State) (n kind rc body : Nat) : State × DWord × Nat :=
  let x := s.me.ctx n
  let seq := x.tliss + 1
  let e := entryHead kind rc (ringSlot x.chring (x.tliss.toNat + 1)) seq + body * 2 ^ 160
  let s := match s.translateFor s.focus.core s.me (s.me.nextSlot n) .write with
    | .ok t => s.putLine s.focus.core t e
    | .error _ => s
  (s.modMe fun g => g.setCtx n { x with tliss := seq }, seq, e)

/-- An engine instruction: the plan's checks with the ring's, the stall on a full ring and on earlier accesses of the gang that are
not performed (R210), the append, and the sequence number in sD. `more` is what the issue does with the number and the entry. -/
def State.engineIssue (s : State) (i : Instr) (f : Fields) (n kind : Nat) (plan : OpSpec → Plan)
    (body : OpSpec → State → Mask → Nat) (more : State → Mask → DWord → Nat → State) : Out :=
  s.run i f
    (fun sp =>
      let p := plan sp
      { p with
        checks := fun ex =>
          let c := p.checks ex
          if c.isEmpty then s.chainCauses n ex else c.merge (if ringOk (s.me.ctx n).chring then [] else [(cChainFault, ex)])
        va := fun _ =>
          if ringOk (s.me.ctx n).chring && (p.checks s.focus.lanes).isEmpty then BitVec.ofNat 64 (s.me.nextSlot n) else 0
        walks := fun _ => if ringOk (s.me.ctx n).chring then [s.me.nextSlot n] else []
        stall := fun ex => s.owes (BitVec.allOnes 64) (fun _ => true) || s.slotWaits n || p.stall ex
        hold := fun ex =>
          if s.me.ringFull n then some (.ring n)
          else if ringOk (s.me.ctx n).chring then (s.walkHold [s.me.nextSlot n]).or (p.hold ex) else p.hold ex })
    fun sp s ex _ =>
      match s.chainReach n with
      | some e => .next (s.finish.trapLate s i sp f [(e, ex)] { va := fun _ => BitVec.ofNat 64 (s.me.nextSlot n) })
      | none =>
        let (t, seq, e) := (s.beginWalks [s.me.nextSlot n]).append n kind f.ctl.rc.toNat (body sp s ex)
        .next (((more t ex seq e).wrS f seq).finish)

end Sys2Proof.Machine
end

