-- ==== Sys2Proof/Machine/Matrix.lean ====
section
/-! DEFINITION. Group 0x8 and the matrix array: the matrix operations, their passes, and the tile moves (R162, R178, R179, R236 to
R241, R418 to R425). -/

namespace Sys2Proof.Machine

/-! ## Register and deck images (R144, R147, R422) -/

/-- Bytes of the image of k elements. -/
def Slot.imageBytes (s : Slot) (k : Nat) : Nat :=
  if s.blk = 0 then (k * s.fmt.bits + 7) / 8
  else
    let n := k / s.blockSize
    (n + 15) / 16 * 16 + n * s.blockBytes

/-- Registers of an A run. -/
def Slot.imageRegs (s : Slot) (k : Nat) : Nat := (s.imageBytes k + 3) / 4

/-- The 16-bit formats whose subnormal sources FTZ flushes (R162). -/
def Slot.srcFtz (s : Slot) : Bool := s.ftz && (s.code == 0 || s.code == 1 || s.code == 2)

/-- The k elements of an image as exact values; `cb` is the slot's CB2 table. -/
def Slot.imageElems (s : Slot) (cb : Nat → Nat) (img k : Nat) : List XVal :=
  if s.blk = 0 then (List.range k).map fun i => s.element s.srcFtz 0 (bits img (s.fmt.bits * i) s.fmt.bits)
  else
    let bpb := s.blockBytes
    (List.range (k / s.blockSize)).flatMap fun n =>
      let at_ := n / 16 * (16 + 16 * bpb)
      let scale := bits img (8 * (at_ + n % 16)) 8
      let data := bits img (8 * (at_ + 16 + n % 16 * bpb)) (8 * bpb)
      if s.code = 14 then cb2Decode data (cb (cb2Entry data)) scale
      else (List.range s.blockSize).map fun i => s.element s.srcFtz scale (bits data (s.fmt.bits * i) s.fmt.bits)

/-! ## What a pass computes for one cell (R162, R238, R239) -/

/-- The exact sum of a list of products. -/
def sumProducts : List XVal → List XVal → XVal
  | a :: as, b :: bs => (as.zip bs).foldl (fun t p => XVal.add false t (p.1.mul p.2)) (a.mul b)
  | _, _ => .fin false 0 0 false

/-- Steps of one native block each. -/
def macSteps (ftz : Bool) : Nat → XVal → List XVal → List XVal → XVal
  | 0, acc, _, _ => acc
  | n + 1, acc, as, bs =>
    let t := sumProducts (as.take 8) (bs.take 8)
    macSteps ftz n (fp32.decode (fp32.round modeRNE ftz false 0 (XVal.add false acc t))) (as.drop 8) (bs.drop 8)

/-- A multiply-accumulate of one accumulator. -/
def macCell (ftz : Bool) (c : Nat) (as bs : List XVal) : Nat :=
  fp32.keep (macSteps ftz (as.length / 8) (fp32.source ftz c) as bs)

/-- A Hadamard output. -/
def hadamardCell (as : List XVal) (shift : Int) (j : Nat) : Nat :=
  let term (p : XVal × Nat) : XVal := if popCount 6 (j &&& p.2) % 2 = 1 then p.1.negate else p.1
  match as.zipIdx.map term with
  | [] => 0
  | x :: xs => fp32.keep ((xs.foldl (XVal.add false) x).scale shift)

/-- The bits of the element that pass-through selects. -/
def passCell (k wa wb a b : Nat) : Nat :=
  match (List.range k).find? fun i => bits b (wb * i) wb != 0 with
  | some i => bits a (wa * i) wa
  | none => 0

/-! ## Entries (R236, R421) -/

def entK (e : Nat) : Nat := bits e 165 11
def entMode (e : Nat) : Nat := bits e 160 2
def entSlot (e : Nat) : Nat := bits e 162 3
def entTile (e : Nat) : Nat := bits e 176 5
def entShift (e : Nat) : Int := toInt true 6 (bits e 181 6)
def entLanes (e : Nat) : Mask := BitVec.ofNat 64 (bits e 192 64)
def entAreg (e : Nat) : Nat := bits e 256 11
def entDoff (e o : Nat) : Nat := bits e (272 + 24 * o) 23

/-- Word of a gang's tile in its core's AM (R178). -/
def amKey (g : Gang) (t r c : Nat) : Nat := 2048 * g.seat.tile t + 32 * r + c

def State.amRead (s : State) (c : Nat) (g : Gang) (t r col : Nat) : Word := (s.core c).am.get 0 (amKey g t r col)

/-- A slot's CB2 table. -/
def State.cbTable (s : State) (g : Gang) (idx n : Nat) : Nat := bits ((s.launch g.seat.ltag.toNat).cb.get 0 idx).toNat (32 * n) 32

/-- Row `i` of A as it lies in the registers. -/
def rowImage (g : Gang) (areg regs i : Nat) : Nat :=
  (List.range regs).foldl (fun acc k => acc + (g.vreg (areg + k) i).toNat * 2 ^ (32 * k)) 0

/-- What one octet's pass writes: the AM words of its active rows. -/
def State.octetWords (s : State) (c : Nat) (g : Gang) (e o regs : Nat) : List (Nat × Word) :=
  let k := entK e
  let t := entTile e
  let a := s.slotN g (entSlot e)
  let bi := (entSlot e + 1) % 8
  let b := s.slotN g bi
  let col (j : Nat) : Nat := Memory.readN (s.decks.get [] (s.physOf c)) (j * 2 ^ 18 + entDoff e o) (b.imageBytes k)
  let rows := (List.range 8).map (8 * o + ·) |>.filter (entLanes e).getLsbD
  match entMode e with
  | 0 =>
    let cols := (List.range 32).map fun j => b.imageElems (s.cbTable g bi) (col j) k
    rows.flatMap fun i =>
      let as := a.imageElems (fun _ => 0) (rowImage g (entAreg e) regs i) k
      cols.zipIdx.map fun p =>
        (amKey g t i p.2, BitVec.ofNat 32 (macCell a.ftz (s.amRead c g t i p.2).toNat as p.1))
  | 1 =>
    rows.flatMap fun i =>
      let as := a.imageElems (fun _ => 0) (rowImage g (entAreg e) regs i) k
      (List.range k).map fun j => (amKey g (t + j / 32) i (j % 32), BitVec.ofNat 32 (hadamardCell as (entShift e) j))
  | _ =>
    let cols := (List.range 32).map col
    rows.flatMap fun i =>
      let img := rowImage g (entAreg e) regs i
      cols.zipIdx.map fun p => (amKey g t i p.2, BitVec.ofNat 32 (passCell k a.fmt.bits b.fmt.bits img p.1))

/-! ## The instructions (R420 to R422) -/

def mmaA (c : Nat) : Bool := (1 ≤ c && c ≤ 8) || c == 10
def mhadA (c : Nat) : Bool := c ∈ [3, 5, 6, 7, 8, 10]
def mpassA (c : Nat) : Bool := c ∈ [0, 1, 2, 3, 4, 8, 9, 12, 13, 15, 16]

/-- The formats that a mode takes. -/
def matFormats (mode : Nat) (a b : Slot) : Bool :=
  match mode with
  | 0 => mmaA a.code && (mmaA b.code || b.code == 14) && ((a.blk == 0) == (b.blk == 0)) && (b.blk == 0 || b.slay)
  | 1 => a.blk == 0 && mhadA a.code
  | _ => a.blk == 0 && mpassA a.code && b.blk == 0

def matDepth (mode : Nat) (a b : Slot) (k : Nat) : Bool :=
  if mode = 1 then k == 16 || k == 32 || k == 64
  else 8 ≤ k && k ≤ 1024 && k % 8 == 0 && ((a.blk != 2 && b.blk != 2) || k % 32 == 0)

/-- The lowest executing lane of an octet. -/
def octLane (ex : Mask) (o : Nat) : Option Nat := ((List.range 8).map (8 * o + ·)).find? ex.getLsbD

/-- A matrix operation of `mode`: 0 multiply-accumulate, 1 Hadamard, 2 pass-through. -/
def State.matrixOp (s : State) (i : Instr) (f : Fields) (mode : Nat) : Out :=
  let n := f.ctl.sc.toNat
  let a := s.slotN s.me f.ctl.sl.toNat
  let b := s.slotN s.me ((f.ctl.sl.toNat + 1) % 8)
  let tile := f.ctl.xmod.toNat % 32
  let areg := f.a.regNat
  let k0 := (opSpec i).map fun sp => s.sc sp f
  let k := k0.getD 0
  let kOk := f.c == .konst && !(match s.konst s.focus.core s.me f with
    | .ok _ => true
    | .error _ => false)
  let regs := a.imageRegs k
  let run := (List.range regs).map (areg + ·)
  let tiles := if mode = 1 && k = 64 then 2 else 1
  let doff (sp : OpSpec) (s : State) (ex : Mask) (o : Nat) : Option Nat :=
    match octLane ex o with
    | some l => some (if mode = 1 then 0 else s.vb sp f l % 2 ^ 32)
    | none => none
  let octs (ex : Mask) : List Nat := (List.range 8).filter fun o => (octLane ex o).isSome
  s.engineIssue i f n (2 + mode)
    (fun sp =>
      { first := fun ex =>
          if !matFormats mode a b then Causes.addIf (!kOk && !matDepth mode a b k) cIllegalEncoding ex (Causes.add cSlotMismatch ex [])
          else if kOk then []
          else if !matDepth mode a b k then Causes.add cIllegalEncoding ex []
          else Causes.addIf (!(runOk s.me areg regs && a.startOk areg)) cRegRange ex []
        reads := if kOk || !matDepth mode a b k then [] else run
        mat := run
        late := true
        checks := fun ex =>
          let bad := (octs ex).any fun o =>
            match doff sp s ex o with
            | some d => mode != 1 && (2 ^ 18 ≤ d || d % 16 != 0 || 2 ^ 18 < d + b.imageBytes k)
            | none => false
          Causes.addIf (s.me.seat.amt < tile + tiles) cAmRange ex (Causes.addIf bad cDeckRange ex []) })
    (fun sp s ex =>
      let head := mode + f.ctl.sl.toNat * 4 + k * 32 + tile * 2 ^ 16 + f.ctl.xmod.toNat / 32 % 64 * 2 ^ 21
      let offs := (List.range 8).foldl (fun acc o =>
        match doff sp s ex o with
        | some d => acc + (2 ^ 23 + d % 2 ^ 23) * 2 ^ (24 * o)
        | none => acc) 0
      head + ex.toNat * 2 ^ 32 + areg * 2 ^ 96 + offs * 2 ^ 112)
    fun s ex seq e =>
      let m : MatRun := { seq, areg, regs, tile, tiles, bits := BitVec.ofNat 512 e, left := octs ex }
      let s := s.modMe fun g => g.setCtx n { g.ctx n with mats := (g.ctx n).mats ++ [m] }
      let now := s.cycles s.myCluster
      -- The entries of a faulted context wait (R230): a RESUME queues their octets.
      if (s.me.ctx n).stopped then s
      else s.modCore s.focus.core fun q =>
        { q with octQ := q.octQ ++ (octs ex).map fun o => { slot := s.focus.slot, ctx := n, seq, oct := o, arrived := now } }

/-- R237. -/
def execMma (f : Fields) (s : State) : Out := s.matrixOp (.mma f) f 0
/-- R238. -/
def execMhad (f : Fields) (s : State) : Out := s.matrixOp (.mhad f) f 1
/-- R239. -/
def execMpass (f : Fields) (s : State) : Out := s.matrixOp (.mpass f) f 2

/-! ## Passes (R240) -/

def State.octRun (s : State) (c : Nat) (q : OctOp) : Option MatRun := ((s.gang c q.slot).ctx q.ctx).mats.find? (·.seq == q.seq)

/-- Does one waiting operation join the pass of another? -/
def State.fuses (s : State) (c : Nat) (head q : OctOp) : Bool :=
  match s.octRun c head, s.octRun c q with
  | some x, some y =>
    let e := x.bits.toNat
    let d := y.bits.toNat
    let g := s.gang c head.slot
    let h := s.gang c q.slot
    let fs (g : Gang) (n : Nat) : BitVec 128 := (s.launch g.seat.ltag.toNat).fs[n % 8]?.getD 0
    q.arrived ≤ head.arrived + 16 && entMode e == entMode d && entK e == entK d && entDoff e head.oct == entDoff d q.oct &&
      fs g (entSlot e) == fs h (entSlot d) && fs g (entSlot e + 1) == fs h (entSlot d + 1)
  | _, _ => false

/-- Two operations of one gang write the same AM rows. -/
def State.sameRows (s : State) (c : Nat) (p q : OctOp) : Bool :=
  p.slot == q.slot && p.oct == q.oct &&
    (match s.octRun c p, s.octRun c q with
     | some x, some y => x.tile < y.tile + y.tiles && y.tile < x.tile + x.tiles
     | _, _ => false)

/-- The operations of the next pass. -/
def State.nextPass (s : State) (c : Nat) : List OctOp :=
  match (s.core c).octQ with
  | [] => []
  | head :: rest =>
    (rest.foldl (fun (acc : List OctOp × List OctOp) q =>
      let (pass, seen) := acc
      if s.fuses c head q && !seen.any (fun p => s.sameRows c p q || (p.slot == q.slot && p.oct == q.oct && pass.contains p)) then
        (pass ++ [q], seen ++ [q])
      else (pass, seen ++ [q])) ([head], [head])).1

/-- The words that outstanding entries of a gang have computed, the latest value of each last: those of its other matrix context, then
those of the context's entries up to `seq` (R240). -/
def Gang.matWords (g : Gang) (ctx : Nat) (seq : DWord) : List (Nat × Word) :=
  ((g.ctx (9 - ctx)).mats ++ (g.ctx ctx).mats.filter fun m => m.seq.toNat ≤ seq.toNat).flatMap (·.out)

/-- AM as a pass of a context has it: the words that passes before it have computed, over AM. -/
def State.amThrough (s : State) (c slot ctx : Nat) (seq : DWord) : State :=
  let ws := (s.gang c slot).matWords ctx seq
  if ws.isEmpty then s
  else s.modCore c fun k => { k with am := ws.foldl (fun am p => am.put p.1 p.2) k.am }

/-- Words computed once more: an entry that holds one of them holds its new value. -/
def MatRun.renew (m : MatRun) (ws : List (Nat × Word)) : MatRun :=
  { m with out := m.out.map fun p => (p.1, (ws.lookup p.1).getD p.2) }

/-- One octet operation runs: its words wait for the entry's completion, and the entry has one octet fewer to run (R226, R240). Entries of
the gang's other matrix context that hold a word of the same rows take its new value, in whichever order the two complete. -/
def State.runOctet (s : State) (c : Nat) (q : OctOp) : State :=
  match s.octRun c q with
  | none => s
  | some m =>
    let ws := (s.amThrough c q.slot q.ctx q.seq).octetWords c (s.gang c q.slot) m.bits.toNat q.oct m.regs
    s.modGang c q.slot fun g =>
      let other := g.ctx (9 - q.ctx)
      (g.setCtx (9 - q.ctx) { other with mats := other.mats.map (·.renew ws) }).setCtx q.ctx
        { g.ctx q.ctx with mats := (g.ctx q.ctx).mats.map fun x =>
          if x.seq = q.seq then { x with left := x.left.filter (· != q.oct), out := x.out ++ ws } else x }

/-- R240: one pass of the array. -/
def execMatrixPass (core : Nat) (s : State) : Out :=
  if !s.enginesRun core then .next s
  else
    let pass := s.nextPass core
    let s := pass.foldl (fun s q => s.runOctet core q) s
    .next (s.modCore core fun k => { k with octQ := k.octQ.filter fun q => !pass.contains q })

/-! ## Tile moves (R423 to R425) -/

/-- AM_RANGE of a tile move: in every executing lane, or where the lane's row or column passes the tile. -/
def State.tileCauses (s : State) (sp : OpSpec) (f : Fields) (high : Nat) (ex : Mask) : Causes :=
  let p := s.sb sp f
  if s.me.seat.amt ≤ s.sa sp f || 256 ≤ p then Causes.add cAmRange ex []
  else Causes.add cAmRange (maskOf 64 fun j => ex.getLsbD j && high ≤ p % high + j) []

/-- A write of a tile waits for the entries that write it, and its gang with it (R425). -/
def State.tileHold (s : State) (sp : OpSpec) (f : Fields) (ex : Mask) : Option Stall :=
  if ex ≠ 0 ∧ s.me.tileBusy (s.sa sp f) then some (.tile (s.sa sp f)) else none

/-- R424: a load of 8 words per lane; `at_` gives row and column of word k of lane j. -/
def State.tileLoad (s : State) (i : Instr) (f : Fields) (high : Nat) (at_ : Nat → Nat → Nat → Nat × Nat) : Out :=
  let d := dstReg s.me f
  s.run i f
    (fun sp => { enc := Causes.addIf (!runOk s.me d 8) cRegRange s.focus.lanes []
                 vs := (List.range 8).map (d + ·), checks := s.tileCauses sp f high })
    fun sp s ex zero =>
      let t := s.sa sp f
      let p := s.sb sp f
      .next ((s.wrRun f d 8 ex zero fun k j =>
        let (r, c) := at_ p k j
        (s.amRead s.focus.core s.me t r c).toNat).finish)

/-- R424. -/
def execAmld (f : Fields) (s : State) : Out := s.tileLoad (.amld f) f 64 fun p k j => (p % 64 + j, 8 * (p / 64) + k)

/-- R424. -/
def execAmtr (f : Fields) (s : State) : Out := s.tileLoad (.amtr f) f 32 fun p k j => (8 * (p / 32) + k, p % 32 + j)

/-- R424, R425. -/
def execAmst (f : Fields) (s : State) : Out :=
  let c := f.c.regNat
  s.run (.amst f) f
    (fun sp => { enc := Causes.addIf (!runOk s.me c 8) cRegRange s.focus.lanes []
                 reads := (List.range 8).map (c + ·), checks := s.tileCauses sp f 64, hold := fun ex => s.tileHold sp f ex })
    fun sp s ex _ =>
      let t := s.sa sp f
      let p := s.sb sp f
      let ws := (lanesOf ex).flatMap fun j => (List.range 8).map fun k =>
        (amKey s.me t (p % 64 + j) (8 * (p / 64) + k), BitVec.ofNat 32 (s.vval s.focus.core s.me (c + k) j))
      .next ((s.modCore s.focus.core fun q => { q with am := q.am.putAll ws }).finish)

/-- R424, R425. -/
def execAmclr (f : Fields) (s : State) : Out :=
  s.run (.amclr f) f
    (fun sp => { checks := fun ex => Causes.addIf (s.me.seat.amt ≤ s.sa sp f) cAmRange ex []
                 hold := fun ex => s.tileHold sp f ex })
    fun sp s _ _ =>
      let t := s.me.seat.tile (s.sa sp f)
      .next ((s.modCore s.focus.core fun q => { q with am := q.am.drop fun k => k / 2048 == t }).finish)

end Sys2Proof.Machine
end

