-- ==== Sys2Proof/Machine/Engines.lean ====
section
/-! DEFINITION. The engines at work: copies row by row, collectives, edge puts, their completion and faults, ring writes and commands;
and the instructions of group 0xa (R210 to R213, R223 to R235, R242, R243, R438 to R443, R468, R472). -/

namespace Sys2Proof.Machine

/-! ## Engine causes (R230) -/

def eSpadRange : Nat := 0x03
def eAmRange : Nat := 0x04
def eDeckRange : Nat := 0x05
def eDescBad : Nat := 0x06
def eEntryBad : Nat := 0x07
def eCollMismatch : Nat := 0x08
def eEdgeBad : Nat := 0x0a
def eMachineCheck : Nat := 0x0b

/-- The engine cause of an access's cause (R230, R290); an access that has to wait has none. -/
def engCause (code : Nat) : Nat :=
  if code = cWaits then cWaits else if code = cPageFault then 1 else if code = cPermFault then 2 else eMachineCheck

/-- The access's own answer, its causes as engine causes. -/
def engErr {α : Type} (x : Except Nat α) : Except Nat α := x.mapError engCause

/-! ## Who runs an entry -/

/-- An engine at an entry: its accesses, its gang (none for a graph copy node), and the entry's address and rows written. -/
structure EngineAt where
  agent : Agent
  gang : Option (Nat × Nat)
  ctx : Nat
  va : Nat
  rows : Nat
  /-- The entry as it has been read before. -/
  held : Option Held := none
  deriving DecidableEq, Repr

/-- The entry's 512 bits: as they have been read, or as they stand in memory; a chain without a core faults before it reads anything (R472). -/
def State.entryBits (s : State) (v : EngineAt) : Except Nat Nat :=
  match v.held with
  | some h => .ok h.entry.toNat
  | none => if nCores ≤ v.agent.core then .error eMachineCheck else engErr (s.agValue v.agent v.va 64)

/-- The engine's accesses take the order of the entry's routing class in the launch's table (R35); a graph copy node has no launch. -/
def State.routed (s : State) (v : EngineAt) : EngineAt :=
  match v.gang, s.entryBits v with
  | some (c, g), .ok e =>
    { v with agent := { v.agent with order := ((s.launch (s.gang c g).seat.ltag.toNat).route (bits e 132 3) 0).1 } }
  | _, _ => v

/-- An entry of a gang's context: the one in progress as it has been read before, a matrix entry as it was issued. -/
def State.entryAt (s : State) (c g n : Nat) : EngineAt :=
  let x := (s.gang c g).ctx n
  let va := ringSlot x.chring x.tlcnt.toNat
  let mat := (x.mats.find? fun m => m.seq == x.tlcnt + 1).map fun m => ({ va, entry := m.bits } : Held)
  s.routed { agent := s.gangAgent c g, gang := some (c, g), ctx := n, va, rows := x.done, held := x.held.or mat }

/-- Numbers of the entries of a copy context that are in progress: its first entry that has not completed, and those that have read ahead
(R229). -/
def ECtx.inProgress (x : ECtx) : List Nat :=
  ((if x.tlcnt.toNat < x.tliss.toNat then [x.tlcnt.toNat + 1] else []) ++ x.ahead.map (·.1)).dedup

/-- Copy entries in progress of a core's gangs. -/
def State.copiesOn (s : State) (c : Nat) : Nat :=
  ((List.range 15).flatMap fun g => (List.range 4).map fun n => (((s.gang c g).ctx n).inProgress).length).sum

/-- Chains of copy nodes that run on a core: walker and node, in a fixed order. -/
def State.chainsOn (s : State) (c : Nat) : List (Nat × Nat) :=
  s.walkers.flatMap fun w =>
    (((w.2.run.map (·.firings)).getD []).filter fun (f : Firing) => f.chain != 0 && f.give.isNone && f.chainCore == c).map fun f => (w.1, f.node)

/-- Does a core's bound of 1,024 copy entries in progress let the chain's entry be in progress (R229)? -/
def State.chainFits (s : State) (c w node : Nat) : Bool := (s.chainsOn c).idxOf (w, node) + s.copiesOn c < 1024

/-- The entry in progress of an engine; none where it is stopped, drained or halted. -/
def State.engineAt (s : State) : Engine → Option EngineAt
  | .gang c slot n =>
    let g := s.gang c slot
    let x := g.ctx n
    if g.seat.used && s.enginesRun c && n < 8 && !x.stopped && x.tlcnt.toNat < x.tliss.toNat then
      some (s.entryAt c slot n)
    else none
  | .walker w node =>
    match (s.runOf w).firings.find? fun f => f.node == node && f.chain != 0 && f.give.isNone with
    | some f =>
      let runs := if (s.runOf w).killed then s.enginesUp f.chainCore else s.enginesRun f.chainCore
      if f.chainCore < nCores && !(runs && s.chainFits f.chainCore w node) then none
      else
        some { agent := { s.walkAgent w with core := f.chainCore }, gang := none, ctx := 0, va := f.chain.toNat, rows := f.rows, held := f.held }
    | none => none

/-- The slot of the entry's gang. -/
def State.engSlot (s : State) (v : EngineAt) (n : Nat) : Slot :=
  match v.gang with
  | some (c, g) => s.slotN (s.gang c g) n
  | none => plainSlot

/-- Reserved bits of every kind (R227). -/
def entryReserved (e : Nat) : Bool := bits e 138 14 != 0 || e.testBit 135

def entryKind (e : Nat) : Nat := bits e 128 4

/-! ## Copy entries (R233 to R235) -/

def cpSsp (e : Nat) : Nat := bits e 160 2
def cpDsp (e : Nat) : Nat := bits e 162 2
def cpConv (e : Nat) : Nat := bits e 164 2
def cpWide (e : Nat) : Nat := bits e 166 2
def cpSlot (e : Nat) : Nat := bits e 168 3
def cpRm (e : Nat) : Nat := bits e 171 3
def cpSrc (e : Nat) : Nat := bits e 192 64
def cpDst (e : Nat) : Nat := bits e 256 64
def cpDesc (e : Nat) : Nat := bits e 320 64
def cpSscl (e : Nat) : Nat := bits e 384 64
def cpDscl (e : Nat) : Nat := bits e 448 64

/-- Does the narrow side of a conversion through the slot have a scale array of its own? -/
def Slot.splits (s : Slot) : Bool := s.blk != 0 && !s.slay

/-- ENTRY_BAD of a copy entry (R227, R233, R155); a graph copy node's own limits (R472). -/
def copyBad (sl : Slot) (graph : Bool) (e : Nat) : Bool :=
  entryKind e != 1 || entryReserved e || bits e 174 18 != 0 || cpConv e == 3 || cpWide e == 3 || 6 ≤ cpRm e || cpSsp e == 2 ||
    (cpSscl e != 0 && !(cpConv e == 1 && sl.splits)) || (cpDscl e != 0 && !(cpConv e == 2 && sl.splits)) ||
    (cpRm e == 5 && (cpConv e == 1 || (cpConv e == 2 && 8 < sl.fmt.bits))) || (cpConv e == 2 && sl.code == 14) ||
    (graph && (cpSsp e != 0 || cpDsp e != 0 || cpConv e != 0 || cpRm e != 0 || cpSlot e != 0 || cpWide e != 0 || cpSscl e != 0 ||
      cpDscl e != 0 || bits e 0 64 % 64 != 0))

/-- One dimension of a tensor descriptor (R234). -/
structure Dim where
  count : Nat
  sstr : Int
  dstr : Int
  deriving DecidableEq, Repr

def descDim (d k : Nat) : Dim :=
  let v := bits d (256 + 128 * k) 128
  { count := bits v 0 32, sstr := toInt true 48 (bits v 32 48), dstr := toInt true 48 (bits v 80 48) }

def descDims (d : Nat) : List Dim := (List.range (bits d 0 4)).map (descDim d)

/-- Element widths of the source and the destination side. -/
def sideBits (sl : Slot) (e : Nat) : Nat × Nat :=
  let w := if cpWide e = 0 then 32 else 16
  match cpConv e with
  | 0 => (8, 8)
  | 1 => (sl.fmt.bits, w)
  | _ => (w, sl.fmt.bits)

/-- DESC_BAD (R234). -/
def descBad (sl : Slot) (e d : Nat) : Bool :=
  let n := bits d 0 4
  let (sb, db) := sideBits sl e
  let c0 := (descDim d 0).count
  n == 0 || 14 < n || bits d 4 252 != 0 ||
    ((List.range 14).any fun k =>
      let x := descDim d k
      if n ≤ k then bits d (256 + 128 * k) 128 != 0
      else x.count == 0 || (k == 0 && (x.sstr != 0 || x.dstr != 0)) || (k != 0 && x.dstr == 0 && 1 < x.count)) ||
    (cpConv e != 0 && sl.blk != 0 && c0 % sl.blockSize != 0) || c0 * sb % 8 != 0 || c0 * db % 8 != 0

/-- Rows of a descriptor. -/
def rowCount (l : List Dim) : Nat := (l.drop 1).foldl (fun n d => n * d.count) 1

/-- Source and destination byte offsets of a row: dimension 1 innermost. -/
def rowOffsets : List Dim → Nat → Int × Int
  | [], _ => (0, 0)
  | d :: l, r =>
    let k : Int := ((r % max 1 d.count : Nat) : Int)
    let rest := rowOffsets l (r / max 1 d.count)
    (k * d.sstr + rest.1, k * d.dstr + rest.2)

/-- Where a row lies on one side: pieces of elements, scales in block order, the first element's place in its block, the elements of
the row in each block, and the addresses of each block's bytes. -/
structure Side where
  elems : List (Nat × Nat)
  scales : List Nat
  lead : Nat := 0
  parts : List Nat := []
  deriving DecidableEq, Repr

def wrapAddr (i : Int) : Nat := (i % (2 ^ 64 : Nat)).toNat

/-- `count` elements from place `lead` of a block of `bs`, cut at the ends of blocks. A row that starts or ends inside a block forms the scale from its
own elements of it and leaves the others as they are; the spec names no scale of a partly written block (DESIGN CHOICE, log entry 34). -/
def partSizes (bs : Nat) : Nat → Nat → Nat → List Nat
  | 0, _, _ => []
  | fuel + 1, lead, count =>
    if count = 0 then [] else min count (bs - lead) :: partSizes bs fuel 0 (count - min count (bs - lead))

/-- A side through slot `sl` (none for a wide or bitwise side): `count` elements of `w` bits at byte offset `off` of the packed
elements. An element's block is the one of its index (R235); in grouped layout, block n lies in its group from the origin (R147). The
blocks of CB2 are read whole. -/
def sideOf (sl : Option Slot) (origin scl : Nat) (off : Int) (count w : Nat) : Side :=
  let plain : List (Nat × Nat) := [(wrapAddr (origin + off), count * w / 8)]
  match sl with
  | none => ⟨plain, [], 0, []⟩
  | some s =>
    if s.blk = 0 then ⟨plain, [], 0, []⟩
    else
      let bs := s.blockSize
      let bpb := s.blockBytes
      let first : Int := off * 8 / (w : Int)
      let lead := (first % (bs : Int)).toNat
      let parts := partSizes bs (count + 1) lead count
      let b0 : Int := first / (bs : Int)
      let n := parts.length
      let off := if s.code = 14 then b0 * bpb else off
      let len := if s.code = 14 then n * bpb else count * w / 8
      let r := (off % (bpb : Int)).toNat
      if s.slay then
        let g : Int := 16 + 16 * bpb
        let at_ (i : Nat) : Int := off / bpb + i
        let cuts := partSizes bpb (len + 1) r len
        ⟨cuts.zipIdx.map fun p => (wrapAddr (origin + at_ p.2 / 16 * g + 16 + at_ p.2 % 16 * bpb + (if p.2 = 0 then r else 0)), p.1),
         (List.range n).map fun (i : Nat) => wrapAddr (origin + (b0 + i) / 16 * g + (b0 + i) % 16), lead, parts⟩
      else ⟨[(wrapAddr (origin + off), len)], (List.range n).map fun (i : Nat) => wrapAddr (scl + b0 + i), lead, parts⟩

/-- The addresses of the bytes of each scaled block of a side: its scale, and the first and last byte of its elements. -/
def Side.units (x : Side) (s : Slot) : List (List Nat) :=
  let bpb := s.blockBytes
  x.scales.zipIdx.map fun p =>
    match x.elems with
    | [(a, n)] => [p.1, a + min (n - 1) (p.2 * bpb), a + min (n - 1) (p.2 * bpb + bpb - 1)]
    | l => (match l[p.2]? with
      | some (a, n) => [p.1, a, a + n - 1]
      | none => [p.1])

/-- The AM word that holds a byte of a gang's AM (R178). -/
def Seat.amWord (x : Seat) (a : Nat) : Nat := 2048 * x.tile (a / 8192) + a % 8192 / 4

/-- Reads `n` bytes of a space (R233). -/
def State.spaceRead (s : State) (v : EngineAt) (sp a n : Nat) : Except Nat (State × Nat) :=
  match sp, v.gang with
  | 0, _ => engErr (s.agReads v.agent (pieces8 a n))
  | 1, some (c, g) =>
    (match (s.gang c g).spadAddr a n with
     | some p => .ok (s, s.spadRead c p n)
     | none => .error eSpadRange)
  | 3, some (c, g) =>
    let x := (s.gang c g).seat
    if x.amt * 8192 < a + n then .error eAmRange
    else
      .ok (s, (List.range n).foldr (fun i acc =>
        ((s.core c).am.get 0 (x.amWord (a + i))).toNat / 256 ^ ((a + i) % 4) % 256 + 256 * acc) 0)
  | _, _ => .error eEntryBad

/-- Writes `n` bytes of a space. -/
def State.spaceWrite (s : State) (v : EngineAt) (sp a n val : Nat) : Except Nat State :=
  match sp, v.gang with
  | 0, _ => engErr (s.agWrites v.agent (pieces8 a n) val)
  | 1, some (c, g) =>
    (match (s.gang c g).spadAddr a n with
     | some p => .ok (s.spadWrite c p n val)
     | none => .error eSpadRange)
  | 2, some (c, _) =>
    if 2 ^ 23 < a + n then .error eDeckRange
    else .ok { s with decks := s.decks.put (s.physOf c) (Memory.writeN (s.decks.get [] (s.physOf c)) a n val) }
  | 3, some (c, g) =>
    let x := (s.gang c g).seat
    if x.amt * 8192 < a + n then .error eAmRange
    else
      .ok (s.modCore c fun k =>
        { k with am := (List.range n).foldl (fun m i =>
            let key := x.amWord (a + i)
            m.put key (BitVec.ofNat 32 (putByte (m.get 0 key).toNat ((a + i) % 4) (val / 256 ^ i)))) k.am })
  | _, _ => .error eEntryBad

/-- Reads pieces one after another, the first lowest. -/
def State.spaceReads (s : State) (v : EngineAt) (sp : Nat) : List (Nat × Nat) → Except Nat (State × Nat)
  | [] => .ok (s, 0)
  | (a, n) :: l =>
    match s.spaceRead v sp a n with
    | .error e => .error e
    | .ok (s, x) =>
      match State.spaceReads s v sp l with
      | .error e => .error e
      | .ok (s, r) => .ok (s, x % 2 ^ (8 * n) + 2 ^ (8 * n) * r)

def State.spaceWrites (s : State) (v : EngineAt) (sp : Nat) : List (Nat × Nat) → Nat → Except Nat State
  | [], _ => .ok s
  | (a, n) :: l, x =>
    match s.spaceWrite v sp a n (x % 2 ^ (8 * n)) with
    | .error e => .error e
    | .ok s => State.spaceWrites s v sp l (x / 2 ^ (8 * n))

/-- The elements of a narrow source row as exact values; the first stands at place `lead` of its block. -/
def Slot.rowElems (s : Slot) (cb : Nat → Nat) (scales x lead count : Nat) : List XVal :=
  let scale (b : Nat) : Nat := bits scales (8 * b) 8
  if s.code = 14 then
    (((List.range ((lead + count + 7) / 8)).flatMap fun b =>
      cb2Decode (bits x (16 * b) 16) (cb (cb2Entry (bits x (16 * b) 16))) (scale b)).drop lead).take count
  else (List.range count).map fun k => s.element s.ftz (scale ((lead + k) / s.blockSize)) (bits x (s.fmt.bits * k) s.fmt.bits)

/-- What a row writes: its elements, its scales and the context's new LFS (R235). The slot's FTZ flushes the WIDE source of an unscaled narrowing
too, as it does a `vcvtn`'s source: R235 does not say (DESIGN CHOICE, log entry 34). -/
def copyRowValue (sl : Slot) (cb : Nat → Nat) (e : Nat) (lfs : Word) (lead count : Nat) (parts : List Nat) (elems scales : Nat) :
    Nat × Nat × Word :=
  let wf : Fmt := if cpWide e = 1 then bf16 else if cpWide e = 2 then fp16 else fp32
  match cpConv e with
  | 0 => (elems, 0, lfs)
  | 1 => (packList wf.bits ((sl.rowElems cb scales elems lead count).map (wf.round (cpRm e) sl.ftz sl.sat 0)), 0, lfs)
  | _ =>
    let vs := (List.range count).map fun k => bits elems (wf.bits * k) wf.bits
    let r := if sl.blk = 0 then
        let q := roundList (cpRm e) (fun z x => sl.roundTo (cpRm e) sl.sat z x) lfs (vs.map (wf.source sl.ftz))
        (q.1, ([] : List Nat), q.2)
      else narrowParts sl wf (cpRm e) parts lfs vs
    (packList sl.fmt.bits r.1, packList 8 r.2.1, r.2.2)

/-- The two sides of a row. -/
def copySides (sl : Slot) (e : Nat) (dims : List Dim) (row : Nat) : Side × Side :=
  let c0 := ((dims.head?).map (·.count)).getD 0
  let (sb, db) := sideBits sl e
  let (so, d0) := rowOffsets (dims.drop 1) row
  (sideOf (if cpConv e = 1 then some sl else none) (cpSrc e) (cpSscl e) so c0 sb,
   sideOf (if cpConv e = 2 then some sl else none) (cpDst e) (cpDscl e) d0 c0 db)

/-- Granules of a core's scratchpad that pieces lie in (R177). -/
def granulesOf (g : Gang) (l : List (Nat × Nat)) : List Nat :=
  l.flatMap fun p =>
    match g.spadAddr p.1 p.2 with
    | some a => (List.range ((a + p.2 - 1) / 16 - a / 16 + 1)).map (a / 16 + ·)
    | none => []

def Side.all (x : Side) : List (Nat × Nat) := x.elems ++ x.scales.map fun a => (a, 1)

/-- The descriptor's 2,048 bits, as they have been read or as they stand in memory. -/
def State.descBits (s : State) (v : EngineAt) (e : Nat) : Except Nat Nat :=
  match v.held with
  | some h => .ok h.desc.toNat
  | none => engErr (s.agValue v.agent (cpDesc e) 256)

/-- The entry's slot, and its descriptor's dimensions once the entry and the descriptor pass their checks. A descriptor address that is not a
multiple of 64 is DESC_BAD, where R233 and R439 name no cause (DESIGN CHOICE, log entry 28). -/
def State.copyPlan (s : State) (v : EngineAt) (e : Nat) : Except Nat (Slot × List Dim) :=
  let sl := s.engSlot v (cpSlot e)
  if copyBad sl v.gang.isNone e then .error eEntryBad
  else if cpDesc e % 64 ≠ 0 then .error eDescBad
  else
    match s.descBits v e with
    | .error c => .error c
    | .ok d => if descBad sl e d then .error eDescBad else .ok (sl, descDims d)

def State.engLfs (s : State) (v : EngineAt) : Word :=
  match v.gang with
  | some (c, g) => ((s.gang c g).ctx v.ctx).lfs
  | none => 0

def State.modEngCtx (s : State) (v : EngineAt) (f : ECtx → ECtx) : State :=
  match v.gang with
  | some (c, g) => s.modGang c g fun x => x.setCtx v.ctx (f (x.ctx v.ctx))
  | none => s

/-- Reads a row: its elements and its scales. -/
def State.readRow (s : State) (v : EngineAt) (e : Nat) (src : Side) : Except Nat (State × Nat × Nat) :=
  match s.spaceReads v (cpSsp e) src.elems with
  | .error c => .error c
  | .ok (s1, x) => (s1.spaceReads v (cpSsp e) (src.scales.map fun a => (a, 1))).map fun r => (r.1, x, r.2)

/-- The lines of software-managed data that each scaled block of a global side lies in (R163). -/
def State.sideLines (s : State) (v : EngineAt) (sp : Nat) (sl : Slot) (x : Side) : List (List Nat) :=
  if sp ≠ 0 then []
  else
    ((x.units sl).map fun u => (u.filterMap fun va =>
      match s.translate v.agent.core v.agent.asn v.agent.root va .read with
      | .ok t => if t.kind = .swm then some (t.pa / 64) else none
      | .error _ => none).dedup).filter fun u => 1 < u.length

/-- A scaled read takes the lines of a unit together: where one is missing, all are read anew (R163, R218). -/
def State.freshL2 (s : State) (k : Nat) (l : List (List Nat)) : State :=
  l.foldl (fun (s : State) u =>
    if u.all fun la => (s.l2Line k la).valid then s
    else u.foldl (fun (s : State) la => s.setL2 k la { s.l2Line k la with valid := false }) s) s

/-- One row: read whole, or read ahead (R229), then written (R235). -/
def State.copyRow (s : State) (v : EngineAt) (e : Nat) (sl : Slot) (dims : List Dim) (row : Nat) : Except Nat State :=
  let (src, dst) := copySides sl e dims row
  let c0 := ((dims.head?).map (·.count)).getD 0
  let cb (n : Nat) : Nat :=
    match v.gang with
    | some (c, g) => s.cbTable (s.gang c g) (cpSlot e) n
    | none => 0
  let k := clusterOf v.agent.core
  let got : Option (Nat × Nat) := match v.gang with
    | some (c, g) =>
      let x := (s.gang c g).ctx v.ctx
      (x.ahead.find? fun p => p.1 == x.tlcnt.toNat + 1 && p.2.1 == row).map fun p => p.2.2
    | none => none
  let read : Except Nat (State × Nat × Nat) := match got with
    | some r => .ok (s, r)
    | none => (s.freshL2 k (s.sideLines v (cpSsp e) sl src)).readRow v e src
  match read with
  | .error c => .error c
  | .ok (s2, x, sc) =>
    let (y, ysc, lfs) := copyRowValue sl cb e (s2.engLfs v) src.lead c0 dst.parts x sc
    let new := s.sideLines v (cpDsp e) sl dst
    let s2 := if new.isEmpty then s2
      else s2.modCluster k fun q => { q with ties := q.ties ++ new.filter fun u => !q.ties.contains u }
    match s2.spaceWrites v (cpDsp e) dst.elems y with
    | .error c => .error c
    | .ok s3 =>
      (s3.spaceWrites v (cpDsp e) (dst.scales.map fun a => (a, 1)) ysc).map fun t =>
        t.modEngCtx v fun q => { q with lfs }

/-! ## Reading ahead (R229) -/

/-- Bytes of a side's rows as (space, place, length): places of global bytes are physical. -/
def State.spans (s : State) (v : EngineAt) (sp : Nat) (l : List (Nat × Nat)) : List (Nat × Nat × Nat) :=
  if sp ≠ 0 then l.map fun p => (sp, p.1, p.2)
  else
    l.flatMap fun p => (pieces8 p.1 p.2).filterMap fun q =>
      match s.translate v.agent.core v.agent.asn v.agent.root q.1 .read with
      | .ok t => if t.kind = .broadcast then none else some (0, t.pa, q.2)
      | .error _ => none

def spansMeet (a b : List (Nat × Nat × Nat)) : Bool := a.any fun p => b.any fun q => p.1 == q.1 && overlaps p.2.1 p.2.2 q.2.1 q.2.2

/-- All bytes that an entry reads (`src`) or writes, by rows. -/
def State.entrySpans (s : State) (v : EngineAt) (e : Nat) (sl : Slot) (dims : List Dim) (src : Bool) : List (Nat × Nat × Nat) :=
  (List.range (rowCount dims)).flatMap fun r =>
    let sides := copySides sl e dims r
    let x := if src then sides.1 else sides.2
    s.spans v (if src then cpSsp e else cpDsp e) (x.elems ++ x.scales.map fun a => (a, 1))

/-- Granules that the row wrote and no later row of the entry writes turn full (R177). -/
def State.copyFills (s : State) (v : EngineAt) (e : Nat) (sl : Slot) (dims : List Dim) (row : Nat) : State :=
  match v.gang with
  | some (c, g) =>
    if cpDsp e ≠ 1 then s
    else
      let of (r : Nat) : List Nat := granulesOf (s.gang c g) (copySides sl e dims r).2.all
      let later (gr : Nat) : Bool := (List.range (rowCount dims)).any fun r => row < r && (of r).contains gr
      ((of row).dedup.filter fun gr => !later gr).foldl (fun s gr => (s.setGran c gr true).granTurned c gr) s
  | none => s

/-- One more row is written (R226); the entry is in progress as it has been read. -/
def State.rowDoneBy (s : State) (who : Engine) (v : EngineAt) (held : Option Held) : State :=
  match who with
  | .gang _ _ _ => s.modEngCtx v fun k => { k with done := k.done + 1, held }
  | .walker w node => s.modRun w fun r =>
      { r with firings := r.firings.map fun f => if f.node = node then { f with rows := f.rows + 1, held } else f }

/-! ## Completion and faults -/

/-- Writes ST, and CAUSE of a fault; dropped where the page is not writable (R228). The status of a chain without a core is written
through its walker's own cluster, `via` (R472). -/
def State.entryStatus (s : State) (v : EngineAt) (st : Nat) (cause : Option Nat) (via : Nat := 0) : State :=
  let c := if nCores ≤ v.agent.core then via else v.agent.core
  let owner : Owner := match v.gang with
    | some (c, g) => { ltag := (s.gang c g).seat.ltag }
    | none => {}
  let put (s : State) (at_ val : Nat) : State := s.hwPut c v.agent.asn v.agent.root at_ 1 val owner
  match s.translate c v.agent.asn v.agent.root (v.va + 17) .read with
  | .error _ => s
  | .ok t =>
    let old := if (s.homeCause c t.pa).isSome then 0 else (s.engineRead c t 1).2
    let s := put s (v.va + 17) (old - old % 4 + st)
    match cause with
    | some c => put s (v.va + 19) c
    | none => s

/-- Frees the token's slot of a firing that has ended (R95): none where that has to wait. -/
def State.freeFiring (s : State) (w : Nat) (f : Firing) : Option State :=
  match f.edge.bind fun k => ((s.runOf w).edges[k]?).map fun e => (k, e) with
  | some (k, e) =>
    (match s.freeSlot (s.walkAgent w) e with
     | .ok t => some (t.modRun w fun r => r.taken k)
     | .error c => if c = cWaits then none else some (s.runFault w 0x08 f.node 0))
  | none => some s

/-- A firing of a faulted run frees its slot and is gone; one that has to wait for that stays, with nothing to deliver. -/
def State.endFaulted (s : State) (w : Nat) (f : Firing) : State :=
  match s.freeFiring w f with
  | some t => t.modRun w fun r => { r with firings := r.firings.filter fun (x : Firing) => x.node != f.node }
  | none => s.modRun w fun r =>
      { r with firings := r.firings.map fun (x : Firing) => if x.node = f.node then { x with give := some [] } else x }

/-- A firing ends in a fault of its node (R97): the run fires nothing more. -/
def State.faultFiring (s : State) (w node cause edge : Nat) : State :=
  let s := s.runFault w cause node edge
  (match (s.runOf w).firings.find? fun (f : Firing) => f.node == node with
   | some f => s.endFaulted w f
   | none => s).settleFault w

/-! ## Timeline waits (R212, R231) -/

/-- Is the argument of a timeline wait met? -/
def ECtx.met (x : ECtx) (v : Nat) (ge : Bool) : Bool := if ge then decide (v ≤ x.tlcnt.toNat) else decide ((x.tliss - x.tlcnt).toNat < v)

/-- Ends the timeline waits of a gang that its counters now meet. -/
def State.tlSettle (s : State) (c g : Nat) : State :=
  (s.gang c g).waits.foldl (fun (s : State) w =>
    match w.tl with
    | some (n, v, ge) => if ((s.gang c g).ctx n).met v ge then { (s.endWait c g w).finish with focus := s.focus } else s
    | none => s) s

/-- The waits on a context that has faulted raise ENGINE_FAULT at that moment (R231). -/
def State.tlFaults (s : State) (c g n : Nat) : State :=
  (s.gang c g).waits.foldl (fun (s : State) w =>
    match w.tl, w.entry with
    | some (m, _, _), some e =>
      if m = n then s.takeTrap c { slot := g, causes := [(cEngineFault, w.ex)], raised := s.timeAt (clusterOf c), entry := e } else s
    | _, _ => s) s

/-- A context has faulted: the waits on it trap, and an idle gang raises ENGINE_FAULT (R231, R471). -/
def State.engineTrap (s : State) (c g n : Nat) : State :=
  let s := s.tlFaults c g n
  let x := s.gang c g
  let x := { x with endFaults := x.endFaults.filter (· != n) }
  let s := s.setGang c g x
  if !x.live then (s.setGang c g { x with endFaults := n :: x.endFaults }).takeEndTrap c g cEngineFault 0
  else s.tryIdle c g

/-- The entry in progress completes (R211): a matrix entry's AM writes are performed (R240), and a fault that it has outlived is gone
from PROGn. -/
def State.completeEntry (s : State) (who : Engine) (v : EngineAt) (next : Nat) : State :=
  let s := s.entryStatus v 1 none
  match who with
  | .gang c g n =>
    let x := (s.gang c g).ctx n
    let out := (x.mats.filter fun m => m.seq == x.tlcnt + 1).flatMap (·.out)
    let s := if out.isEmpty then s else s.modCore c fun k => { k with am := k.am.putAll out }
    (s.modEngCtx v fun k =>
      { k with
        tlcnt := k.tlcnt + 1, done := 0, cause := 0, resumed := false, held := none
        mats := k.mats.filter fun m => m.seq != k.tlcnt + 1
        ahead := k.ahead.filter fun p => p.1 != k.tlcnt.toNat + 1 }).tlSettle c g
  | .walker w node => s.modRun w fun r =>
      { r with firings := r.firings.map fun f => if f.node = node then { f with chain := BitVec.ofNat 64 next, rows := 0, held := none } else f }

/-- The entry in progress faults and its context stops; octets of it and of later entries do not run (R230, R472). A machine check of the engine
is an event of its field's black box, whose source and data the spec does not state (R298; log entry 23). -/
def State.faultEntry (s : State) (who : Engine) (v : EngineAt) (cause : Nat) : State :=
  let field := match who with
    | .gang c _ _ => fieldOf c
    | .walker w _ => w / 8
  let s := if cause = eMachineCheck then s.bboxOpen field 3 else s
  match who with
  | .gang c g n =>
    let s := (s.entryStatus v 2 (some cause)).modCore c fun k => { k with octQ := k.octQ.filter fun q => !(q.slot == g && q.ctx == n) }
    (s.modEngCtx v fun k => { k with cause := BitVec.ofNat 8 cause, resumed := false }).engineTrap c g n
  | .walker w node => (s.entryStatus v 2 (some cause) (walkCore w)).faultFiring w node 0x0a 0

/-! ## Collectives (R242) -/

def coRoot (e : Nat) : Nat := bits e 368 8
def coW (e : Nat) : Nat := bits e 360 3
def coH (e : Nat) : Nat := bits e 364 3
def coX (e : Nat) : Nat := bits e 352 4
def coY (e : Nat) : Nat := bits e 356 4
def coCount (e : Nat) : Nat := bits e 320 32
def coFn (e : Nat) : Nat := bits e 164 4

/-- ENTRY_BAD of a collective entry on a core at (lx, ly) of a block of 2^bw by 2^bh cores. -/
def collBad (bw bh lx ly e : Nat) : Bool :=
  !(entryKind e == 5 || entryKind e == 6 || entryKind e == 7) || entryReserved e || bits e 376 136 != 0 || bits e 172 20 != 0 ||
    bits e 160 4 != 0 || 8 ≤ coFn e || 2 ≤ bits e 168 2 || 2 ≤ bits e 170 2 || 4 < coW e || 4 < coH e || e.testBit 363 || e.testBit 367 ||
    coCount e == 0 || 2 ^ 20 < coCount e || 2 ^ (coW e + coH e) ≤ coRoot e || coX e % 2 ^ coW e != 0 || coY e % 2 ^ coH e != 0 ||
    2 ^ bw < coX e + 2 ^ coW e || 2 ^ bh < coY e + 2 ^ coH e || lx / 2 ^ coW e != coX e / 2 ^ coW e || ly / 2 ^ coH e != coY e / 2 ^ coH e

/-- One combination of two words. -/
def combineWord (fn a b : Nat) : Nat :=
  match fn with
  | 0 => addF32 a b
  | 1 => (a + b) % 2 ^ 32
  | 2 => fp32.minmax false false a b
  | 3 => fp32.minmax true false a b
  | 4 => intMinOp true 32 a b
  | 5 => intMaxOp true 32 a b
  | 6 => intMinOp false 32 a b
  | _ => intMaxOp false 32 a b

/-- One level: neighbours in pairs. -/
def combinePairs (fn : Nat) : List Nat → List Nat
  | a :: b :: l => combineWord fn a b :: combinePairs fn l
  | l => l

/-- The fixed tree over the members' words (R242). -/
def combineTree (fn : Nat) : Nat → List Nat → Nat
  | 0, l => l.headD 0
  | n + 1, l => combineTree fn n (combinePairs fn l)

/-- The member gangs of a group: the gangs of equal index, by member index. -/
def State.collMembers (s : State) (c slot e : Nat) : List (Nat × Nat) :=
  let g := s.gang c slot
  let o := (s.block g.seat.block).origin
  (List.range (2 ^ (coW e + coH e))).filterMap fun q =>
    let core := o + 128 * (coY e + q / 2 ^ coW e) + coX e + q % 2 ^ coW e
    ((s.blockSlots g.seat.block core).find? fun k => (s.gang core k).seat.gidx == g.seat.gidx).map fun k => (core, k)

/-- A collective entry's own fault: a bad field, or a source or a destination that the member uses and that cannot be reached; a broadcast
reads only ROOT's source, a reduce writes only ROOT's destination (R242). -/
def State.collFault (s : State) (v : EngineAt) (c slot e : Nat) : Option Nat :=
  let g := s.gang c slot
  let b := s.block g.seat.block
  let l := s.launch g.seat.ltag.toNat
  let n := 4 * coCount e
  if collBad l.bw l.bh (c % 128 - b.origin % 128) (c / 128 - b.origin / 128) e || (g.ctx 6).wideCount.contains ((g.ctx 6).tlcnt + 1) then
    some eEntryBad
  else
    let lx := c % 128 - b.origin % 128
    let ly := c / 128 - b.origin / 128
    let root := (ly - coY e) * 2 ^ coW e + (lx - coX e) == coRoot e
    let src := entryKind e != 5 || root
    let dst := entryKind e != 6 || root
    match (if src then (s.spaceRead v (bits e 168 2) (cpSrc e) n).map fun _ => () else .ok ()),
      (if dst then (s.spaceWrite v (bits e 170 2) (cpDst e) n 0).map fun _ => () else .ok ()) with
    | .error x, _ => some x
    | _, .error x => some x
    | _, _ => none

/-- A member's tl6 stands at the same entry number, ready to be matched. -/
def State.collReady (s : State) (k : Nat) (p : Nat × Nat) : Bool :=
  let x := (s.gang p.1 p.2).ctx 6
  !x.stopped && x.tlcnt.toNat + 1 == k && x.matched < k && k ≤ x.tliss.toNat

/-- The fields that matched entries agree in. -/
def collSame (d e : Nat) : Bool :=
  entryKind d == entryKind e && coFn d == coFn e && coCount d == coCount e && bits d 352 24 == bits e 352 24

/-- R242. -/
def execCollectiveMatch (core slot : Nat) (s : State) : Out :=
  match s.engineAt (.gang core slot 6) with
  | none => .next s
  | some v =>
    match s.entryBits v with
    | .error _ => .next s
    | .ok e =>
      let k := ((s.gang core slot).ctx 6).tlcnt.toNat + 1
      if k ≤ ((s.gang core slot).ctx 6).matched || (s.collFault v core slot e).isSome then .next s
      else
        let ms := s.collMembers core slot e
        let gone := ms.any fun p => k ≤ ((s.gang p.1 p.2).ctx 6).tlcnt.toNat
        let ats := ms.filterMap fun p => (s.engineAt (.gang p.1 p.2 6)).map fun u => (p, u)
        let es := ats.map fun q => s.entryBits q.2
        let waiting := ms.any fun p => !s.collReady k p
        let differ := es.any fun x => match x with
          | .ok d => !collSame d e
          | .error _ => false
        if gone then .next (s.faultEntry (.gang core slot 6) v eCollMismatch)
        else if waiting || ats.length != ms.length then .next s
        else if differ then
          .next (ats.foldl (fun s q => s.faultEntry (.gang q.1.1 q.1.2 6) q.2 eCollMismatch) s)
        else if (ats.zip es).any fun q => match q.2 with
            | .ok d => (s.collFault q.1.2 q.1.1.1 q.1.1.2 d).isSome
            | .error _ => true then .next s
        else
          let n := 4 * coCount e
          let dat := (ats.zip es).map fun q => match q.2 with
            | .ok d => (match s.spaceRead q.1.2 (bits d 168 2) (cpSrc d) n with
              | .ok (_, x) => x
              | .error _ => 0)
            | .error _ => 0
          let out : Nat :=
            if entryKind e = 5 then dat.getD (coRoot e) 0
            else packList 32 ((List.range (coCount e)).map fun i => combineTree (coFn e) (coW e + coH e) (dat.map fun x => bits x (32 * i) 32))
          let s1 := ((ats.zip es).zipIdx).foldl (fun (s : State) q =>
            match q.1.2 with
            | .ok d =>
              if entryKind e = 6 ∧ q.2 ≠ coRoot e then s
              else
                (match s.spaceWrite q.1.1.2 (bits d 170 2) (cpDst d) n out with
                 | .ok t => t
                 | .error _ => s)
            | .error _ => s) s
          .next ((ats.zip es).foldl (fun s q => s.modEngCtx q.1.2 fun x =>
            { x with matched := k
                     held := match q.2 with
                       | .ok d => some { va := q.1.2.va, entry := BitVec.ofNat 512 d }
                       | .error _ => none }) s1)

/-! ## Edge puts (R243) -/

def putReserved (e : Nat) : Bool := entryKind e != 8 || entryReserved e || bits e 320 192 != 0 || bits e 160 32 != 0

/-- Nodes of the run of the walker that owns an edge: CONS is below their number (R93). -/
def State.nodesOf (s : State) (owner : Nat) : Nat := ((s.walker owner).run.map (·.nnode)).getD (2 ^ 32)

/-- The edge and the payload of an edge-put entry, or its fault. A descriptor address that is not a multiple of 32 is EDGE_BAD, where R243 and R441
name no cause (DESIGN CHOICE, log entry 28). -/
def State.putPlan (s : State) (v : EngineAt) (e : Nat) : Except Nat (Edge × Nat) :=
  let at_ := cpSrc e
  if putReserved e then .error eEntryBad
  else if at_ % 32 ≠ 0 then .error eEdgeBad
  else
    match engErr (s.agValue v.agent at_ 32) with
    | .error c => .error c
    | .ok d =>
      if !edgeDescOk d then .error eEdgeBad
      else
        match engErr (s.edgeHead v.agent (edgeOf d)) with
        | .error c => .error c
        | .ok h =>
          if !edgeHeadOk h (s.nodesOf (headOwner h)) || headOwner h = 0xffff then .error eEdgeBad
          else (engErr (s.agValue v.agent (cpDst e) ((edgeOf d).size - 8))).map fun p => (edgeOf d, p)

/-- Delivers an edge put's token and completes it, once the edge has a free slot; none while it stalls. -/
def State.edgePut (s : State) (who : Engine) (v : EngineAt) (e : Nat) : Except Nat (Option State) :=
  match s.putPlan v e with
  | .error c => .error c
  | .ok (edge, p) =>
    (engErr (s.deliver v.agent edge p)).map fun r => r.map fun t => t.completeEntry who v 0

/-! ## The events of the engines -/

/-- The fault that the entry in progress meets where it stands. -/
def State.entryFault (s : State) (who : Engine) (v : EngineAt) : Option Nat :=
  match s.entryBits v with
  | .error c => some c
  | .ok e =>
    let copy : Option Nat :=
      match s.copyPlan v e with
      | .error c => some c
      | .ok (sl, dims) =>
        if rowCount dims ≤ v.rows then none
        else
          match s.copyRow v e sl dims v.rows with
          | .error c => some c
          | .ok _ => none
    match who with
    | .walker _ _ => copy
    | .gang c g n =>
      if n < 4 then copy
      else if n < 6 then none
      else if n = 6 then (if ((s.gang c g).ctx 6).tlcnt.toNat < ((s.gang c g).ctx 6).matched then none else s.collFault v c g e)
      else
        match s.edgePut who v e with
        | .error c => some c
        | .ok _ => none

/-- R226, R235: one row of a copy entry. -/
def execEngineRowWritten (who : Engine) (s : State) : Out :=
  match s.engineAt who with
  | none => .next s
  | some v =>
    if 4 ≤ v.ctx then .next s
    else
      match s.entryBits v with
      | .error _ => .next s
      | .ok e =>
        match s.copyPlan v e with
        | .error _ => .next s
        | .ok (sl, dims) =>
          if rowCount dims ≤ v.rows then .next s
          else
            match s.copyRow v e sl dims v.rows with
            | .error _ => .next s
            | .ok t =>
              let d := match s.descBits v e with
                | .ok d => d
                | .error _ => 0
              .next ((t.rowDoneBy who v (some { va := v.va, entry := BitVec.ofNat 512 e, desc := BitVec.ofNat 2048 d })).copyFills v e sl dims v.rows)

/-- R211: the entry in progress has written everything. -/
def execEngineEntryComplete (who : Engine) (s : State) : Out :=
  match s.engineAt who with
  | none => .next s
  | some v =>
    match s.entryBits v with
    | .error _ => .next s
    | .ok e =>
      if v.ctx < 4 then
        match s.copyPlan v e with
        | .error _ => .next s
        | .ok (_, dims) => if v.rows < rowCount dims then .next s else .next (s.completeEntry who v (bits e 0 64))
      else
        match v.gang with
        | none => .next s
        | some (c, g) =>
          let x := (s.gang c g).ctx v.ctx
          if v.ctx < 6 then
            if x.mats.any fun m => m.seq == x.tlcnt + 1 && !m.left.isEmpty then .next s else .next (s.completeEntry who v 0)
          else if v.ctx = 6 then
            if x.tlcnt.toNat < x.matched then .next (s.completeEntry who v 0) else .next s
          else
            match s.edgePut who v e with
            | .ok (some t) => .next t
            | _ => .next s

/-- A copy context reads the next row of a later entry (R229): no more than 16 entries of the context and 1,024 of the core are in progress;
its source overlaps no destination of an entry of the context before it in progress, nor its own. -/
def State.readAhead (s : State) (c g n num : Nat) : State :=
  let x := (s.gang c g).ctx n
  if !((s.gang c g).seat.used && s.enginesRun c) || 4 ≤ n || num ≤ x.tlcnt.toNat + 1 || x.tliss.toNat < num || x.tlcnt.toNat + 16 < num ||
      (!x.inProgress.contains num && 1024 ≤ s.copiesOn c + (s.chainsOn c).length) then s
  else
    let at_ (k : Nat) : EngineAt :=
      s.routed { agent := s.gangAgent c g, gang := some (c, g), ctx := n, va := ringSlot x.chring (k - 1), rows := 0 }
    let plan (k : Nat) : Except Nat (Nat × Slot × List Dim) :=
      match s.entryBits (at_ k) with
      | .error e => .error e
      | .ok e => (s.copyPlan (at_ k) e).map fun p => (e, p)
    match plan num with
    | .error _ => s
    | .ok (e, sl, dims) =>
      let row := (x.ahead.filter fun p => p.1 == num).length
      let src := s.entrySpans (at_ num) e sl dims true
      let clash (k : Nat) : Bool :=
        match plan k with
        | .ok (d, sd, dd) => spansMeet src (s.entrySpans (at_ k) d sd dd false)
        | .error _ => true
      let before := (List.range (num - (x.tlcnt.toNat + 1))).map (x.tlcnt.toNat + 1 + ·)
      if rowCount dims ≤ row || (before ++ [num]).any clash then s
      else
        let side := (copySides sl e dims row).1
        match (s.freshL2 (clusterOf c) (s.sideLines (at_ num) (cpSsp e) sl side)).readRow (at_ num) e side with
        | .error _ => s
        | .ok (t, v, sc) => t.modGang c g fun y => y.setCtx n { y.ctx n with ahead := (y.ctx n).ahead ++ [(num, row, v, sc)] }

/-- R230: the entry in progress faults with the cause it meets, or with MACHINE_CHECK of an uncorrectable error or a checksum
mismatch (R293, R294). -/
def execEngineEntryFault (who : Engine) (cause : BitVec 8) (s : State) : Out :=
  match s.engineAt who with
  | none => .next s
  | some v =>
    if cause.toNat = eMachineCheck ∨ (cause.toNat ≠ cWaits ∧ s.entryFault who v = some cause.toNat) then .next (s.faultEntry who v cause.toNat) else .next s

/-- R294: the array's test passes, or its failure goes to the host with the time of the last one passed. -/
def execMatrixSelfTest (core : Nat) (passed : Bool) (s : State) : Out :=
  if core < nCores then
    if passed then .next (s.modCore core fun k => { k with selfTest := s.timeAt (clusterOf core) })
    else
      let at_ := (s.core core).selfTest
      let cause := (Config.freeValue s.freeCtr).toNat
      let s := { s with freeCtr := s.freeCtr + 1 }
      let s := s.message kindMachineCheck (clusterOf core) cause (core + at_ % 2 ^ 34 * 2 ^ 14)
      .next (s.bboxEvent (fieldOf core) 3 core (at_ % 2 ^ 56))
  else .next s

/-! ## Rings and commands (R225, R232) -/

/-- The writable bits of CHRINGn. -/
def ringBits (v : DWord) : DWord := v &&& 0x01ffffffffffff01

/-- Sets a context's ring. -/
def State.setRing (s : State) (c g n : Nat) (v : DWord) : State :=
  s.modGang c g fun x => x.setCtx n { x.ctx n with chring := ringBits v }

/-- Is a context drained? -/
def Gang.drained (g : Gang) (n : Nat) : Bool := (g.ctx n).tlcnt == (g.ctx n).tliss

/-- R225: a CHRING write that waited. -/
def execChringWrite (core slot ctx : Nat) (s : State) : Out :=
  let all := (List.range 16).findSome? fun k =>
    ((s.gang core k).waits.reverse.find? fun w => (w.sysw.map fun r => (r.1, r.2.1)) == some (slot, 0x18 + ctx)).map fun w => (k, w)
  match all with
  | none => .next s
  | some (k, w) =>
    if !(s.gang core slot).drained ctx then .next s
    else
      match w.sysw with
      | none => .next s
      | some (_, _, v) =>
        let old := s.focus
        let t := (s.setRing core slot ctx v).endWait core k w
        .next { t.finish with focus := old }

/-- A faulted context runs on at row DONE; CAUSE stands until the entry completes (R226, R232). The octets not yet run wait for the array
anew; the entry is read anew, so that one mended in its ring runs on (DESIGN CHOICE, log entry 28). -/
def State.resumeCtx (s : State) (c g n : Nat) : State :=
  let x := (s.gang c g).ctx n
  if !x.stopped then s
  else
    let now := s.cycles (clusterOf c)
    let ops := x.mats.flatMap fun m => m.left.map fun o => ({ slot := g, ctx := n, seq := m.seq, oct := o, arrived := now } : OctOp)
    let s := if ops.isEmpty then s else s.modCore c fun k => { k with octQ := k.octQ ++ ops }
    s.modGang c g fun y => { y.setCtx n { x with resumed := true, held := none } with endFaults := y.endFaults.filter (· != n) }

/-- A faulted context skips its outstanding entries (R232). -/
def State.abandonCtx (s : State) (c g n : Nat) : State :=
  let x := (s.gang c g).ctx n
  if !x.stopped then s
  else
    let a := s.gangAgent c g
    let s := (List.range (x.tliss - x.tlcnt).toNat).foldl (fun (s : State) i =>
      s.entryStatus { agent := a, gang := some (c, g), ctx := n, va := ringSlot x.chring (x.tlcnt.toNat + i), rows := 0 } 3 none) s
    (s.modGang c g fun y =>
      { y.setCtx n { x with tlcnt := x.tliss, cause := 0, resumed := false, done := 0, mats := [], ahead := [], matched := x.tliss.toNat, held := none } with
        endFaults := y.endFaults.filter (· != n) }).tlSettle c g

/-- A command comes from the context's gang or from the handler of its core (R232, log entry 35). -/
def State.commands (s : State) (c g : Nat) : Bool := (s.gang c g).seat.used && ((s.gang c g).live || (s.gang c handlerSlot).live)

/-- R232. -/
def execEctlResume (core slot ctx : Nat) (s : State) : Out := .next (if s.commands core slot then s.resumeCtx core slot ctx else s)

/-- R232. -/
def execEctlAbandon (core slot ctx : Nat) (s : State) : Out := .next (if s.commands core slot then s.abandonCtx core slot ctx else s)

/-! ## The instructions of group 0xa -/

/-- s(A + 1). -/
def State.sNext (s : State) (x : Src) : Nat := (s.me.sreg (x.regNat + 1)).toNat

/-- s(A) and s(A + 1) as DST and SRC. -/
def State.ends (s : State) (sp : OpSpec) (f : Fields) : Nat := s.sNext f.a + s.sa sp f * 2 ^ 64

/-- s(B) + sext(X). -/
def State.baseX (s : State) (sp : OpSpec) (f : Fields) : Nat := (s.sb sp f + s.sc sp f) % 2 ^ 64

/-- R439. -/
def execCp (f : Fields) (s : State) : Out :=
  let sl := s.slotN s.me f.ctl.sl.toNat
  let t := f.ctl
  let scaled := t.conv != 0 && sl.splits
  s.engineIssue (.cp f) f t.sc.toNat 1
    (fun _ =>
      { enc :=
          if s.me.isHandler then []
          else
            let noReg := match f.b with
              | .reg n => 62 < n.toNat
              | _ => true
            Causes.addIf ((scaled && noReg) || (t.rm == 5 && t.conv == 2 && 8 < sl.fmt.bits)) cIllegalEncoding s.focus.lanes [] })
    (fun sp s _ =>
      let scl := s.sNext f.b
      t.ssp + t.dsp * 4 + t.conv * 16 + t.wide * 64 + t.sl.toNat * 256 + t.rm.toNat * 2048 + s.ends sp f * 2 ^ 32 +
        s.baseX sp f * 2 ^ 160 + (if scaled && t.conv == 1 then scl * 2 ^ 224 else 0) + (if scaled && t.conv == 2 then scl * 2 ^ 288 else 0))
    fun s _ _ _ => s

/-- A collective entry (R440); the context keeps the number of one whose COUNT passes 32 bits. -/
def State.collective (s : State) (i : Instr) (f : Fields) (kind : Nat) : Out :=
  let t := f.ctl
  s.engineIssue i f 6 kind (fun _ => {})
    (fun sp s _ =>
      let n := s.sb sp f
      let x := f.x.toNat
      t.fnc * 16 + (t.dsp * 4 + t.ssp) * 256 + s.ends sp f * 2 ^ 32 + n % 2 ^ 32 * 2 ^ 160 +
        x / 2 ^ 16 % 256 * 2 ^ 192 + x / 2 ^ 8 % 256 * 2 ^ 200 + x % 256 * 2 ^ 208)
    fun s _ seq _ =>
      match opSpec i with
      | some sp =>
        if s.sb sp f < 2 ^ 32 then s
        else s.modMe fun g => g.setCtx 6 { g.ctx 6 with wideCount := seq :: (g.ctx 6).wideCount }
      | none => s

/-- R440. -/
def execBcast (f : Fields) (s : State) : Out := s.collective (.bcast f) f 5
/-- R440. -/
def execBcred (f : Fields) (s : State) : Out := s.collective (.bcred f) f 6
/-- R440. -/
def execBcall (f : Fields) (s : State) : Out := s.collective (.bcall f) f 7

/-- R441. -/
def execEput (f : Fields) (s : State) : Out :=
  s.engineIssue (.eput f) f 7 8 (fun _ => {}) (fun sp s _ => s.sa sp f * 2 ^ 32 + s.baseX sp f * 2 ^ 96) fun s _ _ _ => s

/-- s(A) + sext(X) of a timeline wait. -/
def State.waitArg (s : State) (sp : OpSpec) (f : Fields) : Nat := (s.sa sp f + s.sb sp f) % 2 ^ 64

/-- A timeline wait (R212, R231, R443): out of range, on a faulted context, satisfied, or waiting. -/
def State.timeline (s : State) (i : Instr) (f : Fields) (ge : Bool) (range : ECtx → Nat → Bool) : Out :=
  let n := f.ctl.sc.toNat
  let x := s.me.ctx n
  s.run i f
    (fun sp =>
      let v := s.waitArg sp f
      { checks := fun ex => Causes.addIf (range x v) cTlRange ex (Causes.addIf (x.stopped && !x.met v ge && !range x v) cEngineFault ex []) })
    fun sp s ex _ =>
      let v := s.waitArg sp f
      if x.met v ge then .next s.finish
      else
        .next (s.waitIn
          { lanes := s.focus.lanes, pc := s.focus.pc, since := s.cycles s.myCluster, ins := some f, ex, len := s.focus.len, tl := some (n, v, ge)
            entry := some { s.lateEntry i sp f ex cEngineFault with group := s.focus.lanes } })

/-- R443. -/
def execTlwaitGe (f : Fields) (s : State) : Out := s.timeline (.tlwaitGe f) f true fun x v => decide (x.tliss.toNat < v)

/-- R443. -/
def execTlwaitLt (f : Fields) (s : State) : Out := s.timeline (.tlwaitLt f) f false fun _ v => v == 0

end Sys2Proof.Machine
end

