-- ==== Sys2Proof/Machine/Control.lean ====
section
/-! DEFINITION. Group 0x1: branches, calls, returns, loops, `regang` and `exit` (R366 to R370), and the end of a body. -/

namespace Sys2Proof.Machine

/-! ## Moving lanes -/

/-- PC + 4·d (R354). -/
def State.target (s : State) (f : Fields) (x : Src) : DWord := s.focus.pc + BitVec.ofInt 64 (4 * dispOf f x)

/-- Where a lane goes: its target with the stamp's increment when it is taken, else the next instruction (R366). -/
def State.branchTo (s : State) (taken : Mask) (stamps : Bool) (t : Nat → DWord) (j : Nat) : DWord × Nat :=
  if taken.getLsbD j then (t j, if stamps && t j ≤ s.focus.pc then 1 else 0) else (s.pcNext, 0)

/-- Taken lanes whose register target is no multiple of 4 (R366). -/
def State.badTargets (s : State) (sp : OpSpec) (f : Fields) (ex : Mask) : Mask :=
  maskOf 64 fun j => ex.getLsbD j && s.va sp f j % 4 != 0

def State.alignCheck (s : State) (sp : OpSpec) (f : Fields) (ex : Mask) : Causes :=
  Causes.add cFetchAlign (s.badTargets sp f ex) []

/-! ## Parking (R132) -/

/-- The greatest stamp of a list by signed difference. -/
def maxStamp : List Word → Word
  | [] => 0
  | x :: l => l.foldl (fun a b => if (a - b).msb then b else a) x

/-- Releases every parked lane; lanes of one `regang.any` take their greatest stamp unless the bound has passed. -/
def Gang.release (g : Gang) (timeout : Bool) : Gang :=
  let parked := (List.range 64).filter fun j => (g.lane j).parked && !(g.lane j).exited
  { g with
    parkAt := none
    lanes := g.lanes.putAll (parked.map fun j =>
      let x := g.lane j
      let top := maxStamp ((parked.filter fun i => (g.lane i).parkAny && (g.lane i).pc == x.pc).map fun i => (g.lane i).stamp)
      (j, { x with
            pc := x.pc + 8
            stamp := if x.parkAny && !timeout then top else x.stamp
            parked := false
            parkAny := false })) }

/-- Releases the parked lanes when every lane that has not exited is parked or suspended. -/
def Gang.settlePark (g : Gang) : Gang :=
  let alive := lanesOf g.liveLanes
  if alive.any (fun j => (g.lane j).parked) && alive.all (fun j => (g.lane j).parked || (g.lane j).susp) then g.release false else g

/-- Parks the taken lanes; the others move on. -/
def State.park (s : State) (taken : Mask) (any : Bool) : State :=
  let now := s.cycles s.myCluster
  let s := s.moveOn fun j => if taken.getLsbD j then (s.focus.pc, 0) else (s.pcNext, 0)
  s.modMe fun g =>
    { g with
      parkAt := some (g.parkAt.getD now)
      lanes := g.lanes.putAll ((lanesOf taken).map fun j => (j, { g.lane j with parked := true, parkAny := any })) }.settlePark

/-! ## Ending lanes and bodies (R107, R111, R133, R370) -/

/-- Marks lanes exited. -/
def State.exitLanes (s : State) (taken : Mask) : State :=
  let s := s.moveOn fun j => if taken.getLsbD j then (s.focus.pc, 0) else (s.pcNext, 0)
  s.modMe fun g => { g with lanes := g.lanes.putAll ((lanesOf taken).map fun j => (j, { g.lane j with exited := true })) }.settlePark

/-- Returns the items of lanes of a callee gang to their callers, with v0 to v7 (R111). -/
def State.returnItems (s : State) (taken : Mask) : State :=
  let g := s.me
  let rows := (lanesOf taken).map fun j =>
    let from_ := g.callers.get {} j
    (from_.call, from_.lane, (List.range 8).map fun r => BitVec.ofNat 32 (s.vval s.focus.core g r j))
  s.modCore s.focus.core fun k => { k with returns := k.returns ++ rows }

/-- The body of the gang under way has ended: its locks and its claim end, its record's join and its traps are settled, and
the slot goes idle. -/
def State.endBody (s : State) (i : Instr) (f : Fields) : State :=
  let c := s.focus.core
  let g := s.focus.slot
  let s := (s.releaseLocks c g).endClaim c g
  let s := s.chargeFiller c g
  let s := s.modMe fun x => { x with ending := true, endPc := s.focus.pc, endBase := baseBits i f }
  let s := s.modMe fun x => if x.kind = .record then x else { x with parent := 0 }
  (s.tryIdle c g).markIdle c

/-- The handler has ended, and its locks with it (R410): a trap that it was serving and no `rtrap` has answered kills the trapped gang's block (R370). -/
def State.endHandler (s : State) : State :=
  let c := s.focus.core
  let s := ((s.modMe fun x => { x with live := false }).endClaim c handlerSlot).releaseLocks c handlerSlot
  let was := (s.core c).serving
  let s := s.modCore c fun k => { k with serving := none }
  match was with
  | some (.trap t _) => if (s.gang c t.slot).seat.used then s.killBlock (s.gang c t.slot).seat.block else s
  | _ => s

/-- Ends the taken lanes, and the body with the last of them (R370). -/
def State.endLanes (s : State) (i : Instr) (f : Fields) (taken : Mask) : State :=
  let s := if s.me.kind = .callee then s.returnItems taken else s
  let s := s.exitLanes taken
  if s.me.liveLanes ≠ 0 then s
  else if s.me.isHandler then s.endHandler
  else s.endBody i f

/-! ## The instructions -/

/-- R367. -/
def execBr (f : Fields) (s : State) : Out :=
  s.run (.br f) f (fun _ => {}) fun _ s ex _ => .next (s.moveOn (s.branchTo ex true fun _ => s.target f f.a))

/-- R367. -/
def execBrs (f : Fields) (s : State) : Out :=
  s.run (.brs f) f (fun _ => {}) fun sp s ex _ =>
    let holds := intCond f.fn.toNat (toInt true 64 (s.sa sp f)) (toInt true 64 (s.sb sp f))
    .next (s.moveOn (s.branchTo (if holds then ex else 0) true fun _ => s.target f f.c))

/-- R367. -/
def execJmpi (f : Fields) (s : State) : Out :=
  s.run (.jmpi f) f (fun sp => { checks := s.alignCheck sp f }) fun sp s ex _ =>
    .next (s.moveOn (s.branchTo ex true fun j => BitVec.ofNat 64 (s.va sp f j)))

/-- R367: the link pair, also in latch LAT. -/
def execCall (f : Fields) (s : State) : Out :=
  s.run (.call f) f (fun _ => {}) fun _ s ex _ =>
    let next := s.branchTo ex false fun _ => s.target f f.a
    .next ((s.wrV f true ex 0 fun _ => s.pcNext.toNat).moveOn next)

/-- R367: the target is read before the link is written. -/
def execCalli (f : Fields) (s : State) : Out :=
  s.run (.calli f) f (fun sp => { checks := s.alignCheck sp f }) fun sp s ex _ =>
    let next := s.branchTo ex false fun j => BitVec.ofNat 64 (s.va sp f j)
    .next ((s.wrV f true ex 0 fun _ => s.pcNext.toNat).moveOn next)

/-- R367. -/
def execRet (f : Fields) (s : State) : Out :=
  s.run (.ret f) f (fun sp => { checks := s.alignCheck sp f }) fun sp s ex _ =>
    .next (s.moveOn (s.branchTo ex false fun j => BitVec.ofNat 64 (s.va sp f j)))

/-- R368. -/
def execLoop (f : Fields) (s : State) : Out :=
  s.run (.loop f) f (fun _ => {}) fun sp s ex _ =>
    let r : DWord := BitVec.ofNat 64 (s.sa sp f) - 1
    .next ((s.wrS f r).moveOn (s.branchTo (if r = 0 then 0 else ex) true fun _ => s.target f f.b))

/-- R369. -/
def execRegang (f : Fields) (s : State) : Out :=
  s.run (.regang f) f (fun _ => {}) fun _ s ex _ => .next (s.park ex false)

/-- R369. -/
def execRegangAny (f : Fields) (s : State) : Out :=
  s.run (.regangAny f) f (fun _ => {}) fun _ s ex _ => .next (s.park ex true)

/-- R370. -/
def execExit (f : Fields) (s : State) : Out :=
  s.run (.exit f) f (fun _ => { reads := if s.me.kind = .callee then List.range 8 else [] }) fun _ s ex _ =>
    .next (s.endLanes (.exit f) f ex)

end Sys2Proof.Machine
end

