-- ==== Sys2Proof/Machine/Host.lean ====
section
/-! DEFINITION. What the host does to the device: memory and register accesses, walker starts, the completion queue, invalidations, kills,
doorbells, bring-up, router tables, bindings, repair and halts (R15 to R27, R49, R52, R77 to R89, R174, R295, R303 to R306). -/

namespace Sys2Proof.Machine

/-! ## The aperture (R77) -/

/-- Offset of the mailbox block; the management block follows it. -/
def mailboxBase : Nat := 0x18080000000

/-- Key of an offset in the two register blocks: the mailbox offset, or 0x1000000 plus the management offset. -/
def blockKey (off : Nat) : Option Nat := if mailboxBase ≤ off ∧ off < mailboxBase + 0x2000000 then some (off - mailboxBase) else none

/-- The registers of the two blocks (R83, R84, R87, R167, R174, R219, R275, R287, R298, R304, R305, R308, R310). -/
inductive HostReg where
  | wstart (w : Nat)
  | wstat (w : Nat)
  | cqTail
  | cqHead
  | wroot (w : Nat)
  | tlbInv
  | tlbCnt
  | raceCtl (w : Nat)
  | raceSh (w : Nat)
  | raceLog (w : Nat)
  | hroot
  | hentry
  | hfbase
  | save (w : Nat)
  | monbase
  | runkill
  | trbuf (w : Nat)
  | trctl (w : Nat)
  | trpos (w : Nat)
  | mondb (n : Nat)
  | mgmtStat
  | lregBase
  | gregBase
  | dmapPort
  | tblLoad
  | tblUpd
  | grpBind
  | chold
  | slcopy
  | haltctl
  | haltstat
  | halttime
  | tblEpoch
  | bclu
  | regionStat (r : Nat)
  | regionCtl (r : Nat)
  | regionFcnt (r : Nat)
  | orphan (r : Nat)
  | epoch (k : Nat)
  | bbcnt (f : Nat)
  | trcnt (n : Nat)
  deriving DecidableEq, Repr

/-- First key, width, number of registers and name. -/
def hostRegRows : List (Nat × Nat × Nat × (Nat → HostReg)) :=
  [(0x0, 8, 384, .wstart), (0x1000, 8, 384, .wstat), (0x20000, 8, 1, fun _ => .cqTail), (0x20008, 8, 1, fun _ => .cqHead),
   (0x30000, 8, 384, .wroot), (0x30c00, 8, 1, fun _ => .tlbInv), (0x30c08, 8, 1, fun _ => .tlbCnt), (0x31000, 8, 384, .raceCtl),
   (0x32000, 8, 384, .raceSh), (0x33000, 8, 384, .raceLog), (0x34000, 8, 1, fun _ => .hroot), (0x34008, 8, 1, fun _ => .hentry),
   (0x34010, 8, 1, fun _ => .hfbase), (0x35000, 8, 384, .save), (0x36000, 8, 1, fun _ => .monbase), (0x36008, 8, 1, fun _ => .runkill),
   (0x37000, 8, 384, .trbuf), (0x38000, 8, 384, .trctl), (0x39000, 8, 384, .trpos), (0x400000, 8, 12288, .mondb)] ++
  [(0x1000000, 8, 1, fun _ => .mgmtStat), (0x1000010, 8, 1, fun _ => .lregBase), (0x1000018, 8, 1, fun _ => .gregBase),
   (0x1000020, 8, 1, fun _ => .dmapPort), (0x1000028, 8, 1, fun _ => .tblLoad), (0x1000030, 8, 1, fun _ => .tblUpd),
   (0x1000038, 8, 1, fun _ => .grpBind), (0x1000040, 8, 1, fun _ => .chold), (0x1000048, 8, 1, fun _ => .slcopy),
   (0x1000050, 8, 1, fun _ => .haltctl), (0x1000058, 8, 1, fun _ => .haltstat), (0x1000060, 8, 1, fun _ => .halttime),
   (0x1000068, 8, 1, fun _ => .tblEpoch), (0x1000070, 8, 1, fun _ => .bclu), (0x1010000, 8, 96, .regionStat), (0x1011000, 8, 96, .regionCtl),
   (0x1012000, 8, 96, .regionFcnt), (0x1013000, 8, 96, .orphan), (0x1020000, 4, 192, .epoch), (0x10f0000, 8, 48, .bbcnt),
   (0x1400000, 8, 12288, .trcnt)]

/-- The register at a key, and its width. -/
def hostReg (key : Nat) : Option (HostReg × Nat) :=
  hostRegRows.findSome? fun r =>
    let (base, w, n, name) := r
    if base ≤ key ∧ key < base + w * n ∧ (key - base) % w = 0 then some (name ((key - base) / w), w) else none

/-- Writable bits of a register without behaviour of its own. -/
def HostReg.plain : HostReg → Option DWord
  | .wroot _ | .hroot => some 0xffff01ffffff0000
  | .raceCtl _ => some 0x01ffffffffffff00
  | .raceSh _ => some 0x01fffffffffffff0
  | .raceLog _ | .trbuf _ => some 0xf9ffffffffffffe0
  | .hentry | .save _ => some 0x01ffffffffffffff
  | .hfbase => some 0x01fffffffffe0000
  | .monbase => some 0x01fffffffffff000
  | .trctl _ => some 0x3f07
  | .lregBase | .gregBase => some 0x1ffc0000000
  | .trcnt _ => some 0xffffffffffffffff
  | _ => none

def RegState.code : RegState → Nat
  | .off => 0
  | .ramp => 1
  | .on => 2
  | .trip => 3
  | .hold => 4
  | .restart => 5

/-- REGION_STATn (R58). -/
def Region.stat (r : Region) : Nat :=
  r.temp % 256 * 2 ^ 6 + r.permits % 128 * 2 ^ 14 + (if r.refused then 2 ^ 21 else 0) + r.stage % 8 * 2 ^ 22 + r.cause.toNat * 2 ^ 25 +
    r.st.code * 2 ^ 29

/-- REGION_FCNTn (R60). -/
def Region.fcnt (r : Region) : Nat := r.therm + r.ocwarn * 2 ^ 16 + r.rampfail * 2 ^ 32 + r.trips * 2 ^ 48

/-- WSTATw: a running walker with a stalled delivery reads 2 (R83, R94). -/
def Walker.stat (x : Walker) : Nat :=
  let stalled := (x.run.map fun r => r.firings.any fun f => f.stallAt.isSome).getD false
  (if x.st = 1 ∧ stalled then 2 else x.st.toNat) + x.tag.toNat * 2 ^ 48

/-- What a read of a register returns; write-only registers read 0. -/
def State.hostRegValue (s : State) (key : Nat) (r : HostReg) : Nat :=
  match r with
  | .wstat w => (s.walker w).stat
  | .cqTail => s.cqTail
  | .cqHead => s.cqHead
  | .tlbCnt => s.tlbCnt.toNat
  | .mgmtStat => s.mgmt.toNat
  | .slcopy => s.slcopy.toNat
  | .haltstat => (if s.haltOn then 1 else 0) + s.haltCore.toNat * 2 ^ 16 + s.haltSrc.toNat * 2 ^ 30
  | .halttime => s.haltTime.toNat
  | .tblEpoch => s.upds.length
  | .bclu => s.bclu
  | .regionStat n => (s.region n).stat
  | .regionFcnt n => (s.region n).fcnt
  | .orphan n => (s.region n).orphan.toNat
  | .epoch k => (s.cluster k).epoch
  | .bbcnt f => (s.bbox.get {} f).cnt
  | .wstart _ | .tlbInv | .runkill | .mondb _ | .dmapPort | .tblLoad | .tblUpd | .grpBind | .chold | .haltctl | .regionCtl _ => 0
  | _ => (s.hostRegs.get 0 key).toNat

/-- The 16-byte object that holds a key: a completion-queue entry or a black-box event (R84, R298). -/
def State.object16 (s : State) (key : Nat) : Option (BitVec 128) :=
  if 0x10000 ≤ key ∧ key < 0x20000 then some (s.cq.get 0 ((key - 0x10000) / 16))
  else if 0x1100000 ≤ key ∧ key < 0x1100000 + 48 * 0x10000 then
    some ((s.bbox.get {} ((key - 0x1100000) / 0x10000)).slots.get 0 ((key - 0x1100000) % 0x10000 / 16))
  else none

/-- A read of the register blocks: its value, or none for an unassigned offset or a wrong width. -/
def State.blockRead (s : State) (key n : Nat) : Option Nat :=
  match s.object16 key with
  | some v => if [1, 2, 4, 8, 16].contains n ∧ key % n = 0 then some (bits v.toNat (8 * (key % 16)) (8 * n)) else none
  | none =>
    match hostReg key with
    | some (r, w) => if n = w then some (s.hostRegValue key r) else none
    | none => none

/-! ## Memory (R78) -/

/-- The physical address of an offset in device memory or in an alias window. -/
def State.hostPa (s : State) (off : Nat) : Option Nat :=
  if off < nCores * 2 ^ 27 then some off
  else if 0x18000000000 ≤ off ∧ off < 0x18040000000 then some ((s.hostRegs.get 0 0x1000010).toNat + (off - 0x18000000000))
  else if 0x18040000000 ≤ off ∧ off < mailboxBase then some ((s.hostRegs.get 0 0x1000018).toNat + (off - 0x18040000000))
  else none

/-- The place of a byte for a host access, where its home's router forwards. -/
def State.hostByte (s : State) (pa : Nat) : Option Nat :=
  match s.hostKey pa with
  | some k => if s.forwards (regionOfPhys (k / 2 ^ 27)) then some k else none
  | none => none

/-- What a coherent access of the host does to a superblock's holders (R188, R189). After a write no cluster holds the superblock, and OWN and SHR are
0; the spec does not say what they become (DESIGN CHOICE, log entry 22). -/
def State.hostSnoop (s : State) (sb : Nat) (writes : Bool) : State :=
  let s := s.snoopOthers 192 sb (if writes then .rx else .rs)
  if writes then { s with homeBits := s.homeBits.put sb 0 } else s

/-- The physical addresses of the `n` bytes from an offset, each by the window that holds it (R77); none in a register block. -/
def State.hostPas (s : State) (off n : Nat) : List (Option Nat) := (List.range n).map fun i => s.hostPa (off + i)

/-- Superblocks of a list of bytes. -/
def sbsOf (l : List (Option Nat)) : List Nat := (l.filterMap fun a => a.map (· / 256)).dedup

/-- Can the host's access be performed now: no home of it is held by a slice copy (R295), and every cluster may apply its snoops in this
step (R189, R199)? Otherwise it comes about later. -/
def State.hostOpen (s : State) (off n : Nat) : Bool :=
  (sbsOf (s.hostPas off n)).all fun sb => !s.homeHeld (sb * 256 / 2 ^ 27) && s.sbOpen 192 sb true

/-- The `n` bytes from an offset. A byte that no home answers for is a free value (log entry 22); one that lies in a register block belongs
to an access that crosses a register's boundary, and reads zero (R77). -/
def State.hostLoad (s : State) (off n : Nat) : State × List Byte :=
  let free (i : Nat) : Byte := (Config.freeValue (s.freeCtr + i)).extractLsb' 0 8
  let l := s.hostPas off n
  let s := { (sbsOf l).foldl (fun s b => s.hostSnoop b false) s with freeCtr := s.freeCtr + n }
  (if l.all (·.isSome) then s else s.flag 8, l.zipIdx.map fun p => match p.1 with
    | some pa => ((s.hostByte pa).map s.dram.read).getD (free p.2)
    | none => 0)

def State.hostStore (s : State) (off : Nat) (data : List Byte) : State :=
  let l := s.hostPas off data.length
  let s := (sbsOf l).foldl (fun s b => s.hostSnoop b true) s
  let s := { s with dram := ((l.zip data).foldl (fun (m : Memory) p => match p.1.bind s.hostByte with
      | some k => m.write k p.2
      | none => m) s.dram) }
  if l.all (·.isSome) then s else s.flag 8

/-- Bytes as one little-endian number. -/
def leBytes (l : List Byte) : Nat := l.foldr (fun b acc => acc * 256 + b.toNat) 0

/-- 16-byte parts of an answer. -/
def answerParts : Nat → List Byte → List (BitVec 128)
  | 0, _ => []
  | n + 1, l => if l.isEmpty then [] else BitVec.ofNat 128 (leBytes (l.take 16)) :: answerParts n (l.drop 16)

/-- DELAY of a TRCNT register advances with what the spec leaves to timing: by a free value, up to its largest (R310; log entry 17). -/
def State.countDelay (s : State) (key : Nat) : State :=
  match hostReg key with
  | some (.trcnt _, _) =>
    let old := (s.hostRegs.get 0 key).toNat
    let n := min 0xffffffff (bits old 32 32 + bits (Config.freeValue s.freeCtr).toNat 0 32)
    { s with hostRegs := s.hostRegs.put key (BitVec.ofNat 64 (n * 2 ^ 32 + bits old 0 32)), freeCtr := s.freeCtr + 1 }
  | _ => s

/-- R77, R78: a host read of memory, or of a register; an unassigned offset reads zero and sets UNMAPPED. -/
def execHostMemoryRead (off n : Nat) (s : State) : Out :=
  match s.hostPa off with
  | some _ =>
    if !s.hostOpen off n then .next s
    else
      let (t, l) := s.hostLoad off n
      .next { t with hostReads := t.hostReads ++ answerParts (n + 1) l }
  | none =>
    match blockKey off with
    | none => .next s
    | some key =>
      let s := s.countDelay key
      match s.blockRead key n with
      | some v => .next { s with hostReads := s.hostReads ++ [BitVec.ofNat 128 v] }
      | none => .next { s.flag 8 with hostReads := s.hostReads ++ [0] }

/-- R78: a host write to memory. -/
def execHostMemoryWrite (off : Nat) (data : List Byte) (s : State) : Out :=
  match s.hostPa off with
  | some _ => .next (if s.hostOpen off data.length then s.hostStore off data else s)
  | none => .next s

/-! ## Plain registers (R77) -/

/-- A write of a register by its own width. -/
def State.plainWrite (s : State) (key : Nat) (r : HostReg) (v : DWord) : State :=
  match r with
  | .regionCtl n => if 5 ≤ bits v.toNat 0 3 then s.modRegion n fun x => { x with refused := true } else s
  | .regionStat n => if v.getLsbD 21 then s.modRegion n fun x => { x with refused := false } else s
  | .regionFcnt n =>
    s.modRegion n fun x =>
      { x with trips := bits v.toNat 48 16, rampfail := bits v.toNat 32 16, ocwarn := bits v.toNat 16 16, therm := bits v.toNat 0 16 }
  | r =>
    match r.plain with
    | some m => { s with hostRegs := s.hostRegs.put key (v &&& m) }
    | none => s

/-- R77: registers with events of their own are left to them; read-only registers discard writes. -/
def execRegisterWrite (off size : Nat) (v : DWord) (s : State) : Out :=
  match blockKey off with
  | none => .next s
  | some key =>
    if (s.object16 key).isSome then .next s
    else
      match hostReg key with
      | some (r, w) => if size = w then .next (s.plainWrite key r v) else .next (s.flag 8)
      | none => .next (s.flag 8)

/-! ## Starting a run (R83, R90, R93, R219, R308) -/

/-- The registers of a run that are illegal at its start (R219, R308). -/
def Run.regsBad (r : Run) : Bool :=
  let mode := bits r.raceCtl.toNat 8 2
  let sz := bits r.raceCtl.toNat 10 6
  mode == 3 || 41 < sz || 2 ^ 57 < bits r.raceCtl.toNat 16 41 * 2 ^ 16 + 2 ^ sz * 2 ^ 16 ||
    (mode == 2 && !(6 ≤ bits r.raceLog.toNat 59 5 && bits r.raceLog.toNat 59 5 ≤ 20)) ||
    (r.trCtl.toNat % 8 != 0 &&
      (!(10 ≤ bits r.trBuf.toNat 59 5 && bits r.trBuf.toNat 59 5 ≤ 24) || !(8 ≤ bits r.trCtl.toNat 8 6 && bits r.trCtl.toNat 8 6 ≤ 20)))

/-- A part of a launch record or graph image, `off` bytes into what begins at `base`: the cause where it lies past the 1 GiB of its
region (R78) or in a slice's hole (R166), or its home does not answer; `cWaits` where it has to be waited for. -/
def State.imageRead (s : State) (w base off n : Nat) : Except Nat Nat :=
  let pa := base + off
  if (base / 2 ^ 30 + 1) * 2 ^ 30 < pa + n ∨ inHole pa then .error cPermFault
  else
    match s.engReach (walkCore w) { pa, kind := .coherent, w := true, x := false, imm := false } false with
    | none => .ok (s.homeRead (clusterOf (walkCore w)) pa n)
    | some e => .error e

def State.gregBase (s : State) : Nat := (s.hostRegs.get 0 0x1000018).toNat
def State.lregBase (s : State) : Nat := (s.hostRegs.get 0 0x1000010).toNat

/-- Does an image's header pass its checks (R82)? -/
def headerOk (h : Nat) : Bool :=
  let n := bits h 0 32
  1 ≤ n && n ≤ 65536 && bits h 32 32 ≤ 65536 && bits h 64 32 < n && bits h 96 416 == 0

/-- What keeps a start from being read or made: it waits, or its fault's cause. -/
def startCause (e : Nat) : Nat := if e = cWaits then cWaits else 0x08

/-- The edges of an image, each checked with its queue header; or the cause and the edge of the first failure. -/
def State.imageEdges (s : State) (w base nnode nedge : Nat) : Except (Nat × Nat) (List Edge) :=
  (List.range nedge).foldl (fun acc k =>
    match acc with
    | .error e => .error e
    | .ok l =>
      match s.imageRead w base (64 + 64 * nnode + 32 * k) 32 with
      | .error e => .error (startCause e, 0)
      | .ok d =>
        if !edgeDescOk d then .error (0x02, k)
        else
          match s.edgeHead (s.walkAgent w) (edgeOf d) with
          | .error e => .error (startCause e, 0)
          | .ok h => if edgeHeadOk h nnode then .ok (l ++ [{ edgeOf d with cons := headCons h }]) else .error (0x02, k)) (.ok [])

/-- Claims edges one after another; on a failure the claims made are undone (R93). -/
def State.claimEdges (s : State) (w : Nat) : List (Edge × Nat) → Except (Nat × Nat) State
  | [] => .ok s
  | (e, k) :: l =>
    match s.agAtomic (s.walkAgent w) (e.queue + 4) 2 fun v => if v = 0xffff then some w else none with
    | .error e => .error (startCause e, 0)
    | .ok (t, v) => if v = 0xffff then State.claimEdges t w l else .error (0x06, k)

/-- The run that a start at IOFF begins, with the registers as they are then: the graph image region's base too (log entry 47). -/
def State.runAt (s : State) (w : Nat) (v : DWord) : Run :=
  let reg (base : Nat) : DWord := s.hostRegs.get 0 (base + 8 * w)
  let root := reg 0x30000
  { base := s.gregBase + bits v.toNat 6 24 * 64, asn := root.extractLsb' 48 16, root := bits root.toNat 16 25 * 2 ^ 16
    raceCtl := reg 0x31000, raceSh := reg 0x32000, raceLog := reg 0x33000, save := reg 0x35000, trBuf := reg 0x37000
    trCtl := reg 0x38000 }

/-- The run's checks at its start, and its claims (R82, R93, R219, R308): the run that begins, or the cause and edge of its fault. An
image or queue that cannot be read faults with 0x08 (log entry 48). -/
def State.openRun (s : State) (w : Nat) (r : Run) : Except (Nat × Nat) State :=
  if r.regsBad then .error (0x09, 0)
  else
    match s.imageRead w r.base 0 64 with
    | .error e => .error (startCause e, 0)
    | .ok h =>
      if !headerOk h then .error (0x01, 0)
      else
        match s.imageEdges w r.base (bits h 0 32) (bits h 32 32) with
        | .error e => .error e
        | .ok l => (s.claimEdges w l.zipIdx).map fun t =>
            t.setRun w { r with nnode := bits h 0 32, entry := some (bits h 64 32), edges := l }

/-- The walker leaves idle with a run whose image starts at IOFF; a failed start faults it. A start that has to wait for its image comes
about later. -/
def State.startRun (s : State) (w : Nat) (v : DWord) : State :=
  let r := s.runAt w v
  let t := s.setWalker w { st := 1, tag := v.extractLsb' 48 16, run := some r }
  let t := { t with hostRegs := t.hostRegs.put (0x39000 + 8 * w) 0 }
  match t.openRun w r with
  | .ok u => u
  | .error (c, k) =>
    if c = cWaits then s
    else (t.setRun w { r with fault := some (c, BitVec.ofNat 64 (0xffffffff + k % 2 ^ 32 * 2 ^ 32)) }).settleFault w

/-- Cause of a refused start (R83). -/
def State.startRefusal (s : State) (w : Nat) (v : DWord) : Option Nat :=
  if s.phase ≠ 3 then some 1
  else if (s.walker w).st ≠ 0 then some 2
  else if bits v.toNat 30 18 ≠ 0 ∨ bits v.toNat 0 6 ≠ 0 then some 3
  else none

/-- R83. -/
def execWalkerStart (w : Nat) (v : DWord) (s : State) : Out :=
  if 384 ≤ w then .next s
  else
    match s.startRefusal w v with
    | some c =>
      .next (s.cqPost
        { payload := v, tag := v.extractLsb' 48 16, src := BitVec.ofNat 16 w, cause := BitVec.ofNat 8 c, kind := kindStartRefused })
    | none => .next (s.startRun w v)

/-! ## The completion queue (R83, R84, R86) -/

/-- Runs whose fault waited for the queue or for their writes write it where they now can (R79, R85). -/
def State.settleFaults (s : State) : State := (s.walkers.map (·.1)).foldl (fun s w => s.settleFault w) s

/-- R84: entries between the old and the new head are read; a walker whose GRAPH_FAULT is among them goes idle. -/
def execCqHeadWrite (v : DWord) (s : State) : Out :=
  let n := v.toNat
  let d := (n + 4096 - s.cqHead) % 4096
  if 4096 ≤ n ∨ (s.cqTail + 4096 - s.cqHead) % 4096 < d then .next s
  else
    let t := { s with
      walkers := s.walkers.map fun (p : Nat × Walker) =>
        match p.2.faultAt with
        | some i => if (i + 4096 - s.cqHead) % 4096 < d then (p.1, { p.2 with st := 0, faultAt := none }) else p
        | none => p
      cqHead := n
      irqs := if n ≠ s.cqTail then s.irqs + 1 else s.irqs }
    .next (t.cqDrain (t.cqOver.length + t.cqHeld.length + t.cqWait.length + 1)).settleFaults

/-! ## TLB invalidation (R174) -/

/-- R174. -/
def execTlbInvalidate (v : DWord) (s : State) : Out := .next { s with tlbQ := s.tlbQ ++ [(v, s.now)] }

/-- Page size that PS names. -/
def invSize (v : DWord) : Nat :=
  match bits v.toNat 46 2 with
  | 0 => 2 ^ 16
  | 1 => 2 ^ 21
  | 2 => 2 ^ 30
  | _ => 2 ^ 35

/-- Does an invalidation name an entry? -/
def invMatches (v : DWord) (e : TlbEntry) : Bool :=
  e.asn == v.extractLsb' 48 16 && (v.getLsbD 45 || (e.size == invSize v && e.va == bits v.toNat 0 41 * 2 ^ 16 / invSize v * invSize v))

/-- Was an access in flight translated by an entry that an invalidation names? -/
def invAccess (v : DWord) (p : Pend) : Bool :=
  !p.performed && p.failed.isNone && p.asn == v.extractLsb' 48 16 &&
    (v.getLsbD 45 || ((p.size == 0 || p.size == invSize v) && p.va / invSize v == bits v.toNat 0 41 * 2 ^ 16 / invSize v))

/-- Invalidates every instruction cache of the cores that `p` holds of (R186). -/
def State.dropCode (s : State) (p : Nat → Bool) : State :=
  { s with cores := s.cores.map fun (q : Nat × CoreSt) => if p q.1 then (q.1, { q.2 with icache := [] }) else q }

/-- R174: the oldest invalidation completes once the accesses under a removed translation are performed. -/
def execTlbInvalidateComplete (s : State) : Out :=
  match s.tlbQ with
  | [] => .next s
  | (v, _) :: rest =>
    if s.pends.any (invAccess v) then .next s
    else
      let t := { s with
        tlbQ := rest
        tlbCnt := s.tlbCnt + 1
        cores := s.cores.map fun (q : Nat × CoreSt) => (q.1, { q.2 with tlb := q.2.tlb.filter fun e => !invMatches v e })
        clusters := s.clusters.map fun (q : Nat × Cluster) => (q.1, { q.2 with tlb := q.2.tlb.filter fun e => !invMatches v e }) }
      .next (t.dropCode fun _ => true)

/-! ## Killing a run (R304) -/

/-- The launches of a walker's run. -/
def State.launchesOf (s : State) (w : Nat) : List Nat := (s.launches.filter fun p => p.2.walker == w).map (·.1)

/-- Kills every block of a launch; the unplaced ones are never placed. -/
def State.killAll (s : State) (l : Nat) : State :=
  let bs := (s.blocks.filter fun p => p.2.ltag.toNat == l).map (·.1)
  bs.foldl (fun s b => s.killBlock b) (s.killLaunch (BitVec.ofNat 16 l))

/-- R304: the run keeps its first fault; stalled producers and pending waits give up, and the fault is written once its launches have ended,
with the copy chains in progress (R97), in a halt too. -/
def execRunkill (v : DWord) (s : State) : Out :=
  let w := bits v.toNat 0 9
  if 384 ≤ w ∨ (s.walker w).st = 0 ∨ (s.walker w).st = 3 then .next s
  else
    let s := s.modRun w fun r => { r with fault := some (r.fault.getD (0x0b, 0xffffffff)), entry := none, killed := true }
    let s := (s.launchesOf w).foldl (fun s l => s.killAll l) s
    let keeps (f : Firing) : Bool := f.give.isNone && (f.chain != 0 || f.ltag != 0)
    .next ((s.modRun w fun r => { r with firings := r.firings.filter keeps }).settleFault w)

/-! ## Doorbells (R305) -/

/-- Can a core take a doorbell: phase 3, its region supplied, and out of reset (R54, R56, R88)? -/
def State.takesDoorbell (s : State) (n : Nat) : Bool :=
  decide (n < nCores) && s.phase == 3 && (s.region (regionOf (clusterOf n))).st == .on && !(s.core n).inReset &&
    entryV (s.tableAt (clusterOf n) n)

/-- R305: a request for the core's handler; one that finds another unserved is discarded and answered with CAUSE 0xff. -/
def execMonitorDoorbell (n : Nat) (v : DWord) (s : State) : Out :=
  if v.getLsbD 63 ∨ !s.takesDoorbell n then .next s
  else
    let waits := (s.core n).work.any fun w => match w with
      | .doorbell _ => true
      | .trap _ => false
    if waits then
      let p := Config.freeValue s.freeCtr
      .next ({ s with freeCtr := s.freeCtr + 1 }.cqPost
        { payload := p, tag := 0, src := BitVec.ofNat 16 n, cause := 0xff, kind := kindMonitor })
    else .next (s.modCore n fun k => { k with work := k.work ++ [.doorbell (v.extractLsb' 0 16)] })

/-- R305: the handler's state is discarded, and what its accesses still owe goes to nobody; a trap that it served is served again, first. -/
def execHandlerRestart (n : Nat) (v : DWord) (s : State) : Out :=
  if !v.getLsbD 63 ∨ !s.takesDoorbell n then .next s
  else
    let t := (s.endClaim n handlerSlot).releaseLocks n handlerSlot
    let t := { t with
      pends := t.pends.map fun (p : Pend) => if p.core == n && p.slot == handlerSlot then { p with slot := 16, dst := none } else p }
    .next (t.modCore n fun k =>
      { k with
        feWait := k.feWait.filter (·.slot != handlerSlot)
        gangs := k.gangs.put handlerSlot (freshHandler n)
        hStopped := false
        work := (match k.serving with
          | some (.trap x _) => [.trap x]
          | _ => []) ++ k.work
        serving := none })

/-! ## Bring-up (R16, R87 to R89) -/

/-- Words of the core defect map (R16, log entry 6). -/
def coreMapWords : Nat := 216

/-- A physical core that the core defect map marks unusable. -/
def State.defective (s : State) (p : Nat) : Bool := ((s.dmapWords.take coreMapWords)[p / 64]?.getD 0).getLsbD (p % 64)

/-- R88: in phase 0 a word joins the maps. DMAP_OK rises once the words of the core map and of the slice map behind it are in
and, as `checked` says, both pass their check (log entry 6). -/
def execDefectMapWrite (v : DWord) (checked : Bool) (s : State) : Out :=
  if s.phase ≠ 0 then .next (s.flag 5)
  else .next { s with
    dmapWords := s.dmapWords ++ [v]
    mgmt := if checked ∧ coreMapWords ≤ s.dmapWords.length then s.mgmt ||| 1 else s.mgmt }

/-- Conditions 1 and 2 of R21 on a new entry, over the table in force. A core number of 12,288 or more names no entry: the write is
refused (log entry 43). -/
def State.entryAllowed (s : State) (tab : Nat → Word) (core : Nat) (e : Word) : Bool :=
  core < nCores &&
    (!entryV e ||
      (bits e.toNat 15 8 < 144 && bits e.toNat 8 7 < 96 && !s.defective (entryPhys e) &&
        regionOfPhys (entryPhys e) == regionOf (clusterOf core) &&
        (List.range nCores).all fun c => c == core || !entryV (tab c) || entryPhys (tab c) != entryPhys e))

/-- The writable bits of an entry (R20). -/
def entryBitsOf (v : DWord) : Word := v.extractLsb' 0 32 &&& 0x01ffff00

/-- R88, R89: phase 1 only. -/
def execTableLoad (v : DWord) (s : State) : Out :=
  let core := bits v.toNat 32 14
  let e := entryBitsOf v
  if s.phase ≠ 1 then .next (s.flag 5)
  else if !s.entryAllowed (fun c => s.tbl.get 0 c) core e then .next (s.flag 7)
  else .next { s with tbl := s.tbl.put core e }

/-- Every table legal, every entry valid (R88). -/
def State.tablesOk (s : State) : Bool := (List.range nCores).all fun c => entryV (s.tbl.get 0 c) && !entryRet (s.tbl.get 0 c)

/-- A privileged message whose cause and payload the spec does not state: free values (log entry 23); the value before them may have
named its source. -/
def State.openMessage (s : State) (kind : BitVec 8) (src : Nat) : State :=
  { s with freeCtr := s.freeCtr + 3 }.message kind src ((Config.freeValue (s.freeCtr + 1)).toNat % 256) (Config.freeValue (s.freeCtr + 2)).toNat

/-- A LINK entry and a black-box event of a link or a group that does not answer: the spec states neither's contents, which are free
values (log entry 23). -/
def State.linkMessage (s : State) (cluster : Nat) : State := (s.openMessage kindLink cluster).bboxOpen (fieldOfCluster cluster) 4

/-- The LINK entry and the black-box event of a group that is dark at phase 2: R88 names no source and no field for them, which are free values
like the rest (log entry 23). -/
def State.darkMessage (s : State) : State :=
  let src := (Config.freeValue s.freeCtr).toNat % 65536
  let field := (Config.freeValue (s.freeCtr + 1)).toNat % 48
  ({ s with freeCtr := s.freeCtr + 2 }.openMessage kindLink src).bboxOpen field 4

/-- The device enters phase 3: handlers take their registers, epochs and frame counts start, every cluster of an ON region joins the c1 pool, at c0
from thermal stage 2 on (R72, R88). -/
def State.enterRunning (s : State) : State :=
  let s := { s with
    hroot := s.hostRegs.get 0 0x34000
    hentry := s.hostRegs.get 0 0x34008
    hfbase := s.hostRegs.get 0 0x34010
    upds := []
    clusters := (List.range 192).map fun k =>
      let r := s.region (regionOf k)
      (k, { s.cluster k with
            inPool := r.st == .on && decide (r.stage < 3), pool := 1, freq := if r.stage < 2 then 14 else 10, thr := decide (2 ≤ r.stage)
            nextFreq := none, epoch := 0, frames := s.now, rxTo := s.now, idleSince := s.now }) }
  let s := (List.range nCores).foldl (fun (s : State) c => s.setGang c handlerSlot (freshHandler c)) s
  s.dropCode fun _ => true

/-- A write of MGMT_STAT (R88): the flags it names clear; a write of another phase moves PHASE by one step, or sets PHREF. -/
def State.mgmtWrite (s : State) (v : DWord) (dark : List (Nat × Nat)) : State :=
  let was := s.phase
  let to_ := bits v.toNat 2 2
  let s := { s with mgmt := s.mgmt &&& ~~~(v &&& 0xff0) }
  let move (s : State) : State := { s with mgmt := (s.mgmt &&& ~~~0xc) ||| BitVec.ofNat 64 (to_ * 4) }
  if to_ = was then s
  else if to_ ≠ was + 1 then s.flag 4
  else if to_ = 1 then (if s.mgmt.getLsbD 0 then move s else s.flag 4)
  else if to_ = 2 then
    (if s.tablesOk then
      let dark := dark.filter fun p => p.1 < 16 && p.2 < 200
      let s := { move s with deadGroups := dark }
      let s := dark.foldl (fun (s : State) _ => s.darkMessage) s
      s.flag 1
     else s.flag 4)
  else if s.mgmt.getLsbD 1 then (move s).enterRunning else s.flag 4

/-- R88: the phase write to 1. -/
def execPhaseTables (v : DWord) (s : State) : Out := .next (if bits v.toNat 2 2 = 1 then s.mgmtWrite v [] else s)

/-- R88: the phase write to 2; `dark` lists the groups without a pilot, by bus. -/
def execPhasePlane (v : DWord) (dark : List (Nat × Nat)) (s : State) : Out := .next (if bits v.toNat 2 2 = 2 then s.mgmtWrite v dark else s)

/-- R88: the phase write to 3. -/
def execPhaseRunning (v : DWord) (s : State) : Out := .next (if bits v.toNat 2 2 = 3 then s.mgmtWrite v [] else s)

/-- R88: a write that repeats the phase, or names phase 0. -/
def execMgmtStatFlagClear (v : DWord) (s : State) : Out :=
  .next (if bits v.toNat 2 2 = s.phase ∨ bits v.toNat 2 2 = 0 then s.mgmtWrite v [] else s)

/-! ## Host beacons (R27, R49, R52) -/

/-- Is a region ON, so that there is a beacon cluster? -/
def State.anyOn (s : State) : Bool := (List.range 96).any fun r => (s.region r).st == .on

/-- Beacons that the host wrote. -/
def Beacon.ofHost (b : Beacon) : Bool :=
  match b.kind with
  | .table _ _ | .bind _ _ _ | .halt _ 0 _ => true
  | _ => false

/-- Host beacons that the management block keeps: not yet reported sent. -/
def State.hostKept (s : State) : Nat := s.beaconsKept.length + (s.beacons.filter fun b => b.ofHost && s.now ≤ b.frame).length

/-- A host beacon: it goes to the beacon cluster while that one's region is ON and nothing is kept before it, and is kept otherwise; none
where 1,024 are kept. -/
def State.hostBeacon (s : State) (k : BeaconKind) : Option State :=
  if 1024 ≤ s.hostKept then none
  else if (s.region (regionOf s.bclu)).st = .on ∧ s.beaconsKept.isEmpty then some (s.sendBeacon s.bclu k)
  else some { s with
    beaconsKept := s.beaconsKept ++ [{ seq := s.beaconSeq, kind := k, frame := s.now }]
    beaconSeq := s.beaconSeq + 1 }

/-- A copied slice: its bytes at the new place are the old place's, as they stand when the accesses held move on (R295). -/
def State.copySlice (s : State) (old new : Nat) : State :=
  { s with dram := ((s.dram.filter fun p => p.1 / 2 ^ 27 == old).foldl (fun (m : Memory) p =>
      m.write (dramKey new p.1) p.2) (s.dram.clear (dramKey new 0) (2 ^ 27))) }

/-- Clusters of a region that has left ON and been retired whole are not counted when a core of it is mapped again, until it is ON (R200). -/
def State.countAnew (s : State) (core : Nat) (e : Word) : State :=
  let r := regionOf (clusterOf core)
  if (s.region r).st != .on && !entryRet e && (regionCores r).all fun c => entryRet (s.tableNow c) then
    s.modRegion r fun x => { x with counted := false }
  else s

/-- R27, R89. -/
def execTableUpdate (v : DWord) (s : State) : Out :=
  let core := bits v.toNat 32 14
  let e := entryBitsOf v
  if s.phase ≠ 3 then .next s
  else if !s.entryAllowed s.tableNow core e then .next (s.flag 7)
  else
    match s.hostBeacon (.table core e) with
    | none => .next (s.flag 11)
    | some t => .next ({ t.countAnew core e with upds := t.upds ++ [(core, e)] }.bboxEvent (fieldOf core) 5 core e.toNat)

/-- R52. A write that names no cluster is refused as well (log entry 45). -/
def execGroupBind (v : DWord) (s : State) : Out :=
  let bus := bits v.toNat 16 4
  let k := bits v.toNat 8 8
  let g := bits v.toNat 0 8
  let spare := 192 ≤ g && g < 200 && (List.range 192).all fun c => s.groupNow bus c != g
  if 192 ≤ k ∨ !(spare || g == k) then .next (s.flag 6)
  else
    match s.hostBeacon (.bind bus k g) with
    | none => .next (s.flag 11)
    | some t => .next ({ t with binds := t.binds ++ [(bus * 192 + k, g)] }.bboxEvent (fieldOfCluster k) 6 k (bus * 256 + g))

/-- A halt or resume beacon of the host; one that is kept is issued, and noted, when it leaves (R49, R303). -/
def State.hostHalt (s : State) (on : Bool) : State :=
  match s.hostBeacon (.halt on 0 0) with
  | none => s.flag 11
  | some t => if t.beaconsKept.length = s.beaconsKept.length then t.noteHalt on 0 0 else t

/-- R303. -/
def execHostHalt (s : State) : Out := .next (s.hostHalt true)

/-- R303. -/
def execHostResume (s : State) : Out := .next (s.hostHalt false)

/-! ## Repair (R295) -/

def cholCore (v : DWord) : Nat := bits v.toNat 0 14

/-- R295: no block is placed on the core. -/
def execCoreHold (v : DWord) (s : State) : Out :=
  let c := cholCore v
  if v.getLsbD 63 ∧ !v.getLsbD 62 ∧ c < nCores then .next (s.modCore c fun k => { k with held := true, drained := false }) else .next s

/-- Blocks with a gang on a core. -/
def State.blocksOn (s : State) (c : Nat) : List Nat :=
  (((List.range 15).filter fun g => (s.gang c g).seat.used).map fun g => (s.gang c g).seat.block).dedup

/-- Asks for a block save of a block, every gang of it, at hints where they come (R282, R283); of a run without images it is refused
(R287). -/
def State.askSave (s : State) (b : Nat) : State :=
  if (s.block b).saveReq.isSome || (s.launch (s.block b).ltag.toNat).nimg == 0 then s
  else
    (s.blockGangs b).foldl (fun s p => s.modGang p.1 p.2 fun g => { g with saveReq := some (g.saveReq.getD s.now) })
      (s.modBlock b fun x => { x with saveReq := some (s.now, true) })

/-- Saves a block whole, forced and at once; one that cannot obtain its images is killed and reported as lost work (R73, R287). -/
def State.forceSave (s : State) (b : Nat) : State :=
  match s.obtainImages b with
  | none => (s.killBlock b).openMessage kindRegion (regionOf (clusterOf (s.block b).origin))
  | some t =>
    (t.blockGangs b).foldl (fun s p =>
      (s.modGang p.1 p.2 fun g => { g with saveStop := some (g.saveStop.getD none), saveReq := none }).markCalls p.1)
      (t.modBlock b fun x => { x with saveReq := some (t.now, false) })

/-- R295: the core is held, and its blocks are saved to their hubs, at a hint where one comes. -/
def execCoreHoldPreempt (v : DWord) (s : State) : Out :=
  let c := cholCore v
  if v.getLsbD 63 ∧ v.getLsbD 62 ∧ c < nCores then
    let t := s.modCore c fun k => { k with held := true, drained := false }
    .next ((t.blocksOn c).foldl (fun s b => s.askSave b) t)
  else .next s

/-- R295. -/
def execCoreRelease (v : DWord) (s : State) : Out :=
  let c := cholCore v
  if !v.getLsbD 63 ∧ c < nCores then .next (s.modCore c fun k => { k with held := false }) else .next s

/-- R295: a held core holds no block and no record. The core is reported once for each hold. -/
def execHeldCoreDrained (core : Nat) (s : State) : Out :=
  let k := s.core core
  let empty := (s.blocksOn core).isEmpty && (List.range 4).all fun p => (k.recQ.get [] p).isEmpty
  if core < nCores ∧ k.held ∧ !k.drained ∧ empty then
    .next ((s.modCore core fun x => { x with drained := true }).message kindRegion (regionOf (clusterOf core)) 0x20 core)
  else .next s

/-- Destination of a slice copy. -/
def copyDest (v : DWord) : Nat := bits v.toNat 8 7 * 144 + bits v.toNat 15 8

/-- R295: the copy starts, or is refused. A write while a copy runs is discarded whole (log entry 42). -/
def execSliceCopy (v : DWord) (s : State) : Out :=
  let src := bits v.toNat 32 14
  let p := copyDest v
  let reg := v &&& 0x00003fff007fff00
  let ok := src < nCores && bits v.toNat 15 8 < 144 && bits v.toNat 8 7 < 96 && !s.defective p &&
    regionOfPhys p == regionOf (clusterOf src) && (List.range nCores).all fun c => !entryV (s.tableNow c) || entryPhys (s.tableNow c) != p
  if s.slcopy.getLsbD 63 then .next s
  else if !v.getLsbD 63 then .next { s with slcopy := reg }
  else if !ok then .next { s.flag 9 with slcopy := reg }
  else .next { s with slcopy := reg ||| (1 <<< 63), slHeld := some (src, p) }

/-- R295: the copy has ended. -/
def execSliceCopyComplete (s : State) : Out :=
  match s.slcopy.getLsbD 63, s.slHeld with
  | true, some (src, p) =>
    let t := if entryV (s.tableAt (clusterOf src) src) then s.copySlice (s.physOf src) p else s
    .next { t with slcopy := t.slcopy &&& 0x7fffffffffffffff }
  | true, none => .next { s with slcopy := s.slcopy &&& 0x7fffffffffffffff }
  | false, _ => .next s

end Sys2Proof.Machine
end

