-- ==== Sys2Proof/Machine/Mesh.lean ====
section
/-! DEFINITION. The mesh: moving packets, aging, dead links and refusals, and the routers' own tables (R20, R25 to R28, R32 to R40). -/

namespace Sys2Proof.Machine

/-! ## Packets -/

/-- Where a packet goes: a response to its source (R33). -/
def Packet.goal (p : Packet) : Nat := if p.ret then p.srcPhys else p.dstPhys

/-- The plane that it travels on; every response on the response plane (R33). -/
def Packet.onPlane (p : Packet) : Nat := if p.ret then 3 else p.plane

/-- The output ports that a packet's order allows at its router (R35); at its goal the local one, until it is granted. -/
def Packet.ports (p : Packet) : List Nat :=
  if p.at_ = p.goal then (if p.taken then [] else [4])
  else
    let x := p.at_ % 144
    let y := p.at_ / 144
    let dx := p.goal % 144
    let dy := p.goal / 144
    let ew := if x < dx then [2] else if dx < x then [3] else []
    let ns := if y < dy then [1] else if dy < y then [0] else []
    match p.order with
    | 0 => if ew.isEmpty then ns else ew
    | 1 => if ns.isEmpty then ew else ns
    | _ => if dx < x then [3] else ew ++ ns

/-- A packet has been handed to the core at its goal. -/
def Packet.arrived (p : Packet) : Bool := p.at_ == p.goal && p.taken && !p.lost && !p.held

/-- One was injected before the other. -/
def Packet.earlier (a b : Packet) : Bool := a.since < b.since || (a.since == b.since && a.id < b.id)

/-- Two packets that the mesh keeps in order (R39). -/
def Packet.ordered (a b : Packet) : Bool :=
  a.src == b.src && a.dst == b.dst && a.ret == b.ret && a.onPlane == b.onPlane && a.vc == b.vc && a.order == b.order &&
    a.clsOrder == b.clsOrder && a.clsOrder < 2

/-- No packet that the mesh keeps before it still waits to be taken up where it has arrived (R39, R106). -/
def State.inTurn (s : State) (p : Packet) : Bool :=
  s.packets.all fun q => !(q.earlier p && q.id != p.id && q.at_ == p.at_ && q.taken && !q.lost && q.ordered p)

/-- Two broadcast stores of a core for one bus, which are transmitted in the order of their issue (R45). -/
def Packet.sameBus (a b : Packet) : Bool :=
  match a.body, b.body with
  | .store x _ _, .store y _ _ => a.src == b.src && busOf x == busOf y
  | _, _ => false

/-- May a broadcast store go into its transmitter: no earlier one of its core and bus is still on its way, and the queue has room (R45)? -/
def State.storeTurn (s : State) (p : Packet) : Bool :=
  match p.body, p.ret with
  | .store off _ _, false => decide (s.txQueue (busOf off) (clusterOf p.src) < 64) && s.packets.all fun q => !(q.id < p.id && q.sameBus p)
  | _, _ => true

def State.setPacket (s : State) (q : Packet) : State := { s with packets := s.packets.map fun (p : Packet) => if p.id = q.id then q else p }
def State.dropPacket (s : State) (id : Nat) : State := { s with packets := s.packets.filter fun (p : Packet) => p.id != id }
def State.packet? (s : State) (id : Nat) : Option Packet := s.packets.find? (·.id == id)

/-- A packet turns back to its source at the core that it has reached: an answer, or a NACK (R33, R105). -/
def Packet.back (p : Packet) (nack : Bool) (now : Nat) : Packet :=
  { p with
    ret := true, nack, taken := false, inPort := 4, order := p.clsOrder, vc := if p.clsOrder = 1 then 1 else 0
    fallback := false, since := now, portAt := now }

/-! ## Hops (R35 to R38) -/

/-- Key of an output port and plane in `portLast`. -/
def portKey (router dir plane : Nat) : Nat := 4 * (5 * router + dir) + plane

/-- How far behind the port granted last a packet's input port comes in the round. -/
def State.turn (s : State) (router dir plane : Nat) (p : Packet) : Nat := (p.inPort + 4 - s.portLast.get 4 (portKey router dir plane)) % 5

/-- One packet goes before another at an output port: the higher level, then the input port whose turn comes first; of one input port, the
earlier (R37; log entry 12). -/
def State.prefers (s : State) (router dir plane : Nat) (a b : Packet) : Bool :=
  let t := s.turn router dir plane
  b.prio < a.prio || (a.prio == b.prio && (t a < t b || (t a == t b && a.earlier b)))

/-- The packets that wait for an output port, none with one before it that the mesh or its transmitter keeps in order. A router with an entry
of V = 0 and RET = 0 moves nothing (R20), and a broadcast store waits before a full transmitter (R45). -/
def State.waiting (s : State) (router dir plane : Nat) : List Packet :=
  if !s.tableRoutes (s.routerCluster router) then []
  else
    s.packets.filter fun p =>
      p.at_ == router && p.onPlane == plane && !p.lost && !p.held && p.ports.contains dir && (dir != 4 || s.storeTurn p) &&
        s.packets.all fun q => !(q.earlier p && !q.lost && !q.taken && q.id != p.id && q.at_ == router && q.ordered p)

/-- The packet that an output port grants. -/
def State.granted (s : State) (router dir plane : Nat) : Option Packet :=
  (s.waiting router dir plane).foldl (fun acc p =>
    match acc with
    | none => some p
    | some a => some (if s.prefers router dir plane p a then p else a)) none

/-- A post of a gang is answered. -/
def State.answerPost (s : State) (c slot : Nat) : State :=
  if slot < 15 ∧ (s.gang c slot).posts ≠ 0 then
    (s.modGang c slot fun g => { g with posts := g.posts - 1 }).tryIdle c slot
  else s

/-- A packet is handed to the core at its goal. A broadcast store goes into its cluster's transmitter (R45); the answer to an accepted
post frees its poster (R105). -/
def State.handIn (s : State) (p : Packet) : State :=
  match p.body, p.ret with
  | .store off data l, false =>
    if s.stands p.dstPhys p.dst then
      let (t, id) := (s.dropPacket p.id).sendMsg (busOf off) (clusterOf p.src) p.src (1 + data.length / 16) (.store off data) l
      { t with pends := t.pends.map fun (x : Pend) => if x.msg = some p.id then { x with msg := some id } else x }
    else s.setPacket { p with taken := true }
  | .post _ _ slot, true => if p.nack then s.setPacket { p with taken := true } else (s.dropPacket p.id).answerPost p.src slot
  | _, _ => s.setPacket { p with taken := true }

/-- R37: the granted packet takes one hop, or is handed in at its goal; on a link that is down it is discarded (R40). -/
def execMeshPacketReceive (router dir : Nat) (plane : BitVec 2) (s : State) : Out :=
  match s.granted router dir plane.toNat with
  | none => .next s
  | some p =>
    let s := { s with portLast := s.portLast.put (portKey router dir plane.toNat) p.inPort }
    match neighbour router dir with
    | none => .next (s.handIn p)
    | some q =>
      .next (if s.linkUp router dir then
          s.setPacket { p with at_ := q, inPort := if dir % 2 = 0 then dir + 1 else dir - 1, portAt := s.now }
        else s.setPacket { p with lost := true })

/-- R37: 1,024 mesh cycles are 512 ns. The count stands while the router's cluster is halted (R302). -/
def execPacketAging (id : Nat) (s : State) : Out :=
  match s.packet? id with
  | some p =>
    if !(s.cluster (s.routerCluster p.at_)).halted ∧ !p.ports.isEmpty ∧ !p.lost ∧ p.portAt + 512 ≤ s.now ∧ p.prio < 4 then
      .next (s.setPacket { p with prio := p.prio + 1, portAt := s.now })
    else .next s
  | none => .next s

/-! ## Dead links (R40) -/

/-- A cluster of the region that a physical core stands in, which the spec does not name further (log entry 23). -/
def State.clusterOfPhys (s : State) (p : Nat) : Nat := 2 * regionOfPhys p + (Config.freeValue s.freeCtr).toNat % 2

/-- R40: both ends report the link. -/
def execLinkHeartbeatTimeout (router dir : Nat) (s : State) : Out :=
  match neighbour router dir with
  | none => .next s
  | some q =>
    if 13824 ≤ router ∨ s.linksDown.contains (router, dir) then .next s
    else
      let back := if dir % 2 = 0 then dir + 1 else dir - 1
      let t := { s with linksDown := s.linksDown ++ [(router, dir), (q, back)] }
      let t := t.linkMessage (t.clusterOfPhys router)
      .next (t.linkMessage (t.clusterOfPhys q))

/-- A pending access completes with a cause (R28, R40, R290). -/
def State.failPend (s : State) (id cause : Nat) : State :=
  match s.pend? id with
  | some p => s.setPend { p with failed := some cause }
  | none => s

/-- The broadcast stores that a packet carries end with a cause. -/
def State.failStore (s : State) (id cause : Nat) : State :=
  { s with pends := s.pends.map fun (x : Pend) => if x.msg = some id then { x with failed := some cause, msg := none } else x }

/-- The data of a superblock never comes (R40): the accesses that wait for it end with a machine check. Where the requester would have owned it,
it is lost, and the home answers what is ordered behind (log entry 24). -/
def State.failRequest (s : State) (msg : Nat) : State :=
  match s.sbReqs.find? fun r => r.msg == msg with
  | none => s
  | some r =>
    let s := { s with
      sbReqs := s.sbReqs.filter fun q => q.msg != msg
      pends := s.pends.map fun (p : Pend) =>
        if p.msg = some msg ∧ !p.performed then { p with failed := some cMachineCheck, msg := none } else p }
    if r.kind = .rs ∧ !r.alone then s
    else
      let s := s.loseSuperblock r.sb
      { s with sbReqs := s.sbReqs.map fun (q : SbReq) =>
          if q.sb = r.sb ∧ q.sup.isNone ∧ (r.behind.any fun b => b.2 == q.msg) then { q with sup := some (r.sb * 256 / 2 ^ 27) } else q }

/-- The data of an evicted superblock never reaches its home: it is lost (log entry 24). -/
def State.failEvict (s : State) (sb : Nat) : State := { s.loseSuperblock sb with evicting := s.evicting.erase sb }

/-- A retained copy never arrives: the receiver may ask for it again. -/
def State.failCopy (s : State) (id k : Nat) : State :=
  { s with
    msgs := s.msgs.map fun (m : Msg) => if m.id = id then { m with copies := m.copies.filter (· != k) } else m
    beacons := s.beacons.map fun (b : Beacon) => if b.id = id then { b with copies := b.copies.filter (· != k) } else b }

/-- A post has come back to its poster for good (R105, R290). -/
def Packet.returned (p : Packet) : Packet :=
  { p with ret := true, nack := p.nack || !p.ret, taken := true, at_ := p.srcPhys, lost := false, held := false, reinjected := true }

/-- A packet whose fallback fails as well ends in a machine check; a record that it carried stays with its poster. -/
def State.failPacket (s : State) (p : Packet) : State :=
  match p.body with
  | .access id => (s.dropPacket p.id).failPend id cMachineCheck
  | .store _ _ _ => (s.dropPacket p.id).failStore p.id cMachineCheck
  | .post _ _ slot =>
    let t := s.coreCheck p.src cMachineCheck
    if p.ret ∧ !p.nack then (t.dropPacket p.id).answerPost p.src slot else t.setPacket p.returned
  | .supply req => (s.dropPacket p.id).failRequest req
  | .evict sb => ((s.dropPacket p.id).failEvict sb).coreCheck p.src cMachineCheck
  | .copy id k => (s.dropPacket p.id).failCopy id k

/-- R40: 20 µs after its injection a discarded packet is injected once more, on the fallback order. -/
def execLinkFallbackReinject (id : Nat) (s : State) : Out :=
  match s.packet? id with
  | some p =>
    if !p.lost ∨ s.now < p.since + 20000 then .next s
    else if p.fallback then .next (s.failPacket p)
    else
      let order := if p.order = 1 then 0 else 1
      .next (s.setPacket
        { p with at_ := if p.ret then p.dstPhys else p.srcPhys, inPort := 4, order, vc := order, fallback := true, lost := false, since := s.now
                 portAt := s.now })
  | none => .next s

/-! ## Lookups and refusals (R19, R25 to R28, R290, R295) -/

/-- The outcome of a packet that is refused for good. -/
def State.refusePacket (s : State) (p : Packet) : State :=
  match p.body with
  | .access id => (s.dropPacket p.id).failPend id cTargetRetired
  | .store _ _ _ => (s.dropPacket p.id).failStore p.id cTargetRetired
  | .post _ _ _ => s.setPacket p.returned
  | .supply req => (s.dropPacket p.id).failRequest req
  | .evict sb => (s.dropPacket p.id).failEvict sb
  | .copy id k => (s.dropPacket p.id).failCopy id k

/-- The router of a packet's source looks its destination up in its own table and sends it off; an uncorrectable entry holds it, and an
entry with V = 0 and RET = 0 fails it as at its injection (log entry 40). -/
def State.lookAgain (s : State) (p : Packet) : State :=
  let k := clusterOf p.src
  let q : Packet := { p with
    at_ := p.srcPhys, ret := false, nack := false, taken := false, held := false, lost := false, fallback := false, inPort := 4
    order := p.clsOrder, vc := if p.clsOrder = 1 then 1 else 0, epoch := (s.cluster k).epoch, since := s.now, portAt := s.now }
  if s.badEntries.contains (p.srcPhys, p.dst) then s.setPacket { q with held := true }
  else
    let s := s.readEntry p.srcPhys p.dst
    match s.sends k p.dst with
    | .to d => s.setPacket { q with dstPhys := d }
    | .retired => s.refusePacket p
    | .unreachable => s.failPacket p

/-- Does the physical core that a packet has reached stand for its destination, by its own router's table? -/
def State.standsFor (s : State) (p : Packet) : Bool := s.stands p.dstPhys p.dst

/-- Has the router that a packet has reached applied the updates of the router that injected it? Until then it keeps the packet (log entry
40). -/
def State.upToDate (s : State) (p : Packet) : Bool := p.epoch ≤ (s.cluster (clusterOf p.dst)).epoch

/-- R28: a core that no longer stands for a packet's destination refuses it with a NACK. At the sender, whose table has then been updated as
the refusing router's, it is looked up again and injected once more; a second refusal, or a retired core, ends it. -/
def execPacketNack (id : Nat) (s : State) : Out :=
  match s.packet? id with
  | some p =>
    if !p.arrived then .next s
    else if !p.ret then
      if s.standsFor p then .next (if s.storeTurn p then s.handIn p else s)
      else if !s.upToDate p then .next s
      else if p.reinjected then .next (s.setPacket (p.back true s.now))
      else .next (s.setPacket { p.back true s.now with epoch := (s.cluster (clusterOf p.dst)).epoch })
    else if !p.nack then .next s
    else if p.reinjected then .next (s.refusePacket p)
    else if (s.cluster (clusterOf p.src)).epoch < p.epoch then .next s
    else .next (s.lookAgain { p with reinjected := true })
  | none => .next s

/-! ## The routers' tables (R25, R26) -/

/-- R25: a scrub of the tables corrects, writes back and counts every single-bit error; `flips` are bits that flip before it, and an entry hit
twice cannot be corrected. -/
def execTableScrub (flips : List (Nat × Nat)) (s : State) : Out :=
  let t := flips.foldl (fun (s : State) p => s.strike p.1 p.2) s
  .next { t with
    eccFixed := t.softEntries.foldl (fun (m : SMap Nat) p => m.put p.1 (m.get 0 p.1 + 1)) t.eccFixed
    softEntries := [] }

/-- The router that a router asks for an entry: its east neighbour, or its west one on the east edge. -/
def askOf (router : Nat) : Nat := if router % 144 = 143 then router - 1 else router + 1

/-- R26: a router answers a neighbour whose copy of an entry is uncorrectable, over the link between them. A whole table asked for in a
RESTART is copied by the event that loads it. -/
def execRouterTableRequest (router entry : Nat) (s : State) : Out :=
  let asks (r : Nat) : Bool := askOf r == router && s.linkUp r (if r % 144 = 143 then 3 else 2) && !s.tblAnswers.any fun a => a.1 == r && a.2.1 == entry
  let askers := ((s.badEntries.filter fun b => b.2 == entry && asks b.1).map (·.1)).dedup
  let t := s.readEntry router entry
  .next { t with tblAnswers := s.tblAnswers ++ askers.map fun r => (r, entry, !s.badEntries.contains (router, entry)) }

/-- A router's entry is rewritten; the packets that it holds for it are looked up and go on. -/
def State.unhold (s : State) (router entry : Nat) : State :=
  let t := { s with badEntries := s.badEntries.filter (· != (router, entry)), softEntries := s.softEntries.filter (· != (router, entry)) }
  (s.packets.filter fun p => p.held && p.at_ == router && p.dst == entry).foldl (fun s p => s.lookAgain p) t

/-- R26: the entry is rewritten and the packet routed, or a machine check is raised and it stays held. The spec states neither the message's
nor the event's contents, which are free values (log entry 23). -/
def execTableRepairResponse (router entry : Nat) (s : State) : Out :=
  match s.tblAnswers.find? fun a => a.1 == router && a.2.1 == entry with
  | none => .next s
  | some (_, _, good) =>
    let t := { s with tblAnswers := s.tblAnswers.filter fun a => !(a.1 == router && a.2.1 == entry) }
    if good then .next (t.unhold router entry)
    else .next ((t.openMessage kindMachineCheck (t.clusterOfPhys router)).bboxOpen (regionOfPhys router / 16 * 8 + regionOfPhys router % 8) 3)

end Sys2Proof.Machine
end

