-- ==== Sys2Proof/Machine/Windows.lean ====
section
/-! DEFINITION. Window accumulators: the tandem stacks, the window image, and the window instructions (R245 to R258, R426 to R432). -/

namespace Sys2Proof.Machine

/-! ## Operators (R247, R248) -/

def winIsF32 (op : Nat) : Bool := op ∈ [0x01, 0x04, 0x07, 0x0a, 0x0d, 0x11, 0x12]
def winIsIdx (op : Nat) : Bool := 0x08 ≤ op && op ≤ 0x0d
/-- Bytes of a slot. -/
def winElem (op : Nat) : Nat := if winIsIdx op then 8 else 4

/-- The canonical NaN for any NaN of a floating-point operator. -/
def winCanon (op v : Nat) : Nat := if winIsF32 op && (fp32.decode v).isNan then fp32.canonNaN else v

/-- Rank of an FP32 value; a NaN stands at `nan`. -/
def f32Rank (nan : Int) (v : Nat) : Int :=
  if (fp32.decode v).isNan then nan
  else if v.testBit 31 then -1 - (v % 2 ^ 31 : Nat) else (v % 2 ^ 31 : Nat)

/-- Rank of a value under an operator. -/
def winRank (op v : Nat) : Int :=
  match op with
  | 0x08 | 0x0b => toInt true 32 v
  | 0x0a => f32Rank (-2 ^ 32) v
  | 0x0d => f32Rank (2 ^ 32) v
  | _ => toInt false 32 v

/-- The 32-bit operators. -/
def winCombine32 (op a b : Nat) : Nat :=
  match op with
  | 0x00 => intAdd false 32 a b
  | 0x01 => addF32 a b
  | 0x02 => intMinOp true 32 a b
  | 0x03 => intMinOp false 32 a b
  | 0x04 => fp32.minmax false false a b
  | 0x05 => intMaxOp true 32 a b
  | 0x06 => intMaxOp false 32 a b
  | 0x07 => fp32.minmax true false a b
  | 0x0e => intAnd false 32 a b
  | 0x0f => intOr false 32 a b
  | 0x10 => intXor false 32 a b
  | 0x11 => lseF { mode := modeRNE, slot := plainSlot } fp32 a b
  | 0x12 => mulF32 a b
  | _ => intMul false 32 a b

/-- combine(a, b), `a` the older: values in [31:0], indices in [63:32]. -/
def winCombine (op : Nat) (a b : DWord) : DWord :=
  if winIsIdx op then
    let ra := winRank op (a.toNat % 2 ^ 32)
    let rb := winRank op (b.toNat % 2 ^ 32)
    let later := 0 < toInt true 32 (b.toNat / 2 ^ 32 + 2 ^ 32 - a.toNat / 2 ^ 32)
    if (if op < 0x0b then rb < ra else ra < rb) || (rb == ra && later) then b else a
  else BitVec.ofNat 64 (winCombine32 op (a.toNat % 2 ^ 32) (b.toNat % 2 ^ 32))

/-- What an empty window returns. -/
def winIdentity (op : Nat) : DWord :=
  let v : Nat := match op with
    | 0x02 | 0x08 => 0x7fffffff
    | 0x03 | 0x09 | 0x0e => 0xffffffff
    | 0x04 | 0x0a => 0x7f800000
    | 0x05 | 0x0b => 0x80000000
    | 0x07 | 0x0d | 0x11 => 0xff800000
    | 0x12 => 0x3f800000
    | 0x13 => 1
    | _ => 0
  BitVec.ofNat 64 (v + if winIsIdx op then 0xffffffff * 2 ^ 32 else 0)

/-! ## Tandem stacks (R251, R253) -/

def WinGroup.count (g : WinGroup) : Nat := g.front.length + g.back.length

/-- The suffix aggregates of a back stack. -/
def winFlip (op : Nat) : List DWord → List DWord
  | [] => []
  | x :: xs =>
    match winFlip op xs with
    | [] => [x]
    | y :: ys => winCombine op x y :: y :: ys

def WinGroup.expire (op : Nat) (g : WinGroup) : WinGroup :=
  match g.front with
  | _ :: f => { g with front := f }
  | [] => { g with front := (winFlip op g.back).drop 1, back := [], bagg := 0 }

def WinGroup.push (op len : Nat) (x : DWord) (g : WinGroup) : WinGroup :=
  let g := if g.count = len then g.expire op else g
  { g with
    back := g.back ++ [x]
    bagg := if g.back.isEmpty then x else winCombine op g.bagg x
    next := g.next + 1 }

def WinGroup.query (op : Nat) (g : WinGroup) : DWord :=
  match g.front, g.back with
  | [], [] => winIdentity op
  | [], _ => g.bagg
  | f :: _, [] => f
  | f :: _, _ => winCombine op f g.bagg

/-- Expiries until at most `len` contributions are left. -/
def WinGroup.shrink (op len : Nat) : Nat → WinGroup → WinGroup
  | 0, g => g
  | n + 1, g => if len < g.count then WinGroup.shrink op len n (g.expire op) else g

/-! ## Descriptors (R246, R250) -/

def Win.en (w : Win) : Bool := w.wdesc.getLsbD 31
def Win.wmax (w : Win) : Nat := bits w.wdesc.toNat 13 11
def Win.glog (w : Win) : Nat := bits w.wdesc.toNat 10 3
def Win.opc (w : Win) : Nat := bits w.wdesc.toNat 5 5
def Win.len (w : Win) : Nat := bits w.wlen.toNat 0 11
def Win.group (w : Win) (k : Nat) : WinGroup := w.groups.get {} k

/-- WMAX, GLOG and operator that a gang of width `gw` may declare. -/
def winOk (gw op glog wmax : Nat) : Bool :=
  op < 0x14 && 1 ≤ wmax && wmax ≤ 1024 && 2 ^ glog ≤ gw && gw / 2 ^ glog * wmax * winElem op ≤ 16384

def mkDesc (op glog wmax : Nat) : DWord := BitVec.ofNat 64 (2 ^ 31 + wmax * 2 ^ 13 + glog * 2 ^ 10 + op * 2 ^ 5)

/-- Writes LEN: the oldest contributions that no longer fit expire. -/
def Win.setLen (w : Win) (len : Nat) : Win :=
  { w with wlen := BitVec.ofNat 64 len, groups := w.groups.map fun p => (p.1, p.2.shrink w.opc len 1024) }

/-! ## The image (R257, R258) -/

/-- Bytes of a lane group's part. -/
def Win.stride (w : Win) : Nat := 16 + w.wmax * winElem w.opc
def Win.imageBytes (w : Win) (gw : Nat) : Nat := 16 + gw / 2 ^ w.glog * w.stride

/-- A lane group's part of the image as a number. -/
def Win.groupImage (w : Win) (g : WinGroup) : Nat :=
  let e := winElem w.opc
  let head := g.back.length + g.front.length * 2 ^ 11 + g.next.toNat * 2 ^ 32 + g.bagg.toNat * 2 ^ 64
  head + 2 ^ 128 * packList (8 * e) ((g.front ++ g.back).map (·.toNat))

def Win.image (w : Win) (gw : Nat) : Nat :=
  w.wdesc.toNat + w.wlen.toNat * 2 ^ 64 +
    2 ^ 128 * packList (8 * w.stride) ((List.range (gw / 2 ^ w.glog)).map fun k => w.groupImage (w.group k))

/-- The lane group of a part of an image, or none where a check of R258 fails. -/
def Win.readGroup (w : Win) (v : Nat) : Option WinGroup :=
  let e := winElem w.opc
  let nb := bits v 0 11
  let nf := bits v 11 11
  let slot (i : Nat) : Nat := bits v (128 + 8 * e * i) (8 * e)
  let bagg := bits v 64 64
  let front := (List.range nf).map fun i => BitVec.ofNat 64 (slot i)
  let back := (List.range nb).map fun i => BitVec.ofNat 64 (slot (nf + i))
  let fold : DWord := match back with
    | [] => 0
    | x :: xs => xs.foldl (winCombine w.opc) x
  let canon (x : Nat) : Bool := winCanon w.opc (x % 2 ^ 32) == x % 2 ^ 32
  let ok := bits v 22 10 == 0 && nf + nb ≤ w.len && bagg == fold.toNat && canon bagg &&
    (List.range w.wmax).all fun i => if i < nf + nb then canon (slot i) else slot i == 0
  if ok then some { front, back, bagg := BitVec.ofNat 64 bagg, next := BitVec.ofNat 32 (bits v 32 32) } else none

/-- The window of an image, or none where a check of R258 fails. -/
def readWindow (gw : Nat) (v : Nat) : Option Win :=
  let w : Win := { wdesc := BitVec.ofNat 64 (bits v 0 64), wlen := BitVec.ofNat 64 (bits v 64 64) }
  if !(w.en && winOk gw w.opc w.glog w.wmax && w.wdesc == mkDesc w.opc w.glog w.wmax && w.wlen.toNat == w.len && 1 ≤ w.len &&
      w.len ≤ w.wmax) then none
  else
    let gs := (List.range (gw / 2 ^ w.glog)).map fun k => (k, w.readGroup (bits v (128 + 8 * w.stride * k) (8 * w.stride)))
    if gs.all (·.2.isSome) then some { w with groups := gs.filterMap fun p => p.2.map fun g => (p.1, g) } else none

/-! ## Naming a window (R427) -/

/-- The gang slot whose window an instruction names: none beyond the block's gangs, and `some none` while that gang is saved. -/
def State.winSlot (s : State) (sp : OpSpec) (f : Fields) : Option (Option Nat) :=
  if f.m58 then
    let g := s.sc sp f
    if (s.launch s.me.seat.ltag.toNat).gangs ≤ g then none
    else some ((s.blockSlots s.me.seat.block s.focus.core).find? fun k => (s.gang s.focus.core k).seat.gidx == g)
  else some (some s.focus.slot)

/-- The window itself, and the width of its gang. -/
def State.winAt (s : State) (sp : OpSpec) (f : Fields) : Option (Win × Nat) :=
  match s.winSlot sp f with
  | some (some k) => some ((s.gang s.focus.core k).win f.a.immNat, (s.gang s.focus.core k).gw)
  | _ => none

def State.setWin (s : State) (sp : OpSpec) (f : Fields) (w : Win) : State :=
  match s.winSlot sp f with
  | some (some k) => s.modGang s.focus.core k fun g => { g with wins := g.wins.put f.a.immNat w }
  | _ => s

/-- WIN_RANGE of the name; with `decl` an undeclared handle raises it too. -/
def State.winCauses (s : State) (sp : OpSpec) (f : Fields) (decl : Bool) (ex : Mask) : Causes :=
  let un := decl && (match s.winAt sp f with
    | some (w, _) => !w.en
    | none => false)
  Causes.addIf (s.me.seat.nwin ≤ f.a.immNat || (s.winSlot sp f).isNone || un) cWinRange ex []

/-- The named gang is saved: the instruction waits for it. -/
def State.winAway (s : State) (sp : OpSpec) (f : Fields) : Bool := s.winSlot sp f == some none

/-- The executing lanes of lane group k. -/
def groupLanes (ex : Mask) (glog k : Nat) : List Nat := (lanesOf ex).filter fun j => j / 2 ^ glog == k

/-! ## The instructions -/

/-- R428. -/
def execWdecl (f : Fields) (s : State) : Out :=
  s.run (.wdecl f) f
    (fun sp =>
      { checks := fun ex =>
          let b := f.b.immNat
          let c := s.winCauses sp f false ex
          Causes.addIf (!winOk s.me.gw (b % 32) (b / 32) (s.sc sp f)) cWinRange ex c
        stall := fun ex => s.owes ex (·.acq) })
    fun sp s _ _ =>
      let b := f.b.immNat
      let n := s.sc sp f
      .next ((s.setWin sp f { wdesc := mkDesc (b % 32) (b / 32) n, wlen := BitVec.ofNat 64 n }).finish)

/-- R429. -/
def execWpush (f : Fields) (s : State) : Out :=
  s.run (.wpush f) f
    (fun sp => { checks := s.winCauses sp f true, stall := fun ex => s.winAway sp f || (f.m57 && s.releaseWaits ex 1) || s.owes ex (·.acq) })
    fun sp s ex _ =>
      match s.winAt sp f with
      | none => .next s.finish
      | some (w, gw) =>
        let groups := (List.range (gw / 2 ^ w.glog)).foldl (fun (m : SMap WinGroup) k =>
          let g := w.group k
          let one (j : Nat) : DWord :=
            BitVec.ofNat 64 (winCanon w.opc (s.vb sp f j % 2 ^ 32) + if winIsIdx w.opc then g.next.toNat * 2 ^ 32 else 0)
          match groupLanes ex w.glog k with
          | [] => m
          | j :: js => m.put k (g.push w.opc w.len (js.foldl (fun acc i => winCombine w.opc acc (one i)) (one j)))) w.groups
        .next ((s.setWin sp f { w with groups }).finish)

/-- R430: a pair for the index operators. -/
def execWq (f : Fields) (s : State) : Out :=
  let d := dstReg s.me f
  let idx := match opSpec (.wq f) with
    | some sp => (match s.winAt sp f with
      | some (w, _) => w.en && winIsIdx w.opc
      | none => false)
    | none => false
  let pairBad := idx && !f.nwb
  s.run (.wq f) f
    (fun sp =>
      { enc := if s.me.isHandler then []
          else Causes.addIf (pairBad && !f.dind && d % 2 == 1) cIllegalEncoding s.focus.lanes
            (Causes.addIf (pairBad && !regOk s.me true f.dind d) cRegRange s.focus.lanes [])
        vs := if pairBad then [d + 1] else []
        checks := s.winCauses sp f true
        stall := fun ex => s.winAway sp f || s.owes ex (·.acq) })
    fun sp s ex zero =>
      match s.winAt sp f with
      | none => .next s.finish
      | some (w, _) => .next ((s.wrV f idx ex zero fun j => ((w.group (j / 2 ^ w.glog)).query w.opc).toNat).finish)

/-- R431: undeclared windows stay so. -/
def execWrst (f : Fields) (s : State) : Out :=
  s.run (.wrst f) f (fun sp => { checks := s.winCauses sp f false, stall := fun ex => s.owes ex (·.acq) }) fun sp s _ _ =>
    match s.winAt sp f with
    | some (w, _) =>
      if w.en then .next ((s.setWin sp f { w with wlen := BitVec.ofNat 64 w.wmax, groups := [] }).finish) else .next s.finish
    | none => .next s.finish

/-- R431, R253. -/
def execWlen (f : Fields) (s : State) : Out :=
  s.run (.wlen f) f
    (fun sp =>
      { checks := fun ex =>
          let bad := match s.winAt sp f with
            | some (w, _) => s.sb sp f = 0 ∨ w.wmax < s.sb sp f
            | none => false
          Causes.addIf bad cWinRange ex (s.winCauses sp f true ex)
        stall := fun ex => s.owes ex (·.acq) })
    fun sp s _ _ =>
      match s.winAt sp f with
      | some (w, _) => .next ((s.setWin sp f (w.setLen (s.sb sp f))).finish)
      | none => .next s.finish

/-- Causes of an image of `n` bytes at `b`, and the address of the lowest failing page (R432). -/
def State.imageFault (s : State) (b n : Nat) (want : Want) : Option (Nat × Nat) :=
  (pagesOf b n).findSome? fun p =>
    match s.translateFor s.focus.core s.me (max b (p * 65536)) want with
    | .error e => some (e, max b (p * 65536))
    | .ok _ => none

/-- The accesses of an image's pieces by the lowest executing lane, with what a store writes. -/
def imagePieces (b n v : Nat) : List (Nat × Nat × Nat) :=
  let ps := cut8 (n / 8 + 2) b n
  ps.map fun p => (p.1, p.2, v / 2 ^ (8 * (p.1 - b)) % 2 ^ (8 * p.2))

def imageAccess (k : AccKind) (noWatch : Bool) (p : Nat × Nat × Nat) : Access :=
  { va := p.1, bytes := p.2.1, kind := k, noWatch, upTo := some 0 }

/-- The lowest lane of a mask. -/
def lowLane (ex : Mask) : Nat := (lanesOf ex).head?.getD 0

/-- What the checks of an image's accesses give. -/
def State.imageCauses (s : State) (b n : Nat) (k : AccKind) (ex : Mask) : Causes :=
  if b % 16 ≠ 0 then Causes.add cMisalign ex []
  else
    match s.imageFault b n (if k.writes then .write else .read) with
    | some (e, _) => Causes.add e ex []
    | none =>
      let j := lowLane ex
      let (_, race) := s.raceTrapped s.focus.core s.focus.slot ((imagePieces b n 0).map fun p => (j, imageAccess k s.noWatch p))
      Causes.addIf (race != 0) cRace ex []

/-- The image's accesses wait: for earlier ones of the lane, for their pages' walks or their homes. -/
def State.imageWaits (s : State) (b n : Nat) (k : AccKind) (ex : Mask) : Bool :=
  b % 16 == 0 && (s.walkWaits (pageVas b n) || (imagePieces b n 0).any fun p =>
    s.mustWait s.focus.core s.focus.slot (lowLane ex) (imageAccess k s.noWatch p) ||
      !s.accOpen (s.aim false (if k.writes then .write else .read) p.1 p.2.1 1) (imageAccess k s.noWatch p))

/-- Address that a failing image reports. -/
def State.imageVa (s : State) (b n : Nat) (want : Want) : DWord :=
  BitVec.ofNat 64 (((s.imageFault b n want).map (·.2)).getD b)

/-- R432. -/
def execWsave (f : Fields) (s : State) : Out :=
  let size (sp : OpSpec) : Nat := match s.winAt sp f with
    | some (w, gw) => w.imageBytes gw
    | none => 0
  s.run (.wsave f) f
    (fun sp =>
      { checks := fun ex =>
          let c := s.winCauses sp f true ex
          if c.isEmpty then s.imageCauses (s.sb sp f) (size sp) .store ex
          else Causes.addIf (s.sb sp f % 16 != 0) cMisalign ex c
        va := fun _ => s.imageVa (s.sb sp f) (size sp) .write
        walks := fun _ => pageVas (s.sb sp f) (size sp)
        stall := fun ex => s.winAway sp f || s.owes ex (·.acq) || s.imageWaits (s.sb sp f) (size sp) .store ex
        hold := fun _ => s.walkHold (pageVas (s.sb sp f) (size sp)) })
    fun sp s ex _ =>
      match s.winAt sp f with
      | none => .next s.finish
      | some (w, gw) =>
        let j := lowLane ex
        let ps := imagePieces (s.sb sp f) (w.imageBytes gw) (w.image gw)
        let t := s.beginWalks (pageVas (s.sb sp f) (w.imageBytes gw))
        let t := (t.raceTrapped s.focus.core s.focus.slot (ps.map fun p => (j, imageAccess .store s.noWatch p))).1
        let (u, r) := t.fmtLane f .write j (imageAccess .store s.noWatch (0, 1, 0)) ps
        match r with
        | .ok _ => .next u.finish
        | .error e => .next (t.finish.trapLate s (.wsave f) sp f [(e, ex)] { va := fun _ => BitVec.ofNat 64 (s.sb sp f) })

/-- The image at an address as a plain read finds it. -/
def State.imagePeek (s : State) (b n : Nat) : Nat :=
  (cut8 (n / 8 + 2) b n).foldl (fun acc p =>
    match s.translateFor s.focus.core s.me p.1 .read with
    | .ok t => acc + s.memPeek s.focus.core t p.2 * 2 ^ (8 * (p.1 - b))
    | .error _ => acc) 0

/-- Size of the image that starts at `b`, by its descriptor; the two words alone where that is none. -/
def State.imageSize (s : State) (gw b : Nat) : Nat :=
  let w : Win := { wdesc := BitVec.ofNat 64 (s.imagePeek b 8) }
  if w.en && winOk gw w.opc w.glog w.wmax then w.imageBytes gw else 16

/-- R432, R258. -/
def execWload (f : Fields) (s : State) : Out :=
  let gw (sp : OpSpec) : Nat := ((s.winAt sp f).map (·.2)).getD s.me.gw
  let size (sp : OpSpec) : Nat := s.imageSize (gw sp) (s.sb sp f)
  s.run (.wload f) f
    (fun sp =>
      { checks := fun ex =>
          let b := s.sb sp f
          let c := s.winCauses sp f false ex
          if !c.isEmpty then Causes.addIf (b % 16 != 0) cMisalign ex c
          else
            let d := s.imageCauses b (size sp) .load ex
            if !d.isEmpty then d
            else Causes.addIf (readWindow (gw sp) (s.imagePeek b (size sp))).isNone cWinRange ex []
        va := fun _ => if (s.imageFault (s.sb sp f) (size sp) .read).isSome || s.sb sp f % 16 != 0 then s.imageVa (s.sb sp f) (size sp) .read else 0
        walks := fun _ => pageVas (s.sb sp f) (size sp)
        stall := fun ex => s.winAway sp f || s.owes ex (·.acq) || s.imageWaits (s.sb sp f) (size sp) .load ex
        hold := fun _ => s.walkHold (pageVas (s.sb sp f) (size sp)) })
    fun sp s ex _ =>
      let b := s.sb sp f
      let n := s.imageSize (gw sp) b
      let j := lowLane ex
      let ps := imagePieces b n 0
      let t := s.beginWalks (pageVas b n)
      let t := (t.raceTrapped s.focus.core s.focus.slot (ps.map fun p => (j, imageAccess .load s.noWatch p))).1
      let (u, r) := t.fmtLane f .read j (imageAccess .load s.noWatch (0, 1, 0)) ps
      match r with
      | .error e => .next (t.finish.trapLate s (.wload f) sp f [(e, ex)] { va := fun _ => BitVec.ofNat 64 b })
      | .ok l =>
        match readWindow (gw sp) (joinPieces (ps.map fun p => (p.1, p.2.1)) l) with
        | some w => .next ((u.setWin sp f w).finish)
        | none => .next u.finish

end Sys2Proof.Machine
end

