-- ==== Sys2Proof/Machine/System.lean ====
section
/-! DEFINITION. Group 0xc: system registers, boost claims, timestamps, hints, halt and trace; and the events that complete writes of
system registers (R46, R47, R63 to R71, R299, R306, R452 to R461, R467). -/

namespace Sys2Proof.Machine

/-! ## System registers (R453) -/

/-- The system registers by name. -/
inductive SysReg where
  | pwstat
  | enacc
  | tlcnt (n : Nat)
  | tliss (n : Nat)
  | chring (n : Nat)
  | prog (n : Nat)
  | ectl (n : Nat)
  | wdesc (n : Nat)
  | wlen (n : Nat)
  | bfltBase (n : Nat)
  | bfltLim (n : Nat)
  | bland (n : Nat)
  | waddr (n : Nat)
  | wval (n : Nat)
  | wmask (n : Nat)
  | wctl (n : Nat)
  | gdbg (slot : Nat)
  | mondone
  | rcp (n k : Nat)
  | s (n : Nat)
  | m (n : Nat)
  | v (r : Nat)
  deriving DecidableEq, Repr

/-- The register of a number; none where it is unassigned. -/
def sysReg (x : Nat) : Option SysReg :=
  if x = 0 then some .pwstat
  else if x = 1 then some .enacc
  else if x < 0x008 then none
  else if x < 0x010 then some (.tlcnt (x - 0x008))
  else if x < 0x018 then some (.tliss (x - 0x010))
  else if x < 0x020 then some (.chring (x - 0x018))
  else if x < 0x028 then some (.prog (x - 0x020))
  else if x < 0x030 then some (.ectl (x - 0x028))
  else if x < 0x040 then some (.wdesc (x - 0x030))
  else if x < 0x050 then some (.wlen (x - 0x040))
  else if x < 0x058 then some (.bfltBase (x - 0x050))
  else if x < 0x060 then some (.bfltLim (x - 0x058))
  else if x < 0x068 then some (.bland (x - 0x060))
  else if x < 0x06c then some (.waddr (x - 0x068))
  else if x < 0x070 then some (.wval (x - 0x06c))
  else if x < 0x074 then some (.wmask (x - 0x070))
  else if x < 0x078 then some (.wctl (x - 0x074))
  else if x < 0x080 then none
  else if x < 0x08f then some (.gdbg (x - 0x080))
  else if x = 0x0c0 then some .mondone
  else if x < 0x100 then none
  else if x < 0x300 then (if (x - 0x100) % 16 < 10 then some (.rcp ((x - 0x100) / 16) ((x - 0x100) % 16)) else none)
  else if x < 0x400 then none
  else if x < 0x440 then some (.s (x - 0x400))
  else if x < 0x450 then some (.m (x - 0x440))
  else if x < 0x800 then none
  else if x < 0x1000 then some (.v (x - 0x800))
  else none

/-- A register of a gang. -/
def SysReg.perGang : SysReg → Bool
  | .enacc | .tlcnt _ | .tliss _ | .chring _ | .prog _ | .ectl _ | .wdesc _ | .wlen _ | .rcp _ _ | .s _ | .m _ | .v _ => true
  | _ => false

/-- Registers reached in any resident gang (R454). -/
def SysReg.anyTarget : SysReg → Bool
  | .enacc | .tlcnt _ | .tliss _ | .chring _ | .prog _ | .ectl _ => true
  | _ => false

/-- Registers of the handler gang alone. -/
def SysReg.handlerOnly : SysReg → Bool
  | .waddr _ | .wval _ | .wmask _ | .wctl _ | .gdbg _ | .mondone => true
  | _ => false

/-- STOPPED of R299: stopped, and every instruction that the gang issued has ended. -/
def State.stopped (s : State) (c g : Nat) : Bool :=
  let x := s.gang c g
  x.gdbStop && !x.gdbStep && x.waits.isEmpty && !(s.pends.any fun p => p.core == c && p.slot == g && p.kind.returns)

/-- The gang that operand c names. -/
def State.sysTarget (s : State) (c : Nat) : Nat := if c.testBit 4 then bits c 0 4 else s.focus.slot

def sysLane (c : Nat) : Nat := bits c 5 6

/-- Does the access raise PERM_FAULT (R454)? -/
def State.sysDenied (s : State) (x c : Nat) : Bool :=
  match sysReg x with
  | none => true
  | some r =>
    let t := s.sysTarget c
    let g := s.gang s.focus.core t
    2 ^ 11 ≤ c || (r.handlerOnly && !s.me.isHandler) || (if r.perGang then g.gw else s.me.gw) ≤ sysLane c ||
      (r.perGang &&
        ((c.testBit 4 && !s.me.isHandler) || t == handlerSlot || !g.seat.used ||
          (c.testBit 4 && !r.anyTarget && !g.trapped && !s.stopped s.focus.core t) ||
          (match r with
           | .v n => g.nregs ≤ n
           | _ => false)))

/-! ## Power status (R71) -/

def State.pwstat (s : State) (k : Nat) : DWord :=
  let x := s.cluster k
  let r := s.region (regionOf k)
  let b (c : Bool) (n : Nat) : Nat := if c then 2 ^ n else 0
  let holds := r.holder == some k
  BitVec.ofNat 64 (x.pool % 4 + b x.nextFreq.isSome 16 + b holds 17 + b (x.claimAge.isSome && !holds) 18 + b x.bexh 19 + b x.thr 20 +
    r.stage % 8 * 2 ^ 21 + s.gov % 16 * 2 ^ 24 + x.speed % 32 * 2 ^ 28 + r.permits % 128 * 2 ^ 33)

/-! ## Energy accounts (R70) -/

/-- Adds the energy used since the account was last read, which the spec does not give (log entry 3). -/
def State.settleEnacc (s : State) (c g : Nat) : State :=
  let e := Config.freeValue s.freeCtr
  { s with freeCtr := s.freeCtr + 1 }.modGang c g fun x => { x with enacc := x.enacc + e }

/-! ## Reading (R453) -/

def rcpWord (x : Recipe) (k : Nat) : Nat :=
  let low := x.treg.toNat + x.nm1.toNat * 2 ^ 12 + (if x.drop then 2 ^ 14 else 0) + (if x.act then 2 ^ 15 else 0)
  bits (low + x.body.toNat * 2 ^ 64 + x.bcopy.toNat * 2 ^ 128) (64 * k) 64

/-- GDBGs as it reads. -/
def State.gdbgOf (s : State) (c g : Nat) : Nat := (if (s.gang c g).gdbStop then 1 else 0) + if s.stopped c g then 4 else 0

/-- The value of a register of core `c`, for gang slot `t` and a lane. -/
def State.sysValue (s : State) (c t lane : Nat) (r : SysReg) : Nat :=
  let g := s.gang c t
  let k := clusterOf c
  match r with
  | .pwstat => (s.pwstat k).toNat
  | .enacc => g.enacc.toNat
  | .tlcnt n => (g.ctx n).tlcnt.toNat
  | .tliss n => (g.ctx n).tliss.toNat
  | .chring n => (g.ctx n).chring.toNat
  | .prog n => (g.ctx n).done % 2 ^ 48 + (g.ctx n).cause.toNat * 2 ^ 56
  | .ectl _ => 0
  | .wdesc n => (g.win n).wdesc.toNat
  | .wlen n => (g.win n).wlen.toNat
  | .bfltBase n => ((s.cluster k).fbase.get 0 n).toNat
  | .bfltLim n => ((s.cluster k).flim.get 0 n).toNat
  | .bland n => ((s.cluster k).fland.get 0 n).toNat
  | .waddr n => ((s.core c).waddr.get 0 n).toNat
  | .wval n => ((s.core c).wval.get 0 n).toNat
  | .wmask n => ((s.core c).wmask.get 0 n).toNat
  | .wctl n => ((s.core c).wctl.get 0 n).toNat
  | .gdbg n => s.gdbgOf c n
  | .mondone => 0
  | .rcp n k => rcpWord (g.recipe n) k
  | .s n => (g.sreg n).toNat
  | .m n => (g.mreg n).toNat
  | .v n => s.vval c g n lane

/-- Accesses in flight of gang slot `t` that a register's value still waits for. -/
def State.sysBusy (s : State) (c t : Nat) (r : SysReg) : Bool :=
  match r with
  | .v n =>
    s.pends.any fun p => p.core == c && p.slot == t && p.kind.returns &&
      (match p.dst with
       | some d => d == n || ((p.ty == 0xa || p.ty == 0xb) && d + 1 == n)
       | none => false)
  | _ => false

/-- The v register that an access to gang slot `t` names. -/
def SysReg.vec : SysReg → List Nat
  | .v n => [n]
  | _ => []

/-- The fault of a replay that a read of the register runs (R268). -/
def State.sysReplay (s : State) (c t : Nat) (r : SysReg) : Option ReplayErr := s.replayFault c (s.gang c t) r.vec

/-- The register that an instruction's operands name, PERM_FAULT aside. -/
def State.sysAt (s : State) (sp : OpSpec) (f : Fields) : Option SysReg :=
  if s.sysDenied (s.sa sp f) (s.sc sp f) then none else sysReg (s.sa sp f)

/-- R453, R454. -/
def execSysr (f : Fields) (s : State) : Out :=
  let c := s.focus.core
  s.run (.sysr f) f
    (fun sp =>
      let t := s.sysTarget (s.sc sp f)
      let r := s.sysAt sp f
      let bad := r.bind (s.sysReplay c t)
      { checks := fun ex => Causes.addIf r.isNone cPermFault ex (Causes.addIf bad.isSome cRecipeFault ex [])
        va := fun _ => (bad.map (·.va)).getD 0
        inner := (bad.map (·.inner)).getD 0
        rcp := (bad.map (·.rcp)).getD 0
        need := bad.filter (·.waits)
        stall := fun _ => (r.map (s.sysBusy c t)).getD false })
    fun sp s _ _ =>
      let t := s.sysTarget (s.sc sp f)
      match s.sysAt sp f with
      | none => .next s.finish
      | some r =>
        let s := if r = .enacc then s.settleEnacc c t else s
        .next ((s.wrS f (BitVec.ofNat 64 (s.sysValue c t (sysLane (s.sc sp f)) r))).finish)

/-! ## Writing (R453, R454, R467) -/

/-- The writable bits of a filter or landing register (R46, R183). -/
def filterBits (r : SysReg) (v : DWord) : DWord :=
  match r with
  | .bfltBase _ => v &&& 0x800000ffffffff80
  | .bfltLim _ => v &&& 0x000000ffffffff80
  | _ => v &&& 0x000001ffffffff80

/-- A filter or landing register of a cluster switches on every bus (R47). -/
def State.setFilter (s : State) (k : Nat) (r : SysReg) (v : DWord) : State :=
  s.modCluster k fun x =>
    match r with
    | .bfltBase n => { x with fbase := x.fbase.put n (filterBits r v) }
    | .bfltLim n => { x with flim := x.flim.put n (filterBits r v) }
    | .bland n => { x with fland := x.fland.put n (filterBits r v) }
    | _ => x

/-- A write of GDBGs (R299). -/
def State.setGdbg (s : State) (c g : Nat) (v : Nat) : State :=
  s.modGang c g fun x => { x with gdbStop := v.testBit 0, gdbStep := v.testBit 0 && (x.gdbStep || v.testBit 1) }

/-- The MONITOR entry of a MONDONE write (R306). -/
def State.monDone (s : State) (c : Nat) (v : DWord) : State :=
  s.cqPost
    { payload := BitVec.ofNat 64 (bits v.toNat 0 16), tag := 0, src := BitVec.ofNat 16 c, cause := v.extractLsb' 16 8, kind := kindMonitor }

/-- A write that takes effect at once. -/
def State.sysPut (s : State) (c t lane : Nat) (r : SysReg) (v : DWord) : State :=
  match r with
  | .chring n => s.setRing c t n v
  | .ectl n => if v.extractLsb' 0 2 = 1 then s.resumeCtx c t n else if v.extractLsb' 0 2 = 2 then s.abandonCtx c t n else s
  | .wlen n => s.modGang c t fun g => { g with wins := g.wins.put n ((g.win n).setLen v.toNat) }
  | .waddr n => s.modCore c fun k => { k with waddr := k.waddr.put n (v &&& 0x01fffffffffffff8) }
  | .wval n => s.modCore c fun k => { k with wval := k.wval.put n v }
  | .wmask n => s.modCore c fun k => { k with wmask := k.wmask.put n v }
  | .wctl n => if v.extractLsb' 3 2 = 3 then s else s.modCore c fun k => { k with wctl := k.wctl.put n (v &&& 0xffff001f) }
  | .gdbg n => s.setGdbg c n v.toNat
  | .mondone => s.monDone c v
  | .s n => s.modGang c t fun g => g.setS n v
  | .m n => if n = 0 then s else s.modGang c t fun g => g.setM n v
  | .v n => s.modGang c t fun g => g.setV [(n, lane, v.toNat % 2 ^ 32)]
  | _ => s

/-- Is the register a filter's or a landing register? -/
def SysReg.filter : SysReg → Bool
  | .bfltBase _ | .bfltLim _ | .bland _ => true
  | _ => false

/-- Must the write wait before it takes effect? -/
def State.sysPends (s : State) (c t : Nat) (r : SysReg) : Bool :=
  match r with
  | .chring n => !(s.gang c t).drained n
  | r => r.filter

/-- Vector and scalar registers of a gang that a write changes (R266). -/
def SysReg.sca : SysReg → List Nat
  | .s n => if n = 0 then [] else [n]
  | _ => []

/-- Causes of a write beyond PERM_FAULT: WIN_RANGE of WLENn (R253), and PERM_FAULT of MONDONE (R306). -/
def State.sysWriteCauses (s : State) (c t : Nat) (r : SysReg) (v : Nat) (ex : Mask) : Causes :=
  match r with
  | .wlen n =>
    let g := s.gang c t
    Causes.addIf (g.seat.nwin ≤ n || !(g.win n).en || v == 0 || (g.win n).wmax < v) cWinRange ex []
  | .mondone => Causes.addIf (2 ^ 24 ≤ v) cPermFault ex []
  | _ => []

/-- R453, R454: a write that must wait keeps the gang from issuing until its event. -/
def execSysw (f : Fields) (s : State) : Out :=
  let c := s.focus.core
  let own := s.focus.slot
  s.run (.sysw f) f
    (fun sp =>
      let t := s.sysTarget (s.sc sp f)
      let r := s.sysAt sp f
      let vs := (r.map (·.vec)).getD []
      let ss := (r.map (·.sca)).getD []
      let other := t != own
      let bad := if other then s.replayFault c (s.gang c t) (((s.gang c t).touched vs ss).map fun n => ((s.gang c t).recipe n).treg.toNat) else none
      { vs := if other then [] else vs
        ss := if other then [] else ss
        checks := fun ex =>
          match r with
          | none => Causes.add cPermFault ex []
          | some x => if bad.isSome then Causes.add cRecipeFault ex [] else s.sysWriteCauses c t x (s.sb sp f) ex
        need := bad.filter (·.waits)
        va := fun _ => (bad.map (·.va)).getD 0
        inner := (bad.map (·.inner)).getD 0
        rcp := (bad.map (·.rcp)).getD 0
        stall := fun ex =>
          (r == some .mondone && s.releaseWaits (BitVec.allOnes 64) 5) ||
            ((match r with
              | some (.wlen _) => s.owes ex (·.acq)
              | _ => false)) ||
            (other && ((r.map (s.sysBusy c t)).getD false || (s.gang c t).matrixHolds vs)) })
    fun sp s ex _ =>
      let t := s.sysTarget (s.sc sp f)
      let v : DWord := BitVec.ofNat 64 (s.sb sp f)
      match s.sysAt sp f with
      | none => .next s.finish
      | some r =>
        let ns := if t = own then [] else (s.gang c t).touched r.vec r.sca
        if s.sysPends c t r then
          .next (s.waitIn
            { lanes := s.focus.lanes, pc := s.focus.pc, since := s.cycles s.myCluster, ins := some f, ex, len := s.focus.len
              sysw := some (t, s.sa sp f, v) })
        else if !s.rowsReady c t ns 0 then .next (s.waitRow c t ns 0)
        else
          let u := if t = own then s else (if (s.gang c t).ownsRow 0 then s.rowDone c t else s).touch c t r.vec r.sca
          .next (u.sysPut c t (sysLane (s.sc sp f)) r v).finish

/-- R47: every bus has switched, and the write completes. -/
def execFilterWrite (core slot : Nat) (s : State) : Out :=
  match (s.gang core slot).waits.reverse.find? fun w => ((w.sysw.bind fun r => sysReg r.2.1).map (·.filter)).getD false with
  | none => .next s
  | some w =>
    match w.sysw with
    | none => .next s
    | some (_, x, v) =>
      match sysReg x with
      | none => .next s
      | some r =>
        let old := s.focus
        let t := ((s.setFilter (clusterOf core) r v).endWait core slot w).finish
        .next { t with focus := old }

/-- Is a write of the handler gang still to be performed? -/
def State.handlerWrites (s : State) (core : Nat) : Bool :=
  s.pends.any fun p => p.core == core && p.slot == handlerSlot && p.kind.writes && !p.performed && p.failed.isNone

/-- R306: a MONDONE write of the handler, performed after its earlier writes. -/
def execMondoneWrite (core : Nat) (v : DWord) (s : State) : Out :=
  .next (if (s.gang core handlerSlot).live && !s.handlerWrites core && v.toNat < 2 ^ 24 then s.monDone core v else s)

/-- R299: STOP of a gang, as the handler writes it. -/
def execGangStop (core slot : Nat) (stop : Bool) (s : State) : Out :=
  .next (if core < nCores ∧ slot < 15 ∧ (s.gang core handlerSlot).live then s.setGdbg core slot (if stop then 1 else 0) else s)

/-- R299: STEP of a stopped gang. -/
def execGangStep (core slot : Nat) (s : State) : Out :=
  .next (if core < nCores ∧ slot < 15 ∧ (s.gang core handlerSlot).live ∧ (s.gang core slot).gdbStop then s.setGdbg core slot 3 else s)

/-! ## Boost (R64, R455) -/

/-- A claim of a gang: registered only in the c3 pool, which a cluster that moves out of it leaves at once. -/
def State.claimBoost (s : State) (c g f : Nat) : State :=
  let k := clusterOf c
  if (s.cluster k).pool ≠ 3 ∨ !(s.cluster k).inPool ∨ (s.cluster k).moving.isSome then s
  else
    let s := s.modGang c g fun x => { x with claim := some f }
    let s := s.modCluster k fun x => { x with claimAge := some (x.claimAge.getD x.frames), bexh := false }
    if (s.region (regionOf k)).holder = some k then
      s.modCluster k fun x => { x with nextFreq := if s.claimedFreq k = x.freq then none else some (s.claimedFreq k) }
    else s

/-- R455. -/
def execBclaim (f : Fields) (s : State) : Out :=
  s.run (.bclaim f) f (fun _ => {}) fun sp s _ _ =>
    let t := s.claimBoost s.focus.core s.focus.slot (max 15 (min 19 (s.sa sp f)))
    .next ((t.wrS f (t.pwstat t.myCluster)).finish)

/-- R455. -/
def execBrel (f : Fields) (s : State) : Out :=
  s.run (.brel f) f (fun _ => {}) fun _ s _ _ => .next (s.endClaim s.focus.core s.focus.slot).finish

/-! ## Timestamps, hints, halt and trace (R457 to R461) -/

/-- R457. -/
def execTsr (f : Fields) (s : State) : Out :=
  s.run (.tsr f) f (fun _ => {}) fun _ s _ _ =>
    let v : DWord := match f.a.immNat with
      | 0 => BitVec.ofNat 64 (s.ltsOf s.focus.core)
      | 1 => BitVec.ofNat 64 (s.cycles s.myCluster)
      | _ => s.me.stampRx
    .next ((s.wrS f v).finish)

/-- R458, R283: a pending request stops the gang here, with this hint. -/
def execPhint (f : Fields) (s : State) : Out :=
  let at_ := s.target f f.a
  s.run (.phint f) f (fun _ => { checks := fun ex => Causes.addIf (at_.toNat % 64 != 0) cMisalign ex [], va := fun _ => at_ })
    fun _ s _ _ =>
      let t := s.finish
      .next (if s.me.saveReq.isSome then t.stopAtHint s.focus.core s.focus.slot (some at_) else t)

/-- R460. -/
def execHalt (f : Fields) (s : State) : Out :=
  s.run (.halt f) f (fun _ => {}) fun _ s _ _ => .next (s.sendHalt s.myCluster true 1 s.focus.core).finish

/-- The record of a `trc` (R307, R309, R461). -/
def State.trcRecord (s : State) (sp : OpSpec) (f : Fields) (ex : Mask) : BitVec 256 :=
  (s.nameOf s.focus.core s.me (lowLane ex)).bits ++ BitVec.ofNat 48 (s.timeAt s.myCluster) ++ BitVec.ofNat 8 3 ++
    ((0 : BitVec 1) ++ s.focus.pc.extractLsb' 2 55 ++ BitVec.ofNat 64 (s.sa sp f))

/-- R461: the handler belongs to no run. -/
def execTrc (f : Fields) (s : State) : Out :=
  s.run (.trc f) f (fun _ => {}) fun sp s ex _ =>
    let l := s.launch s.me.seat.ltag.toNat
    .next (if l.trCtl.getLsbD 2 && !s.me.isHandler then s.traceRecord s.focus.core l.walker (s.trcRecord sp f ex) else s).finish

end Sys2Proof.Machine
end

