-- ==== Sys2Proof/Machine/Power.lean ====
section
/-! DEFINITION. Power regions, boost, the governor, current ramps, pools and the thermal ladder (R54 to R74, R103). -/

namespace Sys2Proof.Machine

/-! ## Changing state (R54, R55, R57, R60) -/

def sat16 (n : Nat) : Nat := min 0xffff n

/-- A region's state changes, at the present time; its black box keeps the event (R298). From ON on, its clusters are counted (R200). -/
def State.setRegState (s : State) (r : Nat) (x : RegState) : State :=
  (s.modRegion r fun y => { y with st := x, since := s.now, counted := y.counted || x == .on }).bboxEvent (r / 16 * 8 + r % 8) 1 r x.code

/-- A command with no transition. -/
def State.refuseRegion (s : State) (r : Nat) : State := s.modRegion r fun x => { x with refused := true }

/-- A post of a core that is lost answers nobody. -/
def Packet.unheard (lost : Nat → Bool) (p : Packet) : Packet :=
  match p.body with
  | .post r prio _ => if lost p.src then { p with body := .post r prio 16 } else p
  | _ => p

/-- Does a beacon still stand in the transmitter of a region's cluster? It is then kept for the next beacon cluster (R49). -/
def State.unsent (s : State) (r : Nat) (b : Beacon) : Bool := regionOf b.writer == r && s.now ≤ b.frame

/-- The superblock's only current copy is lost; the home answers a request that found it elsewhere (log entry 24). -/
def State.loseOwned (s : State) (sb : Nat) : State :=
  let s := s.loseSuperblock sb
  { s with sbReqs := s.sbReqs.map fun (q : SbReq) =>
      let seen : Bool := match s.msg? q.msg with
        | some m => s.msgApplied (homeCluster sb) m
        | none => true
      if q.sb = sb ∧ q.sup.isNone ∧ seen then { q with sup := some (homeCoreOf sb) } else q }

/-- A packet that stands in a router of a region that is lost (R40, R57): its source sends it once more when it gets no response, if it lives; an
answer whose sender is lost as well ends as one that its fallback fails. -/
def Packet.strand (r : Nat) (p : Packet) : Packet :=
  if regionOfPhys p.at_ ≠ r then p
  else if p.nack then { p with ret := false, nack := false, taken := false, lost := true }
  else if !p.ret then { p with taken := false, held := false, lost := true }
  else { p with taken := false, lost := true, fallback := p.fallback || regionOfPhys p.dstPhys == r }

/-- A request of a lost cluster ends: a write's snoop takes the copies it was to take, and its superblock is lost; its messages have no further
effect (log entry 24). -/
def State.endRequest (s : State) (q : SbReq) : State :=
  let s := s.failRequest q.msg
  if q.kind = .rs then s
  else
    let s := (List.range 192).foldl (fun (s : State) k => if s.moesiOf k q.sb = .i then s else s.setMoesi k q.sb .i) s
    s.loseOwned q.sb

/-- A write snoop of a lost cluster that is still on its way: the home that applies it has no owner to note. -/
def Msg.unowned (r : Nat) (m : Msg) : Msg :=
  if regionOf m.writer ≠ r then m
  else
    match m.body with
    | .snoop .rx sb p | .snoop .up sb p => { m with body := .snoop .ev sb p, retained := false }
    | _ => { m with retained := false }

/-- A region loses its supply: everything that lives in it is lost (R54, R57). -/
def State.regionLost (s : State) (r : Nat) : State :=
  let cores := regionCores r
  let hit (c : Nat) : Bool := regionOf (clusterOf c) == r && c < nCores
  let of (f : Moesi → Bool) : List Nat := (regionClusters r).flatMap fun k => ((s.cluster k).moesi.filter fun p => f p.2).map (·.1)
  let owned := of fun x => x == .m || x == .o
  let alone := of fun x => x == .e
  let held := cores.filter fun c => (s.core c).held
  let mine := s.sbReqs.filter fun q => regionOf q.cluster == r
  let leaving := s.packets.filterMap fun (p : Packet) => match p.body with
    | .evict sb => if regionOfPhys p.srcPhys = r then some sb else none
    | _ => none
  let s := { s with
    blocks := s.blocks.map fun (p : Nat × Block) =>
      if (s.blockCores p.1).any hit then (p.1, { p.2 with lost := true }) else p
    cores := (s.cores.filter fun p => !hit p.1)
    clusters := s.clusters.map fun (p : Nat × Cluster) =>
      if regionOf p.1 = r then (p.1, { frames := p.2.frames, cyc := p.2.cyc, reports := p.2.reports }) else p
    decks := s.decks.drop fun p => regionOfPhys p == r
    pends := s.pends.filter fun p => !hit p.core
    packets := ((s.packets.filter fun (p : Packet) => regionOfPhys p.srcPhys != r).map (Packet.unheard hit)).map (Packet.strand r)
    beacons := s.beacons.filter fun b => !s.unsent r b
    beaconsKept := s.beacons.filter (s.unsent r) ++ s.beaconsKept
    msgs := (s.msgs.filter fun (m : Msg) => regionOf m.writer != r || m.done ≤ s.now).map (Msg.unowned r)
    homeBits := s.homeBits.drop fun sb => match s.hostKey (256 * sb) with
      | some k => regionOfPhys (k / 2 ^ 27) == r
      | none => false }
  let s := mine.foldl (fun s q => s.endRequest q) s
  let s := leaving.foldl (fun s sb => s.failEvict sb) s
  let s := owned.foldl (fun s sb => s.loseOwned sb) s
  let s := { s with homeBits := alone.foldl (fun m sb => m.put sb 0) s.homeBits }
  let s := (s.sbReqs.filter fun q => !q.sent && (q.sup.map hit).getD false).foldl (fun s q => s.failRequest q.msg) s
  let s := { s with dram := s.dram.filter fun p => regionOfPhys (p.1 / 2 ^ 27) != r }
  let s := held.foldl (fun s c => s.modCore c fun k => { k with held := true }) s
  s.modRegion r fun x => { x with holder := none, idleFrom := some s.now }

/-- The filler of every context that a region loses (R70). -/
def State.orphanAll (s : State) (r : Nat) : State :=
  (regionCores r).foldl (fun s c => ((List.range 15).filter fun g => (s.gang c g).seat.used).foldl (fun s _ => s.orphan c) s) s

/-- A region trips with a cause. -/
def State.trip (s : State) (r : Nat) (cause : BitVec 4) : State :=
  let was := (s.region r).st
  let s := if was = .on ∨ was = .restart then (s.orphanAll r).regionLost r else s
  let s := (s.setRegState r .trip).modRegion r fun x =>
    { x with cause, amps := 0, trips := sat16 (x.trips + 1), rampfail := if cause = 4 ∨ cause = 6 then sat16 (x.rampfail + 1) else x.rampfail }
  (s.bboxEvent (r / 16 * 8 + r % 8) 2 r cause.toNat).openMessage kindRegion r

/-! ## Commands (R55, R59) -/

/-- R55. An accepted command leaves REFUSED as it is: it is cleared by a write of 1 alone, the model's reading (DEDUCED, log entry 9). -/
def execRegionEnable (r : Nat) (s : State) : Out :=
  if 96 ≤ r then .next s
  else if (s.region r).st = .off then .next (s.setRegState r .ramp)
  else .next (s.refuseRegion r)

/-- Is a region drained: all its cores retired, and no packet to one of them on its way? -/
def State.regionDrained (s : State) (r : Nat) : Bool :=
  (regionCores r).all (fun c => entryRet (s.tableAt (clusterOf c) c)) &&
    s.packets.all fun p => !(regionCores r).contains (if p.ret then p.src else p.dst)

/-- R55. -/
def execRegionDisable (r : Nat) (s : State) : Out :=
  if 96 ≤ r then .next s
  else if (s.region r).st = .hold then .next (s.setRegState r .off)
  else if (s.region r).st = .on ∧ s.regionDrained r then .next ((s.regionLost r).setRegState r .off)
  else .next (s.refuseRegion r)

/-- R55. -/
def execRegionRestart (r : Nat) (s : State) : Out :=
  if 96 ≤ r then .next s
  else if (s.region r).st = .hold then
    .next ((s.setRegState r .restart).modRegion r fun x => { x with settled := false, tablesIn := false })
  else .next (s.refuseRegion r)

/-- The stages that a temperature leaves in force below stage 3 (R72). -/
def stageBelow (temp : Nat) : Nat := if 95 ≤ temp then 2 else if 90 ≤ temp then 1 else 0

/-- Both clusters of a region leave stage 2: each returns to its pool's class, that of a move under way (R72, R74). -/
def State.endThrottle (s : State) (r : Nat) : State :=
  (regionClusters r).foldl (fun s k => s.modCluster k fun x =>
    { x with thr := false, nextFreq := some (Config.classFreq (x.moving.getD x.pool)) }) s

/-- R55, R73. -/
def execRegionReleaseHalt (r : Nat) (s : State) : Out :=
  if 96 ≤ r then .next s
  else
    let x := s.region r
    if x.st = .on ∧ x.stage = 3 ∧ x.temp < 100 then
      let t := (s.modRegion r fun y => { y with stage := stageBelow y.temp }).bboxEvent (r / 16 * 8 + r % 8) 7 r (stageBelow x.temp)
      .next (if stageBelow x.temp < 2 then t.endThrottle r else t)
    else .next (s.refuseRegion r)

/-! ## Supply (R55, R56) -/

/-- A region's clusters enter a pool in the running device (R62, R88); with stage 3 in force they stay out of the pools, and from stage 2 on
at c0 (R72, R73). -/
def State.joinPools (s : State) (r : Nat) : State :=
  if s.phase ≠ 3 then s
  else
    let n := (s.region r).stage
    (regionClusters r).foldl (fun s k => s.modCluster k fun x =>
      { x with inPool := decide (n < 3), pool := 1, freq := if n < 2 then 14 else 10, thr := decide (2 ≤ n), idleSince := s.now
               moving := none }) s

/-- The links of a region's routers carry flits again once it is ON; a link that is dead is declared down anew (R32, R40, R57). -/
def State.linksBack (s : State) (r : Nat) : State :=
  { s with linksDown := s.linksDown.filter fun p =>
      regionOfPhys p.1 != r && ((neighbour p.1 p.2).map fun q => regionOfPhys q != r).getD true }

/-- In the running device a region's receivers start with the next frame (log entry 9). -/
def State.startReceivers (s : State) (r : Nat) : State :=
  if s.phase ≠ 3 then s
  else
    (regionClusters r).foldl (fun s k => s.modCluster k fun x =>
      { x with
        frames := s.now
        rxTo := s.now
        appliedTo := SMap.putAll [] ((List.range 16).map fun b => (b, s.now))
        reports := SMap.putAll [] ((List.range 16).map fun b => (b, s.now)) }) s

/-- R55. -/
def execRampComplete (r : Nat) (s : State) : Out :=
  let x := s.region r
  if r < 96 ∧ x.st = .ramp ∧ x.since + 10000 ≤ s.now ∧ s.now < x.since + 500000 then
    .next ((((s.setRegState r .on).startReceivers r).joinPools r).linksBack r)
  else .next s

/-- R55. -/
def execRampTimeout (r : Nat) (s : State) : Out :=
  if r < 96 ∧ (s.region r).st = .ramp ∧ (s.region r).since + 500000 ≤ s.now then .next (s.trip r 4) else .next s

/-- R55: OVERCURRENT, UNDERVOLTAGE, OVERVOLTAGE or REGULATOR. -/
def execSupplyFault (r : Nat) (cause : BitVec 4) (s : State) : Out :=
  let st := (s.region r).st
  if r < 96 ∧ (st = .on ∨ st = .restart) ∧ (cause = 1 ∨ cause = 2 ∨ cause = 3 ∨ cause = 7) then .next (s.trip r cause) else .next s

/-- R55. -/
def execTripDischarged (r : Nat) (s : State) : Out :=
  if r < 96 ∧ (s.region r).st = .trip then .next (s.setRegState r .hold) else .next s

/-- R56, step 1. -/
def execRestartRailsSettled (r : Nat) (s : State) : Out :=
  if r < 96 ∧ (s.region r).st = .restart ∧ !(s.region r).settled then
    .next (s.modRegion r fun x => { x with settled := true, settledAt := s.now })
  else .next s

/-- The buffered beacons that a restarted cluster applies after a copy made with the first `q` beacons applied: the table updates
and binds among the later ones. -/
def State.bufferedAfter (s : State) (r q : Nat) : List Beacon :=
  s.beacons.filter fun b =>
    q ≤ b.seq && (s.region r).settledAt ≤ b.frame && b.frame < s.now &&
      (match b.kind with
       | .table _ _ | .bind _ _ _ => true
       | _ => false)

/-- Hops between two regions' routers at the same place in them (log entry 49). -/
def regionHops (a b : Nat) : Nat := 18 * (a % 8 - b % 8 + (b % 8 - a % 8)) + 8 * (a / 8 - b / 8 + (b / 8 - a / 8))

/-- Is a region the nearest ON one, or one of several (R56)? -/
def State.nearestOn (s : State) (r source : Nat) : Bool :=
  decide (source < 96) && (s.region source).st == .on &&
    (List.range 96).all fun q => (s.region q).st != .on || decide (regionHops r source ≤ regionHops r q)

def Beacon.isTable (b : Beacon) : Bool :=
  match b.kind with
  | .table _ _ => true
  | _ => false

/-- R56, steps 2 and 3: the tables of the source's routers, its binding tables, and the buffered beacons behind them. -/
def execRestartTableLoad (r source : Nat) (s : State) : Out :=
  let x := s.region r
  if r < 96 ∧ x.st = .restart ∧ x.settled ∧ !x.tablesIn ∧ x.settledAt + 4000 ≤ s.now ∧ s.nearestOn r source then
    let from_ := s.cluster (2 * source)
    let bs := s.bufferedAfter r from_.beaconAt
    let ups := (bs.filter Beacon.isTable).length
    let last := bs.foldl (fun a b => max a (b.seq + 1)) from_.beaconAt
    let t := (regionClusters r).foldl (fun (s : State) k => s.modCluster k fun y =>
      { y with epoch := from_.epoch + ups, bindEpoch := from_.bindEpoch + (bs.length - ups), beaconAt := last, rxTo := from_.rxTo
               appliedTo := from_.appliedTo, reports := from_.reports, applied := from_.applied, frames := from_.frames }) s
    .next (t.modRegion r fun y => { y with tablesIn := true })
  else .next s

/-- R55, R56, R275: the region is ON; its cores stay in reset until their entries are written again. Of the stages only the fourth clears
here; the third waits for RELEASE_HALT (R72; log entry 9). -/
def execRestartComplete (r : Nat) (s : State) : Out :=
  let x := s.region r
  if r < 96 ∧ x.st = .restart ∧ x.settled ∧ x.tablesIn ∧ s.now ≤ x.since + 1000000 then
    let t := ((s.setRegState r .on).modRegion r fun y => { y with stage := min 3 y.stage }).joinPools r
    let t := (regionCores r).foldl (fun (s : State) c => (s.setGang c handlerSlot (freshHandler c)).modCore c fun k => { k with inReset := true }) t
    .next { t.linksBack r with
      hroot := t.hostRegs.get 0 0x34000
      hentry := t.hostRegs.get 0 0x34008
      hfbase := t.hostRegs.get 0 0x34010 }
  else .next s

/-- R55. -/
def execRestartTimeout (r : Nat) (s : State) : Out :=
  if r < 96 ∧ (s.region r).st = .restart ∧ (s.region r).since + 1000000 ≤ s.now then .next (s.trip r 6) else .next s

/-- R60. -/
def execOvercurrentWarning (r : Nat) (s : State) : Out :=
  if r < 96 ∧ (s.region r).st = .on then .next (s.modRegion r fun x => { x with ocwarn := sat16 (x.ocwarn + 1) }) else .next s

/-! ## The governor and current ramps (R68, R69) -/

/-- R68: the average over the window, in W; a measurement every 10 µs. -/
def execGovernorTick (watts : Nat) (s : State) : Out :=
  if s.now < s.govAt + 10000 then .next s
  else
  .next { s with
    govAt := s.now
    gov := if 30000 < watts then max 3 (s.gov - 1) else if watts < 29000 then min 15 (s.gov + 1) else s.gov
    boostOk := watts ≤ 30000 }

/-- R69: every 100 ns the current, in mA, moves toward the demand by at most 2,520 mA; TRIP alone takes it away at once. -/
def execCurrentRampStep (r demand : Nat) (s : State) : Out :=
  if r < 96 ∧ (s.region r).st ≠ .trip ∧ (s.region r).rampAt + 100 ≤ s.now then
    .next (s.modRegion r fun x =>
      { x with
        rampAt := s.now
        amps := if x.amps ≤ demand then min (x.amps + 2520) (min demand 420000) else max (x.amps - 2520) demand })
  else .next s

/-! ## Boost (R63 to R67) -/

/-- A cluster's claim is cancelled with BEXH (R65, R72). -/
def State.cancelClaim (s : State) (k : Nat) : State :=
  let s := (clusterCores k).foldl (fun (s : State) c => (List.range 16).foldl (fun (s : State) g =>
    if (s.gang c g).claim.isSome then s.modGang c g fun x => { x with claim := none } else s) s) s
  s.modCluster k fun x => { x with claimAge := none, bexh := true }

/-- The waiting claim that is served next: the oldest, the lower cluster on a tie. -/
def State.nextClaim (s : State) (r : Nat) : Option Nat :=
  (regionClusters r).foldl (fun acc k =>
    match (s.cluster k).claimAge, acc with
    | none, a => a
    | some _, none => some k
    | some t, some j => if t < ((s.cluster j).claimAge.getD 0) then some k else some j) none

/-- R64, R67, R74. -/
def execBoostGrant (r : Nat) (s : State) : Out :=
  let x := s.region r
  if r < 96 ∧ x.st = .on ∧ x.holder = none ∧ 1 ≤ x.permits ∧ s.boostOk ∧ x.stage < 2 then
    match s.nextClaim r with
    | none => .next s
    | some k =>
      let t := s.modRegion r fun y => { y with holder := some k, permits := y.permits - 1, grantAt := s.now, idleFrom := none }
      .next (t.modCluster k fun y => { y with nextFreq := some (s.claimedFreq k), fallAt := none })
  else .next s

/-- R65: an interval begins. -/
def execBoostInterval (r : Nat) (s : State) : Out :=
  let x := s.region r
  match x.holder with
  | none => .next s
  | some k =>
    if s.now < x.grantAt + 10000 then .next s
    else if 1 ≤ x.permits then .next (s.modRegion r fun y => { y with permits := y.permits - 1, grantAt := y.grantAt + 10000 })
    else
      let t := (s.cancelClaim k).modRegion r fun y => { y with holder := none, idleFrom := some (y.grantAt + 10000) }
      .next (t.modCluster k fun y => { y with nextFreq := some 16, fallAt := some (x.grantAt + 30000) })

/-- R65: the second step of a fall. -/
def execBoostFallStep (c : Nat) (s : State) : Out :=
  match (s.cluster c).fallAt with
  | some t => if c < 192 ∧ t ≤ s.now then .next (s.modCluster c fun x => { x with nextFreq := some 14, fallAt := none }) else .next s
  | none => .next s

/-- R66. -/
def execPermitRefill (r : Nat) (s : State) : Out :=
  match (s.region r).idleFrom with
  | some t =>
    if r < 96 ∧ t + 40000 ≤ s.now then
      .next (s.modRegion r fun x => { x with permits := min 64 (x.permits + 1), idleFrom := some (t + 40000) })
    else .next s
  | none => .next s

/-- R63. -/
def execFrequencyChangeComplete (c : Nat) (s : State) : Out :=
  match (s.cluster c).nextFreq with
  | some f => if c < 192 then .next (s.modCluster c fun x => { x with freq := f, nextFreq := none }) else .next s
  | none => .next s

/-! ## Pools (R62) -/

/-- Do the hub and the walkers of a field pause (R301)? They follow the field's lowest cluster. -/
def State.fieldHalted (s : State) (f : Nat) : Bool := ((fieldClusters f).head?.map fun k => (s.cluster k).halted).getD false

/-- R62, R74: the rail and the frequency stand at the target's; a move that ends in stage 2 takes up its class when the stage clears. -/
def execPoolMoveComplete (c : Nat) (s : State) : Out :=
  match (s.cluster c).moving with
  | none => .next s
  | some p =>
    let x := s.cluster c
    if c < 192 ∧ (s.region (regionOf c)).stage < 3 ∧ (x.thr ∨ (x.nextFreq = none ∧ x.freq = Config.classFreq p)) then
      .next (s.modCluster c fun x => { x with pool := p, inPool := true, moving := none, idleSince := s.now })
    else .next s

/-! ## The thermal ladder (R72 to R74) -/

/-- A THERMAL entry with its interrupt. -/
def State.thermalMessage (s : State) (r : Nat) : State :=
  let t := s.openMessage kindThermal r
  if t.irqs = s.irqs then { t with irqs := t.irqs + 1 } else t

/-- A region enters stage 2: both clusters at c0, their claims cancelled. -/
def State.enterThrottle (s : State) (r : Nat) : State :=
  let s := (regionClusters r).foldl (fun (s : State) k =>
    let s := if (s.cluster k).claimAge.isSome then s.cancelClaim k else s
    s.modCluster k fun x => { x with thr := true, nextFreq := some 10, fallAt := none }) s
  s.modRegion r fun x => if x.holder.isSome then { x with holder := none, idleFrom := some s.now } else x

/-- A region enters stage 3: every block with a gang in it is saved whole, and its clusters leave all pools, their claims ended (R64); a move under
way ends. -/
def State.enterHaltStage (s : State) (r : Nat) : State :=
  let bs := ((regionCores r).flatMap s.blocksOn).dedup
  let s := bs.foldl (fun s b => s.forceSave b) s
  (regionClusters r).foldl (fun (s : State) k => (s.endClaims k).modCluster k fun x => { x with inPool := false, moving := none }) s

/-- A region enters one more stage. -/
def State.enterStage (s : State) (r k : Nat) : State :=
  let s := (s.thermalMessage r).bboxEvent (r / 16 * 8 + r % 8) 7 r k
  let s := s.modRegion r fun x => { x with stage := k, therm := if 2 ≤ k then sat16 (x.therm + 1) else x.therm }
  if k = 2 then s.enterThrottle r else if k = 3 then s.enterHaltStage r else s

/-- The stage that a temperature leads to from stage `old`. -/
def stageFor (old temp : Nat) : Nat :=
  let up := if 105 ≤ temp then 3 else if 100 ≤ temp then 2 else if 95 ≤ temp then 1 else 0
  if 3 ≤ old then old else max up (min old (stageBelow temp))

/-- R72: the sensors' maximum. -/
def execThermalSample (r temp : Nat) (s : State) : Out :=
  if 96 ≤ r ∨ (s.region r).st ≠ .on then .next s
  else
    let old := (s.region r).stage
    let new := stageFor old temp
    let t := s.modRegion r fun x => { x with temp := min 255 temp }
    if old ≤ new then .next ((List.range (new - old)).foldl (fun s i => s.enterStage r (old + i + 1)) t)
    else
      let t := (t.modRegion r fun x => { x with stage := new }).bboxEvent (r / 16 * 8 + r % 8) 7 r new
      .next (if old = 2 then t.endThrottle r else t)

/-- R55, R72: stage 4. From below stage 3 it is the comparator's alone: the stages passed over are in force with it, and the one entry is the
fourth's, with one THERMAL message and one count in THERM; that the others are not entered on the way is the model's choice (DESIGN CHOICE, log
entry 9). -/
def execThermalTrip (r : Nat) (s : State) : Out :=
  let st := (s.region r).st
  if r < 96 ∧ (st = .on ∨ st = .restart) then .next ((s.enterStage r 4).trip r 5) else .next s

end Sys2Proof.Machine
end

