-- ==== Sys2Proof/Machine/Walkers.lean ====
section
/-! DEFINITION. The graph walkers: firing nodes, checking launches, completing firings and delivering their tokens, and the end of a
run (R80 to R82, R90 to R97, R150, R472). -/

namespace Sys2Proof.Machine

/-! ## Tokens out (R91, R94) -/

def State.firing? (s : State) (w node : Nat) : Option Firing := (s.runOf w).firings.find? (·.node == node)

def State.modFiring (s : State) (w node : Nat) (f : Firing → Firing) : State :=
  s.modRun w fun r => { r with firings := r.firings.map fun (x : Firing) => if x.node = node then f x else x }

def State.dropFiring (s : State) (w node : Nat) : State :=
  s.modRun w fun r => { r with firings := r.firings.filter fun (x : Firing) => x.node != node }

/-- Delivers a completed firing's tokens in ascending order of successors; a full edge holds back the rest. -/
def State.deliverList (w node : Nat) : List Nat → State → State
  | [], s => (s.dropFiring w node).showStall w
  | k :: l, s =>
    match (s.runOf w).edges[k]? with
    | none => State.deliverList w node l s
    | some e =>
      match s.deliver (s.walkAgent w) e 0 with
      | .error c => if c = cWaits then s.modFiring w node fun f => { f with give := some (k :: l) } else s.faultFiring w node 0x08 0
      | .ok none => (s.modFiring w node fun f => { f with give := some (k :: l), stallAt := some s.now }).showStall w
      | .ok (some t) => State.deliverList w node l t

/-- Goes on with the deliveries of a firing; those of a faulted run are discarded, once its slot is free (R95, R97). -/
def State.deliverRest (s : State) (w node : Nat) : State :=
  if (s.runOf w).fault.isSome then
    (match (s.firing? w node).filter fun (f : Firing) => f.give.isSome && f.edge.isSome with
     | some f => s.endFaulted w f
     | none => s).settleFault w
  else
    match (s.firing? w node).bind (·.give) with
    | some l => State.deliverList w node l s
    | none => s

/-- A firing completes: its slot is freed, then its tokens are delivered (R91, R95). None where its slot cannot be freed yet: it completes
later. -/
def State.completeFiring (s : State) (w node : Nat) (give : List Nat) : Option State :=
  match s.firing? w node with
  | none => some s
  | some f => (s.freeFiring w f).map fun t => (t.modFiring w node fun x => { x with edge := none, give := some give }).deliverRest w node

/-- The successors that are there. -/
def Firing.all (f : Firing) : List Nat := f.succ.filter (· != 0xffffffff)
def Firing.pick (f : Firing) (n : Nat) : List Nat := ((f.succ[n]?).toList).filter (· != 0xffffffff)

/-! ## Tokens in (R95) -/

/-- The edges into a node whose head token is full, with the slot's address, or the cause of a failing access. -/
def State.fullEdges (s : State) (w node : Nat) : Except Nat (List (Nat × Nat)) :=
  ((s.runOf w).edges.zipIdx.filter fun p => p.1.cons == node).foldl (fun acc p =>
    match acc, s.headToken (s.walkAgent w) p.1 with
    | .error e, _ => .error e
    | _, .error e => .error e
    | .ok l, .ok (some (at_, _)) => .ok (l ++ [(p.2, at_)])
    | .ok l, .ok none => .ok l) (.ok [])

/-- Place of an edge in the order in which FULL writes were observed; an edge not observed comes last. -/
def Run.order (r : Run) (k : Nat) : Nat := (r.tokens.findIdx? (· == k)).getD r.tokens.length

/-- The token that a node takes next: the first observed, ties to the lower edge. -/
def Run.nextToken (r : Run) (l : List (Nat × Nat)) : Option (Nat × Nat) :=
  l.foldl (fun acc p =>
    match acc with
    | none => some p
    | some a => if r.order p.1 < r.order a.1 then some p else some a) none

/-! ## Nodes and launch records (R80 to R82) -/

def nodeKind (n : Nat) : Nat := bits n 0 4
def nodeJoinn (n : Nat) : Nat := bits n 16 16
def nodeArg (n k : Nat) : Nat := bits n (64 + 64 * k) 64
def nodeSucc (n : Nat) : List Nat := (List.range 4).map fun k => bits n (256 + 32 * k) 32

/-- A node that its walker faults with cause 0x01. -/
def nodeBad (n nedge : Nat) : Bool :=
  let a := nodeArg n 0
  7 ≤ nodeKind n || bits n 384 128 != 0 || bits n 32 32 != 0 || bits n 4 12 != 0 ||
    (nodeSucc n).any (fun e => e != 0xffffffff && nedge ≤ e) || (nodeKind n == 4 && nodeJoinn n == 0) ||
    (nodeKind n == 0 && (a % 64 != 0 || 0x3ffffec0 < a)) || (nodeKind n == 1 && a % 64 != 0) ||
    ((nodeKind n == 2 || nodeKind n == 3 || nodeKind n == 6) && a % 8 != 0)

/-- Parts of 64 bytes read one after another, the first lowest; or the cause of the first that fails. -/
def joinParts (l : List (Except Nat Nat)) : Except Nat Nat :=
  l.foldr (fun x acc =>
    match x, acc with
    | .error e, _ => .error e
    | _, .error e => .error e
    | .ok v, .ok r => .ok (v + 2 ^ 512 * r)) (.ok 0)

/-- The launch record at an offset of the launch region, whose base is as the host has it then (log entry 47). -/
def State.launchRecord (s : State) (w off : Nat) : Except Nat Nat :=
  joinParts ((List.range 5).map fun i => s.imageRead w s.lregBase (off + 64 * i) 64)

def recSlot (r n : Nat) : BitVec 128 := BitVec.ofNat 128 (bits r (512 + 128 * n) 128)
def recWin (r n : Nat) : Nat := bits r (1536 + 128 * n) 128
def recRct (r n : Nat) : Nat := bits r (128 + 16 * n) 16
def recLanes (r : Nat) : Nat := 16 * 2 ^ bits r 102 2

/-- The 2,048 bytes of a CB2 table (R150). -/
def State.readTable (s : State) (w va : Nat) : Except Nat Nat := joinParts ((List.range 32).map fun i => s.wPeek w (va + 64 * i) 64)

def noValue : Except Nat Nat → Bool
  | .ok _ => false
  | .error _ => true

/-- Slots of a record that name a CB2 table. -/
def tableSlots (r : Nat) : List Nat := (List.range 8).filter fun n => slotOk (recSlot r n) && (slotOf (recSlot r n)).code == 14

/-- The causes of R81 that a record meets, ascending. -/
def State.launchCauses (s : State) (w r : Nat) : List Nat :=
  let gangs := bits r 117 4
  let octs := bits r 104 9
  let range8 := List.range 8
  let c (b : Bool) (n : Nat) : List Nat := if b then [n] else []
  c (bits r 276 236 != 0 || bits r 121 7 != 0 || (List.range 7).any (fun n => bits (recRct r n) 6 10 != 0) ||
      range8.any fun n => bits (recWin r n) 82 46 != 0) 0x10 ++
  c (bits r 0 64 % 32 != 0 || 2 ^ 57 ≤ bits r 0 64) 0x11 ++
  c (bits r 64 16 == 0 || bits r 80 16 == 0 || octs == 0 || gangs == 0 || 4 < bits r 96 3 || 4 < bits r 99 3 || bits r 102 2 == 3 ||
      range8.any fun n => 131072 < bits (recWin r n) 64 18 || (bits (recWin r n) 64 18 != 0 && bits (recWin r n) 0 2 != 0)) 0x12 ++
  c ((List.range 7).any fun n => bits (recRct r n) 4 2 == 3) 0x13 ++
  c (256 < (gangs * recLanes r + 63) / 64 * octs || 384 < gangs * bits r 256 9 || 32 < gangs * bits r 265 6 || 16 < gangs * bits r 271 5) 0x14 ++
  c (!(List.range 192).any fun k => (s.cluster k).inPool && (s.cluster k).pool == bits r 113 2) 0x15 ++
  c (range8.any (fun n => !slotOk (recSlot r n)) ||
      (tableSlots r).any fun n => noValue (s.readTable w (slotOf (recSlot r n)).cb)) 0x16

/-- A launch of a record (R80, R98). -/
def State.launchOf (s : State) (w node r : Nat) (token : Nat) : Launch :=
  let run := s.runOf w
  { walker := w, node, asn := run.asn, root := run.root, code := BitVec.ofNat 64 (bits r 0 64)
    gx := bits r 64 16, gy := bits r 80 16, bw := bits r 96 3, bh := bits r 99 3, gw := recLanes r, octs := bits r 104 9
    cls := bits r 113 2, prio := bits r 115 2, gangs := bits r 117 4, spkb := bits r 256 9, amt := bits r 265 6, nwin := bits r 271 5
    rct := (List.range 8).map fun n => BitVec.ofNat 16 (recRct r n)
    fs := (List.range 8).map (recSlot r)
    cb := SMap.putAll [] ((tableSlots r).map fun n => (n, BitVec.ofNat 16384 ((s.readTable w (slotOf (recSlot r n)).cb).toOption.getD 0)))
    kwin := (List.range 8).map fun n => (BitVec.ofNat 64 (bits (recWin r n) 0 64), bits (recWin r n) 64 18)
    token := BitVec.ofNat 64 token, raceCtl := run.raceCtl, raceSh := run.raceSh, raceLog := run.raceLog, save := run.save
    trBuf := run.trBuf, trCtl := run.trCtl, left := bits r 64 16 * bits r 80 16 }

/-- A launch tag that no launch holds; 0 is none. -/
def State.freeLtag (s : State) : Nat :=
  (((List.range 65535).map fun i => 1 + (s.nextLtag.toNat + 65534 + i) % 65535).find? fun t => !s.launches.any (·.1 == t)).getD 0

/-- A constant cache keeps nothing of an earlier launch with the tag (R181). -/
def State.dropConsts (s : State) (t : Nat) : State :=
  { s with cores := s.cores.map fun (p : Nat × CoreSt) =>
      if p.2.kcache.isEmpty then p else (p.1, { p.2 with kcache := p.2.kcache.drop fun k => konstLtag k == t }) }

/-- Has a table of a record to be waited for? -/
def State.tableWaits (s : State) (w r : Nat) : Bool :=
  (tableSlots r).any fun n => match s.readTable w (slotOf (recSlot r n)).cb with
    | .error e => e == cWaits
    | .ok _ => false

/-- A kernel node launches its record, or is refused (R81); none where the record or a table of it cannot be read yet. Every
instruction cache is invalidated first (R186). -/
def State.fireKernel (s : State) (w node : Nat) (arg token : Nat) : Option State :=
  match s.launchRecord w arg with
  | .error e => if e = cWaits then none else some (s.faultFiring w node 0x08 0)
  | .ok r =>
    if s.tableWaits w r then none
    else
      match (s.launchCauses w r).head? with
      | some c => some (s.faultFiring w node c 0)
      | none =>
        let t := s.freeLtag
        let l := s.launchOf w node r token
        let s := { (s.dropCode fun _ => true).dropConsts t with nextLtag := BitVec.ofNat 16 (t % 65535 + 1) }
        some ((s.setLaunch t l).modFiring w node fun f => { f with ltag := BitVec.ofNat 16 t })

/-! ## Firing (R90 to R92) -/

/-- The core whose copy engine runs a chain: the lowest of the field whose region is ON and which has RET = 0 (R472). -/
def State.chainCore (s : State) (w : Nat) : Nat :=
  ((((fieldClusters (w / 8)).flatMap clusterCores).filter fun c =>
    (s.region (regionOf (clusterOf c))).st == .on && !entryRet (s.tableAt (clusterOf c) c)).min?).getD nCores

/-- A condition word, or the node's fault. -/
def State.condWord (s : State) (w a : Nat) : Except Nat Nat := s.wPeek w a 8

/-- What a firing of a well-formed node does; none where it has to wait for a word or its slot. -/
def State.fireNode (s : State) (w : Nat) (f : Firing) (joinn token : Nat) : Option State :=
  let node := f.node
  let a := f.arg0.toNat
  let fault (c : Nat) : Option State := some (s.faultFiring w node c 0)
  let unread (c : Nat) : Option State := if c = cWaits then none else fault 0x08
  match f.kind with
  | 0 => s.fireKernel w node a token
  | 1 =>
    if a = 0 then s.completeFiring w node f.all
    else some (s.modFiring w node fun x => { x with chain := f.arg0, rows := 0, chainCore := s.chainCore w })
  | 2 =>
    (match s.condWord w a with
     | .error c => unread c
     | .ok v => if 4 ≤ v then fault 0x03 else s.completeFiring w node (f.pick v))
  | 3 =>
    (match s.condWord w a with
     | .error c => unread c
     | .ok v =>
       let n := (s.runOf w).whiles.get 0 node
       if v = 0 then
         let s := if (f.pick 1).isEmpty then s else s.modRun w fun r => { r with whiles := r.whiles.put node 0 }
         s.completeFiring w node (f.pick 1)
       else if (f.pick 0).isEmpty then s.completeFiring w node []
       else if f.arg1 ≠ 0 ∧ f.arg1.toNat < n + 1 then fault 0x04
       else (s.modRun w fun r => { r with whiles := r.whiles.put node (n + 1) }).completeFiring w node (f.pick 0))
  | 4 =>
    let n := (s.runOf w).joins.get 0 node + 1
    (if n = joinn then (s.modRun w fun r => { r with joins := r.joins.put node 0 }).completeFiring w node f.all
     else (s.modRun w fun r => { r with joins := r.joins.put node n }).completeFiring w node [])
  | 6 =>
    (match s.condWord w a with
     | .error c => unread c
     | .ok v => if f.arg1.toNat ≤ v then s.completeFiring w node f.all else some s)
  | _ => some s

/-- A node's firing begins with the token of an edge, or without one (R90); none where it has to wait for its image. -/
def State.beginFiring (s : State) (w node : Nat) (token : Option (Nat × Nat)) : Option State :=
  let r := s.runOf w
  let f : Firing := { node, edge := token.map (·.1), at_ := s.now }
  match s.imageRead w r.base (64 + 64 * node) 64 with
  | .error e =>
    if e = cWaits then none else some ((s.modRun w fun r => { r with firings := r.firings ++ [f] }).faultFiring w node 0x08 0)
  | .ok n =>
    let f := { f with
      kind := nodeKind n, arg0 := BitVec.ofNat 64 (nodeArg n 0), arg1 := BitVec.ofNat 64 (nodeArg n 1), arg2 := BitVec.ofNat 64 (nodeArg n 2)
      succ := nodeSucc n }
    let t := s.modRun w fun r => { r with firings := r.firings ++ [f] }
    if nodeBad n r.edges.length then some (t.faultFiring w node 0x01 0) else t.fireNode w f (nodeJoinn n) ((token.map (·.2)).getD 0)

/-- A walker runs: its run has no fault and its field is not halted (R301). -/
def State.walks (s : State) (w : Nat) : Bool := (s.walker w).run.isSome && (s.runOf w).fault.isNone && !s.fieldHalted (w / 8)

/-- R91: the start's one firing without a token comes first; at most 16 nodes fire at once, and no node twice (R90). -/
def execNodeFire (w node : Nat) (s : State) : Out :=
  let r := s.runOf w
  if !s.walks w ∨ r.nnode ≤ node ∨ 16 ≤ r.firings.length ∨ (s.firing? w node).isSome then .next s
  else
    match r.entry with
    | some e => if e = node then .next (((s.modRun w fun r => { r with entry := none }).beginFiring w node none).getD s) else .next s
    | none =>
      match s.fullEdges w node with
      | .error e => if e = cWaits then .next s else .next ((s.runFault w 0x08 node 0).settleFault w)
      | .ok l =>
        match r.nextToken l with
        | some p => .next ((s.beginFiring w node (some p)).getD s)
        | none => .next s

/-! ## The ends of firings -/

/-- A firing of the given kind that has not completed, of a walker that is not paused; what is left of a killed run is not (R301, R304). -/
def State.under (s : State) (w node kind : Nat) : Option Firing :=
  if (s.walker w).run.isNone || (s.fieldHalted (w / 8) && !(s.runOf w).killed) then none
  else
    match s.firing? w node with
    | some f => if f.kind == kind && f.give.isNone then some f else none
    | none => none

/-- R79, R91, R97: every block of the launch has exited, its engine work with it, or was killed, and its writes are performed. -/
def execKernelNodeComplete (w node : Nat) (s : State) : Out :=
  match s.under w node 0 with
  | none => .next s
  | some f =>
    let l := f.ltag.toNat
    if l = 0 ∨ (s.launch l).left ≠ 0 ∨ !s.writesDone (· == f.ltag) then .next s
    else
      let t := { s with
        launches := s.launches.drop (· == l)
        hubs := s.hubs.map fun (h : Nat × Hub) => (h.1, { h.2 with lists := h.2.lists.filter fun (y : HubList) => y.ltag != f.ltag }) }
      .next ((t.completeFiring w node f.all).getD s)

/-- R472: the chain's last entry is complete, or the entry in progress faults. -/
def execCopyNodeComplete (w node : Nat) (s : State) : Out :=
  match s.under w node 1 with
  | none => .next s
  | some f =>
    if f.chain = 0 then .next ((s.completeFiring w node f.all).getD s)
    else
      match s.engineAt (.walker w node) with
      | none => .next s
      | some v =>
        match s.entryFault (.walker w node) v with
        | some c => .next (if c = cWaits then s else s.faultEntry (.walker w node) v c)
        | none => .next s

/-- R91, R85: the SIGNAL entry is written once the queue has room for it. -/
def execSignalEntryWritten (w node : Nat) (s : State) : Out :=
  match s.under w node 5 with
  | none => .next s
  | some f =>
    if !s.cqTakes then .next s
    else
      let t := s.cqPost { payload := f.arg0, tag := (s.walker w).tag, src := BitVec.ofNat 16 w, cause := 0, kind := kindSignal }
      .next ((t.completeFiring w node f.all).getD s)

/-- R92. -/
def execWaitNodePoll (w node : Nat) (s : State) : Out :=
  match s.under w node 6 with
  | none => .next s
  | some f =>
    match s.condWord w f.arg0.toNat with
    | .error e => .next (if e = cWaits then s else s.faultFiring w node 0x08 0)
    | .ok v => .next (if f.arg1.toNat ≤ v then (s.completeFiring w node f.all).getD s else s)

/-- R92: ARG2 µs have passed without success. -/
def execWaitNodeTimeout (w node : Nat) (s : State) : Out :=
  match s.under w node 6 with
  | none => .next s
  | some f =>
    match s.condWord w f.arg0.toNat with
    | .error _ => .next s
    | .ok v =>
      .next (if f.arg2 ≠ 0 ∧ f.at_ + 1000 * f.arg2.toNat ≤ s.now ∧ v < f.arg1.toNat then s.faultFiring w node 0x05 0 else s)

/-- R94: a stalled walker or a stalled edge put tries again. -/
def execFreeSlotRetry (who : Engine) (s : State) : Out :=
  match who with
  | .walker w node => .next (if (s.walker w).run.isNone ∨ s.fieldHalted (w / 8) then s else s.deliverRest w node)
  | .gang c slot ctx =>
    if ctx ≠ 7 then .next s
    else
      match s.engineAt who with
      | none => .next s
      | some v =>
        match s.entryBits v with
        | .error _ => .next s
        | .ok e =>
          match s.edgePut (.gang c slot ctx) v e with
          | .ok (some t) => .next t
          | _ => .next s

/-! ## The end of a run (R96) -/

/-- Do all claimed edges have HEAD = TAIL? Otherwise the cause and the consumer of the first that cannot be read. -/
def State.edgesEmpty (s : State) (w : Nat) : Except (Nat × Nat) Bool :=
  (s.runOf w).edges.foldl (fun acc e =>
    match acc, s.edgeHead (s.walkAgent w) e with
    | .error n, _ => .error n
    | _, .error c => .error (c, e.cons)
    | .ok b, .ok h => .ok (b && headHead h == headTail h)) (.ok true)

/-- R96: the walker releases its edges, writes GRAPH_DONE once the queue has room, and returns to idle. A faulted run whose entry still waits
for its writes or the queue writes it (R79, R85). -/
def execRunDone (w : Nat) (s : State) : Out :=
  let r := s.runOf w
  if (s.walker w).run.isSome ∧ r.fault.isSome then .next (s.settleFault w)
  else if !s.walks w ∨ r.entry.isSome ∨ !r.firings.isEmpty ∨ !s.cqTakes ∨ !s.workDone w ∨ !s.edgesOpen w then .next s
  else
    match s.edgesEmpty w with
    | .error (c, n) => .next (if c = cWaits then s else (s.runFault w 0x08 n 0).settleFault w)
    | .ok false => .next s
    | .ok true =>
      let t := (s.drainTraces).releaseEdges w
      let x := t.walker w
      let t := t.setWalker w { x with st := 0, run := none }
      .next (t.cqPost { payload := 0, tag := x.tag, src := BitVec.ofNat 16 w, cause := 0, kind := kindGraphDone })

end Sys2Proof.Machine
end

