-- ==== Sys2Proof/Machine/Hubs.lean ====
section
/-! DEFINITION. The field distributors: receiving a launch, placing its blocks, aging, stealing, and the exit of a block (R98 to R103,
R109, R118, R122, R158, R175, R178). -/

namespace Sys2Proof.Machine

/-! ## Sorting -/

def insertBy {α : Type} (le : α → α → Bool) (x : α) : List α → List α
  | [] => [x]
  | y :: l => if le x y then x :: y :: l else y :: insertBy le x l

/-- A list in order; equals keep their places. -/
def sortBy {α : Type} (le : α → α → Bool) (l : List α) : List α := l.foldr (insertBy le) []

/-! ## The ring (R101) -/

def hubRing : List Nat :=
  (List.range 8) ++ ((List.range 7).map (15 - ·)) ++ ((List.range 7).map (17 + ·)) ++ ((List.range 7).map (31 - ·)) ++
    ((List.range 7).map (33 + ·)) ++ ((List.range 7).map (47 - ·)) ++ [40, 32, 24, 16, 8]

/-- The hubs after `h`, in ring order. -/
def hubsAfter (h : Nat) : List Nat :=
  let i := (hubRing.findIdx? (· == h)).getD 0
  hubRing.drop (i + 1) ++ hubRing.take i

def nextHub (h : Nat) : Nat := (hubsAfter h).headD 0

/-! ## Lists (R98, R101) -/

def State.hubList? (s : State) (h : Nat) (ltag : Half) : Option HubList := (s.hub h).lists.find? (·.ltag == ltag)

def State.modList (s : State) (h : Nat) (ltag : Half) (f : HubList → HubList) : State :=
  let x := s.hub h
  s.setHub h { x with lists := x.lists.map fun (y : HubList) => if y.ltag == ltag then f y else y }

/-- Appends blocks to a hub's list of a launch. -/
def State.pushBlocks (s : State) (h : Nat) (ltag : Half) (bs : List Nat) : State :=
  if bs.isEmpty then s
  else
    let prio := (s.launch ltag.toNat).prio
    match s.hubList? h ltag with
    | some y =>
      s.modList h ltag fun y => { y with blocks := y.blocks ++ bs, eff := if y.blocks.isEmpty then prio else y.eff
                                         since := if y.blocks.isEmpty then s.now else y.since }
    | none => let x := s.hub h
              s.setHub h { x with lists := x.lists ++ [{ ltag, blocks := bs, eff := prio, since := s.now }] }

/-- Has a field a cluster in a class's pool? -/
def State.fieldPool (s : State) (h cls : Nat) : Bool := (fieldClusters h).any fun k => (s.cluster k).inPool && (s.cluster k).pool == cls

/-- A hub whose field has no cluster in the launch's pool hands its blocks on, each to the next hub that has one and is not its home
(R101, R102). -/
def State.handOver (s : State) (h : Nat) (ltag : Half) : State :=
  let cls := (s.launch ltag.toNat).cls
  match s.hubList? h ltag with
  | none => s
  | some y =>
    if s.fieldPool h cls then s
    else
      y.blocks.foldl (fun (s : State) i =>
        match (hubsAfter h).find? fun q => s.fieldPool q cls && i % 48 != q with
        | some q => (s.modList h ltag fun z => { z with blocks := z.blocks.filter (· != i) }).pushBlocks q ltag [i]
        | none => s) s

/-- The hub's own blocks of a launch of `n` blocks, ascending. -/
def ownBlocks (h n : Nat) : List Nat := (List.range ((n + 47 - h) / 48)).map (48 * · + h)

/-- R98. A launch that is to place no block is received in a halt too (R304). -/
def execLaunchReceive (hub ltag : Nat) (s : State) : Out :=
  let l := s.launch ltag
  let t : Half := BitVec.ofNat 16 ltag
  if 48 ≤ hub ∨ 65536 ≤ ltag ∨ !s.launches.any (·.1 == ltag) ∨ (s.fieldHalted hub ∧ !l.dead) ∨ ((s.hubList? hub t).map (·.own)).getD false then .next s
  else
    let own := ownBlocks hub (l.gx * l.gy)
    let s := if (s.hubList? hub t).isSome then s
      else let x := s.hub hub
           s.setHub hub { x with lists := x.lists ++ [{ ltag := t, blocks := [], eff := l.prio, since := s.now }] }
    let s := s.modList hub t fun y => { y with own := true }
    if l.dead then .next (s.setLaunch ltag { l with left := l.left - own.length })
    else .next ((s.pushBlocks hub t own).handOver hub t)

/-! ## What fits (R99, R118, R175, R178) -/

/-- First quarter of each of `n` gangs of width `gw`, taken one by one from the free rows of the quarters; none where one does not fit
(R118). -/
def takeQuarters (gw octs : Nat) : Nat → List Nat → Option (List Nat)
  | 0, _ => some []
  | n + 1, rows =>
    let starts := (List.range (64 / gw)).map (· * (gw / 16))
    let free (q : Nat) : Nat := ((rows.drop q).take (gw / 16)).foldl min 256
    let best := starts.foldl (fun b q => if free b < free q then q else b) 0
    if free best < octs then none
    else
      (takeQuarters gw octs n (rows.zipIdx.map fun p => if best ≤ p.2 && p.2 < best + gw / 16 then p.1 - octs else p.1)).map (best :: ·)

/-- Lowest base of `n` free units out of `cap`, beside the ranges in use. -/
def gapFor (cap n : Nat) (used : List (Nat × Nat)) : Option Nat :=
  if n = 0 then some 0
  else
    (((0 :: used.map fun p => p.1 + p.2).filter fun b =>
      b + n ≤ cap && used.all fun p => p.2 == 0 || b + n ≤ p.1 || p.1 + p.2 ≤ b)).min?

/-- The seats of a core in use. -/
def CoreSt.seats (k : CoreSt) : List Seat := ((List.range 15).map fun g => (k.gangs.get {} g).seat).filter (·.used)

/-- Free tiles of the accumulator memory, ascending (R99, R178). -/
def freeTiles (used : List Seat) : List Nat := (List.range 32).filter fun t => used.all fun x => !x.amTiles.contains t

/-- The slots and seats that a block's gangs take on a core, in gang order; none where they do not fit. Of the tiles, only their number has to
be free (R99): a gang takes the lowest (log entry 50). -/
def CoreSt.fit (k : CoreSt) (l : Launch) (ltag : Half) (block : Nat) : Option (List (Nat × Seat)) :=
  let used := k.seats
  let slots := (List.range 15).filter fun g => !(k.gangs.get {} g).seat.used
  let size := l.gangs * l.spkb * 1024
  if slots.length < l.gangs ∨ 16 < (used.map (·.nwin)).sum + l.gangs * l.nwin then none
  else
    match takeQuarters l.gw l.octs l.gangs ((List.range 4).map k.freeRows), gapFor 393216 size (used.map fun x => (x.shareBase, x.shareSize)) with
    | some qs, some sp =>
      if (freeTiles used).length < l.gangs * l.amt then none
      else
        some ((slots.zip qs).zipIdx.map fun p =>
          (p.1.1, { used := true, block, ltag, gidx := p.2, gw := l.gw, octs := l.octs, quarter := p.1.2, spkb := l.spkb
                    spadBase := sp + p.2 * l.spkb * 1024, shareBase := sp, shareSize := size, amt := l.amt
                    amTiles := ((freeTiles used).drop (p.2 * l.amt)).take l.amt, nwin := l.nwin }))
    | _, _ => none

/-- A core on which a block of the class may stand (R29, R56, R62, R73, R99, R295). -/
def State.coreOpen (s : State) (cls c : Nat) : Bool :=
  let x := s.cluster (clusterOf c)
  let r := s.region (regionOf (clusterOf c))
  x.inPool && x.pool == cls && x.moving.isNone && r.st == .on && decide (r.stage < 3) && !(s.core c).held && !(s.core c).inReset &&
    entryV (s.tableAt (clusterOf c) c) && !entryRet (s.tableAt (clusterOf c) c)

/-- Cores of a rectangle, by core index. -/
def rectCores (l : Launch) (origin : Nat) : List Nat :=
  (List.range (2 ^ l.bh)).flatMap fun y => (List.range (2 ^ l.bw)).map fun x => origin + 128 * y + x

def State.fitsAt (s : State) (l : Launch) (origin : Nat) : Bool :=
  (rectCores l origin).all fun c => s.coreOpen l.cls c && ((s.core c).fit l 0 0).isSome

/-- The lowest origin in a field at which a block of the launch fits (R99). -/
def State.originIn (s : State) (h : Nat) (l : Launch) : Option Nat :=
  let base := h / 8 * 2048 + h % 8 * 16
  ((List.range (16 / 2 ^ l.bh)).flatMap fun j => (List.range (16 / 2 ^ l.bw)).map fun i =>
    base + 128 * (j * 2 ^ l.bh) + i * 2 ^ l.bw).find? (s.fitsAt l)

/-! ## Placing (R99, R100, R116, R122, R158, R175, R178) -/

/-- Scalars that every body of a slot starts with: s3, s4 and s5 (R122). -/
def State.bodyScalars (s : State) (c : Nat) (x : Seat) : List (Nat × DWord) :=
  let l := s.launch x.ltag.toNat
  let b := s.block x.block
  let n := s.coreIndex c { seat := x }
  [(3, BitVec.ofNat 64 (b.index % max 1 l.gx + b.index / max 1 l.gx * 65536)),
   (4, BitVec.ofNat 64 (n % 2 ^ l.bw + n / 2 ^ l.bw * 16 + x.gidx * 256)), (5, BitVec.ofNat 64 x.ltag.toNat)]

/-- What a seat's storage holds at placement: scratchpad zero and empty, tiles zero. -/
def CoreSt.clearSeat (k : CoreSt) (x : Seat) : CoreSt :=
  { k with
    spad := k.spad.clear x.spadBase (x.spkb * 1024)
    spadFE := k.spadFE.drop fun gr => x.spadBase / 16 ≤ gr && gr < (x.spadBase + x.spkb * 1024) / 16
    am := k.am.drop fun n => x.amTiles.contains (n / 2048) }

/-- A gang starts its block's entry (R122, R158); what GDBGs of its slot holds stays (R299). -/
def State.seatGang (s : State) (c slot : Nat) (x : Seat) : State :=
  let l := s.launch x.ltag.toNat
  let i := (s.block x.block).index
  let g : Gang := { seat := x }
  let s := (s.forgetLatches c slot).modCore c fun k => k.clearSeat x
  let g :=
    { (g.fresh g.gwMask l.code ((1, l.token) :: s.bodyScalars c x)) with
      lfs := SMap.putAll [] ((List.range x.gw).map fun j => (j, lfsSeed i (s.threadOf c g j)))
      ctxs := SMap.putAll [] ((List.range 4).map fun n => (n, { lfs := lfsSeed i (0x40000 + n) }))
      stampRx := BitVec.ofNat 64 (s.ltsOf c)
      bodyAt := s.now
      gdbStop := (s.gang c slot).gdbStop
      gdbStep := (s.gang c slot).gdbStep }
  s.setGang c slot g

/-- Enters a block's gangs on its cores: `seat` is given each core, slot and seat. -/
def State.seatBlock (s : State) (b : Nat) (l : Launch) (ltag : Half) (origin : Nat) (seat : Nat → Nat → Seat → State → State) : State :=
  (rectCores l origin).foldl (fun (s : State) c =>
    (((s.core c).fit l ltag b).getD []).foldl (fun (s : State) p => seat c p.1 p.2 s) s) s

/-- The head block of a list has been placed (R100). -/
def State.popHead (s : State) (h : Nat) (ltag : Half) : State :=
  let s := s.modList h ltag fun y =>
    { y with blocks := y.blocks.drop 1, eff := (s.launch ltag.toNat).prio, since := s.now, blockedAt := none }
  s.setHub h { s.hub h with last := ltag }

/-- The saved block of a launch with a grid number (R282). -/
def State.savedBlock (s : State) (ltag : Half) (i : Nat) : Option Nat :=
  (s.blocks.find? fun q => q.2.ltag == ltag && q.2.index == i && q.2.saved).map (·.1)

/-- A hub's launches with unplaced blocks, in the order in which it tries them (R100). -/
def State.hubOrder (s : State) (h : Nat) : List HubList :=
  let x := s.hub h
  let ls := x.lists.filter fun y => !y.blocks.isEmpty
  let turn (y : HubList) : Nat := (y.ltag.toNat + 65535 - x.last.toNat) % 65536
  sortBy (fun a b => decide (b.eff < a.eff) || (a.eff == b.eff && decide (turn a ≤ turn b))) ls

/-- The first launch whose head block fits, with the block and its origin. -/
def State.hubChoice (s : State) (h : Nat) : Option (Half × Nat × Nat) :=
  (s.hubOrder h).findSome? fun y =>
    y.blocks.head?.bind fun i => (s.originIn h (s.launch y.ltag.toNat)).map fun o => (y.ltag, i, o)

/-- Since when each head block has not fitted (R103). -/
def State.markBlocked (s : State) (h : Nat) : State :=
  let x := s.hub h
  s.setHub h { x with lists := x.lists.map fun (y : HubList) =>
    if y.blocks.isEmpty || (s.originIn h (s.launch y.ltag.toNat)).isSome then { y with blockedAt := none }
    else { y with blockedAt := some (y.blockedAt.getD s.now) } }

/-- Clusters that a block of a launch spans. -/
def Launch.spans (l : Launch) : Nat := max 1 (2 ^ l.bw / 8) * max 1 (2 ^ l.bh / 8)

/-- The launch for which a hub seeks a cluster: of those whose head block has not fitted for 20 µs, and does not now, the one of highest
effective priority (R103). -/
def State.starved (s : State) (h : Nat) : Option HubList :=
  ((s.hub h).lists.filter fun l => !l.blocks.isEmpty && ((l.blockedAt.map fun t => decide (t + 20000 ≤ s.now)).getD false) &&
      (s.originIn h (s.launch l.ltag.toNat)).isNone).foldl (fun acc l =>
    match acc with
    | none => some l
    | some a => if a.eff < l.eff then some l else some a) none

/-- R62, R103: an idle cluster of the field begins to move to the pool of a launch in need, as long as fewer are on their way than a
block of it spans. It stays counted in its old pool until the move completes (R62). Its boost claims end, and its frequency changes to the class's, in stage 2 once that clears (R64, R74). -/
def execPoolTargetMove (hub c : Nat) (s : State) : Out :=
  let x := s.cluster c
  match s.starved hub with
  | none => .next s
  | some l =>
    let cls := (s.launch l.ltag.toNat).cls
    let coming := ((fieldClusters hub).filter fun k => (s.cluster k).moving == some cls).length
    if hub < 48 ∧ (fieldClusters hub).contains c ∧ !s.fieldHalted hub ∧ (s.region (regionOf c)).st = .on ∧ (s.region (regionOf c)).stage < 3 ∧
        x.moving = none ∧ (x.pool ≠ cls ∨ !x.inPool) ∧ s.clusterIdle c ∧ x.idleSince + 20000 ≤ s.now ∧
        coming < (s.launch l.ltag.toNat).spans then
      .next ((s.endClaims c).modCluster c fun y =>
        { y with
          moving := some cls
          fallAt := none
          nextFreq := if y.thr then y.nextFreq else if y.freq = Config.classFreq cls then none else some (Config.classFreq cls) })
    else .next s

/-- Launches with a block that would fit in the field now (R101). -/
def State.stealable (s : State) (h : Nat) : List Half :=
  ((s.launches.filter fun p => p.2.left != 0 && !p.2.dead && (s.originIn h p.2).isSome).map fun p => BitVec.ofNat 16 p.1)

/-- A dry hub asks the next hub of the ring (R101). -/
def State.askSteal (s : State) (h : Nat) : State :=
  let x := s.hub h
  let names := s.stealable h
  if x.lists.all (·.blocks.isEmpty) && x.steal.isNone && x.answer.isNone && x.backoff.isNone && !names.isEmpty then
    s.setHub h { x with steal := some (nextHub h, names), empties := 0 }
  else s

/-- Every launch of a hub without a cluster of its class in the field is handed on (R102). -/
def State.handAll (s : State) (h : Nat) : State := ((s.hub h).lists.map (·.ltag)).foldl (fun s l => s.handOver h l) s

/-- R99: the head block of the first launch that fits is placed; a saved block is left to its restore. A dry hub steals. -/
def execBlockPlace (hub : Nat) (s : State) : Out :=
  if 48 ≤ hub ∨ s.fieldHalted hub ∨ s.phase ≠ 3 then .next s
  else
    let s := (s.handAll hub).markBlocked hub
    match s.hubChoice hub with
    | none => .next (s.askSteal hub)
    | some (ltag, i, o) =>
      if (s.savedBlock ltag i).isSome then .next s
      else
        let b := s.nextBlock
        let s := { s.setBlock b { ltag, index := i, placed := true, origin := o } with nextBlock := b + 1 }
        let s := s.seatBlock b (s.launch ltag.toNat) ltag o fun c g x s => s.seatGang c g x
        .next (s.popHead hub ltag)

/-- R100: one level for each full millisecond without a placement. -/
def execHubPriorityAging (hub ltag : Nat) (s : State) : Out :=
  let t : Half := BitVec.ofNat 16 ltag
  match s.hubList? hub t with
  | none => .next s
  | some y =>
    if hub < 48 ∧ ltag < 65536 ∧ !s.fieldHalted hub ∧ !y.blocks.isEmpty ∧ y.eff < 3 ∧ y.since + 1000000 ≤ s.now then
      .next (s.modList hub t fun z => { z with eff := z.eff + 1, since := z.since + 1000000 })
    else .next s

/-! ## Stealing (R101, R102) -/

/-- Blocks of a list that may go to a thief: never back to their home hub. -/
def HubList.mayGo (y : HubList) (thief : Nat) : List Nat := y.blocks.filter fun i => i % 48 != thief

/-- The list a victim answers from. -/
def Hub.giveFrom (x : Hub) (thief : Nat) (names : List Half) : Option HubList :=
  (x.lists.filter fun y => names.contains y.ltag && !(y.mayGo thief).isEmpty).foldl (fun acc y =>
    match acc with
    | none => some y
    | some a => if a.eff < y.eff then some y else some a) none

/-- The thief whose request a victim handles next. -/
def State.thiefOf (s : State) (victim : Nat) : Option (Nat × List Half) :=
  (List.range 48).findSome? fun h =>
    match (s.hub h).steal, (s.hub h).answer with
    | some (v, names), none => if v = victim then some (h, names) else none
    | _, _ => none

/-- R101: the last half, rounded up, of the victim's unplaced blocks of one named launch. -/
def execStealRequest (victim : Nat) (s : State) : Out :=
  if 48 ≤ victim ∨ s.fieldHalted victim then .next s
  else
    match s.thiefOf victim with
    | none => .next s
    | some (thief, names) =>
      match (s.hub victim).giveFrom thief names with
      | none => .next (s.setHub thief { s.hub thief with answer := some (0, []) })
      | some y =>
        let can := y.mayGo thief
        let give := can.drop (can.length / 2)
        let t := s.modList victim y.ltag fun z => { z with blocks := z.blocks.filter fun i => !give.contains i }
        .next (t.setHub thief { t.hub thief with answer := some (y.ltag, sortBy (fun a b => decide (a ≤ b)) give) })

/-- R101: the stolen blocks join the list; after an empty answer the next hub is asked, and after 47 the thief waits. -/
def execStealResponse (thief : Nat) (s : State) : Out :=
  if 48 ≤ thief ∨ s.fieldHalted thief then .next s
  else
    let x := s.hub thief
    match x.answer, x.steal with
    | some (l, bs), some (v, names) =>
      let y := { x with answer := none }
      if bs.isEmpty then
        if 47 ≤ x.empties + 1 then .next (s.setHub thief { y with steal := none, empties := 0, backoff := some s.now })
        else .next (s.setHub thief { y with steal := some (nextHub v, names), empties := x.empties + 1 })
      else .next (((s.setHub thief { y with steal := none, empties := 0 }).pushBlocks thief l bs).handOver thief l)
    | _, _ => .next s

/-- R101: 10 µs. -/
def execStealBackoffExpire (hub : Nat) (s : State) : Out :=
  match (s.hub hub).backoff with
  | some t => if hub < 48 ∧ !s.fieldHalted hub ∧ t + 10000 ≤ s.now then .next ((s.setHub hub { s.hub hub with backoff := none }).askSteal hub) else .next s
  | none => .next s

/-! ## Exit (R109) -/

/-- A slot of a block is idle, its engine work complete and no trap of it open. -/
def State.slotDone (s : State) (c g : Nat) : Bool :=
  let x := s.gang c g
  let k := s.core c
  !x.live && x.posts == 0 && !x.trapped && !k.slotSaves.any (·.slot == g) &&
    (List.range 8).all (fun n => (x.ctx n).tlcnt == (x.ctx n).tliss) &&
    !(k.work.any fun w => match w with
      | .trap t => t.slot == g
      | .doorbell _ => false) &&
    (match k.serving with
     | some (.trap t _) => t.slot != g
     | _ => true) &&
    !s.pends.any fun p => p.core == c && p.slot == g

/-- R109: the block exits. -/
def execBlockExit (block : Nat) (s : State) : Out :=
  let b := s.block block
  let cs := s.blockCores block
  if !s.blocks.any (·.1 == block) ∨ !b.placed ∨ b.lost ∨ !b.images.isEmpty ∨ (s.cluster (clusterOf b.origin)).halted then .next s
  else if (s.blockGangs block).all (fun p => s.slotDone p.1 p.2) && cs.all fun c => (List.range 4).all fun p =>
      ((s.core c).recQ.get [] p).all fun r => r.bits.extractLsb' 240 16 != b.ltag then .next (s.exitBlock block)
  else .next s

end Sys2Proof.Machine
end

