-- ==== Sys2Proof/Machine/Tasks.lean ====
section
/-! DEFINITION. Group 0xb: records and their queues, posts, joins, calls and edge gets (R104 to R112, R138, R139, R444 to R451). -/

namespace Sys2Proof.Machine

/-! ## Records (R104) -/

def recCode (r : BitVec 256) : DWord := r.extractLsb' 0 64
def recFrame (r : BitVec 256) : DWord := r.extractLsb' 64 64
def recParent (r : BitVec 256) : DWord := r.extractLsb' 128 64
def recJoin (r : BitVec 256) : Nat := bits r.toNat 192 16
def recCore (r : BitVec 256) : Nat := bits r.toNat 208 14
def recPrio (r : BitVec 256) : Nat := bits r.toNat 222 2
def recOcts (r : BitVec 256) : Nat := bits r.toNat 224 9
def recLtag (r : BitVec 256) : Half := r.extractLsb' 240 16

/-- A record of its fields. -/
def mkRecord (code frame parent : DWord) (join core prio octs : Nat) (ltag : Half) : BitVec 256 :=
  ltag ++ (0 : BitVec 7) ++ BitVec.ofNat 9 octs ++ BitVec.ofNat 2 prio ++ BitVec.ofNat 14 core ++ BitVec.ofNat 16 join ++ parent ++ frame ++ code

/-! ## Record queues (R105) -/

/-- Appends records at a queue's tail. -/
def State.pushRecs (s : State) (c p : Nat) (l : List QRec) : State :=
  let was := (s.core c).recQ.get [] p
  s.modCore c fun k =>
    { k with
      recQ := k.recQ.put p (was ++ l)
      recHeadAt := if was.isEmpty then k.recHeadAt.put p s.now else k.recHeadAt
      recBlockAt := if was.isEmpty then k.recBlockAt.put p none else k.recBlockAt }

/-- Takes the head of a queue. -/
def State.popRec (s : State) (c p : Nat) : State :=
  s.modCore c fun k =>
    { k with recQ := k.recQ.put p ((k.recQ.get [] p).drop 1), recHeadAt := k.recHeadAt.put p s.now, recBlockAt := k.recBlockAt.put p none }

/-! ## Stores of the lowest executing lane -/

def State.storeOf (s : State) (p : Nat × Nat × Nat) : Access := { va := p.1, bytes := p.2.1, kind := .store, data := p.2.2, noWatch := s.noWatch }

/-- Causes of the stores, the race detector's in trap mode among them. -/
def State.storeCauses (s : State) (l : List (Nat × Nat × Nat)) (ex : Mask) : Causes :=
  let bad := l.foldl (fun acc p =>
    match s.translateFor s.focus.core s.me p.1 .write with
    | .error e => Causes.add e ex acc
    | .ok _ => acc) []
  Causes.addIf ((s.raceTrapped s.focus.core s.focus.slot (l.map fun p => (lowLane ex, s.storeOf p))).2 != 0) cRace ex bad

/-- The stores wait for the lane's earlier accesses, their pages' walks, or in trap mode for their records. -/
def State.storeWaits (s : State) (l : List (Nat × Nat × Nat)) (ex : Mask) : Bool :=
  s.walkWaits (l.map (·.1)) || l.any fun p => s.mustWait s.focus.core s.focus.slot (lowLane ex) (s.storeOf p) ||
    (s.raceMode s.me == 1 && !s.raceOpen s.focus.core s.focus.slot (s.storeOf p))

/-- Performs relaxed stores, at once or in flight: the state and the causes of those that are not performed. -/
def State.laneStores (s : State) (i : Instr) (sp : OpSpec) (f : Fields) (l : List (Nat × Nat × Nat)) (ex : Mask) : State × Causes :=
  let j := lowLane ex
  let s := s.beginWalks (l.map (·.1))
  let s := (s.raceTrapped s.focus.core s.focus.slot (l.map fun p => (j, s.storeOf p))).1
  l.foldl (fun (r : State × Causes) p =>
    let (s, bad) := r
    match s.translateFor s.focus.core s.me p.1 .write with
    | .error e => (s, Causes.add e ex bad)
    | .ok t =>
      if s.focus.fly || !s.accOpen (.ok (.glob t)) (s.storeOf p) then (s.launchPend (s.newPend i sp f j t (s.storeOf p) none), bad)
      else
        match s.perform s.focus.core s.focus.slot j t (s.storeOf p) with
        | (s, .ok _) => (s, bad)
        | (s, .error e) => (s, Causes.add e ex bad)) (s, [])

/-! ## `mkrec` (R445) -/

/-- The four stores of a record. -/
def recStores (a : Nat) (r : BitVec 256) : List (Nat × Nat × Nat) := (List.range 4).map fun k => (a + 8 * k, 8, bits r.toNat (64 * k) 64)

/-- The record that `mkrec` writes. -/
def State.newRecord (s : State) (sp : OpSpec) (f : Fields) : BitVec 256 :=
  let l := s.launch s.me.seat.ltag.toNat
  mkRecord (s.target f f.b) (s.me.sreg (f.a.regNat + 1)) (s.me.sreg (f.a.regNat + 2)) (min (s.sc sp f) 65535) s.focus.core f.ctl.sc.toNat
    l.octs s.me.seat.ltag

/-- R445. -/
def execMkrec (f : Fields) (s : State) : Out :=
  let base := (s.me.sreg f.a.regNat).toNat
  s.run (.mkrec f) f
    (fun sp =>
      { checks := fun ex =>
          if base % 32 ≠ 0 || (s.target f f.b).toNat % 32 ≠ 0 then Causes.add cMisalign ex []
          else s.storeCauses (recStores base (s.newRecord sp f)) ex
        va := fun _ => BitVec.ofNat 64 base
        walks := fun _ => [base]
        stall := fun ex => s.storeWaits (recStores base (s.newRecord sp f)) ex
        hold := fun _ => s.walkHold [base] })
    fun sp s ex _ =>
      let (t, bad) := s.laneStores (.mkrec f) sp f (recStores base (s.newRecord sp f)) ex
      let t := t.finish
      .next (if bad.isEmpty then t else t.trapLate s (.mkrec f) sp f bad { va := fun _ => BitVec.ofNat 64 base })

/-! ## `spawn` (R446) -/

/-- Children of the given frames join a queue; each carries the sender's timestamp (R456). -/
def State.spawnAll (s : State) (sp : OpSpec) (f : Fields) (frames : List DWord) : State :=
  let c := s.focus.core
  let g := s.me
  let octs := (s.launch g.seat.ltag.toNat).octs
  let code := s.target f f.a
  let parent := BitVec.ofNat 64 (s.sb sp f)
  let t := s.stampAt c (BitVec.ofNat 64 (s.ltsOf c))
  let stamp := BitVec.ofNat 64 (t.ltsOf c)
  t.pushRecs c f.ctl.sc.toNat (frames.map fun x => { bits := mkRecord code x parent 0 0 0 octs g.seat.ltag, va := 0, stamp })

def State.spawn (s : State) (i : Instr) (f : Fields) (count : Mask → Nat) (frames : OpSpec → State → Mask → List DWord) : Out :=
  s.run i f
    (fun sp =>
      let parent := s.sb sp f
      let bad := parent % 32 ≠ 0 || (s.target f f.a).toNat % 32 ≠ 0
      { checks := fun ex => Causes.addIf bad cMisalign ex []
        va := fun _ => if parent % 32 ≠ 0 then BitVec.ofNat 64 parent else s.target f f.a
        stall := fun _ => !bad && s.releaseWaits (BitVec.allOnes 64) 5
        hold := fun ex => if bad || s.recRoom s.focus.core f.ctl.sc.toNat (count ex) then none else some (.records f.ctl.sc.toNat (count ex)) })
    fun sp s ex _ => if ex = 0 then .next s.finish else .next (s.spawnAll sp f (frames sp s ex)).finish

/-- R446: one child per executing lane. -/
def execSpawn (f : Fields) (s : State) : Out :=
  s.spawn (.spawn f) f (fun ex => (lanesOf ex).length) fun sp s ex => (lanesOf ex).map fun j => BitVec.ofNat 64 (s.vc sp f j)

/-- R446: one child, with the lowest executing lane's frame. -/
def execSpawnOne (f : Fields) (s : State) : Out :=
  s.spawn (.spawnOne f) f (fun _ => 1) fun sp s ex => [BitVec.ofNat 64 (s.vc sp f (lowLane ex))]

/-! ## Posts (R105, R447) -/

/-- Sends a record to a core's queue. One that its router does not send is refused at once: it has come back to the poster (R105, R290).
The poster has one post more unanswered. -/
def State.sendRecord (s : State) (c slot : Nat) (r : BitVec 256) (va : DWord) (n prio rc : Nat) : State :=
  let q : QRec := { bits := r, va, stamp := BitVec.ofNat 64 (s.ltsOf c) }
  let l := s.launch (s.gang c slot).seat.ltag.toNat
  let s := s.modGang c slot fun g => { g with posts := g.posts + 1 }
  let held := s.badEntries.contains (s.physOf c, n)
  match s.sends (clusterOf c) n with
  | .to _ => s.inject c n l rc va.toNat (.post q prio slot)
  | _ =>
    if held then s.inject c n l rc va.toNat (.post q prio slot)
    else
      let id := s.nextId
      let t := s.inject c n l rc va.toNat (.post q prio slot)
      { t with packets := t.packets.map fun (p : Packet) => if p.id = id then { p with ret := true, nack := true, taken := true, reinjected := true } else p }

/-- The record at an address, with the fields that a post replaces. -/
def State.postRecord (s : State) (raw : Nat) : BitVec 256 :=
  let g := s.me
  let r : BitVec 256 := BitVec.ofNat 256 raw
  let l := s.launch g.seat.ltag.toNat
  let octs := if recOcts r = 0 ∨ l.octs < recOcts r then l.octs else recOcts r
  g.seat.ltag ++ r.extractLsb' 233 7 ++ BitVec.ofNat 9 octs ++ r.extractLsb' 0 224

def recPosAt (s : State) (sp : OpSpec) (f : Fields) : Nat := (((s.sa sp f : Nat) : Int) + dispOf f f.c) % (2 ^ 64 : Nat) |>.toNat

/-- R447. -/
def execPost (f : Fields) (s : State) : Out :=
  s.run (.post f) f
    (fun sp =>
      let a := recPosAt s sp f
      { checks := fun ex =>
          if a % 32 ≠ 0 then Causes.add cMisalign ex []
          else
            match s.translateFor s.focus.core s.me a .read with
            | .error e => Causes.add e ex []
            | .ok t =>
              let code := recCode (BitVec.ofNat 256 (s.memPeek s.focus.core t 32))
              Causes.addIf ((s.reach s.focus.core t 32 false).isNone && (code.toNat % 32 ≠ 0 || 2 ^ 57 ≤ code.toNat)) cMisalign ex []
        va := fun _ => BitVec.ofNat 64 a
        walks := fun _ => if a % 32 = 0 then [a] else []
        stall := fun _ => s.releaseWaits (BitVec.allOnes 64) 5 || (a % 32 == 0 && (s.walkWaits [a] ||
          match s.translateFor s.focus.core s.me a .read with
          | .ok t => !s.accessOpen s.focus.core t 32 false
          | .error _ => false))
        hold := fun _ => if a % 32 = 0 then s.walkHold [a] else none })
    fun sp s ex _ =>
      let a := recPosAt s sp f
      let n := s.sb sp f
      let s := s.beginWalks [a]
      let trap (s0 : State) (e : Nat) : Out :=
        .next (s0.finish.trapLate s (.post f) sp f [(e, ex)] { va := fun _ => BitVec.ofNat 64 a })
      match s.translateFor s.focus.core s.me a .read with
      | .error _ => .next s.finish
      | .ok t =>
        match s.reach s.focus.core t 32 false with
        | some e => trap s e
        | none =>
          let (s1, raw) := s.memRead s.focus.core t 32
          if nCores ≤ n then trap s1 cTargetRetired
          else
            match (if s.badEntries.contains (s.physOf s.focus.core, n) then .to 0 else s.sends s.myCluster n) with
            | .retired => trap s1 cTargetRetired
            | .unreachable => trap s1 cMachineCheck
            | .to _ =>
              .next (s1.sendRecord s.focus.core s.focus.slot (s.postRecord raw) (BitVec.ofNat 64 a) n f.ctl.sc.toNat f.ctl.rc.toNat).finish

/-! ## Joins (R108, R448) -/

/-- Decrements JOIN of a record, and posts the record at zero: the cause it fails with. -/
def State.joinAt (s : State) (c slot : Nat) (a : DWord) : Except Nat State :=
  let v := s.gangAgent c slot
  match s.agAtomic v (a.toNat + 24) 2 fun n => if n = 0 then none else some (n - 1) with
  | .error e => .error e
  | .ok (_, 0) => .error cJoinUnderflow
  | .ok (s, 1) =>
    match s.agRead v a.toNat 32 with
    | .error e => .error e
    | .ok (s, raw) =>
      let r : BitVec 256 := BitVec.ofNat 256 raw
      .ok (s.sendRecord c slot r a (recCore r) (recPrio r) 0)
  | .ok (s, _) => .ok s

/-- R448. -/
def execJoin (f : Fields) (s : State) : Out :=
  s.run (.join f) f
    (fun sp =>
      let a := recPosAt s sp f
      { checks := fun ex =>
          if a % 32 ≠ 0 then Causes.add cMisalign ex []
          else
            match s.translateFor s.focus.core s.me a .write with
            | .error e => Causes.add e ex []
            | .ok _ => []
        va := fun _ => BitVec.ofNat 64 a
        walks := fun _ => if a % 32 = 0 then [a] else []
        stall := fun _ => s.releaseWaits (BitVec.allOnes 64) 5 ||
          (a % 32 == 0 && match s.joinAt s.focus.core s.focus.slot (BitVec.ofNat 64 a) with
            | .error e => e == cWaits
            | .ok _ => false)
        hold := fun _ => if a % 32 = 0 then s.walkHold [a] else none })
    fun sp s ex _ =>
      let a := recPosAt s sp f
      match s.joinAt s.focus.core s.focus.slot (BitVec.ofNat 64 a) with
      | .ok t => .next t.finish
      | .error e => .next (s.finish.trapLate s (.join f) sp f [(e, ex)] { va := fun _ => BitVec.ofNat 64 a })

/-! ## Calls (R110, R111, R449, R450) -/

/-- Items that a callee queue holds. -/
def calleeCap : Nat := 1024

/-- The queue an item goes to. -/
def CoreSt.calleeFor (k : CoreSt) (t : DWord) : Nat :=
  match (List.range 16).find? fun q => !(k.calleeQ.get [] q).isEmpty && k.calleeBind.get 0 q == t with
  | some q => q
  | none => ((List.range 16).find? fun q => (k.calleeQ.get [] q).isEmpty).getD (bits t.toNat 5 4)

/-- Puts items into the queues, in order. -/
def CoreSt.putItems (k : CoreSt) (l : List CallItem) : CoreSt :=
  l.foldl (fun k x =>
    let q := k.calleeFor x.target
    let was := k.calleeQ.get [] q
    { k with
      calleeQ := k.calleeQ.put q (was ++ [x])
      calleeBind := if was.isEmpty then k.calleeBind.put q x.target else k.calleeBind }) k

def CoreSt.calleeFits (k : CoreSt) (l : List CallItem) : Bool :=
  (List.range 16).all fun q => ((k.putItems l).calleeQ.get [] q).length ≤ calleeCap

/-- The items of a `callq`, ascending by lane. -/
def State.callItems (s : State) (sp : OpSpec) (f : Fields) (ex : Mask) : List CallItem :=
  let c := s.focus.core
  let g := s.me
  (lanesOf ex).map fun j =>
    let name := s.nameOf c g j
    { target := BitVec.ofNat 64 (s.va sp f j), ltag := g.seat.ltag, block := g.seat.block,
      caller := { call := s.nextId, lane := j, block := name.block, thread := name.thread },
      v := (List.range 8).map fun r => BitVec.ofNat 32 (s.vval c g r j), stamp := BitVec.ofNat 64 (s.ltsOf c) }

/-- Drops what has been returned for a `callq`. -/
def State.dropReturns (s : State) (call : Nat) : State :=
  { s with cores := s.cores.map fun (p : Nat × CoreSt) => (p.1, { p.2 with returns := p.2.returns.filter fun r => r.1 != call }) }

/-- Is the entry under way that of a `callq` whose return has failed: its re-issue tries the return again (log entry 52)? -/
def State.returnRetry (s : State) : Bool :=
  match s.focus.replay with
  | some r => s.me.callIns.any fun q => q.2.seq == r.seq && q.2.pc == r.pc
  | none => false

/-- R449. -/
def execCallq (f : Fields) (s : State) : Out :=
  s.run (.callq f) f
    (fun sp =>
      { reads := List.range 8
        checks := fun ex => Causes.add cFetchAlign (s.badTargets sp f ex) []
        stall := fun ex => s.badTargets sp f ex == 0 && !s.returnRetry && !s.myCore.calleeFits (s.callItems sp f ex) })
    fun sp s ex _ =>
      if s.returnRetry then .next s.finish else
      let items := s.callItems sp f ex
      let id := s.nextId
      let entry := { s.lateEntry (.callq f) sp f ex cRecipeFault with cap := 0, vals := [], seq := id }
      let t := { s with nextId := s.nextId + 1 }
      let t := if ex = 0 then t else t.stampAt s.focus.core (BitVec.ofNat 64 (s.ltsOf s.focus.core))
      let t := ((t.modCore s.focus.core fun k => k.putItems items).markCalls s.focus.core).finish
      .next (t.modMe fun g =>
        { g with
          callIns := if ex = 0 then g.callIns else (id, entry) :: g.callIns
          lanes := g.lanes.putAll ((lanesOf ex).map fun j => (j, { g.lane j with susp := true, call := id })) }.settlePark)

/-- R450. -/
def execRetq (f : Fields) (s : State) : Out :=
  s.run (.retq f) f
    (fun _ => { reads := if s.me.kind = .callee then List.range 8 else []
                checks := fun ex => Causes.addIf (s.me.kind != .callee) cPermFault ex [] })
    fun _ s ex _ => .next (s.endLanes (.retq f) f ex)

/-! ## `eget` (R451) -/

/-- The edge at a descriptor's address, claimed by the run of the gang's launch with its kernel node as consumer: its number in
the run, or the cause. -/
def State.getEdge (s : State) (d : Nat) : Except Nat Edge :=
  let v := s.gangAgent s.focus.core s.focus.slot
  let l := s.launch s.me.seat.ltag.toNat
  if s.me.isHandler ∨ d % 32 ≠ 0 then .error cPermFault
  else
    match s.agValue v d 32 with
    | .error e => .error e
    | .ok x =>
      if !edgeDescOk x then .error cPermFault
      else
        match s.edgeHead v (edgeOf x) with
        | .error e => .error e
        | .ok h => if headOwner h = l.walker ∧ headCons h = l.node then .ok (edgeOf x) else .error cPermFault

/-- R451. -/
def execEget (f : Fields) (s : State) : Out :=
  let v := s.gangAgent s.focus.core s.focus.slot
  let stores (a : Nat) (e : Edge) (x : Nat) : List (Nat × Nat × Nat) :=
    (pieces8 a (e.size - 8)).foldl (fun (acc : List (Nat × Nat × Nat)) p => acc ++ [(p.1, p.2, bits x (8 * (p.1 - a)) (8 * p.2))]) []
  s.run (.eget f) f
    (fun sp =>
      let a := recPosAt s sp f
      let d := s.sb sp f
      { checks := fun ex =>
          match s.getEdge d with
          | .error e => Causes.add e ex []
          | .ok e =>
            match s.headToken v e with
            | .error c => Causes.add c ex (s.storeCauses (stores a e 0) ex)
            | .ok _ => s.storeCauses (stores a e 0) ex
        va := fun _ => match s.getEdge d with
          | .error _ => BitVec.ofNat 64 d
          | .ok _ => BitVec.ofNat 64 a
        walks := fun _ =>
          match s.getEdge d with
          | .error _ => if d % 32 = 0 then [d] else []
          | .ok e => (stores a e 0).map (·.1)
        stall := fun ex =>
          s.owes ex (·.acq) ||
          match s.getEdge d with
          | .error c => c == cWaits
          | .ok e =>
            s.storeWaits (stores a e 0) ex ||
              ((s.storeCauses (stores a e 0) ex).isEmpty &&
                match s.headToken v e with
                | .ok none => true
                | .ok (some (at_, _)) =>
                  (match s.agValue v (at_ + 8) (e.size - 8), s.freeSlot v e with
                   | .error c, _ => c == cWaits
                   | _, .error c => c == cWaits
                   | _, _ => false)
                | .error c => c == cWaits)
        hold := fun _ =>
          match s.getEdge d with
          | .error _ => none
          | .ok e => s.walkHold ((stores a e 0).map (·.1)) })
    fun sp s ex _ =>
      let a := recPosAt s sp f
      match s.getEdge (s.sb sp f) with
      | .error _ => .next s.finish
      | .ok e =>
        match s.headToken v e with
        | .ok (some (at_, head)) =>
          (match s.agValue v (at_ + 8) (e.size - 8), s.freeSlot v e with
           | .ok x, .ok s1 =>
             let w := (s.launch s.me.seat.ltag.toNat).walker
             let s2 := match (s1.runOf w).edges.findIdx? (·.queue == e.queue) with
               | some k => if (s1.walker w).run.isSome then s1.modRun w fun r => r.taken k else s1
               | none => s1
             let (t, bad) := s2.laneStores (.eget f) sp f (stores a e x) ex
             let t := (t.wrS f (BitVec.ofNat 64 (head / 2 ^ 32))).finish
             .next (if bad.isEmpty then t else t.trapLate s (.eget f) sp f bad { va := fun _ => BitVec.ofNat 64 a })
           | .error c, _ => .next (s.finish.trapLate s (.eget f) sp f [(c, ex)] { va := fun _ => BitVec.ofNat 64 (s.sb sp f) })
           | _, .error c => .next (s.finish.trapLate s (.eget f) sp f [(c, ex)] { va := fun _ => BitVec.ofNat 64 (s.sb sp f) }))
        | _ => .next s.finish

end Sys2Proof.Machine
end

