-- ==== Sys2Proof/Machine/Bodies.lean ====
section
/-! DEFINITION. Bodies that start in idle slots: records, posts on their way, joins of ended records, callee gangs and their callers
(R105 to R112, R119, R122, R123, R456). -/

namespace Sys2Proof.Machine

/-! ## Idle slots (R107) -/

/-- A core that admits bodies: it runs and its cluster is not halted. -/
def State.admits (s : State) (c : Nat) : Bool := decide (c < nCores) && s.coreRuns c && !(s.cluster (clusterOf c)).halted

def State.idleSlots (s : State) (c : Nat) : List Nat := (List.range 15).filter fun g => (s.gang c g).idle

/-! ## Callee queues (R110, R111) -/

/-- The fullest callee queue whose head belongs to a launch; ties to the lower number. -/
def CoreSt.fullest (k : CoreSt) (ltag : Half) : Option Nat :=
  ((List.range 16).filter fun q => ((k.calleeQ.get [] q).head?.map (·.ltag)) == some ltag).foldl (fun acc q =>
    match acc with
    | none => some q
    | some a => if (k.calleeQ.get [] a).length < (k.calleeQ.get [] q).length then some q else some a) none

/-- A slot could start a callee gang now. -/
def State.calleeReady (s : State) (c g : Nat) : Bool :=
  let x := s.gang c g
  ((s.core c).fullest x.seat.ltag).isSome && decide ((s.launch x.seat.ltag.toNat).octs ≤ (s.core c).freeFor x.seat)

/-- Takes up to `n` items of the head's target and launch out of a queue, in order. -/
def takeItems (target : DWord) (ltag : Half) : Nat → List CallItem → List CallItem × List CallItem
  | _, [] => ([], [])
  | 0, l => ([], l)
  | n + 1, x :: l =>
    if x.target = target ∧ x.ltag = ltag then
      let r := takeItems target ltag n l
      (x :: r.1, r.2)
    else
      let r := takeItems target ltag (n + 1) l
      (r.1, x :: r.2)

/-- Starts a callee gang on items: lane j takes item j (R111, R119, R122, R123). It is a gang of its own, with no latch (R137). -/
def State.startCallee (s : State) (c g : Nat) (target : DWord) (items : List CallItem) : State :=
  let x := s.gang c g
  let l := s.launch x.seat.ltag.toNat
  let seat := { x.seat with octs := l.octs }
  let s := (items.foldl (fun (s : State) i => s.stampAt c i.stamp) s).forgetLatches c g
  let top := items.foldl (fun (t : Nat) i => max t (i.stamp.toNat + 1)) 0
  let js := items.zipIdx
  s.setGang c g
    { ({ x with seat, kind := .callee }.fresh (BitVec.ofNat 64 (2 ^ items.length - 1)) target (s.bodyScalars c seat)) with
      v := SMap.putAll [] (js.flatMap fun p => p.1.v.zipIdx.map fun w => (64 * w.2 + p.2, w.1))
      callers := SMap.putAll [] (js.map fun p => (p.2, p.1.caller))
      stampRx := BitVec.ofNat 64 top
      bodyAt := s.now }

/-- R111. -/
def execCalleeGangForm (core slot : Nat) (s : State) : Out :=
  let x := s.gang core slot
  if 15 ≤ slot ∨ !s.admits core ∨ !x.idle ∨ !s.calleeReady core slot then .next s
  else
    match (s.core core).fullest x.seat.ltag with
    | none => .next s
    | some q =>
      match (s.core core).calleeQ.get [] q with
      | [] => .next s
      | h :: l =>
        let (items, rest) := takeItems h.target h.ltag x.seat.gw (h :: l)
        let t := s.modCore core fun k => { k with calleeQ := k.calleeQ.put q rest }
        .next ((t.startCallee core slot h.target items).markCalls core)

/-! ## Callers (R111, R112, R138) -/

/-- The rows returned for a `callq`, wherever its callees ran. -/
def State.returned (s : State) (call : Nat) : List (Nat × List Word) :=
  s.cores.flatMap fun p => (p.2.returns.filter fun r => r.1 == call).map fun r => (r.2.1, r.2.2)

/-- Numbers of the `callq`s that lanes of a gang are suspended in. -/
def Gang.calls (g : Gang) : List Nat :=
  (((lanesOf (g.mreg 0)).filter fun j => (g.lane j).susp && !(g.lane j).exited).map fun j => (g.lane j).call).dedup

/-- Lanes suspended in a `callq`. -/
def Gang.callLanes (g : Gang) (call : Nat) : List Nat :=
  (lanesOf (g.mreg 0)).filter fun j => (g.lane j).susp && !(g.lane j).exited && (g.lane j).call == call

/-- Every item of a `callq` has returned. -/
def State.callDone (s : State) (g : Gang) (call : Nat) : Bool := (g.callLanes call).all fun j => (s.returned call).any (·.1 == j)

/-- The lanes of a `callq`, as a mask. -/
def Gang.callMask (g : Gang) (call : Nat) : Mask := maskOf 64 fun j => (g.callLanes call).contains j

/-- The lanes of a `callq` run again, v0 to v7 as returned. -/
def State.resumeCall (s : State) (c slot call : Nat) : State :=
  let g := s.gang c slot
  let rows := s.returned call
  let lanes := g.callLanes call
  let s := if g.ownsRow (g.callMask call) then s.rowDone c slot else s
  let s := s.touch c slot (List.range 8) []
  let vals := lanes.flatMap fun j =>
    match rows.find? (·.1 == j) with
    | some r => r.2.zipIdx.map fun w => (64 * w.2 + j, w.1)
    | none => []
  let s := s.modGang c slot fun x =>
    { x with v := x.v.putAll vals, callIns := x.callIns.filter fun q => q.1 != call
             lanes := x.lanes.putAll (lanes.map fun j => (j, { x.lane j with susp := false, call := 0 })) }
  s.dropReturns call

/-- A replay that the return of a `callq` needs has failed: the caller's trap names the `callq` (R268; log entry 52). -/
def State.returnFault (s : State) (c slot call : Nat) (e : ReplayErr) : State :=
  let g := s.gang c slot
  match g.callIns.find? fun q => q.1 == call with
  | some q =>
    if g.trapped || !g.replay.isEmpty then s
    else
      s.takeTrap c
        { slot, causes := [(cRecipeFault, g.callMask call)], inner := BitVec.ofNat 8 e.inner, rcp := BitVec.ofNat 5 e.rcp, va := e.va
          raised := s.timeAt (clusterOf c), entry := { q.2 with mask := g.callMask call, cause := BitVec.ofNat 8 cRecipeFault } }
  | none => s

/-- A caller whose items have all returned: it waits while a matrix entry has still to read v0 to v7 (R241), and for what the replays of
the registers that it materialises need, and the rows (R267). -/
def State.answerCall (s : State) (c slot call : Nat) : State :=
  let g := s.gang c slot
  let ns := g.touched (List.range 8) []
  if g.matrixHolds (List.range 8) then s
  else
    match s.replayFault c g (ns.map fun n => (g.recipe n).treg.toNat) with
    | some e => if e.waits then s.replayFetch c g e else s.returnFault c slot call e
    | none =>
      if s.rowsReady c slot ns (g.callMask call) then s.resumeCall c slot call
      else s.waitRow c slot ns (g.callMask call)

/-! ## Records (R107) -/

/-- Starts a record's run in an idle slot: the next body of its gang, or of a new one after a callee gang. -/
def State.startRecord (s : State) (c g : Nat) (r : QRec) : State :=
  let x := s.gang c g
  let s := if x.kind = .callee then s.forgetLatches c g else s
  let seat := { x.seat with octs := recOcts r.bits }
  (s.setGang c g
    { ({ x with seat, kind := .record }.fresh x.gwMask (recCode r.bits) ((1, r.va) :: (2, recFrame r.bits) :: s.bodyScalars c seat)) with
      parent := recParent r.bits
      stampRx := r.stamp
      bodyAt := s.now }).markCalls c

/-- What an idle slot finds in the queues from priority `p` down. -/
inductive Admit where
  | none
  | run (prio : Nat) (r : QRec)
  deriving DecidableEq, Repr

def State.admitFrom (s : State) (c g : Nat) : Nat → Admit
  | 0 => .none
  | p + 1 =>
    let x := s.gang c g
    match ((s.core c).recQ.get [] p).head? with
    | some h =>
      if recLtag h.bits = x.seat.ltag then
        if recOcts h.bits ≤ (s.core c).freeFor x.seat then .run p h
        else if (((s.core c).recBlockAt.get none p).map fun t => decide (t + 100000 ≤ s.now)).getD false then .none
        else State.admitFrom s c g p
      else State.admitFrom s c g p
    | none => State.admitFrom s c g p

/-- The idle slots that admit records: those that could not start a callee gang (R111). -/
def State.recordSlots (s : State) (c : Nat) : List Nat := (s.idleSlots c).filter fun g => !s.calleeReady c g

/-- Priorities whose heads an idle slot tests from priority `p` down and finds too large. -/
def State.tooLarge (s : State) (c g : Nat) : Nat → List Nat
  | 0 => []
  | p + 1 =>
    match ((s.core c).recQ.get [] p).head? with
    | some h =>
      if recLtag h.bits = (s.gang c g).seat.ltag then
        if recOcts h.bits ≤ (s.core c).freeFor (s.gang c g).seat then []
        else if (((s.core c).recBlockAt.get none p).map fun t => decide (t + 100000 ≤ s.now)).getD false then [p]
        else p :: State.tooLarge s c g p
      else State.tooLarge s c g p
    | none => State.tooLarge s c g p

/-- The heads that the given idle slots have tested and found too large count as blocked from now on. -/
def State.markTested (s : State) (c : Nat) (slots : List Nat) : State :=
  let ps := slots.flatMap fun g => s.tooLarge c g 4
  s.modCore c fun k =>
    { k with recBlockAt := ps.foldl (fun (m : SMap (Option Nat)) p => m.put p (some ((m.get none p).getD s.now))) k.recBlockAt }

/-- R107: the lowest idle slot that finds a record runs it; none while a gang waits for a row (R267). -/
def execRecordAdmit (core : Nat) (s : State) : Out :=
  if !s.admits core ∨ !(s.core core).rowWait.isEmpty then .next s
  else
    let slots := s.recordSlots core
    let hit := slots.findSome? fun g =>
      match s.admitFrom core g 4 with
      | .run p r => some (g, p, r)
      | .none => none
    match hit with
    | some (g, p, r) => .next (((s.markTested core (slots.filter (· ≤ g))).popRec core p).startRecord core g r)
    | none => .next (s.markTested core slots)

/-- R107: 1 ms unserved. -/
def execRecordPromote (core prio : Nat) (s : State) : Out :=
  let k := s.core core
  match (k.recQ.get [] prio).head? with
  | none => .next s
  | some h =>
    if prio < 3 ∧ s.admits core ∧ k.recHeadAt.get 0 prio + 1000000 ≤ s.now ∧ s.recRoom core (prio + 1) 1 then
      .next ((s.popRec core prio).pushRecs core (prio + 1) [h])
    else .next s

/-! ## Posts on their way (R105, R290) -/

/-- A record that a post brought joins its queue (R456). -/
def State.enqueuePost (s : State) (c prio : Nat) (r : QRec) : State :=
  let t := s.stampAt c r.stamp
  t.pushRecs c prio [{ r with stamp := BitVec.ofNat 64 (t.ltsOf c) }]

/-- R105: the record joins the queue and an answer goes back, or it is refused and goes back itself. -/
def execPostReceive (id : Nat) (s : State) : Out :=
  match s.packet? id with
  | none => .next s
  | some p =>
    match p.body with
    | .post r prio _ =>
      if !p.arrived ∨ p.ret ∨ !s.inTurn p ∨ !s.standsFor p then .next s
      else if s.residentAt p.dst (recLtag r.bits) && s.recRoom p.dst prio 1 then
        .next ((s.setPacket (p.back false s.now)).enqueuePost p.dst prio r)
      else .next (s.setPacket { p.back true s.now with reinjected := true })
    | _ => .next s

/-- R105: a record that came back refused is enqueued at its poster's core, waits there while the queue is full, or is discarded. -/
def execPostRefusedReturn (id : Nat) (s : State) : Out :=
  match s.packet? id with
  | none => .next s
  | some p =>
    match p.body with
    | .post r prio slot =>
      if !p.arrived ∨ !p.ret ∨ !p.nack ∨ !p.reinjected ∨ !s.inTurn p then .next s
      else if !s.residentAt p.src (recLtag r.bits) then .next ((s.dropPacket id).answerPost p.src slot)
      else if s.recRoom p.src prio 1 then .next (((s.dropPacket id).enqueuePost p.src prio r).answerPost p.src slot)
      else .next s
    | _ => .next s

/-! ## Joins of ended records (R108, R471) -/

/-- R108: once the writes of the run are performed, JOIN of the parent goes down; a failing join is a trap after the body's end. -/
def execJoinDecrement (core slot : Nat) (s : State) : Out :=
  let x := s.gang core slot
  let owes := (s.pends.any fun p => p.core == core && p.slot == slot && !p.performed && p.failed.isNone) || !s.bcastClear (clusterOf core)
  if 15 ≤ slot ∨ !x.ending ∨ x.kind ≠ .record ∨ x.parent = 0 ∨ owes then .next s
  else
    match s.joinAt core slot x.parent with
    | .ok t => .next ((t.modGang core slot fun g => { g with parent := 0 }).tryIdle core slot)
    | .error e =>
      if e = cWaits then .next s
      else .next ((s.modGang core slot fun g => { g with parent := 0 }).takeEndTrap core slot e x.parent)

end Sys2Proof.Machine
end

