-- ==== Sys2Proof/Machine/Cross.lean ====
section
/-! DEFINITION. Group 0x5: permutation, reduction, scan and compaction across the lanes of a gang (R140, R392 to R395). -/

namespace Sys2Proof.Machine

/-- A of a source lane: zero of an exited or never launched one (R140, R393). -/
def State.laneA (s : State) (sp : OpSpec) (f : Fields) (l : Nat) : Nat :=
  if s.me.liveLanes.getLsbD l then s.va sp f l else 0

/-- A cross-lane instruction: `val` gives an executing lane's result. Dropped sources are replayed in every live lane. -/
def State.crossLane (s : State) (i : Instr) (f : Fields) (val : OpSpec → State → Mask → Nat → Nat) : Out :=
  s.run i f (fun _ => { }) fun sp s ex zero =>
    .next ((s.wrV f (ty64 f) ex zero (val sp s ex)).finish)

/-- R393. -/
def execVperm (f : Fields) (s : State) : Out :=
  s.crossLane (.vperm f) f fun sp s _ j => s.laneA sp f (s.vb sp f j % 2 ^ 32 % s.me.gw)

/-- The source lane of `vshfl` (R393). -/
def shflFrom (mode gw b j : Nat) : Nat :=
  match mode with
  | 0 => b % gw
  | 1 => if j < b then j else j - b
  | 2 => if gw ≤ j + b then j else j + b
  | _ => (j ^^^ b) % gw

/-- R393. -/
def execVshfl (f : Fields) (s : State) : Out :=
  s.crossLane (.vshfl f) f fun sp s _ j => s.laneA sp f (shflFrom f.fn.toNat s.me.gw (s.sb sp f % 2 ^ 32) j)

/-- R393. -/
def execVbcl (f : Fields) (s : State) : Out :=
  s.crossLane (.vbcl f) f fun sp s ex _ => s.laneA sp f ((lanesOf ex).head?.getD 0)

/-- combine of R394 on w-bit values. -/
def combine (ftz : Bool) (f : Fields) (a b : Nat) : Nat :=
  if f.ty = 0 then
    (match f.fn.toNat with
     | 0 => addF32 a b
     | 1 => fp32.minmax false ftz a b
     | _ => fp32.minmax true ftz a b)
  else
    let sg := tyIsI f.ty
    let w := tyBits f.ty
    match f.fn.toNat with
    | 0 => intAdd sg w a b
    | 1 => intMinOp sg w a b
    | 2 => intMaxOp sg w a b
    | 3 => intAnd sg w a b
    | 4 => intOr sg w a b
    | _ => intXor sg w a b

/-- The identity of R394. -/
def combineUnit (f : Fields) : Nat :=
  if f.ty = 0 then
    (match f.fn.toNat with
     | 0 => 0
     | 1 => 0x7f800000
     | _ => 0xff800000)
  else
    let w := tyBits f.ty
    match f.fn.toNat with
    | 1 => wrap w (intMax (tyIsI f.ty) w)
    | 2 => wrap w (intMin (tyIsI f.ty) w)
    | 3 => 2 ^ w - 1
    | _ => 0

/-- The running totals of the executing lanes, in ascending order: lane and total. -/
def State.scan (s : State) (sp : OpSpec) (f : Fields) (ex : Mask) : List (Nat × Nat) :=
  let ftz := (s.env f).slot.ftz
  ((lanesOf ex).foldl (fun (acc : List (Nat × Nat)) j =>
    match acc with
    | [] => [(j, s.va sp f j)]
    | (_, t) :: _ => (j, combine ftz f t (s.va sp f j)) :: acc) []).reverse

/-- R394. -/
def execVred (f : Fields) (s : State) : Out :=
  s.run (.vred f) f (fun _ => {}) fun sp s ex zero =>
    let total := ((s.scan sp f ex).getLast?.map (·.2)).getD 0
    .next ((s.wrV f (ty64 f) ex zero fun _ => total).finish)

/-- R394. -/
def execVscan (f : Fields) (s : State) : Out :=
  s.run (.vscan f) f (fun _ => {}) fun sp s ex zero =>
    .next ((s.wrV f (ty64 f) ex zero fun j => SMap.get 0 (s.scan sp f ex) j).finish)

/-- R394. -/
def execVscanx (f : Fields) (s : State) : Out :=
  s.run (.vscanx f) f (fun _ => {}) fun sp s ex zero =>
    let out := s.scan sp f ex
    let shifted := (lanesOf ex).zip (combineUnit f :: out.map (·.2))
    .next ((s.wrV f (ty64 f) ex zero fun j => SMap.get 0 shifted j).finish)

/-- The lanes a mask operand selects. -/
def State.selected (s : State) (sp : OpSpec) (f : Fields) : List Nat := lanesOf (BitVec.ofNat 64 (s.sb sp f) &&& s.me.gwMask)

/-- R395. -/
def execVcomp (f : Fields) (s : State) : Out :=
  s.crossLane (.vcomp f) f fun sp s ex j =>
    match ((lanesOf ex).zip (s.selected sp f)).find? fun p => p.1 == j with
    | some p => s.laneA sp f p.2
    | none => 0

/-- R395: executing lanes that are not selected are not written. -/
def execVexpd (f : Fields) (s : State) : Out :=
  s.run (.vexpd f) f (fun _ => { }) fun sp s ex zero =>
    let to_ := (lanesOf ex).filter (s.selected sp f).contains
    .next ((s.wrV f (ty64 f) (maskOf 64 to_.contains) zero fun j => s.laneA sp f (to_.idxOf j)).finish)

end Sys2Proof.Machine
end

