-- ==== Sys2Proof/Machine/Photonic.lean ====
section
/-! DEFINITION. The photonic plane at work: frames, holes and retained copies, beacons, time, binding, halts (R44 to R53, R182 to R184,
R188, R189, R200, R300 to R303, R456). -/

namespace Sys2Proof.Machine

/-! ## What a message does at a cluster -/

/-- The home's bits at a snoop's place, and whether the home answers an RS alone (R189). -/
def homeSnoop (k : Snoop) (h : BitVec 2) : BitVec 2 × Bool :=
  match k with
  | .rs => if h.getLsbD 0 then (h, false) else if h.getLsbD 1 then (2, false) else (3, true)
  | .rx | .up => (1, false)
  | .ev => (h &&& 2, false)

/-- States whose holder supplies a superblock's data (R188). -/
def Moesi.supplies (m : Moesi) : Bool :=
  match m with
  | .m | .o | .e => true
  | .s | .i => false

/-- The request of a message is answered by the router of a core, where none has answered it yet. -/
def State.answerReq (s : State) (msg core : Nat) : State :=
  { s with sbReqs := s.sbReqs.map fun (r : SbReq) => if r.msg = msg ∧ r.sup.isNone then { r with sup := some core } else r }

/-- A snoop applied at cluster `c` (R188, R189): the home answers it where its OWN bit is 0, else the holder does; at the requester's own place an UP
whose copy is lost acts as RX. -/
def State.applySnoop (s : State) (c : Nat) (m : Msg) (k : Snoop) (sb : Nat) : State :=
  let s :=
    if homeCluster sb = c then
      let old := s.homeBits.get 0 sb
      let (h, alone) := homeSnoop k old
      let s := { s with
        homeBits := s.homeBits.put sb h
        sbReqs := s.sbReqs.map fun (r : SbReq) => if r.msg = m.id then { r with alone } else r }
      if old.getLsbD 0 then s else s.answerReq m.id (homeCoreOf sb)
    else s
  if m.writer = c then
    { s with sbReqs := s.sbReqs.map fun (r : SbReq) =>
        if r.msg = m.id then { r with placed := true, kind := if r.kind = .up ∧ s.moesiOf c sb = .i then .rx else r.kind } else r }
  else if s.sbReqs.any fun r => r.cluster == c && r.sb == sb && r.placed then
    { s with sbReqs := s.sbReqs.map fun (r : SbReq) =>
        if r.cluster = c ∧ r.sb = sb ∧ r.placed then { r with behind := r.behind ++ [(k, m.id)] } else r }
  else if s.moesiOf c sb = .i then s
  else
    let s := if (s.moesiOf c sb).supplies then s.answerReq m.id (transmitter c) else s
    s.setMoesi c sb ((s.moesiOf c sb).after k)

/-- Bytes that land in one line of a cluster's L2; the line leaves the L1s of its cores (R184). A landing place in the hole of a slice keeps
nothing (R166; log entry 53). -/
def State.landLine (s : State) (c pa : Nat) (data : List Byte) : State :=
  if inHole pa then s else
  let la := landKey pa / 64
  let s := s.l2Room c (la / 4)
  let s := s.setL2 c la ((s.l2Line c la).write (pa % 64) data.length (leBytes data))
  (clusterCores c).foldl (fun (s : State) q =>
    if ((s.core q).l1.find? fun e => e.1 == la).isSome then s.modCore q fun k => { k with l1 := k.l1.drop (· == la) } else s) s

/-- A broadcast store applied at cluster `c`: kept where a filter covers it (R46, R184). -/
def State.applyStore (s : State) (c off : Nat) (data : List Byte) : State :=
  match (s.cluster c).landing off with
  | none => s
  | some pa =>
    if data.length ≤ 64 then s.landLine c pa data
    else (s.landLine c pa (data.take 64)).landLine c (pa + 64) (data.drop 64)

def State.applyMsg (s : State) (c : Nat) (m : Msg) : State :=
  let s := match m.body with
    | .snoop k sb _ => s.applySnoop c m k sb
    | .store off data => s.applyStore c off data
  s.modCluster c fun x => { x with applied := x.applied ++ [m.id] }

/-! ## Frames (R44, R50 to R53, R200) -/

/-- The messages of a bus that a cluster has still to apply, in bus order. -/
def insertMsg (m : Msg) : List Msg → List Msg
  | [] => [m]
  | x :: l => if m.before x then m :: x :: l else x :: insertMsg m l

/-- The messages of a bus that a cluster has received whole and not applied, in bus order. -/
def State.busDue (s : State) (c bus : Nat) : List Msg :=
  (s.msgs.filter fun m => m.bus == bus && m.done ≤ (s.cluster c).rxTo && !m.lostAt.contains c && !s.msgApplied c m).foldl
    (fun l m => insertMsg m l) []

/-- Does a hole stand at or before a message's place? -/
def Hole.blocks (h : Hole) (m : Msg) : Bool := h.bus == m.bus && (h.frame < m.done || (h.frame == m.done && h.group ≤ m.group))

/-- Does a message that a cluster has lost lie in a hole? -/
def State.holeLost (s : State) (c : Nat) (h : Hole) : Bool :=
  (s.msgs.any fun m => m.bus == h.bus && m.group == h.group && m.lostAt.contains c && m.start ≤ h.last && h.frame ≤ m.done) ||
    s.beacons.any fun b => b.bus == h.bus && b.group == h.group && b.lostAt.contains c && h.frame ≤ b.frame && b.frame ≤ h.last

/-- The groups whose frames fail at a cluster: those named, and the dead ones among the bound groups; its own group it does not receive. -/
def State.failing (s : State) (c : Nat) (dark : List (Nat × Nat)) : List (Nat × Nat) :=
  let bound (p : Nat × Nat) : Bool := (List.range 192).any fun w => w != c && s.bindAt c p.1 w == p.2
  ((dark.filter fun p => p.1 < 16 && p.2 < 200) ++ s.deadGroups).dedup.filter bound

/-- A hole of a group's frames `[lo, hi]` joins the cluster's holes: it goes on with one that reaches up to it. -/
def addHole (bus group lo hi : Nat) : List Hole → List Hole
  | [] => [{ bus, group, frame := lo, last := hi }]
  | h :: l => if h.bus = bus ∧ h.group = group ∧ h.last + 1 = lo then { h with last := hi } :: l else h :: addHole bus group lo hi l

/-- The frames `[lo, hi]` of the failing groups are holes at the cluster, and what they carried is lost there (R51). -/
def State.seeHoles (s : State) (c lo hi : Nat) (dark : List (Nat × Nat)) : State :=
  let fail := s.failing c dark
  if hi < lo ∨ fail.isEmpty then s
  else
    let s := { s with
      msgs := s.msgs.map fun (m : Msg) =>
        if fail.contains (m.bus, m.group) ∧ m.writer ≠ c ∧ m.start ≤ hi ∧ lo ≤ m.done ∧ !m.lostAt.contains c then
          { m with lostAt := m.lostAt ++ [c] } else m
      beacons := s.beacons.map fun (b : Beacon) =>
        if fail.contains (b.bus, b.group) ∧ b.writer ≠ c ∧ lo ≤ b.frame ∧ b.frame ≤ hi ∧ !b.lostAt.contains c then
          { b with lostAt := b.lostAt ++ [c] } else b }
    s.modCluster c fun x =>
      { x with
        holes := fail.foldl (fun l p => addHole p.1 p.2 lo hi l) x.holes
        fails := (x.fails.filter fun f => s.now < f.2.2.1 + 20000) ++ fail.map fun p => (p.1, p.2, lo, hi + 1 - lo) }

/-- The messages that a rebound writer sends once more reach the cluster in the frames `[lo, hi]`, on groups that do not fail (R53). -/
def State.seeResent (s : State) (c lo hi : Nat) (dark : List (Nat × Nat)) : State :=
  let fail := s.failing c dark
  { s with msgs := s.msgs.map fun (m : Msg) =>
      if m.lostAt.contains c ∧ lo ≤ m.resent ∧ m.resent ≤ hi ∧ !fail.contains (m.bus, s.bindAt c m.bus m.writer) then
        { m with lostAt := m.lostAt.filter (· != c) } else m }

/-- Holes on an old group up to the frame that an end marker names were idle frames, once the retransmission behind it is over and nothing of
it is still lost (R53). -/
def State.endHoles (s : State) (c : Nat) : State :=
  let past (h : Hole) : Bool := s.endMarks.any fun k =>
    k.bus == h.bus && k.group == h.group && h.frame ≤ k.last && k.ends ≤ (s.cluster c).rxTo &&
      !(s.msgs.any fun m => m.bus == k.bus && m.writer == k.writer && m.resent != 0 && m.lostAt.contains c)
  if (s.cluster c).holes.any past then s.modCluster c fun x => { x with holes := x.holes.filter fun h => !past h } else s

/-- Applies a bus's due messages up to the first hole. The cluster's frames on the bus report how far that is, by its own count (R50), unless
its group is dead. -/
def State.applyBus (s : State) (c bus : Nat) : State :=
  let free := (s.busDue c bus).takeWhile fun m => (s.cluster c).holes.all fun h => !h.blocks m
  let s := free.foldl (fun s m => s.applyMsg c m) s
  let dead := s.deadGroups.contains (bus, s.groupOf bus c)
  s.modCluster c fun x =>
    let to_ := max (x.appliedTo.get 0 bus) (((x.holes.filter (·.bus == bus)).map (·.frame - 1)).foldl min x.rxTo)
    { x with
      appliedTo := x.appliedTo.put bus to_
      reports := if dead then x.reports else x.reports.put bus (to_ + x.frames - s.now) }

/-- Messages that the writer finds applied by every counted cluster are acknowledged (R200). -/
def State.settleAcks (s : State) : State :=
  { s with msgs := s.msgs.map fun (m : Msg) =>
      if m.acked then m
      else
        match s.appliedThrough (if s.forwards (regionOf m.writer) then m.writer else s.bclu) m.bus with
        | some f => if m.done ≤ f then { m with acked := true } else m
        | none => m }

/-- R44, R51: a cluster receives the frames since the last up to now; `dark` lists the groups, by bus, whose frames failed. -/
def execPhotonicFrame (c : Nat) (dark : List (Nat × Nat)) (s : State) : Out :=
  if 192 ≤ c ∨ !s.forwards (regionOf c) then .next s
  else
    let lo := (s.cluster c).rxTo + 1
    let t := (s.seeHoles c lo s.now dark).seeResent c lo s.now dark
    let t := (t.modCluster c fun x => { x with rxTo := max x.rxTo s.now }).endHoles c
    .next ((List.range 16).foldl (fun s b => s.applyBus c b) t).settleAcks

/-- A failure of the group is over at the receiver: a later frame has come. -/
def Hole.closed (h : Hole) (x : Cluster) : Bool := h.last < x.rxTo

/-- A retained copy of a message or beacon goes to each cluster that has lost it and has none on its way (R33). -/
def State.sendCopies (s : State) (c id : Nat) (ks : List Nat) : State :=
  ks.foldl (fun s k => s.respond (transmitter c) (transmitter k) (.copy id k)) s

/-- R51: the writer sends the retained copy to the receivers that ask for it, and tells of its frames that were idle. -/
def execRetainedCopyRequest (c id : Nat) (s : State) : Out :=
  let ask (lost copies : List Nat) : List Nat := lost.filter fun k => !copies.contains k
  let m := s.msgs.find? fun m => m.id == id && m.writer == c && m.retained
  let b := s.beacons.find? fun b => b.id == id && b.writer == c
  let ks := ((m.map fun m => ask m.lostAt m.copies).getD []) ++ ((b.map fun b => ask b.lostAt b.copies).getD [])
  let t := { s.sendCopies c id ks with
    msgs := s.msgs.map fun (m : Msg) =>
      if m.id = id ∧ m.writer = c ∧ m.retained then { m with copies := (m.copies ++ m.lostAt).dedup } else m
    beacons := s.beacons.map fun (b : Beacon) => if b.id = id ∧ b.writer = c then { b with copies := (b.copies ++ b.lostAt).dedup } else b }
  let idle (k : Nat) (h : Hole) : Bool := h.group == s.bindAt k h.bus c && h.closed (s.cluster k) && !s.holeLost k h
  .next { t with clusters := t.clusters.map fun (p : Nat × Cluster) =>
    if p.2.holes.any (idle p.1) then (p.1, { p.2 with holes := p.2.holes.filter fun h => !idle p.1 h }) else p }

/-- R51, R53: a copy arrives over the mesh and takes its place in the order; a hole that is over and has nothing lost left in it is resolved. -/
def execRetainedCopyReceive (c id : Nat) (s : State) : Out :=
  match s.packets.find? fun p => p.body == .copy id c && p.arrived with
  | none => .next s
  | some p =>
    let t := { s.dropPacket p.id with
      msgs := s.msgs.map fun (m : Msg) =>
        if m.id = id ∧ m.copies.contains c then { m with lostAt := m.lostAt.filter (· != c), copies := m.copies.filter (· != c) } else m
      beacons := s.beacons.map fun (b : Beacon) =>
        if b.id = id ∧ b.copies.contains c then { b with lostAt := b.lostAt.filter (· != c), copies := b.copies.filter (· != c) } else b }
    let solved (h : Hole) : Bool := h.closed (t.cluster c) && s.holeLost c h && !t.holeLost c h
    if (t.cluster c).holes.any solved then .next (t.modCluster c fun x => { x with holes := x.holes.filter fun h => !solved h }) else .next t

/-- R51: 40 µs after its sending. -/
def execRetainedCopyExpire (id : Nat) (s : State) : Out :=
  match s.msg? id with
  | none => .next s
  | some m =>
    if s.now < m.done + 40000 then .next s
    else if m.acked ∧ m.lostAt.isEmpty then
      .next { s with
        msgs := s.msgs.filter fun (x : Msg) => x.id != id
        clusters := s.clusters.map fun (p : Nat × Cluster) => (p.1, { p.2 with applied := p.2.applied.filter (· != id) }) }
    else .next { s with msgs := s.msgs.map fun (x : Msg) => if x.id = id then { x with retained := false } else x }

/-- Frames of a group that have failed at a cluster within the last 20 µs. -/
def State.failedFrames (s : State) (c bus group : Nat) : Nat :=
  (((s.cluster c).fails.filter fun f => f.1 == bus && f.2.1 == group && s.now < f.2.2.1 + 20000).map fun f => f.2.2.2).sum

/-- R51: after 16 failed frames within 20 µs the group is dead and reported; 2 µs without its pilot are more. -/
def execGroupDead (c bus group : Nat) (s : State) : Out :=
  if 192 ≤ c ∨ 16 ≤ bus ∨ 200 ≤ group ∨ s.deadGroups.contains (bus, group) ∨ s.failedFrames c bus group < 16 then .next s
  else .next ({ s with deadGroups := s.deadGroups ++ [(bus, group)] }.linkMessage c)

/-- R53: a hole unresolved after 100 µs. -/
def execHoleTimeout (c bus : Nat) (s : State) : Out :=
  match (s.cluster c).holes.find? fun h => h.bus == bus && !h.told && h.frame + 100000 ≤ s.now with
  | none => .next s
  | some h =>
    let t := s.modCluster c fun x => { x with holes := x.holes.map fun (y : Hole) => if y = h then { y with told := true } else y }
    .next ((t.openMessage kindMachineCheck c).bboxOpen (fieldOfCluster c) 3)

/-! ## Beacons (R48, R49) -/

/-- The next beacon that a cluster applies: the next in number, received and not lost there (R48). A region in RESTART applies beacons once
its tables are in (R56). -/
def State.nextBeacon (s : State) (c : Nat) : Option Beacon :=
  if 192 ≤ c ∨ !s.forwards (regionOf c) then none
  else s.beacons.find? fun b => b.seq == (s.cluster c).beaconAt && b.frame ≤ (s.cluster c).rxTo && !b.lostAt.contains c

def State.beaconApplied (s : State) (c : Nat) : State := s.modCluster c fun x => { x with beaconAt := x.beaconAt + 1 }

/-- The beacon cluster that the regions' states name. -/
def State.namedBeaconCluster (s : State) : Option Nat :=
  if (s.region 0).st = .on then some 0 else (List.range 192).find? fun k => (s.region (regionOf k)).st == .on

/-- A beacon that was kept leaves the beacon cluster; a halt of the host is noted as issued now (R303). -/
def State.sendKept (s : State) (k : Nat) (b : Beacon) : State :=
  match b.kind with
  | .halt on 0 _ => (s.launchBeacon k b).noteHalt on 0 0
  | _ => s.launchBeacon k b

/-- R49: the new beacon cluster sends the beacons kept, with their numbers. -/
def execBeaconClusterHandover (s : State) : Out :=
  match s.namedBeaconCluster with
  | none => .next s
  | some k => .next (s.beaconsKept.foldl (fun s b => s.sendKept k b) { s with bclu := k, beaconsKept := [] })

/-- R48, R49: a time beacon from the beacon cluster in every frame that is a multiple of 1,024. -/
def execTimeBeaconSend (s : State) : Out :=
  let sent := s.beacons.any fun b => b.kind == .time && s.now < b.frame
  .next (if (s.region (regionOf s.bclu)).st == .on && s.beaconsKept.isEmpty && s.now % 1024 == 0 && !sent then s.sendBeacon s.bclu .time else s)

/-- R456: from a time beacon on, every core that is ahead slews back. -/
def State.slewCores (s : State) (c : Nat) : State :=
  (clusterCores c).foldl (fun (s : State) q =>
    if (s.core q).ltsLead = 0 then s
    else
      let a := s.ltsAhead q
      s.modCore q fun k => { k with ltsLead := a, ltsSlew := if a = 0 then none else some s.now }) s

/-- R50: a cluster that is behind adds the difference; one that is ahead waits; both report it. -/
def execTimeBeacon (c : Nat) (s : State) : Out :=
  match s.nextBeacon c with
  | some b =>
    if b.kind ≠ .time then .next s
    else
      let x := s.cluster c
      let s := (s.beaconApplied c).slewCores c
      if x.frames = s.now then .next s
      else
        let d : Int := (s.now : Int) - x.frames
        let s := s.modCluster c fun y => if y.frames < s.now then { y with frames := s.now } else { y with stall := y.frames - s.now }
        let p := Config.freeValue s.freeCtr
        let s := { s with freeCtr := s.freeCtr + 1 }.message kindLink c 0x10 p.toNat
        .next (s.bboxEvent (fieldOfCluster c) 9 c (wrap 56 d))
  | none => .next s

/-- A logical core's own cluster takes up its new entry. Another physical core has its own deck, scratchpad, caches and registers, of which
nothing stands before (R12, R23); a valid entry that is not retired takes a core out of reset (R56). What a slice copy held goes on, the copied slice
as it stands then (R295). -/
def State.takeEntry (s t : State) (core : Nat) (e : Word) : State :=
  let old := s.physOf core
  let t := match s.slHeld with
    | some (src, p) =>
      if src = core then
        { (if entryV e && entryPhys e == p && !s.slcopy.getLsbD 63 then t.copySlice old p else t) with slHeld := none }
      else t
    | none => t
  if !entryV e then t
  else
    let k := t.core core
    let inReset := k.inReset && entryRet e
    let fresh : CoreSt := { inReset, held := k.held, drained := k.drained, recQ := k.recQ, recHeadAt := k.recHeadAt, gangs := [(handlerSlot, freshHandler core)] }
    if entryPhys e = old ∧ entryV (s.tableAt (clusterOf core) core) then t.setCore core { k with inReset }
    else t.setCore core fresh

/-- R27: the routers of a cluster apply an update: the entry of each is written, and what it held for the old one goes on (R26). -/
def execTableUpdateBeacon (c : Nat) (s : State) : Out :=
  match s.nextBeacon c with
  | some b =>
    (match b.kind with
     | .table core e =>
       let t := (s.beaconApplied c).modCluster c fun x => { x with epoch := x.epoch + 1 }
       let rs := ((t.badEntries ++ t.softEntries).filter fun p => p.2 == core && t.routerCluster p.1 == c).map (·.1)
       let t := rs.foldl (fun s r => s.unhold r core) t
       .next (if clusterOf core = c then s.takeEntry t core e else t)
     | _ => .next s)
  | none => .next s

/-- The messages that a rebound writer sends once more: those retained that were sent, or begun, on its old group in the last 40 µs; each
with the frame in which its retransmission ends, the first behind the end marker (R53). -/
def resend (now : Nat) : Nat → List Msg → List (Nat × Nat)
  | _, [] => []
  | at_, m :: l => (m.id, at_ + m.frames) :: resend now (at_ + m.frames) l

/-- A writer moves to a new group (R52, R53): an end marker, what it has retained once more, and behind it what it has not begun. The pilots
of every group on the bus are checked again. -/
def State.rebind (s : State) (k bus old new : Nat) : State :=
  let mine := (s.msgs.filter fun m => m.bus == bus && m.writer == k && m.group == old && m.start ≤ s.now && m.retained &&
    s.now ≤ m.done + 40000).foldl (fun l m => insertMsg m l) []
  let again := resend s.now (s.now + 1) mine
  let n := 1 + (mine.map (·.frames)).sum
  let last := ((s.msgs.filter fun m => m.bus == bus && m.writer == k && m.group == old && m.start ≤ s.now).map (·.done)).foldl max s.now
  let s := s.pushBack bus k n 0 new
  { s with
    msgs := s.msgs.map fun (m : Msg) =>
      match again.find? (·.1 == m.id) with
      | some p => { m with resent := p.2 }
      | none => m
    endMarks := s.endMarks ++ [{ bus, writer := k, group := old, last, ends := s.now + n }]
    deadGroups := s.deadGroups.filter fun p => p.1 != bus }

/-- R52, R53: every cluster reads the writer on its new group; the writer's own application moves it there. -/
def execGroupBindBeacon (c : Nat) (s : State) : Out :=
  match s.nextBeacon c with
  | some b =>
    (match b.kind with
     | .bind bus k g =>
       let t := (s.beaconApplied c).modCluster c fun x => { x with bindEpoch := x.bindEpoch + 1 }
       .next (if k = c ∧ s.groupOf bus k ≠ g then t.rebind k bus (s.groupOf bus k) g else t)
     | _ => .next s)
  | none => .next s

/-! ## Halts (R300 to R302) -/

/-- R301: issue stops; engines, walkers, hubs and admissions of the cluster pause. -/
def execHaltBeacon (c : Nat) (s : State) : Out :=
  match s.nextBeacon c with
  | some b =>
    (match b.kind with
     | .halt true _ _ =>
       let t := s.beaconApplied c
       .next (if (t.cluster c).halted then t
         else t.modCluster c fun x => { x with halted := true, haltAt := s.now, haltCyc := s.cycles c })
     | _ => .next s)
  | none => .next s

/-- Where a frozen clock's start lies after a halt of `at_` to `now`: what had passed before the halt has passed; one that started in it starts
at its end (R302). -/
def resumeAt (at_ now t : Nat) : Nat := if t < at_ then t + (now - at_) else now

/-- A gang's frozen bounds run on, by `d` in time and by `n` in core cycles (R302). -/
def Gang.thaw (g : Gang) (d n : Nat → Nat) : Gang :=
  { g with
    parkAt := g.parkAt.map n
    waits := g.waits.map fun (w : Wait) => { w with since := n w.since }
    saveReq := g.saveReq.map d
    rowAt := g.rowAt.map d }

/-- The same of a core. -/
def CoreSt.thaw (k : CoreSt) (d n : Nat → Nat) : CoreSt :=
  { k with
    gangs := k.gangs.map fun (p : Nat × Gang) => (p.1, p.2.thaw d n)
    recHeadAt := k.recHeadAt.map fun (p : Nat × Nat) => (p.1, d p.2)
    recBlockAt := k.recBlockAt.map fun (p : Nat × Option Nat) => (p.1, p.2.map d)
    calleeAt := k.calleeAt.map fun (p : Nat × Option Nat) => (p.1, p.2.map d)
    feWait := k.feWait.map fun (w : FeWaiter) => { w with since := n w.since }
    holds := k.holds.map fun (p : Nat × Option Hold) => (p.1, p.2.map fun (h : Hold) => { h with since := n h.since }) }

/-- The hub, and the walkers of a field. -/
def State.thawField (s : State) (f : Nat) (d : Nat → Nat) : State :=
  let h := s.hub f
  let s := s.setHub f
    { h with
      lists := h.lists.map fun (l : HubList) => { l with since := d l.since, blockedAt := l.blockedAt.map d }
      backoff := h.backoff.map d }
  { s with walkers := s.walkers.map fun (p : Nat × Walker) =>
      if p.1 / 8 = f then
        (p.1, { p.2 with run := p.2.run.map fun (r : Run) =>
          { r with firings := r.firings.map fun (x : Firing) => { x with at_ := d x.at_, stallAt := x.stallAt.map d } } })
      else p }

/-- R302: what had paused runs on where it stopped. The hub and the walkers of a field follow its lowest cluster. -/
def execResumeBeacon (c : Nat) (s : State) : Out :=
  match s.nextBeacon c with
  | some b =>
    (match b.kind with
     | .halt false _ _ =>
       let t := s.beaconApplied c
       let x := t.cluster c
       if !x.halted then .next t
       else
         let d := resumeAt x.haltAt s.now
         let n := resumeAt x.haltCyc (s.cycles c)
         let t := t.modCluster c fun y => { y with halted := false }
         let t := { t with
           cores := t.cores.map fun (p : Nat × CoreSt) => if clusterOf p.1 = c then (p.1, p.2.thaw d n) else p
           packets := t.packets.map fun (p : Packet) => if t.routerCluster p.at_ = c then { p with portAt := d p.portAt } else p
           blocks := t.blocks.map fun (p : Nat × Block) =>
             if clusterOf p.2.origin = c then (p.1, { p.2 with saveReq := p.2.saveReq.map fun q => (d q.1, q.2) }) else p }
         .next (if (fieldClusters (fieldOfCluster c)).head? = some c then t.thawField (fieldOfCluster c) d else t)
     | _ => .next s)
  | none => .next s

end Sys2Proof.Machine
end

