-- ==== Sys2Proof/Machine/MemSys.lean ====
section
/-! DEFINITION. The memory system's own steps: superblocks, evictions, home slices, responses, acknowledgements and page walks
(R28, R170, R172, R188 to R191, R199, R200, R273). -/

namespace Sys2Proof.Machine

/-! ## Superblocks (R188, R189) -/

/-- The pending accesses that wait for a message and may now be performed, oldest first. -/
def State.performWaiting (s : State) (msg : Nat) : State :=
  ((s.pends.filter fun p => p.msg == some msg).map (·.id)).foldl (fun s id =>
    match s.pend? id with
    | some p => if s.canPerform p then s.performPend p else s
    | none => s) s

/-- Can the core that answers a request send its data now? The home waits for an evicted superblock's data, and while its slice is being copied
(R189, R295). -/
def State.supplied (s : State) (r : SbReq) : Bool :=
  match r.sup with
  | none => false
  | some q => q != homeCoreOf r.sb || (!s.evicting.contains r.sb && !s.homeHeld q)

/-- The packet of a request's data. -/
def State.supplyPacket (s : State) (msg : Nat) : Option Packet := s.packets.find? fun p => p.body == .supply msg

/-- A requester whose data is there answers the snoops ordered behind its own, in bus order (R189): its state after them, and the requests that
it supplies. -/
def State.answerBehind (s : State) (c : Nat) (sb : Nat) : List (Snoop × Nat) → State
  | [] => s
  | (k, m) :: l =>
    let st := s.moesiOf c sb
    let s := if st.supplies then s.answerReq m (transmitter c) else s
    State.answerBehind (if st = .i then s else s.setMoesi c sb (st.after k)) c sb l

/-- The requester takes its state, its accesses go on, and it answers the snoops behind its own. -/
def State.takeSuperblock (s : State) (c sb : Nat) (r : SbReq) : State :=
  let st : Moesi := if r.kind = .rs then (if r.alone then .e else .s) else .m
  let t := { s.setMoesi c sb st with sbReqs := s.sbReqs.filter fun q => !(q.msg == r.msg) }
  ((t.performWaiting r.msg).evictCoherent c sb).answerBehind c sb r.behind

/-- R188, R189: the supplier sends the superblock as one response over the mesh (R33); once it has arrived, or at once for an UP, which needs no
data, the requester takes its state. -/
def execSuperblockResponse (c sb : Nat) (s : State) : Out :=
  match s.sbReqs.find? fun r => r.cluster == c && r.sb == sb && r.placed with
  | none => .next s
  | some r =>
    if !s.l2RoomOpen c sb then .next s
    else if r.kind = .up then .next (s.takeSuperblock c sb r)
    else if !r.sent then
      match r.sup with
      | some q =>
        if s.supplied r then
          let t := s.respond q (transmitter c) (.supply r.msg)
          .next { t with sbReqs := t.sbReqs.map fun (x : SbReq) => if x.msg = r.msg then { x with sent := true } else x }
        else .next s
      | none => .next s
    else
      match s.supplyPacket r.msg with
      | some p => if p.arrived then .next ((s.dropPacket p.id).takeSuperblock c sb r) else .next s
      | none => .next s

/-- R189: the home takes the data of an evicted superblock that has reached it. -/
def execEvictionDataArrive (sb : Nat) (s : State) : Out :=
  match s.packets.find? fun p => p.body == .evict sb && p.arrived && !p.ret with
  | none => .next s
  | some p =>
    if s.standsFor p && s.inTurn p && !s.homeHeld p.dst then .next { s.dropPacket p.id with evicting := s.evicting.erase sb } else .next s

/-! ## Home slices, responses and acknowledgements -/

/-- R190, R191, R295: the home serves an access whose packet has reached it, and its answer travels back on the response plane (R33); while
its slice is copied the access is held. -/
def execHomeRequest (id : Nat) (s : State) : Out :=
  match s.pend? id, s.accessPacket id with
  | some p, some k =>
    if k.arrived ∧ !k.ret ∧ s.inTurn k ∧ s.standsFor k ∧ !s.homeHeld k.dst ∧ s.forwards (regionOfPhys k.dstPhys) ∧ s.canPerform p true then
      .next ((s.performPend p true).setPacket (k.back false s.now))
    else .next s
  | _, _ => .next s

/-- A pending access that ends in a cause raises it late against its lane (R273). -/
def State.pendTrap (s : State) (p : Pend) (cause : Nat) : State :=
  let s := s.dropPend p.id
  if p.slot = 16 then s
  else
    s.takeTrap p.core
      { slot := p.slot, causes := [(cause, laneBit p.lane)], inner := if cause = cMachineCheck then p.errSrc else 0, va := BitVec.ofNat 64 p.va
        raised := s.timeAt (clusterOf p.core)
        entry := { p.instr with cause := BitVec.ofNat 8 cause, mask := laneBit p.lane, group := 0 } }

/-- A value reaches its lane: the register, and the latch where it is still the gang's (R134, R137, R273). -/
def State.deliverPend (s : State) (p : Pend) : State :=
  let v := loadExt p.ty p.value.toNat
  let wide := tyBits p.ty = 64
  let s := s.dropPend p.id
  if p.slot = 16 then s
  else
    let i := latchIdx p.slot
    let mine := ((s.core p.core).latches.get {} i).owner.get none p.lat == some p.slot
    let s := if mine then
        s.modCore p.core fun k =>
          let l := k.latches.get {} i
          { k with latches := k.latches.put i { l with vec := l.vec.put (64 * p.lat + p.lane) (BitVec.ofNat 64 v) } }
      else s
    match p.dst with
    | none => s
    | some r =>
      s.modGang p.core p.slot fun g =>
        g.setV (if wide then [(r, p.lane, v % 2 ^ 32), (r + 1, p.lane, v / 2 ^ 32)] else [(r, p.lane, v % 2 ^ 32)])

/-- Does a packet of the access still travel? -/
def State.travels (s : State) (id : Nat) : Bool := (s.accessPacket id).isSome

/-- Has the answer of an access come back: it sent no packet, or the packet is back and no NACK? -/
def State.answerIn (s : State) (id : Nat) : Bool :=
  match s.accessPacket id with
  | none => true
  | some k => k.ret && !k.nack && k.arrived

/-- The answer's packet ends where it is taken up. -/
def State.takeAnswer (s : State) (id : Nat) : State :=
  match s.accessPacket id with
  | none => s
  | some k => s.dropPacket k.id

/-- Performs an access that nothing holds back any more. -/
def State.tryPerform (s : State) (id : Nat) : State :=
  match s.pend? id with
  | some p => if s.canPerform p && !s.travels id then s.performPend p else s
  | none => s

/-- An access in flight that has nothing under way asks anew for what it lacks (R188). -/
def State.askAnew (s : State) (id : Nat) : State :=
  match s.pend? id with
  | some p => if s.lacks p then s.request p else s
  | none => s

/-- R199: a load's or an atomic's answer, or its cause. -/
def execMemoryResponse (id : Nat) (s : State) : Out :=
  let s := (s.tryPerform id).askAnew id
  match s.pend? id with
  | none => .next s
  | some p =>
    if !p.kind.returns ∨ !s.answerIn id then .next s
    else
      match p.failed with
      | some e => .next ((s.takeAnswer id).pendTrap p e)
      | none => .next (if p.performed then (s.takeAnswer id).deliverPend p else s)

/-- R200: a write is performed and acknowledged, or ends in its cause. -/
def execWriteAcknowledge (id : Nat) (s : State) : Out :=
  let s := (s.tryPerform id).askAnew id
  match s.pend? id with
  | none => .next s
  | some p =>
    if p.kind.returns ∨ !s.answerIn id then .next s
    else
      match p.failed with
      | some e => .next ((s.takeAnswer id).pendTrap p e)
      | none => .next (if p.performed then (s.takeAnswer id).dropPend id else s)

/-! ## Page walks (R170, R172) -/

/-- R170: the oldest walk of the cluster fills the TLBs; a walk that faults leaves its access to trap. It comes about when its entries can
be read. -/
def execPageWalk (c : Nat) (s : State) : Out :=
  match (s.cluster c).walks with
  | [] => .next s
  | w :: rest =>
    let q := w.cores.headD ((clusterCores c).headD 0)
    if !(s.walkReads q w.asn w.root w.va).all fun sb => s.cohOpen q (256 * sb) false then .next s
    else
      let t := (s.readWalk q w.asn w.root w.va).modCluster c fun x => { x with walks := rest }
      match s.walk q w.asn w.root w.va with
      | .error _ => .next t
      | .ok e =>
        let n := (s.cluster c).evicts
        let t := t.modCluster c fun x => { x with tlb := tlbInsert 512 16 n e x.tlb, evicts := n + 1 }
        .next (w.cores.foldl (fun (s : State) q => s.modCore q fun k => { k with tlb := tlbInsert 64 8 n e k.tlb }) t)

end Sys2Proof.Machine
end

