-- ==== Sys2Proof/Machine/Recipes.lean ====
section
/-! DEFINITION. The recipe instructions (R259 to R269, R433 to R435). -/

namespace Sys2Proof.Machine

/-! ## Bodies (R261) -/

/-- A body's latches written so far: l for the lanes' part, 4 + l for the scalar part. -/
abbrev Written := List Nat

/-- Is a source of a body legal, as an operand of class `k`? -/
def bodySrcOk (i : Instr) (k : Cls) (w : Written) (x : Src) : Bool :=
  match k with
  | .none => x.isZero
  | .s =>
    (match i, x with
     | .ld _, .reg _ => true
     | _, _ => false)
  | .m =>
    (match x with
     | .latch l => w.contains (4 + l.toNat)
     | .imm _ => true
     | _ => false)
  | _ =>
    (match x with
     | .reg _ | .imm _ | .konst => true
     | .latch l => w.contains l.toNat
     | _ => false)

/-- Which instructions a body may hold. -/
def bodyKind (sp : OpSpec) (f : Fields) (i : Instr) : Bool :=
  sp.grp == 2 || sp.grp == 3 || (sp.grp == 4 && sp.op == 0) ||
    (match i with
     | .ld _ => !f.ctl.fmte && f.ctl.sp == 0 && f.ctl.ord == 0
     | _ => false)

/-- One instruction of a body. -/
def bodyInstrOk (w : Written) (i : Instr) : Bool :=
  match opSpec i, i.fields? with
  | some sp, some f =>
    encodingOk sp f && bodyKind sp f i && f.pfx.isNone && f.guard == ⟨false, 0⟩ && f.nwb &&
      bodySrcOk i sp.a w f.a && bodySrcOk i sp.b w f.b && bodySrcOk i sp.c w f.c
  | _, _ => false

/-- The body's instructions in order; the last result is 32 bits per lane. -/
def bodyListOk : Written → List Instr → Bool
  | _, [] => true
  | w, i :: rest =>
    bodyInstrOk w i &&
      (match opSpec i, i.fields? with
       | some sp, some f =>
         (!rest.isEmpty || (sp.dst != .m && !sp.dst.wide f)) &&
           bodyListOk (w ++ [if sp.dst == .m then 4 + f.lat.toNat else f.lat.toNat]) rest
       | _, _ => false)

/-- Bits of an instruction in BCOPY. -/
def instrBits (i : Instr) : Nat :=
  match i.fields? with
  | some f => (baseBits i f).toNat
  | none => 0

def mkCopy (l : List Instr) : BitVec 512 := BitVec.ofNat 512 (packList 128 (l.map instrBits))

/-- What fetching a body comes to: the instructions and the addresses read, a fetch fault, an ill-formed word, or an address whose word has
to be waited for. -/
inductive BodyFetch where
  | fault (cause : Nat) (va : DWord)
  | bad
  | waits (va : DWord)
  | ok (l : List Instr) (read : List DWord)
  deriving DecidableEq, Repr

/-- Fetches `n` instructions, pad words passed over. -/
def State.fetchBody (s : State) (c : Nat) (g : Gang) : Nat → Nat → DWord → BodyFetch
  | 0, _, _ => .bad
  | _ + 1, 0, _ => .ok [] []
  | fuel + 1, n + 1, pc =>
    if !s.walkOpen c (s.space g).1 (s.space g).2 pc.toNat then .waits pc
    else
    match s.codeAt c g pc with
    | .error e => .fault e pc
    | .ok t =>
      if !s.codeOpen c t then .waits pc
      else
      match decodeUnit (blockBytes (s.codePeek c t) t.pa) with
      | .bad _ => .bad
      | .pad => State.fetchBody s c g fuel (n + 1) (pc + 4)
      | .instr i len =>
        match State.fetchBody s c g fuel n (pc + BitVec.ofNat 64 len) with
        | .ok l r => .ok (i :: l) (pc :: r)
        | x => x

/-! ## The instructions -/

/-- What a tag comes to: a cause, with what its frame says, a fetch or a run to be waited for, or the entry and its value by lane. -/
inductive Tag where
  | cause (c : Causes) (fetch : Bool) (va : DWord) (inner rcp : Nat)
  | fetching (va : DWord)
  | running (ops : List Nat) (e : ReplayErr)
  | ok (x : Recipe) (read : List DWord) (vals : List (Nat × Nat))
  deriving DecidableEq, Repr

/-- The run of a new entry's body (R263, R434): a fault raises its own cause, a replay inside it RECIPE_FAULT. -/
def State.tagRun (s : State) (n : Nat) (x : Recipe) (l : List Instr) (read : List DWord) (ex : Mask) : Tag :=
  let c := s.focus.core
  let g := s.me
  let run := (lanesOf ex).map fun j => (j, s.runBody c g n j (fun q => s.readV c g 32 q j) l [] 0)
  let errs : List (Nat × ReplayErr) := run.filterMap fun p => match p.2 with
    | .error e => some (p.1, e)
    | .ok _ => none
  match errs.find? fun p => p.2.waits with
  | some p => .running x.vecOps p.2
  | none =>
    if errs.isEmpty then
      .ok x read (run.filterMap fun p => match p.2 with
        | .ok v => some (p.1, v)
        | .error _ => none)
    else
      let causes := errs.foldl (fun acc p => Causes.add (if p.2.rcp = n then p.2.inner else cRecipeFault) (laneBit p.1) acc) []
      let nested := (errs.find? fun p => p.2.rcp ≠ n).map (·.2)
      let va := ((errs.find? fun p => p.1 = Causes.reportedLane causes).map (·.2.va)).getD 0
      .cause causes false va ((nested.map (·.inner)).getD 0) ((nested.map (·.rcp)).getD 0)

/-- R434: the entry, the lanes, the fetch, the body and vD, and the run, in this order. A body may hold any number of pad words: as many
words are tried as the address space has. -/
def State.tagCheck (s : State) (f : Fields) (ex : Mask) : Tag :=
  let c := s.focus.core
  let g := s.me
  let n := f.a.immNat
  let r := dstReg g f
  let body := s.focus.pc + BitVec.ofInt 64 (4 * dispOf f f.b)
  let bad : Tag := .cause [(cRecipeBad, ex)] false 0 0 0
  if (g.recipe n).act || body.toNat % 64 != 0 || ex != g.liveLanes then bad
  else
    match s.fetchBody c g (2 ^ 62) f.c.immNat body with
    | .fault e va => .cause [(e, ex)] true va 0 0
    | .bad => bad
    | .waits va => .fetching va
    | .ok l read =>
      let x : Recipe := { bcopy := mkCopy l, body, act := true, nm1 := BitVec.ofNat 2 (f.c.immNat - 1), treg := BitVec.ofNat 11 r }
      if !bodyListOk [] l || x.vecOps.contains r || (g.droppedAs r).isSome || (g.tagOf r).isSome then bad
      else if x.vecOps.any (fun q => g.nregs ≤ q) then .cause [(cRegRange, ex)] false 0 0 0
      else s.tagRun n x l read ex

/-- What a tag is to the frame of R434: its registers are read, and faults of the entry's replays come after its own causes. -/
def Tag.plan (t : Tag) : Plan :=
  match t with
  | .cause c fetch va inner rcp =>
    { checks := fun _ => c, va := fun _ => va, fetch, inner, rcp, late := true }
  | .fetching va => { stall := fun _ => true, walks := fun _ => [va.toNat] }
  | .running ops e => { reads := ops, need := some e, late := true }
  | .ok x _ _ => { reads := x.vecOps, late := true }

/-- R434. -/
def execRtag (f : Fields) (s : State) : Out :=
  let tag := s.tagCheck f (s.execLanes f)
  s.run (.rtag f) f (fun _ => tag.plan)
    fun _ s ex _ =>
      match tag with
      | .ok x read vals =>
        let c := s.focus.core
        let g := s.me
        let s := read.foldl (fun (s : State) pc => match s.codeAt c g pc with
          | .ok t => (s.queueWalk c (s.space g).1 (s.space g).2 pc.toNat).codeFill c t
          | .error _ => s) s
        let s := s.wrV f false ex 0 fun j => ((vals.find? fun p => p.1 = j).map (·.2)).getD 0
        .next ((s.modMe fun g => { g with rcp := g.rcp.put f.a.immNat x }).finish)
      | _ => .next s.finish

/-- The register that A names. -/
def State.regA (s : State) (f : Fields) : Nat := (srcReg s.me f.ka f.a).getD 0

/-- R264, R435. -/
def execRdrop (f : Fields) (s : State) : Out :=
  let r := s.regA f
  s.run (.rdrop f) f
    (fun _ =>
      { checks := fun ex =>
          let operand := (List.range 32).any fun n => (s.me.recipe n).act && (s.me.recipe n).vecOps.contains r
          Causes.addIf ((s.me.tagOf r).isNone || operand) cRecipeBad ex []
        stall := fun _ => s.me.matrixHolds [r] || s.landing [r] })
    fun _ s _ _ =>
      match s.me.tagOf r with
      | none => .next s.finish
      | some n =>
        if (s.me.recipe n).drop then .next s.finish
        else
          .next ((s.modMe fun g =>
            { g with
              v := g.v.drop fun k => k / 64 == r
              rcp := g.rcp.put n { g.recipe n with drop := true } }).finish)

/-- R266, R435. -/
def execRmat (f : Fields) (s : State) : Out :=
  let r := s.regA f
  s.run (.rmat f) f
    (fun _ =>
      { checks := fun ex => Causes.addIf (s.me.tagOf r).isNone cRecipeBad ex []
        reads := if (s.me.droppedAs r).isSome then [r] else []
        mat := [r] })
    fun _ s _ _ => .next s.finish

/-- R266, R435. -/
def execRclr (f : Fields) (s : State) : Out :=
  let n := f.a.immNat
  let e := s.me.recipe n
  let r := e.treg.toNat
  s.run (.rclr f) f
    (fun _ =>
      { reads := if e.act && e.drop then [r] else []
        mat := if e.act then [r] else [] })
    fun _ s _ _ =>
      if (s.me.recipe n).act then .next ((s.clearRecipe s.focus.core s.focus.slot n).finish) else .next s.finish

end Sys2Proof.Machine
end

