-- ==== Sys2Proof/Machine/Traps.lean ====
section
/-! DEFINITION. Trap frames, the entry of the handler and its return: HANDLER_ENTRY and `rtrap` (R274 to R281, R305, R459, R471). -/

namespace Sys2Proof.Machine

/-! ## The frame (R277, R278) -/

/-- The replay queue of a trap: its entries, then what the gang had still to re-issue. -/
def TrapRec.queue (t : TrapRec) (g : Gang) : List Replay := (t.entry :: t.more.map (·.1) ++ g.replay).take 16

/-- Word number of a field of replay entry n. -/
def entryWord (n k : Nat) : Nat := 512 + 384 * n + k

/-- The words of one replay entry. -/
def Replay.words (r : Replay) (n : Nat) : List (Nat × Nat) :=
  [(entryWord n 0, bits r.base.toNat 0 64), (entryWord n 1, bits r.base.toNat 64 64), (entryWord n 2, r.pfx.toNat), (entryWord n 3, r.pc.toNat),
   (entryWord n 4, r.mask.toNat),
   (entryWord n 5, r.cause.toNat + (r.cap.toNat + if r.pfx = 0 then 0 else 32) * 256)] ++
  r.vals.map fun p => (entryWord n (8 + p.1), p.2.toNat)

/-- STAGE of a trap (R270, R471). -/
def TrapRec.stage (t : TrapRec) : Nat := if t.ended then 5 else stageOf ((t.causes.head?.map (·.1)).getD 0)

/-- Latches that the trapped gang wrote. -/
def TrapRec.valid (t : TrapRec) : Nat :=
  (List.range 4).foldl (fun a l => if t.lats.owner.get none l = some t.slot then a + 2 ^ l else a) 0

/-- The 8-byte words of a frame, by word number; every other word is zero. -/
def TrapRec.frame (t : TrapRec) (g : Gang) (ttake : Nat) : List (Nat × Nat) :=
  let q := t.queue g
  let cs := t.causes.take 8
  [(0, (cs.head?.map (·.1)).getD 0 + t.inner.toNat * 2 ^ 8 + t.rcp.toNat * 2 ^ 16 + t.stage * 2 ^ 21 + t.slot * 2 ^ 24 +
      (if t.fetch then 2 ^ 28 else 0) + q.length * 2 ^ 32),
   (1, t.entry.pc.toNat), (2, t.va.toNat), (3, t.raised), (4, ttake),
   (5, (cs.zipIdx.map fun p => p.1.1 * 2 ^ (8 * p.2)).sum)] ++
  (cs.zipIdx.map fun p => (6 + p.2, p.1.2.toNat)) ++
  ((List.range 256).map fun k => (32 + k, (t.lats.vec.get 0 k).toNat)) ++
  ((List.range 4).map fun l => (288 + l, (t.lats.sca.get 0 l).toNat)) ++
  [(292, t.valid + t.slot * 16)] ++
  (q.zipIdx.flatMap fun p => p.1.words p.2)

/-- Words of a frame. -/
def frameWords : Nat := 8192

/-- A frame as a table of its words. -/
def TrapRec.table (t : TrapRec) (g : Gang) (ttake : Nat) : SMap Nat := SMap.putAll [] (t.frame g ttake)

/-- VA of core n's frame (R275). -/
def State.frameVa (s : State) (c : Nat) : Nat := bits s.hfbase.toNat 17 40 * 2 ^ 17 + c * 0x10000

/-! ## Entry (R274 to R276, R280, R281) -/

/-- The handler starts a body at HENTRY with s1, s3 and s4. -/
def State.startHandler (s : State) (c s1 s3 s4 : Nat) : State :=
  let stamp := Config.freeValue s.freeCtr
  let s := { s with freeCtr := s.freeCtr + 1 }
  s.modGang c handlerSlot fun g =>
    { { g with kind := .handler }.fresh 0xffff (BitVec.ofNat 64 (bits s.hentry.toNat 0 57))
        [(1, BitVec.ofNat 64 s1), (3, BitVec.ofNat 64 s3), (4, BitVec.ofNat 64 s4)] with stampRx := stamp }

/-- Can the 64 KiB at a translated place be read, or with `write` written, in one step? -/
def State.frameOpen (s : State) (c : Nat) (p : Trans) (write : Bool) : Bool :=
  (List.range 256).all fun i => s.accessOpen c { p with pa := p.pa + 256 * i } 8 write

/-- Writes a frame at a translated page of the handler, and starts the handler on the trap. -/
def State.serveTrap (s : State) (c : Nat) (t : TrapRec) (rest : List HWork) (p : Trans) : State :=
  let tab := t.table (s.gang c t.slot) (s.timeAt (clusterOf c))
  let s := (List.range frameWords).foldl (fun (s : State) i => s.memWrite c { p with pa := p.pa + 8 * i } 8 (tab.get 0 i)) s
  let va := s.frameVa c
  let s := s.modCore c fun k => { k with work := rest, serving := some (.trap t (BitVec.ofNat 64 va)) }
  s.startHandler c va t.slot ((t.causes.head?.map (·.1)).getD 0)

/-- R276: the handler takes the next of its work. A frame that cannot be written stops the handler (R280); a trap waits while its
cluster changes frequency (R281). -/
def execHandlerEntry (core : Nat) (s : State) : Out :=
  let k := s.core core
  if !s.coreRuns core ∨ nCores ≤ core ∨ k.hStopped ∨ (s.gang core handlerSlot).live then .next s
  else
    match k.work with
    | [] => .next s
    | .doorbell seq :: rest =>
      let s := s.modCore core fun k => { k with work := rest, serving := some (.monitor seq) }
      .next (s.startHandler core (bits (s.hostRegs.get 0 0x36000).toNat 12 45 * 4096 + 256 * core) 0x1f 0)
    | .trap t :: rest =>
      if (s.cluster (clusterOf core)).nextFreq.isSome then .next s
      else
        let stop (e : Nat) : Out := .next ((s.modCore core fun k => { k with hStopped := true }).coreCheck core e)
        let asn : Half := s.hroot.extractLsb' 48 16
        let root := bits s.hroot.toNat 16 25 * 2 ^ 16
        if !s.walkOpen core asn root (s.frameVa core) then .next s
        else
          let s := s.queueWalk core asn root (s.frameVa core)
          match s.translate core asn root (s.frameVa core) .write with
          | .error e => stop e
          | .ok p =>
            match s.reach core p 8 true with
            | some e => stop e
            | none => if s.frameOpen core p true then .next (s.serveTrap core t rest p) else .next s

/-! ## Return (R279, R459, R471) -/

/-- The trap that the handler of the issuing core serves in slot `a` with frame `b`. -/
def State.served (s : State) (a b : Nat) : Option TrapRec :=
  match s.myCore.serving with
  | some (.trap t f) => if t.slot = a ∧ f.toNat = b ∧ (s.gang s.focus.core a).trapped then some t else none
  | _ => none

/-- Word i of a frame as the handler's reads find it. -/
def State.frameWord (s : State) (b i : Nat) : Nat :=
  match s.translateFor s.focus.core s.me (b + 8 * i) .read with
  | .ok t => s.memPeek s.focus.core t 8
  | .error _ => 0

/-- NQ of a frame. -/
def State.frameNq (s : State) (b : Nat) : Nat := bits (s.frameWord b 0) 32 5

/-- The checks of R279 on a frame and its queue. -/
def State.frameOk (s : State) (t : TrapRec) (b : Nat) : Bool :=
  let g := s.gang s.focus.core t.slot
  let q := t.queue g
  let n := s.frameNq b
  1 ≤ n && n ≤ 16 && bits (s.frameWord b 0) 37 27 == 0 && bits (s.frameWord b 292) 8 24 == 0 &&
    (List.range n).all fun i =>
      let e := q[i]?
      s.frameWord b (entryWord i 0) == (e.map fun r => bits r.base.toNat 0 64).getD 0 &&
        s.frameWord b (entryWord i 1) == (e.map fun r => bits r.base.toNat 64 64).getD 0 &&
        s.frameWord b (entryWord i 2) % 2 ^ 32 == (e.map fun r => r.pfx.toNat).getD 0 &&
        bits (s.frameWord b (entryWord i 5)) 14 2 == 0 &&
        (BitVec.ofNat 64 (s.frameWord b (entryWord i 4)) : Mask) &&& ~~~(g.mreg 0) == 0

/-- Entry i as the handler left it: none where it is dropped. -/
def State.frameEntry (s : State) (t : TrapRec) (b i : Nat) : Option Replay :=
  match (t.queue (s.gang s.focus.core t.slot))[i]? with
  | none => none
  | some r =>
    let w5 := s.frameWord b (entryWord i 5)
    let mask : Mask := BitVec.ofNat 64 (s.frameWord b (entryWord i 4))
    let cap : BitVec 4 := BitVec.ofNat 4 (bits w5 8 4)
    if w5.testBit 12 || mask == 0 || (t.fetch && i == 0) then none
    else
      some { r with
        mask, cap, cause := BitVec.ofNat 8 (bits w5 0 8)
        pc := BitVec.ofNat 64 (s.frameWord b (entryWord i 3))
        vals := SMap.putAll [] (((List.range 256).filter fun k => cap.getLsbD (k / 64)).map fun k =>
          (k, BitVec.ofNat 64 (s.frameWord b (entryWord i (8 + k))))) }

/-- Lanes of a dropped precise entry continue after it. -/
def Gang.passEntry (g : Gang) (t : TrapRec) (i : Nat) : Gang :=
  match (t.queue g)[i]? with
  | none => g
  | some r =>
    if t.fetch && i == 0 then g
    else
      { g with lanes := g.lanes.putAll (((lanesOf r.group).filter fun j => (g.lane j).pc == r.pc && g.running j).map fun j =>
          (j, { g.lane j with pc := r.pc + BitVec.ofNat 64 r.len })) }

/-- The `callq` whose return an entry of the frame names (log entry 52). -/
def Gang.returnOf (g : Gang) (t : TrapRec) (i : Nat) : Option Nat :=
  match (t.queue g)[i]? with
  | some r => (g.callIns.find? fun q => q.2.seq == r.seq && q.2.pc == r.pc).map (·.1)
  | none => none

/-- The lanes of a `callq` run again with what they hold: its entry has been dropped. -/
def Gang.wakeCall (g : Gang) (call : Nat) : Gang :=
  let ls := (List.range 64).filter fun j => (g.lane j).susp && (g.lane j).call == call
  { g with callIns := g.callIns.filter fun q => q.1 != call
           lanes := g.lanes.putAll (ls.map fun j => (j, { g.lane j with susp := false, call := 0 })) }

/-- Loads the latches of the gang's issue slot from the frame, with their validity. -/
def State.reloadLatches (s : State) (t : TrapRec) (b : Nat) : State :=
  let valid := s.frameWord b 292
  let l : Latches :=
    { vec := SMap.putAll [] ((List.range 256).map fun k => (k, BitVec.ofNat 64 (s.frameWord b (32 + k))))
      sca := SMap.putAll [] ((List.range 4).map fun k => (k, BitVec.ofNat 64 (s.frameWord b (288 + k))))
      owner := SMap.putAll [] ((List.range 4).map fun k => (k, if valid.testBit k then some t.slot else none)) }
  s.modCore s.focus.core fun k => { k with latches := k.latches.put (t.slot % 4) l }

/-- RETURNING FROM A TRAP: latches reloaded, the queue re-issued, the gang eligible unless a further trap of it waits. -/
def State.resumeTrap (s : State) (t : TrapRec) (b : Nat) : State :=
  let c := s.focus.core
  let n := s.frameNq b
  let entries := (List.range n).map fun i => (i, s.frameEntry t b i)
  let s := s.reloadLatches t b
  let more := (s.core c).work.any fun w => match w with
    | .trap u => u.slot == t.slot
    | _ => false
  let calls := (entries.filter fun p => p.2.isNone).filterMap fun p => (s.gang c t.slot).returnOf t p.1
  let s := calls.foldl (fun (s : State) n => (s.modGang c t.slot fun g => g.wakeCall n).dropReturns n) s
  let s := s.modGang c t.slot fun g =>
    let h := entries.foldl (fun (h : Gang) p => if p.2.isNone then h.passEntry t p.1 else h) g
    { h with replay := entries.filterMap (·.2), trapped := more }
  let s := s.modCore c fun k => { k with serving := none }
  if t.ended then s.tryIdle c t.slot else s

/-- The plan of `rtrap`: its checks, and the wait for the handler's own stores. -/
def State.rtrapPlan (s : State) (sp : OpSpec) : Fields → Plan := fun f =>
  let a := s.sa sp f
  let b := s.sb sp f
  { checks := fun ex =>
      match s.served a b with
      | none => Causes.add cIllegalEncoding ex []
      | some t =>
        match s.translateFor s.focus.core s.me b .read with
        | .error e => Causes.add e ex []
        | .ok _ => Causes.addIf (!s.frameOk t b) cIllegalEncoding ex []
    va := fun _ => BitVec.ofNat 64 b
    walks := fun _ => if (s.served a b).isSome then [b] else []
    stall := fun _ => s.owes (BitVec.allOnes 64) (fun _ => true) ||
      ((s.served a b).isSome && (s.walkWaits [b] ||
        match s.translateFor s.focus.core s.me b .read with
        | .ok p => !s.frameOpen s.focus.core p false
        | .error _ => false))
    hold := fun _ => if (s.served a b).isSome then s.walkHold [b] else none }

/-- R459: resume. -/
def execRtrapResume (f : Fields) (s : State) : Out :=
  s.run (.rtrapResume f) f (fun sp => s.rtrapPlan sp f) fun sp s _ _ =>
    match s.served (s.sa sp f) (s.sb sp f) with
    | some t => .next (s.resumeTrap t (s.sb sp f)).finish
    | none => .next s.finish

/-- R459: kill. -/
def execRtrapKill (f : Fields) (s : State) : Out :=
  s.run (.rtrapKill f) f (fun sp => s.rtrapPlan sp f) fun sp s _ _ =>
    match s.served (s.sa sp f) (s.sb sp f) with
    | some t =>
      let b := (s.gang s.focus.core t.slot).seat.block
      .next ((s.modCore s.focus.core fun k => { k with serving := none }).killBlock b).finish
    | none => .next s.finish

end Sys2Proof.Machine
end

