-- ==== Sys2Proof/Machine/Saves.lean ====
section
/-! DEFINITION. Pre-emption: hints, images, slot saves and block saves, and their restores (R112, R244, R267, R269, R282 to R289, R458). -/

namespace Sys2Proof.Machine

/-! ## What is saved (R269, R283, R284, R458) -/

/-- The octs and scratchpad ranges of a save, and whether it is a forced full one. -/
structure SaveSet where
  forced : Bool
  octs : Nat
  ranges : List (Nat × Nat)
  deriving DecidableEq, Repr

/-- A forced full save. -/
def Gang.fullSave (g : Gang) : SaveSet :=
  { forced := true, octs := 2 ^ g.seat.octs - 1, ranges := [(0, g.seat.spkb * 1024)] }

/-- The hint record at an address; none where it is malformed or cannot be fetched. -/
def State.readHint (s : State) (c : Nat) (g : Gang) (va : DWord) : Option SaveSet :=
  match s.codeAt c g va with
  | .error _ => none
  | .ok t =>
    let v := (s.codePeek c t).toNat
    let range (q : Nat) : Nat × Nat := (bits v (256 + 64 * q) 19, bits v (275 + 64 * q) 19)
    let rs := (List.range 4).map range
    let bad := va.toNat % 64 != 0 || 2 ^ g.seat.octs ≤ bits v 0 256 || (List.range 4).any (fun q => bits v (294 + 64 * q) 26 != 0) ||
      rs.any fun r => r.1 % 16 != 0 || r.2 % 16 != 0 || (r.2 != 0 && decide (g.seat.spkb * 1024 < r.1 + r.2))
    if bad then none else some { forced := false, octs := bits v 0 256, ranges := rs.filter fun r => r.2 != 0 }

/-- The address of the hint record that a stopped gang's save takes. -/
def Gang.hint (g : Gang) : Option DWord := g.saveStop.getD none

/-- Can a stopped gang's hint be read now? One that cannot be fetched is taken for none. -/
def State.hintOpen (s : State) (c : Nat) (g : Gang) : Bool :=
  match g.hint with
  | some va => s.walkOpen c (s.space g).1 (s.space g).2 va.toNat && match s.codeAt c g va with
    | .ok t => s.codeOpen c t
    | .error _ => true
  | none => true

/-- The hint's line comes into the instruction cache, as an instruction's (R186). -/
def State.hintFill (s : State) (c : Nat) (g : Gang) : State :=
  match g.hint with
  | some va =>
    let s := s.queueWalk c (s.space g).1 (s.space g).2 va.toNat
    (match s.codeAt c g va with
     | .ok t => s.codeFill c t
     | .error _ => s)
  | none => s

/-- The save set of a stopped gang: its hint, or everything. -/
def State.saveSet (s : State) (c : Nat) (g : Gang) : SaveSet :=
  match g.hint with
  | some va => (s.readHint c g va).getD g.fullSave
  | none => g.fullSave

/-- Octs that R269 adds: those of the operands of dropped entries. -/
def Gang.forcedOcts (g : Gang) : List Nat :=
  ((List.range 32).flatMap fun n => if (g.recipe n).act && (g.recipe n).drop then (g.recipe n).vecOps.map (· / 8) else []).dedup

/-- Is an oct written to the image? -/
def Gang.savesOct (g : Gang) (x : SaveSet) (k : Nat) : Bool :=
  decide (k < g.seat.octs) && (x.octs.testBit k || g.forcedOcts.contains k) && !g.freedOcts.contains k

/-- Is a byte of the private scratchpad written to the image? -/
def SaveSet.savesByte (x : SaveSet) (o : Nat) : Bool := x.ranges.any fun r => r.1 ≤ o && o < r.1 + r.2

/-! ## The image (R286) -/

/-- Bytes `[8·i, 8·i + 8)` of a number. -/
def word8 (v i : Nat) : Nat := bits v (64 * i) 64

/-- An acquired-set entry as 16 bytes, laid out as a race record (R220; log entry 25). -/
def AcqEntry.bits (a : AcqEntry) : Nat :=
  a.int.toNat + 2 ^ 58 + a.thread.toNat * 2 ^ 62 + a.block.toNat * 2 ^ 80 + a.ltag.toNat * 2 ^ 112

def acqOfBits (v : Nat) : Option AcqEntry :=
  if v.testBit 58 then
    some { ltag := BitVec.ofNat 16 (bits v 112 16), block := BitVec.ofNat 32 (bits v 80 32), thread := BitVec.ofNat 18 (bits v 62 18)
           int := BitVec.ofNat 32 (bits v 0 32) }
  else none

/-- A word of the scratchpad part: bytes outside the saved ranges are zero. -/
def State.spadWord (s : State) (c : Nat) (g : Gang) (x : SaveSet) (o : Nat) : Nat :=
  (List.range 8).foldr (fun k acc =>
    (if o + k < g.seat.spkb * 1024 && x.savesByte (o + k) then s.spadRead c (g.seat.spadBase + o + k) 1 else 0) + 256 * acc) 0

/-- Full-empty bits of 64 granules. -/
def State.feWord (s : State) (c : Nat) (g : Gang) (x : SaveSet) (q : Nat) : Nat :=
  (List.range 64).foldr (fun k acc =>
    let gr := 64 * q + k
    (if gr < g.seat.spkb * 64 && x.savesByte (16 * gr) && s.granFull c (g.seat.spadBase / 16 + gr) then 1 else 0) + 2 * acc) 0

/-- A word of the register part: register r of lanes j and j + 1. -/
def Gang.regWord (g : Gang) (x : SaveSet) (r j : Nat) : Nat :=
  if g.savesOct x (r / 8) && (g.droppedAs r).isNone then (g.vreg r j).toNat + (g.vreg r (j + 1)).toNat * 2 ^ 32 else 0

/-- The 8-byte word `i` of a gang's image; every word not named is zero. `block` says which kind of save it is. -/
def State.imageWord (s : State) (c slot : Nat) (block : Bool) (x : SaveSet) (traps : List TrapRec) (i : Nat) : Nat :=
  let g := s.gang c slot
  let b := s.block g.seat.block
  let p := 8 * i
  let flag (f : Bool) (n : Nat) : Nat := if f then 2 ^ n else 0
  if i = 0 then
    (if block then 2 else 1) + flag x.forced 2 + flag (!traps.isEmpty) 3 + g.seat.octs * 2 ^ 4 + g.seat.gw / 32 * 2 ^ 13 + g.seat.ltag.toNat * 2 ^ 15
  else if i = 1 then b.index + g.seat.gidx * 2 ^ 32
  else if p < 0x100 then 0
  else if p < 0x300 then (g.sreg (i - 32)).toNat
  else if p < 0x380 then (g.mreg (i - 96)).toNat
  else if p < 0x400 then (if !block then 0 else if i = 112 then g.enacc.toNat else if i = 113 then b.bint.toNat else 0)
  else if p < 0x800 then
    let j := (i - 128) / 2
    let l := g.lane j
    if i % 2 = 0 then l.pc.toNat else l.stamp.toNat + flag l.exited 32 + flag l.parked 33 + flag l.susp 34
  else if p < 0x900 then (g.lfsOf (2 * (i - 256))).toNat + (g.lfsOf (2 * (i - 256) + 1)).toNat * 2 ^ 32
  else if p < 0x920 then (List.range 64).foldr (fun k acc => (if g.savesOct x (64 * (i - 288) + k) then 1 else 0) + 2 * acc) 0
  else if p < 0x960 then
    let r := (x.ranges[(i - 292) / 2]?).getD (0, 0)
    if !block then 0 else if i % 2 = 0 then r.1 else r.2
  else if p < 0x1000 then 0
  else if p < 0x3000 then word8 (((((g.acq.get [] ((i - 512) / 16))[(i - 512) % 16 / 2]?).map AcqEntry.bits)).getD 0) (i % 2)
  else if p < 0x3a00 then rcpWord (g.recipe ((i - 0x600) / 10)) ((i - 0x600) % 10)
  else if p < 0x4000 then 0
  else if p < 0x180000 && 0x4000 ≤ p && p < 0x100000 && !block then 0
  else if p < 0x4200 then
    let k := g.ctx ((i - 0x800) / 8)
    match (i - 0x800) % 8 with
    | 0 => k.chring.toNat
    | 1 => k.tlcnt.toNat
    | 2 => k.tliss.toNat
    | 3 => k.done + k.cause.toNat * 2 ^ 56
    | 4 => k.lfs.toNat
    | _ => 0
  else if p < 0x5000 then 0
  else if p < 0x10000 then s.feWord c g x (i - 0xa00)
  else if p < 0x60000 then
    let n := (p - 0x10000) / 0x4800
    if n < g.seat.nwin && (g.win n).en then word8 ((g.win n).image g.seat.gw) ((p - 0x10000) % 0x4800 / 8) else 0
  else if p < 0xa0000 then
    let q := (p - 0x60000) / 4
    let at_ := 2048 * g.seat.tile (q / 2048) + q % 2048
    if q < 2048 * g.seat.amt then ((s.core c).am.get 0 at_).toNat + ((s.core c).am.get 0 (at_ + 1)).toNat * 2 ^ 32 else 0
  else if p < 0x100000 then s.spadWord c g x (p - 0xa0000)
  else if p < 0x180000 then g.regWord x ((p - 0x100000) / 256) ((p - 0x100000) % 256 / 4)
  else
    match traps.head? with
    | some t => (t.table g 0).get 0 (i - 0x30000)
    | none => 0

/-- Words of an image. -/
def imageWords : Nat := 2 ^ 18

/-- Can the whole image be reached now, none of its bytes on their way? -/
def State.imageOpen (s : State) (a : Agent) (va : Nat) (want : Want) : Bool :=
  (s.pends.all fun p => !(p.slot == 16 && !p.performed && p.asn == a.asn && va ≤ p.va && p.va < va + 2 ^ 21)) &&
    (List.range 0x2000).all fun k =>
      match s.agPlace a (va + 0x100 * k) want with
      | .ok _ => true
      | .error _ => false

/-- Writes an image. -/
def State.writeImage (s : State) (c slot : Nat) (block : Bool) (x : SaveSet) (traps : List TrapRec) (va : Nat) : State :=
  let a := s.gangAgent c slot
  (List.range imageWords).foldl (fun (t : State) i => t.hwPut a.core a.asn a.root (va + 8 * i) 8 (s.imageWord c slot block x traps i)) s

/-! ## Reading an image back (R284, R288) -/

/-- Word `i` of the image at an address. -/
def State.imageRd (s : State) (a : Agent) (va i : Nat) : Nat :=
  match s.agPeek a (va + 8 * i) 8 with
  | .ok v => v
  | .error _ => 0

def recipeOfWords (rd : Nat → Nat) (n : Nat) : Recipe :=
  let w (k : Nat) : Nat := rd (0x600 + 10 * n + k)
  { bcopy := BitVec.ofNat 512 ((List.range 8).foldr (fun k acc => w (k + 2) + 2 ^ 64 * acc) 0), body := BitVec.ofNat 64 (w 1)
    act := (w 0).testBit 15, drop := (w 0).testBit 14, nm1 := BitVec.ofNat 2 (bits (w 0) 12 2), treg := BitVec.ofNat 11 (bits (w 0) 0 11) }

/-- The gang of an image: registers, masks, lanes, LFS, race sets and recipes from its words, the rest as it was kept. -/
def Gang.unpack (rest : Gang) (seat : Seat) (rd : Nat → Nat) : Gang :=
  let live (k : Nat) : Bool := (rd (288 + k / 64)).testBit (k % 64)
  { rest with
    seat := { seat with octs := rest.seat.octs }
    s := SMap.putAll [] ((List.range 63).map fun n => (n + 1, BitVec.ofNat 64 (rd (33 + n))))
    m := SMap.putAll [] ((List.range 16).map fun n => (n, BitVec.ofNat 64 (rd (96 + n))))
    lanes := SMap.putAll [] ((List.range 64).map fun j =>
      let q := rd (129 + 2 * j)
      (j, { rest.lane j with pc := BitVec.ofNat 64 (rd (128 + 2 * j)), stamp := BitVec.ofNat 32 (bits q 0 32), exited := q.testBit 32
                             parked := q.testBit 33, susp := q.testBit 34 }))
    lfs := SMap.putAll [] ((List.range 64).map fun j => (j, BitVec.ofNat 32 (bits (rd (256 + j / 2)) (32 * (j % 2)) 32)))
    acq := SMap.putAll [] ((List.range 64).map fun j =>
      (j, (List.range 8).filterMap fun k => acqOfBits (rd (512 + 16 * j + 2 * k) + 2 ^ 64 * rd (513 + 16 * j + 2 * k))))
    rcp := SMap.putAll [] ((List.range 32).map fun n => (n, recipeOfWords rd n))
    v := SMap.putAll [] ((List.range (8 * rest.seat.octs)).flatMap fun r =>
      if live (r / 8) then (List.range 64).map fun j => (64 * r + j, BitVec.ofNat 32 (bits (rd (0x20000 + 32 * r + j / 2)) (32 * (j % 2)) 32)) else [])
    saveStop := none
    saveReq := none
    saveCall := false
    gdbStop := false
    gdbStep := false
    rowAt := none
    rowNeed := 0
    rowGrant := 0
    rowLanes := 0
    stall := none }

/-- Window `n` of an image, or none where a check of R258 fails. -/
def imageWin (gw : Nat) (rd : Nat → Nat) (n : Nat) : Option Win :=
  readWindow gw ((List.range 0x900).foldr (fun k acc => rd (0x2000 + 0x900 * n + k) + 2 ^ 64 * acc) 0)

/-- The parts of a block save's image that a slot save lacks: ENACC, contexts and windows. A handle whose image fails a check is left
undeclared (R258). -/
def Gang.unpackBlock (g : Gang) (rd : Nat → Nat) : Gang :=
  { g with
    enacc := BitVec.ofNat 64 (rd 112)
    ctxs := SMap.putAll [] ((List.range 8).map fun n =>
      let w (k : Nat) : Nat := rd (0x800 + 8 * n + k)
      (n, { g.ctx n with chring := BitVec.ofNat 64 (w 0), tlcnt := BitVec.ofNat 64 (w 1), tliss := BitVec.ofNat 64 (w 2), done := bits (w 3) 0 48
                         cause := BitVec.ofNat 8 (bits (w 3) 56 8), lfs := BitVec.ofNat 32 (bits (w 4) 0 32) }))
    wins := SMap.putAll [] ((List.range g.seat.nwin).map fun n =>
      (n, (imageWin g.seat.gw rd n).getD {})) }

/-- The storage of a restored seat: scratchpad, full-empty bits and tiles. -/
def CoreSt.unpackSeat (k : CoreSt) (x : Seat) (rd : Nat → Nat) : CoreSt :=
  let k := k.clearSeat x
  { k with
    spad := (List.range (x.spkb * 128)).foldl (fun (m : Memory) i => m.writeN (x.spadBase + 8 * i) 8 (rd (0x14000 + i))) k.spad
    spadFE := k.spadFE.putAll ((List.range (x.spkb * 64)).map fun gr => (x.spadBase / 16 + gr, (rd (0xa00 + gr / 64)).testBit (gr % 64)))
    am := k.am.putAll ((List.range (2048 * x.amt)).map fun q => (2048 * x.tile (q / 2048) + q % 2048, BitVec.ofNat 32 (bits (rd (0xc000 + q / 2)) (32 * (q % 2)) 32))) }

/-! ## Draining and saving (R244, R285, R287, R410) -/

/-- A stopped gang has drained: every instruction that it issued is complete, its accesses are performed and answered, its matrix entries
and a matched collective are complete, and the handler serves no trap of it. -/
def State.drainedGang (s : State) (c slot : Nat) : Bool :=
  let g := s.gang c slot
  let ctxDone (n : Nat) : Bool := (g.ctx n).stopped || (g.ctx n).tlcnt == (g.ctx n).tliss
  g.waits.isEmpty && g.posts == 0 && !(s.pends.any fun p => p.core == c && p.slot == slot) && s.bcastClear (clusterOf c) && ctxDone 4 && ctxDone 5 &&
    ((g.ctx 6).stopped || decide ((g.ctx 6).matched ≤ (g.ctx 6).tlcnt.toNat)) &&
    (match (s.core c).serving with
     | some (.trap t _) => t.slot != slot
     | _ => true)

/-- Queued traps of a slot. -/
def CoreSt.trapsOf (k : CoreSt) (slot : Nat) : List TrapRec :=
  k.work.filterMap fun w => match w with
    | .trap t => if t.slot = slot then some t else none
    | .doorbell _ => none

/-- What a gang's storage at its core loses when it is saved: its queued traps go with the image. -/
def State.unhook (s : State) (c slot : Nat) : State :=
  s.modCore c fun k =>
    { k with
      work := k.work.filter fun w => match w with
        | .trap t => t.slot != slot
        | .doorbell _ => true
      rowWait := k.rowWait.filter (· != slot) }

/-- Before a gang's context is written its locks, hold, latches and boost claim end, and a running body is charged its planned filler (R64,
R70, R137, R410). -/
def State.beforeSave (s : State) (c slot : Nat) : State :=
  let s := ((((s.hintFill c (s.gang c slot)).releaseLocks c slot).endHold c slot).forgetLatches c slot).endClaim c slot
  if (s.gang c slot).live then s.chargeFiller c slot else s

/-- A slot save: registers to the image; the slot keeps windows, tiles, scratchpad, contexts and its place (R282). -/
def State.saveSlot (s : State) (c slot : Nat) (i : Nat) : State :=
  let l := s.launch (s.gang c slot).seat.ltag.toNat
  let va := l.imageVa i
  let s := s.beforeSave c slot
  let g := s.gang c slot
  let x := s.saveSet c g
  let traps := (s.core c).trapsOf slot
  let s := s.writeImage c slot false x traps va.toNat
  let s := (s.unhook c slot).modRun l.walker fun r => { r with images := i :: r.images }
  let s := s.modCore c fun k => { k with slotSaves := k.slotSaves ++ [{ slot, va, call := g.saveCall, rest := g, traps }] }
  (s.setGang c slot
    { g with
      live := false, s := [], m := [], v := [], lanes := [], rcp := [], replay := [], waits := [], trapped := false, ending := false, parkAt := none
      callers := [], callIns := [], parent := 0, saveStop := none, saveCall := false, rowAt := none, rowNeed := 0, rowGrant := 0
      rowLanes := 0 }).markCalls c

/-- Writes back the SWM lines of a core at home depth (R289), where their homes answer. -/
def State.backHome (s : State) (c : Nat) : State :=
  let s := (((s.core c).l1.filter fun e => e.2.mask != 0).map (·.1)).foldl (fun s la => s.l1WriteUnit c la) s
  let k := clusterOf c
  (((s.cluster k).l2.filter fun e => e.2.mask != 0).map (·.1)).foldl (fun (s : State) la =>
    if (s.homeCause c (linePa la)).isNone then s.l2WriteUnit k la else s) s

/-- Can the dirty lines of a core and its cluster be written home now? -/
def State.linesOpen (s : State) (c : Nat) : Bool :=
  ((s.core c).l1.filter fun e => e.2.mask != 0).all (fun e => s.homeOpen c (linePa e.1 / 2 ^ 27)) &&
    ((s.cluster (clusterOf c)).l2.filter fun e => e.2.mask != 0).all fun e => s.homeOpen c (linePa e.1 / 2 ^ 27)

/-- Every image of a block is written: it leaves its cores and returns to its hub, at the head of its launch's list (R282). -/
def State.leaveSaved (s : State) (b : Nat) : State :=
  let blk := s.block b
  let cores := s.blockCores b
  let h := fieldOf blk.origin
  let calls := cores.zipIdx.flatMap fun p =>
    ((List.range 16).flatMap fun q => ((s.core p.1).calleeQ.get [] q).filter (·.block == b)).map fun i => (p.2, i)
  let s := cores.foldl (fun (s : State) c => s.backHome c) s
  let s := (s.blockGangs b).foldl (fun (s : State) p => s.dropGang p.1 p.2) s
  let s := cores.foldl (fun (s : State) c =>
    ((s.modCore c fun k => { k with calleeQ := k.calleeQ.map fun (q : Nat × List CallItem) => (q.1, q.2.filter (·.block != b)) }).markCalls c).markIdle c) s
  let s := s.setBlock b { s.block b with placed := false, saved := true, saveReq := none, calls }
  match s.hubList? h blk.ltag with
  | some _ => s.modList h blk.ltag fun y => { y with blocks := blk.index :: y.blocks }
  | none => s.pushBlocks h blk.ltag [blk.index]

/-- Saves one gang of a block, and ends the block save with the last. -/
def State.saveGang (s : State) (c slot b : Nat) : State :=
  let s := s.beforeSave c slot
  let g := s.gang c slot
  let pos := s.coreIndex c g
  match (s.block b).images.find? fun i => i.pos == pos && i.gidx == g.seat.gidx && !i.done with
  | none => s
  | some i =>
    let traps := (s.core c).trapsOf slot
    let saved := (s.core c).slotSaves.find? (·.slot == slot)
    let s := s.writeImage c slot true (s.saveSet c g) traps i.va.toNat
    let s := s.unhook c slot
    let s := s.modBlock b fun x =>
      { x with images := x.images.map fun (j : Image) => if j.va = i.va then { j with done := true, rest := g, traps, saved } else j }
    let s := s.modCore c fun k => { k with slotSaves := k.slotSaves.filter (·.slot != slot) }
    let s := s.setGang c slot { seat := g.seat, saveStop := some none }
    if (s.block b).images.all (·.done) then s.leaveSaved b else s

/-- R285: a stopped gang that has drained is written to its image; a slot save that finds none waits (R287). -/
def execGangSave (core slot : Nat) (s : State) : Out :=
  let g := s.gang core slot
  let b := g.seat.block
  let l := s.launch g.seat.ltag.toNat
  let a := s.gangAgent core slot
  if 15 ≤ slot ∨ !g.seat.used ∨ g.saveStop.isNone ∨ (s.cluster (clusterOf core)).halted ∨ !s.drainedGang core slot ∨ !s.hintOpen core g ∨ !s.linesOpen core then .next s
  else if (s.block b).images.isEmpty then
    match s.freeImages core l 1 with
    | some [i] => .next (if s.imageOpen a (l.imageVa i).toNat .write then s.saveSlot core slot i else s)
    | _ => .next s
  else
    match (s.block b).images.find? fun i => i.pos == s.coreIndex core g && i.gidx == g.seat.gidx && !i.done with
    | some i =>
      .next (if s.imageOpen a i.va.toNat .write && (s.blockCores b).all s.linesOpen then s.saveGang core slot b else s)
    | none => .next s

/-- R283: 20 µs without a hint. -/
def execHintTimeout (core slot : Nat) (s : State) : Out :=
  match (s.gang core slot).saveReq with
  | some t =>
    if slot < 15 ∧ !(s.cluster (clusterOf core)).halted ∧ t + 20000 ≤ s.now then
      .next (s.stopAtHint core slot none)
    else .next s
  | none => .next s

/-! ## Slot saves asked for (R112, R267) -/

/-- The launch of a callee queue that has waited 2 µs with no idle slot. -/
def State.callStarved (s : State) (c : Nat) : Option Half :=
  (List.range 16).findSome? fun q =>
    match (s.core c).calleeAt.get none q, (s.core c).calleeQ.get [] q with
    | some t, i :: _ =>
      if t + 2000 ≤ s.now ∧ !(s.idleSlots c).any fun g => (s.gang c g).seat.ltag == i.ltag then some i.ltag else none
    | _, _ => none

/-- Gangs of a launch that a slot save for callees may take: callers that run, with the number of their oldest `callq`. -/
def State.callVictims (s : State) (c : Nat) (l : Half) : List (Nat × Nat) :=
  (List.range 15).filterMap fun g =>
    let x := s.gang c g
    if x.seat.used && x.live && x.seat.ltag == l && x.saveStop.isNone && (s.block x.seat.block).saveReq.isNone then
      x.calls.min?.map fun n => (g, n)
    else none

/-- Is an image free for a slot save of a gang (R287)? -/
def State.slotImage (s : State) (c g : Nat) : Bool := (s.freeImages c (s.launch (s.gang c g).seat.ltag.toNat) 1).isSome

/-- R112: the suspended caller of the oldest `callq` is saved for its slot, once an image is free. -/
def execCallqSlotPreempt (core : Nat) (s : State) : Out :=
  let busy := (List.range 15).any fun g => (s.gang core g).saveCall
  if !s.admits core ∨ busy then .next s
  else
    match s.callStarved core with
    | none => .next s
    | some l =>
      match (s.callVictims core l).foldl (fun (acc : Option (Nat × Nat)) p =>
        match acc with
        | none => some p
        | some a => if p.2 < a.2 then some p else some a) none with
      | some (g, _) => .next (if s.slotImage core g then s.modGang core g fun x => { x with saveStop := some none, saveCall := true } else s)
      | none => .next s

/-- Slots whose gangs hold rows. -/
def State.rowHolders (s : State) (c : Nat) : List Nat := (List.range 15).filter fun g => (s.gang c g).rows != 0

/-- R267: every holder of rows has waited 10 µs; the gang whose body was admitted last is saved, once an image is free. -/
def execMaterialiseDeadlockSave (core : Nat) (s : State) : Out :=
  let hs := s.rowHolders core
  let stuck := hs.all fun g => ((s.gang core g).rowAt.map fun t => decide (t + 10000 ≤ s.now)).getD false
  if !s.admits core ∨ hs.isEmpty ∨ !stuck ∨ hs.any fun g => (s.gang core g).saveStop.isSome then .next s
  else
    match hs.foldl (fun (acc : Option Nat) g =>
      match acc with
      | none => some g
      | some a => if (s.gang core a).bodyAt < (s.gang core g).bodyAt then some g else some a) none with
    | some g => .next (if s.slotImage core g then s.modGang core g fun x => { x with saveStop := some none } else s)
    | none => .next s

/-! ## Slot restores (R112, R267, R282) -/

/-- A slot-saved gang may return: its slot is idle, its rows are free and its image can be read. -/
def State.slotReady (s : State) (c : Nat) (x : SlotSave) : Bool :=
  let g := s.gang c x.slot
  g.idle && decide (x.rest.seat.octs - x.rest.freedOcts.length ≤ (s.core c).freeFor g.seat) &&
    s.imageOpen (s.gangAgent c x.slot) x.va.toNat .read

/-- A slot-saved gang returns to its slot; its image goes back to the pool. -/
def State.restoreSlot (s : State) (c : Nat) (x : SlotSave) : State :=
  let g := s.gang c x.slot
  let w := (s.launch g.seat.ltag.toNat).walker
  let a := s.gangAgent c x.slot
  let new : Gang := x.rest.unpack g.seat (s.imageRd a x.va.toNat)
  let s := s.setGang c x.slot
    { new with ctxs := g.ctxs, wins := g.wins, enacc := g.enacc, claim := g.claim, saveReq := g.saveReq, trapped := !x.traps.isEmpty, endFaults := g.endFaults }
  let s := s.returnImages w [x.va]
  (s.modCore c fun k =>
    { k with
      work := k.work ++ x.traps.map HWork.trap
      slotSaves := k.slotSaves.filter (·.slot != x.slot) }).markCalls c

/-- R111, R112, R138: the lanes of a `callq` whose items have all returned run again; a caller saved for its slot is restored first. -/
def execCallerResume (core slot : Nat) (s : State) : Out :=
  if 15 ≤ slot ∨ !s.admits core then .next s
  else
    match (s.core core).slotSaves.find? (·.slot == slot) with
    | some x => .next (if x.call && s.slotReady core x && x.rest.calls.all (s.callDone x.rest) then s.restoreSlot core x else s)
    | none =>
      let g := s.gang core slot
      if !g.live || g.saveStop.isSome then .next s
      else
        match g.calls.find? (s.callDone g) with
        | some n => .next (s.answerCall core slot n)
        | none => .next s

/-- R267: the gang that has waited longest takes its rows once they are free; with none waiting, a gang saved out of a deadlock
returns. -/
def execMaterialiseRowGrant (core : Nat) (s : State) : Out :=
  if !s.admits core then .next s
  else
    match (s.core core).rowWait with
    | g :: rest =>
      let x := s.gang core g
      if x.rowNeed ≤ (s.core core).freeFor x.seat then
        .next ((s.modCore core fun k => { k with rowWait := rest }).modGang core g fun y => { y with rowAt := none, rowGrant := y.rowNeed })
      else .next s
    | [] =>
      match (s.core core).slotSaves.find? fun x => !x.call && s.slotReady core x with
      | some x => .next (s.restoreSlot core x)
      | none => .next s

/-! ## Block restores (R288, R289) -/

/-- A core-wide scratchpad address of an old seat at a new one. -/
def moveAddr (old new : Seat) (a : Nat) : Nat := a - old.shareBase + new.shareBase

/-- A trap kept in an image, for the gang's new slot: the latches that it saved are the gang's own there. -/
def TrapRec.moved (t : TrapRec) (slot : Nat) : TrapRec :=
  { t with slot, lats := { t.lats with owner := t.lats.owner.map fun q => (q.1, if q.2 = some t.slot then some slot else none) } }

/-- A restore that meets the image of a declared handle in which a check of R258 fails: the gang traps with WIN_RANGE in its live lanes, before its
next instruction (log entry 54). -/
def State.restoreTrap (s : State) (c slot : Nat) : State :=
  let g := s.gang c slot
  s.takeTrap c
    { slot, causes := [(cWinRange, g.liveLanes)], raised := s.timeAt (clusterOf c)
      entry := { base := 0, pfx := 0, pc := (g.lane (lowLane g.liveLanes)).pc, mask := 0, group := 0, cause := BitVec.ofNat 8 cWinRange, cap := 0
                 vals := [] } }

/-- Restores one gang of a block at a new seat. -/
def State.restoreGang (s : State) (c slot : Nat) (seat : Seat) (i : Image) : State :=
  let a : Agent := { core := c, asn := (s.launch seat.ltag.toNat).asn, root := (s.launch seat.ltag.toNat).root }
  let rd := s.imageRd a i.va.toNat
  let s := s.modCore c fun k => k.unpackSeat seat rd
  let g := (i.rest.unpack seat rd).unpackBlock rd
  let s := (s.forgetLatches c slot).setGang c slot { g with trapped := !i.traps.isEmpty }
  let s := s.modCore c fun k =>
    { k with
      work := k.work ++ i.traps.map fun (t : TrapRec) => HWork.trap (t.moved slot)
      slotSaves := k.slotSaves ++ (i.saved.map fun (x : SlotSave) => { x with slot, traps := x.traps.map fun (t : TrapRec) => t.moved slot }).toList }
  if (List.range seat.nwin).any fun n => (i.rest.win n).en && (imageWin seat.gw rd n).isNone then s.restoreTrap c slot else s

/-- Replaces a queue; another head begins its times anew (R107). -/
def State.setRecs (s : State) (c p : Nat) (l : List QRec) : State :=
  s.modCore c fun k =>
    let same := l.head? == (k.recQ.get [] p).head?
    { k with
      recQ := k.recQ.put p l
      recHeadAt := if same then k.recHeadAt else k.recHeadAt.put p s.now
      recBlockAt := if same then k.recBlockAt else k.recBlockAt.put p none }

/-- A core without a block of a launch re-posts the records of it that it holds, in queue order, to the core at their block position; a record
that a full queue refuses comes back to a core without a block of its launch, which discards it (R105, R289). -/
def State.moveRecords (s : State) (ltag : Half) (old new : Nat) : State :=
  if old = new ∨ s.residentAt old ltag then s
  else
    (List.range 4).foldl (fun (s : State) p =>
      let recs := (s.core old).recQ.get [] p
      let go := (recs.filter fun r => recLtag r.bits == ltag).take (recCap - ((s.core new).recQ.get [] p).length)
      let stay := recs.filter fun r => recLtag r.bits != ltag
      let s := if stay.length = recs.length then s else s.setRecs old p stay
      if go.isEmpty then s else (go.foldl (fun (s : State) r => s.stampAt new r.stamp) s).pushRecs new p go) s

/-- Drops every SWM line of a core's L1 and, written back first, of its cluster's L2 (R192, R289). -/
def State.freshLines (s : State) (c : Nat) : State :=
  let s := s.modCore c fun k => { k with l1 := dropLines k.l1 fun _ => true }
  let s := s.backHome c
  s.modCluster (clusterOf c) fun x => { x with l2 := dropLines x.l2 fun la => (x.l2.get {} la).mask == 0 }

/-- Barrier objects in the block's own scratchpad, after the move. -/
def movedBars (pairs : List (Nat × Nat × Seat × Seat)) (bars : List BarEntry) : List BarEntry :=
  bars.map fun e =>
    if e.spad then
      (match pairs.find? fun p => p.1 == e.core with
       | some p => { e with core := p.2.1, addr := moveAddr p.2.2.1 p.2.2.2 e.addr }
       | none => e)
    else e

/-- Places a saved block at a new origin and reloads its images. -/
def State.restoreBlock (s : State) (b : Nat) (l : Launch) (ltag : Half) (o : Nat) : State :=
  let blk := s.block b
  let olds := rectCores l blk.origin
  let news := rectCores l o
  let s := news.foldl (fun (s : State) c => s.freshLines c) s
  let s := s.setBlock b { blk with placed := true, saved := false, origin := o, images := [], calls := [] }
  let s := s.seatBlock b l ltag o fun c slot x s =>
    match blk.images.find? fun i => i.pos == s.coreIndex c { seat := x } && i.gidx == x.gidx with
    | some i => s.restoreGang c slot x i
    | none => s
  let seatOn (c : Nat) : Seat := (((List.range 15).map fun g => (s.gang c g).seat).find? fun x => x.used && x.block == b).getD {}
  let pairs := (olds.zip news).zipIdx.map fun p =>
    (p.1.1, p.1.2, ((blk.images.find? (·.pos == p.2)).map (·.rest.seat)).getD {}, seatOn p.1.2)
  let s := s.modBlock b fun x => { x with bars := movedBars pairs x.bars }
  let s := s.returnImages l.walker (blk.images.map (·.va))
  let s := (olds.zip news).foldl (fun (s : State) p => s.moveRecords ltag p.1 p.2) s
  news.zipIdx.foldl (fun (s : State) p =>
    let items := (blk.calls.filter (·.1 == p.2)).map (·.2)
    if items.isEmpty then s else (s.modCore p.1 fun k => k.putItems items).markCalls p.1) s

/-- R288: the hub's next block is a saved one and fits; its images can be read. -/
def execBlockRestore (hub : Nat) (s : State) : Out :=
  if 48 ≤ hub ∨ s.fieldHalted hub ∨ s.phase ≠ 3 then .next s
  else
    let s := (s.handAll hub).markBlocked hub
    match s.hubChoice hub with
    | none => .next s
    | some (ltag, i, o) =>
      match s.savedBlock ltag i with
      | none => .next s
      | some b =>
        let l := s.launch ltag.toNat
        let cores := rectCores l o
        if cores.all s.linesOpen && (s.block b).images.all fun x =>
            s.imageOpen { core := cores.getD x.pos o, asn := l.asn, root := l.root } x.va.toNat .read then .next ((s.restoreBlock b l ltag o).popHead hub ltag) else .next s

end Sys2Proof.Machine
end

