-- ==== Sys2Proof/Machine/Scalar.lean ====
section
/-! DEFINITION. Group 0x0: scalar arithmetic, moves between scalars and lanes, and mask operations (R354 to R365). -/

namespace Sys2Proof.Machine

/-! ## Shared forms -/

/-- A scalar operation of width w: `r` gives the w-bit result, which R355 extends and writes. -/
def State.scalarOp (s : State) (i : Instr) (f : Fields) (r : OpSpec → State → Nat) : Out :=
  s.run i f (fun _ => {}) fun sp s _ _ => .next ((s.wrS f (extend (tyIsI f.ty) (tyBits f.ty) (r sp s))).finish)

/-- A scalar operation of two operands. -/
def State.scalarInt2 (s : State) (i : Instr) (f : Fields) (op : IntOp) : Out :=
  s.scalarOp i f fun sp s => op (tyIsI f.ty) (tyBits f.ty) (s.sa sp f) (s.sb sp f)

/-- A count, read whole and unsigned (R361). -/
def State.countB (s : State) (sp : OpSpec) (f : Fields) : Nat := s.rdSca sp f 1 .u f.b
def State.countC (s : State) (sp : OpSpec) (f : Fields) : Nat := s.rdSca sp f 2 .u f.c

/-- A shift: the count is B (R361). -/
def State.scalarShift (s : State) (i : Instr) (f : Fields) (op : IntOp) : Out :=
  s.scalarOp i f fun sp s => op (tyIsI f.ty) (tyBits f.ty) (s.sa sp f) (s.countB sp f)

/-- A mask operation (R364). -/
def State.maskOp (s : State) (i : Instr) (f : Fields) (r : Mask → Mask → Mask) : Out :=
  s.run i f (fun _ => {}) fun sp s _ _ =>
    .next ((s.wrM f (r (BitVec.ofNat 64 (s.sa sp f)) (BitVec.ofNat 64 (s.sb sp f)))).finish)

/-- A lane that is launched and has not exited. -/
def Gang.alive (g : Gang) (j : Nat) : Bool := (g.mreg 0).getLsbD j && !(g.lane j).exited

/-! ## The instructions -/

/-- R365. -/
def execNop (f : Fields) (s : State) : Out :=
  s.run (.nop f) f (fun _ => {}) fun _ s _ _ => .next s.finish

/-- R359. -/
def execSmov (f : Fields) (s : State) : Out :=
  s.scalarOp (.smov f) f fun sp s => s.sa sp f

/-- R359. -/
def execSadd (f : Fields) (s : State) : Out :=
  s.scalarInt2 (.sadd f) f intAdd

/-- R359. -/
def execSsub (f : Fields) (s : State) : Out :=
  s.scalarInt2 (.ssub f) f intSub

/-- R359. -/
def execSmul (f : Fields) (s : State) : Out :=
  s.scalarInt2 (.smul f) f intMul

/-- R359. -/
def execSmulh (f : Fields) (s : State) : Out :=
  s.scalarInt2 (.smulh f) f intMulh

/-- R360. -/
def execSdiv (f : Fields) (s : State) : Out :=
  s.scalarInt2 (.sdiv f) f intDiv

/-- R360. -/
def execSrem (f : Fields) (s : State) : Out :=
  s.scalarInt2 (.srem f) f intRem

/-- R359. -/
def execSand (f : Fields) (s : State) : Out :=
  s.scalarInt2 (.sand f) f intAnd

/-- R359. -/
def execSor (f : Fields) (s : State) : Out :=
  s.scalarInt2 (.sor f) f intOr

/-- R359. -/
def execSxor (f : Fields) (s : State) : Out :=
  s.scalarInt2 (.sxor f) f intXor

/-- R359. -/
def execSmin (f : Fields) (s : State) : Out :=
  s.scalarInt2 (.smin f) f intMinOp

/-- R359. -/
def execSmax (f : Fields) (s : State) : Out :=
  s.scalarInt2 (.smax f) f intMaxOp

/-- R361. -/
def execSshl (f : Fields) (s : State) : Out :=
  s.scalarShift (.sshl f) f intShl

/-- R361. -/
def execSshr (f : Fields) (s : State) : Out :=
  s.scalarShift (.sshr f) f intShr

/-- R361. -/
def execSsra (f : Fields) (s : State) : Out :=
  s.scalarShift (.ssra f) f intSra

/-- R359. -/
def execScmp (f : Fields) (s : State) : Out :=
  s.scalarOp (.scmp f) f fun sp s =>
    let g := toInt (tyIsI f.ty) (tyBits f.ty)
    if intCond f.fn.toNat (g (s.sa sp f)) (g (s.sb sp f)) then 1 else 0

/-- R359. -/
def execSsel (f : Fields) (s : State) : Out :=
  s.scalarOp (.ssel f) f fun sp s =>
    if intCond f.fn.toNat (toInt (tyIsI f.ty) (tyBits f.ty) (s.sc sp f)) 0 then s.sa sp f else s.sb sp f

/-- R361. -/
def execSlea (f : Fields) (s : State) : Out :=
  s.scalarOp (.slea f) f fun sp s => intLea (tyBits f.ty) (s.sa sp f) (s.sb sp f) (s.countC sp f)

/-- R359. -/
def execSclz (f : Fields) (s : State) : Out :=
  s.scalarOp (.sclz f) f fun sp s => intClz (tyBits f.ty) (s.sa sp f)

/-- R359. -/
def execSpopc (f : Fields) (s : State) : Out :=
  s.scalarOp (.spopc f) f fun sp s => intPopc (tyBits f.ty) (s.sa sp f)

/-- R361. -/
def execSbfx (f : Fields) (s : State) : Out :=
  s.scalarOp (.sbfx f) f fun sp s =>
    intBfx (tyIsI f.ty) (tyBits f.ty) (s.sa sp f) (s.countB sp f) (s.countC sp f)

/-- R361. -/
def execSbfi (f : Fields) (s : State) : Out :=
  s.scalarOp (.sbfi f) f fun sp s =>
    intBfi (tyBits f.ty) (s.me.sreg f.dst.toNat).toNat (s.sa sp f) (s.countB sp f) (s.countC sp f)

/-- Lane B mod GW (R362, R363). -/
def State.laneB (s : State) (f : Fields) : Nat :=
  match opSpec (.sgetl f) with
  | some sp => s.sb sp f % s.me.gw
  | none => 0

/-- R362. -/
def execSgetl (f : Fields) (s : State) : Out :=
  let l := s.laneB f
  s.run (.sgetl f) f (fun _ => { }) fun sp s _ _ =>
    let v := if s.me.alive l then s.rawVec sp f .vreg f.ka f.a l else 0
    .next ((s.wrS f (extend (tyIsI f.ty) (tyBits f.ty) v)).finish)

/-- R363. -/
def execVsetl (f : Fields) (s : State) : Out :=
  let dead (sp : OpSpec) : Bool := !s.me.alive (s.sb sp f % s.me.gw)
  s.run (.vsetl f) f (fun sp => { idle := dead sp }) fun sp s _ _ =>
    let l := s.sb sp f % s.me.gw
    if s.me.alive l then
      .next ((s.wrV f (ty64 f) (laneBit l) 0 fun _ => (extend (tyIsI f.ty) (tyBits f.ty) (s.sa sp f)).toNat).finish)
    else .next s.finish

/-- R364. -/
def execMmov (f : Fields) (s : State) : Out :=
  s.maskOp (.mmov f) f fun a _ => a

/-- R364. -/
def execMand (f : Fields) (s : State) : Out :=
  s.maskOp (.mand f) f fun a b => a &&& b

/-- R364. -/
def execMor (f : Fields) (s : State) : Out :=
  s.maskOp (.mor f) f fun a b => a ||| b

/-- R364. -/
def execMxor (f : Fields) (s : State) : Out :=
  s.maskOp (.mxor f) f fun a b => a ^^^ b

/-- R364. -/
def execMandn (f : Fields) (s : State) : Out :=
  s.maskOp (.mandn f) f fun a b => a &&& ~~~b

/-- R364. -/
def execMpopc (f : Fields) (s : State) : Out :=
  s.run (.mpopc f) f (fun _ => {}) fun sp s _ _ =>
    .next ((s.wrS f (BitVec.ofNat 64 (popCount s.me.gw (s.sa sp f)))).finish)

/-- R364. -/
def execMffs (f : Fields) (s : State) : Out :=
  s.run (.mffs f) f (fun _ => {}) fun sp s _ _ =>
    .next ((s.wrS f (BitVec.ofNat 64 ((lowestOne s.me.gw (s.sa sp f)).getD 64))).finish)

end Sys2Proof.Machine
end

