-- ==== Sys2Proof/Machine/VecInt.lean ====
section
/-! DEFINITION. Group 0x2: element-wise integer arithmetic (R371 to R380). -/

namespace Sys2Proof.Machine

/-- An element-wise instruction: each executing lane computes its result from its own operands (R371, R373). -/
def State.lanewise (s : State) (i : Instr) (f : Fields) (e : Env) : Out :=
  s.run i f (fun _ => {}) fun sp s ex zero =>
    .next ((s.wrV f (sp.dst.wide f) ex zero fun j => (laneFn i e (s.va sp f j) (s.vb sp f j) (s.vc sp f j)).getD 0).finish)

/-- A comparison writes the bits of the executing lanes, and zero for those PZ names (R379). -/
def State.compare (s : State) (i : Instr) (f : Fields) (cond : State → Nat → Nat → Bool) : Out :=
  s.run i f (fun _ => {}) fun sp s ex zero =>
    let old := if f.nwb then 0 else s.me.mreg f.dst.toNat
    let new := maskOf 64 fun j => ex.getLsbD j && cond s (s.va sp f j) (s.vb sp f j)
    .next ((s.wrM f ((old &&& ~~~(ex ||| zero)) ||| new)).finish)

/-- R376. -/
def execVaddInt (f : Fields) (s : State) : Out :=
  s.lanewise (.vaddInt f) f (s.env f)

/-- R376. -/
def execVsubInt (f : Fields) (s : State) : Out :=
  s.lanewise (.vsubInt f) f (s.env f)

/-- R376. -/
def execVmulInt (f : Fields) (s : State) : Out :=
  s.lanewise (.vmulInt f) f (s.env f)

/-- R376. -/
def execVmulh (f : Fields) (s : State) : Out :=
  s.lanewise (.vmulh f) f (s.env f)

/-- R376. -/
def execVmad (f : Fields) (s : State) : Out :=
  s.lanewise (.vmad f) f (s.env f)

/-- R376. -/
def execVdivInt (f : Fields) (s : State) : Out :=
  s.lanewise (.vdivInt f) f (s.env f)

/-- R376. -/
def execVrem (f : Fields) (s : State) : Out :=
  s.lanewise (.vrem f) f (s.env f)

/-- R376. -/
def execVabsInt (f : Fields) (s : State) : Out :=
  s.lanewise (.vabsInt f) f (s.env f)

/-- R376. -/
def execVnegInt (f : Fields) (s : State) : Out :=
  s.lanewise (.vnegInt f) f (s.env f)

/-- R376. -/
def execVminInt (f : Fields) (s : State) : Out :=
  s.lanewise (.vminInt f) f (s.env f)

/-- R376. -/
def execVmaxInt (f : Fields) (s : State) : Out :=
  s.lanewise (.vmaxInt f) f (s.env f)

/-- R376. -/
def execVand (f : Fields) (s : State) : Out :=
  s.lanewise (.vand f) f (s.env f)

/-- R376. -/
def execVor (f : Fields) (s : State) : Out :=
  s.lanewise (.vor f) f (s.env f)

/-- R376. -/
def execVxor (f : Fields) (s : State) : Out :=
  s.lanewise (.vxor f) f (s.env f)

/-- R376. -/
def execVnot (f : Fields) (s : State) : Out :=
  s.lanewise (.vnot f) f (s.env f)

/-- R377. -/
def execVshl (f : Fields) (s : State) : Out :=
  s.lanewise (.vshl f) f (s.env f)

/-- R377. -/
def execVshr (f : Fields) (s : State) : Out :=
  s.lanewise (.vshr f) f (s.env f)

/-- R377. -/
def execVsra (f : Fields) (s : State) : Out :=
  s.lanewise (.vsra f) f (s.env f)

/-- R377. -/
def execVrot (f : Fields) (s : State) : Out :=
  s.lanewise (.vrot f) f (s.env f)

/-- R376. -/
def execVclz (f : Fields) (s : State) : Out :=
  s.lanewise (.vclz f) f (s.env f)

/-- R376. -/
def execVpopc (f : Fields) (s : State) : Out :=
  s.lanewise (.vpopc f) f (s.env f)

/-- R376. -/
def execVmov (f : Fields) (s : State) : Out :=
  s.lanewise (.vmov f) f (s.env f)

/-- R377. -/
def execVbfx (f : Fields) (s : State) : Out :=
  s.lanewise (.vbfx f) f (s.env f)

/-- R378. -/
def execVdp4 (f : Fields) (s : State) : Out :=
  s.lanewise (.vdp4 f) f (s.env f)

/-- R379. -/
def execVcmpInt (f : Fields) (s : State) : Out :=
  s.compare (.vcmpInt f) f fun _ a b =>
    intCond f.fn.toNat (toInt (tyIsI f.ty) (tyBits f.ty) a) (toInt (tyIsI f.ty) (tyBits f.ty) b)

/-- R380. -/
def execVsel (f : Fields) (s : State) : Out :=
  s.run (.vsel f) f (fun _ => {}) fun sp s ex zero =>
    let m := s.sc sp f
    .next ((s.wrV f (sp.dst.wide f) ex zero fun j => if m.testBit j then s.va sp f j else s.vb sp f j).finish)

end Sys2Proof.Machine
end

