-- ==== Sys2Proof/Machine/VecFloat.lean ====
section
/-! DEFINITION. Group 0x3: floating-point arithmetic (R381 to R383). -/

namespace Sys2Proof.Machine

/-- R382. -/
def execVaddFloat (f : Fields) (s : State) : Out :=
  s.lanewise (.vaddFloat f) f (s.env f)

/-- R382. -/
def execVsubFloat (f : Fields) (s : State) : Out :=
  s.lanewise (.vsubFloat f) f (s.env f)

/-- R382. -/
def execVmulFloat (f : Fields) (s : State) : Out :=
  s.lanewise (.vmulFloat f) f (s.env f)

/-- R382. -/
def execVfma (f : Fields) (s : State) : Out :=
  s.lanewise (.vfma f) f (s.env f)

/-- R382. -/
def execVfms (f : Fields) (s : State) : Out :=
  s.lanewise (.vfms f) f (s.env f)

/-- R382. -/
def execVfnma (f : Fields) (s : State) : Out :=
  s.lanewise (.vfnma f) f (s.env f)

/-- R382. -/
def execVdivFloat (f : Fields) (s : State) : Out :=
  s.lanewise (.vdivFloat f) f (s.env f)

/-- R382. -/
def execVsqrt (f : Fields) (s : State) : Out :=
  s.lanewise (.vsqrt f) f (s.env f)

/-- R382. -/
def execVrsqrt (f : Fields) (s : State) : Out :=
  s.lanewise (.vrsqrt f) f (s.env f)

/-- R382. -/
def execVrcp (f : Fields) (s : State) : Out :=
  s.lanewise (.vrcp f) f (s.env f)

/-- R382. -/
def execVexp2 (f : Fields) (s : State) : Out :=
  s.lanewise (.vexp2 f) f (s.env f)

/-- R382. -/
def execVlog2 (f : Fields) (s : State) : Out :=
  s.lanewise (.vlog2 f) f (s.env f)

/-- R383. -/
def execVminFloat (f : Fields) (s : State) : Out :=
  s.lanewise (.vminFloat f) f (s.env f)

/-- R383. -/
def execVmaxFloat (f : Fields) (s : State) : Out :=
  s.lanewise (.vmaxFloat f) f (s.env f)

/-- R383. -/
def execVabsFloat (f : Fields) (s : State) : Out :=
  s.lanewise (.vabsFloat f) f (s.env f)

/-- R383. -/
def execVnegFloat (f : Fields) (s : State) : Out :=
  s.lanewise (.vnegFloat f) f (s.env f)

/-- R383. -/
def execVclass (f : Fields) (s : State) : Out :=
  s.lanewise (.vclass f) f (s.env f)

/-- R382. -/
def execVscale (f : Fields) (s : State) : Out :=
  s.lanewise (.vscale f) f (s.env f)

/-- R382. -/
def execVlse (f : Fields) (s : State) : Out :=
  s.lanewise (.vlse f) f (s.env f)

/-- R382: the mode is PRM, or FN where PRM is zero (R381). -/
def execVrint (f : Fields) (s : State) : Out :=
  s.lanewise (.vrint f) f { s.env f with mode := if f.prm ≠ 0 then f.prm else f.fn.toNat }

/-- R383. -/
def execVcmpFloat (f : Fields) (s : State) : Out :=
  s.compare (.vcmpFloat f) f fun s a b => fp32.cond (s.env f).slot.ftz f.fn.toNat a b

end Sys2Proof.Machine
end

