-- ==== Sys2Proof/Machine/Watch.lean ====
section
/-! DEFINITION. Bounds that pass, barrier waits that end, uncorrectable errors, sampling, and the loss of the host link and of power (R76,
R132, R135, R293, R298, R311, R404, R414). -/

namespace Sys2Proof.Machine

/-- A core whose bounds run: they are frozen while its cluster is halted (R302). -/
def State.runs (s : State) (c : Nat) : Bool := decide (c < nCores) && !(s.cluster (clusterOf c)).halted

/-! ## Holds and parked lanes (R132, R135) -/

/-- R135: 32 cycles without an issue. -/
def execHoldTimeout (core islot : Nat) (s : State) : Out :=
  match (s.core core).holds.get none islot with
  | some h => if s.runs core ∧ h.since + 32 ≤ s.cycles (clusterOf core) then .next (s.setHold core islot none) else .next s
  | none => .next s

/-- R132: 4,096 cycles from the first parking. -/
def execRegangTimeout (core slot : Nat) (s : State) : Out :=
  match (s.gang core slot).parkAt with
  | some t => if s.runs core ∧ t + 4096 ≤ s.cycles (clusterOf core) then .next (s.modGang core slot fun g => g.release true) else .next s
  | none => .next s

/-! ## Full-empty bounds (R404) -/

/-- A lane gives up in the full-empty instruction that it waits in. -/
def Wait.giveUp (lane : Nat) (w : Wait) : Wait :=
  if (w.fe?).isSome && w.ex.getLsbD lane then { w with timedOut := w.timedOut ||| laneBit lane } else w

/-- R404: the lane gives up; the instruction ends with its last lane. -/
def execLdfeTimeout (core slot lane : Nat) (s : State) : Out :=
  match (s.core core).feWait.find? fun w => w.slot == slot && w.lane == lane with
  | none => .next s
  | some w =>
    match w.bound with
    | none => .next s
    | some b =>
      if s.runs core ∧ w.since + b ≤ s.cycles (clusterOf core) then
        let t := s.modCore core (·.feDrop w)
        let t := t.modGang core slot fun g => { g with waits := g.waits.map (Wait.giveUp lane) }
        .next (t.feSettle core slot)
      else .next s

/-! ## Barrier waits (R414) -/

/-- A barrier wait: its instruction's fields, the object and the phase; none for another wait. -/
def Wait.barrier (w : Wait) : Option (Fields × BarAt × Nat) :=
  match w.bar, w.ins with
  | some (sp, c, a, p), some f => some (f, ⟨sp, c, a⟩, p)
  | _, _ => none

/-- The wait ends in a trap. -/
def State.barWaitTrap (s : State) (core slot : Nat) (w : Wait) (e : Nat) : State :=
  match w.entry with
  | some r => s.finish.takeTrap core
      { slot, causes := [(e, w.ex)], inner := if e = cMachineCheck then 8 else 0, va := BitVec.ofNat 64 w.va
        raised := s.timeAt (clusterOf core), entry := { r with cause := BitVec.ofNat 8 e } }
  | none => s.finish

/-- The object that a wait looks at, by the translation of this look (R174); none while its page's walk is to come. -/
def State.barNow (s : State) (core : Nat) (w : Wait) (b : BarAt) : Option (Except Nat BarAt) :=
  let (asn, root) := s.space s.me
  if b.spad then some (.ok b)
  else if !s.walkOpen core asn root w.va then none
  else
    match s.translate core asn root w.va .write with
    | .error e => some (.error e)
    | .ok t => some (if t.kind = .coherent then .ok { b with addr := t.pa } else .error cPermFault)

/-- The page of a look at an object is walked, or asked for. -/
def State.barWalk (s : State) (core : Nat) (w : Wait) (b : BarAt) : State :=
  let (asn, root) := s.space s.me
  if b.spad then s
  else if s.walkOpen core asn root w.va then s.queueWalk core asn root w.va else s.askWalk core asn root w.va

/-- A waiter reads its object again, where that can be read now: the wait ends, or goes on. -/
def State.barAgain (s : State) (core slot : Nat) (w : Wait) : State :=
  match w.barrier with
  | none => s
  | some (f, b, p) =>
    let t := s.endWait core slot w
    let look := t.barNow core w b
    let s := { (s.focusWait core slot w).barWalk core w b with focus := s.focus }
    let t := t.barWalk core w b
    match look with
    | none => s
    | some (.error e) => t.barWaitTrap core slot w e
    | some (.ok b) =>
      if !t.barOpen b false then s
      else
        match t.barReach b false (t.orderOf f) with
        | some e => t.barWaitTrap core slot w e
        | none =>
          let v := t.barRead core b.entry
          let t := if t.barListFull b then t else t.barEnter b
          if barBad v then (t.barLook core b.entry).barWaitTrap core slot w cBarrierBroken
          else if barPassed v p then (((t.barLook core b.entry).wrS f 0).lateLatch t).finish
          else s.barLook core b.entry

/-- A waiter whose bound has passed while its phase has not, as far as it can be seen. -/
def State.barTimeout (s : State) (core slot : Nat) (w : Wait) : State :=
  match w.barrier with
  | none => s
  | some (f, b, p) =>
    let t := s.endWait core slot w
    let still : Bool := match t.barNow core w b with
      | none => true
      | some (.error _) => false
      | some (.ok b) => let v := t.barRead core b.entry; !barBad v && !barPassed v p
    if ((w.bound.map fun n => decide (w.since + n ≤ s.cycles (clusterOf core))).getD false) && still then ((t.wrS f 1).lateLatch t).finish
    else s

/-- R414: the waiters of a gang read their objects again; in a halt too, where an instruction already issued runs to completion (R301). -/
def execBarrierWaitRecheck (core slot : Nat) (s : State) : Out :=
  if nCores ≤ core then .next s
  else .next { (s.gang core slot).waits.foldl (fun t w => t.barAgain core slot w) s with focus := s.focus }

/-- R414: the bounds that have passed. -/
def execBarrierWaitTimeout (core slot : Nat) (s : State) : Out :=
  if !s.runs core then .next s
  else .next { (s.gang core slot).waits.foldl (fun t w => t.barTimeout core slot w) s with focus := s.focus }

/-! ## Uncorrectable errors (R293) -/

/-- The load of a gang whose data, on its way to a register, takes in a byte in error. -/
def State.spoiledLoad (s : State) (core slot : Nat) (va : DWord) : Option Pend :=
  s.pends.find? fun p =>
    p.core == core && p.slot == slot && p.kind == .load && p.performed && p.failed.isNone && decide (p.va ≤ va.toNat ∧ va.toNat < p.va + p.bytes)

/-- R293: an uncorrectable error in data that a gang consumes: the load in flight that it reaches ends in it, or else the gang's next instruction
that executes meets it, in lanes that the spec does not state (log entry 26). One that no gang consumes goes to the host. -/
def execEccError (core slot : Nat) (source : BitVec 8) (va : DWord) (s : State) : Out :=
  if nCores ≤ core then .next s
  else if slot ≤ handlerSlot ∧ (s.gang core slot).live ∧ 1 ≤ source.toNat ∧ source.toNat ≤ 9 then
    match s.spoiledLoad core slot va with
    | some p => .next (s.setPend { p with failed := some cMachineCheck, errSrc := source })
    | none =>
      .next ({ s with freeCtr := s.freeCtr + 1 }.modGang core slot fun g =>
        { g with ecc := some { source, va, mask := Config.freeValue s.freeCtr } })
  else .next ((s.openMessage kindMachineCheck (clusterOf core)).bboxOpen (fieldOf core) 3)

/-! ## Samples (R307, R309, R311) -/

/-- R311: an instruction that has issued on an issue slot is counted, and tagged when the count has reached zero; `before` is the state that it
issued in. -/
def State.countSample (before : State) (islot : Nat) (s : State) : State :=
  let c := before.focus.core
  let g := before.me
  let l := before.launch g.seat.ltag.toNat
  let n := (s.core c).sampleCnt.get 0 islot
  if !s.focus.done && !(s.gang c before.focus.slot).trapped then s
  else if 1 < n ∨ before.focus.slot = handlerSlot ∨ !g.seat.used ∨ !l.trCtl.getLsbD 0 then
    s.modCore c fun k => { k with sampleCnt := k.sampleCnt.put islot (n - 1) }
  else
    s.modCore c fun k =>
      { k with
        sampleCnt := k.sampleCnt.put islot 0
        sampled := k.sampled.put islot (some
          { walker := l.walker, name := (before.nameOf c g (lowLane before.focus.lanes)).bits, at_ := before.timeAt (clusterOf c)
            slot := before.focus.slot, pc := before.focus.pc, seq := before.nextId, half := 2 ^ (bits l.trCtl.toNat 8 6 - 1) }) }

/-- The stage in which a tagged instruction has trapped; none where it has not. -/
def State.sampleStage (s : State) (c : Nat) (x : Sample) : Option Nat :=
  let k := s.core c
  let traps := (match k.serving with
    | some (.trap t _) => [t]
    | _ => []) ++ k.work.filterMap fun w => match w with
      | .trap t => some t
      | .doorbell _ => none
  traps.findSome? fun t =>
    if t.slot ≠ x.slot then none
    else ((((t.entry, t.causes) :: t.more).find? (·.1.seq == x.seq)).map fun q => stageOf (firstCode q.2))

/-- The stage times of a sample that a trap in a stage leaves: no operands are collected for a trap of stage 1, and nothing executes for one of
stages 2 and 3 (log entry 17). -/
def reachedTimes (stage : Option Nat) (t : BitVec 48) : BitVec 48 :=
  match stage with
  | some 1 => t &&& 0xfff000000000
  | some 2 | some 3 => t &&& 0xffffff000000
  | _ => t

/-- The record of a tagged instruction; the stage times are free values (log entry 17). -/
def State.sampleRecord (s : State) (c islot : Nat) (level : BitVec 4) (x : Sample) : BitVec 256 :=
  let stage := s.sampleStage c x
  let times := reachedTimes stage ((Config.freeValue s.freeCtr).extractLsb' 0 48)
  x.name ++ BitVec.ofNat 48 x.at_ ++ BitVec.ofNat 8 1 ++
    (x.pc.extractLsb' 0 57 ++ level ++ BitVec.ofNat 2 islot ++ (if stage.isSome then (1 : BitVec 1) else 0) ++ (0 : BitVec 8) ++ times)

/-- R311: the record of the instruction that an issue slot has tagged is written; `next` is the count drawn for the next one. -/
def execSampleTag (core islot next : Nat) (level : BitVec 4) (s : State) : Out :=
  match (s.core core).sampled.get none islot with
  | none => .next s
  | some x =>
    if x.half ≤ next ∧ next < 3 * x.half ∧ level.toNat ≤ 8 then
      let t := s.traceRecord core x.walker (s.sampleRecord core islot level x)
      .next ({ t with freeCtr := t.freeCtr + 1 }.modCore core fun k =>
        { k with sampleCnt := k.sampleCnt.put islot next, sampled := k.sampled.put islot none })
    else .next s

/-! ## The host link and module power (R76, R298) -/

/-- R76: one module fewer; the source, cause and payload of the LINK entry are not stated (log entry 23). What becomes of the link once all
eight are lost is not stated either: the accesses of the host go on (log entry 46). -/
def execLinkModuleLoss (s : State) : Out :=
  if s.linkMods = 0 then .next s
  else
    let src := (Config.freeValue s.freeCtr).toNat % 65536
    .next ({ s with linkMods := s.linkMods - 1, freeCtr := s.freeCtr + 1 }.openMessage kindLink src)

/-- R298: the black boxes go to the host; nothing runs any more. -/
def execModulePowerLoss (s : State) : Out :=
  .next { s with
    powered := false
    irqs := s.irqs + 48
    hostReads := s.hostReads ++ (List.range 48).flatMap fun f => (List.range 4096).map fun n => (s.bbox.get {} f).slots.get 0 n }

end Sys2Proof.Machine
end

