-- ==== Sys2Proof/Machine/Dispatch.lean ====
section
/-! DEFINITION. One arm per constructor of Instr: the meaning of the row, or its refusal by name. -/

namespace Sys2Proof.Machine

def exec (i : Instr) (s : State) : Host.Outcome State Fault Refusal :=
  match i with
  | .nop f => Sys2Proof.Machine.execNop f s
  | .smov f => Sys2Proof.Machine.execSmov f s
  | .sadd f => Sys2Proof.Machine.execSadd f s
  | .ssub f => Sys2Proof.Machine.execSsub f s
  | .smul f => Sys2Proof.Machine.execSmul f s
  | .smulh f => Sys2Proof.Machine.execSmulh f s
  | .sdiv f => Sys2Proof.Machine.execSdiv f s
  | .srem f => Sys2Proof.Machine.execSrem f s
  | .sand f => Sys2Proof.Machine.execSand f s
  | .sor f => Sys2Proof.Machine.execSor f s
  | .sxor f => Sys2Proof.Machine.execSxor f s
  | .sshl f => Sys2Proof.Machine.execSshl f s
  | .sshr f => Sys2Proof.Machine.execSshr f s
  | .ssra f => Sys2Proof.Machine.execSsra f s
  | .smin f => Sys2Proof.Machine.execSmin f s
  | .smax f => Sys2Proof.Machine.execSmax f s
  | .scmp f => Sys2Proof.Machine.execScmp f s
  | .ssel f => Sys2Proof.Machine.execSsel f s
  | .slea f => Sys2Proof.Machine.execSlea f s
  | .sclz f => Sys2Proof.Machine.execSclz f s
  | .spopc f => Sys2Proof.Machine.execSpopc f s
  | .sbfx f => Sys2Proof.Machine.execSbfx f s
  | .sbfi f => Sys2Proof.Machine.execSbfi f s
  | .sgetl f => Sys2Proof.Machine.execSgetl f s
  | .vsetl f => Sys2Proof.Machine.execVsetl f s
  | .mmov f => Sys2Proof.Machine.execMmov f s
  | .mand f => Sys2Proof.Machine.execMand f s
  | .mor f => Sys2Proof.Machine.execMor f s
  | .mxor f => Sys2Proof.Machine.execMxor f s
  | .mandn f => Sys2Proof.Machine.execMandn f s
  | .mpopc f => Sys2Proof.Machine.execMpopc f s
  | .mffs f => Sys2Proof.Machine.execMffs f s
  | .br f => Sys2Proof.Machine.execBr f s
  | .brs f => Sys2Proof.Machine.execBrs f s
  | .jmpi f => Sys2Proof.Machine.execJmpi f s
  | .call f => Sys2Proof.Machine.execCall f s
  | .calli f => Sys2Proof.Machine.execCalli f s
  | .ret f => Sys2Proof.Machine.execRet f s
  | .regang f => Sys2Proof.Machine.execRegang f s
  | .regangAny f => Sys2Proof.Machine.execRegangAny f s
  | .exit f => Sys2Proof.Machine.execExit f s
  | .loop f => Sys2Proof.Machine.execLoop f s
  | .vaddInt f => Sys2Proof.Machine.execVaddInt f s
  | .vsubInt f => Sys2Proof.Machine.execVsubInt f s
  | .vmulInt f => Sys2Proof.Machine.execVmulInt f s
  | .vmulh f => Sys2Proof.Machine.execVmulh f s
  | .vmad f => Sys2Proof.Machine.execVmad f s
  | .vdivInt f => Sys2Proof.Machine.execVdivInt f s
  | .vrem f => Sys2Proof.Machine.execVrem f s
  | .vabsInt f => Sys2Proof.Machine.execVabsInt f s
  | .vnegInt f => Sys2Proof.Machine.execVnegInt f s
  | .vminInt f => Sys2Proof.Machine.execVminInt f s
  | .vmaxInt f => Sys2Proof.Machine.execVmaxInt f s
  | .vand f => Sys2Proof.Machine.execVand f s
  | .vor f => Sys2Proof.Machine.execVor f s
  | .vxor f => Sys2Proof.Machine.execVxor f s
  | .vnot f => Sys2Proof.Machine.execVnot f s
  | .vshl f => Sys2Proof.Machine.execVshl f s
  | .vshr f => Sys2Proof.Machine.execVshr f s
  | .vsra f => Sys2Proof.Machine.execVsra f s
  | .vrot f => Sys2Proof.Machine.execVrot f s
  | .vclz f => Sys2Proof.Machine.execVclz f s
  | .vpopc f => Sys2Proof.Machine.execVpopc f s
  | .vcmpInt f => Sys2Proof.Machine.execVcmpInt f s
  | .vsel f => Sys2Proof.Machine.execVsel f s
  | .vmov f => Sys2Proof.Machine.execVmov f s
  | .vbfx f => Sys2Proof.Machine.execVbfx f s
  | .vdp4 f => Sys2Proof.Machine.execVdp4 f s
  | .vaddFloat f => Sys2Proof.Machine.execVaddFloat f s
  | .vsubFloat f => Sys2Proof.Machine.execVsubFloat f s
  | .vmulFloat f => Sys2Proof.Machine.execVmulFloat f s
  | .vfma f => Sys2Proof.Machine.execVfma f s
  | .vfms f => Sys2Proof.Machine.execVfms f s
  | .vfnma f => Sys2Proof.Machine.execVfnma f s
  | .vdivFloat f => Sys2Proof.Machine.execVdivFloat f s
  | .vsqrt f => Sys2Proof.Machine.execVsqrt f s
  | .vrsqrt f => Sys2Proof.Machine.execVrsqrt f s
  | .vrcp f => Sys2Proof.Machine.execVrcp f s
  | .vexp2 f => Sys2Proof.Machine.execVexp2 f s
  | .vlog2 f => Sys2Proof.Machine.execVlog2 f s
  | .vminFloat f => Sys2Proof.Machine.execVminFloat f s
  | .vmaxFloat f => Sys2Proof.Machine.execVmaxFloat f s
  | .vabsFloat f => Sys2Proof.Machine.execVabsFloat f s
  | .vnegFloat f => Sys2Proof.Machine.execVnegFloat f s
  | .vcmpFloat f => Sys2Proof.Machine.execVcmpFloat f s
  | .vrint f => Sys2Proof.Machine.execVrint f s
  | .vclass f => Sys2Proof.Machine.execVclass f s
  | .vscale f => Sys2Proof.Machine.execVscale f s
  | .vlse f => Sys2Proof.Machine.execVlse f s
  | .vcvt f => Sys2Proof.Machine.execVcvt f s
  | .vcvtn f => Sys2Proof.Machine.execVcvtn f s
  | .vcvtw f => Sys2Proof.Machine.execVcvtw f s
  | .vcbd f => Sys2Proof.Machine.execVcbd f s
  | .vsetlfs f => Sys2Proof.Machine.execVsetlfs f s
  | .vgetlfs f => Sys2Proof.Machine.execVgetlfs f s
  | .vperm f => Sys2Proof.Machine.execVperm f s
  | .vshfl f => Sys2Proof.Machine.execVshfl f s
  | .vbcl f => Sys2Proof.Machine.execVbcl f s
  | .vred f => Sys2Proof.Machine.execVred f s
  | .vscan f => Sys2Proof.Machine.execVscan f s
  | .vscanx f => Sys2Proof.Machine.execVscanx f s
  | .vcomp f => Sys2Proof.Machine.execVcomp f s
  | .vexpd f => Sys2Proof.Machine.execVexpd f s
  | .ld f => Sys2Proof.Machine.execLd f s
  | .st f => Sys2Proof.Machine.execSt f s
  | .ldfe f => Sys2Proof.Machine.execLdfe f s
  | .stfe f => Sys2Proof.Machine.execStfe f s
  | .stbw f => Sys2Proof.Machine.execStbw f s
  | .rwb f => Sys2Proof.Machine.execRwb f s
  | .rinv f => Sys2Proof.Machine.execRinv f s
  | .prf f => Sys2Proof.Machine.execPrf f s
  | .lkl f => Sys2Proof.Machine.execLkl f s
  | .ulkl f => Sys2Proof.Machine.execUlkl f s
  | .atom f => Sys2Proof.Machine.execAtom f s
  | .cas f => Sys2Proof.Machine.execCas f s
  | .fence f => Sys2Proof.Machine.execFence f s
  | .barinit f => Sys2Proof.Machine.execBarinit f s
  | .bararr f => Sys2Proof.Machine.execBararr f s
  | .barwait f => Sys2Proof.Machine.execBarwait f s
  | .mma f => Sys2Proof.Machine.execMma f s
  | .mhad f => Sys2Proof.Machine.execMhad f s
  | .mpass f => Sys2Proof.Machine.execMpass f s
  | .amld f => Sys2Proof.Machine.execAmld f s
  | .amst f => Sys2Proof.Machine.execAmst f s
  | .amclr f => Sys2Proof.Machine.execAmclr f s
  | .amtr f => Sys2Proof.Machine.execAmtr f s
  | .wdecl f => Sys2Proof.Machine.execWdecl f s
  | .wpush f => Sys2Proof.Machine.execWpush f s
  | .wq f => Sys2Proof.Machine.execWq f s
  | .wrst f => Sys2Proof.Machine.execWrst f s
  | .wlen f => Sys2Proof.Machine.execWlen f s
  | .wsave f => Sys2Proof.Machine.execWsave f s
  | .wload f => Sys2Proof.Machine.execWload f s
  | .rtag f => Sys2Proof.Machine.execRtag f s
  | .rdrop f => Sys2Proof.Machine.execRdrop f s
  | .rmat f => Sys2Proof.Machine.execRmat f s
  | .rclr f => Sys2Proof.Machine.execRclr f s
  | .cp f => Sys2Proof.Machine.execCp f s
  | .bcast f => Sys2Proof.Machine.execBcast f s
  | .bcred f => Sys2Proof.Machine.execBcred f s
  | .bcall f => Sys2Proof.Machine.execBcall f s
  | .eput f => Sys2Proof.Machine.execEput f s
  | .tlwaitGe f => Sys2Proof.Machine.execTlwaitGe f s
  | .tlwaitLt f => Sys2Proof.Machine.execTlwaitLt f s
  | .spawn f => Sys2Proof.Machine.execSpawn f s
  | .spawnOne f => Sys2Proof.Machine.execSpawnOne f s
  | .post f => Sys2Proof.Machine.execPost f s
  | .callq f => Sys2Proof.Machine.execCallq f s
  | .retq f => Sys2Proof.Machine.execRetq f s
  | .join f => Sys2Proof.Machine.execJoin f s
  | .mkrec f => Sys2Proof.Machine.execMkrec f s
  | .eget f => Sys2Proof.Machine.execEget f s
  | .sysr f => Sys2Proof.Machine.execSysr f s
  | .sysw f => Sys2Proof.Machine.execSysw f s
  | .bclaim f => Sys2Proof.Machine.execBclaim f s
  | .brel f => Sys2Proof.Machine.execBrel f s
  | .tsr f => Sys2Proof.Machine.execTsr f s
  | .phint f => Sys2Proof.Machine.execPhint f s
  | .rtrapResume f => Sys2Proof.Machine.execRtrapResume f s
  | .rtrapKill f => Sys2Proof.Machine.execRtrapKill f s
  | .halt f => Sys2Proof.Machine.execHalt f s
  | .trc f => Sys2Proof.Machine.execTrc f s
  | .hostMemoryRead off n => Sys2Proof.Machine.execHostMemoryRead off n s
  | .hostMemoryWrite off data => Sys2Proof.Machine.execHostMemoryWrite off data s
  | .registerWrite off size v => Sys2Proof.Machine.execRegisterWrite off size v s
  | .walkerStart w v => Sys2Proof.Machine.execWalkerStart w v s
  | .cqHeadWrite v => Sys2Proof.Machine.execCqHeadWrite v s
  | .tlbInvalidate v => Sys2Proof.Machine.execTlbInvalidate v s
  | .tlbInvalidateComplete => Sys2Proof.Machine.execTlbInvalidateComplete s
  | .runkill v => Sys2Proof.Machine.execRunkill v s
  | .monitorDoorbell n v => Sys2Proof.Machine.execMonitorDoorbell n v s
  | .handlerRestart n v => Sys2Proof.Machine.execHandlerRestart n v s
  | .defectMapWrite v checked => Sys2Proof.Machine.execDefectMapWrite v checked s
  | .phaseTables v => Sys2Proof.Machine.execPhaseTables v s
  | .phasePlane v dark => Sys2Proof.Machine.execPhasePlane v dark s
  | .phaseRunning v => Sys2Proof.Machine.execPhaseRunning v s
  | .mgmtStatFlagClear v => Sys2Proof.Machine.execMgmtStatFlagClear v s
  | .tableLoad v => Sys2Proof.Machine.execTableLoad v s
  | .tableUpdate v => Sys2Proof.Machine.execTableUpdate v s
  | .groupBind v => Sys2Proof.Machine.execGroupBind v s
  | .coreHold v => Sys2Proof.Machine.execCoreHold v s
  | .coreHoldPreempt v => Sys2Proof.Machine.execCoreHoldPreempt v s
  | .coreRelease v => Sys2Proof.Machine.execCoreRelease v s
  | .heldCoreDrained core => Sys2Proof.Machine.execHeldCoreDrained core s
  | .sliceCopy v => Sys2Proof.Machine.execSliceCopy v s
  | .sliceCopyComplete => Sys2Proof.Machine.execSliceCopyComplete s
  | .hostHalt => Sys2Proof.Machine.execHostHalt s
  | .hostResume => Sys2Proof.Machine.execHostResume s
  | .regionEnable r => Sys2Proof.Machine.execRegionEnable r s
  | .regionDisable r => Sys2Proof.Machine.execRegionDisable r s
  | .regionRestart r => Sys2Proof.Machine.execRegionRestart r s
  | .regionReleaseHalt r => Sys2Proof.Machine.execRegionReleaseHalt r s
  | .rampComplete r => Sys2Proof.Machine.execRampComplete r s
  | .rampTimeout r => Sys2Proof.Machine.execRampTimeout r s
  | .supplyFault r cause => Sys2Proof.Machine.execSupplyFault r cause s
  | .tripDischarged r => Sys2Proof.Machine.execTripDischarged r s
  | .restartTableLoad r src => Sys2Proof.Machine.execRestartTableLoad r src s
  | .restartComplete r => Sys2Proof.Machine.execRestartComplete r s
  | .restartTimeout r => Sys2Proof.Machine.execRestartTimeout r s
  | .overcurrentWarning r => Sys2Proof.Machine.execOvercurrentWarning r s
  | .governorTick watts => Sys2Proof.Machine.execGovernorTick watts s
  | .currentRampStep r demand => Sys2Proof.Machine.execCurrentRampStep r demand s
  | .boostGrant r => Sys2Proof.Machine.execBoostGrant r s
  | .boostInterval r => Sys2Proof.Machine.execBoostInterval r s
  | .boostFallStep c => Sys2Proof.Machine.execBoostFallStep c s
  | .permitRefill r => Sys2Proof.Machine.execPermitRefill r s
  | .frequencyChangeComplete c => Sys2Proof.Machine.execFrequencyChangeComplete c s
  | .poolTargetMove hub c => Sys2Proof.Machine.execPoolTargetMove hub c s
  | .poolMoveComplete c => Sys2Proof.Machine.execPoolMoveComplete c s
  | .thermalSample r temp => Sys2Proof.Machine.execThermalSample r temp s
  | .thermalTrip r => Sys2Proof.Machine.execThermalTrip r s
  | .meshPacketReceive router dir plane => Sys2Proof.Machine.execMeshPacketReceive router dir plane s
  | .packetAging id => Sys2Proof.Machine.execPacketAging id s
  | .linkHeartbeatTimeout router dir => Sys2Proof.Machine.execLinkHeartbeatTimeout router dir s
  | .linkFallbackReinject id => Sys2Proof.Machine.execLinkFallbackReinject id s
  | .packetNack id => Sys2Proof.Machine.execPacketNack id s
  | .tableScrub flips => Sys2Proof.Machine.execTableScrub flips s
  | .tableRepairResponse router entry => Sys2Proof.Machine.execTableRepairResponse router entry s
  | .photonicFrame c dark => Sys2Proof.Machine.execPhotonicFrame c dark s
  | .timeBeacon c => Sys2Proof.Machine.execTimeBeacon c s
  | .timeBeaconSend => Sys2Proof.Machine.execTimeBeaconSend s
  | .tableUpdateBeacon c => Sys2Proof.Machine.execTableUpdateBeacon c s
  | .groupBindBeacon c => Sys2Proof.Machine.execGroupBindBeacon c s
  | .haltBeacon c => Sys2Proof.Machine.execHaltBeacon c s
  | .resumeBeacon c => Sys2Proof.Machine.execResumeBeacon c s
  | .retainedCopyReceive c id => Sys2Proof.Machine.execRetainedCopyReceive c id s
  | .retainedCopyExpire id => Sys2Proof.Machine.execRetainedCopyExpire id s
  | .groupDead c bus group => Sys2Proof.Machine.execGroupDead c bus group s
  | .holeTimeout c bus => Sys2Proof.Machine.execHoleTimeout c bus s
  | .beaconClusterHandover => Sys2Proof.Machine.execBeaconClusterHandover s
  | .superblockResponse c sb => Sys2Proof.Machine.execSuperblockResponse c sb s
  | .evictionDataArrive sb => Sys2Proof.Machine.execEvictionDataArrive sb s
  | .homeRequest id => Sys2Proof.Machine.execHomeRequest id s
  | .memoryResponse id => Sys2Proof.Machine.execMemoryResponse id s
  | .writeAcknowledge id => Sys2Proof.Machine.execWriteAcknowledge id s
  | .pageWalk c => Sys2Proof.Machine.execPageWalk c s
  | .nodeFire w node => Sys2Proof.Machine.execNodeFire w node s
  | .kernelNodeComplete w node => Sys2Proof.Machine.execKernelNodeComplete w node s
  | .copyNodeComplete w node => Sys2Proof.Machine.execCopyNodeComplete w node s
  | .signalEntryWritten w node => Sys2Proof.Machine.execSignalEntryWritten w node s
  | .waitNodePoll w node => Sys2Proof.Machine.execWaitNodePoll w node s
  | .waitNodeTimeout w node => Sys2Proof.Machine.execWaitNodeTimeout w node s
  | .freeSlotRetry who => Sys2Proof.Machine.execFreeSlotRetry who s
  | .runDone w => Sys2Proof.Machine.execRunDone w s
  | .launchReceive hub ltag => Sys2Proof.Machine.execLaunchReceive hub ltag s
  | .blockPlace hub => Sys2Proof.Machine.execBlockPlace hub s
  | .hubPriorityAging hub ltag => Sys2Proof.Machine.execHubPriorityAging hub ltag s
  | .stealRequest victim => Sys2Proof.Machine.execStealRequest victim s
  | .stealResponse thief => Sys2Proof.Machine.execStealResponse thief s
  | .stealBackoffExpire hub => Sys2Proof.Machine.execStealBackoffExpire hub s
  | .blockExit block => Sys2Proof.Machine.execBlockExit block s
  | .recordAdmit core => Sys2Proof.Machine.execRecordAdmit core s
  | .recordPromote core prio => Sys2Proof.Machine.execRecordPromote core prio s
  | .postReceive id => Sys2Proof.Machine.execPostReceive id s
  | .postRefusedReturn id => Sys2Proof.Machine.execPostRefusedReturn id s
  | .joinDecrement core slot => Sys2Proof.Machine.execJoinDecrement core slot s
  | .calleeGangForm core slot => Sys2Proof.Machine.execCalleeGangForm core slot s
  | .callerResume core slot => Sys2Proof.Machine.execCallerResume core slot s
  | .callqSlotPreempt core => Sys2Proof.Machine.execCallqSlotPreempt core s
  | .holdTimeout core islot => Sys2Proof.Machine.execHoldTimeout core islot s
  | .regangTimeout core slot => Sys2Proof.Machine.execRegangTimeout core slot s
  | .ldfeTimeout core slot lane => Sys2Proof.Machine.execLdfeTimeout core slot lane s
  | .barrierWaitRecheck core slot => Sys2Proof.Machine.execBarrierWaitRecheck core slot s
  | .barrierWaitTimeout core slot => Sys2Proof.Machine.execBarrierWaitTimeout core slot s
  | .engineEntryComplete who => Sys2Proof.Machine.execEngineEntryComplete who s
  | .engineEntryFault who cause => Sys2Proof.Machine.execEngineEntryFault who cause s
  | .matrixPass core => Sys2Proof.Machine.execMatrixPass core s
  | .collectiveMatch core slot => Sys2Proof.Machine.execCollectiveMatch core slot s
  | .matrixSelfTest core passed => Sys2Proof.Machine.execMatrixSelfTest core passed s
  | .chringWrite core slot ctx => Sys2Proof.Machine.execChringWrite core slot ctx s
  | .ectlResume core slot ctx => Sys2Proof.Machine.execEctlResume core slot ctx s
  | .ectlAbandon core slot ctx => Sys2Proof.Machine.execEctlAbandon core slot ctx s
  | .filterWrite core slot => Sys2Proof.Machine.execFilterWrite core slot s
  | .mondoneWrite core v => Sys2Proof.Machine.execMondoneWrite core v s
  | .gangStop core slot stop => Sys2Proof.Machine.execGangStop core slot stop s
  | .gangStep core slot => Sys2Proof.Machine.execGangStep core slot s
  | .materialiseRowGrant core => Sys2Proof.Machine.execMaterialiseRowGrant core s
  | .materialiseDeadlockSave core => Sys2Proof.Machine.execMaterialiseDeadlockSave core s
  | .handlerEntry core => Sys2Proof.Machine.execHandlerEntry core s
  | .hintTimeout core slot => Sys2Proof.Machine.execHintTimeout core slot s
  | .gangSave core slot => Sys2Proof.Machine.execGangSave core slot s
  | .blockRestore hub => Sys2Proof.Machine.execBlockRestore hub s
  | .eccError core slot src va => Sys2Proof.Machine.execEccError core slot src va s
  | .sampleTag core islot next level => Sys2Proof.Machine.execSampleTag core islot next level s
  | .linkModuleLoss => Sys2Proof.Machine.execLinkModuleLoss s
  | .modulePowerLoss => Sys2Proof.Machine.execModulePowerLoss s
  | .restartRailsSettled r => Sys2Proof.Machine.execRestartRailsSettled r s
  | .retainedCopyRequest c id => Sys2Proof.Machine.execRetainedCopyRequest c id s
  | .routerTableRequest router entry => Sys2Proof.Machine.execRouterTableRequest router entry s
  | .engineRowWritten who => Sys2Proof.Machine.execEngineRowWritten who s

end Sys2Proof.Machine
end

