-- ==== Sys2Proof/Machine/Issue.lean ====
section
/-! DEFINITION. The handler gang's precedence at issue (R113, R274). -/

namespace Sys2Proof.Machine

/-- Would an issue of the handler gang's group of lane `j` issue an instruction now? -/
def State.handlerIssues (s : State) (c j : Nat) : Bool :=
  match { s with focus := {} }.ready c handlerSlot j true with
  | .stay t => t.focus.done || (t.core c).hStopped
  | .go i _ t =>
    match exec i t with
    | .next u => u.focus.done || (u.core c).hStopped
    | _ => false

/-- R113: the handler gang, when it is eligible, issues first on the lowest issue slot that no hold blocks; a gang of that slot waits. -/
def State.handlerFirst (s : State) (c g : Nat) : Bool :=
  g != handlerSlot && s.canIssue c handlerSlot && (s.core c).issueSlot handlerSlot == some (g % 4) && [0, 4, 8, 12].any (s.handlerIssues c)

end Sys2Proof.Machine
end

