-- ==== Sys2Proof/Machine/Step.lean ====
section
/-! DEFINITION. One step of the machine: the next move of the agenda comes about; with an empty agenda one frame passes. -/

namespace Sys2Proof.Machine

/-- A gang's group issues, unless the handler gang issues first: `before` has nothing issued. -/
def State.issueMove (before : State) (c g j : Nat) (fly : Bool) : Out :=
  if before.handlerFirst c g then .next before
  else
    match before.ready c g j fly with
    | .stay t => .next t
    | .go i slot t =>
      match exec i t with
      | .next u => .next (State.countSample t slot (State.settle before slot i u))
      | o => o

def step (s : State) : Host.Outcome State Fault Refusal :=
  if !s.powered then .fault .unpowered
  else
    match s.agenda with
    | [] => .next (s.pass 1)
    | .tick n :: rest => .next ({ s with agenda := rest }.pass n)
    | .strike router entry :: rest => .next ({ s with agenda := rest }.strike router entry)
    | .refill c asn va :: rest => .next ({ s with agenda := rest }.refill c asn va)
    | .readAhead c g n num :: rest => .next ({ s with agenda := rest }.readAhead c g n num)
    | .event i :: rest => if (opSpec i).isNone then exec i { s with agenda := rest } else .next { s with agenda := rest }
    | .issue c g j fly :: rest => { s with agenda := rest }.issueMove c g j fly

/-- The state with an instruction stored where the next step fetches (log entry 18). -/
def State.withFetchWord (s : State) (nbits w : Nat) : State := s.placeWord (w % 2 ^ nbits)

end Sys2Proof.Machine
end

