-- ==== Sys2Proof/Safety.lean ====
section
/-! DEFINITION. What counts as a safe run, and the words in which statements speak of one step: when an instruction issues with its
own effect, and what two states have in common. -/

namespace Sys2Proof

/-- A state whose next `n` steps all answer a next state. -/
def RunsSafely (n : Nat) (s : Machine.State) : Prop :=
  ∃ t, core.run n s = .next t

namespace Machine

/-! ## When an instruction issues with its own effect -/

/-- Nothing stops an instruction before its own checks: the encoding, the prefix and the register numbers are in order (R334),
some lane executes (R320), the handler's limits hold (R274), no register or latch it names is still owed by an access in flight
or by an instruction that waits (R129, R273) or held by a matrix entry (R241), its latches are valid (R137), its constants can be read now
(R180), the recipes of the dropped registers it needs replay now without a fault (R268), rows for what it materialises are free (R267), and no datum
that it consumes is in error (R293). `reads` are registers it
reads beyond its sources, `vs` and `ss` registers it writes beyond its destination, `mat` registers it materialises. -/
def State.issues (s : State) (sp : OpSpec) (f : Fields) (reads vs ss mat : List Nat) : Bool :=
  let ex := s.execLanes f
  let vs := vs ++ s.dstRegs sp f
  let ss := ss ++ scaDst sp f
  let regs := s.srcRegs sp f ++ reads
  let ns := s.me.touched vs ss ++ mat.filterMap s.me.droppedAs
  (s.encCauses sp f []).isEmpty && ex != 0 && !s.handlerFault sp f && !s.pendBusy sp f (regs ++ vs) ss && !s.me.matrixHolds vs &&
    (s.lostCauses f ex).isEmpty && !s.konstWaits f && (s.konstCauses f ex).isEmpty &&
    (s.replayFault s.focus.core s.me (regs ++ ns.map fun n => (s.me.recipe n).treg.toNat)).isNone &&
    s.rowsReady s.focus.core s.focus.slot ns s.focus.lanes && s.me.ecc.isNone

/-- The state in which its operands are read: it is noted whether an operand replays a recipe (R135), the recipes that its writes touch are
settled and its constants fetched. -/
def State.operands (s : State) (sp : OpSpec) (f : Fields) (reads vs ss mat : List Nat) : State :=
  (s.markReplay (s.srcRegs sp f ++ reads)).readied f (vs ++ s.dstRegs sp f) (ss ++ scaDst sp f) mat

/-- An instruction that reads and writes no register beyond the ones its fields name. -/
def State.issuesPlain (s : State) (sp : OpSpec) (f : Fields) : Bool := s.issues sp f [] [] [] []
def State.plainOperands (s : State) (sp : OpSpec) (f : Fields) : State := s.operands sp f [] [] [] []

/-! ## What two states have in common -/

/-- A gang without its registers, recipes and control state. -/
def Gang.others (g : Gang) : Gang :=
  { g with s := [], m := [], v := [], rcp := [], lanes := [], replay := [], waits := [], rowAt := none, rowNeed := 0, rowGrant := 0 }

/-- A core without its gangs and latches. -/
def CoreSt.others (k : CoreSt) : CoreSt := { k with gangs := [], latches := [] }

/-- All memory is the same: DRAM, and the scratchpad, deck, AM tiles and cached lines of every core and cluster. -/
structure State.SameMemory (s t : State) : Prop where
  dram : t.dram = s.dram
  homeBits : t.homeBits = s.homeBits
  spad : ∀ c, (t.core c).spad = (s.core c).spad
  spadFE : ∀ c, (t.core c).spadFE = (s.core c).spadFE
  decks : t.decks = s.decks
  am : ∀ c, (t.core c).am = (s.core c).am
  l1 : ∀ c, (t.core c).l1 = (s.core c).l1
  clusters : ∀ k, t.cluster k = s.cluster k

/-- Nothing but the issuing gang, its latches and the focus differs. -/
structure State.SameElsewhere (s t : State) : Prop where
  rest : { t with cores := [], focus := {} } = { s with cores := [], focus := {} }
  cores : ∀ c, c ≠ s.focus.core → t.core c = s.core c
  core : (t.core s.focus.core).others = (s.core s.focus.core).others
  gangs : ∀ g, g ≠ s.focus.slot → t.gang s.focus.core g = s.gang s.focus.core g
  latches : ∀ i, i ≠ latchIdx s.focus.slot → (t.core s.focus.core).latches.get {} i = (s.core s.focus.core).latches.get {} i

/-- The issuing gang as it stands in `t`. -/
abbrev State.mine (s t : State) : Gang := t.gang s.focus.core s.focus.slot
/-- The latches of the issuing gang as they stand in `t`. -/
abbrev State.myLatches (s t : State) : Latches := (t.core s.focus.core).latches.get {} (latchIdx s.focus.slot)

/-- The frame of an instruction that writes registers only: outside the issuing gang nothing changes, memory included; of the gang's
registers only the named scalar, mask and vector registers may; its recipes, engine contexts, windows, LFS, acquired sets and
ENACC do not; the PCs of the issuing lanes may change. -/
structure State.WritesOnly (s t : State) (scal mask vec : Nat → Prop) : Prop where
  elsewhere : s.SameElsewhere t
  memory : s.SameMemory t
  others : (s.mine t).others = s.me.others
  recipes : (s.mine t).rcp = s.me.rcp
  scalars : ∀ n, ¬ scal n → (s.mine t).sreg n = s.me.sreg n
  masks : ∀ n, ¬ mask n → (s.mine t).mreg n = s.me.mreg n
  vectors : ∀ r j, j < 64 → ¬ vec r → (s.mine t).vreg r j = s.me.vreg r j
  lanes : ∀ j, s.focus.lanes.getLsbD j = false → (s.mine t).lane j = s.me.lane j

/-- Of the registers of the whole device only the named ones of the issuing gang may change; its recipes, engine contexts, windows,
LFS, acquired sets and ENACC do not, nor do the lanes outside the issuing group (memory is not spoken of). -/
structure State.SameRegs (s t : State) (scal mask vec : Nat → Prop) : Prop where
  gangs : ∀ c g, c ≠ s.focus.core ∨ g ≠ s.focus.slot → t.gang c g = s.gang c g
  others : (s.mine t).others = s.me.others
  recipes : (s.mine t).rcp = s.me.rcp
  scalars : ∀ n, ¬ scal n → (s.mine t).sreg n = s.me.sreg n
  masks : ∀ n, ¬ mask n → (s.mine t).mreg n = s.me.mreg n
  vectors : ∀ r j, j < 64 → ¬ vec r → (s.mine t).vreg r j = s.me.vreg r j
  lanes : ∀ j, s.focus.lanes.getLsbD j = false → (s.mine t).lane j = s.me.lane j

/-- Every byte of DRAM, scratchpad, deck and AM is the same. -/
structure State.SameBytes (s t : State) : Prop where
  dram : t.dram = s.dram
  spad : ∀ c, (t.core c).spad = (s.core c).spad
  spadFE : ∀ c, (t.core c).spadFE = (s.core c).spadFE
  decks : t.decks = s.decks
  am : ∀ c, (t.core c).am = (s.core c).am

/-- The lines of the caches are the same. -/
structure State.SameLines (s t : State) : Prop where
  l1 : ∀ c, (t.core c).l1 = (s.core c).l1
  l2 : ∀ k, (t.cluster k).l2 = (s.cluster k).l2

/-- No register of a class. -/
def noReg : Nat → Prop := fun _ => False

/-- Every lane of the issuing group goes on with the next instruction, stamps unchanged (R124). -/
structure State.MovedOn (s t : State) : Prop where
  done : t.focus.done = true
  pc : ∀ j, j < 64 → s.focus.lanes.getLsbD j = true → ((s.mine t).lane j).pc = s.focus.pc + BitVec.ofNat 64 s.focus.len
  stamp : ∀ j, j < 64 → s.focus.lanes.getLsbD j = true → ((s.mine t).lane j).stamp = (s.me.lane j).stamp

/-- A 64-bit scalar result: sD, unless only the latch is written, and the scalar part of latch LAT (R134, R355); s0 discards it
(R122). -/
structure State.ScalarResult (s t : State) (f : Fields) (v : DWord) : Prop where
  reg : f.nwb = false → f.dst.toNat ≠ 0 → (s.mine t).sreg f.dst.toNat = v
  zero : (s.mine t).sreg 0 = 0
  latch : (s.myLatches t).sca.get 0 f.lat.toNat = v
  owner : (s.myLatches t).owner.get none f.lat.toNat = some s.focus.slot

/-- A mask result: mD and the latch, cleared at and above GW (R123, R364). -/
structure State.MaskResult (s t : State) (f : Fields) (v : Mask) : Prop where
  reg : f.nwb = false → (s.mine t).mreg f.dst.toNat = v &&& s.me.gwMask
  latch : (s.myLatches t).sca.get 0 f.lat.toNat = v &&& s.me.gwMask
  owner : (s.myLatches t).owner.get none f.lat.toNat = some s.focus.slot

/-- What a lane receives: zero where PZ names it, else its own value at the destination's width (R373). -/
def laneValue (wide : Bool) (zero : Mask) (val : Nat → Nat) (j : Nat) : Nat :=
  if zero.getLsbD j then 0 else val j % 2 ^ (if wide then 64 else 32)

/-- A vector result, a register or a pair: each lane of `ex` holds its own value, each lane of `zero` holds zero, every other lane
of every register keeps what it held (R355, R373); the latch takes the same values (R134). -/
structure State.VectorResult (s t : State) (f : Fields) (wide : Bool) (ex zero : Mask) (val : Nat → Nat) : Prop where
  low : f.nwb = false → ∀ j, j < 64 → (ex ||| zero).getLsbD j = true →
    (s.mine t).vreg (dstReg s.me f) j = BitVec.ofNat 32 (laneValue wide zero val j)
  high : f.nwb = false → wide = true → ∀ j, j < 64 → (ex ||| zero).getLsbD j = true →
    (s.mine t).vreg (dstReg s.me f + 1) j = BitVec.ofNat 32 (laneValue wide zero val j / 2 ^ 32)
  kept : ∀ q j, j < 64 → (ex ||| zero).getLsbD j = false → (s.mine t).vreg q j = s.me.vreg q j
  latch : ∀ j, j < 64 → (ex ||| zero).getLsbD j = true →
    (s.myLatches t).vec.get 0 (64 * f.lat.toNat + j) = BitVec.ofNat 64 (laneValue wide zero val j)
  owner : (s.myLatches t).owner.get none f.lat.toNat = some s.focus.slot

/-- Each lane of the issuing group goes where `next` sends it, its stamp raised by the second part (R366). -/
structure State.LanesGo (s t : State) (next : Nat → DWord × Nat) : Prop where
  done : t.focus.done = true
  pc : ∀ j, j < 64 → s.focus.lanes.getLsbD j = true → ((s.mine t).lane j).pc = (next j).1
  stamp : ∀ j, j < 64 → s.focus.lanes.getLsbD j = true →
    ((s.mine t).lane j).stamp = (s.me.lane j).stamp + BitVec.ofNat 32 (next j).2

/-- The registers a vector destination may change. -/
def vecDst (s : State) (f : Fields) (wide : Bool) : Nat → Prop := fun r =>
  f.nwb = false ∧ (r = dstReg s.me f ∨ (wide = true ∧ r = dstReg s.me f + 1))

/-- The scalar and mask destinations. -/
def scalDst (f : Fields) : Nat → Prop := fun n => f.nwb = false ∧ n = f.dst.toNat

/-- What a lane receives in register k of a run. -/
def runValue (zero : Mask) (val : Nat → Nat → Nat) (k j : Nat) : Nat := if zero.getLsbD j then 0 else val k j

/-- A run of `n` registers from `r` written in the lanes of `ex`, zeroed in those of `zero`; the latch takes the first two (R373). -/
structure State.RunResult (s t : State) (f : Fields) (r n : Nat) (ex zero : Mask) (val : Nat → Nat → Nat) : Prop where
  reg : ∀ k j, k < n → j < 64 → (ex ||| zero).getLsbD j = true → (s.mine t).vreg (r + k) j = BitVec.ofNat 32 (runValue zero val k j)
  kept : ∀ q j, j < 64 → (ex ||| zero).getLsbD j = false → (s.mine t).vreg q j = s.me.vreg q j
  latch : ∀ j, j < 64 → (ex ||| zero).getLsbD j = true → (s.myLatches t).vec.get 0 (64 * f.lat.toNat + j) =
    BitVec.ofNat 64 (runValue zero val 0 j % 2 ^ 32 + if 1 < n then runValue zero val 1 j % 2 ^ 32 * 2 ^ 32 else 0)
  owner : (s.myLatches t).owner.get none f.lat.toNat = some s.focus.slot

/-- The registers of a run. -/
def runDst (r n : Nat) : Nat → Prop := fun q => r ≤ q ∧ q < r + n

/-- An instruction ends with a run written, and nothing else changes. -/
structure State.RunDone (s t : State) (f : Fields) (r n : Nat) (ex zero : Mask) (val : Nat → Nat → Nat) : Prop where
  result : s.RunResult t f r n ex zero val
  frame : s.WritesOnly t noReg noReg (runDst r n)
  moved : s.MovedOn t

/-- An instruction ends with a scalar result, and nothing else changes. -/
structure State.ScalarDone (s t : State) (f : Fields) (v : DWord) : Prop where
  result : s.ScalarResult t f v
  frame : s.WritesOnly t (scalDst f) noReg noReg
  moved : s.MovedOn t

/-- An instruction ends with a mask result, and nothing else changes. -/
structure State.MaskDone (s t : State) (f : Fields) (v : Mask) : Prop where
  result : s.MaskResult t f v
  frame : s.WritesOnly t noReg (scalDst f) noReg
  moved : s.MovedOn t

/-- An instruction ends with a vector result in the lanes of `ex` and zero in those of `zero`, and nothing else changes. -/
structure State.VectorDone (s t : State) (f : Fields) (wide : Bool) (ex zero : Mask) (val : Nat → Nat) : Prop where
  result : s.VectorResult t f wide ex zero val
  frame : s.WritesOnly t noReg noReg (vecDst s f wide)
  moved : s.MovedOn t

end Machine
end Sys2Proof
end

