-- ==== Sys2Proof/Certificates/Slice0/Obligations.lean ====
section
/-! DEFINITION. The statements for the provers. `s.issuesPlain sp f` says that nothing stops the instruction before its own checks;
`s.plainOperands sp f` is the state its operands are read in. Both hold for every form of every operand. -/

open Sys2Proof Sys2Proof.Machine

namespace Sys2Proof.Claims

/-! ## Group 0x0 -/

/-- A source of group 0x0 at the type's width and signedness (R355). -/
def valA (o : State) (sp : OpSpec) (f : Fields) : Int := toInt (tyIsI f.ty) (tyBits f.ty) (o.sa sp f)
def valB (o : State) (sp : OpSpec) (f : Fields) : Int := toInt (tyIsI f.ty) (tyBits f.ty) (o.sb sp f)
def valC (o : State) (sp : OpSpec) (f : Fields) : Int := toInt (tyIsI f.ty) (tyBits f.ty) (o.sc sp f)

/-- The w-bit pattern of a source. -/
def bitsA (o : State) (sp : OpSpec) (f : Fields) : Nat := o.sa sp f % 2 ^ tyBits f.ty
def bitsB (o : State) (sp : OpSpec) (f : Fields) : Nat := o.sb sp f % 2 ^ tyBits f.ty

/-- A result as R355 writes it: reduced modulo 2^w, then extended by the type's signedness. -/
def reduced (f : Fields) (r : Int) : DWord :=
  BitVec.ofInt 64 (toInt (tyIsI f.ty) (tyBits f.ty) (r % (2 ^ tyBits f.ty : Nat)).toNat)

/-- Conditions 0 to 5: eq, ne, lt, le, gt, ge (R358). -/
def compares (n : Nat) (a b : Int) : Bool :=
  (n == 0 && decide (a = b)) || (n == 1 && decide (a ≠ b)) || (n == 2 && decide (a < b)) || (n == 3 && decide (a ≤ b)) ||
    (n == 4 && decide (b < a)) || (n == 5 && decide (b ≤ a))

/-- Leading zero bits and one bits of a w-bit pattern. -/
def leadZeros (w v : Nat) : Nat := ((List.range w).takeWhile fun i => !v.testBit (w - 1 - i)).length
def oneBits (w v : Nat) : Nat := ((List.range w).filter fun i => v.testBit i).length

/-- Quotient and remainder of R360 before reduction. -/
def quotient (a b : Int) : Int := if b = 0 then -1 else a.tdiv b
def remainder (a b : Int) : Int := if b = 0 then a else a - b * a.tdiv b

/-- The results of R359 and R360: the instruction's fields and its exact result. -/
def arithmetic (o : State) (sp : OpSpec) : Instr → Option (Fields × Int)
  | .smov f => some (f, valA o sp f)
  | .sadd f => some (f, valA o sp f + valB o sp f)
  | .ssub f => some (f, valA o sp f - valB o sp f)
  | .smul f => some (f, valA o sp f * valB o sp f)
  | .smulh f => some (f, valA o sp f * valB o sp f / (2 ^ tyBits f.ty : Nat))
  | .sdiv f => some (f, quotient (valA o sp f) (valB o sp f))
  | .srem f => some (f, remainder (valA o sp f) (valB o sp f))
  | .sand f => some (f, (bitsA o sp f &&& bitsB o sp f : Nat))
  | .sor f => some (f, (bitsA o sp f ||| bitsB o sp f : Nat))
  | .sxor f => some (f, (bitsA o sp f ^^^ bitsB o sp f : Nat))
  | .smin f => some (f, min (valA o sp f) (valB o sp f))
  | .smax f => some (f, max (valA o sp f) (valB o sp f))
  | .scmp f => some (f, if compares f.fn.toNat (valA o sp f) (valB o sp f) then 1 else 0)
  | .ssel f => some (f, if compares f.fn.toNat (valC o sp f) 0 then valA o sp f else valB o sp f)
  | .sclz f => some (f, leadZeros (tyBits f.ty) (bitsA o sp f))
  | .spopc f => some (f, oneBits (tyBits f.ty) (bitsA o sp f))
  | _ => none

/-- A shift of w-bit patterns, an addition of a shifted value and the bit fields of R361, counts whole and unsigned: the exact
result. `old` is the destination's low w bits. -/
def shiftLeft (w a n : Nat) : Nat := if w ≤ n then 0 else a * 2 ^ n
def shiftRight (w a n : Nat) : Nat := if w ≤ n then 0 else a / 2 ^ n
def shiftArith (w a n : Nat) : Int := if w ≤ n then (if a.testBit (w - 1) then -1 else 0) else toInt true w a / (2 ^ n : Nat)
def fieldOf (sg : Bool) (w a pos len : Nat) : Int :=
  if len = 0 ∨ w < pos + len then 0 else toInt sg len (a / 2 ^ pos % 2 ^ len)
def fieldPut (w old a pos len : Nat) : Nat :=
  if len = 0 ∨ w < pos + len then old else old % 2 ^ pos + a % 2 ^ len * 2 ^ pos + old / 2 ^ (pos + len) * 2 ^ (pos + len)

def shifts (o : State) (sp : OpSpec) : Instr → Option (Fields × Int)
  | .sshl f => some (f, shiftLeft (tyBits f.ty) (bitsA o sp f) (o.countB sp f))
  | .sshr f => some (f, shiftRight (tyBits f.ty) (bitsA o sp f) (o.countB sp f))
  | .ssra f => some (f, shiftArith (tyBits f.ty) (bitsA o sp f) (o.countB sp f))
  | .slea f => some (f, valA o sp f + shiftLeft (tyBits f.ty) (bitsB o sp f) (o.countC sp f))
  | .sbfx f => some (f, fieldOf (tyIsI f.ty) (tyBits f.ty) (bitsA o sp f) (o.countB sp f) (o.countC sp f))
  | .sbfi f => some (f, fieldPut (tyBits f.ty) ((o.me.sreg f.dst.toNat).toNat % 2 ^ tyBits f.ty) (bitsA o sp f) (o.countB sp f) (o.countC sp f))
  | _ => none

/-- The mask results of R364. -/
def maskResults (o : State) (sp : OpSpec) : Instr → Option (Fields × Mask)
  | .mmov f => some (f, BitVec.ofNat 64 (o.sa sp f))
  | .mand f => some (f, BitVec.ofNat 64 (o.sa sp f) &&& BitVec.ofNat 64 (o.sb sp f))
  | .mor f => some (f, BitVec.ofNat 64 (o.sa sp f) ||| BitVec.ofNat 64 (o.sb sp f))
  | .mxor f => some (f, BitVec.ofNat 64 (o.sa sp f) ^^^ BitVec.ofNat 64 (o.sb sp f))
  | .mandn f => some (f, BitVec.ofNat 64 (o.sa sp f) &&& ~~~(BitVec.ofNat 64 (o.sb sp f)))
  | _ => none

/-- The index of the lowest one bit below `n`, 64 if there is none. -/
def lowestBit (n v : Nat) : Nat := ((List.range n).find? fun i => v.testBit i).getD 64

/-! ## Group 0x1 -/

/-- PC + 4·d (R354), the instruction's displacement in source `x`. -/
def branchTarget (s : State) (f : Fields) (x : Src) : DWord := s.focus.pc + BitVec.ofInt 64 (4 * dispOf f x)

/-- Where a control instruction sends lane j: taken lanes to their target, every other to the next instruction; a backward target
raises the stamp where `stamps` (R366). -/
def goes (s : State) (taken : Mask) (stamps : Bool) (target : Nat → DWord) (j : Nat) : DWord × Nat :=
  if taken.getLsbD j then (target j, if stamps && decide (target j ≤ s.focus.pc) then 1 else 0)
  else (s.focus.pc + BitVec.ofNat 64 s.focus.len, 0)

/-- Lane `j` as a `regang` of the lanes `taken` leaves it before any release (R132, R369): a taken lane is parked where it is, the group's
other lanes go on. -/
def parkedLane (o : State) (taken : Mask) (any : Bool) (j : Nat) : LaneSt :=
  let x := o.me.lane j
  let y : LaneSt :=
    if o.focus.lanes.getLsbD j then { x with pc := if taken.getLsbD j then o.focus.pc else o.focus.pc + BitVec.ofNat 64 o.focus.len } else x
  if taken.getLsbD j then { y with parked := true, parkAny := any } else y

/-- Some lane that has not exited is then parked, and every one is parked or suspended. -/
def allParked (o : State) (taken : Mask) (any : Bool) : Prop :=
  (∃ j, j < 64 ∧ o.me.liveLanes.getLsbD j = true ∧ (parkedLane o taken any j).parked = true) ∧
    ∀ j, j < 64 → o.me.liveLanes.getLsbD j = true →
      (parkedLane o taken any j).parked = true ∨ (parkedLane o taken any j).susp = true

/-- The latest stamp of a list, by signed difference. -/
def latestStamp : List Word → Word
  | [] => 0
  | x :: l => l.foldl (fun a b => if (a - b).toInt < 0 then b else a) x

/-- Lane `j` after the release (R132): a parked lane goes on behind its `regang`; the lanes of one `regang.any` take the latest of their
stamps. -/
def releasedLane (o : State) (taken : Mask) (any : Bool) (j : Nat) : LaneSt :=
  let x := parkedLane o taken any j
  let waits (i : Nat) : Bool := (parkedLane o taken any i).parked && !(parkedLane o taken any i).exited
  let with_ : List Nat := (List.range 64).filter fun i => waits i && (parkedLane o taken any i).parkAny && (parkedLane o taken any i).pc == x.pc
  if waits j then
    { x with
      pc := x.pc + 8, parked := false, parkAny := false
      stamp := if x.parkAny then latestStamp (with_.map fun i => (parkedLane o taken any i).stamp) else x.stamp }
  else x

/-! ## Groups 0x2 to 0x5 -/

/-- The elements of a lane packed into a register, or a pair (R371). -/
def joined (w : Nat) (r : Nat → Int) : Nat := ((List.range (elems w)).map fun k => (r k % (2 ^ w : Nat)).toNat * 2 ^ (w * k)).sum

/-- The element results of R376 and R377: the fields, and the exact result from the patterns of the elements of A, B and C. -/
def intElement (i : Instr) : Option (Fields × (Nat → Nat → Nat → Int)) :=
  let v (f : Fields) (x : Nat) : Int := toInt (tyIsI f.ty) (tyBits f.ty) x
  let clamp (f : Fields) (r : Int) : Int :=
    if f.fn.getLsbD 0 then max (intMin (tyIsI f.ty) (tyBits f.ty)) (min (intMax (tyIsI f.ty) (tyBits f.ty)) r) else r
  match i with
  | .vaddInt f => some (f, fun a b _ => clamp f (v f a + v f b))
  | .vsubInt f => some (f, fun a b _ => clamp f (v f a - v f b))
  | .vmulInt f => some (f, fun a b _ => v f a * v f b)
  | .vmulh f => some (f, fun a b _ => v f a * v f b / (2 ^ tyBits f.ty : Nat))
  | .vmad f => some (f, fun a b c => v f a * v f b + v f c)
  | .vdivInt f => some (f, fun a b _ => quotient (v f a) (v f b))
  | .vrem f => some (f, fun a b _ => remainder (v f a) (v f b))
  | .vabsInt f => some (f, fun a _ _ => |v f a|)
  | .vnegInt f => some (f, fun a _ _ => -(v f a))
  | .vminInt f => some (f, fun a b _ => min (v f a) (v f b))
  | .vmaxInt f => some (f, fun a b _ => max (v f a) (v f b))
  | .vand f => some (f, fun a b _ => (a &&& b : Nat))
  | .vor f => some (f, fun a b _ => (a ||| b : Nat))
  | .vxor f => some (f, fun a b _ => (a ^^^ b : Nat))
  | .vnot f => some (f, fun a _ _ => -(a : Int) - 1)
  | .vshl f => some (f, fun a b _ => shiftLeft (tyBits f.ty) a b)
  | .vshr f => some (f, fun a b _ => shiftRight (tyBits f.ty) a b)
  | .vsra f => some (f, fun a b _ => shiftArith (tyBits f.ty) a b)
  | .vrot f => some (f, fun a b _ => a * 2 ^ (b % tyBits f.ty) + a / 2 ^ (tyBits f.ty - b % tyBits f.ty))
  | .vclz f => some (f, fun a _ _ => leadZeros (tyBits f.ty) a)
  | .vpopc f => some (f, fun a _ _ => oneBits (tyBits f.ty) a)
  | .vmov f => some (f, fun a _ _ => a)
  | .vbfx f => some (f, fun a b c => fieldOf (tyIsI f.ty) (tyBits f.ty) a b c)
  | _ => none

/-- The lane's dot product of R378. -/
def dot4 (f : Fields) (a b c : Nat) : Int :=
  let w := tyBits f.ty
  let p := ((List.range (32 / w)).map fun k => toInt (tyIsI f.ty) w (elem w k a) * toInt (tyIsI f.ty) w (elem w k b)).sum
  let r := toInt (tyIsI f.ty) 32 c + p
  if f.fn.getLsbD 0 then max (intMin (tyIsI f.ty) 32) (min (intMax (tyIsI f.ty) 32) r) else r

/-- A value written to a 32-bit register. -/
def low32 (r : Int) : Nat := (r % (2 ^ 32 : Nat)).toNat

/-- The float results of R381 to R383 for one element: the exact operation on the sources after ftz_src, rounded once under the
instruction's mode and slot. A transcendental result lies between the two ends of its enclosure (log entry 20). -/
def floatElement (e : Env) (m : Fmt) (i : Instr) : Option (Fields × (Nat → Nat → Nat → Nat)) :=
  let x (v : Nat) : XVal := m.source e.slot.ftz v
  let rnd (v : XVal) : Nat := m.round e.mode e.slot.ftz e.slot.sat 0 v
  let down := e.mode == modeRDN
  match i with
  | .vaddFloat f => some (f, fun a b _ => rnd ((x a).add down (x b)))
  | .vsubFloat f => some (f, fun a b _ => rnd ((x a).add down (x b).negate))
  | .vmulFloat f => some (f, fun a b _ => rnd ((x a).mul (x b)))
  | .vdivFloat f => some (f, fun a b _ => rnd ((x a).div (x b)))
  | .vfma f => some (f, fun a b c => rnd (((x a).mul (x b)).add down (x c)))
  | .vfms f => some (f, fun a b c => rnd (((x a).mul (x b)).add down (x c).negate))
  | .vfnma f => some (f, fun a b c => rnd (((x a).mul (x b)).negate.add down (x c)))
  | .vsqrt f => some (f, fun a _ _ => rnd (x a).sqrt)
  | .vrsqrt f => some (f, fun a _ _ => rnd (x a).rsqrt)
  | .vrcp f => some (f, fun a _ _ => rnd (x a).rcp)
  | .vexp2 f => some (f, fun a _ _ => (x a).exp2.round m e.mode e.slot.ftz e.slot.sat (Config.roundUpChoice a))
  | .vlog2 f => some (f, fun a _ _ => (x a).log2.round m e.mode e.slot.ftz e.slot.sat (Config.roundUpChoice a))
  | .vlse f => some (f, fun a b _ => ((x a).lse (x b)).round m e.mode e.slot.ftz e.slot.sat (Config.roundUpChoice (a * 2 ^ 32 + b)))
  | .vscale f => some (f, fun a b _ => rnd ((x a).scale (toInt true m.bits b)))
  | .vminFloat f => some (f, fun a b _ => m.minmax false e.slot.ftz a b)
  | .vmaxFloat f => some (f, fun a b _ => m.minmax true e.slot.ftz a b)
  | .vabsFloat f => some (f, fun a _ _ => m.abs e.slot.ftz a)
  | .vnegFloat f => some (f, fun a _ _ => m.neg e.slot.ftz a)
  | .vclass f => some (f, fun a _ _ => m.classOf a)
  | _ => none

/-- The reading of lane `l` by a cross-lane instruction: zero where the lane was never launched or has exited (R140, R393). -/
def crossA (o : State) (sp : OpSpec) (f : Fields) (l : Nat) : Nat := if o.me.liveLanes.getLsbD l then o.va sp f l else 0

/-- What lane j receives from a permutation or a broadcast (R393). -/
def permuted (o : State) (sp : OpSpec) (ex : Mask) (i : Instr) : Option (Fields × (Nat → Nat)) :=
  match i with
  | .vperm f => some (f, fun j => crossA o sp f (o.vb sp f j % 2 ^ 32 % o.me.gw))
  | .vshfl f =>
    let b := o.sb sp f % 2 ^ 32
    some (f, fun j => crossA o sp f
      (if f.fn.toNat = 0 then b % o.me.gw
       else if f.fn.toNat = 1 then (if j < b then j else j - b)
       else if f.fn.toNat = 2 then (if o.me.gw ≤ j + b then j else j + b)
       else (j ^^^ b) % o.me.gw))
  | .vbcl f => some (f, fun _ => crossA o sp f ((lanesOf ex).head?.getD 0))
  | .vcomp f => some (f, fun j =>
      match (lanesOf (BitVec.ofNat 64 (o.sb sp f) &&& o.me.gwMask))[(lanesOf ex).idxOf j]? with
      | some l => crossA o sp f l
      | none => 0)
  | _ => none

/-- The running totals of the executing lanes e0, e1, … in ascending order (R394). -/
def totals (o : State) (sp : OpSpec) (f : Fields) : List Nat → List Nat
  | [] => []
  | e :: es => es.scanl (fun acc l => combine (o.env f).slot.ftz f acc (o.va sp f l)) (o.va sp f e)

/-- What lane j receives from a reduction or a scan (R394). -/
def reduction (o : State) (sp : OpSpec) (ex : Mask) (i : Instr) : Option (Fields × (Nat → Nat)) :=
  match i with
  | .vred f => some (f, fun _ => (totals o sp f (lanesOf ex)).getLast?.getD 0)
  | .vscan f => some (f, fun j => (totals o sp f (lanesOf ex)).getD ((lanesOf ex).idxOf j) 0)
  | .vscanx f => some (f, fun j => (combineUnit f :: totals o sp f (lanesOf ex)).getD ((lanesOf ex).idxOf j) 0)
  | _ => none

/-! ## Groups 0x6 and 0x7 -/

/-- No watchpoint of the issuing core is enabled, and no race detector runs for the gang. -/
def calm (s : State) : Prop := (∀ n, n < 4 → (s.myCore.wctl.get 0 n).getLsbD 0 = false) ∧ s.raceMode s.me = 0

/-- The accesses of one element per lane: what each instruction wants of its page, whether it returns a value, the registers it
reads beyond its sources, and each lane's access (R397, R401, R405, R406). -/
structure Element where
  f : Fields
  want : Want
  ret : Bool
  reads : State → List Nat
  acc : OpSpec → State → Nat → Access

def element (i : Instr) : Option Element :=
  match i with
  | .ld f => if f.ctl.fmte then none else
      some { f, want := .read, ret := true, reads := fun _ => [], acc := fun sp s j =>
        { va := s.eaOf sp f j, bytes := tyBits f.ty / 8, kind := .load, ty := f.ty, acq := f.acq, scope := f.ctl.sc.toNat, order := s.orderOf f, noWatch := s.noWatch } }
  | .st f => if f.ctl.fmte then none else
      some { f, want := .write, ret := false, reads := fun _ => [], acc := fun sp s j =>
        { va := s.eaOf sp f j, bytes := tyBits f.ty / 8, kind := .store, ty := f.ty, data := s.vc sp f j % 2 ^ tyBits f.ty, rel := f.rel
          scope := f.ctl.sc.toNat, order := s.orderOf f, noWatch := s.noWatch } }
  | .atom f => some { f, want := .write, ret := true, reads := fun _ => [], acc := fun sp s j =>
      { va := s.eaOf sp f j, bytes := tyBits f.ty / 8, kind := .atom f.fn.toNat, ty := f.ty, data := s.vc sp f j % 2 ^ tyBits f.ty
        acq := f.acq, rel := f.rel, scope := f.ctl.sc.toNat, order := s.orderOf f, noWatch := s.noWatch } }
  | .cas f => some { f, want := .write, ret := true
                     reads := fun s => if ty64 f then [dstReg s.me f, dstReg s.me f + 1] else [dstReg s.me f]
                     acc := fun sp s j =>
      { va := s.eaOf sp f j, bytes := tyBits f.ty / 8, kind := .cas, ty := f.ty, data := s.vc sp f j % 2 ^ tyBits f.ty
        cmp := s.oldDst f (ty64 f) j, acq := f.acq, rel := f.rel, scope := f.ctl.sc.toNat, order := s.orderOf f, noWatch := s.noWatch } }
  | _ => none

/-- Every executing lane's access passes its checks, lands at `p j`, and waits for no earlier one. -/
def lanesAim (s : State) (f : Fields) (want : Want) (acc : Nat → Access) (ex : Mask) (p : Nat → Aim) : Prop :=
  ∀ j, j < 64 → ex.getLsbD j = true →
    s.aim f.scratch want (acc j).va (acc j).bytes (acc j).bytes = .ok (p j) ∧ s.laneWaits f j (acc j) = false

/-- The page of every executing lane's access can be translated now: a hit, or a walk that finds room (R172). -/
def pagesOpen (s : State) (va : Nat → Nat) (ex : Mask) : Prop :=
  ∀ j, j < 64 → ex.getLsbD j = true → s.walkOpen s.focus.core (s.space s.me).1 (s.space s.me).2 (va j) = true

/-- Neither the issuing core's L1 nor its cluster's L2 holds a dirty byte, so that no eviction writes memory. -/
def clean (s : State) : Prop := (∀ e ∈ s.myCore.l1, e.2.mask = 0) ∧ ∀ e ∈ (s.cluster s.myCluster).l2, e.2.mask = 0

/-- The executing lanes' accesses in ascending order: the state after them, the values that lanes receive, the causes of others, and the
lanes whose access has to wait and stays in flight. -/
def lanesRun (i : Instr) (e : Element) (sp : OpSpec) (o : State) (q : Nat → Aim) (ex : Mask) : State × SMap Nat × Causes × Mask :=
  (o.accessBegin e.f.scratch (e.acc sp o) ex).performLanes (fun j => .ok (q j)) (e.acc sp o) o.focus.fly
    (fun j t => o.newPend i sp e.f j t (e.acc sp o j) (if e.ret && !e.f.nwb then some (dstReg o.me e.f) else none)) ex

/-- Byte `x` of a memory after the lanes of `l` have written, in ascending order, `n` bytes of `data j` from `key j`: the last lane
that covers it, or what it held. -/
def afterStores (l : List Nat) (key : Nat → Nat) (n : Nat) (data : Nat → Nat) (old : Nat → Byte) (x : Nat) : Byte :=
  match l.reverse.find? fun j => key j ≤ x && x < key j + n with
  | some j => BitVec.ofNat 8 (data j / 256 ^ (x - key j))
  | none => old x

/-- The element value that a load of TYPE writes: sign-extended from a signed type narrower than 32 bits (R401). -/
def loaded (ty : BitVec 4) (v : Nat) : Nat :=
  (toInt (tyIsI ty && tyBits ty < 32) (tyBits ty) v % (2 ^ max 32 (tyBits ty) : Nat)).toNat

/-- What an atomic operation leaves in memory (R405). -/
def atomLeaves (fn : Nat) (ty : BitVec 4) (old c : Nat) : Nat :=
  let w := tyBits ty
  let v (x : Nat) : Int := toInt (tyIsI ty) w x
  let put (r : Int) : Nat := (r % (2 ^ w : Nat)).toNat
  match fn with
  | 0 => if ty = 0 then addF32 old c else put (v old + v c)
  | 1 => put (min (v old) (v c))
  | 2 => put (max (v old) (v c))
  | 3 => old &&& c
  | 4 => old ||| c
  | 5 => old ^^^ c
  | _ => c

/-- The wait of the gang of a range instruction is over, its range is well formed and mapped, its pages can be translated and the homes of
the lines `homes` reached now (R172, R192, R408, R410). -/
def rangeReady (s : State) (sp : OpSpec) (f : Fields) (limit : Nat) (writes : Bool) (homes : List Nat) : Prop :=
  s.sa sp f % 64 = 0 ∧ s.sb sp f % 64 = 0 ∧ s.sb sp f ≤ limit ∧ s.rangeFault (s.sa sp f) (s.sb sp f) = none ∧
    s.rangeWaits (s.rangeLines (s.sa sp f) (s.sb sp f)) writes (s.execLanes f) = false ∧
    (∀ va ∈ pageVas (s.sa sp f) (s.sb sp f), s.walkOpen s.focus.core (s.space s.me).1 (s.space s.me).2 va = true) ∧
    ∀ la ∈ homes, s.homeOpen s.focus.core (linePa la / 2 ^ 27) = true

/-- The lines of software-managed pages in the instruction's range. -/
def rangeLine (s : State) (sp : OpSpec) (f : Fields) (la : Nat) : Prop :=
  inLines (s.rangeLines (s.sa sp f) (s.sb sp f)) la = true

/-- A barrier instruction can reach its object `b` now: its list has room for it, its page can be translated, its home answers and its
superblock can be had, and no earlier access of its lanes stands before it (R172, R188, R196, R292). -/
def barReady (s : State) (sp : OpSpec) (f : Fields) (b : BarAt) (kind : AccKind) : Prop :=
  s.barAt sp f = .ok b ∧ s.barListFull b = false ∧ s.barReach b kind.writes (s.orderOf f) = none ∧ s.barOpen b kind.writes = true ∧
    (f.scratch = true ∨ s.walkOpen s.focus.core (s.space s.me).1 (s.space s.me).2 (s.eaUni sp f) = true) ∧
    ∀ j, j < 64 → (s.execLanes f).getLsbD j = true →
      s.mustWait s.focus.core s.focus.slot j (barAccess f (s.eaUni sp f) kind) = false

/-- The value of a barrier object. -/
def barValue (s : State) (b : BarAt) : Nat := s.barRead s.focus.core b.entry

/-- The object with count `n` and phase `p` in place of its own (R411). -/
def barWith (v n p : Nat) : Nat := v - v % 16 - barCount v * 2 ^ 40 + p + n * 2 ^ 40

/-- Memory but the 16 bytes of object `b`, whose home is `h`, is the same. -/
def onlyObject (o t : State) (b : BarAt) (h : Nat) : Prop :=
  t.decks = o.decks ∧ (∀ c, (t.core c).am = (o.core c).am ∧ (t.core c).spadFE = (o.core c).spadFE) ∧
    (∀ c x, ¬(b.spad = true ∧ c = b.core ∧ b.addr ≤ x ∧ x < b.addr + 16) → (t.core c).spad.read x = (o.core c).spad.read x) ∧
    ∀ x, ¬(b.spad = false ∧ dramKey h b.addr ≤ x ∧ x < dramKey h b.addr + 16) → t.dram.read x = o.dram.read x

/-! ## Groups 0x8 and 0xa: engine chains -/

/-- Context `n` can take an entry now: its ring is enabled and legal, not full, its next slot mapped writable with its page and its home
in reach, and no earlier access of the gang is unperformed (R172, R210, R225, R228). -/
def chainReady (s : State) (n : Nat) : Prop :=
  ringOk (s.me.ctx n).chring = true ∧ s.me.ringFull n = false ∧ s.owes (BitVec.allOnes 64) (fun _ => true) = false ∧
    s.walkOpen s.focus.core (s.space s.me).1 (s.space s.me).2 (s.me.nextSlot n) = true ∧ s.slotWaits n = false ∧
    ∃ q, s.translateFor s.focus.core s.me (s.me.nextSlot n) .write = .ok q

/-- Entry `e` has been appended to context `n` (R227, R228): KIND, RC, SEQ and NEXT are as given, ST and CAUSE are 0, TLISSn and sD hold
its number, and its 64 bytes stand in a coherent ring slot; no other context and no register but sD differs. -/
structure Appended (o t : State) (f : Fields) (n kind e : Nat) : Prop where
  moved : o.MovedOn t
  next : bits e 0 64 = ringSlot (o.me.ctx n).chring ((o.me.ctx n).tliss.toNat + 1)
  seq : BitVec.ofNat 64 (bits e 64 64) = (o.me.ctx n).tliss + 1
  kind : bits e 128 4 = kind
  rc : bits e 132 3 = f.ctl.rc.toNat
  status : bits e 135 3 = 0 ∧ bits e 152 8 = 0
  issued : ((o.mine t).ctx n).tliss = (o.me.ctx n).tliss + 1
  counted : ((o.mine t).ctx n).tlcnt = (o.me.ctx n).tlcnt
  number : o.ScalarResult t f ((o.me.ctx n).tliss + 1)
  contexts : ∀ k, k ≠ n → (o.mine t).ctx k = o.me.ctx k
  scalars : ∀ r, ¬ scalDst f r → (o.mine t).sreg r = o.me.sreg r
  masks : ∀ r, (o.mine t).mreg r = o.me.mreg r
  vectors : ∀ r j, (o.mine t).vreg r j = o.me.vreg r j
  memory : ∀ q h, (o.beginWalks [o.me.nextSlot n]).translateFor o.focus.core o.me (o.me.nextSlot n) .write = .ok q → q.kind = .coherent →
    o.physOf (q.pa / 2 ^ 27) = h → q.pa % 64 = 0 →
    t.homeRead o.myCluster q.pa 64 = e ∧
      (clean o → ∀ x, x < dramKey h q.pa ∨ dramKey h q.pa + 64 ≤ x → t.dram.read x = o.dram.read x)

/-- The slots of a matrix operation, its K, run and tiles (R236, R422). -/
def matA (s : State) (f : Fields) : Slot := s.slotN s.me f.ctl.sl.toNat
def matB (s : State) (f : Fields) : Slot := s.slotN s.me ((f.ctl.sl.toNat + 1) % 8)
def matRun (s : State) (sp : OpSpec) (f : Fields) : List Nat :=
  (List.range ((matA s f).imageRegs (s.sc sp f))).map (f.a.regNat + ·)
def matTiles (s : State) (sp : OpSpec) (f : Fields) (mode : Nat) : Nat := if mode = 1 ∧ s.sc sp f = 64 then 2 else 1
/-- The deck offset of octet `o`: B of its lowest executing lane, 0 for a Hadamard (R421). -/
def matOff (s : State) (sp : OpSpec) (f : Fields) (mode : Nat) (ex : Mask) (o : Nat) : Option Nat :=
  (octLane ex o).map fun l => if mode = 1 then 0 else s.vb sp f l % 2 ^ 32

/-- The words of AM that differ between two states lie under `words`. -/
def amElsewhere (o t : State) (words : Nat → Prop) : Prop :=
  ∀ c k, ¬ (c = o.focus.core ∧ words k) → (t.core c).am.get 0 k = (o.core c).am.get 0 k

/-- Memory but AM is the same. -/
def sameButAm (o t : State) : Prop :=
  t.dram = o.dram ∧ (∀ k, t.cluster k = o.cluster k) ∧ t.decks = o.decks ∧
    ∀ c, (t.core c).spad = (o.core c).spad ∧ (t.core c).l1 = (o.core c).l1

/-! ## Group 0x9 -/

/-- The instruction names window `f.a` of the gang in slot `k`, which is resident and whose width is `gw`; the window is `w`. -/
def names (s : State) (sp : OpSpec) (f : Fields) (k : Nat) (w : Win) (gw : Nat) : Prop :=
  f.a.immNat < s.me.seat.nwin ∧ s.winSlot sp f = some (some k) ∧ w = (s.gang s.focus.core k).win f.a.immNat ∧ gw = (s.gang s.focus.core k).gw

/-- The named window is `w` now; no other window, no register and no memory differs. -/
structure WindowSet (o t : State) (f : Fields) (k : Nat) (w : Win) : Prop where
  moved : o.MovedOn t
  window : (t.gang o.focus.core k).win f.a.immNat = w
  windows : ∀ c g n, c ≠ o.focus.core ∨ g ≠ k ∨ n ≠ f.a.immNat → (t.gang c g).win n = (o.gang c g).win n
  scalars : ∀ c g n, (t.gang c g).sreg n = (o.gang c g).sreg n
  masks : ∀ c g n, (t.gang c g).mreg n = (o.gang c g).mreg n
  vectors : ∀ c g r j, (t.gang c g).vreg r j = (o.gang c g).vreg r j
  memory : o.SameMemory t

/-- The contribution of lane group `k` (R249): the executing lanes' values, canonical, folded in ascending order, each with NEXTIDX for
the index operators. -/
def contribution (o : State) (sp : OpSpec) (f : Fields) (w : Win) (ex : Mask) (k : Nat) : Option DWord :=
  let one (j : Nat) : DWord :=
    BitVec.ofNat 64 (winCanon w.opc (o.vb sp f j % 2 ^ 32) + if winIsIdx w.opc then (w.group k).next.toNat * 2 ^ 32 else 0)
  match (lanesOf ex).filter fun j => j / 2 ^ w.glog == k with
  | [] => none
  | j :: js => some (js.foldl (fun acc i => winCombine w.opc acc (one i)) (one j))

/-- Left fold of a back stack: BAGG. -/
def leftFold (op : Nat) : List DWord → DWord
  | [] => 0
  | x :: xs => xs.foldl (winCombine op) x

/-- Right-nested aggregate of a list: the newest value innermost. -/
def rightFold (op : Nat) : List DWord → DWord
  | [] => winIdentity op
  | [x] => x
  | x :: xs => winCombine op x (rightFold op xs)

/-- A lane group's stacks hold the contributions `old ++ new`: f holds the suffix aggregates of `old`, back holds `new` (R251). -/
structure Stacks (op : Nat) (g : WinGroup) (old new : List DWord) : Prop where
  front : g.front = (List.range old.length).map fun i => rightFold op (old.drop i)
  back : g.back = new
  bagg : g.bagg = leftFold op new

/-- A lane group that an image can hold: a legal count, canonical values, BAGG the fold of the back stack (R258). -/
def imageable (w : Win) (g : WinGroup) : Prop :=
  let fits (v : DWord) : Prop := v.toNat < 2 ^ (8 * winElem w.opc) ∧ winCanon w.opc (v.toNat % 2 ^ 32) = v.toNat % 2 ^ 32
  g.count ≤ w.len ∧ g.bagg = leftFold w.opc g.back ∧ fits g.bagg ∧ (∀ v ∈ g.front, fits v) ∧ ∀ v ∈ g.back, fits v

/-! ## Group 0xa -/

/-- The argument of a timeline wait: s(A) + sext(B), modulo 2^64 (R443). -/
def waitFor (s : State) (sp : OpSpec) (f : Fields) : Nat := (s.sa sp f + s.sb sp f) % 2 ^ 64

/-! ## Groups 0xb and 0xc -/

/-- The fields of a record (R104). -/
structure RecordIs (r : BitVec 256) (code frame parent : DWord) (join core prio octs : Nat) (ltag : Half) : Prop where
  code : recCode r = code
  frame : recFrame r = frame
  parent : recParent r = parent
  join : recJoin r = join
  core : recCore r = core
  prio : recPrio r = prio
  octs : recOcts r = octs
  ltag : recLtag r = ltag

/-- The address s(A) + d of a record (R444). -/
def recordAt (s : State) (sp : OpSpec) (f : Fields) : Nat := ((((s.sa sp f : Nat) : Int) + dispOf f f.c) % (2 ^ 64 : Nat)).toNat

/-- Every access that precedes the instruction in the gang's order is performed at wafer scope (R446 to R448). -/
def settled (s : State) : Prop := s.releaseWaits (BitVec.allOnes 64) 5 = false

/-- What `sysr` returns for register number `x` of gang slot `t`, ENACC, v registers and GDBG aside (R453). -/
def registerValue (s : State) (t x : Nat) : Option DWord :=
  let g := s.gang s.focus.core t
  let k := s.cluster s.myCluster
  let rcp (n k : Nat) : DWord :=
    let e := g.recipe n
    BitVec.ofNat 64 (bits (e.treg.toNat + e.nm1.toNat * 2 ^ 12 + (if e.drop then 2 ^ 14 else 0) + (if e.act then 2 ^ 15 else 0) +
      e.body.toNat * 2 ^ 64 + e.bcopy.toNat * 2 ^ 128) (64 * k) 64)
  if x = 0x000 then some (s.pwstat s.myCluster)
  else if 0x008 ≤ x ∧ x < 0x010 then some (g.ctx (x - 0x008)).tlcnt
  else if 0x010 ≤ x ∧ x < 0x018 then some (g.ctx (x - 0x010)).tliss
  else if 0x018 ≤ x ∧ x < 0x020 then some (g.ctx (x - 0x018)).chring
  else if 0x020 ≤ x ∧ x < 0x028 then some ((g.ctx (x - 0x020)).cause ++ BitVec.ofNat 56 ((g.ctx (x - 0x020)).done % 2 ^ 48))
  else if 0x028 ≤ x ∧ x < 0x030 then some 0
  else if 0x030 ≤ x ∧ x < 0x040 then some (g.win (x - 0x030)).wdesc
  else if 0x040 ≤ x ∧ x < 0x050 then some (g.win (x - 0x040)).wlen
  else if 0x050 ≤ x ∧ x < 0x058 then some (k.fbase.get 0 (x - 0x050))
  else if 0x058 ≤ x ∧ x < 0x060 then some (k.flim.get 0 (x - 0x058))
  else if 0x060 ≤ x ∧ x < 0x068 then some (k.fland.get 0 (x - 0x060))
  else if 0x068 ≤ x ∧ x < 0x06c then some (s.myCore.waddr.get 0 (x - 0x068))
  else if 0x06c ≤ x ∧ x < 0x070 then some (s.myCore.wval.get 0 (x - 0x06c))
  else if 0x070 ≤ x ∧ x < 0x074 then some (s.myCore.wmask.get 0 (x - 0x070))
  else if 0x074 ≤ x ∧ x < 0x078 then some (s.myCore.wctl.get 0 (x - 0x074))
  else if x = 0x0c0 then some 0
  else if 0x100 ≤ x ∧ x < 0x300 ∧ (x - 0x100) % 16 < 10 then some (rcp ((x - 0x100) / 16) ((x - 0x100) % 16))
  else if 0x400 ≤ x ∧ x < 0x440 then some (g.sreg (x - 0x400))
  else if 0x440 ≤ x ∧ x < 0x450 then some (g.mreg (x - 0x440))
  else none

/-- Does the access to register number `x` with target operand `c` break a rule of R454? -/
def accessDenied (s : State) (x c : Nat) : Prop :=
  let named := c.testBit 4
  let t := if named then c % 16 else s.focus.slot
  let g := s.gang s.focus.core t
  let perGang : Bool := (0x001 ≤ x && x < 0x050) || 0x100 ≤ x
  sysReg x = none ∨ 2 ^ 11 ≤ c ∨ (if perGang then g.gw else s.me.gw) ≤ c / 32 % 64 ∨ (0x068 ≤ x ∧ x < 0x100 ∧ s.me.isHandler = false) ∨
    (perGang ∧ ((named = true ∧ s.me.isHandler = false) ∨ t = handlerSlot ∨ g.seat.used = false ∨
      (named = true ∧ 0x030 ≤ x ∧ g.trapped = false ∧ s.stopped s.focus.core t = false) ∨ (0x800 ≤ x ∧ g.nregs ≤ x - 0x800)))

/-- The registers that a `sysw` may change, by what a state holds of them: those of the gang that it names, and the issuing gang's not. -/
structure OnlySys (o t : State) (x g : Nat) : Prop where
  scalars : ∀ n, x ≠ 0x400 + n → (t.gang o.focus.core g).sreg n = (o.gang o.focus.core g).sreg n
  masks : ∀ n, x ≠ 0x440 + n → (t.gang o.focus.core g).mreg n = (o.gang o.focus.core g).mreg n
  vectors : ∀ r j, j < 64 → x ≠ 0x800 + r → (t.gang o.focus.core g).vreg r j = (o.gang o.focus.core g).vreg r j
  recipes : (t.gang o.focus.core g).rcp = (o.gang o.focus.core g).rcp
  contexts : ∀ n, x ≠ 0x018 + n → x ≠ 0x028 + n → (t.gang o.focus.core g).ctx n = (o.gang o.focus.core g).ctx n
  windows : ∀ n, x ≠ 0x040 + n → (t.gang o.focus.core g).win n = (o.gang o.focus.core g).win n
  issuer : o.focus.slot ≠ g → (∀ n, (o.mine t).sreg n = o.me.sreg n ∧ (o.mine t).mreg n = o.me.mreg n) ∧
    ∀ r j, (o.mine t).vreg r j = o.me.vreg r j
  gangs : ∀ c h, c ≠ o.focus.core ∨ (h ≠ g ∧ h ≠ o.focus.slot ∧ (x < 0x080 ∨ 0x08f ≤ x ∨ h ≠ x - 0x080)) → t.gang c h = o.gang c h
  watch : ∀ c n, (c ≠ o.focus.core ∨ x ≠ 0x068 + n → (t.core c).waddr.get 0 n = (o.core c).waddr.get 0 n) ∧
    (c ≠ o.focus.core ∨ x ≠ 0x06c + n → (t.core c).wval.get 0 n = (o.core c).wval.get 0 n) ∧
    (c ≠ o.focus.core ∨ x ≠ 0x070 + n → (t.core c).wmask.get 0 n = (o.core c).wmask.get 0 n) ∧
    (c ≠ o.focus.core ∨ x ≠ 0x074 + n → (t.core c).wctl.get 0 n = (o.core c).wctl.get 0 n)
  filters : ∀ k, (t.cluster k).fbase = (o.cluster k).fbase ∧ (t.cluster k).flim = (o.cluster k).flim ∧ (t.cluster k).fland = (o.cluster k).fland
  memory : ¬(0x028 ≤ x ∧ x < 0x030) → o.SameBytes t ∧ o.SameLines t

/-- A trap of the issuing gang is taken precisely (R272, R274): the gang is stopped with the trap in the core's queue, and no register,
no lane and no memory has changed. -/
structure Trapped (s t : State) (u : TrapRec) : Prop where
  queued : (t.core s.focus.core).work = s.myCore.work ++ [.trap u]
  slot : u.slot = s.focus.slot
  raised : u.raised = s.timeAt s.myCluster
  pc : u.entry.pc = s.focus.pc
  stopped : (s.mine t).trapped = true
  lanes : ∀ j, (s.mine t).lane j = s.me.lane j
  scalars : ∀ n, (s.mine t).sreg n = s.me.sreg n
  masks : ∀ n, (s.mine t).mreg n = s.me.mreg n
  vectors : ∀ r j, (s.mine t).vreg r j = s.me.vreg r j
  recipes : (s.mine t).rcp = s.me.rcp
  memory : s.SameMemory t
  gangs : ∀ c g, c ≠ s.focus.core ∨ g ≠ s.focus.slot → t.gang c g = s.gang c g

/-- No trap of the issuing gang is waiting, and it is not the handler. -/
def untrapped (s : State) : Prop :=
  s.focus.slot ≠ handlerSlot ∧ ∀ w ∈ s.myCore.work, ∀ u, w = .trap u → u.slot ≠ s.focus.slot

/-! ## What the host does -/

/-- The completion queue takes any message at once. -/
def room (s : State) : Prop := s.cqOver = [] ∧ s.cqHeld = [] ∧ s.cqWait = [] ∧ 64 < s.cqFree

/-- Entry `e` has been written at the queue's tail; an empty queue interrupts the host (R84, R86). -/
structure Told (s t : State) (e : CqEntry) : Prop where
  entry : t.cq.get 0 s.cqTail = e.bits
  tail : t.cqTail = (s.cqTail + 1) % 4096
  irqs : t.irqs = if s.cqTail = s.cqHead then s.irqs + 1 else s.irqs

/-- The states of a superblock after a snoop of the superblocks `l`. -/
def snooped (s t : State) (l : List Nat) (k : Snoop) : Prop :=
  ∀ c sb, c < 192 → (t.cluster c).moesi.get .i sb =
    if l.contains sb then ((s.cluster c).moesi.get .i sb).after k else (s.cluster c).moesi.get .i sb

/-- Host accesses to memory, byte i of which lies at `pa i` by its window and at `key i` (R77, R78, R188). -/
def hostAccesses : Prop :=
  ∀ (s : State) (off n : Nat) (pa key : Nat → Nat), 0 < n → s.hostOpen off n = true →
    (∀ i, i < n → s.hostPa (off + i) = some (pa i) ∧ s.hostByte (pa i) = some (key i)) →
    let sbs := (List.range n).map fun i => pa i / 256
    let rest (t : State) : Prop := (∀ c, { t.core c with coh := (s.core c).coh } = s.core c) ∧
      ∀ k, { t.cluster k with moesi := (s.cluster k).moesi } = s.cluster k
    (∃ t, exec (.hostMemoryRead off n) s = .next t ∧
      t.hostReads = s.hostReads ++ answerParts (n + 1) ((List.range n).map fun i => s.dram.read (key i)) ∧
      snooped s t sbs .rs ∧ rest t ∧
      { t with hostReads := s.hostReads, clusters := s.clusters, cores := s.cores, freeCtr := s.freeCtr } = s) ∧
    ∀ data : List Byte, data.length = n →
      ∃ t, exec (.hostMemoryWrite off data) s = .next t ∧
        (∀ x, t.dram.read x = match (List.range n).reverse.find? fun i => key i == x with
          | some i => data.getD i 0
          | none => s.dram.read x) ∧
        snooped s t sbs .rx ∧ rest t ∧
        (∀ sb, t.homeBits.get 0 sb = if sbs.contains sb then 0 else s.homeBits.get 0 sb) ∧
        { t with dram := s.dram, clusters := s.clusters, cores := s.cores, homeBits := s.homeBits } = s

/-- Host accesses to the register blocks at `key` (R77). A read of TRCNT finds DELAY advanced by a free value, DROP as it was (R310; log entry 17). -/
def hostRegisters : Prop :=
  ∀ (s : State) (key size : Nat), key < 0x2000000 →
    let o := s.countDelay key
    ((∀ n w, hostReg key ≠ some (.trcnt n, w)) → o = s) ∧
    (bits (o.hostRegs.get 0 key).toNat 0 32 = bits (s.hostRegs.get 0 key).toNat 0 32 ∧
      bits (s.hostRegs.get 0 key).toNat 32 32 ≤ bits (o.hostRegs.get 0 key).toNat 32 32 ∧
      { o with hostRegs := s.hostRegs, freeCtr := s.freeCtr } = s) ∧
    (∀ v, o.blockRead key size = some v →
      exec (.hostMemoryRead (mailboxBase + key) size) s = .next { o with hostReads := s.hostReads ++ [BitVec.ofNat 128 v] }) ∧
    (o.blockRead key size = none →
      exec (.hostMemoryRead (mailboxBase + key) size) s = .next { o.flag 8 with hostReads := s.hostReads ++ [0] }) ∧
    ∀ v, s.object16 key = none →
      (∀ r m, hostReg key = some (r, size) → r.plain = some m →
        ∃ t, exec (.registerWrite (mailboxBase + key) size v) s = .next t ∧ t.hostRegs.get 0 key = v &&& m ∧
          (∀ k, k ≠ key → t.hostRegs.get 0 k = s.hostRegs.get 0 k) ∧ { t with hostRegs := s.hostRegs } = s) ∧
      ((∀ r w, hostReg key = some (r, w) → w ≠ size) → exec (.registerWrite (mailboxBase + key) size v) s = .next (s.flag 8))

/-- A refused start is told and changes no walker; a start whose image passes its checks takes the run's registers, its edges and its
entry node (R83, R90, R93). -/
def walkerStarts : Prop :=
  ∀ (w : Nat) (v : DWord) (s : State), w < 384 →
    (∀ c, s.startRefusal w v = some c → room s →
      ∃ t, exec (.walkerStart w v) s = .next t ∧ t.walkers = s.walkers ∧
        Told s t { payload := v, tag := v.extractLsb' 48 16, src := BitVec.ofNat 16 w, cause := BitVec.ofNat 8 c, kind := 3 }) ∧
    ∀ h l u, s.startRefusal w v = none →
      let reg (base : Nat) : DWord := s.hostRegs.get 0 (base + 8 * w)
      let base := (s.hostRegs.get 0 0x1000018).toNat + bits v.toNat 6 24 * 64
      let r : Run :=
        { base, asn := (reg 0x30000).extractLsb' 48 16, root := bits (reg 0x30000).toNat 16 25 * 2 ^ 16, raceCtl := reg 0x31000
          raceSh := reg 0x32000, raceLog := reg 0x33000, save := reg 0x35000, trBuf := reg 0x37000, trCtl := reg 0x38000 }
      let o : State := { s.setWalker w { st := 1, tag := v.extractLsb' 48 16, run := some r } with
                         hostRegs := s.hostRegs.put (0x39000 + 8 * w) 0 }
      r.regsBad = false → o.imageRead w base 0 64 = .ok h → headerOk h = true →
      o.imageEdges w base (bits h 0 32) (bits h 32 32) = .ok l → o.claimEdges w l.zipIdx = .ok u →
      ∃ t x, exec (.walkerStart w v) s = .next t ∧ (t.walker w).st = 1 ∧ (t.walker w).tag = v.extractLsb' 48 16 ∧ (t.walker w).run = some x ∧
        { r with nnode := bits h 0 32, entry := some (bits h 64 32), edges := l } = x ∧ (∀ k, k ≠ w → t.walker k = s.walker k) ∧
        t.hostRegs.get 0 (0x39000 + 8 * w) = 0

/-- The host takes entries: a walker whose GRAPH_FAULT is among them goes idle (R83, R84, R86). -/
def headMoves : Prop :=
  ∀ (v : DWord) (s : State), v.toNat < 4096 → (v.toNat + 4096 - s.cqHead) % 4096 ≤ (s.cqTail + 4096 - s.cqHead) % 4096 →
    s.cqOver = [] → s.cqHeld = [] → s.cqWait = [] → (∀ w r, (s.walker w).run = some r → r.fault = none) →
    ∃ t, exec (.cqHeadWrite v) s = .next t ∧ t.cqHead = v.toNat ∧ t.irqs = (if v.toNat = s.cqTail then s.irqs else s.irqs + 1) ∧
      (∀ w, t.walker w = match (s.walker w).faultAt with
        | some i => if (i + 4096 - s.cqHead) % 4096 < (v.toNat + 4096 - s.cqHead) % 4096 then { s.walker w with st := 0, faultAt := none }
                    else s.walker w
        | none => s.walker w) ∧
      { t with cqHead := s.cqHead, irqs := s.irqs, walkers := s.walkers } = s

/-- An invalidation is queued, and completes, once no access translated by what it removes is unperformed, with every TLB of the device
free of the pages it names (R174). -/
def invalidations : Prop :=
  (∀ (v : DWord) (s : State), exec (.tlbInvalidate v) s = .next { s with tlbQ := s.tlbQ ++ [(v, s.now)] }) ∧
  ∀ (v : DWord) (since : Nat) (rest : List (DWord × Nat)) (s : State), s.tlbQ = (v, since) :: rest →
    ((∃ p ∈ s.pends, invAccess v p = true) → exec .tlbInvalidateComplete s = .next s) ∧
    ((∀ p ∈ s.pends, invAccess v p = false) →
      ∃ t, exec .tlbInvalidateComplete s = .next t ∧ t.tlbQ = rest ∧ t.tlbCnt = s.tlbCnt + 1 ∧
        (∀ c, (t.core c).tlb = (s.core c).tlb.filter (fun e => !invMatches v e) ∧ (t.core c).icache = [] ∧
          { t.core c with tlb := (s.core c).tlb, icache := (s.core c).icache } = s.core c) ∧
        (∀ k, (t.cluster k).tlb = (s.cluster k).tlb.filter (fun e => !invMatches v e) ∧ { t.cluster k with tlb := (s.cluster k).tlb } = s.cluster k) ∧
        { t with tlbQ := s.tlbQ, tlbCnt := s.tlbCnt, cores := s.cores, clusters := s.clusters } = s)

/-- A kill of a run with no firing left writes its fault once the writes of its work are performed (R79, R304). -/
def kills : Prop :=
  ∀ (v : DWord) (r : Run) (s : State), bits v.toNat 0 9 < 384 →
    let w := bits v.toNat 0 9
    (s.walker w).st ≠ 0 → (s.walker w).st ≠ 3 → (s.walker w).run = some r → r.firings = [] → r.edges = [] → s.launchesOf w = [] →
    (s.workDone w = false → ∃ t, exec (.runkill v) s = .next t ∧ t.cq = s.cq ∧ (t.walker w).st = 1 ∧
      ∃ x, (t.walker w).run = some x ∧ x.fault = some (r.fault.getD (0x0b, 0xffffffff)) ∧ x.entry = none ∧ x.killed = true) ∧
    (s.workDone w = true → (∀ p ∈ s.cores, p.2.trq = []) → room s →
      ∃ t, exec (.runkill v) s = .next t ∧ (t.walker w).st = 3 ∧ (t.walker w).run = none ∧ (t.walker w).faultAt = some s.cqTail ∧
        (∀ k, k ≠ w → t.walker k = s.walker k) ∧ t.dram = s.dram ∧ t.cores = s.cores ∧ t.blocks = s.blocks ∧
        Told s t { payload := (r.fault.getD (0x0b, 0xffffffff)).2, tag := (s.walker w).tag, src := BitVec.ofNat 16 w
                   cause := BitVec.ofNat 8 (r.fault.getD (0x0b, 0xffffffff)).1, kind := 2 })

/-- A core takes a doorbell: its region is ON, and it is out of reset. -/
def coreUp (s : State) (n : Nat) : Prop :=
  s.phase = 3 ∧ (s.region (regionOf (clusterOf n))).st = .on ∧ (s.core n).inReset = false ∧ entryV (s.tableAt (clusterOf n) n) = true

/-- A doorbell waits for the handler, or is answered with CAUSE 0xff where another waits; a restart begins the handler anew, a trap
that it served first; a core without supply or in reset takes neither (R54, R56, R305). -/
def doorbells : Prop :=
  ∀ (n : Nat) (v : DWord) (s : State), n < nCores →
    (¬ coreUp s n → exec (.monitorDoorbell n v) s = .next s ∧ exec (.handlerRestart n v) s = .next s) ∧
    (coreUp s n → v.getLsbD 63 = false → (∀ q, HWork.doorbell q ∉ (s.core n).work) →
      ∃ t, exec (.monitorDoorbell n v) s = .next t ∧ (t.core n).work = (s.core n).work ++ [.doorbell (v.extractLsb' 0 16)] ∧
        { t.core n with work := (s.core n).work } = s.core n ∧ (∀ c, c ≠ n → t.core c = s.core c) ∧ { t with cores := s.cores } = s) ∧
    (coreUp s n → v.getLsbD 63 = false → (∃ q, HWork.doorbell q ∈ (s.core n).work) → room s →
      ∃ t p, exec (.monitorDoorbell n v) s = .next t ∧ t.cores = s.cores ∧
        Told s t { payload := p, tag := 0, src := BitVec.ofNat 16 n, cause := 0xff, kind := 9 }) ∧
    (coreUp s n → v.getLsbD 63 = true → (s.gang n handlerSlot).claim = none → (∀ e ∈ (s.core n).l1, lockId n handlerSlot ∉ e.2.lock) →
      (∀ e ∈ (s.cluster (clusterOf n)).l2, lockId n handlerSlot ∉ e.2.lock) →
      ∃ t, exec (.handlerRestart n v) s = .next t ∧ t.gang n handlerSlot = freshHandler n ∧ (t.core n).hStopped = false ∧
        (t.core n).serving = none ∧ (∀ x va, (s.core n).serving = some (.trap x va) → (t.core n).work = .trap x :: (s.core n).work) ∧
        ((∀ x va, (s.core n).serving ≠ some (.trap x va)) → (t.core n).work = (s.core n).work) ∧
        (∀ g, g ≠ handlerSlot → t.gang n g = s.gang n g) ∧ (∀ c, c ≠ n → t.core c = s.core c) ∧
        t.pends = (s.pends.map fun p => if p.core = n ∧ p.slot = handlerSlot then { p with slot := 16, dst := none } else p) ∧
        { t with cores := s.cores, pends := s.pends } = s)

/-- The defect maps and the phases: DMAP_OK needs the whole core map and what follows it; each phase is entered from the one before it
once what it needs holds, else PHREF is set; the flags that a write names clear (R16, R87, R88). -/
def bringUp : Prop :=
  ∀ (v : DWord) (s : State),
    let named := s.mgmt &&& ~~~(v &&& 0xff0)
    let atPhase (n : Nat) : DWord := (named &&& ~~~0xc) ||| BitVec.ofNat 64 (n * 4)
    (s.phase = 0 → ∀ checked, exec (.defectMapWrite v checked) s =
      .next { s with dmapWords := s.dmapWords ++ [v]
                     mgmt := if checked = true ∧ 216 < s.dmapWords.length + 1 then s.mgmt ||| 1 else s.mgmt }) ∧
    (s.phase ≠ 0 → ∀ checked, exec (.defectMapWrite v checked) s = .next { s with mgmt := s.mgmt ||| 0x20 }) ∧
    (bits v.toNat 2 2 = 1 → s.phase = 0 → exec (.phaseTables v) s =
      .next { s with mgmt := if s.mgmt.getLsbD 0 then atPhase 1 else named ||| 0x10 }) ∧
    (bits v.toNat 2 2 = 2 → s.phase = 1 → s.tablesOk = true → ∀ dark,
      ∃ t, exec (.phasePlane v dark) s = .next t ∧ t.phase = 2 ∧ t.mgmt.getLsbD 1 = true ∧
        t.deadGroups = dark.filter (fun p => p.1 < 16 && p.2 < 200) ∧ t.tbl = s.tbl ∧
        t.cores = s.cores ∧ t.clusters = s.clusters ∧ t.dram = s.dram) ∧
    (bits v.toNat 2 2 = 2 → s.phase = 1 → s.tablesOk = false → ∀ dark, exec (.phasePlane v dark) s = .next { s with mgmt := named ||| 0x10 }) ∧
    (bits v.toNat 2 2 = 3 → s.phase = 2 → s.mgmt.getLsbD 1 = false → exec (.phaseRunning v) s = .next { s with mgmt := named ||| 0x10 }) ∧
    (bits v.toNat 2 2 = 3 → s.phase = 2 → s.mgmt.getLsbD 1 = true →
      ∃ t, exec (.phaseRunning v) s = .next t ∧ t.phase = 3 ∧ t.hroot = s.hostRegs.get 0 0x34000 ∧ t.hentry = s.hostRegs.get 0 0x34008 ∧
        t.hfbase = s.hostRegs.get 0 0x34010 ∧ t.upds = [] ∧ t.tbl = s.tbl ∧ t.dram = s.dram ∧
        (∀ k, k < 192 → let x := s.region (k / 2)
          (t.cluster k).inPool = (x.st == .on && decide (x.stage < 3)) ∧ (t.cluster k).pool = 1 ∧
          (t.cluster k).freq = (if x.stage < 2 then 14 else 10) ∧ (t.cluster k).thr = decide (2 ≤ x.stage) ∧ (t.cluster k).epoch = 0 ∧
          (t.cluster k).frames = s.now ∧ (t.cluster k).rxTo = s.now) ∧
        (∀ c, c < nCores → t.gang c handlerSlot = freshHandler c) ∧ (∀ c, (t.core c).icache = []) ∧
        ∀ c g, g ≠ handlerSlot → t.gang c g = s.gang c g) ∧
    (bits v.toNat 2 2 = s.phase → exec (.mgmtStatFlagClear v) s = .next { s with mgmt := named }) ∧
    (bits v.toNat 2 2 = 0 → s.phase ≠ 0 → exec (.mgmtStatFlagClear v) s = .next { s with mgmt := named ||| 0x10 })

/-- A beacon of cluster `k` is on its way: on the lowest-numbered live bus, in the first frame after the message in progress (R48). -/
def beaconSent (s t : State) (k : Nat) (kind : BeaconKind) : Prop :=
  ∃ b : Beacon, t.beacons = s.beacons ++ [b] ∧ b.seq = s.beaconSeq ∧ b.kind = kind ∧ b.writer = k ∧ b.bus = s.beaconBus k ∧
    b.group = s.groupOf (s.beaconBus k) k ∧ b.frame = s.beaconSlot (s.beaconBus k) k

/-- A beacon of the host: sent by the beacon cluster while that one's region is ON and none is kept before it, else kept (R49). -/
def beaconOut (s t : State) (k : BeaconKind) : Prop :=
  ((s.region (regionOf s.bclu)).st = .on → s.beaconsKept = [] → beaconSent s t s.bclu k ∧ t.beaconsKept = []) ∧
    ((s.region (regionOf s.bclu)).st ≠ .on ∨ s.beaconsKept ≠ [] →
      t.beacons = s.beacons ∧ t.beaconsKept = s.beaconsKept ++ [{ seq := s.beaconSeq, kind := k, frame := s.now }])

/-- Table loads, updates and bindings: a legal one is accepted, an illegal one sets its flag, and one that finds 1,024 beacons kept
sets BCNREF (R20, R21, R27, R49, R52, R88, R89). -/
def tables : Prop :=
  ∀ (v : DWord) (s : State),
    let core := bits v.toNat 32 14
    let e : Word := v.extractLsb' 0 32 &&& 0x01ffff00
    (s.phase = 1 → s.entryAllowed (fun c => s.tbl.get 0 c) core e = true →
      ∃ t, exec (.tableLoad v) s = .next t ∧ t.tbl.get 0 core = e ∧ (∀ c, c ≠ core → t.tbl.get 0 c = s.tbl.get 0 c) ∧ { t with tbl := s.tbl } = s) ∧
    (s.phase = 1 → s.entryAllowed (fun c => s.tbl.get 0 c) core e = false → exec (.tableLoad v) s = .next { s with mgmt := s.mgmt ||| 0x80 }) ∧
    (s.phase ≠ 1 → exec (.tableLoad v) s = .next { s with mgmt := s.mgmt ||| 0x20 }) ∧
    (s.phase = 3 → s.entryAllowed s.tableNow core e = true → s.hostKept < 1024 →
      ∃ t, exec (.tableUpdate v) s = .next t ∧ t.upds = s.upds ++ [(core, e)] ∧ t.tableNow core = e ∧
        (∀ c, c ≠ core → t.tableNow c = s.tableNow c) ∧ beaconOut s t (.table core e) ∧ t.tbl = s.tbl ∧ t.dram = s.dram ∧
        t.cores = s.cores ∧ t.clusters = s.clusters) ∧
    (s.phase = 3 → s.entryAllowed s.tableNow core e = true → 1024 ≤ s.hostKept →
      exec (.tableUpdate v) s = .next { s with mgmt := s.mgmt ||| 0x800 }) ∧
    (s.phase = 3 → s.entryAllowed s.tableNow core e = false → exec (.tableUpdate v) s = .next { s with mgmt := s.mgmt ||| 0x80 }) ∧
    (let bus := bits v.toNat 16 4
     let k := bits v.toNat 8 8
     let g := bits v.toNat 0 8
     let spare := 192 ≤ g ∧ g < 200 ∧ ∀ c, c < 192 → s.groupNow bus c ≠ g
     (k < 192 → (g = k ∨ spare) → s.hostKept < 1024 →
       ∃ t, exec (.groupBind v) s = .next t ∧ beaconOut s t (.bind bus k g) ∧ t.binds = s.binds ++ [(bus * 192 + k, g)] ∧
         t.clusters = s.clusters) ∧
     (k < 192 → (g = k ∨ spare) → 1024 ≤ s.hostKept → exec (.groupBind v) s = .next { s with mgmt := s.mgmt ||| 0x800 }) ∧
     (192 ≤ k ∨ (g ≠ k ∧ ¬spare) → exec (.groupBind v) s = .next { s with mgmt := s.mgmt ||| 0x40 }))

/-- Holding, draining and releasing a core, copying its slice, and the host's halts (R287, R295, R303). -/
def repair : Prop :=
  (∀ (v : DWord) (s : State),
    let c := bits v.toNat 0 14
    c < nCores →
    (v.getLsbD 63 = true → v.getLsbD 62 = false →
      ∃ t, exec (.coreHold v) s = .next t ∧ (t.core c).held = true ∧ (t.core c).gangs = (s.core c).gangs ∧
        (∀ k, k ≠ c → t.core k = s.core k) ∧ { t with cores := s.cores } = s) ∧
    (v.getLsbD 63 = true → v.getLsbD 62 = true →
      ∃ t, exec (.coreHoldPreempt v) s = .next t ∧ (t.core c).held = true ∧
        ∀ g, g < 15 → (s.gang c g).seat.used = true →
          let b := (s.gang c g).seat.block
          let images := (s.launch (s.block b).ltag.toNat).nimg
          (0 < images → (t.block b).saveReq.isSome = true) ∧ (images = 0 → t.block b = s.block b)) ∧
    (v.getLsbD 63 = false →
      ∃ t, exec (.coreRelease v) s = .next t ∧ (t.core c).held = false ∧ (t.core c).gangs = (s.core c).gangs ∧
        (∀ k, k ≠ c → t.core k = s.core k) ∧ { t with cores := s.cores } = s)) ∧
  (∀ (c : Nat) (s : State), c < nCores → (s.core c).held = true → (s.core c).drained = false →
    (∀ g, g < 15 → (s.gang c g).seat.used = false) → (∀ p, p < 4 → (s.core c).recQ.get [] p = []) → room s →
    ∃ t, exec (.heldCoreDrained c) s = .next t ∧ (t.core c).drained = true ∧
      Told s t { payload := BitVec.ofNat 64 c, tag := 0, src := BitVec.ofNat 16 (regionOf (clusterOf c)), cause := 0x20, kind := 5 }) ∧
  (∀ (v : DWord) (s : State),
    let src := bits v.toNat 32 14
    let p := copyDest v
    let legal : Prop := src < nCores ∧ bits v.toNat 15 8 < 144 ∧ bits v.toNat 8 7 < 96 ∧ s.defective p = false ∧
      regionOfPhys p = regionOf (clusterOf src) ∧ ∀ c, c < nCores → entryV (s.tableNow c) = true → entryPhys (s.tableNow c) ≠ p
    let reg := v &&& 0x00003fff007fff00
    s.slcopy.getLsbD 63 = false →
    (v.getLsbD 63 = false → exec (.sliceCopy v) s = .next { s with slcopy := reg }) ∧
    (v.getLsbD 63 = true → legal → exec (.sliceCopy v) s = .next { s with slcopy := reg ||| 0x8000000000000000, slHeld := some (src, p) }) ∧
    (v.getLsbD 63 = true → ¬legal → exec (.sliceCopy v) s = .next { s with slcopy := reg, mgmt := s.mgmt ||| 0x200 })) ∧
  (∀ (s : State) (src p : Nat), s.dram.wf = true → s.slcopy.getLsbD 63 = true → s.slHeld = some (src, p) →
    entryV (s.tableAt (clusterOf src) src) = true → s.physOf src ≠ p →
    ∃ t, exec .sliceCopyComplete s = .next t ∧ t.slcopy.getLsbD 63 = false ∧
      (∀ x, x < 2 ^ 27 → t.dram.read (dramKey p x) = s.dram.read (dramKey (s.physOf src) x)) ∧
      (∀ x, x / 2 ^ 27 ≠ p → t.dram.read x = s.dram.read x) ∧ { t with dram := s.dram, slcopy := s.slcopy } = s) ∧
  ∀ s : State, s.hostKept < 1024 →
    let sent := (s.region (regionOf s.bclu)).st = .on ∧ s.beaconsKept = []
    (∃ t, exec .hostHalt s = .next t ∧ beaconOut s t (.halt true 0 0) ∧ (sent → t.haltOn = true) ∧ (¬sent → t.haltOn = s.haltOn) ∧
      (sent → s.haltOn = false → t.haltSrc = 0 ∧ t.haltCore = 0 ∧ t.haltTime = BitVec.ofNat 64 s.now)) ∧
    ∃ t, exec .hostResume s = .next t ∧ beaconOut s t (.halt false 0 0) ∧ (sent → t.haltOn = false) ∧ (¬sent → t.haltOn = s.haltOn)

/-! ## Power -/

/-- Region `r` becomes `x`; beyond black boxes nothing else differs. -/
structure RegionBecomes (s t : State) (r : Nat) (x : Region) : Prop where
  region : t.region r = x
  others : ∀ q, q ≠ r → t.region q = s.region q
  rest : { t with regions := s.regions, bbox := s.bbox } = s

/-- Cluster `k` becomes `x`; nothing else differs. -/
structure ClusterBecomes (s t : State) (k : Nat) (x : Cluster) : Prop where
  cluster : t.cluster k = x
  others : ∀ q, q ≠ k → t.cluster q = s.cluster q
  rest : { t with clusters := s.clusters } = s

/-- What lives in a region is lost (R54, R57): its cores keep nothing but their hold, its DRAM reads 0. -/
structure RegionGone (s t : State) (r : Nat) : Prop where
  cores : ∀ c ∈ regionCores r, t.core c = { held := (s.core c).held }
  dram : ∀ x, regionOfPhys (x / 2 ^ 27) = r → t.dram.read x = 0
  pends : ∀ p ∈ t.pends, p.core ∉ regionCores r

/-- A trip: the state, the cause and the counters (R55, R60). -/
structure Trips (s t : State) (r : Nat) (c : BitVec 4) : Prop where
  st : (t.region r).st = .trip
  cause : (t.region r).cause = c
  trips : (t.region r).trips = min 0xffff ((s.region r).trips + 1)
  rampfail : (t.region r).rampfail = if c = 4 ∨ c = 6 then min 0xffff ((s.region r).rampfail + 1) else (s.region r).rampfail
  others : ∀ q, q ≠ r → t.region q = s.region q
  gone : (s.region r).st = .on ∨ (s.region r).st = .restart → RegionGone s t r

/-- The host's commands to a region (R55, R59, R73). -/
def regionCommands : Prop :=
  ∀ (r : Nat) (s : State), r < 96 →
    let x := s.region r
    let refused (i : Instr) : Prop := ∃ t, exec i s = .next t ∧ RegionBecomes s t r { x with refused := true }
    (x.st = .off → ∃ t, exec (.regionEnable r) s = .next t ∧ RegionBecomes s t r { x with st := .ramp, since := s.now }) ∧
    (x.st ≠ .off → refused (.regionEnable r)) ∧
    (x.st = .hold → ∃ t, exec (.regionDisable r) s = .next t ∧ RegionBecomes s t r { x with st := .off, since := s.now }) ∧
    (x.st = .on → s.regionDrained r = true → ∃ t, exec (.regionDisable r) s = .next t ∧ (t.region r).st = .off ∧
      (t.region r).amps = x.amps ∧ RegionGone s t r) ∧
    (x.st ≠ .hold → ¬(x.st = .on ∧ s.regionDrained r = true) → refused (.regionDisable r)) ∧
    (x.st = .hold → ∃ t, exec (.regionRestart r) s = .next t ∧
      RegionBecomes s t r { x with st := .restart, since := s.now, settled := false, tablesIn := false }) ∧
    (x.st ≠ .hold → refused (.regionRestart r)) ∧
    (x.st = .on → x.stage = 3 → x.temp < 100 → ∃ t, exec (.regionReleaseHalt r) s = .next t ∧
      (t.region r).stage = (if x.temp < 90 then 0 else if x.temp < 95 then 1 else 2) ∧ { t.region r with stage := x.stage } = x ∧
      (x.temp < 95 → ∀ k, k / 2 = r → (t.cluster k).thr = false ∧
        (t.cluster k).nextFreq = some (Config.classFreq ((s.cluster k).moving.getD (s.cluster k).pool))) ∧
      (95 ≤ x.temp → ∀ k, t.cluster k = s.cluster k)) ∧
    (¬(x.st = .on ∧ x.stage = 3 ∧ x.temp < 100) → refused (.regionReleaseHalt r)) ∧
    ∀ v : DWord, 5 ≤ v.toNat % 8 → refused (.registerWrite (mailboxBase + 0x1011000 + 8 * r) 8 v)

/-- Supply: ramps, faults and the steps of a restart, whose tables come from an ON region none is nearer than (R55, R56, R60, R72; the
distance between regions is the model's, log entry 49). -/
def regionSupply : Prop :=
  ∀ (r : Nat) (s : State), r < 96 →
    let x := s.region r
    let counts (q : Nat) (p : BeaconKind → Bool) : Nat := (s.beacons.filter fun b =>
      (s.cluster (2 * q)).beaconAt ≤ b.seq && x.settledAt ≤ b.frame && b.frame < s.now && p b.kind).length
    (x.st = .ramp → x.since + 10000 ≤ s.now → s.now < x.since + 500000 → ∃ t, exec (.rampComplete r) s = .next t ∧
      t.region r = { x with st := .on, since := s.now, counted := true } ∧ (s.phase ≠ 3 → ∀ k, t.cluster k = s.cluster k) ∧
      (s.phase = 3 → ∀ k, k / 2 = r → (t.cluster k).inPool = decide (x.stage < 3) ∧ (t.cluster k).pool = 1 ∧
        (t.cluster k).freq = (if x.stage < 2 then 14 else 10) ∧ (t.cluster k).frames = s.now)) ∧
    (x.st = .ramp → x.since + 500000 ≤ s.now → ∃ t, exec (.rampTimeout r) s = .next t ∧ Trips s t r 4 ∧
      (room s → ∃ p c, Told s t { payload := p, tag := 0, src := BitVec.ofNat 16 r, cause := c, kind := 5 })) ∧
    (∀ c : BitVec 4, x.st = .on ∨ x.st = .restart → c = 1 ∨ c = 2 ∨ c = 3 ∨ c = 7 →
      ∃ t, exec (.supplyFault r c) s = .next t ∧ Trips s t r c) ∧
    (x.st = .trip → ∃ t, exec (.tripDischarged r) s = .next t ∧ RegionBecomes s t r { x with st := .hold, since := s.now }) ∧
    (x.st = .restart → x.settled = false → ∃ t, exec (.restartRailsSettled r) s = .next t ∧
      RegionBecomes s t r { x with settled := true, settledAt := s.now }) ∧
    (∀ q, x.st = .restart → x.settled = true → x.tablesIn = false → x.settledAt + 4000 ≤ s.now → q < 96 → (s.region q).st = .on →
      (∀ p, p < 96 → (s.region p).st = .on → regionHops r q ≤ regionHops r p) →
      ∃ t, exec (.restartTableLoad r q) s = .next t ∧ t.region r = { x with tablesIn := true } ∧
        (∀ k, k / 2 = r → (t.cluster k).frames = (s.cluster (2 * q)).frames ∧ (t.cluster k).appliedTo = (s.cluster (2 * q)).appliedTo ∧
          (t.cluster k).epoch = (s.cluster (2 * q)).epoch + counts q (fun k => match k with
            | .table _ _ => true
            | _ => false) ∧
          (t.cluster k).bindEpoch = (s.cluster (2 * q)).bindEpoch + counts q (fun k => match k with
            | .bind _ _ _ => true
            | _ => false)) ∧
        ∀ k, k / 2 ≠ r → t.cluster k = s.cluster k) ∧
    (x.st = .restart → x.settled = true → x.tablesIn = true → s.now ≤ x.since + 1000000 → ∃ t, exec (.restartComplete r) s = .next t ∧
      t.region r = { x with st := .on, since := s.now, stage := min 3 x.stage, counted := true } ∧
      (∀ c ∈ regionCores r, t.gang c handlerSlot = freshHandler c ∧ (t.core c).inReset = true) ∧
      t.hroot = s.hostRegs.get 0 0x34000 ∧ t.hentry = s.hostRegs.get 0 0x34008 ∧ t.hfbase = s.hostRegs.get 0 0x34010) ∧
    (x.st = .restart → x.since + 1000000 ≤ s.now → ∃ t, exec (.restartTimeout r) s = .next t ∧ Trips s t r 6) ∧
    (x.st = .on ∨ x.st = .restart → ∃ t, exec (.thermalTrip r) s = .next t ∧ Trips s t r 5) ∧
    (x.st = .on → ∃ t, exec (.overcurrentWarning r) s = .next t ∧ RegionBecomes s t r { x with ocwarn := min 0xffff (x.ocwarn + 1) })

/-- The governor, current ramps, boost and frequencies (R63 to R69). -/
def currents : Prop :=
  (∀ (w : Nat) (s : State), s.now < s.govAt + 10000 → exec (.governorTick w) s = .next s) ∧
  (∀ (w : Nat) (s : State), s.govAt + 10000 ≤ s.now → exec (.governorTick w) s = .next { s with
      govAt := s.now
      gov := if 30000 < w then max 3 (s.gov - 1) else if w < 29000 then min 15 (s.gov + 1) else s.gov
      boostOk := decide (w ≤ 30000) }) ∧
  (∀ (r d : Nat) (s : State), r < 96 → d ≤ 420000 → (s.region r).st ≠ .trip →
    ((s.region r).rampAt + 100 ≤ s.now → ∃ t, exec (.currentRampStep r d) s = .next t ∧ RegionBecomes s t r { s.region r with
      rampAt := s.now
      amps := if (s.region r).amps ≤ d then min ((s.region r).amps + 2520) d else max ((s.region r).amps - 2520) d }) ∧
    (s.now < (s.region r).rampAt + 100 → exec (.currentRampStep r d) s = .next s)) ∧
  (∀ (r k j a : Nat) (s : State),
    let x := s.region r
    r < 96 → x.st = .on → x.holder = none → 1 ≤ x.permits → s.boostOk = true → x.stage < 2 →
    (k = 2 * r ∧ j = 2 * r + 1 ∨ k = 2 * r + 1 ∧ j = 2 * r) → (s.cluster k).claimAge = some a →
    (∀ b, (s.cluster j).claimAge = some b → a < b ∨ a = b ∧ k < j) →
    ∃ t, exec (.boostGrant r) s = .next t ∧
      t.region r = { x with holder := some k, permits := x.permits - 1, grantAt := s.now, idleFrom := none } ∧
      t.cluster k = { s.cluster k with nextFreq := some (s.claimedFreq k), fallAt := none } ∧
      (∀ q, q ≠ r → t.region q = s.region q) ∧ (∀ q, q ≠ k → t.cluster q = s.cluster q) ∧
      { t with regions := s.regions, clusters := s.clusters } = s) ∧
  (∀ (r k : Nat) (s : State),
    let x := s.region r
    x.holder = some k → x.grantAt + 10000 ≤ s.now →
    (1 ≤ x.permits → ∃ t, exec (.boostInterval r) s = .next t ∧
      RegionBecomes s t r { x with permits := x.permits - 1, grantAt := x.grantAt + 10000 }) ∧
    (x.permits = 0 → ∃ t, exec (.boostInterval r) s = .next t ∧
      t.region r = { x with holder := none, idleFrom := some (x.grantAt + 10000) } ∧
      (∀ c ∈ clusterCores k, ∀ g, g < 16 → (t.gang c g).claim = none) ∧
      t.cluster k = { s.cluster k with claimAge := none, bexh := true, nextFreq := some 16, fallAt := some (x.grantAt + 30000) })) ∧
  (∀ (k a : Nat) (s : State), k < 192 → (s.cluster k).fallAt = some a → a ≤ s.now → ∃ t, exec (.boostFallStep k) s = .next t ∧
    ClusterBecomes s t k { s.cluster k with nextFreq := some 14, fallAt := none }) ∧
  (∀ (r a : Nat) (s : State), r < 96 → (s.region r).idleFrom = some a → a + 40000 ≤ s.now → ∃ t, exec (.permitRefill r) s = .next t ∧
    RegionBecomes s t r { s.region r with permits := min 64 ((s.region r).permits + 1), idleFrom := some (a + 40000) }) ∧
  ∀ (k q : Nat) (s : State), k < 192 → (s.cluster k).nextFreq = some q → ∃ t, exec (.frequencyChangeComplete k) s = .next t ∧
    ClusterBecomes s t k { s.cluster k with freq := q, nextFreq := none }

/-- Pools: an idle cluster of the field begins to move to the pool of a launch whose head block has not fitted for 20 µs and does not now,
as long as fewer are on their way than a block of it spans, and counts in its old pool until the move ends with the class's frequency reached
(R62, R63, R64, R74, R103). -/
def pools : Prop :=
  (∀ (hub k : Nat) (l : HubList) (s : State),
    let x := s.cluster k
    let a := s.launch l.ltag.toNat
    hub < 48 → k ∈ fieldClusters hub → l ∈ (s.hub hub).lists → l.blocks ≠ [] → (∃ t, l.blockedAt = some t ∧ t + 20000 ≤ s.now) →
    s.originIn hub a = none → (∀ y ∈ (s.hub hub).lists, y = l ∨ y.blocks = [] ∨ y.blockedAt = none) →
    s.fieldHalted hub = false → (s.region (regionOf k)).st = .on → (s.region (regionOf k)).stage < 3 → x.moving = none →
    x.pool ≠ a.cls ∨ x.inPool = false → s.clusterIdle k = true → x.idleSince + 20000 ≤ s.now →
    ((fieldClusters hub).filter fun q => (s.cluster q).moving == some a.cls).length < max 1 (2 ^ a.bw / 8) * max 1 (2 ^ a.bh / 8) →
    (∀ c ∈ clusterCores k, ∀ g, g < 16 → (s.gang c g).claim = none) →
    ∃ t, exec (.poolTargetMove hub k) s = .next t ∧
      ClusterBecomes s t k { x with
        moving := some a.cls, fallAt := none
        nextFreq := if x.thr = true then x.nextFreq else if x.freq = Config.classFreq a.cls then none else some (Config.classFreq a.cls) }) ∧
  ∀ (k p : Nat) (s : State), k < 192 → (s.cluster k).moving = some p →
    let x := s.cluster k
    let there : Prop := (s.region (regionOf k)).stage < 3 ∧ (x.thr = true ∨ x.nextFreq = none ∧ x.freq = Config.classFreq p)
    (there → ∃ t, exec (.poolMoveComplete k) s = .next t ∧
      ClusterBecomes s t k { x with pool := p, inPool := true, moving := none, idleSince := s.now }) ∧
    (¬there → exec (.poolMoveComplete k) s = .next s)

/-- The stage that a temperature leads to (R72). -/
def ladder (old temp : Nat) : Nat :=
  if 3 ≤ old then old
  else if 105 ≤ temp then 3 else if 100 ≤ temp then 2 else if 95 ≤ temp then max 1 (min old 2) else if 90 ≤ temp then min old 1 else 0

/-- A sample of the sensors moves the stage: from stage 2 both clusters run at c0 without claims, from stage 3 they leave their pools;
stage 2 ends with each at its pool's class (R72 to R74). -/
def thermal : Prop :=
  ∀ (r temp : Nat) (s : State), r < 96 → (s.region r).st = .on →
    let old := (s.region r).stage
    let new := ladder old temp
    ∃ t, exec (.thermalSample r temp) s = .next t ∧ (t.region r).temp = min 255 temp ∧ (t.region r).stage = new ∧ (t.region r).st = .on ∧
      (new < 3 → ∀ q, q ≠ r → t.region q = s.region q) ∧
      (old < 2 → 2 ≤ new → ∀ k, k / 2 = r → (t.cluster k).thr = true ∧ (t.cluster k).nextFreq = some 10 ∧ (t.cluster k).claimAge = none) ∧
      (old < 3 → new = 3 → ∀ k, k / 2 = r → (t.cluster k).inPool = false ∧ (t.cluster k).moving = none) ∧
      (old = 2 → new < 2 → ∀ k, k / 2 = r → (t.cluster k).thr = false ∧
        (t.cluster k).nextFreq = some (Config.classFreq ((s.cluster k).moving.getD (s.cluster k).pool))) ∧
      (new ≤ 1 → old ≠ 2 → ∀ k, t.cluster k = s.cluster k)

/-! ## The mesh, the photonic plane and the memory system -/

/-- Packet `p` becomes `q`; nothing else differs. -/
structure PacketBecomes (s t : State) (p q : Packet) : Prop where
  packets : t.packets = s.packets.map fun x => if x.id = p.id then q else x
  rest : { t with packets := s.packets } = s

/-- Packets: hops and what is handed in, aging, links that are down, and refusals (R28, R33, R35 to R40, R45, R105, R302). -/
def meshPackets : Prop :=
  (∀ (router dir : Nat) (plane : BitVec 2) (p : Packet) (s o : State), s.granted router dir plane.toNat = some p →
    o = { s with portLast := s.portLast.put (portKey router dir plane.toNat) p.inPort } →
    let runs (t : State) : Prop := exec (.meshPacketReceive router dir plane) s = .next t
    (∀ q, neighbour router dir = some q →
      (s.linkUp router dir = true → ∃ t, runs t ∧ PacketBecomes o t p
        { p with at_ := q, inPort := if dir % 2 = 0 then dir + 1 else dir - 1, portAt := s.now }) ∧
      (s.linkUp router dir = false → ∃ t, runs t ∧ PacketBecomes o t p { p with lost := true })) ∧
    (neighbour router dir = none →
      ((∀ off data l, p.body ≠ .store off data l) → (∀ r n k, p.body ≠ .post r n k) → ∃ t, runs t ∧ PacketBecomes o t p { p with taken := true }) ∧
      (∀ r n k, p.body = .post r n k → p.ret = false ∨ p.nack = true → ∃ t, runs t ∧ PacketBecomes o t p { p with taken := true }) ∧
      (∀ r n k, p.body = .post r n k → p.ret = true → p.nack = false → k < 15 → ∃ t, runs t ∧
        t.packets = s.packets.filter (fun y => y.id != p.id) ∧ (t.gang p.src k).posts = (s.gang p.src k).posts - 1 ∧ t.dram = s.dram) ∧
      ∀ off data l, p.body = .store off data l → p.ret = false → s.stands p.dstPhys p.dst = true → ∃ t m, runs t ∧
        t.packets = s.packets.filter (fun y => y.id != p.id) ∧ t.msgs = s.msgs ++ [m] ∧ m.bus = busOf off ∧ m.writer = clusterOf p.src ∧
        m.core = p.src ∧ m.frames = 1 + data.length / 16 ∧ m.body = .store off data ∧ m.ltag = l ∧ t.dram = s.dram)) ∧
  (∀ (id : Nat) (p : Packet) (s : State), s.packet? id = some p →
    let halted := (s.cluster (s.routerCluster p.at_)).halted
    (halted = true → exec (.packetAging id) s = .next s) ∧
    (halted = false → p.ports ≠ [] → p.lost = false → p.portAt + 512 ≤ s.now → p.prio < 4 →
      ∃ t, exec (.packetAging id) s = .next t ∧ PacketBecomes s t p { p with prio := p.prio + 1, portAt := s.now })) ∧
  (∀ (router dir q : Nat) (s : State), router < 13824 → neighbour router dir = some q → (router, dir) ∉ s.linksDown → room s →
    ∃ t, ∃ e e' : CqEntry, exec (.linkHeartbeatTimeout router dir) s = .next t ∧
      t.linksDown = s.linksDown ++ [(router, dir), (q, if dir % 2 = 0 then dir + 1 else dir - 1)] ∧ e.kind = 8 ∧ e'.kind = 8 ∧
      t.cq.get 0 s.cqTail = e.bits ∧ t.cq.get 0 ((s.cqTail + 1) % 4096) = e'.bits ∧ t.packets = s.packets ∧ t.cores = s.cores) ∧
  (∀ (id : Nat) (p : Packet) (s : State), s.packet? id = some p → p.lost = true → p.since + 20000 ≤ s.now →
    let runs (t : State) : Prop := exec (.linkFallbackReinject id) s = .next t
    (p.fallback = false → ∃ t, runs t ∧ PacketBecomes s t p
      { p with at_ := if p.ret then p.dstPhys else p.srcPhys, inPort := 4, order := if p.order = 1 then 0 else 1
               vc := if p.order = 1 then 0 else 1, fallback := true, lost := false, since := s.now, portAt := s.now }) ∧
    (∀ a x, p.fallback = true → p.body = .access a → s.pend? a = some x → ∃ t, runs t ∧
      t.pend? a = some { x with failed := some 0x40 } ∧ t.packets = s.packets.filter fun y => y.id != p.id) ∧
    (∀ off data l, p.fallback = true → p.body = .store off data l → ∃ t, runs t ∧ t.packets = s.packets.filter (fun y => y.id != p.id) ∧
      t.pends = s.pends.map fun x => if x.msg = some p.id then { x with failed := some 0x40, msg := none } else x) ∧
    ∀ r n k, p.fallback = true → p.body = .post r n k → p.ret = false → room s → ∃ t, ∃ e : CqEntry, runs t ∧ e.kind = 7 ∧
      e.src = BitVec.ofNat 16 (clusterOf p.src) ∧ Told s t e ∧ t.packets = s.packets.map fun x => if x.id = p.id then
        { p with ret := true, nack := true, taken := true, at_ := p.srcPhys, lost := false, held := false, reinjected := true } else x) ∧
  ∀ (id : Nat) (p : Packet) (s : State), s.packet? id = some p → p.arrived = true →
    let runs (t : State) : Prop := exec (.packetNack id) s = .next t
    let turned : Packet := { p with
      ret := true, nack := true, taken := false, inPort := 4, order := p.clsOrder, vc := if p.clsOrder = 1 then 1 else 0
      fallback := false, since := s.now, portAt := s.now }
    let again : Packet := { p with
      ret := false, nack := false, taken := false, inPort := 4, order := p.clsOrder, vc := if p.clsOrder = 1 then 1 else 0
      fallback := false, since := s.now, portAt := s.now, at_ := p.srcPhys, held := false, lost := false, reinjected := true
      epoch := (s.cluster (clusterOf p.src)).epoch }
    let fails (cause : Nat) : Prop := ∀ a x, p.body = .access a → s.pend? a = some x → ∃ t, runs t ∧
      t.pend? a = some { x with failed := some cause } ∧ t.packets = s.packets.filter fun y => y.id != p.id
    (p.ret = false → s.standsFor p = false →
      ((s.cluster (clusterOf p.dst)).epoch < p.epoch → runs s) ∧
      (p.epoch ≤ (s.cluster (clusterOf p.dst)).epoch → ∃ t, runs t ∧ PacketBecomes s t p
        { turned with epoch := if p.reinjected then p.epoch else (s.cluster (clusterOf p.dst)).epoch })) ∧
    (p.ret = true → p.nack = true →
      (p.reinjected = true → fails 0x30) ∧
      (p.reinjected = false → (s.cluster (clusterOf p.src)).epoch < p.epoch → runs s) ∧
      (p.reinjected = false → p.epoch ≤ (s.cluster (clusterOf p.src)).epoch →
        ((p.srcPhys, p.dst) ∈ s.badEntries → ∃ t, runs t ∧ PacketBecomes s t p { again with held := true }) ∧
        ((p.srcPhys, p.dst) ∉ s.badEntries → (p.srcPhys, p.dst) ∉ s.softEntries →
          (∀ d, s.sends (clusterOf p.src) p.dst = .to d → ∃ t, runs t ∧ PacketBecomes s t p { again with dstPhys := d }) ∧
          (s.sends (clusterOf p.src) p.dst = .retired → fails 0x30) ∧
          (s.sends (clusterOf p.src) p.dst = .unreachable → fails 0x40))))

/-- The routers' tables: scrubs and reads, requests and answers (R25, R26). -/
def routerTables : Prop :=
  (∀ (r e : Nat) (s : State), r < 13824 → e < nCores → (r, e) ∉ s.badEntries → s.softEntries = [] →
    (∃ t, exec (.tableScrub [(r, e)]) s = .next t ∧ t.eccFixed.get 0 r = s.eccFixed.get 0 r + 1 ∧ { t with eccFixed := s.eccFixed } = s) ∧
    ∃ t, exec (.tableScrub [(r, e), (r, e)]) s = .next t ∧ t.badEntries = s.badEntries ++ [(r, e)] ∧ { t with badEntries := s.badEntries } = s) ∧
  (∀ (r e : Nat) (s : State), ((r, e) ∉ s.softEntries → s.readEntry r e = s) ∧
    ((r, e) ∈ s.softEntries → (r, e) ∉ (s.readEntry r e).softEntries ∧ (s.readEntry r e).eccFixed.get 0 r = s.eccFixed.get 0 r + 1 ∧
      { s.readEntry r e with softEntries := s.softEntries, eccFixed := s.eccFixed } = s)) ∧
  (∀ (r e : Nat) (s : State), ∃ t, exec (.routerTableRequest r e) s = .next t ∧
    (∀ q, (q, e) ∈ s.badEntries → askOf q = r → s.linkUp q (if q % 144 = 143 then 3 else 2) = true →
      (q, e, !s.badEntries.contains (r, e)) ∈ t.tblAnswers ∨ ∃ b, (q, e, b) ∈ s.tblAnswers) ∧
    { t with tblAnswers := s.tblAnswers, softEntries := s.softEntries, eccFixed := s.eccFixed } = s) ∧
  ∀ (r e x y : Nat) (good : Bool) (s : State), s.tblAnswers.find? (fun a => a.1 == r && a.2.1 == e) = some (x, y, good) →
    (good = true → ∃ t, exec (.tableRepairResponse r e) s = .next t ∧ (r, e) ∉ t.badEntries ∧
      (∀ p ∈ t.packets, p.at_ = r → p.dst = e → p.held = false) ∧
      ((∀ p ∈ s.packets, (∀ q, p.body ≠ .supply q) ∧ ∀ sb, p.body ≠ .evict sb) → t.dram = s.dram)) ∧
    (good = false → room s → ∃ t, ∃ c : CqEntry, exec (.tableRepairResponse r e) s = .next t ∧ c.kind = 7 ∧ Told s t c ∧
      t.packets = s.packets ∧ t.badEntries = s.badEntries)

/-- Messages: frames, holes and retained copies (R44, R51, R53, R184, R188, R200). -/
def busMessages : Prop :=
  (∀ (c : Nat) (s : State), c < 192 → s.forwards (regionOf c) = true → (s.cluster c).holes = [] → s.deadGroups = [] →
    ∃ t, exec (.photonicFrame c []) s = .next t ∧
      (∀ m ∈ s.msgs, m.bus < 16 → m.done ≤ s.now → c ∉ m.lostAt → s.msgApplied c m = true ∨ m.id ∈ (t.cluster c).applied) ∧
      (∀ b, b < 16 → (t.cluster c).appliedTo.get 0 b = max ((s.cluster c).appliedTo.get 0 b) (max (s.cluster c).rxTo s.now)) ∧
      (∀ m off data pa i, s.msgs = [m] → m.bus < 16 → m.done ≤ s.now → c ∉ m.lostAt → s.msgApplied c m = false →
        m.body = .store off data → (s.cluster c).landing off = some pa → inHole pa = false → pa % 64 + data.length ≤ 64 → i < data.length →
        (t.l2Line c (landKey pa / 64)).data.extractLsb' (8 * (pa % 64 + i)) 8 = data.getD i 0 ∧
          (t.l2Line c (landKey pa / 64)).mask.getLsbD (pa % 64 + i) = true) ∧
      (∀ m k sb q, s.msgs = [m] → m.bus < 16 → m.done ≤ s.now → c ∉ m.lostAt → s.msgApplied c m = false → m.body = .snoop k sb q →
        m.writer ≠ c → s.sbReqs = [] → t.moesiOf c sb = (s.moesiOf c sb).after k)) ∧
  (∀ (c bus g w : Nat) (s : State), c < 192 → bus < 16 → g < 200 → w < 192 → w ≠ c → s.bindAt c bus w = g → s.forwards (regionOf c) = true →
    (s.cluster c).holes = [] → s.deadGroups = [] → s.endMarks = [] → (s.cluster c).rxTo < s.now →
    ∃ t, exec (.photonicFrame c [(bus, g)]) s = .next t ∧
      (t.cluster c).holes = [{ bus, group := g, frame := (s.cluster c).rxTo + 1, last := s.now }] ∧
      ∀ m ∈ t.msgs, m.bus = bus → m.group = g → m.writer ≠ c → m.resent = 0 → m.start ≤ s.now → (s.cluster c).rxTo < m.done → c ∈ m.lostAt) ∧
  (∀ (c id : Nat) (m : Msg) (s : State), s.msg? id = some m → m.writer = c → m.retained = true →
    ∃ t x l, exec (.retainedCopyRequest c id) s = .next t ∧ t.msg? id = some x ∧ (∀ k, k ∈ x.copies ↔ k ∈ m.copies ∨ k ∈ m.lostAt) ∧
      t.packets = s.packets ++ l ∧ (∀ k ∈ m.lostAt, k ∉ m.copies → ∃ p ∈ l, p.body = .copy id k ∧ p.ret = true ∧
        p.at_ = s.physOf (transmitter c) ∧ p.srcPhys = s.physOf (transmitter k)) ∧
      { x with copies := m.copies } = m ∧
      { t with msgs := s.msgs, beacons := s.beacons, clusters := s.clusters, packets := s.packets, nextId := s.nextId } = s ∧
      ∀ k, { t.cluster k with holes := (s.cluster k).holes } = s.cluster k ∧
        ∀ h ∈ (s.cluster k).holes, h ∉ (t.cluster k).holes ↔
          h.group = s.bindAt k h.bus c ∧ h.last < (s.cluster k).rxTo ∧ s.holeLost k h = false) ∧
  (∀ (c id : Nat) (m : Msg) (p : Packet) (s : State), s.msg? id = some m → c ∈ m.copies → c ∈ m.lostAt →
    s.packets.find? (fun p => p.body == .copy id c && p.arrived) = some p →
    ∃ t x, exec (.retainedCopyReceive c id) s = .next t ∧ t.msg? id = some x ∧ c ∉ x.lostAt ∧ c ∉ x.copies ∧
      t.packets = s.packets.filter (fun y => y.id != p.id) ∧
      (∀ h ∈ (s.cluster c).holes, h ∉ (t.cluster c).holes ↔ h.last < (s.cluster c).rxTo ∧ s.holeLost c h = true ∧ t.holeLost c h = false) ∧
      ∀ k, k ≠ c → t.cluster k = s.cluster k) ∧
  (∀ (id : Nat) (m : Msg) (s : State), s.msg? id = some m → m.done + 40000 ≤ s.now →
    (m.acked = true → m.lostAt = [] → ∃ t, exec (.retainedCopyExpire id) s = .next t ∧ t.msg? id = none ∧ t.dram = s.dram) ∧
    (m.acked = false ∨ m.lostAt ≠ [] → ∃ t, exec (.retainedCopyExpire id) s = .next t ∧ t.msg? id = some { m with retained := false } ∧
      { t with msgs := s.msgs } = s)) ∧
  (∀ (c bus g : Nat) (s : State), c < 192 → bus < 16 → g < 200 → (bus, g) ∉ s.deadGroups →
    (s.failedFrames c bus g < 16 → exec (.groupDead c bus g) s = .next s) ∧
    (16 ≤ s.failedFrames c bus g → room s → ∃ t, ∃ e : CqEntry, exec (.groupDead c bus g) s = .next t ∧
      t.deadGroups = s.deadGroups ++ [(bus, g)] ∧ e.kind = 8 ∧ e.src = BitVec.ofNat 16 c ∧ Told s t e)) ∧
  ∀ (c bus : Nat) (h : Hole) (s : State), (s.cluster c).holes.find? (fun h => h.bus == bus && !h.told && h.frame + 100000 ≤ s.now) = some h →
    room s → ∃ t, ∃ e : CqEntry, exec (.holeTimeout c bus) s = .next t ∧ { h with told := true } ∈ (t.cluster c).holes ∧ e.kind = 7 ∧
      e.src = BitVec.ofNat 16 c ∧ Told s t e

/-- Beacons: their sending and what a cluster does with the next one (R12, R23, R27, R48 to R50, R52, R53, R56, R300 to R302). -/
def beacons : Prop :=
  (∀ (k : Nat) (s : State), s.namedBeaconCluster = some k → ∃ t l, exec .beaconClusterHandover s = .next t ∧ t.bclu = k ∧
    t.beaconsKept = [] ∧ t.beaconSeq = s.beaconSeq ∧ t.beacons = s.beacons ++ l ∧
    l.map (fun b => (b.seq, b.kind)) = s.beaconsKept.map (fun b => (b.seq, b.kind)) ∧ ∀ b ∈ l, b.writer = k ∧ s.now < b.frame) ∧
  (∀ s : State, (s.region (regionOf s.bclu)).st = .on → s.beaconsKept = [] → s.now % 1024 = 0 →
    (∀ b ∈ s.beacons, ¬(s.now < b.frame ∧ b.kind = .time)) →
    ∃ t, exec .timeBeaconSend s = .next t ∧ beaconSent s t s.bclu .time ∧ t.beaconSeq = s.beaconSeq + 1) ∧
  ∀ (c : Nat) (b : Beacon) (s : State), s.nextBeacon c = some b →
    let x := s.cluster c
    (b.kind = .time → ∃ t, exec (.timeBeacon c) s = .next t ∧ (t.cluster c).beaconAt = x.beaconAt + 1 ∧
      (t.cluster c).frames = max x.frames s.now ∧ (s.now < x.frames → (t.cluster c).stall = x.frames - s.now) ∧
      (x.frames = s.now → t.cq = s.cq) ∧
      (x.frames ≠ s.now → room s → ∃ e : CqEntry, e.kind = 8 ∧ e.cause = 0x10 ∧ e.src = BitVec.ofNat 16 c ∧ Told s t e)) ∧
    (∀ core e, b.kind = .table core e → s.badEntries = [] → s.softEntries = [] → ∃ t, exec (.tableUpdateBeacon c) s = .next t ∧
      t.cluster c = { x with beaconAt := x.beaconAt + 1, epoch := x.epoch + 1 } ∧ (∀ k, k ≠ c → t.cluster k = s.cluster k) ∧
      (∀ q, q ≠ core → t.core q = s.core q) ∧
      (clusterOf core ≠ c ∨ entryV e = false → t.core core = s.core core) ∧
      let same : Prop := entryPhys e = s.physOf core ∧ entryV (s.tableAt c core) = true
      let inReset := (s.core core).inReset && entryRet e
      (clusterOf core = c → entryV e = true → same → t.core core = { s.core core with inReset }) ∧
      (clusterOf core = c → entryV e = true → ¬same → t.core core =
        { inReset, held := (s.core core).held, drained := (s.core core).drained, recQ := (s.core core).recQ
          recHeadAt := (s.core core).recHeadAt, gangs := [(handlerSlot, freshHandler core)] })) ∧
    (∀ bus k g, b.kind = .bind bus k g → ∃ t, exec (.groupBindBeacon c) s = .next t ∧
      t.cluster c = { x with beaconAt := x.beaconAt + 1, bindEpoch := x.bindEpoch + 1 } ∧ (∀ j, j ≠ c → t.cluster j = s.cluster j) ∧
      (s.binds[x.bindEpoch]? = some (bus * 192 + k, g) → t.bindAt c bus k = g) ∧
      (k ≠ c ∨ s.groupOf bus k = g → { t with clusters := s.clusters } = s) ∧
      (k = c → s.groupOf bus k ≠ g → (∀ d ∈ t.deadGroups, d.1 ≠ bus) ∧
        ∃ m, t.endMarks = s.endMarks ++ [m] ∧ m.bus = bus ∧ m.writer = k ∧ m.group = s.groupOf bus k)) ∧
    (∀ src core, b.kind = .halt true src core → ∃ t, exec (.haltBeacon c) s = .next t ∧ (t.cluster c).halted = true ∧
      (t.cluster c).beaconAt = x.beaconAt + 1 ∧ (x.halted = false → (t.cluster c).haltAt = s.now ∧ (t.cluster c).haltCyc = s.cycles c) ∧
      { t with clusters := s.clusters } = s) ∧
    ∀ src core, b.kind = .halt false src core → ∃ t, exec (.resumeBeacon c) s = .next t ∧ (t.cluster c).halted = false ∧
      (t.cluster c).beaconAt = x.beaconAt + 1 ∧
      (x.halted = true → ∀ q g, clusterOf q = c → t.gang q g = (s.gang q g).thaw (resumeAt x.haltAt s.now) (resumeAt x.haltCyc (s.cycles c))) ∧
      (x.halted = true → t.packets = s.packets.map fun p =>
        if s.routerCluster p.at_ = c then { p with portAt := if p.portAt < x.haltAt then p.portAt + (s.now - x.haltAt) else s.now } else p) ∧
      (∀ q, clusterOf q ≠ c ∨ x.halted = false → t.core q = s.core q)

/-- The packets without the answer of access `id`, which ends where it is taken up. -/
def withoutAnswer (s : State) (id : Nat) : List Packet :=
  match s.accessPacket id with
  | some k => s.packets.filter fun x => x.id != k.id
  | none => s.packets

/-- The memory system's own steps (R33, R39, R172, R188 to R190, R199, R200, R273). -/
def memorySystem : Prop :=
  (∀ (c sb : Nat) (r : SbReq) (s : State), s.sbReqs.find? (fun r => r.cluster == c && r.sb == sb && r.placed) = some r →
    s.l2RoomOpen c sb = true →
    (∀ q, r.kind ≠ .up → r.sent = false → r.sup = some q → s.supplied r = true →
      ∃ t p, exec (.superblockResponse c sb) s = .next t ∧ t.packets = s.packets ++ [p] ∧ p.body = .supply r.msg ∧ p.ret = true ∧
        p.at_ = s.physOf q ∧ p.srcPhys = s.physOf (transmitter c) ∧ (∀ x ∈ t.sbReqs, x.msg = r.msg → x.sent = true) ∧
        { t with packets := s.packets, nextId := s.nextId, sbReqs := s.sbReqs } = s) ∧
    ((r.kind = .up ∨ r.sent = true ∧ ∃ p, s.supplyPacket r.msg = some p ∧ p.arrived = true) → (∀ p ∈ s.pends, p.msg ≠ some r.msg) →
      let st : Moesi := if r.kind = .rs then (if r.alone then .e else .s) else .m
      ((s.setMoesi c sb st).setTags c (sb % 2048)).dedup.length ≤ 16 →
      ∃ t, exec (.superblockResponse c sb) s = .next t ∧ t.moesiOf c sb = r.behind.foldl (fun m q => m.after q.1) st ∧
        (∀ q ∈ t.sbReqs, q.msg ≠ r.msg) ∧ t.dram = s.dram ∧ t.pends = s.pends)) ∧
  (∀ (sb : Nat) (p : Packet) (s : State), s.packets.find? (fun p => p.body == .evict sb && p.arrived && !p.ret) = some p →
    s.standsFor p = true → s.inTurn p = true → s.homeHeld p.dst = false →
    exec (.evictionDataArrive sb) s = .next { s with
      packets := s.packets.filter fun y => y.id != p.id
      evicting := s.evicting.erase sb }) ∧
  (∀ (id v : Nat) (p : Pend) (k : Packet) (u s : State), s.pend? id = some p → s.accessPacket id = some k → k.arrived = true →
    k.ret = false → s.inTurn k = true → s.standsFor k = true → s.homeHeld k.dst = false → s.forwards (regionOfPhys k.dstPhys) = true →
    s.canPerform p true = true → p.engine = false → s.perform p.core p.slot p.lane p.trans p.access true = (u, .ok v) →
    ∃ t, exec (.homeRequest id) s = .next t ∧ t.pend? id = some { p with performed := true, value := BitVec.ofNat 64 v } ∧
      (t.packets = u.packets.map fun x => if x.id = k.id then
        { k with ret := true, nack := false, taken := false, inPort := 4, order := k.clsOrder, vc := if k.clsOrder = 1 then 1 else 0
                 fallback := false, since := s.now, portAt := s.now } else x) ∧ t.dram = u.dram) ∧
  (∀ (id : Nat) (p : Pend) (s : State), s.pend? id = some p → s.answerIn id = true → p.performed = true → p.failed = none → p.slot ≠ 16 →
    (∀ r, p.kind.returns = true → p.dst = some r → ∃ t, exec (.memoryResponse id) s = .next t ∧ t.pend? id = none ∧
      (t.gang p.core p.slot).vreg r p.lane = BitVec.ofNat 32 (loaded p.ty p.value.toNat) ∧
      (tyBits p.ty = 64 → (t.gang p.core p.slot).vreg (r + 1) p.lane = BitVec.ofNat 32 (loaded p.ty p.value.toNat / 2 ^ 32)) ∧
      t.packets = withoutAnswer s id ∧ t.dram = s.dram ∧ ∀ c g, c ≠ p.core ∨ g ≠ p.slot → t.gang c g = s.gang c g) ∧
    (p.kind.returns = false → ∃ t, exec (.writeAcknowledge id) s = .next t ∧ t.pend? id = none ∧ t.packets = withoutAnswer s id ∧
      { t with pends := s.pends, packets := s.packets } = s)) ∧
  (∀ (id e : Nat) (p : Pend) (s : State), s.pend? id = some p → s.answerIn id = true → p.failed = some e → p.slot < 15 →
    (∀ x, HWork.trap x ∈ (s.core p.core).work → x.slot ≠ p.slot) →
    let traps (i : Instr) : Prop := ∃ t u, exec i s = .next t ∧ t.pend? id = none ∧ (t.core p.core).work = (s.core p.core).work ++ [.trap u] ∧
      u.slot = p.slot ∧ u.causes = [(e, laneBit p.lane)] ∧ u.va = BitVec.ofNat 64 p.va ∧ u.entry.mask = laneBit p.lane ∧
      (t.gang p.core p.slot).trapped = true
    (p.kind.returns = true → traps (.memoryResponse id)) ∧ (p.kind.returns = false → traps (.writeAcknowledge id))) ∧
  ∀ (c : Nat) (w : WalkReq) (rest : List WalkReq) (s : State), (s.cluster c).walks = w :: rest →
    let q := w.cores.headD ((clusterCores c).headD 0)
    let reads := s.walkReads q w.asn w.root w.va
    ((∃ sb ∈ reads, s.cohOpen q (256 * sb) false = false) → exec (.pageWalk c) s = .next s) ∧
    ((∀ sb ∈ reads, s.cohOpen q (256 * sb) false = true) →
      (∀ e, s.walk q w.asn w.root w.va = .ok e → ∃ t, exec (.pageWalk c) s = .next t ∧ (t.cluster c).walks = rest ∧
        e ∈ (t.cluster c).tlb ∧ (∀ k ∈ w.cores, e ∈ (t.core k).tlb) ∧ (∀ k, k ∉ w.cores → (t.core k).tlb = (s.core k).tlb) ∧
        ((∀ sb ∈ reads, s.moesiOf (clusterOf q) sb ≠ .i) → t.dram = s.dram ∧ ∀ k, k ∉ w.cores → t.core k = s.core k)) ∧
      ∀ e, s.walk q w.asn w.root w.va = .error e → ∃ t, exec (.pageWalk c) s = .next t ∧ (t.cluster c).walks = rest ∧
        (∀ k, (t.cluster k).tlb = (s.cluster k).tlb ∧ (t.core k).tlb = (s.core k).tlb) ∧
        ((∀ sb ∈ reads, s.moesiOf (clusterOf q) sb ≠ .i) → ClusterBecomes s t c { s.cluster c with walks := rest }))

/-! ## Walkers, hubs and bodies -/

/-- Node `node` of walker `w`, whose field is not halted, is firing as `f`; its run has no fault. -/
def firingNow (s : State) (w node : Nat) (f : Firing) : Prop :=
  s.firing? w node = some f ∧ f.give = none ∧ (s.runOf w).fault = none ∧ (s.walker w).run.isSome = true ∧ s.fieldHalted (w / 8) = false

/-- The firing has neither a token to free nor a successor. -/
def alone (f : Firing) : Prop := f.edge = none ∧ ∀ k ∈ f.succ, k = 0xffffffff

/-- Nothing of the run is left but firings of `node`: it holds no edge, its work's writes are performed, and no trace record waits. -/
def lastOf (s : State) (w node : Nat) : Prop :=
  (∀ f ∈ (s.runOf w).firings, f.node = node) ∧ (s.runOf w).edges = [] ∧ s.workDone w = true ∧ ∀ p ∈ s.cores, p.2.trq = []

/-- The run has ended with the fault of a node: the walker is faulted, and the host is told (R83, R97). -/
def nodeFaults (s t : State) (w node cause : Nat) : Prop :=
  (t.walker w).st = 3 ∧ (t.walker w).run = none ∧ t.dram = s.dram ∧
    Told s t { payload := BitVec.ofNat 64 (node % 2 ^ 32), tag := (s.walker w).tag, src := BitVec.ofNat 16 w
               cause := BitVec.ofNat 8 cause, kind := 2 }

/-- A node begins to fire without a token (R80 to R82, R90 to R92). -/
def nodesFire : Prop :=
  ∀ (w node n : Nat) (s : State), s.walks w = true → (s.runOf w).entry = some node → node < (s.runOf w).nnode →
    (s.runOf w).firings.length < 16 → s.firing? w node = none → s.imageRead w (s.runOf w).base (64 + 64 * node) 64 = .ok n →
    (nodeBad n (s.runOf w).edges.length = true → lastOf s w node → room s → ∃ t, exec (.nodeFire w node) s = .next t ∧ nodeFaults s t w node 1) ∧
    (nodeBad n (s.runOf w).edges.length = false → ∀ f : Firing,
      f = { node, edge := none, kind := bits n 0 4, arg0 := BitVec.ofNat 64 (bits n 64 64), arg1 := BitVec.ofNat 64 (bits n 128 64)
            arg2 := BitVec.ofNat 64 (bits n 192 64), succ := (List.range 4).map fun k => bits n (256 + 32 * k) 32, at_ := s.now } →
      (f.kind = 5 → ∃ t, exec (.nodeFire w node) s = .next t ∧ t.firing? w node = some f ∧ (t.runOf w).entry = none ∧ t.dram = s.dram) ∧
      (f.kind = 1 → f.arg0 ≠ 0 → ∃ t, exec (.nodeFire w node) s = .next t ∧
        t.firing? w node = some { f with chain := f.arg0, chainCore := s.chainCore w }) ∧
      (f.kind = 4 → (s.runOf w).joins.get 0 node + 1 ≠ bits n 16 16 → ∃ t, exec (.nodeFire w node) s = .next t ∧
        t.firing? w node = none ∧ (t.runOf w).joins.get 0 node = (s.runOf w).joins.get 0 node + 1) ∧
      (∀ r, f.kind = 0 → s.launchRecord w f.arg0.toNat = .ok r → s.tableWaits w r = false → s.launchCauses w r = [] → ∃ t l, exec (.nodeFire w node) s = .next t ∧
        t.firing? w node = some { f with ltag := BitVec.ofNat 16 s.freeLtag } ∧ t.launch s.freeLtag = l ∧
        l.code = BitVec.ofNat 64 (bits r 0 64) ∧ l.gx = bits r 64 16 ∧ l.gy = bits r 80 16 ∧ l.left = bits r 64 16 * bits r 80 16 ∧
        l.bw = bits r 96 3 ∧ l.bh = bits r 99 3 ∧ l.gw = 16 * 2 ^ bits r 102 2 ∧ l.octs = bits r 104 9 ∧ l.gangs = bits r 117 4 ∧
        l.walker = w ∧ l.node = node ∧ ∀ c, (t.core c).icache = [] ∧ ∀ e ∈ (t.core c).kcache, konstLtag e.1 ≠ s.freeLtag) ∧
      (∀ r c l, f.kind = 0 → s.launchRecord w f.arg0.toNat = .ok r → s.tableWaits w r = false → s.launchCauses w r = c :: l → lastOf s w node → room s →
        ∃ t, exec (.nodeFire w node) s = .next t ∧ nodeFaults s t w node c))

/-- Firings end (R91, R92, R94, R96, R97, R472). -/
def firingsEnd : Prop :=
  (∀ (w node : Nat) (f : Firing) (s : State), firingNow s w node f → alone f →
    (f.kind = 0 → f.ltag ≠ 0 → (s.launch f.ltag.toNat).left = 0 → s.writesDone (· == f.ltag) = true → ∃ t, exec (.kernelNodeComplete w node) s = .next t ∧
      t.firing? w node = none ∧ (∀ p ∈ t.launches, p.1 ≠ f.ltag.toNat) ∧ t.dram = s.dram) ∧
    (f.kind = 1 → f.chain = 0 → ∃ t, exec (.copyNodeComplete w node) s = .next t ∧ t.firing? w node = none ∧ t.dram = s.dram) ∧
    (f.kind = 5 → room s → ∃ t, exec (.signalEntryWritten w node) s = .next t ∧ t.firing? w node = none ∧ t.dram = s.dram ∧
      Told s t { payload := f.arg0, tag := (s.walker w).tag, src := BitVec.ofNat 16 w, cause := 0, kind := 4 }) ∧
    (∀ v, f.kind = 6 → s.condWord w f.arg0.toNat = .ok v →
      (f.arg1.toNat ≤ v → ∃ t, exec (.waitNodePoll w node) s = .next t ∧ t.firing? w node = none) ∧
      (v < f.arg1.toNat → exec (.waitNodePoll w node) s = .next s) ∧
      (v < f.arg1.toNat → f.arg2 ≠ 0 → f.at_ + 1000 * f.arg2.toNat ≤ s.now → lastOf s w node → room s →
        ∃ t, exec (.waitNodeTimeout w node) s = .next t ∧ nodeFaults s t w node 5))) ∧
  (∀ (w node k : Nat) (f : Firing) (e : Edge) (s : State), s.firing? w node = some f → f.give = some [k] → (s.runOf w).edges[k]? = some e →
    (s.runOf w).fault = none → (s.walker w).run.isSome = true → s.fieldHalted (w / 8) = false →
    (∀ u, s.deliver (s.walkAgent w) e 0 = .ok (some u) → ∃ t, exec (.freeSlotRetry (.walker w node)) s = .next t ∧
      t.firing? w node = none ∧ t.dram = u.dram) ∧
    (s.deliver (s.walkAgent w) e 0 = .ok none → ∃ t x, exec (.freeSlotRetry (.walker w node)) s = .next t ∧ t.firing? w node = some x ∧
      x.give = some [k] ∧ x.stallAt = some s.now ∧ (t.walker w).st = 2 ∧ t.dram = s.dram)) ∧
  ∀ (w : Nat) (s : State), s.walks w = true → (s.runOf w).entry = none → (s.runOf w).firings = [] → s.edgesEmpty w = .ok true → s.workDone w = true →
    s.edgesOpen w = true → room s →
    ∃ t, exec (.runDone w) s = .next t ∧ (t.walker w).st = 0 ∧ (t.walker w).run = none ∧ (∀ k, k ≠ w → (t.walker k).st = (s.walker k).st) ∧
      Told s t { payload := 0, tag := (s.walker w).tag, src := BitVec.ofNat 16 w, cause := 0, kind := 1 }

/-- Hubs: launches, placement, aging, stealing and exits (R98 to R102, R109, R119, R122, R175). -/
def hubs : Prop :=
  (∀ (hub ltag : Nat) (s : State), hub < 48 → ltag < 65536 → s.launches.any (·.1 == ltag) = true → s.fieldHalted hub = false →
    (∀ y, s.hubList? hub (BitVec.ofNat 16 ltag) = some y → y.own = false) → (s.launch ltag).dead = false →
    s.fieldPool hub (s.launch ltag).cls = true →
    ∃ t y, exec (.launchReceive hub ltag) s = .next t ∧ t.hubList? hub (BitVec.ofNat 16 ltag) = some y ∧ y.own = true ∧
      y.blocks = ((s.hubList? hub (BitVec.ofNat 16 ltag)).map (·.blocks)).getD [] ++
        (List.range ((s.launch ltag).gx * (s.launch ltag).gy)).filter (· % 48 == hub)) ∧
  (∀ (hub i o : Nat) (ltag : Half) (s u : State), hub < 48 → s.fieldHalted hub = false → s.phase = 3 →
    u = (s.handAll hub).markBlocked hub → u.hubChoice hub = some (ltag, i, o) → u.savedBlock ltag i = none →
    let l := u.launch ltag.toNat
    ∃ t, exec (.blockPlace hub) s = .next t ∧ t.block u.nextBlock = { ltag, index := i, placed := true, origin := o } ∧
      (t.hub hub).last = ltag ∧
      ∀ c ∈ rectCores l o, ∀ p ∈ ((u.core c).fit l ltag u.nextBlock).getD [],
        let g := t.gang c p.1
        g.seat = p.2 ∧ g.live = true ∧ g.kind = .entry ∧ g.mreg 0 = g.gwMask ∧ g.sreg 1 = l.token ∧
          g.sreg 3 = BitVec.ofNat 64 (i % max 1 l.gx + i / max 1 l.gx * 65536) ∧ g.sreg 5 = BitVec.ofNat 64 ltag.toNat ∧ g.sreg 2 = 0 ∧
          (∀ r j, g.vreg r j = 0) ∧ (∀ j, j < 64 → g.gwMask.getLsbD j = true → (g.lane j).pc = l.code ∧ (g.lane j).stamp = 0) ∧
          ∀ a, a < p.2.spkb * 1024 → (t.core c).spad.read (p.2.spadBase + a) = 0) ∧
  (∀ (hub ltag : Nat) (y : HubList) (s : State), hub < 48 → ltag < 65536 → s.fieldHalted hub = false →
    s.hubList? hub (BitVec.ofNat 16 ltag) = some y → y.blocks ≠ [] → y.eff < 3 → y.since + 1000000 ≤ s.now →
    ∃ t, exec (.hubPriorityAging hub ltag) s = .next t ∧
      t.hubList? hub (BitVec.ofNat 16 ltag) = some { y with eff := y.eff + 1, since := y.since + 1000000 } ∧
      ∀ h, h ≠ hub → t.hub h = s.hub h) ∧
  (∀ (victim thief : Nat) (names : List Half) (s : State), victim < 48 → s.fieldHalted victim = false → s.thiefOf victim = some (thief, names) →
    ((s.hub victim).giveFrom thief names = none → ∃ t, exec (.stealRequest victim) s = .next t ∧ (t.hub thief).answer = some (0, []) ∧
      (t.hub thief).lists = (s.hub thief).lists) ∧
    (∀ y, thief ≠ victim → (s.hub victim).giveFrom thief names = some y → ∃ t bs, exec (.stealRequest victim) s = .next t ∧
      (t.hub thief).answer = some (y.ltag, bs) ∧
      (∀ b, b ∈ bs ↔ b ∈ (y.mayGo thief).drop ((y.mayGo thief).length / 2)) ∧
      ∀ x, t.hubList? victim y.ltag = some x → ∀ b ∈ bs, b ∉ x.blocks)) ∧
  (∀ (thief v : Nat) (l : Half) (bs : List Nat) (names : List Half) (s : State), thief < 48 → s.fieldHalted thief = false →
    (s.hub thief).answer = some (l, bs) → (s.hub thief).steal = some (v, names) →
    (bs = [] → (s.hub thief).empties + 1 < 47 → ∃ t, exec (.stealResponse thief) s = .next t ∧ t.hub thief = { s.hub thief with
      answer := none, steal := some (nextHub v, names), empties := (s.hub thief).empties + 1 }) ∧
    (bs = [] → 47 ≤ (s.hub thief).empties + 1 → ∃ t, exec (.stealResponse thief) s = .next t ∧ t.hub thief = { s.hub thief with
      answer := none, steal := none, empties := 0, backoff := some s.now }) ∧
    (bs ≠ [] → s.fieldPool thief (s.launch l.toNat).cls = true → ∃ t y, exec (.stealResponse thief) s = .next t ∧
      (t.hub thief).answer = none ∧ (t.hub thief).steal = none ∧ t.hubList? thief l = some y ∧
      y.blocks = ((s.hubList? thief l).map (·.blocks)).getD [] ++ bs)) ∧
  (∀ (hub a : Nat) (s : State), hub < 48 → s.fieldHalted hub = false → (s.hub hub).backoff = some a → a + 10000 ≤ s.now →
    ∃ t, exec (.stealBackoffExpire hub) s = .next t ∧ (t.hub hub).backoff = none ∧ (t.hub hub).lists = (s.hub hub).lists) ∧
  ∀ (b : Nat) (s : State), s.blocks.any (·.1 == b) = true → (s.block b).placed = true → (s.block b).lost = false → (s.block b).images = [] →
    (s.cluster (clusterOf (s.block b).origin)).halted = false → (∀ p ∈ s.blockGangs b, s.slotDone p.1 p.2 = true) →
    (∀ c ∈ s.blockCores b, ∀ p, p < 4 → ∀ r ∈ (s.core c).recQ.get [] p, recLtag r.bits ≠ (s.block b).ltag) →
    ∃ t, exec (.blockExit b) s = .next t ∧ (∀ p ∈ t.blocks, p.1 ≠ b) ∧ (∀ p ∈ s.blockGangs b, t.gang p.1 p.2 = {}) ∧
      (t.launch (s.block b).ltag.toNat).left = (s.launch (s.block b).ltag.toNat).left - 1

/-- Records, posts, joins, callee gangs and their callers (R105, R107, R108, R110 to R112, R119, R122, R123). -/
def bodies : Prop :=
  (∀ (c g p : Nat) (r : QRec) (rest : List Nat) (s : State), s.admits c = true → (s.core c).rowWait = [] → s.recordSlots c = g :: rest →
    s.admitFrom c g 4 = .run p r →
    ∃ t, exec (.recordAdmit c) s = .next t ∧ (t.core c).recQ.get [] p = ((s.core c).recQ.get [] p).drop 1 ∧
      let x := t.gang c g
      x.live = true ∧ x.kind = .record ∧ x.seat = { (s.gang c g).seat with octs := recOcts r.bits } ∧ x.mreg 0 = (s.gang c g).gwMask ∧
        x.sreg 1 = r.va ∧ x.sreg 2 = recFrame r.bits ∧ x.parent = recParent r.bits ∧ (∀ q j, x.vreg q j = 0) ∧
        (∀ j, j < 64 → (x.mreg 0).getLsbD j = true → (x.lane j).pc = recCode r.bits ∧ (x.lane j).stamp = 0) ∧ x.wins = (s.gang c g).wins ∧
        x.ctxs = (s.gang c g).ctxs) ∧
  (∀ (c p : Nat) (h : QRec) (l : List QRec) (s : State), p < 3 → s.admits c = true → (s.core c).recQ.get [] p = h :: l →
    (s.core c).recHeadAt.get 0 p + 1000000 ≤ s.now → s.recRoom c (p + 1) 1 = true →
    ∃ t, exec (.recordPromote c p) s = .next t ∧ (t.core c).recQ.get [] p = l ∧
      (t.core c).recQ.get [] (p + 1) = (s.core c).recQ.get [] (p + 1) ++ [h] ∧ (t.core c).gangs = (s.core c).gangs) ∧
  (∀ (id prio slot : Nat) (p : Packet) (r : QRec) (s : State), s.packet? id = some p → p.body = .post r prio slot → p.arrived = true →
    p.ret = false → s.inTurn p = true → s.standsFor p = true →
    let turned (nack : Bool) : Packet := { p with
      ret := true, nack, taken := false, inPort := 4, order := p.clsOrder, vc := if p.clsOrder = 1 then 1 else 0
      fallback := false, since := s.now, portAt := s.now }
    (s.residentAt p.dst (recLtag r.bits) = true → s.recRoom p.dst prio 1 = true → ∃ t x, exec (.postReceive id) s = .next t ∧
      (t.core p.dst).recQ.get [] prio = (s.core p.dst).recQ.get [] prio ++ [x] ∧ x.bits = r.bits ∧ x.va = r.va ∧
      t.packets = s.packets.map fun y => if y.id = id then turned false else y) ∧
    (s.residentAt p.dst (recLtag r.bits) = false ∨ s.recRoom p.dst prio 1 = false → ∃ t, exec (.postReceive id) s = .next t ∧
      PacketBecomes s t p { turned true with reinjected := true })) ∧
  (∀ (id prio slot : Nat) (p : Packet) (r : QRec) (s : State), s.packet? id = some p → p.body = .post r prio slot → p.arrived = true →
    p.ret = true → p.nack = true → p.reinjected = true → s.inTurn p = true → slot < 15 →
    let gone (t : State) : Prop := exec (.postRefusedReturn id) s = .next t ∧ (∀ q ∈ t.packets, q.id ≠ id) ∧
      (t.gang p.src slot).posts = (s.gang p.src slot).posts - 1
    (s.residentAt p.src (recLtag r.bits) = true → s.recRoom p.src prio 1 = true → ∃ t x, gone t ∧
      (t.core p.src).recQ.get [] prio = (s.core p.src).recQ.get [] prio ++ [x] ∧ x.bits = r.bits) ∧
    (s.residentAt p.src (recLtag r.bits) = true → s.recRoom p.src prio 1 = false → exec (.postRefusedReturn id) s = .next s) ∧
    (s.residentAt p.src (recLtag r.bits) = false → ∃ t, gone t ∧ (t.core p.src).recQ = (s.core p.src).recQ)) ∧
  (∀ (c g : Nat) (u s : State), g < 15 → (s.gang c g).ending = true → (s.gang c g).kind = .record → (s.gang c g).parent ≠ 0 →
    (∀ p ∈ s.pends, p.core = c → p.slot = g → p.performed = true ∨ p.failed ≠ none) → s.bcastClear (clusterOf c) = true →
    s.joinAt c g (s.gang c g).parent = .ok u → ∃ t, exec (.joinDecrement c g) s = .next t ∧ (t.gang c g).parent = 0 ∧ t.dram = u.dram ∧
      t.packets = u.packets) ∧
  (∀ (c g q : Nat) (h : CallItem) (l : List CallItem) (s : State),
    let x := s.gang c g
    g < 15 → x.seat.gw ≤ 64 → s.admits c = true → x.idle = true → s.calleeReady c g = true → (s.core c).fullest x.seat.ltag = some q →
    (s.core c).calleeQ.get [] q = h :: l →
    let items := (takeItems h.target h.ltag x.seat.gw (h :: l)).1
    ∃ t, exec (.calleeGangForm c g) s = .next t ∧ (t.gang c g).live = true ∧ (t.gang c g).kind = .callee ∧
      (t.core c).calleeQ.get [] q = (takeItems h.target h.ltag x.seat.gw (h :: l)).2 ∧
      ∀ (j : Nat) (y : CallItem), items[j]? = some y → y.target = h.target ∧ ((t.gang c g).mreg 0).getLsbD j = true ∧
        ((t.gang c g).lane j).pc = h.target ∧ (t.gang c g).callers.get {} j = y.caller ∧
        ∀ (r : Nat) (v : Word), y.v[r]? = some v → (t.gang c g).vreg r j = v) ∧
  (∀ (c g n : Nat) (s : State), g < 15 → s.admits c = true → (∀ x ∈ (s.core c).slotSaves, x.slot ≠ g) → (s.gang c g).live = true →
    (s.gang c g).saveStop = none → (s.gang c g).calls.find? (s.callDone (s.gang c g)) = some n →
    ((s.gang c g).matrixHolds (List.range 8) = true → exec (.callerResume c g) s = .next s) ∧
    ((s.gang c g).matrixHolds (List.range 8) = false → (s.gang c g).rowAt = none →
      s.replayFault c (s.gang c g) (((s.gang c g).touched (List.range 8) []).map fun m => ((s.gang c g).recipe m).treg.toNat) = none →
      s.rowsReady c g ((s.gang c g).touched (List.range 8) []) ((s.gang c g).callMask n) = true →
      ∃ t, exec (.callerResume c g) s = .next t ∧
        (∀ j ∈ (s.gang c g).callLanes n, ((t.gang c g).lane j).susp = false ∧ ((t.gang c g).lane j).pc = ((s.gang c g).lane j).pc ∧
          ∀ (l : List Word) (r : Nat) (v : Word), (s.returned n).find? (·.1 == j) = some (j, l) → l.length ≤ 8 → l[r]? = some v →
            (t.gang c g).vreg r j = v) ∧
        ∀ k, ∀ x ∈ (t.core k).returns, x.1 ≠ n)) ∧
  ∀ (c q a g n : Nat) (x : CallItem) (rest : List CallItem) (s : State), s.admits c = true → (∀ k, k < 15 → (s.gang c k).saveCall = false) →
    q < 16 → (s.core c).calleeAt.get none q = some a → a + 2000 ≤ s.now → (s.core c).calleeQ.get [] q = x :: rest →
    (∀ k ∈ s.idleSlots c, (s.gang c k).seat.ltag ≠ x.ltag) →
    (∀ k, k < q → (s.core c).calleeAt.get none k = none) → (g, n) ∈ s.callVictims c x.ltag →
    (∀ p ∈ s.callVictims c x.ltag, p ≠ (g, n) → n < p.2) →
    (s.slotImage c g = false → exec (.callqSlotPreempt c) s = .next s) ∧
    (s.slotImage c g = true → ∃ t, exec (.callqSlotPreempt c) s = .next t ∧ (t.gang c g).saveStop = some none ∧ (t.gang c g).saveCall = true ∧
      ∀ k h, k ≠ c ∨ h ≠ g → t.gang k h = s.gang k h)

/-! ## The events of a core -/

/-- The handler starts a body at HENTRY on all its lanes, with s1, s3 and s4 and every other register zero (R274, R276). -/
def handlerStarts (s t : State) (c s1 s3 s4 : Nat) : Prop :=
  let g := t.gang c handlerSlot
  g.live = true ∧ g.kind = .handler ∧ g.mreg 0 = 0xffff ∧ g.sreg 1 = BitVec.ofNat 64 s1 ∧ g.sreg 3 = BitVec.ofNat 64 s3 ∧
    g.sreg 4 = BitVec.ofNat 64 s4 ∧ (∀ n, n ≠ 1 → n ≠ 3 → n ≠ 4 → g.sreg n = 0) ∧ (∀ n, n ≠ 0 → g.mreg n = 0) ∧ (∀ r j, g.vreg r j = 0) ∧
    (∀ j, j < 16 → (g.lane j).pc = BitVec.ofNat 64 (bits s.hentry.toNat 0 57) ∧ (g.lane j).stamp = 0 ∧ (g.lane j).exited = false) ∧
    ∀ h, h ≠ handlerSlot → t.gang c h = s.gang c h

/-- The address space of the handlers, and the state after a core's frame page has been looked up in it (R172, R275). -/
def handlerAsn (s : State) : Half := s.hroot.extractLsb' 48 16
def handlerRoot (s : State) : Nat := bits s.hroot.toNat 16 25 * 2 ^ 16
def lookedUp (s : State) (c : Nat) : State := s.queueWalk c (handlerAsn s) (handlerRoot s) (s.frameVa c)

/-- A frame's page, coherent and mapped for the handler's writes, which can be made now; no line of the cluster is dirty. -/
def framePage (s : State) (c : Nat) (p : Trans) : Prop :=
  let o := lookedUp s c
  s.walkOpen c (handlerAsn s) (handlerRoot s) (s.frameVa c) = true ∧
    o.translate c (handlerAsn s) (handlerRoot s) (s.frameVa c) .write = .ok p ∧ o.reach c p 8 true = none ∧ p.kind = .coherent ∧
    p.pa % 2 ^ 16 = 0 ∧ o.frameOpen c p true = true ∧ (∀ q, clusterOf q = clusterOf c → ∀ e ∈ (s.core q).l1, e.2.mask = 0) ∧
    ∀ e ∈ (s.cluster (clusterOf c)).l2, e.2.mask = 0

/-- Bounds that pass, holds and barrier waits (R132, R135, R283, R404, R414). -/
def bounds : Prop :=
  (∀ (c i : Nat) (h : Hold) (s : State), (s.core c).holds.get none i = some h → s.runs c = true → h.since + 32 ≤ s.cycles (clusterOf c) →
    ∃ t, exec (.holdTimeout c i) s = .next t ∧ (t.core c).holds.get none i = none ∧ (t.core c).gangs = (s.core c).gangs ∧
      (t.core c).latches = (s.core c).latches) ∧
  (∀ (c g a : Nat) (s : State), (s.gang c g).parkAt = some a → s.runs c = true → a + 4096 ≤ s.cycles (clusterOf c) →
    ∃ t, exec (.regangTimeout c g) s = .next t ∧ (t.gang c g).parkAt = none ∧
      ∀ j, j < 64 → ((s.gang c g).lane j).exited = false → ((s.gang c g).lane j).parked = true →
        ((t.gang c g).lane j).parked = false ∧ ((t.gang c g).lane j).pc = ((s.gang c g).lane j).pc + 8 ∧
          ((t.gang c g).lane j).stamp = ((s.gang c g).lane j).stamp) ∧
  (∀ (c g j b : Nat) (w : FeWaiter) (s : State), (s.core c).feWait.find? (fun w => w.slot == g && w.lane == j) = some w → w.bound = some b →
    s.runs c = true → w.since + b ≤ s.cycles (clusterOf c) →
    ∃ t, exec (.ldfeTimeout c g j) s = .next t ∧ (∀ x ∈ (t.core c).feWait, ¬(x.slot = g ∧ x.lane = j ∧ x.granule = w.granule)) ∧
      (t.core c).spad = (s.core c).spad ∧ (t.core c).spadFE = (s.core c).spadFE ∧ t.dram = s.dram) ∧
  (∀ (c g j b : Nat) (q : FeWaiter) (w : Wait) (f : Fields) (s : State),
    (s.core c).feWait.find? (fun y => y.slot == g && y.lane == j) = some q → q.bound = some b → s.runs c = true →
    q.since + b ≤ s.cycles (clusterOf c) → j < 64 → (s.gang c g).waits = [w] → w.fe? = some f → f.m58 = true → f.nwb = false →
    w.ex.getLsbD j = true → w.done.getLsbD j = false → w.zero.getLsbD j = false →
    (∀ l, l < 64 → w.ex.getLsbD l = true → l ≠ j → w.done.getLsbD l = true ∨ w.timedOut.getLsbD l = true) →
    (s.gang c g).droppedAs w.dst = none →
    ∃ t, exec (.ldfeTimeout c g j) s = .next t ∧ (t.gang c g).waits = [] ∧
      (w.ldfe = true → (t.gang c g).vreg (w.dst + 1) j = 0 ∧ (t.gang c g).vreg w.dst j = (s.gang c g).vreg w.dst j) ∧
      (w.ldfe = false → (t.gang c g).vreg w.dst j = 0) ∧
      ∀ l, l < 64 → w.lanes.getLsbD l = true → ((t.gang c g).lane l).pc = w.pc + BitVec.ofNat 64 w.len) ∧
  (∀ (c g k p a : Nat) (sp : Bool) (w : Wait) (f : Fields) (s : State), c < nCores → (s.gang c g).waits = [w] →
    w.bar = some (sp, k, a, p) → w.ins = some f →
    let o := s.endWait c g w
    let look := o.barNow c w ⟨sp, k, a⟩
    let u := o.barWalk c w ⟨sp, k, a⟩
    let owns : Prop := g = handlerSlot ∨ (s.core c).lastIssue.get none (g % 4) = some g
    let ends (i : Instr) (r : DWord) : Prop := ∃ t, exec i s = .next t ∧ (t.gang c g).waits = [] ∧
      (f.nwb = false → f.dst.toNat ≠ 0 → (t.gang c g).sreg f.dst.toNat = r) ∧
      (owns → o.ScalarResult t f r) ∧ (¬ owns → (t.core c).latches = (s.core c).latches) ∧
      (∀ j, j < 64 → w.lanes.getLsbD j = true → ((t.gang c g).lane j).pc = w.pc + BitVec.ofNat 64 w.len) ∧ (sp = true → t.dram = s.dram) ∧
      t.focus = s.focus
    let waits : Prop := ∃ t, exec (.barrierWaitRecheck c g) s = .next t ∧ (t.gang c g).waits = [w] ∧ (sp = true → t = s)
    (∀ b, look = some (.ok b) → u.barOpen b false = true → u.barReach b false (u.orderOf f) = none →
      let v := u.barRead c b.entry
      (barBad v = false → barPassed v p = true → ends (.barrierWaitRecheck c g) 0) ∧ (barBad v = false → barPassed v p = false → waits) ∧
      ∀ r, barBad v = true → g < 15 → w.entry = some r → (∀ x, HWork.trap x ∈ (s.core c).work → x.slot ≠ g) →
        ∃ t x, exec (.barrierWaitRecheck c g) s = .next t ∧ (t.core c).work = (s.core c).work ++ [.trap x] ∧ x.slot = g ∧
          x.causes = [(cBarrierBroken, w.ex)] ∧ x.entry.pc = r.pc ∧ (t.gang c g).trapped = true) ∧
    (look = none ∨ (∃ b, look = some (.ok b) ∧ u.barOpen b false = false) → waits) ∧
    (∀ n, s.runs c = true → w.bound = some n → w.since + n ≤ s.cycles (clusterOf c) → (∀ e, look ≠ some (.error e)) →
      (∀ b, look = some (.ok b) → barBad (o.barRead c b.entry) = false ∧ barPassed (o.barRead c b.entry) p = false) →
      ends (.barrierWaitTimeout c g) 1)) ∧
  ∀ (c g a : Nat) (s : State), g < 15 → (s.gang c g).saveReq = some a → (s.cluster (clusterOf c)).halted = false → a + 20000 ≤ s.now →
    (s.obtainImages (s.gang c g).seat.block = none → exec (.hintTimeout c g) s = .next s) ∧
    ∀ u, s.obtainImages (s.gang c g).seat.block = some u → ∃ t, exec (.hintTimeout c g) s = .next t ∧
      t.gang c g = { s.gang c g with saveStop := some none, saveReq := none }

/-- Engines (R211, R225, R226, R230, R232, R235, R240, R242, R243, R294). -/
def engines : Prop :=
  (∀ (c g n e : Nat) (v : EngineAt) (s : State), s.engineAt (.gang c g n) = some v → s.entryBits v = .ok e →
    let x := (s.gang c g).ctx n
    let completes : Prop := ∃ t, exec (.engineEntryComplete (.gang c g n)) s = .next t ∧ ((t.gang c g).ctx n).tlcnt = x.tlcnt + 1 ∧
      ((t.gang c g).ctx n).tliss = x.tliss ∧ ((t.gang c g).ctx n).done = 0 ∧ ((t.gang c g).ctx n).cause = 0 ∧
      (t.core c).am = (s.core c).am.putAll ((x.mats.filter fun m => m.seq == x.tlcnt + 1).flatMap (·.out))
    (∀ sl dims, n < 4 → s.copyPlan v e = .ok (sl, dims) →
      (rowCount dims ≤ v.rows → completes) ∧
      (∀ u, v.rows < rowCount dims → s.copyRow v e sl dims v.rows = .ok u → ∃ t, exec (.engineRowWritten (.gang c g n)) s = .next t ∧
        ((t.gang c g).ctx n).done = x.done + 1 ∧ ((t.gang c g).ctx n).tlcnt = x.tlcnt ∧ t.dram = u.dram)) ∧
    (n = 4 ∨ n = 5 → (∀ m ∈ x.mats, m.seq = x.tlcnt + 1 → m.left = []) → completes) ∧
    (n = 6 → x.tlcnt.toNat < x.matched → completes) ∧
    (∀ u, n = 7 → s.edgePut (.gang c g n) v e = .ok (some u) → exec (.engineEntryComplete (.gang c g n)) s = .next u) ∧
    (∀ k : BitVec 8, k ≠ 0 → k = 0x0b ∨ s.entryFault (.gang c g n) v = some k.toNat → ∃ t, exec (.engineEntryFault (.gang c g n) k) s = .next t ∧
      ((t.gang c g).ctx n).cause = k ∧ ((t.gang c g).ctx n).tlcnt = x.tlcnt ∧ ((t.gang c g).ctx n).tliss = x.tliss) ∧
    (∀ d u, n = 6 → x.matched < x.tlcnt.toNat + 1 → entryKind e = 5 → coRoot e = 0 → s.collFault v c g e = none → s.collMembers c g e = [(c, g)] →
      s.spaceRead v (bits e 168 2) (cpSrc e) (4 * coCount e) = .ok d → s.spaceWrite v (bits e 170 2) (cpDst e) (4 * coCount e) d.2 = .ok u →
      ∃ t, exec (.collectiveMatch c g) s = .next t ∧ ((t.gang c g).ctx 6).matched = x.tlcnt.toNat + 1 ∧ t.dram = u.dram ∧
        ∀ k, (t.core k).spad = (u.core k).spad)) ∧
  (∀ (c : Nat) (q : OctOp) (m : MatRun) (s : State), s.enginesRun c = true → (s.core c).octQ = [q] → s.octRun c q = some m →
    ∃ t, exec (.matrixPass c) s = .next t ∧ (t.core c).octQ = [] ∧
      (t.core c).am = (s.core c).am ∧ t.dram = s.dram ∧ (∃ y, t.octRun c q = some y ∧ y.left = m.left.filter (· != q.oct) ∧
        ((∀ n, ∀ x ∈ ((s.gang c q.slot).ctx n).mats, x.out = []) →
          y.out = s.octetWords c (s.gang c q.slot) m.bits.toNat q.oct m.regs))) ∧
  (∀ (c : Nat) (s : State), c < nCores →
    (∃ t, exec (.matrixSelfTest c true) s = .next t ∧ (t.core c).selfTest = (s.cluster (clusterOf c)).frames ∧ t.cq = s.cq) ∧
    (room s → ∃ t, ∃ e : CqEntry, exec (.matrixSelfTest c false) s = .next t ∧ (t.core c).selfTest = (s.core c).selfTest ∧ e.kind = 7 ∧
      bits e.payload.toNat 0 14 = c ∧ Told s t e)) ∧
  (∀ (c g k n : Nat) (v : DWord) (w : Wait) (s : State), k < 16 → (∀ h, h ≠ k → (s.gang c h).waits = []) → (s.gang c k).waits = [w] →
    w.sysw = some (g, 0x18 + n, v) → ((s.gang c g).ctx n).tlcnt = ((s.gang c g).ctx n).tliss → w.lanes ≠ 0 →
    ∃ t, exec (.chringWrite c g n) s = .next t ∧ ((t.gang c g).ctx n).chring = v &&& 0x01ffffffffffff01 ∧ (t.gang c k).waits = [] ∧
      (∀ j, j < 64 → w.lanes.getLsbD j = true → ((t.gang c k).lane j).pc = w.pc + BitVec.ofNat 64 w.len) ∧ t.focus = s.focus) ∧
  ∀ (c g n : Nat) (s : State), (s.gang c g).seat.used = true → (s.gang c g).live = true ∨ (s.gang c handlerSlot).live = true →
    ((s.gang c g).ctx n).cause ≠ 0 → ((s.gang c g).ctx n).resumed = false →
    (∃ t, exec (.ectlResume c g n) s = .next t ∧ (t.gang c g).ctx n = { (s.gang c g).ctx n with resumed := true, held := none } ∧
      (∀ m ∈ ((s.gang c g).ctx n).mats, ∀ o ∈ m.left, ∃ q ∈ (t.core c).octQ, q.slot = g ∧ q.ctx = n ∧ q.seq = m.seq ∧ q.oct = o) ∧
      ∀ m, m ≠ n → (t.gang c g).ctx m = (s.gang c g).ctx m) ∧
    ∃ t, exec (.ectlAbandon c g n) s = .next t ∧ ((t.gang c g).ctx n).cause = 0 ∧ ((t.gang c g).ctx n).done = 0 ∧
      ((t.gang c g).ctx n).mats = [] ∧
      ((t.gang c g).ctx n).tlcnt = ((s.gang c g).ctx n).tliss ∧ ((t.gang c g).ctx n).tliss = ((s.gang c g).ctx n).tliss ∧
      ∀ m, m ≠ n → (t.gang c g).ctx m = (s.gang c g).ctx m

/-- Writes of the handler and of a waiting gang (R47, R299, R306), and the handler's entry (R274 to R277, R305). -/
def handlers : Prop :=
  (∀ (c g k x : Nat) (v : DWord) (w : Wait) (s : State), (s.gang c g).waits = [w] → w.sysw = some (k, x, v) → 0x050 ≤ x → x < 0x068 →
    w.lanes ≠ 0 →
    ∃ t, exec (.filterWrite c g) s = .next t ∧ (t.gang c g).waits = [] ∧
      (∀ n, x = 0x050 + n → n < 8 → (t.cluster (clusterOf c)).fbase.get 0 n = v &&& 0x800000ffffffff80) ∧
      (∀ j, j < 64 → w.lanes.getLsbD j = true → ((t.gang c g).lane j).pc = w.pc + BitVec.ofNat 64 w.len) ∧ t.focus = s.focus) ∧
  (∀ (c : Nat) (s : State), (s.gang c handlerSlot).live = true →
    (∀ v : DWord, s.handlerWrites c = true → exec (.mondoneWrite c v) s = .next s) ∧
    (∀ v : DWord, v.toNat < 2 ^ 24 → s.handlerWrites c = false → room s → ∃ t, exec (.mondoneWrite c v) s = .next t ∧
      Told s t { payload := BitVec.ofNat 64 (v.toNat % 2 ^ 16), tag := 0, src := BitVec.ofNat 16 c, cause := BitVec.ofNat 8 (v.toNat / 2 ^ 16), kind := 9 }) ∧
    ∀ g, c < nCores → g < 15 →
      (∃ t, exec (.gangStop c g true) s = .next t ∧ (t.gang c g).gdbStop = true ∧ { t.gang c g with
        gdbStop := (s.gang c g).gdbStop, gdbStep := (s.gang c g).gdbStep } = s.gang c g) ∧
      (∃ t, exec (.gangStop c g false) s = .next t ∧ (t.gang c g).gdbStop = false ∧ (t.gang c g).gdbStep = false) ∧
      ((s.gang c g).gdbStop = true → ∃ t, exec (.gangStep c g) s = .next t ∧ (t.gang c g).gdbStop = true ∧ (t.gang c g).gdbStep = true)) ∧
  ∀ (c : Nat) (rest : List HWork) (s : State), s.coreRuns c = true → c < nCores → (s.core c).hStopped = false → (s.gang c handlerSlot).live = false →
    (∀ seq, (s.core c).work = .doorbell seq :: rest → ∃ t, exec (.handlerEntry c) s = .next t ∧ (t.core c).work = rest ∧
      (t.core c).serving = some (.monitor seq) ∧
      handlerStarts s t c (bits (s.hostRegs.get 0 0x36000).toNat 12 45 * 4096 + 256 * c) 0x1f 0 ∧ t.dram = s.dram) ∧
    (∀ u p, (s.core c).work = .trap u :: rest → u.slot < 15 → (s.cluster (clusterOf c)).nextFreq = none → framePage s c p →
      (u.causes.head?.map (·.1)).getD 0 < 256 →
      ∃ t, exec (.handlerEntry c) s = .next t ∧ (t.core c).work = rest ∧
        (t.core c).serving = some (.trap u (BitVec.ofNat 64 (bits s.hfbase.toNat 17 40 * 2 ^ 17 + 0x10000 * c))) ∧
        handlerStarts s t c (bits s.hfbase.toNat 17 40 * 2 ^ 17 + 0x10000 * c) u.slot ((u.causes.head?.map (·.1)).getD 0) ∧
        (let word (i : Nat) : Nat := t.homeRead (clusterOf c) (p.pa + 8 * i) 8
         bits (word 0) 0 8 = (u.causes.head?.map (·.1)).getD 0 ∧ bits (word 0) 24 4 = u.slot ∧
           word 1 = u.entry.pc.toNat ∧ word 2 = u.va.toNat ∧ word 3 = u.raised % 2 ^ 64 ∧
           word 4 = (s.cluster (clusterOf c)).frames % 2 ^ 64 ∧ word 512 = u.entry.base.toNat % 2 ^ 64 ∧ word 515 = u.entry.pc.toNat ∧
           word 516 = u.entry.mask.toNat)) ∧
    (∀ u e, (s.core c).work = .trap u :: rest → (s.cluster (clusterOf c)).nextFreq = none →
      s.walkOpen c (handlerAsn s) (handlerRoot s) (s.frameVa c) = true →
      (lookedUp s c).translate c (handlerAsn s) (handlerRoot s) (s.frameVa c) .write = .error e → room s → e < 256 →
      ∃ t, exec (.handlerEntry c) s = .next t ∧ (t.core c).hStopped = true ∧ (t.core c).work = (s.core c).work ∧
        Told s t { payload := BitVec.ofNat 64 c, tag := 0, src := BitVec.ofNat 16 (clusterOf c), cause := BitVec.ofNat 8 e, kind := 7 })

/-- What the words `w` of a gang's image hold (R284, R286): registers, masks, lanes, recipes, the bitmap of the live octs and their registers, in
a block save ENACC, BINT and the engine contexts too, and no frame where no trap is pending. -/
def imageHolds (b : State) (c g : Nat) (block : Bool) (y : SaveSet) (traps : List TrapRec) : Prop :=
  let x := b.gang c g
  let w := b.imageWord c g block y traps
  (∀ n, n < 64 → w (32 + n) = (x.sreg n).toNat) ∧ (∀ n, n < 16 → w (96 + n) = (x.mreg n).toNat) ∧
    (∀ j, j < 64 → w (128 + 2 * j) = (x.lane j).pc.toNat ∧ bits (w (129 + 2 * j)) 0 32 = (x.lane j).stamp.toNat ∧
      (w (129 + 2 * j)).testBit 32 = (x.lane j).exited ∧ (w (129 + 2 * j)).testBit 33 = (x.lane j).parked ∧
      (w (129 + 2 * j)).testBit 34 = (x.lane j).susp) ∧
    (∀ n k, n < 32 → k < 10 → w (0x600 + 10 * n + k) = rcpWord (x.recipe n) k) ∧
    (∀ k, k < 256 → (w (288 + k / 64)).testBit (k % 64) = x.savesOct y k) ∧
    (∀ r j, r < 2048 → j < 64 → x.savesOct y (r / 8) = true → x.droppedAs r = none →
      bits (w (0x20000 + 32 * r + j / 2)) (32 * (j % 2)) 32 = (x.vreg r j).toNat) ∧
    (block = true → w 112 = x.enacc.toNat ∧ w 113 = (b.block x.seat.block).bint.toNat ∧ ∀ n, n < 8 →
      w (0x800 + 8 * n) = (x.ctx n).chring.toNat ∧ w (0x801 + 8 * n) = (x.ctx n).tlcnt.toNat ∧ w (0x802 + 8 * n) = (x.ctx n).tliss.toNat) ∧
    (block = false → w 112 = 0 ∧ w 113 = 0 ∧ ∀ i, 0x800 ≤ i → i < 0x20000 → w i = 0) ∧
    (traps = [] → ∀ i, 0x30000 ≤ i → w i = 0)

/-- Registers, masks, lanes, recipes and live octs of a gang as the words `rd` of its image give them (R284, R286, R288). -/
def reloaded (rd : Nat → Nat) (octs : Nat) (y : Gang) : Prop :=
  (∀ n, 1 ≤ n → n < 64 → y.sreg n = BitVec.ofNat 64 (rd (32 + n))) ∧ (∀ n, n < 16 → y.mreg n = BitVec.ofNat 64 (rd (96 + n))) ∧
    (∀ j, j < 64 → (y.lane j).pc = BitVec.ofNat 64 (rd (128 + 2 * j)) ∧ (y.lane j).stamp = BitVec.ofNat 32 (bits (rd (129 + 2 * j)) 0 32) ∧
      (y.lane j).exited = (rd (129 + 2 * j)).testBit 32 ∧ (y.lane j).parked = (rd (129 + 2 * j)).testBit 33 ∧
      (y.lane j).susp = (rd (129 + 2 * j)).testBit 34) ∧
    (∀ n, n < 32 → y.recipe n = recipeOfWords rd n) ∧
    ∀ r j, r < 8 * octs → j < 64 → (rd (288 + r / 8 / 64)).testBit (r / 8 % 64) = true →
      y.vreg r j = BitVec.ofNat 32 (bits (rd (0x20000 + 32 * r + j / 2)) (32 * (j % 2)) 32)

/-- A stopped gang has drained, and its hint can be read and its lines written home now (R285, R289). -/
def savable (s : State) (c g : Nat) : Prop :=
  g < 15 ∧ (s.gang c g).seat.used = true ∧ (s.gang c g).saveStop ≠ none ∧ (s.cluster (clusterOf c)).halted = false ∧ s.drainedGang c g = true ∧
    s.hintOpen c (s.gang c g) = true ∧ s.linesOpen c = true

/-- Memory is what the writing of the gang's image at `va` leaves. -/
def imageWritten (b t : State) (c g : Nat) (block : Bool) (va : DWord) : Prop :=
  let w := b.writeImage c g block (b.saveSet c (b.gang c g)) ((b.core c).trapsOf g) va.toNat
  t.dram = w.dram ∧ t.pends = w.pends ∧ imageHolds b c g block (b.saveSet c (b.gang c g)) ((b.core c).trapsOf g)

/-- Saves, restores and rows (R112, R267, R282, R284 to R289). -/
def saves : Prop :=
  (∀ (c g : Nat) (rest : List Nat) (s : State), s.admits c = true → (s.core c).rowWait = g :: rest →
    (s.gang c g).rowNeed ≤ (s.core c).freeFor (s.gang c g).seat →
    ∃ t, exec (.materialiseRowGrant c) s = .next t ∧ (t.core c).rowWait = rest ∧ (t.gang c g).rowAt = none ∧
      (t.gang c g).rowGrant = (s.gang c g).rowNeed) ∧
  (∀ (c : Nat) (x : SlotSave) (s : State), s.admits c = true → (s.core c).rowWait = [] →
    (s.core c).slotSaves.find? (fun x => !x.call && s.slotReady c x) = some x →
    ∃ t, exec (.materialiseRowGrant c) s = .next t ∧ reloaded (s.imageRd (s.gangAgent c x.slot) x.va.toNat) x.rest.seat.octs (t.gang c x.slot) ∧
      (t.gang c x.slot).wins = (s.gang c x.slot).wins ∧ (t.gang c x.slot).ctxs = (s.gang c x.slot).ctxs ∧
      (t.core c).work = (s.core c).work ++ x.traps.map HWork.trap ∧ ∀ y ∈ (t.core c).slotSaves, y.slot ≠ x.slot) ∧
  (∀ (c g : Nat) (s : State), s.admits c = true → g ∈ s.rowHolders c →
    (∀ h ∈ s.rowHolders c, (∃ a, (s.gang c h).rowAt = some a ∧ a + 10000 ≤ s.now) ∧ (s.gang c h).saveStop = none ∧
      (h ≠ g → (s.gang c h).bodyAt < (s.gang c g).bodyAt)) →
    (s.slotImage c g = false → exec (.materialiseDeadlockSave c) s = .next s) ∧
    (s.slotImage c g = true → ∃ t, exec (.materialiseDeadlockSave c) s = .next t ∧ t.gang c g = { s.gang c g with saveStop := some none } ∧
      ∀ h, h ≠ g → t.gang c h = s.gang c h)) ∧
  (∀ (c g i : Nat) (s : State),
    let x := s.gang c g
    let l := s.launch x.seat.ltag.toNat
    let b := s.beforeSave c g
    savable s c g → (s.block x.seat.block).images = [] → s.freeImages c l 1 = some [i] →
    s.imageOpen (s.gangAgent c g) (l.imageVa i).toNat .write = true →
    ∃ t, exec (.gangSave c g) s = .next t ∧ (t.gang c g).live = false ∧ (t.gang c g).seat = x.seat ∧ (t.gang c g).saveStop = none ∧
      (t.gang c g).wins = x.wins ∧ (t.gang c g).ctxs = x.ctxs ∧ (∀ n, (t.gang c g).sreg n = 0) ∧
      (∃ y ∈ (t.core c).slotSaves, y.slot = g ∧ y.va = l.imageVa i ∧ y.traps = (b.core c).trapsOf g) ∧ i ∈ (t.runOf l.walker).images ∧
      (∀ q, HWork.trap q ∈ (t.core c).work → q.slot ≠ g) ∧ imageWritten b t c g false (l.imageVa i)) ∧
  (∀ (c g : Nat) (im : Image) (s : State),
    let x := s.gang c g
    let n := x.seat.block
    let b := s.beforeSave c g
    savable s c g → (s.blockCores n).all s.linesOpen = true →
    (s.block n).images.find? (fun i => i.pos == s.coreIndex c x && i.gidx == x.seat.gidx && !i.done) = some im →
    s.imageOpen (s.gangAgent c g) im.va.toNat .write = true →
    ((∃ j ∈ (s.block n).images, j.va ≠ im.va ∧ j.done = false) → ∃ t, exec (.gangSave c g) s = .next t ∧
      t.gang c g = { seat := x.seat, saveStop := some none } ∧
      (∃ y ∈ (t.block n).images, y.va = im.va ∧ y.done = true ∧ y.rest = b.gang c g ∧ y.traps = (b.core c).trapsOf g) ∧
      (t.block n).placed = (s.block n).placed ∧ imageWritten b t c g true im.va) ∧
    ((∀ j ∈ (s.block n).images, j.va ≠ im.va → j.done = true) → (s.block n).placed = true → ∃ t, exec (.gangSave c g) s = .next t ∧
      (t.block n).placed = false ∧ (t.block n).saved = true ∧
      (∃ y ∈ (t.block n).images, y.va = im.va ∧ y.done = true ∧ y.rest = b.gang c g ∧ y.traps = (b.core c).trapsOf g) ∧
      ∃ y ∈ (t.hub (Machine.fieldOf (s.block n).origin)).lists, y.ltag = (s.block n).ltag ∧ y.blocks.head? = some (s.block n).index)) ∧
  ∀ (hub i o b : Nat) (ltag : Half) (s u : State), hub < 48 → s.fieldHalted hub = false → s.phase = 3 →
    u = (s.handAll hub).markBlocked hub → u.hubChoice hub = some (ltag, i, o) → u.savedBlock ltag i = some b →
    let l := u.launch ltag.toNat
    let agent (c : Nat) : Agent := { core := c, asn := l.asn, root := l.root }
    (∀ c ∈ rectCores l o, u.linesOpen c = true) →
    (∀ x ∈ (u.block b).images, u.imageOpen (agent ((rectCores l o).getD x.pos o)) x.va.toNat .read = true) →
    ∃ t, exec (.blockRestore hub) s = .next t ∧ (t.block b).placed = true ∧ (t.block b).saved = false ∧ (t.block b).origin = o ∧
      (t.block b).images = [] ∧ (t.hub hub).last = ltag ∧
      (∀ (slot : Nat) (seat : Seat) (x : Image), l.bw = 0 → l.bh = 0 →
        let f := (u.freshLines o).setBlock b { u.block b with placed := true, saved := false, origin := o, images := [], calls := [] }
        let rd := f.imageRd (agent o) x.va.toNat
        (f.core o).fit l ltag b = some [(slot, seat)] → (u.block b).images.find? (fun y => y.pos == 0 && y.gidx == seat.gidx) = some x →
        reloaded rd x.rest.seat.octs (t.gang o slot) ∧
          (∀ n, n < seat.nwin → (t.gang o slot).win n = (imageWin seat.gw rd n).getD {}) ∧
          (∀ n, n < 8 → ((t.gang o slot).ctx n).chring = BitVec.ofNat 64 (rd (0x800 + 8 * n)) ∧
            ((t.gang o slot).ctx n).tlcnt = BitVec.ofNat 64 (rd (0x801 + 8 * n)) ∧
            ((t.gang o slot).ctx n).tliss = BitVec.ofNat 64 (rd (0x802 + 8 * n))) ∧
          (t.gang o slot).enacc = BitVec.ofNat 64 (rd 112) ∧
          (seat.amTiles.Nodup → ∀ q, q < 2048 * seat.amt → seat.amTiles.length = seat.amt →
            (t.core o).am.get 0 (2048 * seat.tile (q / 2048) + q % 2048) = BitVec.ofNat 32 (bits (rd (0xc000 + q / 2)) (32 * (q % 2)) 32))) ∧
      ∀ (p : Nat), l.bw = 0 → l.bh = 0 → (u.block b).origin ≠ o → u.residentAt (u.block b).origin ltag = false → p < 4 →
        let old := (u.core (u.block b).origin).recQ.get [] p
        let new := (u.core o).recQ.get [] p
        (t.core o).recQ.get [] p = new ++ (old.filter fun r => recLtag r.bits == ltag).take (recCap - new.length) ∧
          (t.core (u.block b).origin).recQ.get [] p = old.filter fun r => recLtag r.bits != ltag

/-- A gang's next instruction that executes consumes its data in error (R293): a machine check with the error's source and address, precise for
an instruction that is not lane by lane, in the lanes `bad` of one that is, which completes in its other lanes. -/
def consumesError : Prop :=
  (∀ (f : Fields) (sp : OpSpec) (e : Ecc) (s : State), opSpec (.sadd f) = some sp → s.me.ecc = some e → untrapped s →
    (s.modMe fun g => { g with ecc := none }).issuesPlain sp f = true →
    ∃ t u, exec (.sadd f) s = .next t ∧ Trapped s t u ∧ u.causes = [(cMachineCheck, s.execLanes f)] ∧ u.inner = e.source ∧ u.va = e.va ∧
      (s.mine t).ecc = none) ∧
  ∀ (f : Fields) (sp : OpSpec) (e : Ecc) (s : State), opSpec (.vaddInt f) = some sp → s.me.ecc = some e → untrapped s →
    (s.modMe fun g => { g with ecc := none }).issuesPlain sp f = true →
    let o := (s.modMe fun g => { g with ecc := none }).plainOperands sp f
    let ex := s.execLanes f
    let bad := if ex &&& e.mask = 0 then ex else ex &&& e.mask
    ∃ t u, exec (.vaddInt f) s = .next t ∧ (t.core s.focus.core).work = s.myCore.work ++ [.trap u] ∧ u.slot = s.focus.slot ∧
      u.causes = [(cMachineCheck, bad)] ∧ u.inner = e.source ∧ u.va = e.va ∧ (s.mine t).ecc = none ∧ (s.mine t).trapped = true ∧
      ∀ r j, j < 64 → bad.getLsbD j = true → (s.mine t).vreg r j = o.me.vreg r j

/-- Errors, samples, and the loss of the link and of power (R76, R293, R298, R309, R311). -/
def losses : Prop :=
  (∀ (c g : Nat) (src : BitVec 8) (va : DWord) (s : State), c < nCores → g ≤ handlerSlot → (s.gang c g).live = true → 1 ≤ src.toNat →
    src.toNat ≤ 9 →
    (∀ p, s.spoiledLoad c g va = some p → ∃ t, exec (.eccError c g src va) s = .next t ∧
      t.pend? p.id = some { p with failed := some cMachineCheck, errSrc := src } ∧ t.cores = s.cores ∧ t.dram = s.dram) ∧
    (s.spoiledLoad c g va = none → ∃ t, exec (.eccError c g src va) s = .next t ∧
      t.gang c g = { s.gang c g with ecc := some { source := src, va, mask := Config.freeValue s.freeCtr } } ∧ t.dram = s.dram ∧
      ∀ k h, k ≠ c ∨ h ≠ g → t.gang k h = s.gang k h)) ∧
  consumesError ∧
  (∀ (c g : Nat) (src : BitVec 8) (va : DWord) (s : State), c < nCores →
    handlerSlot < g ∨ (s.gang c g).live = false ∨ src.toNat = 0 ∨ 9 < src.toNat → room s →
    ∃ t, ∃ e : CqEntry, exec (.eccError c g src va) s = .next t ∧ e.kind = 7 ∧ e.src = BitVec.ofNat 16 (clusterOf c) ∧ Told s t e ∧
      t.cores = s.cores) ∧
  (∀ (c i next : Nat) (level : BitVec 4) (x : Sample) (s : State), (s.core c).sampled.get none i = some x → x.half ≤ next →
    next < 3 * x.half → level.toNat ≤ 8 → (s.core c).trq.length < 64 →
    ∃ t r, exec (.sampleTag c i next level) s = .next t ∧ (t.core c).sampleCnt.get 0 i = next ∧ (t.core c).sampled.get none i = none ∧
      (t.core c).trq = (s.core c).trq ++ [r] ∧ r.walker = x.walker ∧ r.bits.extractLsb' 120 8 = 1 ∧
      r.bits.extractLsb' 128 48 = BitVec.ofNat 48 x.at_ ∧ r.bits.extractLsb' 176 80 = x.name ∧
      r.bits.extractLsb' 63 57 = x.pc.extractLsb' 0 57 ∧ r.bits.extractLsb' 59 4 = level ∧ r.bits.extractLsb' 57 2 = BitVec.ofNat 2 i ∧
      (s.sampleStage c x = none → r.bits.extractLsb' 56 1 = 0) ∧
      (∀ n, s.sampleStage c x = some n → r.bits.extractLsb' 56 1 = 1 ∧ (n = 1 → r.bits.extractLsb' 0 36 = 0) ∧
        (n = 2 ∨ n = 3 → r.bits.extractLsb' 0 24 = 0)) ∧
      (t.core c).gangs = (s.core c).gangs) ∧
  (∀ s : State, s.linkMods ≠ 0 → room s → ∃ t, ∃ e : CqEntry, exec .linkModuleLoss s = .next t ∧ t.linkMods = s.linkMods - 1 ∧ e.kind = 8 ∧
    Told s t e ∧ t.cores = s.cores) ∧
  ∀ s : State, ∃ t, exec .modulePowerLoss s = .next t ∧ t.powered = false ∧ t.irqs = s.irqs + 48 ∧
    (∀ f n, f < 48 → n < 4096 → t.hostReads[s.hostReads.length + 4096 * f + n]? = some ((s.bbox.get {} f).slots.get 0 n)) ∧
    step t = .fault .unpowered

end Sys2Proof.Claims

open Sys2Proof.Claims

/-- R355, R359, R360. Each scalar operation of group 0x0 without a count completes wherever nothing stops it, with the rule's value
reduced to its width, extended, and written to sD and latch LAT; nothing else changes. -/
def Obligations.ScalarArithmeticResults : Prop :=
  ∀ (i : Instr) (f : Fields) (sp : OpSpec) (s : State) (r : Int), opSpec i = some sp → s.issuesPlain sp f = true →
    arithmetic (s.plainOperands sp f) sp i = some (f, r) →
    ∃ t, exec i s = .next t ∧ (s.plainOperands sp f).ScalarDone t f (reduced f r)

/-- R361. Shifts, `slea` and bit fields take whole unsigned counts and complete with the rule's value; nothing else changes. -/
def Obligations.ScalarShiftResults : Prop :=
  ∀ (i : Instr) (f : Fields) (sp : OpSpec) (s : State) (r : Int), opSpec i = some sp → s.issuesPlain sp f = true →
    shifts (s.plainOperands sp f) sp i = some (f, r) →
    ∃ t, exec i s = .next t ∧ (s.plainOperands sp f).ScalarDone t f (reduced f r)

/-- R364. The mask operations complete with the rule's mask, cleared at and above GW, in mD and latch LAT; `mpopc` and `mffs` write
their count as a scalar; nothing else changes. -/
def Obligations.MaskOperationResults : Prop :=
  (∀ (i : Instr) (f : Fields) (sp : OpSpec) (s : State) (m : Mask), opSpec i = some sp → s.issuesPlain sp f = true →
    maskResults (s.plainOperands sp f) sp i = some (f, m) →
    ∃ t, exec i s = .next t ∧ (s.plainOperands sp f).MaskDone t f m) ∧
  (∀ (f : Fields) (sp : OpSpec) (s : State), opSpec (.mpopc f) = some sp → s.issuesPlain sp f = true →
    ∃ t, exec (.mpopc f) s = .next t ∧ (s.plainOperands sp f).ScalarDone t f
      (BitVec.ofNat 64 (oneBits (s.plainOperands sp f).me.gw ((s.plainOperands sp f).sa sp f)))) ∧
  ∀ (f : Fields) (sp : OpSpec) (s : State), opSpec (.mffs f) = some sp → s.issuesPlain sp f = true →
    ∃ t, exec (.mffs f) s = .next t ∧ (s.plainOperands sp f).ScalarDone t f
      (BitVec.ofNat 64 (lowestBit (s.plainOperands sp f).me.gw ((s.plainOperands sp f).sa sp f)))

/-- R362, R363, R365. `sgetl` reads lane B mod GW, zero where it is exited or was never launched; `vsetl` writes that lane alone
where it is launched and has not exited, and nothing otherwise; `nop` changes no state but the PC. -/
def Obligations.LaneMovesAndNop : Prop :=
  (∀ (f : Fields) (sp : OpSpec) (s : State), opSpec (.sgetl f) = some sp → s.issuesPlain sp f = true →
    ∃ t, exec (.sgetl f) s = .next t ∧ (s.plainOperands sp f).ScalarDone t f
      (reduced f (let o := s.plainOperands sp f
                  let l := s.sb sp f % s.me.gw
                  if o.me.liveLanes.getLsbD l then toInt (tyIsI f.ty) (tyBits f.ty) (o.rawVec sp f .vreg f.ka f.a l) else 0))) ∧
  (∀ (f : Fields) (sp : OpSpec) (s : State), opSpec (.vsetl f) = some sp → s.issuesPlain sp f = true →
    let o := s.plainOperands sp f
    let u := (s.markReplay (s.srcRegs sp f)).readied f [] [] []
    let l := s.sb sp f % s.me.gw
    (s.me.liveLanes.getLsbD l = true → ∃ t, exec (.vsetl f) s = .next t ∧
      o.VectorDone t f (ty64 f) (laneBit l) 0 fun _ => (reduced f (valA o sp f)).toNat) ∧
    (s.me.liveLanes.getLsbD l = false → ∃ t, exec (.vsetl f) s = .next t ∧ u.WritesOnly t noReg noReg noReg ∧ u.MovedOn t)) ∧
  ∀ (f : Fields) (sp : OpSpec) (s : State), opSpec (.nop f) = some sp → s.issuesPlain sp f = true →
    ∃ t, exec (.nop f) s = .next t ∧ (s.plainOperands sp f).WritesOnly t noReg noReg noReg ∧ (s.plainOperands sp f).MovedOn t

/-- R366, R367. `br`, `brs`, `jmpi` and `ret` send their taken lanes to the target and every other lane to the next instruction, and
change nothing but PCs and stamps; a target at or below the PC raises a taken lane's stamp, but not for `ret`. -/
def Obligations.BranchesAndReturns : Prop :=
  (∀ (f : Fields) (sp : OpSpec) (s : State), opSpec (.br f) = some sp → s.issuesPlain sp f = true →
    let o := s.plainOperands sp f
    ∃ t, exec (.br f) s = .next t ∧ o.WritesOnly t noReg noReg noReg ∧
      o.LanesGo t (goes o (s.execLanes f) true fun _ => branchTarget o f f.a)) ∧
  (∀ (f : Fields) (sp : OpSpec) (s : State), opSpec (.brs f) = some sp → s.issuesPlain sp f = true →
    let o := s.plainOperands sp f
    let holds := compares f.fn.toNat (toInt true 64 (o.sa sp f)) (toInt true 64 (o.sb sp f))
    ∃ t, exec (.brs f) s = .next t ∧ o.WritesOnly t noReg noReg noReg ∧
      o.LanesGo t (goes o (if holds then s.execLanes f else 0) true fun _ => branchTarget o f f.c)) ∧
  (∀ (f : Fields) (sp : OpSpec) (s : State), opSpec (.jmpi f) = some sp → s.issuesPlain sp f = true →
    (∀ j, j < 64 → (s.execLanes f).getLsbD j = true → s.va sp f j % 4 = 0) →
    let o := s.plainOperands sp f
    ∃ t, exec (.jmpi f) s = .next t ∧ o.WritesOnly t noReg noReg noReg ∧
      o.LanesGo t (goes o (s.execLanes f) true fun j => BitVec.ofNat 64 (o.va sp f j))) ∧
  ∀ (f : Fields) (sp : OpSpec) (s : State), opSpec (.ret f) = some sp → s.issuesPlain sp f = true →
    (∀ j, j < 64 → (s.execLanes f).getLsbD j = true → s.va sp f j % 4 = 0) →
    let o := s.plainOperands sp f
    ∃ t, exec (.ret f) s = .next t ∧ o.WritesOnly t noReg noReg noReg ∧
      o.LanesGo t (goes o (s.execLanes f) false fun j => BitVec.ofNat 64 (o.va sp f j))

/-- R367, R368. `call` and `calli` write the address of the next instruction to the link pair of the taken lanes and send them to the
target, read before the link is written; `loop` writes the count less one and branches unless it is zero. -/
def Obligations.CallsAndLoops : Prop :=
  (∀ (f : Fields) (sp : OpSpec) (s : State), opSpec (.call f) = some sp → s.issuesPlain sp f = true →
    let o := s.plainOperands sp f
    ∃ t, exec (.call f) s = .next t ∧ o.WritesOnly t noReg noReg (vecDst o f true) ∧
      o.VectorResult t f true (s.execLanes f) 0 (fun _ => (s.focus.pc + BitVec.ofNat 64 s.focus.len).toNat) ∧
      o.LanesGo t (goes o (s.execLanes f) false fun _ => branchTarget o f f.a)) ∧
  (∀ (f : Fields) (sp : OpSpec) (s : State), opSpec (.calli f) = some sp → s.issuesPlain sp f = true →
    (∀ j, j < 64 → (s.execLanes f).getLsbD j = true → s.va sp f j % 4 = 0) →
    let o := s.plainOperands sp f
    ∃ t, exec (.calli f) s = .next t ∧ o.WritesOnly t noReg noReg (vecDst o f true) ∧
      o.VectorResult t f true (s.execLanes f) 0 (fun _ => (s.focus.pc + BitVec.ofNat 64 s.focus.len).toNat) ∧
      o.LanesGo t (goes o (s.execLanes f) false fun j => BitVec.ofNat 64 (o.va sp f j))) ∧
  ∀ (f : Fields) (sp : OpSpec) (s : State), opSpec (.loop f) = some sp → s.issuesPlain sp f = true →
    let o := s.plainOperands sp f
    let r : DWord := BitVec.ofNat 64 (o.sa sp f) - 1
    ∃ t, exec (.loop f) s = .next t ∧ o.WritesOnly t (scalDst f) noReg noReg ∧ o.ScalarResult t f r ∧
      o.LanesGo t (goes o (if r = 0 then 0 else s.execLanes f) true fun _ => branchTarget o f f.b)

/-- R132, R369. `regang` and `regang.any` complete wherever nothing stops them: their taken lanes park where they are and the other lanes of
the group go on; once every lane that has not exited is parked or suspended, each parked lane goes on behind its `regang`, those of one
`regang.any` with the latest of their stamps. Nothing but the gang's lanes changes. -/
def Obligations.RegangParks : Prop :=
  ∀ (i : Instr) (f : Fields) (any : Bool) (sp : OpSpec) (s : State), (i = .regang f ∧ any = false) ∨ (i = .regangAny f ∧ any = true) →
    opSpec i = some sp → s.issuesPlain sp f = true →
    let o := s.plainOperands sp f
    let taken := s.execLanes f
    ∃ t, exec i s = .next t ∧ t.focus.done = true ∧ o.SameMemory t ∧ o.SameElsewhere t ∧
      (∀ n, (o.mine t).sreg n = o.me.sreg n ∧ (o.mine t).mreg n = o.me.mreg n) ∧ (∀ r j, (o.mine t).vreg r j = o.me.vreg r j) ∧
      (allParked o taken any → ∀ j, j < 64 → (o.mine t).lane j = releasedLane o taken any j) ∧
      (¬ allParked o taken any → ∀ j, j < 64 → (o.mine t).lane j = parkedLane o taken any j)

/-- R111, R133, R370. `exit` completes wherever nothing stops it and ends its taken lanes; those of a callee gang return v0 to v7 to their
callers first. While another launched lane has not exited, the others of the group go on and nothing else changes; with the last lane
the body ends: its slot goes idle at once where it owes no join, no post and no trap and no context of it has faulted, and a handler stops
serving. -/
def Obligations.ExitEndsLanes : Prop :=
  ∀ (f : Fields) (sp : OpSpec) (s : State), opSpec (.exit f) = some sp →
    let reads := if s.me.kind = .callee then List.range 8 else []
    s.issues sp f reads [] [] [] = true →
    let o := s.operands sp f reads [] [] []
    let ex := s.execLanes f
    let last : Prop := ∀ j, j < 64 → o.me.liveLanes.getLsbD j = true → ex.getLsbD j = true
    ∃ t, exec (.exit f) s = .next t ∧ t.focus.done = true ∧
      (¬ last → o.SameMemory t ∧ (∀ c, c ≠ o.focus.core → t.core c = o.core c) ∧ (∀ g, g ≠ o.focus.slot → t.gang o.focus.core g = o.gang o.focus.core g) ∧
        (∀ j, j < 64 → ((o.mine t).lane j).exited = (ex.getLsbD j || (o.me.lane j).exited)) ∧
        (∀ n, (o.mine t).sreg n = o.me.sreg n ∧ (o.mine t).mreg n = o.me.mreg n) ∧ (∀ r j, (o.mine t).vreg r j = o.me.vreg r j)) ∧
      (o.me.kind = .callee → (t.core o.focus.core).returns = o.myCore.returns ++ (lanesOf ex).map (fun j =>
        ((o.me.callers.get {} j).call, (o.me.callers.get {} j).lane,
          (List.range 8).map fun r => BitVec.ofNat 32 (o.vval o.focus.core o.me r j)))) ∧
      (last → o.me.isHandler = false → (o.me.kind = .record → o.me.parent = 0) → o.me.posts = 0 → o.me.trapped = false →
        (∀ n, n < 8 → (o.me.ctx n).stopped = false) → (o.mine t).live = false) ∧
      (last → o.me.isHandler = true → (∀ u va, o.myCore.serving ≠ some (.trap u va)) →
        (t.gang o.focus.core o.focus.slot).live = false ∧ (t.core o.focus.core).serving = none)

/-- R371, R373, R376, R377. Each element-wise integer instruction completes with the rule's value in every element of every executing
lane, zero in the lanes PZ names, and every other lane and register unchanged. -/
def Obligations.IntegerVectorResults : Prop :=
  ∀ (i : Instr) (f : Fields) (sp : OpSpec) (s : State) (r : Nat → Nat → Nat → Int), opSpec i = some sp → s.issuesPlain sp f = true →
    intElement i = some (f, r) →
    let o := s.plainOperands sp f
    let w := tyBits f.ty
    ∃ t, exec i s = .next t ∧ o.VectorDone t f (sp.dst.wide f) (s.execLanes f) (s.zeroLanes f) fun j =>
      joined w fun k => r (elem w k (o.va sp f j)) (elem w k (o.vb sp f j)) (elem w k (o.vc sp f j))

/-- R378 to R380, R383. `vdp4` accumulates a dot product, `vsel` selects by the bits of a mask, and `vcmp` writes one mask bit per
executing lane, zero for the lanes PZ names, the other bits as they stood (zero where only the latch is written). -/
def Obligations.DotSelectCompare : Prop :=
  (∀ (f : Fields) (sp : OpSpec) (s : State), opSpec (.vdp4 f) = some sp → s.issuesPlain sp f = true →
    let o := s.plainOperands sp f
    ∃ t, exec (.vdp4 f) s = .next t ∧ o.VectorDone t f false (s.execLanes f) (s.zeroLanes f) fun j =>
      low32 (dot4 f (o.va sp f j) (o.vb sp f j) (o.vc sp f j))) ∧
  (∀ (f : Fields) (sp : OpSpec) (s : State), opSpec (.vsel f) = some sp → s.issuesPlain sp f = true →
    let o := s.plainOperands sp f
    ∃ t, exec (.vsel f) s = .next t ∧ o.VectorDone t f (sp.dst.wide f) (s.execLanes f) (s.zeroLanes f) fun j =>
      if (o.sc sp f).testBit j then o.va sp f j else o.vb sp f j) ∧
  ∀ (i : Instr) (f : Fields) (sp : OpSpec) (s : State) (holds : State → Nat → Nat → Bool),
    (i = .vcmpInt f ∧ holds = fun _ a b => compares f.fn.toNat (toInt (tyIsI f.ty) (tyBits f.ty) a) (toInt (tyIsI f.ty) (tyBits f.ty) b)) ∨
      (i = .vcmpFloat f ∧ holds = fun o a b => fp32.cond (o.env f).slot.ftz f.fn.toNat a b) →
    opSpec i = some sp → s.issuesPlain sp f = true →
    let o := s.plainOperands sp f
    ∃ t m, exec i s = .next t ∧ o.MaskDone t f m ∧ ∀ j, j < 64 → m.getLsbD j =
      if (s.execLanes f).getLsbD j then holds o (o.va sp f j) (o.vb sp f j)
      else if (s.zeroLanes f).getLsbD j then false
      else if f.nwb then false
      else (o.me.mreg f.dst.toNat).getLsbD j

/-- R381 to R383. Each float instruction completes with its exact result rounded once under the instruction's mode and slot, or with
the rule's unrounded value, in every element of every executing lane; `vrint` takes FN as its mode where PRM is zero. -/
def Obligations.FloatVectorResults : Prop :=
  (∀ (i : Instr) (f : Fields) (sp : OpSpec) (s : State) (r : Nat → Nat → Nat → Nat), opSpec i = some sp → s.issuesPlain sp f = true →
    floatElement (s.env f) (fmtOfTy f.ty) i = some (f, r) →
    let o := s.plainOperands sp f
    let w := (fmtOfTy f.ty).bits
    ∃ t, exec i s = .next t ∧ o.VectorDone t f (sp.dst.wide f) (s.execLanes f) (s.zeroLanes f) fun j =>
      joined w fun k => r (elem w k (o.va sp f j)) (elem w k (o.vb sp f j)) (elem w k (o.vc sp f j))) ∧
  ∀ (f : Fields) (sp : OpSpec) (s : State), opSpec (.vrint f) = some sp → s.issuesPlain sp f = true →
    let o := s.plainOperands sp f
    let w := (fmtOfTy f.ty).bits
    ∃ t, exec (.vrint f) s = .next t ∧ o.VectorDone t f (sp.dst.wide f) (s.execLanes f) (s.zeroLanes f) fun j =>
      joined w fun k => (fmtOfTy f.ty).rint (if f.prm = 0 then f.fn.toNat else f.prm) (s.env f).slot.ftz (s.env f).slot.sat
        (elem w k (o.va sp f j))

/-- R154 to R156. A finite value of a format rounds to itself in every mode, whatever SAT, where FTZ is 0. -/
def Obligations.RepresentableValuesStay : Prop :=
  ∀ (m : Fmt) (mode : Mode) (sat : Bool) (z v : Nat) (neg : Bool) (mant : Nat) (exp : Int),
    m = fp32 ∨ m = bf16 ∨ m = fp16 ∨ m = e4m3 ∨ m = e5m2 ∨ m = e2m3 ∨ m = e3m2 ∨ m = e2m1 → v < 2 ^ m.bits →
    m.decode v = .fin neg mant exp false → m.round mode false sat z (m.decode v) = v

/-- R157, R385. `vcvt` takes its source exactly and rounds it once: to a float format in the low bits, or saturating to an integer that
is extended to 32 bits. Under stochastic rounding each executing lane first advances its LFS and rounds with its low 16 bits;
in every other mode no LFS changes. -/
def Obligations.ConvertResults : Prop :=
  ∀ (f : Fields) (sp : OpSpec) (s : State), opSpec (.vcvt f) = some sp → s.issuesPlain sp f = true →
    let o := s.plainOperands sp f
    let e := s.env f
    let value (z j : Nat) : Nat :=
      let x := cvtSource f.fn.toNat e.slot.ftz (o.va sp f j)
      if f.ty.toNat < 4 then (fmtOfTy f.ty).round e.mode e.slot.ftz e.slot.sat z x
      else low32 (toInt (tyIsI f.ty) (tyBits f.ty) (roundToInt (tyIsI f.ty) (tyBits f.ty) e.mode z x))
    (e.mode ≠ modeSR → ∃ t, exec (.vcvt f) s = .next t ∧
      o.VectorDone t f false (s.execLanes f) (s.zeroLanes f) fun j => value 0 j) ∧
    (e.mode = modeSR → ∃ t, exec (.vcvt f) s = .next t ∧ o.MovedOn t ∧
      o.VectorResult t f false (s.execLanes f) (s.zeroLanes f) (fun j => value ((lfsAdvance (o.me.lfsOf j)).toNat % 65536) j) ∧
      ∀ j, j < 64 → (o.mine t).lfsOf j = if (s.execLanes f).getLsbD j then lfsAdvance (o.me.lfsOf j) else o.me.lfsOf j)

/-- The registers and scale bytes of `vcvtn` in one lane: `c` names the scale run, `q` the first block. -/
def scaleByte (g : Gang) (c x j : Nat) : Nat := (g.vreg (c + x / 4) j).toNat / 2 ^ (8 * (x % 4)) % 256

/-- R386 to R388. `vcvtn` completes for a slot, block number and register runs that the rules allow. Each executing lane's narrow run
holds its elements, its scale bytes the scales of the instruction's blocks and every other scale byte what it held; the narrow run
is zero in the lanes PZ names. For a scaled slot the narrow run is read where it does not overlap the register of the scales. -/
def Obligations.NarrowResults : Prop :=
  ∀ (f : Fields) (sp : OpSpec) (s : State), opSpec (.vcvtn f) = some sp →
    let sl := s.slotAt f f.fn.toNat
    let a := (srcReg s.me f.ka f.a).getD 0
    let c := (srcReg s.me f.kc f.c).getD 0
    let d := dstReg s.me f
    let q := f.b.immNat
    let wide := wideRegs f.ty sl.count
    let scales : List Nat := if sl.blk = 0 then [] else [c + q / 4]
    let reads := (List.range wide).map (a + ·) ++ scales
    let writes := (List.range sl.narrowRegs).map (d + ·) ++ scales
    sl.convertible = true → sl.blockOk q = true → (sl.blk = 0 → f.c.isZero = true) → (f.prm = modeSR → sl.fmt.bits ≤ 8) →
    a + wide ≤ s.me.nregs → d + sl.narrowRegs ≤ s.me.nregs → sl.startOk d = true → (sl.blk ≠ 0 → c + 4 ≤ s.me.nregs) →
    s.issues sp f reads writes [] [] = true →
    let o := s.operands sp f reads writes [] []
    let r (j : Nat) := sl.narrow (fmtOfTy f.ty) f.prm (o.me.lfsOf j) (o.wideElems f.ty a sl.count j)
    ∃ t, exec (.vcvtn f) s = .next t ∧ o.MovedOn t ∧ o.SameMemory t ∧ o.SameElsewhere t ∧
      (∀ k j, k < sl.narrowRegs → j < 64 → (sl.blk = 0 ∨ d + k ≠ c + q / 4) → (s.execLanes f).getLsbD j = true →
        (o.mine t).vreg (d + k) j = BitVec.ofNat 32 (packList sl.fmt.bits (r j).1 / 2 ^ (32 * k) % 2 ^ 32)) ∧
      (∀ k j, k < sl.narrowRegs → j < 64 → (s.zeroLanes f).getLsbD j = true → (o.mine t).vreg (d + k) j = 0) ∧
      (sl.blk ≠ 0 → ∀ j, j < 64 → (s.execLanes f).getLsbD j = true → ∀ x, x < 16 → x / 4 = q / 4 →
        scaleByte (o.mine t) c x j =
          if q ≤ x ∧ x < q + sl.blocks then (r j).2.1.getD (x - q) 0 % 256
          else o.vval o.focus.core o.me (c + x / 4) j / 2 ^ (8 * (x % 4)) % 256) ∧
      (∀ x j, j < 64 → x ∉ writes → (o.mine t).vreg x j = o.me.vreg x j) ∧
      (∀ n, (o.mine t).sreg n = o.me.sreg n ∧ (o.mine t).mreg n = o.me.mreg n) ∧
      ∀ j, j < 64 → (o.mine t).lfsOf j = if f.prm = modeSR ∧ (s.execLanes f).getLsbD j = true then (r j).2.2 else o.me.lfsOf j

/-- R386, R387, R389, R390. `vcvtw` widens and `vcbd` decodes a CB2 index: each completes for a slot, block number, scale operand and
register runs that the rules allow, with the run of its results and nothing else changed. -/
def Obligations.WidenAndDecodeResults : Prop :=
  (∀ (f : Fields) (sp : OpSpec) (s : State), opSpec (.vcvtw f) = some sp →
    let sl := s.slotAt f f.fn.toNat
    let a := (srcReg s.me f.ka f.a).getD 0
    let d := dstReg s.me f
    let n := wideRegs f.ty sl.count
    let reads := (List.range sl.narrowRegs).map (a + ·) ++ (if sl.blk = 0 then [] else fopReg f)
    sl.convertible = true → sl.blockOk f.b.immNat = true → (sl.blk = 0 ↔ f.fop.isZero = true) → (f.prm = modeSR → sl.fmt.bits ≤ 8) →
    (∀ r, f.fop = .reg r → sl.blk ≠ 0 → r.toNat + 4 ≤ s.me.nregs) → a + sl.narrowRegs ≤ s.me.nregs → d + n ≤ s.me.nregs →
    sl.startOk a = true → s.issues sp f reads ((List.range n).map (d + ·)) [] [] = true →
    let o := s.operands sp f reads ((List.range n).map (d + ·)) [] []
    ∃ t, exec (.vcvtw f) s = .next t ∧ o.RunDone t f d n (s.execLanes f) (s.zeroLanes f) fun k j =>
      packWide f.ty f.prm (sl.widen (fun b => o.scaleOf f (f.b.immNat + b) j) (o.runVal a sl.narrowRegs j)) / 2 ^ (32 * k) % 2 ^ 32) ∧
  ∀ (f : Fields) (sp : OpSpec) (s : State), opSpec (.vcbd f) = some sp →
    let idx := slotIndex f f.fn.toNat
    let sl := s.slotN s.me idx
    let d := dstReg s.me f
    let n := wideRegs f.ty 8
    let q := f.b.immNat
    sl.code = 14 → q ≤ 15 → (sl.blk = 0 ∨ f.fop.isZero = false) →
    (∀ r, f.fop = .reg r → sl.blk ≠ 0 → r.toNat + 4 ≤ s.me.nregs) → d + n ≤ s.me.nregs →
    s.issues sp f (fopReg f) ((List.range n).map (d + ·)) [] [] = true →
    let o := s.operands sp f (fopReg f) ((List.range n).map (d + ·)) [] []
    ∃ t, exec (.vcbd f) s = .next t ∧ o.RunDone t f d n (s.execLanes f) (s.zeroLanes f) fun k j =>
      let i := o.va sp f j / 2 ^ (16 * (q % 2)) % 65536
      packWide f.ty f.prm (cb2Decode i (o.cbEntry idx (cb2Entry i)) (o.scaleOf f q j)) / 2 ^ (32 * k) % 2 ^ 32

/-- R391. `vsetlfs` sets each executing lane's LFS, to 1 for a zero, and writes no register; `vgetlfs` writes each executing lane's LFS
and changes no LFS. -/
def Obligations.LfsMoves : Prop :=
  (∀ (f : Fields) (sp : OpSpec) (s : State), opSpec (.vsetlfs f) = some sp → s.issuesPlain sp f = true →
    let o := s.plainOperands sp f
    ∃ t, exec (.vsetlfs f) s = .next t ∧ o.MovedOn t ∧ o.SameMemory t ∧ o.SameElsewhere t ∧
      (∀ j, j < 64 → (s.execLanes f).getLsbD j = true →
        (o.mine t).lfsOf j = if o.va sp f j % 2 ^ 32 = 0 then 1 else BitVec.ofNat 32 (o.va sp f j)) ∧
      (∀ j, j < 64 → (s.execLanes f).getLsbD j = false → (o.mine t).lfsOf j = o.me.lfsOf j) ∧
      (∀ n, (o.mine t).sreg n = o.me.sreg n ∧ (o.mine t).mreg n = o.me.mreg n) ∧ ∀ r j, (o.mine t).vreg r j = o.me.vreg r j) ∧
  ∀ (f : Fields) (sp : OpSpec) (s : State), opSpec (.vgetlfs f) = some sp → s.issuesPlain sp f = true →
    let o := s.plainOperands sp f
    ∃ t, exec (.vgetlfs f) s = .next t ∧
      o.VectorDone t f false (s.execLanes f) (s.zeroLanes f) fun j => (o.me.lfsOf j).toNat

/-- R393, R395. Permutations, shuffles, broadcasts and compaction give each executing lane the rule's source lane, zero from lanes
that were never launched or have exited; `vexpd` writes the selected executing lanes alone. -/
def Obligations.PermuteCompactResults : Prop :=
  (∀ (i : Instr) (f : Fields) (sp : OpSpec) (s : State) (r : Nat → Nat), opSpec i = some sp → s.issuesPlain sp f = true →
    let o := s.plainOperands sp f
    permuted o sp (s.execLanes f) i = some (f, r) →
    ∃ t v, exec i s = .next t ∧ o.VectorDone t f (ty64 f) (s.execLanes f) (s.zeroLanes f) v ∧
      ∀ j, j < 64 → (s.execLanes f).getLsbD j = true → v j = r j) ∧
  ∀ (f : Fields) (sp : OpSpec) (s : State), opSpec (.vexpd f) = some sp → s.issuesPlain sp f = true →
    let o := s.plainOperands sp f
    let sel := s.execLanes f &&& BitVec.ofNat 64 (o.sb sp f) &&& o.me.gwMask
    ∃ t, exec (.vexpd f) s = .next t ∧
      o.VectorDone t f (ty64 f) sel (s.zeroLanes f) fun j => crossA o sp f ((lanesOf sel).idxOf j)

/-- R394. Reductions and scans combine the executing lanes alone, in ascending order. -/
def Obligations.ReductionResults : Prop :=
  ∀ (i : Instr) (f : Fields) (sp : OpSpec) (s : State) (r : Nat → Nat), opSpec i = some sp → s.issuesPlain sp f = true →
    let o := s.plainOperands sp f
    reduction o sp (s.execLanes f) i = some (f, r) →
    ∃ t v, exec i s = .next t ∧ o.VectorDone t f (ty64 f) (s.execLanes f) (s.zeroLanes f) v ∧
      ∀ j, j < 64 → (s.execLanes f).getLsbD j = true → v j = r j

/-- R172, R195, R199, R397, R401, R405, R406. A load, store, atomic operation or compare-and-swap of one element per lane completes where
every executing lane's address is aligned and mapped for it: its lanes' accesses are made in ascending order or left in flight, loads
and atomics write the values they return, and the gang goes on. -/
def Obligations.ElementAccessCompletes : Prop :=
  ∀ (i : Instr) (e : Element) (sp : OpSpec) (s : State) (p q : Nat → Aim), opSpec i = some sp → element i = some e →
    s.issues sp e.f (e.reads s) [] [] [] = true → s.raceMode s.me ≠ 1 →
    lanesAim s e.f e.want (e.acc sp s) (s.execLanes e.f) p →
    (e.f.scratch = true ∨ pagesOpen s (fun j => (e.acc sp s j).va) (s.execLanes e.f)) →
    let o := s.operands sp e.f (e.reads s) [] [] []
    lanesAim o e.f e.want (e.acc sp o) (s.execLanes e.f) q →
    let r := lanesRun i e sp o q (s.execLanes e.f)
    r.2.2.1 = [] →
    ∃ t, exec i s = .next t ∧ r.1.MovedOn t ∧
      (e.ret = false → r.1.WritesOnly t noReg noReg noReg) ∧
      (e.ret = true → r.1.VectorDone t e.f (ty64 e.f) (s.execLanes e.f &&& ~~~r.2.2.2) (s.zeroLanes e.f) fun j =>
        loaded e.f.ty (r.2.1.get 0 j))

/-- R199, R273, R401. With accesses left in flight, a global load, store or atomic of one element per lane leaves one access per
executing lane in flight and the gang goes on; a load writes no executing lane's register yet. -/
def Obligations.AccessesStayInFlight : Prop :=
  ∀ (i : Instr) (e : Element) (sp : OpSpec) (s : State) (p q : Nat → Trans), opSpec i = some sp → element i = some e →
    s.issues sp e.f (e.reads s) [] [] [] = true → s.focus.fly = true → e.f.scratch = false → s.raceMode s.me = 0 →
    lanesAim s e.f e.want (e.acc sp s) (s.execLanes e.f) (fun j => .glob (p j)) →
    pagesOpen s (fun j => (e.acc sp s j).va) (s.execLanes e.f) →
    let o := s.operands sp e.f (e.reads s) [] [] []
    lanesAim o e.f e.want (e.acc sp o) (s.execLanes e.f) (fun j => .glob (q j)) →
    ∃ t, exec i s = .next t ∧ o.MovedOn t ∧ t.pends.length = o.pends.length + (lanesOf (s.execLanes e.f)).length ∧
      (∀ j, j < 64 → (s.execLanes e.f).getLsbD j = true → ∃ x ∈ t.pends, o.nextId ≤ x.id ∧ x.core = s.focus.core ∧
        x.slot = s.focus.slot ∧ x.lane = j ∧ x.kind = (e.acc sp o j).kind ∧ x.va = (e.acc sp o j).va ∧ x.pa = (q j).pa ∧
        x.bytes = (e.acc sp o j).bytes) ∧
      (∀ r j, j < 64 → (s.zeroLanes e.f).getLsbD j = false → (o.mine t).vreg r j = o.me.vreg r j) ∧
      ∀ n, (o.mine t).sreg n = o.me.sreg n ∧ (o.mine t).mreg n = o.me.mreg n

/-- R166, R175, R199, R401. A load of one element per lane gives each executing lane the little-endian value at its address, with the bytes
of its own stores in flight over it, extended to its register, from coherent pages and from the scratchpad; no byte of memory changes. -/
def Obligations.LoadResults : Prop :=
  ∀ (f : Fields) (sp : OpSpec) (s : State), opSpec (.ld f) = some sp → f.ctl.fmte = false → s.issuesPlain sp f = true →
    s.raceMode s.me = 0 →
    let o := s.plainOperands sp f
    let n := tyBits f.ty / 8
    ∀ e, element (.ld f) = some e →
    (∀ q : Nat → Trans, f.scratch = false → s.focus.fly = false →
      lanesAim s f .read (e.acc sp s) (s.execLanes f) (fun j => .glob (q j)) →
      lanesAim o f .read (e.acc sp o) (s.execLanes f) (fun j => .glob (q j)) →
      pagesOpen s (fun j => (e.acc sp s j).va) (s.execLanes f) → clean o →
      (∀ j, j < 64 → (s.execLanes f).getLsbD j = true → (q j).kind = .coherent ∧
        o.homeCause o.focus.core (q j).pa (o.orderOf f) = none) →
      (lanesRun (.ld f) e sp o (fun j => .glob (q j)) (s.execLanes f)).2.2.2 = 0 →
      ∃ t, exec (.ld f) s = .next t ∧ o.MovedOn t ∧ o.SameBytes t ∧ o.SameRegs t noReg noReg (vecDst o f (ty64 f)) ∧
        o.VectorResult t f (ty64 f) (s.execLanes f) (s.zeroLanes f) fun j =>
          loaded f.ty (o.ownBytes o.focus.core o.focus.slot j (q j) (e.acc sp o j) (o.homeRead o.myCluster (q j).pa n))) ∧
    ∀ q : Nat → Nat, f.scratch = true →
      lanesAim s f .read (e.acc sp s) (s.execLanes f) (fun j => .spad (q j)) →
      lanesAim o f .read (e.acc sp o) (s.execLanes f) (fun j => .spad (q j)) →
      ∃ t, exec (.ld f) s = .next t ∧ o.MovedOn t ∧ o.SameMemory t ∧ o.SameRegs t noReg noReg (vecDst o f (ty64 f)) ∧
        o.VectorResult t f (ty64 f) (s.execLanes f) (s.zeroLanes f) fun j => loaded f.ty (o.spadRead o.focus.core (q j) n)

/-- R166, R175, R401. A store of one element per lane writes each executing lane's bytes at its address, ascending lanes last, on
coherent pages and in the scratchpad; every other byte of memory and every register is unchanged. -/
def Obligations.StoreResults : Prop :=
  ∀ (f : Fields) (sp : OpSpec) (s : State), opSpec (.st f) = some sp → f.ctl.fmte = false → s.issuesPlain sp f = true →
    let o := s.plainOperands sp f
    let n := tyBits f.ty / 8
    calm s → calm o →
    ∀ e, element (.st f) = some e →
    (∀ (q : Nat → Trans) (h : Nat → Nat), f.scratch = false → s.focus.fly = false →
      lanesAim s f .write (e.acc sp s) (s.execLanes f) (fun j => .glob (q j)) →
      lanesAim o f .write (e.acc sp o) (s.execLanes f) (fun j => .glob (q j)) →
      pagesOpen s (fun j => (e.acc sp s j).va) (s.execLanes f) → clean o →
      (∀ j, j < 64 → (s.execLanes f).getLsbD j = true → (q j).kind = .coherent ∧
        o.homeCause o.focus.core (q j).pa (o.orderOf f) = none ∧ o.physOf ((q j).pa / 2 ^ 27) = h j) →
      (lanesRun (.st f) e sp o (fun j => .glob (q j)) (s.execLanes f)).2.2.2 = 0 →
      ∃ t, exec (.st f) s = .next t ∧ o.MovedOn t ∧ o.SameRegs t noReg noReg noReg ∧ t.decks = o.decks ∧
        (∀ c, (t.core c).spad = (o.core c).spad ∧ (t.core c).am = (o.core c).am) ∧
        ∀ x, t.dram.read x =
          afterStores (lanesOf (s.execLanes f)) (fun j => dramKey (h j) (q j).pa) n (fun j => o.vc sp f j) o.dram.read x) ∧
    ∀ q : Nat → Nat, f.scratch = true →
      lanesAim s f .write (e.acc sp s) (s.execLanes f) (fun j => .spad (q j)) →
      lanesAim o f .write (e.acc sp o) (s.execLanes f) (fun j => .spad (q j)) →
      ∃ t, exec (.st f) s = .next t ∧ o.MovedOn t ∧ o.SameRegs t noReg noReg noReg ∧ o.SameLines t ∧ t.dram = o.dram ∧ t.decks = o.decks ∧
        (∀ c, (t.core c).am = (o.core c).am ∧ (t.core c).spadFE = (o.core c).spadFE) ∧
        (∀ c, c ≠ o.focus.core → (t.core c).spad = (o.core c).spad) ∧
        ∀ x, (t.core o.focus.core).spad.read x =
          afterStores (lanesOf (s.execLanes f)) q n (fun j => o.vc sp f j) (o.core o.focus.core).spad.read x

/-- R190, R405, R406. An atomic operation returns what its bytes held and leaves the operation's result there, whatever the kind of
its page; `cas` writes where they equal the compared value and leaves them as they are otherwise; nothing else in memory changes. -/
def Obligations.AtomicResults : Prop :=
  ∀ (s : State) (t : Trans) (a : Access) (j h : Nat), a.kind.isAtomic = true → calm s → clean s → t.kind ≠ .broadcast →
    a.bytes = tyBits a.ty / 8 → (a.bytes = 4 ∨ a.bytes = 8) → t.pa % a.bytes = 0 → a.data < 2 ^ tyBits a.ty →
    s.homeCause s.focus.core t.pa a.order = none → s.route s.myCluster (t.pa / 2 ^ 27) = .to h → s.physOf (t.pa / 2 ^ 27) = h →
    let old := s.homeRead s.myCluster t.pa a.bytes
    let new : Nat := match a.kind with
      | .atom fn => atomLeaves fn a.ty old a.data
      | _ => if old = a.cmp % 2 ^ tyBits a.ty then a.data else old
    let r := s.perform s.focus.core s.focus.slot j t a
    r.2 = .ok old ∧ r.1.homeRead s.myCluster t.pa a.bytes = new ∧
      (∀ x, x < dramKey h t.pa ∨ dramKey h t.pa + a.bytes ≤ x → r.1.dram.read x = s.dram.read x) ∧ r.1.decks = s.decks ∧
      ∀ c, { r.1.core c with coh := (s.core c).coh } = s.core c

/-- R185, R191, R199. On a software-managed page whose superblock the L1 holds, a store puts its bytes into the core's own line and marks
them, and a load takes the line's bytes under those of its own stores in flight; no DRAM byte and no other core's line changes. -/
def Obligations.SoftwareManagedAccess : Prop :=
  ∀ (s : State) (t : Trans) (a : Access) (j : Nat), calm s → t.kind = .swm → 0 < a.bytes → t.pa % 64 + a.bytes ≤ 64 →
    (tagsOf s.myCore.l1).contains (t.pa / 256) = true →
    let r := s.perform s.focus.core s.focus.slot j t a
    let line := s.l1Line s.focus.core (t.pa / 64)
    (a.kind = .store → r.2 = .ok 0 ∧ r.1.dram = s.dram ∧ r.1.clusters = s.clusters ∧
      (∀ i, i < 64 → (r.1.l1Line s.focus.core (t.pa / 64)).byteAt i =
        if t.pa % 64 ≤ i ∧ i < t.pa % 64 + a.bytes then a.data / 256 ^ (i - t.pa % 64) % 256 else line.byteAt i) ∧
      (∀ i, i < 64 → (r.1.l1Line s.focus.core (t.pa / 64)).mask.getLsbD i =
        (line.mask.getLsbD i || (t.pa % 64 ≤ i && i < t.pa % 64 + a.bytes))) ∧
      (∀ la, la ≠ t.pa / 64 → r.1.l1Line s.focus.core la = s.l1Line s.focus.core la) ∧
      ∀ c la, c ≠ s.focus.core → r.1.l1Line c la = s.l1Line c la) ∧
    (a.kind = .load → line.valid = true →
      r.2 = .ok (s.ownBytes s.focus.core s.focus.slot j t a (bits line.data.toNat (8 * (t.pa % 64)) (8 * a.bytes))) ∧ r.1 = s)

/-- R191. A line's dirty bytes move from the L1 to the L2, where they stay dirty, and from the L2 to the line's home; its other bytes
there stay. -/
def Obligations.WriteBackMovesDirtyBytes : Prop :=
  (∀ (s : State) (c la : Nat), (tagsOf (s.cluster (clusterOf c)).l2).contains (la / 4) = true →
    let k := clusterOf c
    let t := s.l1WriteBack c la
    (t.l1Line c la).mask = 0 ∧ t.dram = s.dram ∧
      ∀ i, i < 64 →
        (t.l2Line k la).mask.getLsbD i = ((s.l2Line k la).mask.getLsbD i || (s.l1Line c la).mask.getLsbD i) ∧
        (t.l2Line k la).byteAt i = if (s.l1Line c la).mask.getLsbD i then (s.l1Line c la).byteAt i else (s.l2Line k la).byteAt i) ∧
  ∀ (s : State) (k la h : Nat), s.route k (linePa la / 2 ^ 27) = .to h → s.physOf (linePa la / 2 ^ 27) = h →
    let t := s.l2WriteBack k la
    (t.l2Line k la).mask = 0 ∧
      (∀ i, i < 64 → (t.dram.read (dramKey h (linePa la) + i)).toNat =
        if (s.l2Line k la).mask.getLsbD i then (s.l2Line k la).byteAt i else (s.dram.read (dramKey h (linePa la) + i)).toNat) ∧
      ∀ x, x < dramKey h (linePa la) ∨ dramKey h (linePa la) + 64 ≤ x → t.dram.read x = s.dram.read x

/-- R402. A formatted load or store completes for a slot, layout and run that the rules allow where every executing lane's place is
aligned and mapped and can be reached now: its lanes' scales and elements are accessed, a load writes the widened elements to its run, a
store writes no register and, under stochastic rounding only, advances each executing lane's LFS. -/
def Obligations.FormattedAccessCompletes : Prop :=
  ∀ (f : Fields) (sp : OpSpec) (s : State), f.ctl.fmte = true →
    let sl := s.slotAt f f.ctl.sl.toNat
    let n := wideRegs f.ty sl.count
    let mode := if f.prm ≠ 0 then f.prm else f.ctl.rm.toNat
    let place (s : State) (j : Nat) := fmtPlace sl (s.sa sp f) (s.vb sp f j)
    let ready (want : Want) (acc : Access) : Prop := ∀ j, j < 64 → (s.execLanes f).getLsbD j = true →
      (∃ a, s.fmtAim f want sl (s.sa sp f) (s.vb sp f j) = .ok a) ∧
        ∀ q, place s j = .ok q → ∀ x ∈ fmtPieces sl q,
          let y : Access := { acc with va := x.1, bytes := x.2 }
          s.laneWaits f j y = false ∧ (f.scratch = true ∨
            (s.walkOpen s.focus.core (s.space s.me).1 (s.space s.me).2 x.1 = true ∧ s.accOpen (s.aim false want x.1 x.2 1) y = true))
    sl.convertible = true → (sl.blk = 0 ∨ sl.slay = true) → (mode = modeSR → sl.fmt.bits ≤ 8) → s.raceMode s.me = 0 →
    (opSpec (.ld f) = some sp → dstReg s.me f + n ≤ s.me.nregs → ready .read (s.fmtAccess f .load) →
      s.issues sp f [] ((List.range n).map (dstReg s.me f + ·)) [] [] = true →
      let o := s.operands sp f [] ((List.range n).map (dstReg s.me f + ·)) [] []
      let r := o.fmtRun sp f .read sl (s.fmtAccess f .load) (s.execLanes f) fun _ => []
      r.2.2 = [] → ∃ t, exec (.ld f) s = .next t ∧
        r.1.RunDone t f (dstReg s.me f) n (s.execLanes f) (s.zeroLanes f) fun k j =>
          let l := r.2.1.get [] j
          let nb := if sl.blk = 0 then 0 else sl.blocks
          let elems := joinPieces (cut8 17 (o.eaOf sp f j) (sl.count * sl.fmt.bits / 8)) (l.drop nb)
          packWide f.ty mode (sl.widen (fun b => l.getD b 0) elems) / 2 ^ (32 * k) % 2 ^ 32) ∧
    (opSpec (.st f) = some sp → f.c.regNat + n ≤ s.me.nregs → ready .write (s.fmtAccess f .store) →
      let reads := (List.range n).map (f.c.regNat + ·)
      s.issues sp f reads [] [] [] = true →
      let o := s.operands sp f reads [] [] []
      let res (j : Nat) := sl.narrow (fmtOfTy f.ty) mode (o.me.lfsOf j) (o.wideElems f.ty f.c.regNat sl.count j)
      let r := o.fmtRun sp f .write sl (s.fmtAccess f .store) (s.execLanes f) fun j =>
        (res j).2.1 ++ splitPieces (cut8 17 (o.eaOf sp f j) (sl.count * sl.fmt.bits / 8)) (packList sl.fmt.bits (res j).1)
      r.2.2 = [] → ∃ t, exec (.st f) s = .next t ∧ r.1.MovedOn t ∧ r.1.SameMemory t ∧ r.1.SameElsewhere t ∧
        (∀ n, (r.1.mine t).sreg n = r.1.me.sreg n ∧ (r.1.mine t).mreg n = r.1.me.mreg n) ∧
        (∀ q j, (r.1.mine t).vreg q j = r.1.me.vreg q j) ∧
        ∀ j, j < 64 → (r.1.mine t).lfsOf j =
          if mode = modeSR ∧ (s.execLanes f).getLsbD j = true then (res j).2.2 else r.1.me.lfsOf j)

/-- R177, R403, R404. `ldfe` completes where every executing lane's granule is full and nobody waits on the core: each lane takes its
word, the clearing form leaves the granules empty, the timeout form answers 1 in the high register. Plain `stfe` writes every
lane's word and leaves the granules full; its timeout form does where the granules are empty and answers 1. -/
def Obligations.FullEmptyResults : Prop :=
  ∀ (f : Fields) (sp : OpSpec) (s : State) (p : Nat → Nat) (ldfe : Bool), opSpec (if ldfe then .ldfe f else .stfe f) = some sp →
    let reads := if f.m58 && !(ldfe && f.nwb) then [dstReg s.me f] else []
    let acc : Access := { va := 2 ^ 64, bytes := 4, kind := if ldfe then .load else .store, rel := !ldfe, scope := 1 }
    s.issues sp f reads [] [] [] = true →
    let o := s.operands sp f reads [] [] []
    let ex := s.execLanes f
    (∀ j, j < 64 → ex.getLsbD j = true → s.aim true .read (s.eaOf sp f j) 4 4 = .ok (.spad (p j)) ∧
      o.aim true .read (o.eaOf sp f j) 4 4 = .ok (.spad (p j)) ∧ s.mustWait s.focus.core s.focus.slot j acc = false) →
    o.myCore.feWait = [] → (∀ g, (o.gang o.focus.core g).waits = []) → (∀ n, n < 4 → (o.myCore.wctl.get 0 n).getLsbD 0 = false) →
    o.myCore.lastIssue.get none (s.focus.slot % 4) = some s.focus.slot →
    (f.nwb = true → ∀ r ∈ reads, regOk s.me false f.dind r = true) →
    ((if ldfe then f.m57 else f.m58) = true → ∀ i j, i < 64 → j < 64 → ex.getLsbD i = true → ex.getLsbD j = true → i ≠ j → p i / 16 ≠ p j / 16) →
    let named (gr : Nat) : Prop := ∃ j, j < 64 ∧ ex.getLsbD j = true ∧ p j / 16 = gr
    (ldfe = true → (∀ gr, named gr → o.granFull o.focus.core gr = true) →
      ∃ t, exec (.ldfe f) s = .next t ∧ o.MovedOn t ∧ o.SameRegs t noReg noReg (vecDst o f f.m58) ∧ t.dram = o.dram ∧
        (t.core o.focus.core).spad = o.myCore.spad ∧
        o.VectorResult t f f.m58 ex (s.zeroLanes f) (fun j => o.spadRead o.focus.core (p j) 4 + if f.m58 then 2 ^ 32 else 0) ∧
        ∀ gr, (named gr → t.granFull o.focus.core gr = !f.m57) ∧ (¬ named gr → t.granFull o.focus.core gr = o.granFull o.focus.core gr)) ∧
    (ldfe = false → (f.m58 = true → ∀ gr, named gr → o.granFull o.focus.core gr = false) →
      ∃ t, exec (.stfe f) s = .next t ∧ o.MovedOn t ∧ o.SameRegs t noReg noReg (if f.m58 then vecDst o f false else noReg) ∧ t.dram = o.dram ∧
        (f.m58 = true → o.VectorResult t f false ex (s.zeroLanes f) fun _ => 1) ∧
        (∀ x, (t.core o.focus.core).spad.read x = afterStores (lanesOf ex) p 4 (fun j => o.vc sp f j) o.myCore.spad.read x) ∧
        ∀ gr, (named gr → t.granFull o.focus.core gr = true) ∧ (¬ named gr → t.granFull o.focus.core gr = o.granFull o.focus.core gr))

/-- R177, R403. A lane of `ldfe` whose granule is empty waits: the gang does not go on, nothing is written, and the waiter is queued
at its bank. -/
def Obligations.EmptyGranuleWaits : Prop :=
  ∀ (f : Fields) (sp : OpSpec) (s : State) (p j : Nat), opSpec (.ldfe f) = some sp → f.m58 = false → j < 64 → s.execLanes f = laneBit j →
    s.issuesPlain sp f = true →
    let o := s.plainOperands sp f
    s.aim true .read (s.eaOf sp f j) 4 4 = .ok (.spad p) → o.aim true .read (o.eaOf sp f j) 4 4 = .ok (.spad p) →
    s.mustWait s.focus.core s.focus.slot j { va := 2 ^ 64, bytes := 4, kind := .load, rel := false, scope := 1 } = false →
    (∀ g, (o.gang o.focus.core g).waits = []) → o.granFull o.focus.core (p / 16) = false →
    ∃ t w, exec (.ldfe f) s = .next t ∧ (o.mine t).waits = [w] ∧ w.pc = s.focus.pc ∧ w.lanes = s.focus.lanes ∧
      (∀ l, (o.mine t).lane l = o.me.lane l) ∧ (∀ r l, (o.mine t).vreg r l = o.me.vreg r l) ∧ t.dram = o.dram ∧
      ∃ x ∈ (t.core o.focus.core).feWait, x.slot = s.focus.slot ∧ x.lane = j ∧ x.granule = p / 16 ∧ x.fill = true ∧ x.bound = none

/-- R192, R408 to R410, R464. `rwb` leaves no dirty L1 line of its range, and the system form no dirty L2 line whose home answers;
`rinv` drops the unlocked lines of its range; `prf` changes no register and no scratchpad; `lkl` answers whether it could lock its
range and then holds every line of it; `ulkl` holds none of them any more. The gang goes on after each. -/
def Obligations.RangeInstructions : Prop :=
  (∀ (f : Fields) (sp : OpSpec) (s : State), opSpec (.rwb f) = some sp → s.issuesPlain sp f = true →
    rangeReady s sp f (2 ^ 30) true (if f.m57 then s.backLines (s.sa sp f) (s.sb sp f) else []) →
    let o := s.plainOperands sp f
    (∀ la, rangeLine o sp f la → o.lineReach la (o.orderOf f) = none) →
    ∃ t, exec (.rwb f) s = .next t ∧ o.MovedOn t ∧ o.SameRegs t noReg noReg noReg ∧
      ∀ la, rangeLine o sp f la → (t.l1Line o.focus.core la).mask = 0 ∧ (f.m57 = true → (t.l2Line o.myCluster la).mask = 0)) ∧
  (∀ (f : Fields) (sp : OpSpec) (s : State), opSpec (.rinv f) = some sp → s.issuesPlain sp f = true →
    rangeReady s sp f (2 ^ 30) false
      (if f.m57 then s.dirtyL2 (inLines (s.rangeLines (s.sa sp f) (s.sb sp f))) else []) →
    let o := s.plainOperands sp f
    (∀ la, rangeLine o sp f la → o.lineReach la (o.orderOf f) = none) →
    ∃ t, exec (.rinv f) s = .next t ∧ o.MovedOn t ∧ o.SameRegs t noReg noReg noReg ∧ (f.m57 = false → clean o → t.dram = o.dram) ∧
      ∀ la, rangeLine o sp f la → (t.l1Line o.focus.core la).valid = false ∧ (t.l1Line o.focus.core la).mask = 0 ∧
        (f.m57 = true → (t.l2Line o.myCluster la).valid = false ∧ (t.l2Line o.myCluster la).mask = 0)) ∧
  (∀ (f : Fields) (sp : OpSpec) (s : State), opSpec (.prf f) = some sp → s.issuesPlain sp f = true →
    let o := s.plainOperands sp f
    ∃ t, exec (.prf f) s = .next t ∧ o.MovedOn t ∧ o.SameRegs t noReg noReg noReg ∧ ∀ c, (t.core c).spad = (o.core c).spad) ∧
  (∀ (f : Fields) (sp : OpSpec) (s : State), opSpec (.lkl f) = some sp → s.issuesPlain sp f = true →
    rangeReady s sp f (if f.m57 then 2 ^ 20 else 2 ^ 16) false
      (s.lockMissing f (linesOf (s.rangeLines (s.sa sp f) (s.sb sp f)))) →
    let o := (s.plainOperands sp f).beginWalks (pageVas ((s.plainOperands sp f).sa sp f) ((s.plainOperands sp f).sb sp f))
    let want := linesOf (o.rangeLines (o.sa sp f) (o.sb sp f))
    let id := lockId o.focus.core o.focus.slot
    let fits := if f.m57 then lockFits (o.cluster o.myCluster).l2 id 2048 8 16384 want else lockFits o.myCore.l1 id 64 4 1024 want
    (∀ la ∈ want, o.lineReach la (o.orderOf f) = none) →
    ∃ t, exec (.lkl f) s = .next t ∧ o.MovedOn t ∧ o.SameRegs t (scalDst f) noReg noReg ∧ o.ScalarResult t f (if fits then 1 else 0) ∧
      (fits = true → ∀ la ∈ want,
        id ∈ (if f.m57 then t.l2Line o.myCluster la else t.l1Line o.focus.core la).lock ∧
        (if f.m57 then t.l2Line o.myCluster la else t.l1Line o.focus.core la).valid = true) ∧
      (fits = false → o.SameMemory t)) ∧
  ∀ (f : Fields) (sp : OpSpec) (s : State), opSpec (.ulkl f) = some sp → s.issuesPlain sp f = true →
    rangeReady s sp f (if f.m57 then 2 ^ 20 else 2 ^ 16) true
      (if f.m57 then s.heldDirty (s.rangeLines (s.sa sp f) (s.sb sp f)) else []) →
    let o := s.plainOperands sp f
    (∀ la, rangeLine o sp f la → o.lineReach la (o.orderOf f) = none) →
    ∃ t, exec (.ulkl f) s = .next t ∧ o.MovedOn t ∧ o.SameRegs t noReg noReg noReg ∧
      ∀ la, rangeLine o sp f la →
        lockId o.focus.core o.focus.slot ∉ (if f.m57 then t.l2Line o.myCluster la else t.l1Line o.focus.core la).lock

/-- R45, R208, R407, R416. `fence` completes and changes no register and no memory: an acquire once the loads before it are performed, a full
fence once every earlier access is, a release at once, which orders them before the lanes' later writes. `stbw` sends one message of its
lanes' words, or the packet that takes it to its transmitter, and leaves one access per executing lane waiting for it. -/
def Obligations.FenceAndBroadcastStore : Prop :=
  (∀ (f : Fields) (sp : OpSpec) (s : State), opSpec (.fence f) = some sp → s.issuesPlain sp f = true →
    (f.fenceKind = 1 → s.owes (s.execLanes f) (·.kind.returns) = false) →
    (f.fenceKind ≠ 1 → f.fenceKind ≠ 2 → s.releaseWaits (s.execLanes f) f.fenceScope = false) →
    let o := s.plainOperands sp f
    ∃ t, exec (.fence f) s = .next t ∧ o.MovedOn t ∧ o.SameMemory t ∧ o.SameElsewhere t ∧
      (f.fenceKind ≠ 2 → o.WritesOnly t noReg noReg noReg) ∧
      (∀ n, (o.mine t).sreg n = o.me.sreg n ∧ (o.mine t).mreg n = o.me.mreg n) ∧ (∀ r j, (o.mine t).vreg r j = o.me.vreg r j) ∧
      (f.fenceKind = 2 → ∀ j, j < 64 → (o.mine t).fences.get (0, 0) j =
        if (s.execLanes f).getLsbD j then (o.nextId, max f.fenceScope (o.me.fences.get (0, 0) j).2) else o.me.fences.get (0, 0) j)) ∧
  ∀ (f : Fields) (sp : OpSpec) (s : State) (q : Trans), opSpec (.stbw f) = some sp →
    let size := 16 * 2 ^ f.fn.toNat
    let n := (size / 4 + s.me.gw - 1) / s.me.gw
    let reads := (List.range n).map (f.c.regNat + ·)
    f.c.regNat + n ≤ s.me.nregs → s.issues sp f reads [] [] [] = true →
    let o := s.operands sp f reads [] [] []
    s.aim false .window (s.eaUni sp f) size size = .ok (.glob q) → o.aim false .window (o.eaUni sp f) size size = .ok (.glob q) →
    pagesOpen s (fun _ => s.eaUni sp f) (s.execLanes f) → s.busQueued (busOf q.pa) s.myCluster < 64 →
    s.groupWaits (s.execLanes f) (fun x => x.acq || s.windowMeets x (s.eaUni sp f) size) f.rel f.ctl.sc.toNat = false →
    let b := o.beginWalks [o.eaUni sp f]
    let near := !o.focus.fly && b.storeNear o.focus.core (busOf q.pa)
    ∃ t data, exec (.stbw f) s = .next t ∧ o.MovedOn t ∧ o.SameRegs t noReg noReg noReg ∧ b.SameMemory t ∧ data.length = size ∧
      (∀ x, x < size → data[x]? = some (BitVec.ofNat 8
        ((if o.me.liveLanes.getLsbD (x / 4 % o.me.gw) then
            o.vval o.focus.core o.me (f.c.regNat + x / 4 / o.me.gw) (x / 4 % o.me.gw) else 0) / 256 ^ (x % 4)))) ∧
      (near = true → t.packets = b.packets ∧ ∃ m, t.msgs = b.msgs ++ [m] ∧ m.bus = q.pa / 256 % 16 ∧ m.writer = o.myCluster ∧
        m.body = .store q.pa data ∧ m.frames = 1 + size / 16 ∧ m.ltag = o.me.seat.ltag) ∧
      (near = false → t.msgs = b.msgs ∧ ∃ x, t.packets = b.packets ++ [x] ∧ x.src = o.focus.core ∧ x.dst = transmitter o.myCluster ∧
        x.body = .store q.pa data o.me.seat.ltag) ∧
      t.pends.length = o.pends.length + (lanesOf (s.execLanes f)).length

/-- R411 to R414. `barinit` gives its object a count of 0, a phase of 0 and the given expected arrivals; `bararr` adds its arrivals and
answers the phase, the last of them completing it; `barwait` answers 0 once its phase has passed and waits until then. Each completes
wherever its object can be reached and, for `bararr`, is whole and has room; of memory and registers nothing but the object and sD
changes. -/
def Obligations.BarrierResults : Prop :=
  (∀ (f : Fields) (sp : OpSpec) (s : State) (b : BarAt), opSpec (.barinit f) = some sp → s.issuesPlain sp f = true →
    barReady s sp f b .store → s.releaseWaits (s.execLanes f) f.ctl.sc.toNat = false →
    let p := s.plainOperands sp f
    let o := p.barBegin sp f
    p.barAt sp f = .ok b → o.barReach b true (o.orderOf f) = none → 0 < o.sc sp f → o.sc sp f < 2 ^ 24 →
    ∃ t, exec (.barinit f) s = .next t ∧ o.MovedOn t ∧ o.SameRegs t noReg noReg noReg ∧
      barValue t b = o.sc sp f * 2 ^ 72 + f.ctl.sc.toNat * 16 ∧
      ∀ h, clean o → (b.spad = true ∨ o.physOf (b.addr / 2 ^ 27) = h) → onlyObject o t b h) ∧
  (∀ (f : Fields) (sp : OpSpec) (s : State) (b : BarAt), opSpec (.bararr f) = some sp → s.issuesPlain sp f = true →
    barReady s sp f b .cas → s.releaseWaits (s.execLanes f) (barScope (barValue s b)) = false →
    let p := s.plainOperands sp f
    let o := p.barBegin sp f
    let v := barValue o b
    let n := o.sc sp f
    p.barAt sp f = .ok b → o.barReach b true (o.orderOf f) = none → barBad v = false → 0 < n → barCount v + n ≤ barExpect v →
    let ends := barCount v + n = barExpect v
    ∃ t, exec (.bararr f) s = .next t ∧ o.MovedOn t ∧ o.SameRegs t (scalDst f) noReg noReg ∧
      o.ScalarResult t f (BitVec.ofNat 64 ((if ends then 16 else 0) + barPhase v)) ∧
      barValue t b = (if ends then barWith v 0 ((barPhase v + 1) % 16) else barWith v (barCount v + n) (barPhase v)) ∧
      ∀ h, clean o → (b.spad = true ∨ o.physOf (b.addr / 2 ^ 27) = h) → onlyObject o t b h) ∧
  ∀ (f : Fields) (sp : OpSpec) (s : State) (b : BarAt), opSpec (.barwait f) = some sp → s.issuesPlain sp f = true →
    barReady s sp f b .load →
    let r := s.plainOperands sp f
    let o := r.barBegin sp f
    let u := (o.barEnter b).barLook o.focus.core b.entry
    let v := barValue u b
    let p := o.sc sp f % 16
    r.barAt sp f = .ok b → o.barReach b false (o.orderOf f) = none → barBad v = false →
    ((∃ d, 1 ≤ d ∧ d ≤ 8 ∧ barPhase v = (p + d) % 16) →
      ∃ t, exec (.barwait f) s = .next t ∧ o.MovedOn t ∧ o.SameRegs t (scalDst f) noReg noReg ∧ o.ScalarResult t f 0 ∧ u.SameMemory t) ∧
    ((∀ d, 1 ≤ d → d ≤ 8 → barPhase v ≠ (p + d) % 16) →
      ∃ t w, exec (.barwait f) s = .next t ∧ (o.mine t).waits = w :: o.me.waits ∧ w.bar = some (b.spad, b.core, b.addr, p) ∧
        (w.bound = if o.sc sp f / 16 = 0 then none else some (o.sc sp f / 16)) ∧ (∀ j, (o.mine t).lane j = o.me.lane j) ∧ u.SameMemory t)

/-- R228, R236 to R239, R241, R421, R422. A matrix operation whose slots, depth, run, tiles and deck offsets are legal appends its entry
to its context and leaves one octet operation waiting for the array for each octet with an executing lane. -/
def Obligations.MatrixOperationsIssue : Prop :=
  ∀ (i : Instr) (f : Fields) (mode : Nat) (sp : OpSpec) (s : State),
    (i = .mma f ∧ mode = 0) ∨ (i = .mhad f ∧ mode = 1) ∨ (i = .mpass f ∧ mode = 2) → opSpec i = some sp →
    let n := f.ctl.sc.toNat
    let k := s.sc sp f
    let ex := s.execLanes f
    let run := matRun s sp f
    let tile := f.ctl.xmod.toNat % 32
    matFormats mode (matA s f) (matB s f) = true → matDepth mode (matA s f) (matB s f) k = true →
    f.a.regNat + run.length ≤ s.me.nregs → (matA s f).startOk f.a.regNat = true → tile + matTiles s sp f mode ≤ s.me.seat.amt →
    (mode ≠ 1 → ∀ q d, q < 8 → matOff s sp f mode ex q = some d →
      d < 2 ^ 18 ∧ d % 16 = 0 ∧ d + (matB s f).imageBytes k ≤ 2 ^ 18) →
    s.issues sp f run [] [] run = true → chainReady s n →
    let o := s.operands sp f run [] [] run
    chainReady o n → o.chainReach n = none →
    ∃ t e m, exec i s = .next t ∧ o.MovedOn t ∧ o.ScalarResult t f ((o.me.ctx n).tliss + 1) ∧
      ((o.mine t).ctx n).tliss = (o.me.ctx n).tliss + 1 ∧ ((o.mine t).ctx n).mats = (o.me.ctx n).mats ++ [m] ∧
      m.bits.toNat = e ∧ m.seq = (o.me.ctx n).tliss + 1 ∧ m.areg = f.a.regNat ∧ m.regs = run.length ∧ m.tile = tile ∧
      m.tiles = matTiles s sp f mode ∧ m.left = (List.range 8).filter (fun q => (octLane ex q).isSome) ∧
      bits e 128 4 = 2 + mode ∧ entMode e = mode ∧ entSlot e = f.ctl.sl.toNat ∧ entK e = k ∧ entTile e = tile ∧
      bits e 181 6 = f.ctl.xmod.toNat / 32 % 64 ∧ entLanes e = ex ∧ entAreg e = f.a.regNat ∧
      (∀ q, q < 8 → (bits e (272 + 24 * q + 23) 1 = 1 ↔ (octLane ex q).isSome) ∧ entDoff e q = (matOff o sp f mode ex q).getD 0 % 2 ^ 23) ∧
      (t.core o.focus.core).octQ.length = o.myCore.octQ.length + m.left.length ∧
      (∀ r, ¬ scalDst f r → (o.mine t).sreg r = o.me.sreg r) ∧ (∀ r, (o.mine t).mreg r = o.me.mreg r) ∧
      ∀ r j, (o.mine t).vreg r j = o.me.vreg r j

/-- R178, R424, R425. The tile moves complete for a tile and a place inside it: `amld` and `amtr` write the words of their rows or
columns to their run, `amst` writes its run's words and `amclr` zeros to the tile, once no outstanding matrix entry of the gang
writes it; no other word of AM, no other register and no other memory differs. -/
def Obligations.TileMoves : Prop :=
  (∀ (i : Instr) (f : Fields) (tr : Bool) (sp : OpSpec) (s : State), (i = .amld f ∧ tr = false) ∨ (i = .amtr f ∧ tr = true) →
    opSpec i = some sp →
    let d := dstReg s.me f
    let high := if tr then 32 else 64
    let p := s.sb sp f
    d + 8 ≤ s.me.nregs → s.issues sp f [] ((List.range 8).map (d + ·)) [] [] = true → s.sa sp f < s.me.seat.amt → p < 256 →
    (∀ j, j < 64 → (s.execLanes f).getLsbD j = true → p % high + j < high) →
    let o := s.operands sp f [] ((List.range 8).map (d + ·)) [] []
    o.sa sp f = s.sa sp f → o.sb sp f = p →
    ∃ t, exec i s = .next t ∧ o.RunDone t f d 8 (s.execLanes f) (s.zeroLanes f) fun k j =>
      (o.amRead o.focus.core o.me (s.sa sp f) (if tr then 8 * (p / 32) + k else p % 64 + j) (if tr then p % 32 + j else 8 * (p / 64) + k)).toNat) ∧
  (∀ (f : Fields) (sp : OpSpec) (s : State), opSpec (.amst f) = some sp →
    let c := f.c.regNat
    let p := s.sb sp f
    c + 8 ≤ s.me.nregs → s.issues sp f ((List.range 8).map (c + ·)) [] [] [] = true → s.sa sp f < s.me.seat.amt → p < 256 →
    (∀ j, j < 64 → (s.execLanes f).getLsbD j = true → p % 64 + j < 64) → s.me.tileBusy (s.sa sp f) = false →
    let o := s.operands sp f ((List.range 8).map (c + ·)) [] [] []
    o.sa sp f = s.sa sp f → o.sb sp f = p →
    ∃ t, exec (.amst f) s = .next t ∧ o.MovedOn t ∧ o.SameRegs t noReg noReg noReg ∧ sameButAm o t ∧
      (∀ j k, j < 64 → k < 8 → (s.execLanes f).getLsbD j = true →
        (t.amRead o.focus.core o.me (s.sa sp f) (p % 64 + j) (8 * (p / 64) + k)).toNat = o.vval o.focus.core o.me (c + k) j % 2 ^ 32) ∧
      amElsewhere o t fun x => ∃ j k, j < 64 ∧ k < 8 ∧ (s.execLanes f).getLsbD j = true ∧
        x = amKey o.me (s.sa sp f) (p % 64 + j) (8 * (p / 64) + k)) ∧
  ∀ (f : Fields) (sp : OpSpec) (s : State), opSpec (.amclr f) = some sp → s.issuesPlain sp f = true → s.sa sp f < s.me.seat.amt →
    s.me.tileBusy (s.sa sp f) = false →
    let o := s.plainOperands sp f
    o.sa sp f = s.sa sp f →
    ∃ t, exec (.amclr f) s = .next t ∧ o.MovedOn t ∧ o.SameRegs t noReg noReg noReg ∧ sameButAm o t ∧
      (∀ r x, r < 64 → x < 32 → t.amRead o.focus.core o.me (s.sa sp f) r x = 0) ∧
      amElsewhere o t fun x => x / 2048 = o.me.seat.tile (s.sa sp f)

/-- R427 to R431. `wdecl` declares a legal window empty with LEN = WMAX; `wpush` pushes each lane group's contribution, `wq` answers the
query of each executing lane's group, `wrst` empties a declared window, and `wlen` sets LEN and expires the oldest contributions;
no other window changes. -/
def Obligations.WindowInstructions : Prop :=
  (∀ (f : Fields) (sp : OpSpec) (s : State) (k gw : Nat) (w : Win), opSpec (.wdecl f) = some sp → s.issuesPlain sp f = true →
    names s sp f k w gw → s.owes (s.execLanes f) (·.acq) = false →
    let o := s.plainOperands sp f
    names o sp f k w gw → winOk s.me.gw (f.b.immNat % 32) (f.b.immNat / 32) (s.sc sp f) = true → o.sc sp f = s.sc sp f →
    ∃ t, exec (.wdecl f) s = .next t ∧ WindowSet o t f k
      { wdesc := BitVec.ofNat 64 (2 ^ 31 + s.sc sp f * 2 ^ 13 + f.b.immNat / 32 * 2 ^ 10 + f.b.immNat % 32 * 2 ^ 5)
        wlen := BitVec.ofNat 64 (s.sc sp f) }) ∧
  (∀ (f : Fields) (sp : OpSpec) (s : State) (k gw : Nat) (w : Win), opSpec (.wpush f) = some sp → s.issuesPlain sp f = true →
    names s sp f k w gw → w.en = true → (f.m57 = true → s.releaseWaits (s.execLanes f) 1 = false) →
    s.owes (s.execLanes f) (·.acq) = false →
    let o := s.plainOperands sp f
    names o sp f k w gw →
    ∃ t u, exec (.wpush f) s = .next t ∧ WindowSet o t f k u ∧ u.wdesc = w.wdesc ∧ u.wlen = w.wlen ∧
      ∀ q, q < gw / 2 ^ w.glog → u.group q = match contribution o sp f w (s.execLanes f) q with
        | some x => (w.group q).push w.opc w.len x
        | none => w.group q) ∧
  (∀ (f : Fields) (sp : OpSpec) (s : State) (k gw : Nat) (w : Win), opSpec (.wq f) = some sp →
    let d := dstReg s.me f
    let pair := winIsIdx w.opc
    s.issues sp f [] (if pair && !f.nwb then [d + 1] else []) [] [] = true → names s sp f k w gw → w.en = true →
    (pair = true → f.nwb = false → d % 2 = 0 ∧ d + 1 < s.me.nregs) → s.owes (s.execLanes f) (·.acq) = false →
    let o := s.operands sp f [] (if pair && !f.nwb then [d + 1] else []) [] []
    names o sp f k w gw →
    ∃ t, exec (.wq f) s = .next t ∧ o.VectorDone t f pair (s.execLanes f) (s.zeroLanes f) fun j =>
      ((w.group (j / 2 ^ w.glog)).query w.opc).toNat) ∧
  (∀ (f : Fields) (sp : OpSpec) (s : State) (k gw : Nat) (w : Win), opSpec (.wrst f) = some sp → s.issuesPlain sp f = true →
    names s sp f k w gw → s.owes (s.execLanes f) (·.acq) = false →
    let o := s.plainOperands sp f
    names o sp f k w gw →
    ∃ t, exec (.wrst f) s = .next t ∧
      WindowSet o t f k (if w.en then { w with wlen := BitVec.ofNat 64 w.wmax, groups := [] } else w)) ∧
  ∀ (f : Fields) (sp : OpSpec) (s : State) (k gw : Nat) (w : Win), opSpec (.wlen f) = some sp → s.issuesPlain sp f = true →
    names s sp f k w gw → w.en = true → 1 ≤ s.sb sp f → s.sb sp f ≤ w.wmax → s.owes (s.execLanes f) (·.acq) = false →
    let o := s.plainOperands sp f
    names o sp f k w gw → o.sb sp f = s.sb sp f →
    ∃ t u, exec (.wlen f) s = .next t ∧ WindowSet o t f k u ∧ u.wdesc = w.wdesc ∧ u.wlen = BitVec.ofNat 64 (s.sb sp f) ∧
      ∀ q, u.group q = (w.group q).shrink w.opc (s.sb sp f) 1024

/-- R251 to R253. The stacks of a lane group stand for its contributions in order: an expiry drops the oldest, a push into a full window
drops the oldest and adds the newest, a shorter LEN keeps the newest, and a query combines the right-nested aggregate of the older
part with the left fold of the newer part. -/
def Obligations.WindowStacks : Prop :=
  ∀ (op : Nat) (g : WinGroup) (old new : List DWord), Stacks op g old new →
    g.query op = (if old = [] then (if new = [] then winIdentity op else leftFold op new)
      else if new = [] then rightFold op old else winCombine op (rightFold op old) (leftFold op new)) ∧
    (∃ a b, Stacks op (g.expire op) a b ∧ a ++ b = (old ++ new).drop 1) ∧
    (∀ len x, 0 < len → (old ++ new).length ≤ len →
      ∃ a b, Stacks op (g.push op len x) a b ∧ (g.push op len x).next = g.next + 1 ∧
        a ++ b = (if (old ++ new).length = len then (old ++ new).drop 1 else old ++ new) ++ [x]) ∧
    ∀ len, (old ++ new).length ≤ 1024 →
      ∃ a b, Stacks op (g.shrink op len 1024) a b ∧ a ++ b = (old ++ new).drop ((old ++ new).length - len)

/-- R257, R258. A declared window whose lane groups are legal reads back from its image as it was. -/
def Obligations.WindowImageRoundTrip : Prop :=
  ∀ (gw : Nat) (w : Win), winOk gw w.opc w.glog w.wmax = true → w.wdesc = mkDesc w.opc w.glog w.wmax →
    w.wlen = BitVec.ofNat 64 w.len → 1 ≤ w.len → w.len ≤ w.wmax → (∀ k, imageable w (w.group k)) →
    ∃ u, readWindow gw (w.image gw) = some u ∧ u.wdesc = w.wdesc ∧ u.wlen = w.wlen ∧ ∀ k, k < gw / 2 ^ w.glog → u.group k = w.group k

/-- R255 to R258, R432. `wsave` writes the window's image by the stores of the lowest executing lane and `wload` takes the window of the
image its loads find; each completes where its pages are mapped and its image is legal. -/
def Obligations.WindowSaveAndLoad : Prop :=
  (∀ (f : Fields) (sp : OpSpec) (s : State) (k gw : Nat) (w : Win), opSpec (.wsave f) = some sp → s.issuesPlain sp f = true →
    names s sp f k w gw → w.en = true →
    let b := s.sb sp f
    let n := w.imageBytes gw
    b % 16 = 0 → s.imageFault b n .write = none → s.raceMode s.me = 0 → s.owes (s.execLanes f) (·.acq) = false →
    s.imageWaits b n .store (s.execLanes f) = false → s.walkHold (pageVas b n) = none →
    let o := s.plainOperands sp f
    names o sp f k w gw → o.sb sp f = b →
    let j := lowLane (s.execLanes f)
    ∀ l, ((o.beginWalks (pageVas b n)).fmtLane f .write j (imageAccess .store o.noWatch (0, 1, 0)) (imagePieces b n (w.image gw))).2 = .ok l →
    ∃ t, exec (.wsave f) s = .next t ∧
      let u := ((o.beginWalks (pageVas b n)).fmtLane f .write j (imageAccess .store o.noWatch (0, 1, 0)) (imagePieces b n (w.image gw))).1
      u.MovedOn t ∧ u.WritesOnly t noReg noReg noReg) ∧
  ∀ (f : Fields) (sp : OpSpec) (s : State) (k gw : Nat) (w x : Win), opSpec (.wload f) = some sp → s.issuesPlain sp f = true →
    names s sp f k w gw →
    let b := s.sb sp f
    let n := s.imageSize gw b
    b % 16 = 0 → s.imageFault b n .read = none → s.raceMode s.me = 0 → (readWindow gw (s.imagePeek b n)).isSome = true →
    s.owes (s.execLanes f) (·.acq) = false → s.imageWaits b n .load (s.execLanes f) = false → s.walkHold (pageVas b n) = none →
    let o := s.plainOperands sp f
    names o sp f k w gw → o.sb sp f = b → o.imageSize gw b = n →
    let j := lowLane (s.execLanes f)
    let r := (o.beginWalks (pageVas b n)).fmtLane f .read j (imageAccess .load o.noWatch (0, 1, 0)) (imagePieces b n 0)
    ∀ l, r.2 = .ok l → readWindow gw (joinPieces ((imagePieces b n 0).map fun p => (p.1, p.2.1)) l) = some x →
    ∃ t, exec (.wload f) s = .next t ∧ (t.gang o.focus.core k).win f.a.immNat = x ∧ r.1.MovedOn t ∧
      ∀ n, (r.1.mine t).sreg n = r.1.me.sreg n ∧ (r.1.mine t).mreg n = r.1.me.mreg n

/-- R260 to R268, R433 to R435. `rtag` enters its body and writes the tagged register with the body's values; `rdrop` drops a tagged
register that no recipe sources; `rmat` and `rclr` leave the values that a read of the register gave, `rclr` with its entry no longer
active. No other recipe changes. -/
def Obligations.RecipeInstructions : Prop :=
  (∀ (f : Fields) (sp : OpSpec) (s : State) (x : Recipe) (read : List DWord) (vals : List (Nat × Nat)), opSpec (.rtag f) = some sp →
    s.tagCheck f (s.execLanes f) = .ok x read vals → s.issues sp f x.vecOps [] [] [] = true →
    let o := s.operands sp f x.vecOps [] [] []
    let n := f.a.immNat
    ∃ t l, exec (.rtag f) s = .next t ∧ o.MovedOn t ∧ (∀ c, (t.core c).spad = (o.core c).spad) ∧ (clean o → t.dram = o.dram) ∧
      s.fetchBody s.focus.core s.me (2 ^ 62) f.c.immNat (branchTarget s f f.b) = .ok l read ∧
      (o.mine t).recipe n = { bcopy := mkCopy l, body := branchTarget s f f.b, act := true, drop := false
                              nm1 := BitVec.ofNat 2 (f.c.immNat - 1), treg := BitVec.ofNat 11 (dstReg s.me f) } ∧
      (∀ m, m ≠ n → (o.mine t).recipe m = o.me.recipe m) ∧
      (∀ j, j < 64 → (s.execLanes f).getLsbD j = true → ∃ v,
        s.runBody s.focus.core s.me n j (fun q => s.readV s.focus.core s.me 32 q j) l [] 0 = .ok v ∧
        (o.mine t).vreg (dstReg s.me f) j = BitVec.ofNat 32 v) ∧
      (∀ j, j < 64 → (s.execLanes f).getLsbD j = false → (o.mine t).vreg (dstReg s.me f) j = o.me.vreg (dstReg s.me f) j) ∧
      ∀ r j, j < 64 → r ≠ dstReg s.me f → (o.mine t).vreg r j = o.me.vreg r j) ∧
  (∀ (f : Fields) (sp : OpSpec) (s : State) (r n : Nat), opSpec (.rdrop f) = some sp → s.issuesPlain sp f = true →
    srcReg s.me f.ka f.a = some r → s.me.tagOf r = some n →
    (∀ k, k < 32 → (s.me.recipe k).act = true → r ∉ (s.me.recipe k).vecOps) → s.me.matrixHolds [r] = false → s.landing [r] = false →
    let o := s.plainOperands sp f
    ∃ t, exec (.rdrop f) s = .next t ∧ o.MovedOn t ∧ o.SameMemory t ∧ (o.mine t).recipe n = { s.me.recipe n with drop := true } ∧
      (∀ m, m ≠ n → (o.mine t).recipe m = s.me.recipe m) ∧ (∀ q j, j < 64 → q ≠ r → (o.mine t).vreg q j = s.me.vreg q j) ∧
      ∀ q, (o.mine t).sreg q = s.me.sreg q ∧ (o.mine t).mreg q = s.me.mreg q) ∧
  (∀ (f : Fields) (sp : OpSpec) (s : State) (r n : Nat), opSpec (.rmat f) = some sp → srcReg s.me f.ka f.a = some r → s.me.tagOf r = some n →
    s.issues sp f (if (s.me.droppedAs r).isSome then [r] else []) [] [] [r] = true →
    let o := s.operands sp f (if (s.me.droppedAs r).isSome then [r] else []) [] [] [r]
    ∃ t, exec (.rmat f) s = .next t ∧ o.MovedOn t ∧ o.SameMemory t ∧ (o.mine t).recipe n = { s.me.recipe n with drop := false } ∧
      (∀ m, m ≠ n → (o.mine t).recipe m = s.me.recipe m) ∧
      (∀ j, j < 64 → s.me.liveLanes.getLsbD j = true → ((o.mine t).vreg r j).toNat = s.vval s.focus.core s.me r j) ∧
      ∀ q j, j < 64 → q ≠ r → (o.mine t).vreg q j = s.me.vreg q j) ∧
  ∀ (f : Fields) (sp : OpSpec) (s : State), opSpec (.rclr f) = some sp →
    let n := f.a.immNat
    let e := s.me.recipe n
    let r := e.treg.toNat
    s.issues sp f (if e.act && e.drop then [r] else []) [] [] (if e.act then [r] else []) = true →
    let o := s.operands sp f (if e.act && e.drop then [r] else []) [] [] (if e.act then [r] else [])
    ∃ t, exec (.rclr f) s = .next t ∧ o.MovedOn t ∧ o.SameMemory t ∧ ((o.mine t).recipe n).act = false ∧
      (e.act = true → s.me.tagOf r = some n → ∀ j, j < 64 → s.me.liveLanes.getLsbD j = true →
        ((o.mine t).vreg r j).toNat = s.vval s.focus.core s.me r j) ∧
      (∀ m, m ≠ n → s.me.tagOf r = some n → (o.mine t).recipe m = s.me.recipe m) ∧
      ∀ q j, j < 64 → q ≠ r → (o.mine t).vreg q j = s.me.vreg q j

/-- R228, R233, R242, R243, R438 to R441. `cp`, the collectives and `eput` append one entry to their context with their operands in its
fields, and answer its number. -/
def Obligations.EngineInstructionsIssue : Prop :=
  (∀ (f : Fields) (sp : OpSpec) (s : State), opSpec (.cp f) = some sp → s.issuesPlain sp f = true →
    let c := f.ctl
    let n := c.sc.toNat
    let sl := s.slotN s.me c.sl.toNat
    let scaled := c.conv ≠ 0 ∧ sl.splits = true
    (scaled → ∃ r, f.b = .reg r ∧ r.toNat ≤ 62) → ¬ (c.rm = 5 ∧ c.conv = 2 ∧ 8 < sl.fmt.bits) → chainReady s n →
    let o := s.plainOperands sp f
    chainReady o n → o.chainReach n = none → o.slotN o.me c.sl.toNat = sl →
    ∃ t e, exec (.cp f) s = .next t ∧ Appended o t f n 1 e ∧ cpSsp e = c.ssp ∧ cpDsp e = c.dsp ∧ cpConv e = c.conv ∧ cpWide e = c.wide ∧
      cpSlot e = c.sl.toNat ∧ cpRm e = c.rm.toNat ∧ cpSrc e = (o.me.sreg (f.a.regNat + 1)).toNat ∧ cpDst e = o.sa sp f ∧
      cpDesc e = (o.sb sp f + o.sc sp f) % 2 ^ 64 ∧
      (scaled → c.conv = 1 → cpSscl e = (o.me.sreg (f.b.regNat + 1)).toNat ∧ cpDscl e = 0) ∧
      (scaled → c.conv = 2 → cpDscl e = (o.me.sreg (f.b.regNat + 1)).toNat ∧ cpSscl e = 0) ∧ (¬ scaled → cpSscl e = 0 ∧ cpDscl e = 0)) ∧
  (∀ (i : Instr) (f : Fields) (kind : Nat) (sp : OpSpec) (s : State),
    (i = .bcast f ∧ kind = 5) ∨ (i = .bcred f ∧ kind = 6) ∨ (i = .bcall f ∧ kind = 7) → opSpec i = some sp → s.issuesPlain sp f = true →
    chainReady s 6 →
    let o := s.plainOperands sp f
    let x := f.x.toNat
    chainReady o 6 → o.chainReach 6 = none →
    ∃ t e, exec i s = .next t ∧ Appended o t f 6 kind e ∧ coFn e = f.ctl.fnc ∧ bits e 168 2 = f.ctl.ssp ∧ bits e 170 2 = f.ctl.dsp ∧
      cpSrc e = (o.me.sreg (f.a.regNat + 1)).toNat ∧ cpDst e = o.sa sp f ∧ coCount e = o.sb sp f % 2 ^ 32 ∧
      bits e 352 8 = bits x 16 8 ∧ bits e 360 8 = bits x 8 8 ∧ coRoot e = bits x 0 8) ∧
  ∀ (f : Fields) (sp : OpSpec) (s : State), opSpec (.eput f) = some sp → s.issuesPlain sp f = true → chainReady s 7 →
    let o := s.plainOperands sp f
    chainReady o 7 → o.chainReach 7 = none →
    ∃ t e, exec (.eput f) s = .next t ∧ Appended o t f 7 8 e ∧ cpSrc e = o.sa sp f ∧ cpDst e = (o.sb sp f + o.sc sp f) % 2 ^ 64

/-- R212, R231, R443. A timeline wait completes and changes nothing once its context has completed the number of entries it names
(`.ge`), or has fewer outstanding than it names (`.lt`); while it has not, and has not faulted, its group waits and its lanes stay where
they are. -/
def Obligations.TimelineWaits : Prop :=
  (∀ (f : Fields) (sp : OpSpec) (s : State), opSpec (.tlwaitGe f) = some sp → s.issuesPlain sp f = true →
    let n := f.ctl.sc.toNat
    let x := s.me.ctx n
    let v := waitFor s sp f
    let o := s.plainOperands sp f
    waitFor o sp f = v → v ≤ x.tliss.toNat →
    (v ≤ x.tlcnt.toNat → ∃ t, exec (.tlwaitGe f) s = .next t ∧ o.MovedOn t ∧ o.WritesOnly t noReg noReg noReg) ∧
    (x.tlcnt.toNat < v → x.stopped = false → ∃ t w, exec (.tlwaitGe f) s = .next t ∧ (o.mine t).waits = w :: o.me.waits ∧
      w.tl = some (n, v, true) ∧ w.pc = s.focus.pc ∧ w.lanes = s.focus.lanes ∧ (∀ j, (o.mine t).lane j = o.me.lane j) ∧ o.SameMemory t)) ∧
  ∀ (f : Fields) (sp : OpSpec) (s : State), opSpec (.tlwaitLt f) = some sp → s.issuesPlain sp f = true →
    let n := f.ctl.sc.toNat
    let x := s.me.ctx n
    let v := waitFor s sp f
    let o := s.plainOperands sp f
    waitFor o sp f = v → v ≠ 0 →
    ((x.tliss - x.tlcnt).toNat < v → ∃ t, exec (.tlwaitLt f) s = .next t ∧ o.MovedOn t ∧ o.WritesOnly t noReg noReg noReg) ∧
    (v ≤ (x.tliss - x.tlcnt).toNat → x.stopped = false → ∃ t w, exec (.tlwaitLt f) s = .next t ∧ (o.mine t).waits = w :: o.me.waits ∧
      w.tl = some (n, v, false) ∧ w.pc = s.focus.pc ∧ w.lanes = s.focus.lanes ∧ (∀ j, (o.mine t).lane j = o.me.lane j) ∧ o.SameMemory t)

/-- R104, R105, R108, R445 to R448. `mkrec` stores a record of its fields, `spawn` and `spawnOne` queue their children, `post` sends the
record it reads with the gang's LTAG and a legal OCTS, and `join` decrements a JOIN and posts the record when it reaches 0. -/
def Obligations.RecordInstructions : Prop :=
  (∀ (f : Fields) (sp : OpSpec) (s : State), opSpec (.mkrec f) = some sp → s.issuesPlain sp f = true →
    let l := s.launch s.me.seat.ltag.toNat
    let base := (s.me.sreg f.a.regNat).toNat
    let r := s.newRecord sp f
    let stores := recStores base r
    base % 32 = 0 → (branchTarget s f f.b).toNat % 32 = 0 → s.storeCauses stores (s.execLanes f) = [] → s.storeWaits stores (s.execLanes f) = false →
    s.walkHold [base] = none →
    let o := s.plainOperands sp f
    o.newRecord sp f = r →
    RecordIs r (branchTarget s f f.b) (s.me.sreg (f.a.regNat + 1)) (s.me.sreg (f.a.regNat + 2)) (min (s.sc sp f) 65535)
      (s.focus.core % 2 ^ 14) (f.ctl.sc.toNat % 4) (l.octs % 2 ^ 9) s.me.seat.ltag ∧
    let w := o.laneStores (.mkrec f) sp f stores (s.execLanes f)
    (w.2 = [] → ∃ t, exec (.mkrec f) s = .next t ∧ w.1.MovedOn t ∧ w.1.WritesOnly t noReg noReg noReg) ∧
    ∀ (q : Trans) (h : Nat) (e : TlbEntry), o.focus.fly = false → calm o →
      (∀ k, k < 4 → o.myCore.tlb.find? (·.covers (o.space o.me).1 (base + 8 * k)) = some e) →
      (∀ k, k < 4 → o.translateFor o.focus.core o.me (base + 8 * k) .write = .ok { q with pa := q.pa + 8 * k }) → q.kind = .coherent →
      q.pa % 32 = 0 → o.cohOpen o.focus.core q.pa true = true → o.homeCause o.focus.core q.pa = none →
      o.physOf (q.pa / 2 ^ 27) = h → w.2 = [] ∧ w.1.homeRead o.myCluster q.pa 32 = r.toNat ∧
        (clean o → ∀ x, x < dramKey h q.pa ∨ dramKey h q.pa + 32 ≤ x → w.1.dram.read x = o.dram.read x)) ∧
  (∀ (i : Instr) (f : Fields) (one : Bool) (sp : OpSpec) (s : State), (i = .spawn f ∧ one = false) ∨ (i = .spawnOne f ∧ one = true) →
    opSpec i = some sp → s.issuesPlain sp f = true → settled s →
    let p := f.ctl.sc.toNat
    let ex := s.execLanes f
    let lanes := if one then [lowLane ex] else lanesOf ex
    s.sb sp f % 32 = 0 → (branchTarget s f f.a).toNat % 32 = 0 → s.recRoom s.focus.core p lanes.length = true →
    let o := s.plainOperands sp f
    ∃ t l, exec i s = .next t ∧ o.MovedOn t ∧ o.SameRegs t noReg noReg noReg ∧ o.SameMemory t ∧ l.length = lanes.length ∧
      (t.core o.focus.core).recQ.get [] p = (o.core o.focus.core).recQ.get [] p ++ l ∧
      ∀ (n j : Nat) (r : QRec), lanes[n]? = some j → l[n]? = some r → r.va = 0 ∧ RecordIs r.bits (branchTarget s f f.a) (BitVec.ofNat 64 (o.vc sp f j))
        (BitVec.ofNat 64 (o.sb sp f)) 0 0 0 ((o.launch o.me.seat.ltag.toNat).octs % 2 ^ 9) o.me.seat.ltag) ∧
  (∀ (f : Fields) (sp : OpSpec) (s : State) (q : Trans) (n p : Nat), opSpec (.post f) = some sp → s.issuesPlain sp f = true → settled s →
    let a := recordAt s sp f
    let code := recCode (BitVec.ofNat 256 (s.memPeek s.focus.core q 32))
    a % 32 = 0 → s.walkOpen s.focus.core (s.space s.me).1 (s.space s.me).2 a = true →
    s.translateFor s.focus.core s.me a .read = .ok q → s.accessOpen s.focus.core q 32 false = true →
    code.toNat % 32 = 0 → code.toNat < 2 ^ 57 →
    let o := s.plainOperands sp f
    let b := o.beginWalks [a]
    recordAt o sp f = a → b.translateFor o.focus.core o.me a .read = .ok q → q.kind = .coherent → b.homeCause o.focus.core q.pa = none →
    o.sb sp f = n → n < nCores → (b.physOf o.focus.core, n) ∉ b.badEntries → b.sends o.myCluster n = .to p →
    let raw : BitVec 256 := BitVec.ofNat 256 (b.homeRead o.myCluster q.pa 32)
    let octs := (o.launch o.me.seat.ltag.toNat).octs
    ∃ t x r, exec (.post f) s = .next t ∧ o.MovedOn t ∧ (clean o → t.dram = o.dram) ∧ (o.mine t).posts = o.me.posts + 1 ∧
      t.packets = o.packets ++ [x] ∧ x.src = o.focus.core ∧ x.dst = n ∧ x.dstPhys = p ∧ x.held = false ∧
      x.body = .post r f.ctl.sc.toNat o.focus.slot ∧ r.va = BitVec.ofNat 64 a ∧ r.stamp = BitVec.ofNat 64 (o.ltsOf o.focus.core) ∧
      (clean o → RecordIs r.bits (recCode raw) (recFrame raw) (recParent raw) (recJoin raw) (recCore raw) (recPrio raw)
        ((if recOcts raw = 0 ∨ octs < recOcts raw then octs else recOcts raw) % 2 ^ 9) o.me.seat.ltag) ∧
      (∀ k, (o.mine t).sreg k = o.me.sreg k ∧ (o.mine t).mreg k = o.me.mreg k) ∧ ∀ k j, (o.mine t).vreg k j = o.me.vreg k j) ∧
  ∀ (f : Fields) (sp : OpSpec) (s : State) (q : Trans) (h : Nat), opSpec (.join f) = some sp → s.issuesPlain sp f = true → settled s →
    let a := recordAt s sp f
    a % 32 = 0 → (∃ t, s.translateFor s.focus.core s.me a .write = .ok t) → s.walkHold [a] = none →
    s.joinAt s.focus.core s.focus.slot (BitVec.ofNat 64 a) ≠ .error cWaits →
    let o := s.plainOperands sp f
    let v := o.gangAgent o.focus.core o.focus.slot
    recordAt o sp f = a → o.walkOpen v.core v.asn v.root (a + 24) = true → o.translate v.core v.asn v.root (a + 24) .write = .ok q →
    q.kind = .coherent → o.cohOpen o.focus.core q.pa true = true → o.homeCause o.focus.core q.pa = none →
    o.physOf (q.pa / 2 ^ 27) = h → clean o →
    let n := o.homeRead o.myCluster q.pa 2
    let u := o.agAtomic v (a + 24) 2 fun n => if n = 0 then none else some (n - 1)
    (1 < n → ∃ t, exec (.join f) s = .next t ∧ o.MovedOn t ∧ t.homeRead o.myCluster q.pa 2 = n - 1 ∧
      (∀ x, x < dramKey h q.pa ∨ dramKey h q.pa + 2 ≤ x → t.dram.read x = o.dram.read x) ∧ t.packets = o.packets ∧
      (o.mine t).posts = o.me.posts) ∧
    (n = 1 → ∀ (w : State) (c : Nat) (x : State) (raw : Nat), u = .ok (w, c) → w.agRead v a 32 = .ok (x, raw) →
      ∃ t y r, exec (.join f) s = .next t ∧ o.MovedOn t ∧ t.homeRead o.myCluster q.pa 2 = 0 ∧
        (∀ k, k < dramKey h q.pa ∨ dramKey h q.pa + 2 ≤ k → t.dram.read k = o.dram.read k) ∧
        t.packets = o.packets ++ [y] ∧ y.src = o.focus.core ∧ y.dst = recCore (BitVec.ofNat 256 raw) ∧
        y.body = .post r (recPrio (BitVec.ofNat 256 raw)) o.focus.slot ∧ r.bits = BitVec.ofNat 256 raw ∧ r.va = BitVec.ofNat 64 a ∧
        (o.mine t).posts = o.me.posts + 1)

/-- R110, R111, R449, R450. `callq` suspends its executing lanes and queues one item for each, with the lane's target and v0 to v7;
`retq` of a callee gang returns v0 to v7 of its executing lanes to their callers and ends those lanes. -/
def Obligations.CallsAndReturns : Prop :=
  (∀ (f : Fields) (sp : OpSpec) (s : State), opSpec (.callq f) = some sp → s.issues sp f (List.range 8) [] [] [] = true →
    let ex := s.execLanes f
    (∀ j, j < 64 → ex.getLsbD j = true → s.va sp f j % 4 = 0) → s.myCore.calleeFits (s.callItems sp f ex) = true →
    let o := s.plainOperands sp f
    let items := o.callItems sp f ex
    ∃ t, exec (.callq f) s = .next t ∧ t.focus.done = true ∧ t.nextId = o.nextId + 1 ∧
      (t.core o.focus.core).calleeQ = (o.myCore.putItems items).calleeQ ∧
      items.map (·.target) = (lanesOf ex).map (fun j => BitVec.ofNat 64 (o.va sp f j)) ∧
      (∀ (n j : Nat) (x : CallItem), (lanesOf ex)[n]? = some j → items[n]? = some x → x.ltag = o.me.seat.ltag ∧ x.block = o.me.seat.block ∧
        x.caller.call = o.nextId ∧ x.caller.lane = j ∧
        ∀ r, r < 8 → x.v[r]? = some (BitVec.ofNat 32 (o.vval o.focus.core o.me r j))) ∧
      (∀ j, j < 64 → ex.getLsbD j = true → ((o.mine t).lane j).susp = true ∧ ((o.mine t).lane j).call = o.nextId) ∧
      (∀ j, j < 64 → s.focus.lanes.getLsbD j = true → (o.me.lane j).parked = false → ((o.mine t).lane j).pc = s.focus.pc + BitVec.ofNat 64 s.focus.len) ∧
      (∀ n, (o.mine t).sreg n = o.me.sreg n ∧ (o.mine t).mreg n = o.me.mreg n) ∧ (∀ r j, (o.mine t).vreg r j = o.me.vreg r j) ∧ o.SameMemory t) ∧
  ∀ (f : Fields) (sp : OpSpec) (s : State), opSpec (.retq f) = some sp → s.me.kind = .callee → s.issues sp f (List.range 8) [] [] [] = true →
    let o := s.plainOperands sp f
    let ex := s.execLanes f
    (∃ j, j < 64 ∧ o.me.liveLanes.getLsbD j = true ∧ ex.getLsbD j = false) →
    ∃ t, exec (.retq f) s = .next t ∧ t.focus.done = true ∧
      (t.core o.focus.core).returns = o.myCore.returns ++ (lanesOf ex).map (fun j =>
        ((o.me.callers.get {} j).call, (o.me.callers.get {} j).lane,
          (List.range 8).map fun r => BitVec.ofNat 32 (o.vval o.focus.core o.me r j))) ∧
      (∀ j, j < 64 → ((o.mine t).lane j).exited = (ex.getLsbD j || (o.me.lane j).exited)) ∧
      (∀ n, (o.mine t).sreg n = o.me.sreg n ∧ (o.mine t).mreg n = o.me.mreg n) ∧ (∀ r j, (o.mine t).vreg r j = o.me.vreg r j) ∧ o.SameMemory t

/-- R95, R451. `eget` of an edge with a full head token completes: the token's payload is stored for the lowest executing lane, the slot is
freed, and sD holds the token's number. -/
def Obligations.EdgeGetResults : Prop :=
  ∀ (f : Fields) (sp : OpSpec) (s : State) (e : Edge) (slot head x : Nat) (u : State), opSpec (.eget f) = some sp → s.issuesPlain sp f = true →
    let v := s.gangAgent s.focus.core s.focus.slot
    let a := recordAt s sp f
    let stores (n : Nat) : List (Nat × Nat × Nat) := (pieces8 a (e.size - 8)).map fun p => (p.1, p.2, bits n (8 * (p.1 - a)) (8 * p.2))
    s.getEdge (s.sb sp f) = .ok e → s.headToken v e = .ok (some (slot, head)) → s.storeCauses (stores 0) (s.execLanes f) = [] →
    s.storeWaits (stores 0) (s.execLanes f) = false → s.owes (s.execLanes f) (·.acq) = false →
    s.agValue v (slot + 8) (e.size - 8) ≠ .error cWaits → s.freeSlot v e ≠ .error cWaits → s.walkHold ((stores 0).map (·.1)) = none →
    let o := s.plainOperands sp f
    recordAt o sp f = a → o.getEdge (o.sb sp f) = .ok e → o.headToken v e = .ok (some (slot, head)) →
    o.agValue v (slot + 8) (e.size - 8) = .ok x → o.freeSlot v e = .ok u →
    let k := (o.launch o.me.seat.ltag.toNat).walker
    let u := match (u.runOf k).edges.findIdx? (·.queue == e.queue) with
      | some n => if (u.walker k).run.isSome then u.modRun k (·.taken n) else u
      | none => u
    let w := u.laneStores (.eget f) sp f (stores x) (s.execLanes f)
    w.2 = [] → ∃ t, exec (.eget f) s = .next t ∧ w.1.MovedOn t ∧ w.1.ScalarResult t f (BitVec.ofNat 64 (head / 2 ^ 32)) ∧
      w.1.WritesOnly t (scalDst f) noReg noReg

/-- R119, R122, R123, R224 to R226, R246, R260, R299, R312, R453, R454. `sysr` completes for every access that R454 allows, with the value
of the register that its number names, and changes nothing else; ENACC first takes in energy that the spec does not give. -/
def Obligations.SystemRegisterReads : Prop :=
  (∀ (s : State) (x c : Nat), x < 0x1000 → (s.sysDenied x c = true ↔ accessDenied s x c)) ∧
  ∀ (f : Fields) (sp : OpSpec) (s : State), opSpec (.sysr f) = some sp → s.issuesPlain sp f = true →
    let x := s.sa sp f
    let c := s.sc sp f
    let g := if c.testBit 4 then c % 16 else s.focus.slot
    s.sysDenied x c = false →
    let o := s.plainOperands sp f
    o.sysDenied x c = false → o.sa sp f = x → o.sc sp f = c →
    (∀ v, registerValue o g x = some v → ∃ t, exec (.sysr f) s = .next t ∧ o.ScalarDone t f v) ∧
    (x = 0x001 → ∃ t, exec (.sysr f) s = .next t ∧ o.MovedOn t ∧ o.SameMemory t ∧ o.ScalarResult t f (t.gang o.focus.core g).enacc ∧
      (t.gang o.focus.core g).enacc = (o.gang o.focus.core g).enacc + Config.freeValue o.freeCtr) ∧
    (0x080 ≤ x → x < 0x08f → ∃ t, exec (.sysr f) s = .next t ∧ o.ScalarDone t f (BitVec.ofNat 64
      ((if (o.gang o.focus.core (x - 0x080)).gdbStop then 1 else 0) + if o.stopped o.focus.core (x - 0x080) then 4 else 0))) ∧
    (0x800 ≤ x → x < 0x1000 → s.sysBusy s.focus.core g (.v (x - 0x800)) = false → s.sysReplay s.focus.core g (.v (x - 0x800)) = none →
      ∃ t, exec (.sysr f) s = .next t ∧ o.ScalarDone t f (BitVec.ofNat 64
        (o.vval o.focus.core (o.gang o.focus.core g) (x - 0x800) (c / 32 % 64))))

/-- R47, R122, R123, R225, R232, R253, R299, R306, R312, R453, R454. `sysw` completes for every access that R454 allows: it writes the
register its number names and no other; a read-only register, s0 and m0 discard it; a filter, and a ring of a context that is not
drained, keep the gang waiting with the write. -/
def Obligations.SystemRegisterWrites : Prop :=
  ∀ (f : Fields) (sp : OpSpec) (s : State) (r : SysReg), opSpec (.sysw f) = some sp →
    let x := s.sa sp f
    let c := s.sc sp f
    let b := s.sb sp f
    let k := s.focus.core
    let g := s.sysTarget c
    let lane := c / 32 % 64
    let own := g = s.focus.slot
    let ns (s : State) : List Nat := (s.gang k g).touched r.vec r.sca
    s.sysAt sp f = some r → sysReg x = some r → s.issues sp f [] (if own then r.vec else []) (if own then r.sca else []) [] = true →
    (r = .mondone → settled s) → (∀ n, r = .wlen n → s.owes (s.execLanes f) (·.acq) = false) →
    (¬ own → s.sysBusy k g r = false ∧ (s.gang k g).matrixHolds r.vec = false ∧
      s.replayFault k (s.gang k g) ((ns s).map fun n => ((s.gang k g).recipe n).treg.toNat) = none) →
    s.sysWriteCauses k g r b (s.execLanes f) = [] →
    let o := s.operands sp f [] (if own then r.vec else []) (if own then r.sca else []) []
    o.sysAt sp f = some r → o.sa sp f = x → o.sb sp f = b → o.sc sp f = c → b < 2 ^ 64 →
    let u := if own then o else (if (o.gang k g).ownsRow 0 then o.rowDone k g else o).touch k g r.vec r.sca
    let v : DWord := BitVec.ofNat 64 b
    (o.sysPends k g r = true → ∃ t w, exec (.sysw f) s = .next t ∧ (o.mine t).waits = w :: o.me.waits ∧ w.sysw = some (g, x, v) ∧
      w.pc = s.focus.pc ∧ w.lanes = s.focus.lanes ∧ t.focus.done = true ∧ ∀ j, (o.mine t).lane j = o.me.lane j) ∧
    (o.sysPends k g r = false → (¬ own → o.rowsReady k g (ns o) 0 = true) → ∃ t, exec (.sysw f) s = .next t ∧ t.focus.done = true ∧
      (∀ j, j < 64 → s.focus.lanes.getLsbD j = true → ((o.mine t).lane j).pc = s.focus.pc + BitVec.ofNat 64 s.focus.len) ∧
      OnlySys u t x g ∧
      (∀ n, 0 < n → n < 64 → x = 0x400 + n → (t.gang k g).sreg n = v) ∧
      (∀ n, 0 < n → n < 16 → x = 0x440 + n → (t.gang k g).mreg n = v &&& (u.gang k g).gwMask) ∧
      (x = 0x440 → (t.gang k g).mreg 0 = (u.gang k g).mreg 0) ∧
      (∀ n, x = 0x800 + n → (t.gang k g).vreg n lane = BitVec.ofNat 32 b ∧
        ∀ j, j < 64 → j ≠ lane → (t.gang k g).vreg n j = (u.gang k g).vreg n j) ∧
      (∀ n, n < 8 → x = 0x018 + n → (t.gang k g).ctx n = { (u.gang k g).ctx n with chring := v &&& 0x01ffffffffffff01 }) ∧
      (∀ n, n < 8 → x = 0x028 + n →
        let y := (u.gang k g).ctx n
        (b % 4 = 1 ∧ y.stopped = true → (t.gang k g).ctx n = { y with resumed := true, held := none }) ∧
        (b % 4 = 2 ∧ y.stopped = true → ((t.gang k g).ctx n).cause = 0 ∧ ((t.gang k g).ctx n).tlcnt = y.tliss ∧
          ((t.gang k g).ctx n).tliss = y.tliss ∧ ((t.gang k g).ctx n).chring = y.chring ∧ ((t.gang k g).ctx n).done = 0) ∧
        (b % 4 = 0 ∨ b % 4 = 3 ∨ y.stopped = false → (t.gang k g).ctx n = y)) ∧
      (∀ n, n < 16 → x = 0x040 + n → ((t.gang k g).win n).wlen = v ∧ ((t.gang k g).win n).wdesc = ((u.gang k g).win n).wdesc) ∧
      (∀ n, n < 4 → x = 0x068 + n → (t.core k).waddr.get 0 n = v &&& 0x01fffffffffffff8) ∧
      (∀ n, n < 4 → x = 0x06c + n → (t.core k).wval.get 0 n = v) ∧
      (∀ n, n < 4 → x = 0x070 + n → (t.core k).wmask.get 0 n = v) ∧
      (∀ n, n < 4 → x = 0x074 + n → (t.core k).wctl.get 0 n = if b / 8 % 4 = 3 then (u.core k).wctl.get 0 n else v &&& 0xffff001f) ∧
      (∀ n, n < 15 → x = 0x080 + n → n ≠ s.focus.slot → (t.gang k n).gdbStop = b.testBit 0) ∧
      (x = 0x0c0 → 64 < u.cqFree → u.cqWait = [] → u.cqOver = [] →
        t.cq.get 0 u.cqTail = CqEntry.bits { payload := BitVec.ofNat 64 (b % 2 ^ 16), tag := 0, src := BitVec.ofNat 16 k,
                                             cause := BitVec.ofNat 8 (b / 2 ^ 16), kind := 9 }))

/-- R71, R64, R283, R300, R303, R309, R455 to R458, R460, R461. `bclaim` registers a claim clamped to 15 to 19 in a cluster of the c3 pool
alone and answers PWSTAT; `brel` ends it; `tsr` answers a time; `phint` stops the gang only where a save is pending and its block can
have its images; `halt` sends a halt beacon; `trc` queues a record where its run asks for it. -/
def Obligations.SystemInstructions : Prop :=
  (∀ (f : Fields) (sp : OpSpec) (s : State), opSpec (.bclaim f) = some sp → s.issuesPlain sp f = true →
    let o := s.plainOperands sp f
    let k := o.cluster o.myCluster
    ∃ t, exec (.bclaim f) s = .next t ∧ o.MovedOn t ∧ o.SameBytes t ∧ o.SameLines t ∧ o.ScalarResult t f (t.pwstat o.myCluster) ∧
      (k.pool ≠ 3 ∨ k.inPool = false → (o.mine t).claim = o.me.claim ∧ t.cluster o.myCluster = k) ∧
      (k.pool = 3 → k.inPool = true → (o.mine t).claim = some (max 15 (min 19 (o.sa sp f))) ∧
        (t.cluster o.myCluster).claimAge = some (k.claimAge.getD k.frames) ∧ (t.cluster o.myCluster).bexh = false)) ∧
  (∀ (f : Fields) (sp : OpSpec) (s : State), opSpec (.brel f) = some sp → s.issuesPlain sp f = true →
    let o := s.plainOperands sp f
    ∃ t, exec (.brel f) s = .next t ∧ o.MovedOn t ∧ o.SameBytes t ∧ o.SameLines t ∧ (o.mine t).claim = none ∧
      (o.me.claim = none → o.WritesOnly t noReg noReg noReg)) ∧
  (∀ (f : Fields) (sp : OpSpec) (s : State), opSpec (.tsr f) = some sp → s.issuesPlain sp f = true →
    let o := s.plainOperands sp f
    ∃ t, exec (.tsr f) s = .next t ∧ o.ScalarDone t f
      (if f.a.immNat = 0 then BitVec.ofNat 64 (o.ltsOf o.focus.core)
       else if f.a.immNat = 1 then BitVec.ofNat 64 (o.cycles o.myCluster) else o.me.stampRx)) ∧
  (∀ (f : Fields) (sp : OpSpec) (s : State), opSpec (.phint f) = some sp → s.issuesPlain sp f = true → (branchTarget s f f.a).toNat % 64 = 0 →
    let o := s.plainOperands sp f
    let got := o.obtainImages o.me.seat.block
    ∃ t, exec (.phint f) s = .next t ∧ o.MovedOn t ∧ o.SameMemory t ∧
      (o.me.saveReq = none ∨ got = none → o.WritesOnly t noReg noReg noReg) ∧
      (o.me.saveReq ≠ none → got ≠ none → (o.mine t).saveStop = some (some (branchTarget s f f.a)) ∧ (o.mine t).saveReq = none) ∧
      (∀ n, (o.mine t).sreg n = o.me.sreg n ∧ (o.mine t).mreg n = o.me.mreg n) ∧ ∀ r j, (o.mine t).vreg r j = o.me.vreg r j) ∧
  (∀ (f : Fields) (sp : OpSpec) (s : State), opSpec (.halt f) = some sp → s.issuesPlain sp f = true →
    let o := s.plainOperands sp f
    let bus := o.beaconBus o.myCluster
    ∃ t b, exec (.halt f) s = .next t ∧ o.MovedOn t ∧ o.SameMemory t ∧ o.SameRegs t noReg noReg noReg ∧
      t.beacons = o.beacons ++ [b] ∧ b.seq = o.beaconSeq ∧ b.kind = .halt true 1 o.focus.core ∧ b.writer = o.myCluster ∧ b.bus = bus ∧
      b.frame = o.beaconSlot bus o.myCluster ∧ t.haltOn = true ∧
      (o.haltOn = true → t.haltSrc = o.haltSrc ∧ t.haltCore = o.haltCore ∧ t.haltTime = o.haltTime) ∧
      (o.haltOn = false → t.haltSrc = 1 ∧ t.haltCore = BitVec.ofNat 14 o.focus.core ∧ t.haltTime = BitVec.ofNat 64 o.now)) ∧
  ∀ (f : Fields) (sp : OpSpec) (s : State), opSpec (.trc f) = some sp → s.issuesPlain sp f = true →
    let o := s.plainOperands sp f
    let l := o.launch o.me.seat.ltag.toNat
    ∃ t, exec (.trc f) s = .next t ∧ o.MovedOn t ∧ o.SameMemory t ∧ o.SameRegs t noReg noReg noReg ∧
      (l.trCtl.getLsbD 2 = false ∨ o.me.isHandler = true → (t.core o.focus.core).trq = o.myCore.trq) ∧
      (l.trCtl.getLsbD 2 = true → o.me.isHandler = false → o.myCore.trq.length < 64 →
        ∃ r, (t.core o.focus.core).trq = o.myCore.trq ++ [r] ∧ r.walker = l.walker ∧
          r.bits.extractLsb' 176 80 = (o.nameOf o.focus.core o.me (lowLane (s.execLanes f))).bits ∧
          r.bits.extractLsb' 128 48 = BitVec.ofNat 48 (o.timeAt o.myCluster) ∧ r.bits.extractLsb' 120 8 = 3 ∧
          r.bits.extractLsb' 0 64 = BitVec.ofNat 64 (o.sa sp f) ∧ r.bits.extractLsb' 64 55 = o.focus.pc.extractLsb' 2 55)

/-- What a return from a trap needs: the frame of the trap served, mapped, readable now and legal, and no access of the handler in
flight. -/
def returnsFrom (s : State) (a b : Nat) (u : TrapRec) : Prop :=
  s.served a b = some u ∧ s.walkOpen s.focus.core (s.space s.me).1 (s.space s.me).2 b = true ∧ s.frameOk u b = true ∧
    s.owes (BitVec.allOnes 64) (fun _ => true) = false ∧
    ∃ q, s.translateFor s.focus.core s.me b .read = .ok q ∧ s.frameOpen s.focus.core q false = true

/-- R279, R459. `rtrap.resume` ends the service of the trap that it names, reloads its latches from the frame and lets the gang issue
again where no further trap of it waits, its replay queue first; `rtrap.kill` ends the service and kills the gang's block. -/
def Obligations.TrapReturns : Prop :=
  (∀ (f : Fields) (sp : OpSpec) (s : State) (u : TrapRec), opSpec (.rtrapResume f) = some sp → s.issuesPlain sp f = true →
    let a := s.sa sp f
    let b := s.sb sp f
    returnsFrom s a b u →
    let o := s.plainOperands sp f
    o.served (o.sa sp f) (o.sb sp f) = some u → o.sb sp f = b → u.slot ≠ s.focus.slot → u.ended = false →
    ∃ t, exec (.rtrapResume f) s = .next t ∧ o.MovedOn t ∧ o.SameMemory t ∧ (t.core o.focus.core).serving = none ∧
      (t.gang o.focus.core u.slot).replay = (List.range (o.frameNq b)).filterMap (fun i => o.frameEntry u b i) ∧
      ((t.gang o.focus.core u.slot).trapped = true ↔ ∃ w ∈ o.myCore.work, ∃ x, w = .trap x ∧ x.slot = u.slot) ∧
      (∀ k, k < 256 → ((t.core o.focus.core).latches.get {} (u.slot % 4)).vec.get 0 k = BitVec.ofNat 64 (o.frameWord b (32 + k))) ∧
      (∀ l, l < 4 → ((t.core o.focus.core).latches.get {} (u.slot % 4)).sca.get 0 l = BitVec.ofNat 64 (o.frameWord b (288 + l)) ∧
        (((t.core o.focus.core).latches.get {} (u.slot % 4)).owner.get none l =
          if (o.frameWord b 292).testBit l then some u.slot else none)) ∧
      (∀ n, (t.gang o.focus.core u.slot).sreg n = (o.gang o.focus.core u.slot).sreg n ∧
        (t.gang o.focus.core u.slot).mreg n = (o.gang o.focus.core u.slot).mreg n) ∧
      ∀ r j, (t.gang o.focus.core u.slot).vreg r j = (o.gang o.focus.core u.slot).vreg r j) ∧
  ∀ (f : Fields) (sp : OpSpec) (s : State) (u : TrapRec), opSpec (.rtrapKill f) = some sp → s.issuesPlain sp f = true →
    let a := s.sa sp f
    let b := s.sb sp f
    returnsFrom s a b u →
    let o := s.plainOperands sp f
    o.served (o.sa sp f) (o.sb sp f) = some u → s.focus.slot = handlerSlot →
    ∃ t, exec (.rtrapKill f) s = .next t ∧ t.focus.done = true ∧ (t.core o.focus.core).serving = none ∧
      (∀ p ∈ t.blocks, p.1 ≠ (o.gang o.focus.core u.slot).seat.block) ∧
      (∀ p ∈ o.blockGangs (o.gang o.focus.core u.slot).seat.block, (t.gang p.1 p.2).seat.used = false)

/-- R119, R121, R137, R270 to R272, R274, R334, R436. An instruction whose encoding, prefix or register numbers break a rule takes a precise
trap with the cause of that rule in every lane of its group; one that only the handler may issue takes PERM_FAULT; one that reads an
invalid latch takes LATCH_LOST, whatever it would wait for or check later. Nothing is changed. That the entry's MASK
holds the lanes that pass the guard is the model's choice (log entry 26). -/
def Obligations.TrapsArePrecise : Prop :=
  ∀ (i : Instr) (f : Fields) (sp : OpSpec) (s : State), opSpec i = some sp → i.fields? = some f → untrapped s → s.me.isHandler = false → s.focus.lanes ≠ 0 →
    let all (m : Mask) : Prop := ∀ j, j < 64 → s.focus.lanes.getLsbD j = true → m.getLsbD j = true
    (encodingOk sp f = false → ∃ t u m, exec i s = .next t ∧ Trapped s t u ∧ (cIllegalEncoding, m) ∈ u.causes ∧ all m) ∧
    (encodingOk sp f = true → prefixOk sp f = false → ∃ t u m, exec i s = .next t ∧ Trapped s t u ∧ (cIllegalPrefix, m) ∈ u.causes ∧ all m) ∧
    (encodingOk sp f = true → prefixOk sp f = true →
      ((sp.dst.isVector = true ∧ f.nwb = false ∧ s.me.nregs ≤ dstReg s.me f) ∨
        (sp.a.vectorReg = true ∧ ∃ n, f.a = .reg n ∧ s.me.nregs ≤ n.toNat) ∨
        (sp.a.vectorReg = true ∧ ∃ n, f.a = .ind n ∧ s.me.nregs ≤ (s.me.sreg n.toNat).toNat + f.ka) ∨
        (sp.b.vectorReg = true ∧ ∃ n, f.b = .ind n ∧ s.me.nregs ≤ (s.me.sreg n.toNat).toNat + f.kb)) →
      ∃ t u m, exec i s = .next t ∧ Trapped s t u ∧ (cRegRange, m) ∈ u.causes ∧ all m) ∧
    (sp.handlerOnly = true → s.encCauses sp f [] = [] → s.execLanes f ≠ 0 →
      ∃ t u, exec i s = .next t ∧ Trapped s t u ∧ u.causes = [(cPermFault, s.execLanes f)] ∧ u.entry.mask = s.execLanes f) ∧
    (i = .sadd f ∨ i = .vaddInt f ∨ i = .eget f ∨ i = .spawn f → s.encCauses sp f [] = [] → s.execLanes f ≠ 0 →
      s.pendBusy sp f (s.srcRegs sp f ++ s.dstRegs sp f) (scaDst sp f) = false → s.me.matrixHolds (s.dstRegs sp f) = false →
      (∃ l ∈ usesLatch f, s.latchValid l = false) →
      ∃ t u, exec i s = .next t ∧ Trapped s t u ∧ u.causes = [(cLatchLost, s.execLanes f)] ∧ u.entry.mask = s.execLanes f)

/-- R171, R272, R277, R366, R397. A load or store with a misaligned lane, and a register jump to a misaligned target, take a precise trap:
the frame's causes name the lanes, and no lane's access is made. -/
def Obligations.OperandTraps : Prop :=
  (∀ (i : Instr) (e : Element) (sp : OpSpec) (s : State), opSpec i = some sp → element i = some e → untrapped s → s.raceMode s.me ≠ 1 →
    s.issues sp e.f (e.reads s) [] [] [] = true →
    (∃ j, j < 64 ∧ (s.execLanes e.f).getLsbD j = true ∧ (e.acc sp s j).va % (e.acc sp s j).bytes ≠ 0) →
    (∀ j, j < 64 → (s.execLanes e.f).getLsbD j = true → s.laneWaits e.f j (e.acc sp s j) = false) →
    (e.f.scratch = true ∨ pagesOpen s (fun j => (e.acc sp s j).va) (s.execLanes e.f)) →
    ∃ t u m, exec i s = .next t ∧ Trapped s t u ∧ (cMisalign, m) ∈ u.causes ∧
      ∀ j, j < 64 → (m.getLsbD j = true ↔ (s.execLanes e.f).getLsbD j = true ∧ (e.acc sp s j).va % (e.acc sp s j).bytes ≠ 0)) ∧
  ∀ (i : Instr) (f : Fields) (sp : OpSpec) (s : State), i = .jmpi f ∨ i = .calli f ∨ i = .ret f → opSpec i = some sp → untrapped s →
    s.issuesPlain sp f = true → (∃ j, j < 64 ∧ (s.execLanes f).getLsbD j = true ∧ s.va sp f j % 4 ≠ 0) →
    ∃ t u m, exec i s = .next t ∧ Trapped s t u ∧ u.causes = [(cFetchAlign, m)] ∧
      ∀ j, j < 64 → (m.getLsbD j = true ↔ (s.execLanes f).getLsbD j = true ∧ s.va sp f j % 4 ≠ 0)

/-- R16, R20, R21, R27, R49, R52, R77, R78, R83, R84, R87 to R90, R93, R174, R188, R295, R303 to R305. What the host does completes with
the effect of its rule: accesses, register writes, walker starts, the queue's head, invalidations, kills, doorbells, bring-up, tables,
bindings, holds, copies and halts. The numbering of the defect maps' words (log entry 6), TBLREF for a core number that no core has (43) and
BINDREF for a cluster number that no cluster has (45) are the model's choices. -/
def Obligations.HostEvents : Prop :=
  hostAccesses ∧ hostRegisters ∧ walkerStarts ∧ headMoves ∧ invalidations ∧ kills ∧ doorbells ∧ bringUp ∧ tables ∧ repair

/-- R54 to R57, R59, R60, R62 to R69, R72 to R74, R103. Each event of the power regions, the boost permits, the governor, the pools and
the thermal ladder completes with the effect of its rule. How REFUSED, ramps, pool moves and the stages that a trip passes over are read (log
entry 9), that a RESTART gives every core's handler the registers HROOT, HENTRY and HFBASE as they stand (5), and what the memory of a region that lost its supply holds (24)
are the model's choices. -/
def Obligations.PowerEvents : Prop := regionCommands ∧ regionSupply ∧ currents ∧ pools ∧ thermal

/-- R25 to R28, R35 to R40, R44, R48 to R53, R172, R184, R188 to R190, R199, R200, R273, R300 to R302. Each event of the mesh, the
photonic plane and the memory system completes with the effect of its rule. The readings of R43 to R53 that the rules leave open (log entry 8), the
order of packets at one port (12), the tables of the second lookup (30) and which cluster's updates a router has (40) are the model's
choices. -/
def Obligations.InterconnectEvents : Prop := meshPackets ∧ routerTables ∧ busMessages ∧ beacons ∧ memorySystem

/-- R80 to R83, R90 to R92, R94, R96 to R102, R105, R107 to R112, R119, R122, R123, R175, R472. Each event of the graph walkers, the hubs and
the bodies that start in idle slots completes with the effect of its rule. The readings of R98 to R112 (log entry 13) and of R90 to R97 and the
order of a start's checks (31) where the rules leave them open are the model's choices. -/
def Obligations.SchedulerEvents : Prop := nodesFire ∧ firingsEnd ∧ hubs ∧ bodies

/-- R47, R112, R132, R135, R211, R225, R226, R230, R232, R235, R240, R242, R243, R267, R274 to R277, R293, R294, R305, R306, R404, R414.
Each event that ends a bound or a wait of a core, of its engines and of its handler's entry completes with the effect of its rule. That an entry's
words of AM are written at its completion (log entry 16), that an engine moves a row in one step (28), and what a handler's body starts
with (14) are the model's choices. -/
def Obligations.CoreEvents : Prop := bounds ∧ engines ∧ handlers

/-- R76, R282 to R289, R293, R298, R299, R309, R311. Each event of block saves and restores, of errors, samples and traces, and of losses
completes with the effect of its rule: a save's image holds what its rules list, and a restore reloads it. The layout of what the image's
rules leave open (log entry 25), the lanes and the entry that an uncorrectable error names (26), the values of a sample and of the trace's
DELAY (17) and what is lost with a region (24) are the model's choices. -/
def Obligations.SaveAndLossEvents : Prop := saves ∧ losses

/-- R41, R42, R54, R58, R60, R64, R68, R71, R83, R84, R87, R303. What reset leaves: phase 0, every region OFF with 64 permits, every
cluster at nominal frequency and frame 0, every walker idle, and each core's memories in canonical form. What memory reads, and that
nothing is on the agenda, is the model's choice (log entries 1 and 2). -/
def Obligations.ResetValues : Prop :=
  let s := State.reset
  s.mgmt = 0 ∧ s.bclu = 0 ∧ s.gov = 15 ∧ s.now = 0 ∧ s.slcopy = 0 ∧ s.haltOn = false ∧ s.haltSrc = 0 ∧ s.haltCore = 0 ∧ s.haltTime = 0 ∧
  s.upds.length = 0 ∧ (∀ p, s.tbl.get 0 p = 0) ∧ (∀ i, s.cq.get 0 i = 0) ∧
  (∀ r, r < 96 → (s.region r).st = .off ∧ (s.region r).cause = 0 ∧ (s.region r).stage = 0 ∧ (s.region r).refused = false ∧
    (s.region r).permits = 64 ∧ (s.region r).temp = 0 ∧ (s.region r).trips = 0 ∧ (s.region r).rampfail = 0 ∧ (s.region r).ocwarn = 0 ∧
    (s.region r).therm = 0) ∧
  (∀ k, k < 192 → (s.cluster k).freq = 14 ∧ (s.cluster k).nextFreq = none ∧ (s.cluster k).pool = 1 ∧ (s.cluster k).thr = false ∧
    (s.cluster k).bexh = false ∧ (s.cluster k).frames = 0 ∧ (s.cluster k).halted = false ∧ ∀ b, b < 16 → s.groupOf b k = k) ∧
  (∀ w, w < 384 → (s.walker w).st = 0 ∧ (s.walker w).run = none) ∧
  (∀ c, c < 12288 → (s.core c).spad.wf = true ∧ ∀ a, (s.core c).spad.read a = 0) ∧
  (∀ p, Memory.wf (s.decks.get [] p) = true ∧ ∀ a, Memory.read (s.decks.get [] p) a = 0) ∧
  s.dram.wf = true ∧ (∀ a, s.dram.read a = 0) ∧ s.agenda = []

/-- R318, R331, R353. The words that the rules work out decode to their instructions, and an instruction of each length does. -/
def Obligations.DecodedWords : Prop :=
  let z : Fields := { ty := 0, fn := 0, c := .reg 0, b := .reg 0, a := .reg 0, dst := 0, lat := 0, nwb := false, guard := ⟨false, 0⟩,
                      len := .l64, x := 0, ctl := ⟨0, 0, 0, 0, false, 0, 0, 0⟩, pfx := none }
  decodeTableWord 64 0x000000c028203300 = some (.vaddFloat { z with a := .reg 5, b := .reg 6, dst := 4, guard := ⟨false, 3⟩ }) ∧
  decodeTableWord 64 0x8400400020100254 = some (.vcmpInt { z with ty := 8, fn := 2, a := .reg 4, b := .imm 0, dst := 2 }) ∧
  decodeTableWord 64 0x8000009000202204 = some (.vsubInt { z with ty := 8, a := .imm 0, b := .reg 4, dst := 4, guard := ⟨false, 2⟩ }) ∧
  decodeTableWord 128 0x7a2f0000000070204840030100000533 =
    some (.vaddFloat { z with a := .reg 9, b := .konst, dst := 8, len := .l96, x := 0x7a2f0000, pfx := some ⟨0, .reg 0, true, 2, false, 12⟩ }) ∧
  decodeTableWord 64 0 = some (.nop z) ∧
  decodeTableWord 128 0x15000000880000009000020070880602 =
    some (.ld { z with ty := 9, b := .reg 16, a := .reg 14, dst := 17, len := .l128, x := 0x88000000, ctl := ⟨0, 5, 1, 0, false, 0, 0, 0⟩ })

/-- R314 to R334. Decoding the encoding of a well-formed instruction, whatever bytes follow it, gives the instruction back with its
length in bytes. -/
def Obligations.DecodeReadsEncode : Prop :=
  ∀ (i : Instr) (tail : List Byte), wellFormed i = true → decode (encode i ++ tail) = .ok (i, (encode i).length)

/-- R113, R125, R126, R172, R186, R274, R315. A step takes the agenda's first move. Where that is an issue of a gang that can issue before
the handler does, and the bytes at the group's address can be fetched and decode to i, the step is exec of i on that group, in the
state in which the line has been fetched and the issue slot has passed to the gang, with the hold settled after it; where the handler
issues first, or the gang cannot issue, nothing changes. An event move is exec of the event; a tick moves time; an empty agenda lets
one frame pass; without module power every step stops. The agenda is the model's own (log entry 2). -/
def Obligations.StepRunsDecoded : Prop :=
  (∀ s : State, s.powered = false → step s = .fault .unpowered) ∧
  ∀ (s : State) (rest : List Move), s.powered = true →
    let b : State := { s with agenda := rest }
    (s.agenda = [] → step s = .next (s.pass 1)) ∧
    (∀ n, s.agenda = .tick n :: rest → step s = .next (b.pass n)) ∧
    (∀ r e, s.agenda = .strike r e :: rest → step s = .next (b.strike r e)) ∧
    (∀ c asn va, s.agenda = .refill c asn va :: rest → step s = .next (b.refill c asn va)) ∧
    (∀ c g n k, s.agenda = .readAhead c g n k :: rest → step s = .next (b.readAhead c g n k)) ∧
    (∀ i, s.agenda = .event i :: rest → step s = if opSpec i = none then exec i b else .next b) ∧
    (∀ c g j fly, s.agenda = .issue c g j fly :: rest →
      (b.handlerFirst c g = true ∨ b.canIssue c g = false → step s = .next b) ∧
      ∀ (slot : Nat) (lanes : Mask) (pc : DWord) (t : Trans) (i : Instr) (len : Nat),
        b.handlerFirst c g = false → b.canIssue c g = true → (b.core c).issueSlot g = some slot → (b.gang c g).replay = [] →
        (b.gang c g).group j = some (lanes, pc) →
        let asn := (b.space (b.gang c g)).1
        let root := (b.space (b.gang c g)).2
        let f : State := { b with focus := { core := c, slot := g, lanes, pc, len := 0, fly } }
        f.walkOpen c asn root pc.toNat = true →
        let q := f.queueWalk c asn root pc.toNat
        q.codeAt c (b.gang c g) pc = .ok t → q.codeOpen c t = true → decode (blockBytes (q.codePeek c t) t.pa) = .ok (i, len) →
        let u := ({ q.codeFill c t with focus := { (q.codeFill c t).focus with len } }).switchTo c g slot
        step s = match exec i u with
          | .next v => .next (State.countSample u slot (State.settle b slot i v))
          | o => o)

/-- R12, R165, R188 to R192. Every step keeps DRAM in its canonical form: the listed addresses strictly rise and no listed byte is
zero, so that equal memories are equal data. The form is the model's own (log entry 1). -/
def Obligations.StepKeepsMemoryCanonical : Prop :=
  ∀ (s t : State), s.dram.wf = true → step s = .next t → t.dram.wf = true
end

