-- ==== Sys2Proof/Laws/Table.lean ====
section
/-! SUPPORT. Laws of sparse tables and of byte memory. -/

namespace Sys2Proof

@[simp] theorem SMap.get_put_same {α : Type} (d : α) (m : SMap α) (n : Nat) (x : α) : (m.put n x).get d n = x := by
  induction m with
  | nil => simp [SMap.put, SMap.get]
  | cons e m ih =>
    obtain ⟨k, y⟩ := e
    unfold SMap.put
    split
    · simp [SMap.get]
    · split
      · simp [SMap.get]
      · next h => simp [SMap.get, Ne.symm h, ih]

theorem SMap.get_put_other {α : Type} (d : α) (m : SMap α) {n k : Nat} (x : α) (h : k ≠ n) : (m.put n x).get d k = m.get d k := by
  induction m with
  | nil => simp [SMap.put, SMap.get, h.symm]
  | cons e m ih =>
    obtain ⟨q, y⟩ := e
    unfold SMap.put
    split
    · simp [SMap.get, h.symm]
    · split
      · next hq => subst hq; simp [SMap.get, h.symm]
      · simp [SMap.get, ih]

theorem SMap.get_put {α : Type} (d : α) (m : SMap α) (n k : Nat) (x : α) :
    (m.put n x).get d k = if k = n then x else m.get d k := by
  split
  · next h => subst h; simp
  · next h => exact SMap.get_put_other d m x h

@[simp] theorem SMap.putAll_nil {α : Type} (m : SMap α) : m.putAll [] = m := rfl
@[simp] theorem SMap.putAll_cons {α : Type} (m : SMap α) (p : Nat × α) (l : List (Nat × α)) :
    m.putAll (p :: l) = (m.put p.1 p.2).putAll l := rfl
theorem SMap.putAll_append {α : Type} (m : SMap α) (a b : List (Nat × α)) : m.putAll (a ++ b) = (m.putAll a).putAll b := by
  simp [SMap.putAll]

/-- A key that the list does not name keeps its value. -/
theorem SMap.get_putAll_other {α : Type} (d : α) (l : List (Nat × α)) (m : SMap α) (k : Nat) (h : ∀ p ∈ l, p.1 ≠ k) :
    (m.putAll l).get d k = m.get d k := by
  induction l generalizing m with
  | nil => rfl
  | cons p l ih =>
    rw [SMap.putAll_cons, ih _ fun q hq => h q (List.mem_cons_of_mem _ hq)]
    exact SMap.get_put_other d m _ (h p List.mem_cons_self).symm

/-- A key whose entries in the list all have one value takes it. -/
theorem SMap.get_putAll_of {α : Type} (d : α) (l : List (Nat × α)) (m : SMap α) (k : Nat) (x : α)
    (hk : ∃ p ∈ l, p.1 = k) (hx : ∀ p ∈ l, p.1 = k → p.2 = x) : (m.putAll l).get d k = x := by
  induction l generalizing m with
  | nil => obtain ⟨p, hp, _⟩ := hk; cases hp
  | cons p l ih =>
    rw [SMap.putAll_cons]
    by_cases h : ∃ q ∈ l, q.1 = k
    · exact ih _ h fun q hq => hx q (List.mem_cons_of_mem _ hq)
    · have hno : ∀ q ∈ l, q.1 ≠ k := fun q hq e => h ⟨q, hq, e⟩
      obtain ⟨q, hq, e⟩ := hk
      have : q = p := by
        rcases List.mem_cons.mp hq with rfl | hq'
        · rfl
        · exact absurd e (hno q hq')
      subst this
      rw [SMap.get_putAll_other _ _ _ _ hno, ← e, SMap.get_put_same]
      exact hx _ List.mem_cons_self e

/-- The values of a map over a list of distinct places. -/
theorem SMap.get_putAll_map {α : Type} (d : α) (m : SMap α) (l : List Nat) (key : Nat → Nat) (val : Nat → α) (j : Nat)
    (hj : j ∈ l) (inj : ∀ i ∈ l, key i = key j → val i = val j) : (m.putAll (l.map fun i => (key i, val i))).get d (key j) = val j := by
  apply SMap.get_putAll_of
  · exact ⟨(key j, val j), List.mem_map.mpr ⟨j, hj, rfl⟩, rfl⟩
  · intro p hp e
    obtain ⟨i, hi, rfl⟩ := List.mem_map.mp hp
    exact inj i hi e

namespace Machine

theorem mem_lanesOf {m : Mask} {j : Nat} : j ∈ lanesOf m ↔ j < 64 ∧ m.getLsbD j = true := by
  simp [lanesOf]

/-! ## Memory keeps its canonical form -/

theorem Memory.wf_iff (m : Memory) : m.wf = true ↔ m.Pairwise (fun a b => a.1 < b.1) ∧ ∀ c ∈ m, c.2 ≠ 0 := by
  induction m with
  | nil => simp [Memory.wf]
  | cons c m ih =>
    cases m with
    | nil => simp [Memory.wf]
    | cons d m =>
      simp only [Memory.wf, Bool.and_eq_true, ih, bne_iff_ne, ne_eq, decide_eq_true_eq]
      constructor
      · rintro ⟨⟨h1, h2⟩, h3, h4⟩
        refine ⟨List.pairwise_cons.mpr ⟨?_, h3⟩, ?_⟩
        · intro e he
          rcases List.mem_cons.mp he with rfl | he
          · exact h2
          · exact lt_trans h2 ((List.pairwise_cons.mp h3).1 e he)
        · intro e he
          rcases List.mem_cons.mp he with rfl | he
          · exact h1
          · exact h4 e he
      · rintro ⟨h1, h2⟩
        have h3 := List.pairwise_cons.mp h1
        exact ⟨⟨h2 c List.mem_cons_self, h3.1 d List.mem_cons_self⟩, h3.2, fun e he => h2 e (List.mem_cons_of_mem _ he)⟩

theorem Memory.wf_filter (m : Memory) (p : Host.Cell → Bool) (h : m.wf = true) : Memory.wf (m.filter p) = true := by
  rw [Memory.wf_iff] at *
  exact ⟨h.1.filter p, fun c hc => h.2 c (List.mem_filter.mp hc).1⟩

@[simp] theorem Memory.wf_erase (m : Memory) (a : Nat) (h : m.wf = true) : (m.erase a).wf = true := Memory.wf_filter m _ h
@[simp] theorem Memory.wf_clear (m : Memory) (a n : Nat) (h : m.wf = true) : (m.clear a n).wf = true := Memory.wf_filter m _ h

theorem Memory.mem_insert {m : Memory} {a : Nat} {b : Byte} {c : Host.Cell} : c ∈ m.insert a b ↔ c = (a, b) ∨ c ∈ m := by
  induction m with
  | nil => simp [Memory.insert]
  | cons e m ih =>
    obtain ⟨k, x⟩ := e
    unfold Memory.insert
    split
    · simp
    · simp [ih]; tauto

theorem Memory.wf_insert (m : Memory) (a : Nat) (b : Byte) (h : m.wf = true) (ha : ∀ c ∈ m, c.1 ≠ a) (hb : b ≠ 0) :
    (m.insert a b).wf = true := by
  rw [Memory.wf_iff] at *
  refine ⟨?_, ?_⟩
  · obtain ⟨h, -⟩ := h
    induction m with
    | nil => simp [Memory.insert]
    | cons e m ih =>
      obtain ⟨k, x⟩ := e
      have hc := List.pairwise_cons.mp h
      unfold Memory.insert
      split
      · next hlt =>
        refine List.pairwise_cons.mpr ⟨?_, h⟩
        intro c hm
        rcases List.mem_cons.mp hm with rfl | hm
        · exact hlt
        · exact lt_trans hlt (hc.1 c hm)
      · next hlt =>
        have hk : k ≠ a := ha (k, x) List.mem_cons_self
        refine List.pairwise_cons.mpr ⟨?_, ih (fun c hm => ha c (List.mem_cons_of_mem _ hm)) hc.2⟩
        intro c hm
        rcases Memory.mem_insert.mp hm with rfl | hm
        · show k < a; omega
        · exact hc.1 c hm
  · intro c hc
    rcases Memory.mem_insert.mp hc with rfl | hc
    · exact hb
    · exact h.2 c hc

@[simp] theorem Memory.wf_write (m : Memory) (a : Nat) (b : Byte) (h : m.wf = true) : (m.write a b).wf = true := by
  unfold Memory.write
  split
  · exact Memory.wf_erase m a h
  · next hb =>
    refine Memory.wf_insert _ a b (Memory.wf_erase m a h) ?_ hb
    intro c hc
    simpa using (List.mem_filter.mp hc).2

@[simp] theorem Memory.wf_writeN (m : Memory) (a n v : Nat) (h : m.wf = true) : (m.writeN a n v).wf = true := by
  induction n generalizing m a v with
  | zero => exact h
  | succ n ih => exact ih _ _ _ (Memory.wf_write m a _ h)

@[simp] theorem Memory.wf_writeBytes (l : List Byte) (m : Memory) (a : Nat) (h : m.wf = true) : (m.writeBytes a l).wf = true := by
  induction l generalizing m a with
  | nil => exact h
  | cons b l ih => exact ih _ _ (Memory.wf_write m a b h)

/-! ## Reads after writes -/

theorem Memory.read_insert (m : Memory) (a k : Nat) (b : Byte) (ha : ∀ c ∈ m, c.1 ≠ a) :
    (m.insert a b).read k = if k = a then b else m.read k := by
  induction m with
  | nil => simp [Memory.insert, Memory.read, eq_comm]
  | cons e m ih =>
    obtain ⟨q, x⟩ := e
    have hq : q ≠ a := ha (q, x) List.mem_cons_self
    unfold Memory.insert
    split
    · simp [Memory.read, eq_comm]
    · simp only [Memory.read, ih fun c hc => ha c (List.mem_cons_of_mem _ hc)]
      split
      · next h => subst h; simp [hq]
      · rfl

theorem Memory.read_erase (m : Memory) (a k : Nat) : (m.erase a).read k = if k = a then 0 else m.read k := by
  induction m with
  | nil => simp [Memory.erase, Memory.read]
  | cons e m ih =>
    obtain ⟨q, x⟩ := e
    simp only [Memory.erase, List.filter_cons] at ih ⊢
    split
    · next h =>
      simp only [ne_eq, decide_eq_true_eq] at h
      simp only [Memory.read, ih]
      split
      · next hk => subst hk; simp [h]
      · rfl
    · next h =>
      simp only [ne_eq, decide_eq_true_eq, not_not] at h
      subst h
      rw [ih]
      simp only [Memory.read]
      split
      · rfl
      · next hk => simp [Ne.symm hk]

/-- A byte reads as what was written last; every other byte as before. -/
theorem Memory.read_write (m : Memory) (a k : Nat) (b : Byte) : (m.write a b).read k = if k = a then b else m.read k := by
  unfold Memory.write
  split
  · next h => rw [Memory.read_erase, h]
  · rw [Memory.read_insert _ _ _ _ (by intro c hc; simpa using (List.mem_filter.mp hc).2), Memory.read_erase]
    split <;> rfl

/-- A write of `n` bytes leaves every byte outside them alone. -/
theorem Memory.read_writeN_other (m : Memory) (a n v k : Nat) (h : k < a ∨ a + n ≤ k) : (m.writeN a n v).read k = m.read k := by
  induction n generalizing m a v with
  | zero => rfl
  | succ n ih =>
    show ((m.write a _).writeN (a + 1) n (v / 256)).read k = _
    rw [ih _ _ _ (by omega), Memory.read_write, if_neg (by omega)]

/-- Reading back what was written. -/
theorem Memory.readN_writeN (m : Memory) (a n v : Nat) : (m.writeN a n v).readN a n = v % 256 ^ n := by
  induction n generalizing m a v with
  | zero => simp [Memory.readN, Nat.mod_one]
  | succ n ih =>
    show ((((m.write a _).writeN (a + 1) n (v / 256)).read a).toNat + 256 * _) = _
    rw [Memory.read_writeN_other _ _ _ _ _ (by omega), Memory.read_write, if_pos rfl]
    have h : (m.writeN a (n + 1) v).readN (a + 1) n = v / 256 % 256 ^ n := ih _ _ _
    rw [h, BitVec.toNat_ofNat, Nat.pow_succ' (m := 256), Nat.mod_mul (b := 256 ^ n)]

end Machine
end Sys2Proof
end

