-- ==== Sys2Proof/Laws/State.lean ====
section
/-! SUPPORT. What each named update of the state changes and leaves: one lemma per part. -/

namespace Sys2Proof.Machine

/-! ## Parts after an update of one part -/

@[simp] theorem core_setCore_same (s : State) (c : Nat) (x : CoreSt) : (s.setCore c x).core c = x := by simp [State.core, State.setCore]
theorem core_setCore_other (s : State) {c d : Nat} (x : CoreSt) (h : d ≠ c) : (s.setCore c x).core d = s.core d := by
  simp [State.core, State.setCore, SMap.get_put_other _ _ _ h]
theorem core_setCore (s : State) (c d : Nat) (x : CoreSt) : (s.setCore c x).core d = if d = c then x else s.core d := by
  simp [State.core, State.setCore, SMap.get_put]
@[simp] theorem core_modCore_same (s : State) (c : Nat) (f : CoreSt → CoreSt) : (s.modCore c f).core c = f (s.core c) := by
  simp [State.modCore]
theorem core_modCore_other (s : State) {c d : Nat} (f : CoreSt → CoreSt) (h : d ≠ c) : (s.modCore c f).core d = s.core d := by
  simp [State.modCore, core_setCore_other _ _ h]
@[simp] theorem gang_setGang_same (s : State) (c g : Nat) (x : Gang) : (s.setGang c g x).gang c g = x := by
  simp [State.gang, State.setGang]
theorem gang_setGang_slot (s : State) (c : Nat) {g h : Nat} (x : Gang) (hg : h ≠ g) : (s.setGang c g x).gang c h = s.gang c h := by
  simp [State.gang, State.setGang, SMap.get_put_other _ _ _ hg]
theorem gang_setGang_core (s : State) {c d : Nat} (g h : Nat) (x : Gang) (hd : d ≠ c) : (s.setGang c g x).gang d h = s.gang d h := by
  simp [State.gang, State.setGang, core_modCore_other _ _ hd]
@[simp] theorem gang_modGang_same (s : State) (c g : Nat) (f : Gang → Gang) : (s.modGang c g f).gang c g = f (s.gang c g) := by
  simp [State.modGang]
@[simp] theorem cluster_setCluster_same (s : State) (k : Nat) (x : Cluster) : (s.setCluster k x).cluster k = x := by
  simp [State.cluster, State.setCluster]
theorem cluster_setCluster_other (s : State) {k q : Nat} (x : Cluster) (h : q ≠ k) : (s.setCluster k x).cluster q = s.cluster q := by
  simp [State.cluster, State.setCluster, SMap.get_put_other _ _ _ h]
@[simp] theorem cluster_modCluster_same (s : State) (k : Nat) (f : Cluster → Cluster) : (s.modCluster k f).cluster k = f (s.cluster k) := by
  simp [State.modCluster]
@[simp] theorem region_setRegion_same (s : State) (r : Nat) (x : Region) : (s.setRegion r x).region r = x := by
  simp [State.region, State.setRegion]
theorem region_setRegion_other (s : State) {r q : Nat} (x : Region) (h : q ≠ r) : (s.setRegion r x).region q = s.region q := by
  simp [State.region, State.setRegion, SMap.get_put_other _ _ _ h]
@[simp] theorem region_modRegion_same (s : State) (r : Nat) (f : Region → Region) : (s.modRegion r f).region r = f (s.region r) := by
  simp [State.modRegion]
@[simp] theorem walker_setWalker_same (s : State) (w : Nat) (x : Walker) : (s.setWalker w x).walker w = x := by
  simp [State.walker, State.setWalker]
@[simp] theorem hub_setHub_same (s : State) (h : Nat) (x : Hub) : (s.setHub h x).hub h = x := by simp [State.hub, State.setHub]
@[simp] theorem launch_setLaunch_same (s : State) (l : Nat) (x : Launch) : (s.setLaunch l x).launch l = x := by
  simp [State.launch, State.setLaunch]
@[simp] theorem block_setBlock_same (s : State) (b : Nat) (x : Block) : (s.setBlock b x).block b = x := by
  simp [State.block, State.setBlock]

/-! ## Fields that the updates of one part leave -/

@[simp] theorem dram_setCore (s : State) (c : Nat) (x : CoreSt) : (s.setCore c x).dram = s.dram := rfl
@[simp] theorem dram_modCore (s : State) (c : Nat) (f : CoreSt → CoreSt) : (s.modCore c f).dram = s.dram := rfl
@[simp] theorem dram_setGang (s : State) (c g : Nat) (x : Gang) : (s.setGang c g x).dram = s.dram := rfl
@[simp] theorem dram_modGang (s : State) (c g : Nat) (f : Gang → Gang) : (s.modGang c g f).dram = s.dram := rfl
@[simp] theorem dram_setMe (s : State) (x : Gang) : (s.setMe x).dram = s.dram := rfl
@[simp] theorem dram_modMe (s : State) (f : Gang → Gang) : (s.modMe f).dram = s.dram := rfl
@[simp] theorem dram_setCluster (s : State) (k : Nat) (x : Cluster) : (s.setCluster k x).dram = s.dram := rfl
@[simp] theorem dram_modCluster (s : State) (k : Nat) (f : Cluster → Cluster) : (s.modCluster k f).dram = s.dram := rfl
@[simp] theorem dram_setRegion (s : State) (r : Nat) (x : Region) : (s.setRegion r x).dram = s.dram := rfl
@[simp] theorem dram_modRegion (s : State) (r : Nat) (f : Region → Region) : (s.modRegion r f).dram = s.dram := rfl
@[simp] theorem dram_setWalker (s : State) (w : Nat) (x : Walker) : (s.setWalker w x).dram = s.dram := rfl
@[simp] theorem dram_setHub (s : State) (h : Nat) (x : Hub) : (s.setHub h x).dram = s.dram := rfl
@[simp] theorem dram_setLaunch (s : State) (l : Nat) (x : Launch) : (s.setLaunch l x).dram = s.dram := rfl
@[simp] theorem dram_setBlock (s : State) (b : Nat) (x : Block) : (s.setBlock b x).dram = s.dram := rfl
@[simp] theorem dram_modBlock (s : State) (b : Nat) (f : Block → Block) : (s.modBlock b f).dram = s.dram := rfl
@[simp] theorem focus_setCore (s : State) (c : Nat) (x : CoreSt) : (s.setCore c x).focus = s.focus := rfl
@[simp] theorem focus_modCore (s : State) (c : Nat) (f : CoreSt → CoreSt) : (s.modCore c f).focus = s.focus := rfl
@[simp] theorem focus_setGang (s : State) (c g : Nat) (x : Gang) : (s.setGang c g x).focus = s.focus := rfl
@[simp] theorem focus_modGang (s : State) (c g : Nat) (f : Gang → Gang) : (s.modGang c g f).focus = s.focus := rfl
@[simp] theorem focus_setMe (s : State) (x : Gang) : (s.setMe x).focus = s.focus := rfl
@[simp] theorem focus_modMe (s : State) (f : Gang → Gang) : (s.modMe f).focus = s.focus := rfl
@[simp] theorem focus_setCluster (s : State) (k : Nat) (x : Cluster) : (s.setCluster k x).focus = s.focus := rfl
@[simp] theorem focus_modCluster (s : State) (k : Nat) (f : Cluster → Cluster) : (s.modCluster k f).focus = s.focus := rfl
@[simp] theorem cores_setCluster (s : State) (k : Nat) (x : Cluster) : (s.setCluster k x).cores = s.cores := rfl
@[simp] theorem cores_setRegion (s : State) (r : Nat) (x : Region) : (s.setRegion r x).cores = s.cores := rfl
@[simp] theorem clusters_setCore (s : State) (c : Nat) (x : CoreSt) : (s.setCore c x).clusters = s.clusters := rfl
@[simp] theorem clusters_modCore (s : State) (c : Nat) (f : CoreSt → CoreSt) : (s.modCore c f).clusters = s.clusters := rfl
@[simp] theorem clusters_setGang (s : State) (c g : Nat) (x : Gang) : (s.setGang c g x).clusters = s.clusters := rfl
@[simp] theorem clusters_modMe (s : State) (f : Gang → Gang) : (s.modMe f).clusters = s.clusters := rfl
@[simp] theorem decks_setCore (s : State) (c : Nat) (x : CoreSt) : (s.setCore c x).decks = s.decks := rfl
@[simp] theorem decks_modCore (s : State) (c : Nat) (f : CoreSt → CoreSt) : (s.modCore c f).decks = s.decks := rfl
@[simp] theorem decks_setGang (s : State) (c g : Nat) (x : Gang) : (s.setGang c g x).decks = s.decks := rfl
@[simp] theorem decks_modGang (s : State) (c g : Nat) (f : Gang → Gang) : (s.modGang c g f).decks = s.decks := rfl
@[simp] theorem decks_setMe (s : State) (x : Gang) : (s.setMe x).decks = s.decks := rfl
@[simp] theorem decks_modMe (s : State) (f : Gang → Gang) : (s.modMe f).decks = s.decks := rfl
@[simp] theorem decks_setCluster (s : State) (k : Nat) (x : Cluster) : (s.setCluster k x).decks = s.decks := rfl
@[simp] theorem decks_modCluster (s : State) (k : Nat) (f : Cluster → Cluster) : (s.modCluster k f).decks = s.decks := rfl
@[simp] theorem decks_setRegion (s : State) (r : Nat) (x : Region) : (s.setRegion r x).decks = s.decks := rfl
@[simp] theorem pends_setCore (s : State) (c : Nat) (x : CoreSt) : (s.setCore c x).pends = s.pends := rfl
@[simp] theorem pends_modCore (s : State) (c : Nat) (f : CoreSt → CoreSt) : (s.modCore c f).pends = s.pends := rfl
@[simp] theorem pends_setGang (s : State) (c g : Nat) (x : Gang) : (s.setGang c g x).pends = s.pends := rfl
@[simp] theorem pends_modGang (s : State) (c g : Nat) (f : Gang → Gang) : (s.modGang c g f).pends = s.pends := rfl
@[simp] theorem pends_setMe (s : State) (x : Gang) : (s.setMe x).pends = s.pends := rfl
@[simp] theorem pends_modMe (s : State) (f : Gang → Gang) : (s.modMe f).pends = s.pends := rfl
@[simp] theorem pends_setCluster (s : State) (k : Nat) (x : Cluster) : (s.setCluster k x).pends = s.pends := rfl
@[simp] theorem pends_modCluster (s : State) (k : Nat) (f : Cluster → Cluster) : (s.modCluster k f).pends = s.pends := rfl
@[simp] theorem pends_setRegion (s : State) (r : Nat) (x : Region) : (s.setRegion r x).pends = s.pends := rfl
@[simp] theorem packets_setCore (s : State) (c : Nat) (x : CoreSt) : (s.setCore c x).packets = s.packets := rfl
@[simp] theorem packets_modCore (s : State) (c : Nat) (f : CoreSt → CoreSt) : (s.modCore c f).packets = s.packets := rfl
@[simp] theorem packets_setGang (s : State) (c g : Nat) (x : Gang) : (s.setGang c g x).packets = s.packets := rfl
@[simp] theorem packets_modGang (s : State) (c g : Nat) (f : Gang → Gang) : (s.modGang c g f).packets = s.packets := rfl
@[simp] theorem packets_setMe (s : State) (x : Gang) : (s.setMe x).packets = s.packets := rfl
@[simp] theorem packets_modMe (s : State) (f : Gang → Gang) : (s.modMe f).packets = s.packets := rfl
@[simp] theorem packets_setCluster (s : State) (k : Nat) (x : Cluster) : (s.setCluster k x).packets = s.packets := rfl
@[simp] theorem packets_modCluster (s : State) (k : Nat) (f : Cluster → Cluster) : (s.modCluster k f).packets = s.packets := rfl
@[simp] theorem packets_setRegion (s : State) (r : Nat) (x : Region) : (s.setRegion r x).packets = s.packets := rfl
@[simp] theorem msgs_setCore (s : State) (c : Nat) (x : CoreSt) : (s.setCore c x).msgs = s.msgs := rfl
@[simp] theorem msgs_modCore (s : State) (c : Nat) (f : CoreSt → CoreSt) : (s.modCore c f).msgs = s.msgs := rfl
@[simp] theorem msgs_setGang (s : State) (c g : Nat) (x : Gang) : (s.setGang c g x).msgs = s.msgs := rfl
@[simp] theorem msgs_modGang (s : State) (c g : Nat) (f : Gang → Gang) : (s.modGang c g f).msgs = s.msgs := rfl
@[simp] theorem msgs_setMe (s : State) (x : Gang) : (s.setMe x).msgs = s.msgs := rfl
@[simp] theorem msgs_modMe (s : State) (f : Gang → Gang) : (s.modMe f).msgs = s.msgs := rfl
@[simp] theorem msgs_setCluster (s : State) (k : Nat) (x : Cluster) : (s.setCluster k x).msgs = s.msgs := rfl
@[simp] theorem msgs_modCluster (s : State) (k : Nat) (f : Cluster → Cluster) : (s.modCluster k f).msgs = s.msgs := rfl
@[simp] theorem msgs_setRegion (s : State) (r : Nat) (x : Region) : (s.setRegion r x).msgs = s.msgs := rfl
@[simp] theorem raceFrom_setCore (s : State) (c : Nat) (x : CoreSt) : (s.setCore c x).raceFrom = s.raceFrom := rfl
@[simp] theorem raceFrom_modCore (s : State) (c : Nat) (f : CoreSt → CoreSt) : (s.modCore c f).raceFrom = s.raceFrom := rfl
@[simp] theorem raceFrom_setGang (s : State) (c g : Nat) (x : Gang) : (s.setGang c g x).raceFrom = s.raceFrom := rfl
@[simp] theorem raceFrom_modGang (s : State) (c g : Nat) (f : Gang → Gang) : (s.modGang c g f).raceFrom = s.raceFrom := rfl
@[simp] theorem raceFrom_modMe (s : State) (f : Gang → Gang) : (s.modMe f).raceFrom = s.raceFrom := rfl
@[simp] theorem raceFrom_setCluster (s : State) (k : Nat) (x : Cluster) : (s.setCluster k x).raceFrom = s.raceFrom := rfl
@[simp] theorem raceFrom_modCluster (s : State) (k : Nat) (f : Cluster → Cluster) : (s.modCluster k f).raceFrom = s.raceFrom := rfl
@[simp] theorem raceFrom_setRegion (s : State) (r : Nat) (x : Region) : (s.setRegion r x).raceFrom = s.raceFrom := rfl
@[simp] theorem govAt_setCore (s : State) (c : Nat) (x : CoreSt) : (s.setCore c x).govAt = s.govAt := rfl
@[simp] theorem govAt_modCore (s : State) (c : Nat) (f : CoreSt → CoreSt) : (s.modCore c f).govAt = s.govAt := rfl
@[simp] theorem govAt_setGang (s : State) (c g : Nat) (x : Gang) : (s.setGang c g x).govAt = s.govAt := rfl
@[simp] theorem govAt_modGang (s : State) (c g : Nat) (f : Gang → Gang) : (s.modGang c g f).govAt = s.govAt := rfl
@[simp] theorem govAt_modMe (s : State) (f : Gang → Gang) : (s.modMe f).govAt = s.govAt := rfl
@[simp] theorem govAt_setCluster (s : State) (k : Nat) (x : Cluster) : (s.setCluster k x).govAt = s.govAt := rfl
@[simp] theorem govAt_modCluster (s : State) (k : Nat) (f : Cluster → Cluster) : (s.modCluster k f).govAt = s.govAt := rfl
@[simp] theorem govAt_setRegion (s : State) (r : Nat) (x : Region) : (s.setRegion r x).govAt = s.govAt := rfl
@[simp] theorem freeCtr_setCore (s : State) (c : Nat) (x : CoreSt) : (s.setCore c x).freeCtr = s.freeCtr := rfl
@[simp] theorem freeCtr_modCore (s : State) (c : Nat) (f : CoreSt → CoreSt) : (s.modCore c f).freeCtr = s.freeCtr := rfl
@[simp] theorem freeCtr_setGang (s : State) (c g : Nat) (x : Gang) : (s.setGang c g x).freeCtr = s.freeCtr := rfl
@[simp] theorem freeCtr_modGang (s : State) (c g : Nat) (f : Gang → Gang) : (s.modGang c g f).freeCtr = s.freeCtr := rfl
@[simp] theorem freeCtr_modMe (s : State) (f : Gang → Gang) : (s.modMe f).freeCtr = s.freeCtr := rfl
@[simp] theorem freeCtr_setCluster (s : State) (k : Nat) (x : Cluster) : (s.setCluster k x).freeCtr = s.freeCtr := rfl
@[simp] theorem freeCtr_modCluster (s : State) (k : Nat) (f : Cluster → Cluster) : (s.modCluster k f).freeCtr = s.freeCtr := rfl
@[simp] theorem freeCtr_setRegion (s : State) (r : Nat) (x : Region) : (s.setRegion r x).freeCtr = s.freeCtr := rfl
@[simp] theorem sbReqs_setCore (s : State) (c : Nat) (x : CoreSt) : (s.setCore c x).sbReqs = s.sbReqs := rfl
@[simp] theorem sbReqs_modCore (s : State) (c : Nat) (f : CoreSt → CoreSt) : (s.modCore c f).sbReqs = s.sbReqs := rfl
@[simp] theorem sbReqs_setGang (s : State) (c g : Nat) (x : Gang) : (s.setGang c g x).sbReqs = s.sbReqs := rfl
@[simp] theorem sbReqs_modGang (s : State) (c g : Nat) (f : Gang → Gang) : (s.modGang c g f).sbReqs = s.sbReqs := rfl
@[simp] theorem sbReqs_modMe (s : State) (f : Gang → Gang) : (s.modMe f).sbReqs = s.sbReqs := rfl
@[simp] theorem sbReqs_setCluster (s : State) (k : Nat) (x : Cluster) : (s.setCluster k x).sbReqs = s.sbReqs := rfl
@[simp] theorem sbReqs_modCluster (s : State) (k : Nat) (f : Cluster → Cluster) : (s.modCluster k f).sbReqs = s.sbReqs := rfl
@[simp] theorem sbReqs_setRegion (s : State) (r : Nat) (x : Region) : (s.setRegion r x).sbReqs = s.sbReqs := rfl
@[simp] theorem homeBits_setCore (s : State) (c : Nat) (x : CoreSt) : (s.setCore c x).homeBits = s.homeBits := rfl
@[simp] theorem homeBits_modCore (s : State) (c : Nat) (f : CoreSt → CoreSt) : (s.modCore c f).homeBits = s.homeBits := rfl
@[simp] theorem homeBits_setGang (s : State) (c g : Nat) (x : Gang) : (s.setGang c g x).homeBits = s.homeBits := rfl
@[simp] theorem homeBits_modGang (s : State) (c g : Nat) (f : Gang → Gang) : (s.modGang c g f).homeBits = s.homeBits := rfl
@[simp] theorem homeBits_modMe (s : State) (f : Gang → Gang) : (s.modMe f).homeBits = s.homeBits := rfl
@[simp] theorem homeBits_setCluster (s : State) (k : Nat) (x : Cluster) : (s.setCluster k x).homeBits = s.homeBits := rfl
@[simp] theorem homeBits_modCluster (s : State) (k : Nat) (f : Cluster → Cluster) : (s.modCluster k f).homeBits = s.homeBits := rfl
@[simp] theorem homeBits_setRegion (s : State) (r : Nat) (x : Region) : (s.setRegion r x).homeBits = s.homeBits := rfl

/-! ## Entries of the routers' tables (R25, R26) -/

@[simp] theorem dram_readEntry (s : State) (r e : Nat) : (s.readEntry r e).dram = s.dram := by unfold State.readEntry; split <;> rfl
@[simp] theorem decks_readEntry (s : State) (r e : Nat) : (s.readEntry r e).decks = s.decks := by unfold State.readEntry; split <;> rfl
@[simp] theorem cores_readEntry (s : State) (r e : Nat) : (s.readEntry r e).cores = s.cores := by unfold State.readEntry; split <;> rfl
@[simp] theorem clusters_readEntry (s : State) (r e : Nat) : (s.readEntry r e).clusters = s.clusters := by unfold State.readEntry; split <;> rfl
@[simp] theorem focus_readEntry (s : State) (r e : Nat) : (s.readEntry r e).focus = s.focus := by unfold State.readEntry; split <;> rfl
@[simp] theorem pends_readEntry (s : State) (r e : Nat) : (s.readEntry r e).pends = s.pends := by unfold State.readEntry; split <;> rfl
@[simp] theorem packets_readEntry (s : State) (r e : Nat) : (s.readEntry r e).packets = s.packets := by unfold State.readEntry; split <;> rfl
@[simp] theorem badEntries_readEntry (s : State) (r e : Nat) : (s.readEntry r e).badEntries = s.badEntries := by unfold State.readEntry; split <;> rfl
@[simp] theorem mgmt_readEntry (s : State) (r e : Nat) : (s.readEntry r e).mgmt = s.mgmt := by unfold State.readEntry; split <;> rfl
@[simp] theorem dram_strike (s : State) (r e : Nat) : (s.strike r e).dram = s.dram := by
  unfold State.strike; split <;> [rfl; split <;> rfl]
@[simp] theorem decks_strike (s : State) (r e : Nat) : (s.strike r e).decks = s.decks := by
  unfold State.strike; split <;> [rfl; split <;> rfl]
@[simp] theorem cores_strike (s : State) (r e : Nat) : (s.strike r e).cores = s.cores := by
  unfold State.strike; split <;> [rfl; split <;> rfl]
@[simp] theorem clusters_strike (s : State) (r e : Nat) : (s.strike r e).clusters = s.clusters := by
  unfold State.strike; split <;> [rfl; split <;> rfl]
@[simp] theorem focus_strike (s : State) (r e : Nat) : (s.strike r e).focus = s.focus := by
  unfold State.strike; split <;> [rfl; split <;> rfl]
@[simp] theorem pends_strike (s : State) (r e : Nat) : (s.strike r e).pends = s.pends := by
  unfold State.strike; split <;> [rfl; split <;> rfl]
@[simp] theorem packets_strike (s : State) (r e : Nat) : (s.strike r e).packets = s.packets := by
  unfold State.strike; split <;> [rfl; split <;> rfl]
@[simp] theorem eccFixed_strike (s : State) (r e : Nat) : (s.strike r e).eccFixed = s.eccFixed := by
  unfold State.strike; split <;> [rfl; split <;> rfl]
/-- What a router reads is correct afterwards. -/
theorem softEntries_readEntry (s : State) (r e : Nat) : (r, e) ∉ (s.readEntry r e).softEntries := by
  unfold State.readEntry
  split <;> rename_i h
  · simp
  · simpa using h
/-- An entry with no error is only read. -/
theorem readEntry_of_sound (s : State) (r e : Nat) (h : (r, e) ∉ s.softEntries) : s.readEntry r e = s := by
  simp [State.readEntry, h]
/-- An entry never has both one flipped bit and an uncorrectable error, if none had. -/
theorem strike_disjoint (s : State) (r e : Nat) (h : ∀ p ∈ s.softEntries, p ∉ s.badEntries) :
    ∀ p ∈ (s.strike r e).softEntries, p ∉ (s.strike r e).badEntries := by
  unfold State.strike
  intro p hp
  split at hp <;> rename_i h1
  · rw [if_pos h1]; exact h p hp
  · rw [if_neg h1]
    split at hp <;> rename_i h2
    · rw [if_pos h2]
      simp only [List.mem_filter, bne_iff_ne, ne_eq] at hp
      simpa using ⟨h p hp.1, hp.2⟩
    · rw [if_neg h2]
      simp only [List.mem_append, List.mem_singleton] at hp
      rcases hp with hp | rfl
      · exact h p hp
      · simpa using fun hb => h1 (.inr (.inr (by simpa using hb)))

/-! ## Registers of a gang -/

theorem sreg_setS (g : Gang) (n m : Nat) (v : DWord) : (g.setS n v).sreg m = if m = n ∧ n ≠ 0 then v else g.sreg m := by
  unfold Gang.setS Gang.sreg
  by_cases hn : n = 0
  · simp [hn]
  · by_cases hm : m = 0
    · simp [hn, hm, Ne.symm hn]
    · simp [hn, hm, SMap.get_put]
@[simp] theorem sreg_zero (g : Gang) : g.sreg 0 = 0 := rfl
@[simp] theorem mreg_setS (g : Gang) (n m : Nat) (v : DWord) : (g.setS n v).mreg m = g.mreg m := by
  unfold Gang.setS; split <;> rfl
@[simp] theorem vreg_setS (g : Gang) (n r j : Nat) (v : DWord) : (g.setS n v).vreg r j = g.vreg r j := by
  unfold Gang.setS; split <;> rfl
@[simp] theorem others_setS (g : Gang) (n : Nat) (v : DWord) : (g.setS n v).others = g.others := by
  unfold Gang.setS; split <;> rfl
@[simp] theorem rcp_setS (g : Gang) (n : Nat) (v : DWord) : (g.setS n v).rcp = g.rcp := by unfold Gang.setS; split <;> rfl
@[simp] theorem lanes_setS (g : Gang) (n : Nat) (v : DWord) : (g.setS n v).lanes = g.lanes := by unfold Gang.setS; split <;> rfl
@[simp] theorem sreg_setM (g : Gang) (n m : Nat) (v : Mask) : (g.setM n v).sreg m = g.sreg m := rfl
@[simp] theorem vreg_setM (g : Gang) (n r j : Nat) (v : Mask) : (g.setM n v).vreg r j = g.vreg r j := rfl
theorem mreg_setM (g : Gang) (n m : Nat) (v : Mask) : (g.setM n v).mreg m = if m = n then v &&& g.gwMask else g.mreg m := by
  simp [Gang.setM, Gang.mreg, SMap.get_put]
@[simp] theorem others_setM (g : Gang) (n : Nat) (v : Mask) : (g.setM n v).others = g.others := rfl
@[simp] theorem rcp_setM (g : Gang) (n : Nat) (v : Mask) : (g.setM n v).rcp = g.rcp := rfl
@[simp] theorem lanes_setM (g : Gang) (n : Nat) (v : Mask) : (g.setM n v).lanes = g.lanes := rfl
@[simp] theorem sreg_setV (g : Gang) (l : List (Nat × Nat × Nat)) (m : Nat) : (g.setV l).sreg m = g.sreg m := rfl
@[simp] theorem mreg_setV (g : Gang) (l : List (Nat × Nat × Nat)) (m : Nat) : (g.setV l).mreg m = g.mreg m := rfl
@[simp] theorem others_setV (g : Gang) (l : List (Nat × Nat × Nat)) : (g.setV l).others = g.others := rfl
@[simp] theorem rcp_setV (g : Gang) (l : List (Nat × Nat × Nat)) : (g.setV l).rcp = g.rcp := rfl
@[simp] theorem lanes_setV (g : Gang) (l : List (Nat × Nat × Nat)) : (g.setV l).lanes = g.lanes := rfl

/-- A register of a lane that the list does not write keeps its value. -/
theorem vreg_setV_other (g : Gang) (l : List (Nat × Nat × Nat)) (r j : Nat) (hj : j < 64) (hl : ∀ p ∈ l, p.2.1 < 64)
    (h : ∀ p ∈ l, ¬ (p.1 = r ∧ p.2.1 = j)) : (g.setV l).vreg r j = g.vreg r j := by
  unfold Gang.setV Gang.vreg
  apply SMap.get_putAll_other
  intro p hp
  obtain ⟨q, hq, rfl⟩ := List.mem_map.mp hp
  have h1 := hl q hq
  have h2 := h q hq
  intro e
  simp only at e
  exact h2 ⟨by omega, by omega⟩

/-- A register of a lane that the list writes with one value takes it. -/
theorem vreg_setV_of (g : Gang) (l : List (Nat × Nat × Nat)) (r j x : Nat) (hj : j < 64) (hl : ∀ p ∈ l, p.2.1 < 64)
    (hm : ∃ p ∈ l, p.1 = r ∧ p.2.1 = j) (hx : ∀ p ∈ l, p.1 = r → p.2.1 = j → p.2.2 = x) :
    (g.setV l).vreg r j = BitVec.ofNat 32 x := by
  unfold Gang.setV Gang.vreg
  apply SMap.get_putAll_of
  · obtain ⟨p, hp, h1, h2⟩ := hm
    exact ⟨_, List.mem_map.mpr ⟨p, hp, rfl⟩, by simp only; omega⟩
  · intro p hp e
    obtain ⟨q, hq, rfl⟩ := List.mem_map.mp hp
    have h1 := hl q hq
    simp only at e
    rw [hx q hq (by omega) (by omega)]

end Sys2Proof.Machine
end

