-- ==== Sys2Proof/Laws/Issue.lean ====
section
/-! SUPPORT. What issuing an instruction comes to (R271, R272): its effect, where nothing stops it. -/

namespace Sys2Proof.Machine

/-- Noting a replay changes nothing but the note. -/
theorem markReplay_eq (s : State) (l : List Nat) : ∃ b, s.markReplay l = { s with focus := { s.focus with replayed := b } } := by
  unfold State.markReplay
  split
  · exact ⟨true, rfl⟩
  · exact ⟨s.focus.replayed, rfl⟩

theorem markReplay_rowsReady (s : State) (l ns : List Nat) :
    (s.markReplay l).rowsReady (s.markReplay l).focus.core (s.markReplay l).focus.slot ns (s.markReplay l).focus.lanes =
      s.rowsReady s.focus.core s.focus.slot ns s.focus.lanes := by
  obtain ⟨b, h⟩ := markReplay_eq s l
  rw [h]
  rfl

theorem markReplay_ecc (s : State) (l : List Nat) : (s.markReplay l).me.ecc = s.me.ecc := by
  obtain ⟨b, h⟩ := markReplay_eq s l
  rw [h]
  rfl

/-- Sources in order and no cause of its own: an instruction meets no cause of stage 1. -/
theorem firstCauses_nil {s : State} {f : Fields} {p : Plan} {ex : Mask} (hl : s.lostCauses f ex = []) (hf : p.first ex = []) :
    s.firstCauses f p ex = [] := by
  simp [State.firstCauses, hl, hf, Causes.merge]

/-- Constants that can be read and checks that pass: it meets no later one. -/
theorem laterCauses_nil {s : State} {f : Fields} {p : Plan} {ex : Mask} (hk : s.konstCauses f ex = []) (hc : p.checks ex = []) :
    s.laterCauses f p ex = [] := by
  simp [State.laterCauses, hk, hc]

/-- Nothing keeps such an instruction from issuing where it needs no order and no resource. -/
theorem waitsFirst_none {s : State} {f : Fields} {p : Plan} {ex : Mask} (hfirst : s.firstCauses f p ex = []) (hw : s.konstWaits f = false)
    (hk : s.konstCauses f ex = []) (hneed : p.need = none) (hstall : p.stall ex = false) (hhold : p.hold ex = none) :
    s.waitsFirst f p ex = none := by
  simp [State.waitsFirst, hfirst, hw, hk, hneed, hstall, hhold]

/-- Where nothing stops an instruction, issuing it is its effect on the state its operands are read in. -/
theorem issue_effect {s : State} {i : Instr} {f : Fields} {sp : OpSpec} {p : Plan} {body : State → Mask → Mask → Out}
    (henc : s.encCauses sp f p.enc = []) (hex : s.execLanes f ≠ 0) (hh : s.handlerFault sp f = false)
    (hb : s.pendBusy sp f (s.srcRegs sp f ++ p.reads ++ p.vs) p.ss = false) (hm : s.me.matrixHolds p.vs = false)
    (hfirst : s.firstCauses f p (s.execLanes f) = []) (hlater : s.laterCauses f p (s.execLanes f) = [])
    (hwait : s.waitsFirst f p (s.execLanes f) = none)
    (hrep : s.replayFault s.focus.core s.me (s.srcRegs sp f ++ p.reads ++
      (s.me.touched p.vs p.ss ++ p.mat.filterMap s.me.droppedAs).map fun n => (s.me.recipe n).treg.toNat) = none)
    (hrow : s.rowsReady s.focus.core s.focus.slot (s.me.touched p.vs p.ss ++ p.mat.filterMap s.me.droppedAs) s.focus.lanes = true)
    (hecc : s.me.ecc = none) :
    s.issue i f sp p body =
      body ((s.markReplay (s.srcRegs sp f ++ p.reads)).readied f p.vs p.ss p.mat) (s.execLanes f) (s.zeroLanes f) := by
  simp only [State.issue, henc, hex, hh, hb, hm, hwait, hrep, State.ownCauses, hfirst, hlater, markReplay_rowsReady, hrow, markReplay_ecc, hecc]
  simp

/-- Where nothing stops an instruction, running it is its effect on the state its operands are read in. -/
theorem run_effect {s : State} {i : Instr} {f : Fields} {sp : OpSpec} {p : OpSpec → Plan} {body : OpSpec → State → Mask → Mask → Out}
    (hsp : opSpec i = some sp) (h : s.issues sp f (p sp).reads (p sp).vs (p sp).ss (p sp).mat = true) (henc : (p sp).enc = [])
    (hfirst : (p sp).first (s.execLanes f) = []) (hstall : (p sp).stall (s.execLanes f) = false)
    (hhold : (p sp).hold (s.execLanes f) = none) (hneed : (p sp).need = none) (hidle : (p sp).idle = false)
    (hchk : (p sp).checks (s.execLanes f) = []) :
    s.run i f p body = body sp (s.operands sp f (p sp).reads (p sp).vs (p sp).ss (p sp).mat) (s.execLanes f) (s.zeroLanes f) := by
  simp only [State.issues, Bool.and_eq_true, List.isEmpty_iff, bne_iff_ne, ne_eq, Bool.not_eq_true', Option.isNone_iff_eq_none] at h
  obtain ⟨⟨⟨⟨⟨⟨⟨⟨⟨⟨h1, h2⟩, h3⟩, h4⟩, h5⟩, h6⟩, hw⟩, hk⟩, h7⟩, h8⟩, he⟩ := h
  have hvs : (p sp).vs ++ (if (p sp).idle then [] else s.dstRegs sp f) = (p sp).vs ++ s.dstRegs sp f := by simp [hidle]
  simp only [State.run, hsp]
  rw [hvs]
  have hf0 := firstCauses_nil (p := { p sp with vs := (p sp).vs ++ s.dstRegs sp f, ss := (p sp).ss ++ scaDst sp f }) h6 hfirst
  exact issue_effect (by rw [henc]; exact h1) h2 h3 h4 h5 hf0 (laterCauses_nil hk hchk) (waitsFirst_none hf0 hw hk hneed hstall hhold) h7 h8 he

/-- The same for an instruction with no checks of its own. -/
theorem run_plain {s : State} {i : Instr} {f : Fields} {sp : OpSpec} {body : OpSpec → State → Mask → Mask → Out}
    (hsp : opSpec i = some sp) (h : s.issuesPlain sp f = true) :
    s.run i f (fun _ => {}) body = body sp (s.plainOperands sp f) (s.execLanes f) (s.zeroLanes f) :=
  run_effect (p := fun _ => {}) hsp h rfl rfl rfl rfl rfl rfl rfl

end Sys2Proof.Machine
end

