-- ==== Sys2Proof/Laws/Results.lean ====
section
/-! SUPPORT. What writing a result and moving on change, and what they leave. -/

namespace Sys2Proof.Machine

/-! ## Comparing states -/

theorem State.SameElsewhere.refl (s : State) : s.SameElsewhere s := ⟨rfl, fun _ _ => rfl, rfl, fun _ _ => rfl, fun _ _ => rfl⟩

theorem State.SameMemory.refl (s : State) : s.SameMemory s :=
  ⟨rfl, rfl, fun _ => rfl, fun _ => rfl, rfl, fun _ => rfl, fun _ => rfl, fun _ => rfl⟩

theorem State.SameMemory.trans {s t u : State} (h : s.SameMemory t) (k : t.SameMemory u) : s.SameMemory u :=
  ⟨k.dram.trans h.dram, k.homeBits.trans h.homeBits, fun c => (k.spad c).trans (h.spad c), fun c => (k.spadFE c).trans (h.spadFE c),
   k.decks.trans h.decks, fun c => (k.am c).trans (h.am c), fun c => (k.l1 c).trans (h.l1 c),
   fun q => (k.clusters q).trans (h.clusters q)⟩

/-- The same gang is under way. -/
structure State.SameFocus (s t : State) : Prop where
  core : t.focus.core = s.focus.core
  slot : t.focus.slot = s.focus.slot
  lanes : t.focus.lanes = s.focus.lanes

theorem sameFocus_of_eq {s t : State} (h : t.focus = s.focus) : s.SameFocus t := by constructor <;> rw [h]

/-- A further change of the issuing core adds nothing elsewhere. -/
theorem State.SameElsewhere.trans {s t u : State} (h : s.SameElsewhere t) (f : s.SameFocus t) (k : t.SameElsewhere u) :
    s.SameElsewhere u := by
  obtain ⟨k1, k2, k3, k4, k5⟩ := k
  rw [f.core] at k2 k3 k4 k5
  rw [f.slot] at k4 k5
  exact ⟨k1.trans h.rest, fun c q => (k2 c q).trans (h.cores c q), k3.trans h.core, fun g q => (k4 g q).trans (h.gangs g q),
    fun i q => (k5 i q).trans (h.latches i q)⟩

theorem State.WritesOnly.trans {s t u : State} {a b d a' b' d' : Nat → Prop} (h : s.WritesOnly t a b d) (f : s.SameFocus t)
    (k : t.WritesOnly u a' b' d') : s.WritesOnly u (fun n => a n ∨ a' n) (fun n => b n ∨ b' n) fun n => d n ∨ d' n := by
  obtain ⟨k1, k2, k3, k4, k5, k6, k7, k8⟩ := k
  simp only [State.mine, State.me, f.core, f.slot] at k3 k4 k5 k6 k7 k8
  rw [f.lanes] at k8
  exact ⟨h.elsewhere.trans f k1, h.memory.trans k2, k3.trans h.others, k4.trans h.recipes,
    fun n hn => (k5 n fun q => hn (.inr q)).trans (h.scalars n fun q => hn (.inl q)),
    fun n hn => (k6 n fun q => hn (.inr q)).trans (h.masks n fun q => hn (.inl q)),
    fun r j hj hn => (k7 r j hj fun q => hn (.inr q)).trans (h.vectors r j hj fun q => hn (.inl q)),
    fun j hj => (k8 j hj).trans (h.lanes j hj)⟩

theorem State.WritesOnly.mono {s t : State} {a b d a' b' d' : Nat → Prop} (h : s.WritesOnly t a b d) (ha : ∀ n, a n → a' n)
    (hb : ∀ n, b n → b' n) (hd : ∀ n, d n → d' n) : s.WritesOnly t a' b' d' :=
  ⟨h.elsewhere, h.memory, h.others, h.recipes, fun n hn => h.scalars n fun q => hn (ha n q), fun n hn => h.masks n fun q => hn (hb n q),
    fun r j hj hn => h.vectors r j hj fun q => hn (hd r q), h.lanes⟩

/-- A frame after a step that writes no register. -/
theorem State.WritesOnly.after {s t u : State} {a b d : Nat → Prop} (h : s.WritesOnly t a b d) (f : s.SameFocus t)
    (k : t.WritesOnly u noReg noReg noReg) : s.WritesOnly u a b d :=
  (h.trans f k).mono (by rintro n (q | q); exacts [q, q.elim]) (by rintro n (q | q); exacts [q, q.elim])
    (by rintro n (q | q); exacts [q, q.elim])

/-- A frame before which no register was written. -/
theorem State.WritesOnly.before {s t u : State} {a b d : Nat → Prop} (h : s.WritesOnly t noReg noReg noReg) (f : s.SameFocus t)
    (k : t.WritesOnly u a b d) : s.WritesOnly u a b d :=
  (h.trans f k).mono (by rintro n (q | q); exacts [q.elim, q]) (by rintro n (q | q); exacts [q.elim, q])
    (by rintro n (q | q); exacts [q.elim, q])

/-! ## Updates of the gang under way -/

@[simp] theorem me_modMe (s : State) (f : Gang → Gang) : (s.modMe f).gang s.focus.core s.focus.slot = f s.me := by
  simp [State.modMe, State.setMe]

theorem core_modMe_other (s : State) (f : Gang → Gang) {c : Nat} (h : c ≠ s.focus.core) : (s.modMe f).core c = s.core c :=
  core_modCore_other _ _ h

theorem others_core_modMe (s : State) (f : Gang → Gang) (c : Nat) :
    ∃ x, (s.modMe f).core c = { s.core c with gangs := x } := by
  by_cases h : c = s.focus.core
  · subst h; exact ⟨_, by simp [State.modMe, State.setMe, State.setGang]; rfl⟩
  · exact ⟨(s.core c).gangs, by rw [core_modMe_other _ _ h]⟩

theorem sameElsewhere_modMe (s : State) (f : Gang → Gang) : s.SameElsewhere (s.modMe f) := by
  obtain ⟨x, hx⟩ := others_core_modMe s f s.focus.core
  refine ⟨rfl, fun c h => core_modMe_other _ _ h, ?_, fun g h => gang_setGang_slot _ _ _ h, fun i _ => ?_⟩ <;> rw [hx] <;> rfl

theorem sameMemory_modMe (s : State) (f : Gang → Gang) : s.SameMemory (s.modMe f) := by
  refine ⟨rfl, rfl, fun c => ?_, fun c => ?_, rfl, fun c => ?_, fun c => ?_, fun _ => rfl⟩ <;>
    obtain ⟨x, hx⟩ := others_core_modMe s f c <;> rw [hx]

theorem latches_modMe (s : State) (f : Gang → Gang) (c : Nat) : ((s.modMe f).core c).latches = (s.core c).latches := by
  obtain ⟨x, hx⟩ := others_core_modMe s f c
  rw [hx]

/-- The frame of an update of registers of the gang under way. -/
theorem modMe_writesOnly {s : State} {f : Gang → Gang} {a b d : Nat → Prop} (h1 : (f s.me).others = s.me.others)
    (h2 : (f s.me).rcp = s.me.rcp) (h3 : ∀ n, ¬ a n → (f s.me).sreg n = s.me.sreg n) (h4 : ∀ n, ¬ b n → (f s.me).mreg n = s.me.mreg n)
    (h5 : ∀ r j, j < 64 → ¬ d r → (f s.me).vreg r j = s.me.vreg r j)
    (h6 : ∀ j, s.focus.lanes.getLsbD j = false → (f s.me).lane j = s.me.lane j) : s.WritesOnly (s.modMe f) a b d := by
  refine ⟨sameElsewhere_modMe _ _, sameMemory_modMe _ _, ?_, ?_, fun n q => ?_, fun n q => ?_, fun r j hj q => ?_, fun j q => ?_⟩ <;>
    rw [State.mine, me_modMe]
  exacts [h1, h2, h3 n q, h4 n q, h5 r j hj q, h6 j q]

/-! ## Latches -/

theorem core_setLatch_other (s : State) (l : Nat) (v : List (Nat × DWord)) (x : Option DWord) {c : Nat} (h : c ≠ s.focus.core) :
    (s.setLatch l v x).core c = s.core c := core_modCore_other _ _ h

theorem core_setLatch (s : State) (l : Nat) (v : List (Nat × DWord)) (x : Option DWord) (c : Nat) :
    ∃ y, (s.setLatch l v x).core c = { s.core c with latches := y } := by
  by_cases h : c = s.focus.core
  · subst h; exact ⟨_, by simp [State.setLatch]; rfl⟩
  · exact ⟨(s.core c).latches, by rw [core_setLatch_other _ _ _ _ h]⟩

@[simp] theorem gang_setLatch (s : State) (l : Nat) (v : List (Nat × DWord)) (x : Option DWord) (c g : Nat) :
    (s.setLatch l v x).gang c g = s.gang c g := by
  obtain ⟨y, hy⟩ := core_setLatch s l v x c
  unfold State.gang
  rw [hy]

@[simp] theorem focus_setLatch (s : State) (l : Nat) (v : List (Nat × DWord)) (x : Option DWord) : (s.setLatch l v x).focus = s.focus := rfl
@[simp] theorem me_setLatch (s : State) (l : Nat) (v : List (Nat × DWord)) (x : Option DWord) : (s.setLatch l v x).me = s.me :=
  gang_setLatch ..

theorem setLatch_writesOnly (s : State) (l : Nat) (v : List (Nat × DWord)) (x : Option DWord) :
    s.WritesOnly (s.setLatch l v x) noReg noReg noReg := by
  refine ⟨⟨rfl, fun c h => core_setLatch_other _ _ _ _ h, ?_, fun g _ => gang_setLatch .., fun i h => ?_⟩,
    ⟨rfl, rfl, fun c => ?_, fun c => ?_, rfl, fun c => ?_, fun c => ?_, fun _ => rfl⟩, ?_, ?_, fun n _ => ?_, fun n _ => ?_,
    fun q j _ _ => ?_, fun j _ => ?_⟩
  · obtain ⟨y, hy⟩ := core_setLatch s l v x s.focus.core
    rw [hy]; rfl
  · simp [State.setLatch, SMap.get_put_other _ _ _ h]
  all_goals first
    | (obtain ⟨y, hy⟩ := core_setLatch s l v x c; rw [hy])
    | (rw [State.mine, gang_setLatch]; rfl)

theorem latch_owner (s : State) (l : Nat) (v : List (Nat × DWord)) (x : Option DWord) :
    (s.myLatches (s.setLatch l v x)).owner.get none l = some s.focus.slot := by
  simp [State.myLatches, State.setLatch]

theorem latch_scalar (s : State) (l : Nat) (v : List (Nat × DWord)) (x : DWord) :
    (s.myLatches (s.setLatch l v (some x))).sca.get 0 l = x := by
  simp [State.myLatches, State.setLatch]

theorem latch_vector (s : State) (l : Nat) (v : List (Nat × DWord)) (x : Option DWord) :
    (s.myLatches (s.setLatch l v x)).vec =
      ((s.core s.focus.core).latches.get {} (latchIdx s.focus.slot)).vec.putAll (v.map fun p => (64 * l + p.1, p.2)) := by
  simp [State.myLatches, State.setLatch]

/-! ## Moving on -/

@[simp] theorem focus_issued (s : State) : s.issued.focus = { s.focus with done := true } := rfl
@[simp] theorem me_issued (s : State) : s.issued.me = s.me := rfl
@[simp] theorem core_issued (s : State) (c : Nat) : s.issued.core c = s.core c := rfl

theorem issued_writesOnly (s : State) : s.WritesOnly s.issued noReg noReg noReg :=
  ⟨⟨rfl, fun _ _ => rfl, rfl, fun _ _ => rfl, fun _ _ => rfl⟩,
   ⟨rfl, rfl, fun _ => rfl, fun _ => rfl, rfl, fun _ => rfl, fun _ => rfl, fun _ => rfl⟩,
   rfl, rfl, fun _ _ => rfl, fun _ _ => rfl, fun _ _ _ _ => rfl, fun _ _ => rfl⟩

@[simp] theorem focus_popReplay (s : State) : s.popReplay.focus = s.focus := by unfold State.popReplay; split <;> rfl

/-- The gang under way after its replay entry is popped. -/
theorem me_popReplay (s : State) : ∃ r, s.popReplay.me = { s.me with replay := r } := by
  unfold State.me
  rw [focus_popReplay]
  unfold State.popReplay
  split
  · exact ⟨_, me_modMe _ _⟩
  · exact ⟨_, rfl⟩

theorem latches_popReplay (s : State) (c : Nat) : (s.popReplay.core c).latches = (s.core c).latches := by
  unfold State.popReplay
  split
  · exact latches_modMe _ _ _
  · rfl

theorem popReplay_writesOnly (s : State) : s.WritesOnly s.popReplay noReg noReg noReg := by
  obtain ⟨r, hr⟩ := me_popReplay s
  unfold State.popReplay
  split
  · exact modMe_writesOnly rfl rfl (fun _ _ => rfl) (fun _ _ => rfl) (fun _ _ _ _ => rfl) fun _ _ => rfl
  · exact ⟨.refl s, .refl s, rfl, rfl, fun _ _ => rfl, fun _ _ => rfl, fun _ _ _ _ => rfl, fun _ _ => rfl⟩

/-- The control state of the lanes that move on. -/
def nextLanes (s : State) (next : Nat → DWord × Nat) : SMap LaneSt :=
  s.me.lanes.putAll ((lanesOf s.focus.lanes).map fun j =>
    (j, { s.me.lane j with pc := (next j).1, stamp := (s.me.lane j).stamp + BitVec.ofNat 32 (next j).2 }))

theorem nextLanes_out (s : State) (next : Nat → DWord × Nat) (j : Nat) (h : s.focus.lanes.getLsbD j = false) :
    (nextLanes s next).get {} j = s.me.lane j := by
  apply SMap.get_putAll_other
  intro p hp e
  obtain ⟨i, hi, rfl⟩ := List.mem_map.mp hp
  have := (mem_lanesOf.mp hi).2
  simp only at e
  rw [e, h] at this
  exact absurd this (by decide)

theorem nextLanes_in (s : State) (next : Nat → DWord × Nat) (j : Nat) (hj : j < 64) (h : s.focus.lanes.getLsbD j = true) :
    (nextLanes s next).get {} j =
      { s.me.lane j with pc := (next j).1, stamp := (s.me.lane j).stamp + BitVec.ofNat 32 (next j).2 } :=
  SMap.get_putAll_map _ _ _ (fun i => i) _ j (mem_lanesOf.mpr ⟨hj, h⟩) fun i _ e => by rw [show i = j from e]

/-- The gang under way after it moved on. -/
theorem me_moveOn (s : State) (next : Nat → DWord × Nat) :
    ∃ r w, s.mine (s.moveOn next) = { s.me with replay := r, waits := w, lanes := nextLanes s next } := by
  obtain ⟨r, hr⟩ := me_popReplay s
  refine ⟨r, s.me.waits.filter fun w => w.lanes &&& s.focus.lanes == 0, ?_⟩
  have h := me_modMe s.popReplay.issued fun g =>
    { g with
      waits := g.waits.filter fun w => w.lanes &&& s.focus.lanes == 0
      lanes := g.lanes.putAll ((lanesOf s.focus.lanes).map fun j =>
        (j, { g.lane j with pc := (next j).1, stamp := (g.lane j).stamp + BitVec.ofNat 32 (next j).2 })) }
  simp only [focus_issued, focus_popReplay, me_issued, hr] at h
  unfold State.moveOn
  simp only [focus_issued, focus_popReplay]
  exact h

@[simp] theorem focus_moveOn (s : State) (next : Nat → DWord × Nat) : (s.moveOn next).focus = { s.focus with done := true } := by
  simp [State.moveOn]

theorem latches_moveOn (s : State) (next : Nat → DWord × Nat) (c : Nat) : ((s.moveOn next).core c).latches = (s.core c).latches := by
  rw [← latches_popReplay s c]
  exact latches_modMe s.popReplay.issued _ c

/-- The frame of moving on. -/
theorem moveOn_writesOnly (s : State) (next : Nat → DWord × Nat) : s.WritesOnly (s.moveOn next) noReg noReg noReg := by
  obtain ⟨r, w, h⟩ := me_moveOn s next
  have hp := (popReplay_writesOnly s).after (sameFocus_of_eq (focus_popReplay s)) (issued_writesOnly _)
  have hf : s.SameFocus s.popReplay.issued := by constructor <;> simp
  exact ⟨hp.elsewhere.trans hf (by unfold State.moveOn; exact sameElsewhere_modMe _ _),
    hp.memory.trans (by unfold State.moveOn; exact sameMemory_modMe _ _), by rw [h]; rfl, by rw [h],
    fun n _ => by rw [h]; rfl, fun n _ => by rw [h]; rfl, fun q j _ _ => by rw [h]; rfl,
    fun j hj => by rw [h]; exact nextLanes_out s next j hj⟩

theorem finish_movedOn (s : State) : s.MovedOn s.finish := by
  obtain ⟨r, w, h⟩ := me_moveOn s fun _ => (s.pcNext, 0)
  have e (j : Nat) (hj : j < 64) (hl : s.focus.lanes.getLsbD j = true) := nextLanes_in s (fun _ => (s.pcNext, 0)) j hj hl
  refine ⟨by simp [State.finish], fun j hj hl => ?_, fun j hj hl => ?_⟩ <;> rw [State.finish, h, Gang.lane, e j hj hl]
  · rfl
  · simp

/-- Moving on after register writes that left the lanes alone. -/
theorem movedOn_after {s t : State} (hf : t.focus = s.focus) (hl : t.me.lanes = s.me.lanes) : s.MovedOn t.finish := by
  have h := finish_movedOn t
  refine ⟨h.done, fun j hj q => ?_, fun j hj q => ?_⟩
  · have := h.pc j hj (by rw [hf]; exact q)
    simpa only [State.mine, hf] using this
  · have := h.stamp j hj (by rw [hf]; exact q)
    simp only [State.mine, hf] at this
    rw [State.mine, this]
    simp [Gang.lane, hl]

/-! ## Scalar results -/

theorem focus_wrS (s : State) (f : Fields) (v : DWord) : (s.wrS f v).focus = s.focus := by
  unfold State.wrS; simp only; split <;> rfl

theorem me_wrS (s : State) (f : Fields) (v : DWord) : (s.wrS f v).me = if f.nwb then s.me else s.me.setS f.dst.toNat v := by
  unfold State.me
  rw [focus_wrS]
  unfold State.wrS
  simp only
  split
  · exact gang_setLatch ..
  · have := me_modMe (s.setLatch f.lat.toNat [] (some v)) fun g => g.setS f.dst.toNat v
    rwa [me_setLatch] at this

theorem wrS_writesOnly (s : State) (f : Fields) (v : DWord) : s.WritesOnly (s.wrS f v) (scalDst f) noReg noReg := by
  have h := setLatch_writesOnly s f.lat.toNat [] (some v)
  unfold State.wrS
  cases hn : f.nwb with
  | true => simpa using h.mono (fun _ q => q.elim) (fun _ q => q) fun _ q => q
  | false =>
    simp only [Bool.false_eq_true, if_false]
    refine h.before (sameFocus_of_eq rfl) (modMe_writesOnly (by simp) (by simp) (fun n q => ?_) (by simp) (by simp) (by simp [Gang.lane]))
    rw [sreg_setS, if_neg]
    rintro ⟨e, -⟩
    exact q ⟨hn, e⟩

/-- A scalar result written and the group moved on. -/
theorem scalar_done (s : State) (f : Fields) (v : DWord) :
    s.WritesOnly (s.wrS f v).finish (scalDst f) noReg noReg ∧ s.ScalarResult (s.wrS f v).finish f v ∧ s.MovedOn (s.wrS f v).finish := by
  have hf := focus_wrS s f v
  have hm := me_wrS s f v
  obtain ⟨r, w, h⟩ := me_moveOn (s.wrS f v) fun _ => ((s.wrS f v).pcNext, 0)
  simp only [State.mine, hf] at h
  have hl := latches_moveOn (s.wrS f v) (fun _ => ((s.wrS f v).pcNext, 0)) s.focus.core
  have hs : ∃ u, s.wrS f v = u ∧ (u.core s.focus.core).latches = ((s.setLatch f.lat.toNat [] (some v)).core s.focus.core).latches := by
    refine ⟨_, rfl, ?_⟩
    unfold State.wrS
    simp only
    split
    · rfl
    · exact latches_modMe ..
  obtain ⟨u, rfl, hu⟩ := hs
  refine ⟨(wrS_writesOnly s f v).after (sameFocus_of_eq hf) (moveOn_writesOnly _ _), ⟨fun hn hd => ?_, rfl, ?_, ?_⟩,
    movedOn_after hf ?_⟩
  · show (State.gang _ _ _).sreg _ = _
    rw [State.finish, h]
    show (s.wrS f v).me.sreg _ = _
    rw [hm, if_neg (by simp [hn]), sreg_setS, if_pos ⟨rfl, hd⟩]
  · rw [State.myLatches, State.finish, hl, hu]; exact latch_scalar ..
  · rw [State.myLatches, State.finish, hl, hu]; exact latch_owner ..
  · rw [hm]; split <;> simp

/-! ## Mask results -/

theorem focus_wrM (s : State) (f : Fields) (v : Mask) : (s.wrM f v).focus = s.focus := by
  unfold State.wrM; simp only; split <;> rfl

theorem me_wrM (s : State) (f : Fields) (v : Mask) :
    (s.wrM f v).me = if f.nwb then s.me else s.me.setM f.dst.toNat (v &&& s.me.gwMask) := by
  unfold State.me
  rw [focus_wrM]
  unfold State.wrM
  simp only
  split
  · exact gang_setLatch ..
  · have := me_modMe (s.setLatch f.lat.toNat [] (some (v &&& s.me.gwMask))) fun g => g.setM f.dst.toNat (v &&& s.me.gwMask)
    rwa [me_setLatch] at this

theorem wrM_writesOnly (s : State) (f : Fields) (v : Mask) : s.WritesOnly (s.wrM f v) noReg (scalDst f) noReg := by
  have h := setLatch_writesOnly s f.lat.toNat [] (some (v &&& s.me.gwMask))
  unfold State.wrM
  cases hn : f.nwb with
  | true => simpa using h.mono (fun _ q => q) (fun _ q => q.elim) fun _ q => q
  | false =>
    simp only [Bool.false_eq_true, if_false]
    refine h.before (sameFocus_of_eq rfl) (modMe_writesOnly (by simp) (by simp) (by simp) (fun n q => ?_) (by simp) (by simp [Gang.lane]))
    rw [mreg_setM, if_neg]
    exact fun e => q ⟨hn, e⟩

/-- A mask result written and the group moved on. -/
theorem mask_done (s : State) (f : Fields) (v : Mask) :
    s.WritesOnly (s.wrM f v).finish noReg (scalDst f) noReg ∧ s.MaskResult (s.wrM f v).finish f v ∧ s.MovedOn (s.wrM f v).finish := by
  have hf := focus_wrM s f v
  have hm := me_wrM s f v
  obtain ⟨r, w, h⟩ := me_moveOn (s.wrM f v) fun _ => ((s.wrM f v).pcNext, 0)
  simp only [State.mine, hf] at h
  have hl := latches_moveOn (s.wrM f v) (fun _ => ((s.wrM f v).pcNext, 0)) s.focus.core
  have hu : ((s.wrM f v).core s.focus.core).latches =
      ((s.setLatch f.lat.toNat [] (some (v &&& s.me.gwMask))).core s.focus.core).latches := by
    unfold State.wrM
    simp only
    split
    · rfl
    · exact latches_modMe ..
  refine ⟨(wrM_writesOnly s f v).after (sameFocus_of_eq hf) (moveOn_writesOnly _ _), ⟨fun hn => ?_, ?_, ?_⟩, movedOn_after hf ?_⟩
  · show (State.gang _ _ _).mreg _ = _
    rw [State.finish, h]
    show (s.wrM f v).me.mreg _ = _
    rw [hm, if_neg (by simp [hn]), mreg_setM, if_pos rfl, BitVec.and_assoc, BitVec.and_self]
  · rw [State.myLatches, State.finish, hl, hu]; exact latch_scalar ..
  · rw [State.myLatches, State.finish, hl, hu]; exact latch_owner ..
  · rw [hm]; split <;> simp

/-! ## Vector results -/

/-- The lanes of a vector result with their values. -/
def vecVals (wide : Bool) (ex zero : Mask) (val : Nat → Nat) : List (Nat × Nat) :=
  (lanesOf ex).map (fun j => (j, val j % 2 ^ (if wide then 64 else 32))) ++ (lanesOf zero).map fun j => (j, 0)

theorem vecVals_lane {wide : Bool} {ex zero : Mask} {val : Nat → Nat} {p : Nat × Nat} (h : p ∈ vecVals wide ex zero val) :
    p.1 < 64 ∧ (ex ||| zero).getLsbD p.1 = true := by
  rcases List.mem_append.mp h with h | h <;> obtain ⟨i, hi, rfl⟩ := List.mem_map.mp h <;> have := mem_lanesOf.mp hi <;>
    exact ⟨this.1, by simp [this.2]⟩

theorem vecVals_mem {wide : Bool} {ex zero : Mask} {val : Nat → Nat} {j : Nat} (hj : j < 64) (h : (ex ||| zero).getLsbD j = true) :
    ∃ p ∈ vecVals wide ex zero val, p.1 = j := by
  rw [BitVec.getLsbD_or, Bool.or_eq_true] at h
  rcases h with h | h
  · exact ⟨_, List.mem_append_left _ (List.mem_map.mpr ⟨j, mem_lanesOf.mpr ⟨hj, h⟩, rfl⟩), rfl⟩
  · exact ⟨_, List.mem_append_right _ (List.mem_map.mpr ⟨j, mem_lanesOf.mpr ⟨hj, h⟩, rfl⟩), rfl⟩

/-- Where no lane is in both masks, every entry of a lane is the lane's value. -/
theorem vecVals_value {wide : Bool} {ex zero : Mask} {val : Nat → Nat} (hd : ∀ j, ex.getLsbD j = true → zero.getLsbD j = false)
    {p : Nat × Nat} (h : p ∈ vecVals wide ex zero val) : p.2 = laneValue wide zero val p.1 := by
  rcases List.mem_append.mp h with h | h <;> obtain ⟨i, hi, rfl⟩ := List.mem_map.mp h <;> have := (mem_lanesOf.mp hi).2
  · simp [laneValue, hd i this]
  · simp [laneValue, this]

theorem focus_wrV (s : State) (f : Fields) (wide : Bool) (ex zero : Mask) (val : Nat → Nat) : (s.wrV f wide ex zero val).focus = s.focus := by
  unfold State.wrV State.wrVAt; simp only; split <;> rfl

/-- The register writes of a vector result. -/
def vecWrites (r : Nat) (wide : Bool) (l : List (Nat × Nat)) : List (Nat × Nat × Nat) :=
  if wide then l.flatMap fun p => [(r, p.1, p.2 % 2 ^ 32), (r + 1, p.1, p.2 / 2 ^ 32)] else l.map fun p => (r, p.1, p.2)

theorem mem_vecWrites {r : Nat} {wide : Bool} {l : List (Nat × Nat)} {q : Nat × Nat × Nat} (h : q ∈ vecWrites r wide l) :
    ∃ p ∈ l, q.2.1 = p.1 ∧ ((q.1 = r ∧ q.2.2 = if wide then p.2 % 2 ^ 32 else p.2) ∨ (wide = true ∧ q.1 = r + 1 ∧ q.2.2 = p.2 / 2 ^ 32)) := by
  unfold vecWrites at h
  split at h
  · next hw =>
    obtain ⟨p, hp, h⟩ := List.mem_flatMap.mp h
    refine ⟨p, hp, ?_⟩
    simp only [List.mem_cons, List.not_mem_nil, or_false] at h
    rcases h with rfl | rfl <;> simp [hw]
  · next hw =>
    obtain ⟨p, hp, rfl⟩ := List.mem_map.mp h
    exact ⟨p, hp, rfl, .inl ⟨rfl, by simp [hw]⟩⟩

theorem vecWrites_low {r : Nat} {wide : Bool} {l : List (Nat × Nat)} {p : Nat × Nat} (h : p ∈ l) :
    (r, p.1, if wide then p.2 % 2 ^ 32 else p.2) ∈ vecWrites r wide l := by
  unfold vecWrites
  split
  · exact List.mem_flatMap.mpr ⟨p, h, by simp⟩
  · exact List.mem_map.mpr ⟨p, h, rfl⟩

theorem vecWrites_high {r : Nat} {l : List (Nat × Nat)} {p : Nat × Nat} (h : p ∈ l) :
    (r + 1, p.1, p.2 / 2 ^ 32) ∈ vecWrites r true l := List.mem_flatMap.mpr ⟨p, h, by simp⟩

theorem me_wrV (s : State) (f : Fields) (wide : Bool) (ex zero : Mask) (val : Nat → Nat) :
    (s.wrV f wide ex zero val).me =
      if f.nwb then s.me else s.me.setV (vecWrites (dstReg s.me f) wide (vecVals wide ex zero val)) := by
  unfold State.me
  rw [focus_wrV]
  unfold State.wrV State.wrVAt
  simp only
  split
  · exact gang_setLatch ..
  · have := me_modMe (s.setLatch f.lat.toNat ((vecVals wide ex zero val).map fun p => (p.1, BitVec.ofNat 64 p.2)) none) fun g =>
      g.setV (vecWrites (dstReg s.me f) wide (vecVals wide ex zero val))
    rw [me_setLatch] at this
    exact this

theorem latches_wrV (s : State) (f : Fields) (wide : Bool) (ex zero : Mask) (val : Nat → Nat) :
    ((s.wrV f wide ex zero val).core s.focus.core).latches =
      ((s.setLatch f.lat.toNat ((vecVals wide ex zero val).map fun p => (p.1, BitVec.ofNat 64 p.2)) none).core s.focus.core).latches := by
  unfold State.wrV State.wrVAt
  simp only
  split
  · rfl
  · exact latches_modMe ..

theorem wrV_writesOnly (s : State) (f : Fields) (wide : Bool) (ex zero : Mask) (val : Nat → Nat) :
    s.WritesOnly (s.wrV f wide ex zero val) noReg noReg (vecDst s f wide) := by
  have h := setLatch_writesOnly s f.lat.toNat ((vecVals wide ex zero val).map fun p => (p.1, BitVec.ofNat 64 p.2)) none
  cases hn : f.nwb with
  | true =>
    have e : s.wrV f wide ex zero val =
        s.setLatch f.lat.toNat ((vecVals wide ex zero val).map fun p => (p.1, BitVec.ofNat 64 p.2)) none := by
      unfold State.wrV State.wrVAt; simp only [hn, if_true]; rfl
    rw [e]
    exact h.mono (fun _ q => q) (fun _ q => q) fun _ q => q.elim
  | false =>
    have e : s.wrV f wide ex zero val =
        (s.setLatch f.lat.toNat ((vecVals wide ex zero val).map fun p => (p.1, BitVec.ofNat 64 p.2)) none).modMe fun g =>
          g.setV (vecWrites (dstReg s.me f) wide (vecVals wide ex zero val)) := by
      unfold State.wrV State.wrVAt; simp only [hn, Bool.false_eq_true, if_false]; rfl
    rw [e]
    refine h.before (sameFocus_of_eq rfl) (modMe_writesOnly (by simp) (by simp) (by simp) (by simp) (fun r j hj q => ?_) (by simp [Gang.lane]))
    refine vreg_setV_other _ _ r j hj (fun p hp => ?_) fun p hp => ?_
    · obtain ⟨x, hx, e, -⟩ := mem_vecWrites hp
      rw [e]; exact (vecVals_lane hx).1
    · obtain ⟨x, -, -, e⟩ := mem_vecWrites hp
      rintro ⟨e1, -⟩
      rcases e with ⟨e, -⟩ | ⟨ew, e, -⟩
      · exact q ⟨hn, .inl (by omega)⟩
      · exact q ⟨hn, .inr ⟨ew, by omega⟩⟩

/-- A vector result written and the group moved on. -/
theorem vector_done (s : State) (f : Fields) (wide : Bool) (ex zero : Mask) (val : Nat → Nat)
    (hd : ∀ j, ex.getLsbD j = true → zero.getLsbD j = false) :
    s.WritesOnly (s.wrV f wide ex zero val).finish noReg noReg (vecDst s f wide) ∧
      s.VectorResult (s.wrV f wide ex zero val).finish f wide ex zero val ∧ s.MovedOn (s.wrV f wide ex zero val).finish := by
  have hf := focus_wrV s f wide ex zero val
  have hm := me_wrV s f wide ex zero val
  obtain ⟨r, w, h⟩ := me_moveOn (s.wrV f wide ex zero val) fun _ => ((s.wrV f wide ex zero val).pcNext, 0)
  simp only [State.mine, hf] at h
  have hl := latches_moveOn (s.wrV f wide ex zero val) (fun _ => ((s.wrV f wide ex zero val).pcNext, 0)) s.focus.core
  have hu := latches_wrV s f wide ex zero val
  have hv (q j : Nat) : (s.mine (s.wrV f wide ex zero val).finish).vreg q j = (s.wrV f wide ex zero val).me.vreg q j := by
    show (State.gang _ _ _).vreg _ _ = _
    rw [State.finish, h]; rfl
  have hlane : ∀ q ∈ vecWrites (dstReg s.me f) wide (vecVals wide ex zero val), q.2.1 < 64 := fun q hq => by
    obtain ⟨x, hx, e, -⟩ := mem_vecWrites hq
    rw [e]; exact (vecVals_lane hx).1
  have h32 (j : Nat) : BitVec.ofNat 32 (if wide then laneValue wide zero val j % 2 ^ 32 else laneValue wide zero val j) =
      BitVec.ofNat 32 (laneValue wide zero val j) := by
    split
    · apply BitVec.eq_of_toNat_eq; simp
    · rfl
  refine ⟨(wrV_writesOnly s f wide ex zero val).after (sameFocus_of_eq hf) (moveOn_writesOnly _ _),
    ⟨fun hn j hj q => ?_, fun hn hw j hj q => ?_, fun x j hj q => ?_, fun j hj q => ?_, ?_⟩, movedOn_after hf ?_⟩
  · rw [hv, hm, if_neg (by simp [hn]), ← h32]
    refine vreg_setV_of _ _ _ _ _ hj hlane ?_ fun p hp e1 e2 => ?_
    · obtain ⟨p, hp, e⟩ := vecVals_mem (wide := wide) (val := val) hj q
      exact ⟨_, vecWrites_low hp, rfl, e⟩
    · obtain ⟨x, hx, e, e3⟩ := mem_vecWrites hp
      rcases e3 with ⟨-, e3⟩ | ⟨-, e4, -⟩
      · rw [e3, vecVals_value hd hx, ← e, e2]
      · omega
  · rw [hv, hm, if_neg (by simp [hn])]
    refine vreg_setV_of _ _ _ _ _ hj hlane ?_ fun p hp e1 e2 => ?_
    · obtain ⟨p, hp, e⟩ := vecVals_mem (wide := wide) (val := val) hj q
      subst hw
      exact ⟨_, vecWrites_high hp, rfl, e⟩
    · obtain ⟨x, hx, e, e3⟩ := mem_vecWrites hp
      rcases e3 with ⟨e4, -⟩ | ⟨-, -, e3⟩
      · omega
      · rw [e3, vecVals_value hd hx, ← e, e2]
  · rw [hv, hm]
    split
    · rfl
    · refine vreg_setV_other _ _ x j hj hlane fun p hp => ?_
      obtain ⟨y, hy, e, -⟩ := mem_vecWrites hp
      rintro ⟨-, e2⟩
      have := (vecVals_lane hy).2
      rw [← e, e2, q] at this
      exact absurd this (by decide)
  · rw [State.myLatches, State.finish, hl, hu]
    show SMap.get 0 (s.myLatches (s.setLatch _ _ _)).vec _ = _
    rw [latch_vector]
    apply SMap.get_putAll_of
    · obtain ⟨p, hp, e⟩ := vecVals_mem (wide := wide) (val := val) hj q
      exact ⟨_, List.mem_map.mpr ⟨_, List.mem_map.mpr ⟨p, hp, rfl⟩, rfl⟩, by simp only [e]⟩
    · intro p hp e
      obtain ⟨y, hy, rfl⟩ := List.mem_map.mp hp
      obtain ⟨z, hz, rfl⟩ := List.mem_map.mp hy
      simp only at e
      have : z.1 = j := by omega
      rw [vecVals_value hd hz, this]
  · rw [State.myLatches, State.finish, hl, hu]; exact latch_owner ..
  · rw [hm]; split <;> simp

/-- No lane both executes and is zeroed. -/
theorem zeroLanes_disjoint (s : State) (f : Fields) (j : Nat) (h : (s.execLanes f).getLsbD j = true) :
    (s.zeroLanes f).getLsbD j = false := by
  unfold State.zeroLanes
  split
  · rw [BitVec.getLsbD_and, BitVec.getLsbD_not, h]; simp
  · simp

/-! ## Runs of registers -/

/-- The register writes of a run. -/
def runWrites (r n : Nat) (ex zero : Mask) (val : Nat → Nat → Nat) : List (Nat × Nat × Nat) :=
  ((lanesOf ex).flatMap fun j => (List.range n).map fun k => (r + k, j, val k j)) ++
    (lanesOf zero).flatMap fun j => (List.range n).map fun k => (r + k, j, 0)

theorem mem_runWrites {r n : Nat} {ex zero : Mask} {val : Nat → Nat → Nat} (hd : ∀ j, ex.getLsbD j = true → zero.getLsbD j = false)
    {p : Nat × Nat × Nat} (h : p ∈ runWrites r n ex zero val) :
    p.2.1 < 64 ∧ (ex ||| zero).getLsbD p.2.1 = true ∧ ∃ k, k < n ∧ p.1 = r + k ∧ p.2.2 = runValue zero val k p.2.1 := by
  rcases List.mem_append.mp h with h | h <;> obtain ⟨j, hj, h⟩ := List.mem_flatMap.mp h <;>
    obtain ⟨k, hk, rfl⟩ := List.mem_map.mp h <;> have hl := mem_lanesOf.mp hj <;> have hk := List.mem_range.mp hk
  · exact ⟨hl.1, by simp [hl.2], k, hk, rfl, by simp [runValue, hd j hl.2]⟩
  · exact ⟨hl.1, by simp [hl.2], k, hk, rfl, by simp [runValue, hl.2]⟩

theorem runWrites_mem {r n k j : Nat} {ex zero : Mask} {val : Nat → Nat → Nat} (hk : k < n) (hj : j < 64)
    (h : (ex ||| zero).getLsbD j = true) : ∃ p ∈ runWrites r n ex zero val, p.1 = r + k ∧ p.2.1 = j := by
  rw [BitVec.getLsbD_or, Bool.or_eq_true] at h
  rcases h with h | h
  · exact ⟨_, List.mem_append_left _ (List.mem_flatMap.mpr ⟨j, mem_lanesOf.mpr ⟨hj, h⟩, List.mem_map.mpr ⟨k, List.mem_range.mpr hk, rfl⟩⟩), rfl, rfl⟩
  · exact ⟨_, List.mem_append_right _ (List.mem_flatMap.mpr ⟨j, mem_lanesOf.mpr ⟨hj, h⟩, List.mem_map.mpr ⟨k, List.mem_range.mpr hk, rfl⟩⟩), rfl, rfl⟩

/-- The latch values of a run. -/
def runLatch (n : Nat) (ex zero : Mask) (val : Nat → Nat → Nat) : List (Nat × DWord) :=
  ((lanesOf ex).map fun j => (j, BitVec.ofNat 64 (val 0 j % 2 ^ 32 + if 1 < n then val 1 j % 2 ^ 32 * 2 ^ 32 else 0))) ++
    (lanesOf zero).map fun j => (j, 0)

theorem wrRun_eq (s : State) (f : Fields) (r n : Nat) (ex zero : Mask) (val : Nat → Nat → Nat) :
    s.wrRun f r n ex zero val = (s.setLatch f.lat.toNat (runLatch n ex zero val) none).modMe fun g => g.setV (runWrites r n ex zero val) := rfl

theorem me_wrRun (s : State) (f : Fields) (r n : Nat) (ex zero : Mask) (val : Nat → Nat → Nat) :
    (s.wrRun f r n ex zero val).me = s.me.setV (runWrites r n ex zero val) := by
  rw [wrRun_eq]
  have := me_modMe (s.setLatch f.lat.toNat (runLatch n ex zero val) none) fun g => g.setV (runWrites r n ex zero val)
  rw [me_setLatch] at this
  exact this

theorem wrRun_writesOnly (s : State) (f : Fields) (r n : Nat) (ex zero : Mask) (val : Nat → Nat → Nat)
    (hd : ∀ j, ex.getLsbD j = true → zero.getLsbD j = false) :
    s.WritesOnly (s.wrRun f r n ex zero val) noReg noReg (runDst r n) := by
  rw [wrRun_eq]
  refine (setLatch_writesOnly s f.lat.toNat (runLatch n ex zero val) none).before (sameFocus_of_eq rfl)
    (modMe_writesOnly (by simp) (by simp) (by simp) (by simp) (fun q j hj h => ?_) (by simp [Gang.lane]))
  refine vreg_setV_other _ _ q j hj (fun p hp => (mem_runWrites hd hp).1) fun p hp => ?_
  obtain ⟨-, -, k, hk, e, -⟩ := mem_runWrites hd hp
  rintro ⟨e1, -⟩
  exact h ⟨by omega, by omega⟩

/-- A run written and the group moved on. -/
theorem run_done (s : State) (f : Fields) (r n : Nat) (ex zero : Mask) (val : Nat → Nat → Nat)
    (hd : ∀ j, ex.getLsbD j = true → zero.getLsbD j = false) :
    s.WritesOnly (s.wrRun f r n ex zero val).finish noReg noReg (runDst r n) ∧
      s.RunResult (s.wrRun f r n ex zero val).finish f r n ex zero val ∧ s.MovedOn (s.wrRun f r n ex zero val).finish := by
  have hf : (s.wrRun f r n ex zero val).focus = s.focus := rfl
  have hm := me_wrRun s f r n ex zero val
  obtain ⟨x, w, h⟩ := me_moveOn (s.wrRun f r n ex zero val) fun _ => ((s.wrRun f r n ex zero val).pcNext, 0)
  simp only [State.mine, hf] at h
  have hl := latches_moveOn (s.wrRun f r n ex zero val) (fun _ => ((s.wrRun f r n ex zero val).pcNext, 0)) s.focus.core
  have hu : ((s.wrRun f r n ex zero val).core s.focus.core).latches =
      ((s.setLatch f.lat.toNat (runLatch n ex zero val) none).core s.focus.core).latches := latches_modMe ..
  have hv (q j : Nat) : (s.mine (s.wrRun f r n ex zero val).finish).vreg q j = (s.me.setV (runWrites r n ex zero val)).vreg q j := by
    rw [← hm]
    show (State.gang _ _ _).vreg _ _ = _
    rw [State.finish, h]; rfl
  refine ⟨(wrRun_writesOnly s f r n ex zero val hd).after (sameFocus_of_eq hf) (moveOn_writesOnly _ _),
    ⟨fun k j hk hj q => ?_, fun x j hj q => ?_, fun j hj q => ?_, ?_⟩, movedOn_after hf (by rw [hm]; simp)⟩
  · rw [hv]
    refine vreg_setV_of _ _ _ _ _ hj (fun p hp => (mem_runWrites hd hp).1) (runWrites_mem hk hj q) fun p hp e1 e2 => ?_
    obtain ⟨-, -, k', -, e3, e4⟩ := mem_runWrites hd hp
    rw [e4, e2, show k' = k by omega]
  · rw [hv]
    refine vreg_setV_other _ _ x j hj (fun p hp => (mem_runWrites hd hp).1) fun p hp => ?_
    rintro ⟨-, e2⟩
    have := (mem_runWrites hd hp).2.1
    rw [e2, q] at this
    exact absurd this (by decide)
  · rw [State.myLatches, State.finish, hl, hu]
    show SMap.get 0 (s.myLatches (s.setLatch _ _ _)).vec _ = _
    rw [latch_vector]
    have mem (i : Nat) (hi : i < 64) (q : (ex ||| zero).getLsbD i = true) : ∃ p ∈ runLatch n ex zero val, p.1 = i := by
      rw [BitVec.getLsbD_or, Bool.or_eq_true] at q
      rcases q with q | q
      · exact ⟨_, List.mem_append_left _ (List.mem_map.mpr ⟨i, mem_lanesOf.mpr ⟨hi, q⟩, rfl⟩), rfl⟩
      · exact ⟨_, List.mem_append_right _ (List.mem_map.mpr ⟨i, mem_lanesOf.mpr ⟨hi, q⟩, rfl⟩), rfl⟩
    apply SMap.get_putAll_of
    · obtain ⟨p, hp, e⟩ := mem j hj q
      exact ⟨_, List.mem_map.mpr ⟨p, hp, rfl⟩, by simp only [e]⟩
    · intro p hp e
      obtain ⟨y, hy, rfl⟩ := List.mem_map.mp hp
      simp only at e
      rcases List.mem_append.mp hy with hy | hy <;> obtain ⟨i, hi, rfl⟩ := List.mem_map.mp hy <;> have hi := (mem_lanesOf.mp hi).2 <;>
        have hij : i = j := (by simp only at e; omega) <;> subst hij
      · simp [runValue, hd i hi]
      · simp [runValue, hi]
  · rw [State.myLatches, State.finish, hl, hu]; exact latch_owner ..

end Sys2Proof.Machine
end

