-- ==== Sys2Proof/Tests/Slice0.lean ====
section
/-! SUPPORT. Small tests: ill-formed terms that WellFormed refuses, words that decode, and one step of instructions. Words are
written out from the encoding rules R314 to R331; the worked words are the spec's own. The theorems `witness_…` show states and
operands that meet the hypotheses of the statements together, most with a result or two; `test_…` check single steps. -/

open Sys2Proof.Machine Sys2Proof.Claims

namespace Sys2Proof.Tests

set_option Elab.async false

/-- The all-zero 64-bit word's fields. -/
def word0 : Fields :=
  { ty := 0, fn := 0, c := .reg 0, b := .reg 0, a := .reg 0, dst := 0, lat := 0, nwb := false, guard := ⟨false, 0⟩,
    len := .l64, x := 0, ctl := ⟨0, 0, 0, 0, false, 0, 0, 0⟩, pfx := none }

/-- A well-formed `sadd.n64 s3, s1, s2`. -/
def saddF : Fields := { word0 with ty := 0xb, a := .reg 1, b := .reg 2, dst := 3 }
/-- A well-formed `vadd.f32 v3, v1, v2`. -/
def vaddF : Fields := { word0 with a := .reg 1, b := .reg 2, dst := 3 }

theorem test_wf_good : (wellFormed (.sadd saddF) && wellFormed (.vaddFloat vaddF)) = true := by decide

/-- One ill-formed term for each check of R334; every one is refused. -/
def illFormed : List Instr :=
  [ .ret { word0 with len := .l96 },                                   -- length (R349)
    .sadd { saddF with guard := ⟨true, 0⟩ },                           -- GUARD 0b1000 (R320)
    .sadd { saddF with a := .reg 64 },                                 -- A outside its class (R321)
    .sadd { saddF with b := .scal 3 },                                 -- B special in a scalar class
    .sadd { saddF with c := .imm 0 },                                  -- an unused field is not zero (R323)
    .vaddInt { vaddF with ty := 4, b := .laneNo },                     -- lane number of an 8-bit type (R372)
    .mand { word0 with a := .reg 1, b := .reg 2, dst := 0 },           -- m0 as a destination (R323)
    .sadd { saddF with nwb := true },                                  -- DST with NWB (R323)
    .vaddInt { vaddF with ty := 0xa, b := .reg 4, a := .reg 6 },       -- odd pair (R120)
    .sadd { saddF with b := .immX },                                   -- X named in a 64-bit form (R321)
    .sadd { saddF with len := .l96, x := 5 },                          -- X named by nothing (R325)
    .sadd { saddF with len := .l96, b := .konst, x := 0x1000 },        -- PAIR of a 64-bit operand (R327)
    .vaddFloat { vaddF with len := .l96, b := .konst, x := 1 },        -- reserved KONST bit (R327)
    .vaddFloat { vaddF with len := .l96, a := .ind 1, x := 0x100 },    -- K field of a direct source (R328)
    .sadd { saddF with ty := 0 },                                      -- TYPE of group 0x0 (R352)
    .vaddFloat { vaddF with fn := 1 },                                 -- FN (R351)
    .ld { word0 with ty := 8, a := .reg 1, b := .imm 0, dst := 1, len := .l128, x := 0x82000000, ctl := ⟨0, 7, 1, 0, false, 0, 0, 0⟩ },                     -- scope 0b111 (R330)
    .sadd { saddF with ctl := ⟨0, 1, 0, 0, false, 0, 0, 0⟩ },          -- CTL in a 64-bit form (R330)
    .vaddFloat { vaddF with pfx := some ⟨0, .reg 0, false, 6, false, 1⟩ },   -- PRM (R333)
    .vcbd { word0 with a := .reg 1, b := .imm 0, dst := 2, pfx := some ⟨0, .laneNo, false, 0, false, 1⟩ },   -- FOP (R389)
    .nop { word0 with guard := ⟨false, 1⟩ },                           -- the entry's own rule (R356)
    .sadd { saddF with pfx := some ⟨0, .reg 0, false, 0, false, 1⟩ },  -- prefix before group 0x0 (R333)
    .vaddFloat { vaddF with guard := ⟨false, 1⟩, pfx := some ⟨0, .reg 0, false, 0, false, 1⟩ },   -- GUARD under a prefix
    .vaddFloat { vaddF with pfx := some ⟨0, .reg 0, false, 0, true, 0⟩ },    -- PMASK 0 with PINV
    .vaddFloat { vaddF with pfx := some ⟨0, .reg 7, false, 0, false, 1⟩ },   -- FOP where none is taken
    .vminFloat { vaddF with pfx := some ⟨0, .reg 0, false, 2, false, 1⟩ },   -- PRM where nothing rounds
    .tableLoad 0 ]                                                     -- a step of another agent has no encoding

theorem test_wf_refuses : illFormed.all (fun i => !wellFormed i) = true := by decide

/-- The number whose bytes, lowest first, are given. -/
def leNat : List Byte → Nat
  | [] => 0
  | b :: r => b.toNat + 256 * leNat r

/-- A word decodes to the instruction, which is well formed and encodes to the word. -/
def wordIs (p : Nat × Instr) : Bool :=
  decodeTableWord 160 p.1 == some p.2 && wellFormed p.2 && leNat (encode p.2) == p.1

def words_scalar : List (Nat × Instr) :=
  [(0x0, .nop word0),
   (0xb00000e008480008, .sadd { word0 with ty := 11, b := .reg 7, a := .reg 1, dst := 9 }),
   (0xa0005f401052000c, .ssub { word0 with ty := 10, b := .imm 250, a := .reg 2, dst := 10, lat := 1 }),
   (0x80002040185c0010, .smul { word0 with ty := 8, b := .latch 2, a := .reg 3, dst := 11, lat := 2 }),
   (0x900000e020660014, .smulh { word0 with ty := 9, b := .reg 7, a := .reg 4, dst := 12, lat := 3 }),
   (0x40005f4028680018, .sdiv { word0 with ty := 4, b := .imm 250, a := .reg 5, dst := 13 }),
   (0x500020403072001c, .srem { word0 with ty := 5, b := .latch 2, a := .reg 6, dst := 14, lat := 1 }),
   (0x600000e0387c0020, .sand { word0 with ty := 6, b := .reg 7, a := .reg 7, dst := 15, lat := 2 }),
   (0x70005f4040860024, .sor { word0 with ty := 7, b := .imm 250, a := .reg 8, dst := 16, lat := 3 }),
   (0xb000204048880028, .sxor { word0 with ty := 11, b := .latch 2, a := .reg 9, dst := 17 }),
   (0xa00000e05092002c, .sshl { word0 with ty := 10, b := .reg 7, a := .reg 10, dst := 18, lat := 1 }),
   (0x80005f40589c0030, .sshr { word0 with ty := 8, b := .imm 250, a := .reg 11, dst := 19, lat := 2 }),
   (0x9000204060a60034, .ssra { word0 with ty := 9, b := .latch 2, a := .reg 12, dst := 20, lat := 3 }),
   (0x400000e068a80038, .smin { word0 with ty := 4, b := .reg 7, a := .reg 13, dst := 21 }),
   (0x50005f4070b2003c, .smax { word0 with ty := 5, b := .imm 250, a := .reg 14, dst := 22, lat := 1 }),
   (0x89abcdefb000001c00180005, .smov { word0 with ty := 11, a := .immX, dst := 3, len := .l96, x := 0x89abcdef }),
   (0x8a004021f8080040, .scmp { word0 with ty := 8, fn := 5, b := .imm 1, a := .reg 63, dst := 1 }),
   (0x9401804008200044, .ssel { word0 with ty := 9, fn := 2, c := .reg 3, b := .reg 2, a := .reg 1, dst := 4 }),
   (0xb101804008260048, .slea { word0 with ty := 11, c := .imm 3, b := .reg 2, a := .reg 1, dst := 4, lat := 3 }),
   (0x800000080805004c, .sclz { word0 with ty := 8, a := .latch 1, lat := 2, nwb := true }),
   (0x40006800b000001c08100051, .spopc { word0 with ty := 11, a := .konst, dst := 2, len := .l96, x := 0x40006800 }),
   (0xa10340a008380054, .sbfx { word0 with ty := 10, c := .imm 6, b := .imm 5, a := .reg 1, dst := 7 }),
   (0xb10340a008380058, .sbfi { word0 with ty := 11, c := .imm 6, b := .imm 5, a := .reg 1, dst := 7 }),
   (0x900000a64030005c, .sgetl { word0 with ty := 9, b := .reg 5, a := .reg 200, dst := 6 }),
   (0xb00047e04ff00060, .vsetl { word0 with ty := 11, b := .imm 63, a := .reg 9, dst := 254 })]

/-- Words of the scalar family, from R318, R321, R329, R331 and R348, decode to their instructions. -/
theorem test_decode_scalar :
    words_scalar.all wordIs = true := by
  decide

def words_mask_and_control : List (Nat × Instr) :=
  [(0x48780064, .mmov { word0 with a := .reg 9, dst := 15 }),
   (0x200040080068, .mand { word0 with b := .latch 0, a := .reg 8, dst := 1 }),
   (0x20204812006c, .mor { word0 with b := .latch 1, a := .reg 9, dst := 2, lat := 1 }),
   (0x2040501c0070, .mxor { word0 with b := .latch 2, a := .reg 10, dst := 3, lat := 2 }),
   (0x206058260074, .mandn { word0 with b := .latch 3, a := .reg 11, dst := 4, lat := 3 }),
   (0x79f80078, .mpopc { word0 with a := .reg 15, dst := 63 }),
   (0x810b07c, .mffs { word0 with a := .reg 1, dst := 2, guard := ⟨true, 3⟩ }),
   (0x17c0001100, .br { word0 with a := .imm 248, guard := ⟨false, 1⟩ }),
   (0x7085fe008000104, .brs { word0 with fn := 3, c := .imm 16, b := .imm 255, a := .reg 1 }),
   (0x70000108, .jmpi { word0 with a := .reg 14 }),
   (0xfffff0000000001c0010010d, .call { word0 with a := .immX, dst := 2, len := .l96, x := 0xfffff000 }),
   (0x1828300110, .calli { word0 with a := .scal 5, dst := 6 }),
   (0x10000114, .ret { word0 with a := .reg 2 }),
   (0x118, .regang word0),
   (0x200000000000118, .regangAny { word0 with fn := 1 }),
   (0xf11c, .exit { word0 with guard := ⟨true, 7⟩ }),
   (0x5e8018180120, .loop { word0 with b := .imm 244, a := .reg 3, dst := 3 })]

/-- Words of the mask and control family, from R318, R321, R329, R331 and R348, decode to their instructions. -/
theorem test_decode_mask_and_control :
    words_mask_and_control.all wordIs = true := by
  decide

def words_vector_integer : List (Nat × Instr) :=
  [(0x8200704013200200, .vaddInt { word0 with ty := 8, fn := 1, b := .laneNo, a := .reg 2, dst := 100 }),
   (0x9000606023320204, .vsubInt { word0 with ty := 9, b := .scal 3, a := .reg 4, dst := 102, lat := 1 }),
   (0x4000012033440208, .vmulInt { word0 with ty := 4, b := .reg 9, a := .reg 6, dst := 104, lat := 2 }),
   (0x500001204356020c, .vmulh { word0 with ty := 5, b := .reg 9, a := .reg 8, dst := 106, lat := 3 }),
   (0x6006012053600210, .vmad { word0 with ty := 6, c := .reg 12, b := .reg 9, a := .reg 10, dst := 108 }),
   (0x7000012063720214, .vdivInt { word0 with ty := 7, b := .reg 9, a := .reg 12, dst := 110, lat := 1 }),
   (0xa000010073840218, .vrem { word0 with ty := 10, b := .reg 8, a := .reg 14, dst := 112, lat := 2 }),
   (0xb00000008396021c, .vabsInt { word0 with ty := 11, a := .reg 16, dst := 114, lat := 3 }),
   (0x8000000093a00220, .vnegInt { word0 with ty := 8, a := .reg 18, dst := 116 }),
   (0x90006060a3b20224, .vminInt { word0 with ty := 9, b := .scal 3, a := .reg 20, dst := 118, lat := 1 }),
   (0x40000120b3c40228, .vmaxInt { word0 with ty := 4, b := .reg 9, a := .reg 22, dst := 120, lat := 2 }),
   (0x50000120c3d6022c, .vand { word0 with ty := 5, b := .reg 9, a := .reg 24, dst := 122, lat := 3 }),
   (0x60000120d3e00230, .vor { word0 with ty := 6, b := .reg 9, a := .reg 26, dst := 124 }),
   (0x70000120e3f20234, .vxor { word0 with ty := 7, b := .reg 9, a := .reg 28, dst := 126, lat := 1 }),
   (0xa0000000f4040238, .vnot { word0 with ty := 10, a := .reg 30, dst := 128, lat := 2 }),
   (0xb00001010416023c, .vshl { word0 with ty := 11, b := .reg 8, a := .reg 32, dst := 130, lat := 3 }),
   (0x8000704114200240, .vshr { word0 with ty := 8, b := .laneNo, a := .reg 34, dst := 132 }),
   (0x9000606124320244, .vsra { word0 with ty := 9, b := .scal 3, a := .reg 36, dst := 134, lat := 1 }),
   (0x4000012134440248, .vrot { word0 with ty := 4, b := .reg 9, a := .reg 38, dst := 136, lat := 2 }),
   (0x500000014456024c, .vclz { word0 with ty := 5, a := .reg 40, dst := 138, lat := 3 }),
   (0x6000000154600250, .vpopc { word0 with ty := 6, a := .reg 42, dst := 140 }),
   (0x8400400020100254, .vcmpInt { word0 with ty := 8, fn := 2, b := .imm 0, a := .reg 4, dst := 2 }),
   (0x900600a020300258, .vsel { word0 with ty := 9, c := .reg 12, b := .reg 5, a := .reg 4, dst := 6 }),
   (0x920000219000001a2838025d, .vmov { word0 with ty := 9, a := .ind 5, dst := 7, len := .l96, x := 0x92000021 }),
   (0x9102406008100260, .vbfx { word0 with ty := 9, c := .imm 4, b := .imm 3, a := .reg 1, dst := 2 }),
   (0x420180400820026400000477, .vdp4 { word0 with ty := 4, fn := 1, c := .reg 3, b := .reg 2, a := .reg 1, dst := 4, pfx := some ⟨0, .reg 0, true, 0, true, 13⟩ })]

/-- Words of the vector integer family, from R318, R321, R329, R331 and R348, decode to their instructions. -/
theorem test_decode_vector_integer :
    words_vector_integer.all wordIs = true := by
  decide

def words_vector_float : List (Nat × Instr) :=
  [(0x3c00b200300, .vaddFloat { word0 with b := .reg 30, a := .reg 1, dst := 100 }),
   (0x100003e0132a0304, .vsubFloat { word0 with ty := 1, b := .reg 31, a := .reg 2, dst := 101, lat := 1 }),
   (0x7a2f0000200070201b34030900a00533, .vmulFloat { word0 with ty := 2, b := .konst, a := .reg 3, dst := 102, lat := 2, len := .l96, x := 0x7a2f0000, pfx := some ⟨5, .reg 0, true, 2, false, 12⟩ }),
   (0x268420233e030c, .vfma { word0 with c := .reg 77, b := .reg 33, a := .reg 4, dst := 103, lat := 3 }),
   (0x102684402b400310, .vfms { word0 with ty := 1, c := .reg 77, b := .reg 34, a := .reg 5, dst := 104 }),
   (0x20268460334a0314, .vfnma { word0 with ty := 2, c := .reg 77, b := .reg 35, a := .reg 6, dst := 105, lat := 1 }),
   (0x4803b540318, .vdivFloat { word0 with b := .reg 36, a := .reg 7, dst := 106, lat := 2 }),
   (0x10000000435e031c, .vsqrt { word0 with ty := 1, a := .reg 8, dst := 107, lat := 3 }),
   (0x200000004b600320, .vrsqrt { word0 with ty := 2, a := .reg 9, dst := 108 }),
   (0x536a0324, .vrcp { word0 with a := .reg 10, dst := 109, lat := 1 }),
   (0x100000005b740328, .vexp2 { word0 with ty := 1, a := .reg 11, dst := 110, lat := 2 }),
   (0x20000000637e032c, .vlog2 { word0 with ty := 2, a := .reg 12, dst := 111, lat := 3 }),
   (0x5406b800330, .vminFloat { word0 with b := .reg 42, a := .reg 13, dst := 112 }),
   (0x10000560738a0334, .vmaxFloat { word0 with ty := 1, b := .reg 43, a := .reg 14, dst := 113, lat := 1 }),
   (0x200000007b940338, .vabsFloat { word0 with ty := 2, a := .reg 15, dst := 114, lat := 2 }),
   (0x839e033c, .vnegFloat { word0 with a := .reg 16, dst := 115, lat := 3 }),
   (0xe0005c088180340, .vcmpFloat { word0 with fn := 7, b := .reg 46, a := .reg 17, dst := 3 }),
   (0x2800000093aa0344, .vrint { word0 with ty := 2, fn := 4, a := .reg 18, dst := 117, lat := 1 }),
   (0x9bb40348, .vclass { word0 with a := .reg 19, dst := 118, lat := 2 }),
   (0x10000620a3be034c, .vscale { word0 with ty := 1, b := .reg 49, a := .reg 20, dst := 119, lat := 3 }),
   (0x20000640abc00350, .vlse { word0 with ty := 2, b := .reg 50, a := .reg 21, dst := 120 })]

/-- Words of the vector float family, from R318, R321, R329, R331 and R348, decode to their instructions. -/
theorem test_decode_vector_float :
    words_vector_float.all wordIs = true := by
  decide

def words_conversion_and_cross_lane : List (Nat × Instr) :=
  [(0x1000000040480400, .vcvt { word0 with ty := 1, a := .reg 8, dst := 9 }),
   (0x41440a0a4000404, .vcvtn { word0 with fn := 2, c := .reg 40, b := .imm 5, a := .reg 20, dst := 128 }),
   (0x16004020a140040800031803, .vcvtw { word0 with ty := 1, fn := 3, b := .imm 1, a := .reg 20, dst := 40, pfx := some ⟨0, .reg 99, false, 0, false, 0⟩ }),
   (0x280040584940040c, .vcbd { word0 with ty := 2, fn := 4, b := .imm 2, a := .scal 9, dst := 40 }),
   (0x9000000030000410, .vsetlfs { word0 with ty := 9, a := .reg 6 }),
   (0x9000000000320414, .vgetlfs { word0 with ty := 9, dst := 6, lat := 1 }),
   (0x8000704008100500, .vperm { word0 with ty := 8, b := .laneNo, a := .reg 1, dst := 2 }),
   (0x600420008100504, .vshfl { word0 with fn := 3, b := .imm 16, a := .reg 1, dst := 2 }),
   (0xb000000010200508, .vbcl { word0 with ty := 11, a := .reg 2, dst := 4 }),
   (0x8a0000000810050c, .vred { word0 with ty := 8, fn := 5, a := .reg 1, dst := 2 }),
   (0x200000008100510, .vscan { word0 with fn := 1, a := .reg 1, dst := 2 }),
   (0x9800000008100514, .vscanx { word0 with ty := 9, fn := 4, a := .reg 1, dst := 2 }),
   (0x8000006008100518, .vcomp { word0 with ty := 8, b := .reg 3, a := .reg 1, dst := 2 }),
   (0x800000600810051c, .vexpd { word0 with ty := 8, b := .reg 3, a := .reg 1, dst := 2 })]

/-- Words of the conversion and cross lane family, from R318, R321, R329, R331 and R348, decode to their instructions. -/
theorem test_decode_conversion_and_cross_lane :
    words_conversion_and_cross_lane.all wordIs = true := by
  decide

def words_load_and_store : List (Nat × Instr) :=
  [(0x15000000880000009000020070880602, .ld { word0 with ty := 9, b := .reg 16, a := .reg 14, dst := 17, len := .l128, x := 0x88000000, ctl := ⟨0, 5, 1, 0, false, 0, 0, 0x0⟩ }),
   (0x8002814040000604, .st { word0 with ty := 8, c := .reg 5, b := .reg 10, a := .reg 8 }),
   (0x820000a038a00608, .ldfe { word0 with ty := 8, fn := 1, b := .reg 5, a := .reg 7, dst := 20 }),
   (0x9002c2003800060c, .stfe { word0 with ty := 9, c := .reg 5, b := .imm 16, a := .reg 7 }),
   (0x604400000000610, .stbw { word0 with fn := 3, c := .reg 8, b := .imm 0, a := .reg 0 }),
   (0x200012040000614, .rwb { word0 with fn := 1, b := .reg 9, a := .reg 8 }),
   (0x480040000618, .rinv { word0 with b := .imm 64, a := .reg 8 }),
   (0x1204000061c, .prf { word0 with b := .reg 9, a := .reg 8 }),
   (0x200012040500620, .lkl { word0 with fn := 1, b := .reg 9, a := .reg 8, dst := 10 }),
   (0x12040000624, .ulkl { word0 with b := .reg 9, a := .reg 8 })]

/-- Words of the load and store family, from R318, R321, R329, R331 and R348, decode to their instructions. -/
theorem test_decode_load_and_store :
    words_load_and_store.all wordIs = true := by
  decide

def words_atomics_and_synchronisation : List (Nat × Instr) :=
  [(0x9c05012040580700, .atom { word0 with ty := 9, fn := 6, c := .reg 10, b := .reg 9, a := .reg 8, dst := 11 }),
   (0xb005012040600704, .cas { word0 with ty := 11, c := .reg 10, b := .reg 9, a := .reg 8, dst := 12 }),
   (0xe800000000000708, .fence { word0 with ty := 14, fn := 4 }),
   (0xa2000000000006000137000a000070e, .barinit { word0 with c := .reg 38, b := .immX, a := .reg 20, len := .l128, x := 0x60, ctl := ⟨0, 2, 2, 1, false, 0, 0, 0x0⟩ }),
   (0x100c100a0280710, .bararr { word0 with c := .imm 1, b := .imm 8, a := .reg 20, dst := 5 }),
   (0x2c100a0300714, .barwait { word0 with c := .reg 5, b := .imm 8, a := .reg 20, dst := 6 })]

/-- Words of the atomics and synchronisation family, from R318, R321, R329, R331 and R348, decode to their instructions. -/
theorem test_decode_atomics_and_synchronisation :
    words_atomics_and_synchronisation.all wordIs = true := by
  decide

def words_matrix : List (Nat × Instr) :=
  [(0x101400000000004001c0060100500802, .mma { word0 with c := .immX, b := .reg 48, a := .reg 32, dst := 10, len := .l128, x := 0x40, ctl := ⟨0, 4, 0, 0, true, 2, 0, 0x0⟩ }),
   (0x141200250000004101c0000100500806, .mhad { word0 with c := .immX, a := .reg 32, dst := 10, len := .l128, x := 0x41, ctl := ⟨0, 5, 0, 0, true, 1, 0, 0x25⟩ }),
   (0x101000000000000001c0e0810050080a, .mpass { word0 with c := .konst, b := .scal 4, a := .reg 32, dst := 10, len := .l128, ctl := ⟨0, 4, 0, 0, true, 0, 0, 0x0⟩ }),
   (0x1301a00080c, .amld { word0 with b := .reg 9, a := .imm 3, dst := 64 }),
   (0x20412018000810, .amst { word0 with c := .reg 64, b := .imm 9, a := .reg 3 }),
   (0x10f8000814, .amclr { word0 with a := .imm 31 }),
   (0x40f01b000818, .amtr { word0 with b := .imm 7, a := .imm 3, dst := 96 })]

/-- Words of the matrix family, from R318, R321, R329, R331 and R348, decode to their instructions. -/
theorem test_decode_matrix :
    words_matrix.all wordIs = true := by
  decide

def words_windows_and_recipes : List (Nat × Instr) :=
  [(0x10140b008000900, .wdecl { word0 with c := .imm 2, b := .imm 5, a := .imm 1 }),
   (0x200011010000904, .wpush { word0 with fn := 1, b := .reg 8, a := .imm 2 }),
   (0x604801010200908, .wq { word0 with fn := 3, c := .reg 9, a := .imm 2, dst := 4 }),
   (0x103800090c, .wrst { word0 with a := .imm 7 }),
   (0x11038000910, .wlen { word0 with b := .reg 8, a := .imm 7 }),
   (0x11038000914, .wsave { word0 with b := .reg 8, a := .imm 7 }),
   (0x502011038000918, .wload { word0 with fn := 2, c := .imm 4, b := .reg 8, a := .imm 7 }),
   (0x101415029400940, .rtag { word0 with c := .imm 2, b := .imm 10, a := .imm 5, dst := 40 }),
   (0x40000944, .rdrop { word0 with a := .reg 8 }),
   (0x40000948, .rmat { word0 with a := .reg 8 }),
   (0x10f800094c, .rclr { word0 with a := .imm 31 })]

/-- Words of the windows and recipes family, from R318, R321, R329, R331 and R348, decode to their instructions. -/
theorem test_decode_windows_and_recipes :
    words_windows_and_recipes.all wordIs = true := by
  decide

def words_engines_and_tasks : List (Nat × Instr) :=
  [(0x40000c00000400001c0006050580a02, .cp { word0 with c := .immX, b := .reg 3, a := .reg 10, dst := 11, len := .l128, x := 0x4000, ctl := ⟨0, 1, 0, 0, false, 0, 0, 0xc0⟩ }),
   (0x380000000000400001c0006080580a06, .bcast { word0 with c := .immX, b := .reg 3, a := .reg 16, dst := 11, len := .l128, x := 0x4000, ctl := ⟨1, 6, 0, 0, false, 0, 0, 0x0⟩ }),
   (0x580000410000400001c0006080580a0a, .bcred { word0 with c := .immX, b := .reg 3, a := .reg 16, dst := 11, len := .l128, x := 0x4000, ctl := ⟨2, 6, 0, 0, false, 0, 0, 0x41⟩ }),
   (0x780000410000400001c0006080580a0e, .bcall { word0 with c := .immX, b := .reg 3, a := .reg 16, dst := 11, len := .l128, x := 0x4000, ctl := ⟨3, 6, 0, 0, false, 0, 0, 0x41⟩ }),
   (0x1c0000000000200001c000a020300a12, .eput { word0 with c := .immX, b := .reg 5, a := .reg 4, dst := 6, len := .l128, x := 0x2000, ctl := ⟨0, 7, 0, 0, false, 0, 0, 0x0⟩ }),
   (0x10000000000000000000700050000a16, .tlwaitGe { word0 with b := .immX, a := .reg 10, len := .l128, ctl := ⟨0, 4, 0, 0, false, 0, 0, 0x0⟩ }),
   (0x1c000000000000050200701018000a16, .tlwaitLt { word0 with fn := 1, b := .immX, a := .imm 3, len := .l128, x := 0x5, ctl := ⟨0, 7, 0, 0, false, 0, 0, 0x0⟩ }),
   (0x3019200000b00, .spawn { word0 with c := .reg 6, b := .reg 12, a := .imm 64 }),
   (0x203401200000b00, .spawnOne { word0 with fn := 1, c := .reg 6, b := .imm 0, a := .imm 64 }),
   (0x680000000000100001c000c028000b06, .post { word0 with c := .immX, b := .reg 6, a := .reg 5, len := .l128, x := 0x1000, ctl := ⟨3, 2, 0, 0, false, 0, 0, 0x0⟩ }),
   (0x40000b08, .callq { word0 with a := .reg 8 }),
   (0xb0c, .retq word0),
   (0x17e000038000b10, .join { word0 with c := .imm 252, a := .reg 7 }),
   (0x1000004f00060000b15, .mkrec { word0 with c := .reg 9, b := .immX, a := .reg 12, len := .l96, x := 0x100 }),
   (0x10200c028380b18, .eget { word0 with c := .imm 4, b := .reg 6, a := .reg 5, dst := 7 })]

/-- Words of the engines and tasks family, from R318, R321, R329, R331 and R348, decode to their instructions. -/
theorem test_decode_engines_and_tasks :
    words_engines_and_tasks.all wordIs = true := by
  decide

def words_system : List (Nat × Instr) :=
  [(0x100001028300c00, .sysr { word0 with c := .imm 0, a := .imm 5, dst := 6 }),
   (0x102c2c028000c04, .sysw { word0 with c := .imm 5, b := .imm 22, a := .reg 5 }),
   (0x1010300c08, .bclaim { word0 with a := .imm 2, dst := 6 }),
   (0xc0c, .brel word0),
   (0x1010400c10, .tsr { word0 with a := .imm 2, dst := 8 }),
   (0x1080000c14, .phint { word0 with a := .imm 16 }),
   (0x402018000c18, .rtrapResume { word0 with b := .imm 1, a := .reg 3 }),
   (0x200400018000c18, .rtrapKill { word0 with fn := 1, b := .imm 0, a := .reg 3 }),
   (0xc1c, .halt word0),
   (0x28000c20, .trc { word0 with a := .reg 5 })]

/-- Words of the system family, from R318, R321, R329, R331 and R348, decode to their instructions. -/
theorem test_decode_system :
    words_system.all wordIs = true := by
  decide

/-- The words worked out in R318's example, R353's example and R331's prefix example. -/
theorem test_decode_worked :
    (decodeTableWord 64 0x000000c028203300 == some (.vaddFloat { word0 with a := .reg 5, b := .reg 6, dst := 4, guard := ⟨false, 3⟩ }) &&
     decodeTableWord 64 0x8400400020100254 == some (.vcmpInt { word0 with ty := 8, fn := 2, a := .reg 4, b := .imm 0, dst := 2 }) &&
     decodeTableWord 64 0x8000009000202204 ==
       some (.vsubInt { word0 with ty := 8, a := .imm 0, b := .reg 4, dst := 4, guard := ⟨false, 2⟩ }) &&
     decodeTableWord 128 0x7a2f0000000070204840030100000533 ==
       some (.vaddFloat { word0 with a := .reg 9, b := .konst, dst := 8, len := .l96, x := 0x7a2f0000,
                                     pfx := some ⟨0, .reg 0, true, 2, false, 12⟩ }) &&
     decodeTableWord 64 0 == some (.nop word0)) = true := by
  decide

/-- Why bytes do not decode. -/
def decodeError (bytes : List Byte) : Option DecodeFault :=
  match decode bytes with
  | .ok _ => none
  | .error e => some e

/-- Patterns that are no instruction (R334). -/
theorem test_decode_refuses :
    (decodeError (bytesOf 20 0xffffffff) == some .padWord && decodeError (bytesOf 20 0x01000003) == some .illegalEncoding &&
     decodeError (bytesOf 20 0xffffffff00000003) == some .illegalPrefix && decodeError (bytesOf 20 0xd00) == some .illegalOpcode &&
     decodeError (bytesOf 20 0x250000000080) == some .illegalOpcode && decodeError (bytesOf 4 0) == some .tooShort) = true := by
  decide

/-! ## Small states -/

/-- A 64 KiB page of core 0's TLB. -/
def page (va base : Nat) (mt : BitVec 2) : TlbEntry := { asn := 0, va, size := 2 ^ 16, base, mt, w := true, x := false, imm := false }

/-- A table of one value in sixteen lanes' register `r`. -/
def vreg (r : Nat) (val : Nat → Word) : SMap Word := (List.range 16).map fun j => (64 * r + j, val j)

/-- Format slots: 0 FP32, 1 INT8, 2 E4M3 with native blocks and SAT, 3 FP16, 4 CB2, 5 E5M2 with grouped native blocks, 6 and 7 BF16. -/
def slots : List (BitVec 128) :=
  [0, 8, 3 + 2 ^ 7 + 2 ^ 10, 2, 14 + 2 ^ 7 + 2048 * 2 ^ 64, 4 + 2 ^ 7 + 2 ^ 9, 1, 1]

/-- Gang slot 0 of core 0 in a running region: 16 lanes at VA 0x100 about to issue an 8-byte instruction; pages at VA 0x10000
(coherent), 0x20000 (software-managed) and 0x30000 (broadcast); `v` its vector registers. -/
def gangWith (v : SMap Word) : Gang :=
  { (State.reset.placeWord 0).gang 0 0 with
    v
    lanes := (List.range 16).map fun j => (j, { pc := 0x100 })
    s := (List.range 12).map fun n => (n + 1, BitVec.ofNat 64 (4 * n + 4))
    m := (0, 0xffff) :: (List.range 7).map fun n => (n + 1, 0x00ff)
    seat := { used := true, gw := 16, octs := 32, spkb := 4, shareBase := 4096, shareSize := 1024, amt := 4, amTiles := [0, 1, 2, 3], nwin := 8 } }

def stateOf (g : Gang) : State :=
  let s := State.reset.placeWord 0
  { s with
    regions := [(0, { st := .on })]
    tbl := [(0, 0x800000)]
    blocks := [(0, { placed := true })]
    launches := [(0, { fs := slots, kwin := List.replicate 8 (0, 2 ^ 20), octs := 32, bw := 1, bh := 1 })]
    focus := { core := 0, slot := 0, lanes := 0xffff, pc := 0x100, len := 8 }
    cores := [(0, { s.core 0 with
                    tlb := [page 0x10000 0x10000 0, page 0x20000 0x20000 1, page 0x30000 0x30000 2, { page 0 0 0 with x := true }]
                    latches := [(0, { owner := (List.range 4).map fun l => (l, some 0) })]
                    gangs := [(0, g)] })] }

/-- The pair v8:v9 of each lane holds 0x10000 + 8·lane; every other register is zero. -/
def addresses : SMap Word := vreg 8 fun j => BitVec.ofNat 32 (0x10000 + 8 * j)

def base : State := stateOf (gangWith addresses)

/-- The table row and the fields of an instruction. -/
def specOf (i : Instr) : OpSpec := (opSpec i).getD ((opSpec (.nop word0)).get (by decide))
def fieldsOf (i : Instr) : Fields := i.fields?.getD word0
/-- The state after an instruction. -/
def after (i : Instr) (s : State) : State := match exec i s with
  | .next t => t
  | _ => s
def completes (i : Instr) (s : State) : Bool := match exec i s with
  | .next t => t.focus.done && !t.me.trapped
  | _ => false
/-- Nothing stops the instruction before its own checks. -/
def opens (s : State) (i : Instr) : Bool := (opSpec i).isSome && s.issuesPlain (specOf i) (fieldsOf i)

/-- The issuing gang with scalar registers set. -/
def withS (l : List (Nat × DWord)) (s : State) : State := s.modMe fun g => { g with s := g.s.putAll l }
def withV (l : List (Nat × Nat × Word)) (s : State) : State := s.modMe fun g => { g with v := g.v.putAll (l.map fun p => (64 * p.1 + p.2.1, p.2.2)) }

/-! ## Groups 0x0 to 0x5: premises and worked values -/

/-- Nothing stops these instructions in `base`, and they go on. -/
theorem witness_scalar : words_scalar.all (fun p => opens base p.2 && completes p.2 base) = true := by decide
theorem witness_mask_and_control : words_mask_and_control.all (fun p => opens base p.2 && completes p.2 base) = true := by decide
theorem witness_vector_integer : words_vector_integer.all (fun p => opens base p.2 && completes p.2 base) = true := by decide
theorem witness_vector_float : (words_vector_float.eraseIdx 2).all (fun p => opens base p.2 && completes p.2 base) = true := by decide
theorem witness_cross_lane : (words_conversion_and_cross_lane.drop 4).all (fun p => opens base p.2 && completes p.2 base) = true := by decide

/-- Each of them has a result by its rule. -/
theorem witness_results :
    (words_scalar.take 23).all (fun p => (arithmetic base (specOf p.2) p.2).isSome || (shifts base (specOf p.2) p.2).isSome ||
      p.2 == .nop word0) = true ∧
    (words_mask_and_control.take 5).all (fun p => (maskResults base (specOf p.2) p.2).isSome) = true ∧
    (words_vector_integer.take 21).all (fun p => (intElement p.2).isSome) = true ∧
    (words_vector_float.take 16).all (fun p => (floatElement (base.env (fieldsOf p.2)) (fmtOfTy (fieldsOf p.2).ty) p.2).isSome) = true ∧
    ((words_conversion_and_cross_lane.drop 6).take 3).all (fun p => (permuted base (specOf p.2) 0xffff p.2).isSome) = true ∧
    ((words_conversion_and_cross_lane.drop 9).take 3).all (fun p => (reduction base (specOf p.2) 0xffff p.2).isSome) = true := by
  decide

/-- The example of R359: the high words of −3 · 0x40000000, signed and unsigned. -/
theorem test_smulh :
    let s := withS [(1, -3), (2, 0x40000000)] base
    (after (.smulh { saddF with ty := 8 }) s).me.sreg 3 = -1 ∧ (after (.smulh { saddF with ty := 9 }) s).me.sreg 3 = 0x3fffffff := by
  decide

/-- The example of R360. -/
theorem test_sdiv_srem :
    let s := withS [(1, -7), (2, 2), (4, 200)] base
    (after (.sdiv { saddF with ty := 8 }) s).me.sreg 3 = -3 ∧ (after (.srem { saddF with ty := 8 }) s).me.sreg 3 = -1 ∧
      (after (.sdiv { saddF with ty := 5, a := .reg 4, b := .imm 0 }) s).me.sreg 3 = 255 := by
  decide

/-- R361: a count of the full width empties a shift; a field that passes the top is zero. -/
theorem test_shift_width :
    let s := withS [(1, -1), (2, 32)] base
    (after (.sshl { saddF with ty := 9 }) s).me.sreg 3 = 0 ∧ (after (.ssra { saddF with ty := 8 }) s).me.sreg 3 = -1 ∧
      (after (.sbfx { saddF with ty := 9, c := .imm 1 }) s).me.sreg 3 = 0 := by
  decide

/-- R122, R134: s0 discards the write, the latch takes it. -/
theorem test_s0 :
    let t := after (.sadd { saddF with dst := 0, lat := 2 }) (withS [(1, 5), (2, 6)] base)
    t.me.sreg 0 = 0 ∧ (base.myLatches t).sca.get 0 2 = 11 := by
  decide

/-- R364: bits at and above GW are cleared; the lowest one bit of zero is 64. -/
theorem test_mask :
    (after (.mmov { word0 with a := .immX, dst := 3, len := .l96, x := 0xabcd0005 }) base).me.mreg 3 = 5 ∧
      (after (.mffs { word0 with a := .imm 0, dst := 3 }) base).me.sreg 3 = 64 := by
  decide

/-- R124, R366: a backward branch raises the stamp of its taken lanes, a forward one does not. -/
theorem test_branch :
    let t := after (.br { word0 with a := .imm 248, guard := ⟨false, 1⟩ }) base
    (t.me.lane 0).pc = 0xe0 ∧ (t.me.lane 0).stamp = 1 ∧ (t.me.lane 8).pc = 0x108 ∧ (t.me.lane 8).stamp = 0 := by
  decide

/-- R367: the link is the address of the next instruction; R368: a zero count gives all ones and branches. -/
theorem test_call_loop :
    let t := after (.call { word0 with a := .imm 4, dst := 2 }) base
    let u := after (.loop { word0 with b := .imm 244, a := .reg 3, dst := 3 }) (withS [(3, 0)] base)
    t.me.vreg 2 5 = 0x108 ∧ t.me.vreg 3 5 = 0 ∧ (t.me.lane 5).pc = 0x110 ∧ u.me.sreg 3 = -1 ∧ (u.me.lane 0).pc = 0xd0 := by
  decide

/-- `regang` with a lane that has gone elsewhere, and with none; `exit` under a guard (R132, R133). -/
theorem witness_regang_exit :
    let s := { base with focus := { base.focus with lanes := 0x7fff } }
    (opens s (.regang word0) = true ∧ (∃ j, j < 64 ∧ s.me.liveLanes.getLsbD j = true ∧ (s.execLanes word0).getLsbD j = false)) ∧
    (∀ j, j < 64 → base.me.liveLanes.getLsbD j = true → (base.execLanes word0).getLsbD j = true) ∧
    (let f := { word0 with guard := ⟨false, 1⟩ }
     opens base (.exit f) = true ∧ base.me.kind ≠ .callee ∧ (base.execLanes f).getLsbD 8 = false ∧ base.me.liveLanes.getLsbD 8 = true) := by
  decide +kernel

theorem test_regang :
    let s := { base with focus := { base.focus with lanes := 0x7fff } }
    ((after (.regang word0) s).me.lane 3).parked = true ∧ ((after (.regang word0) s).me.lane 3).pc = 0x100 ∧
      ((after (.regang word0) base).me.lane 3).parked = false ∧ ((after (.regang word0) base).me.lane 3).pc = 0x108 ∧
      ((after (.exit { word0 with guard := ⟨false, 1⟩ }) base).me.lane 0).exited = true ∧
      ((after (.exit { word0 with guard := ⟨false, 1⟩ }) base).me.lane 8).exited = false := by
  decide

/-- A lane that has exited for `sgetl` and `vsetl` (R362, R363): its value is zero and it takes none. -/
theorem test_lane_moves :
    let s := (withV [(2, 3, 7), (2, 4, 9)] base).modMe fun g => g.setLane 3 { exited := true }
    (after (.sgetl { word0 with ty := 9, a := .reg 2, b := .imm 3, dst := 6 }) s).me.sreg 6 = 0 ∧
      (after (.sgetl { word0 with ty := 9, a := .reg 2, b := .imm 20, dst := 6 }) s).me.sreg 6 = 9 ∧
      (after (.vsetl { word0 with ty := 9, a := .imm 5, b := .imm 3, dst := 4 }) s).me.vreg 4 3 = 0 ∧
      (after (.vsetl { word0 with ty := 9, a := .imm 5, b := .imm 4, dst := 4 }) s).me.vreg 4 4 = 5 := by
  decide

/-- R143, R376: saturation at the type's bounds, element by element. -/
theorem test_vadd_sat :
    let s := withV [(1, 0, 0x7f01ff80), (2, 0, 0x01010180)] base
    (after (.vaddInt { vaddF with ty := 4, fn := 1 }) s).me.vreg 3 0 = 0x7f020080 ∧
      (after (.vaddInt { vaddF with ty := 4 }) s).me.vreg 3 0 = 0x80020000 := by
  decide

/-- R378, R379. -/
theorem test_dot_and_compare :
    let s := withV [(1, 0, 0x01020304), (2, 0, 0x05060708), (3, 0, 1), (1, 1, 9)] base
    (after (.vdp4 { word0 with ty := 4, c := .reg 3, b := .reg 2, a := .reg 1, dst := 4 }) s).me.vreg 4 0 = 71 ∧
      (after (.vcmpInt { word0 with ty := 9, fn := 4, a := .reg 1, b := .imm 8, dst := 2, guard := ⟨false, 1⟩ }) s).me.mreg 2 = 3 ∧
      (after (.vcmpInt { word0 with ty := 9, fn := 5, a := .reg 1, b := .imm 100, dst := 2, guard := ⟨false, 1⟩ }) s).me.mreg 2 = 1 := by
  decide

/-- Sums, products, roots and the canonical NaN of R142 and R381, exact in FP32. -/
theorem test_float :
    let s := withV [(1, 0, 0x3fc00000), (2, 0, 0x40100000), (1, 1, 0x7f800000), (2, 1, 0xff800000), (1, 2, 0x40800000)] base
    (after (.vaddFloat vaddF) s).me.vreg 3 0 = 0x40700000 ∧ (after (.vmulFloat vaddF) s).me.vreg 3 0 = 0x40580000 ∧
      (after (.vaddFloat vaddF) s).me.vreg 3 1 = 0x7fc00000 ∧ (after (.vsqrt { vaddF with b := .reg 0 }) s).me.vreg 3 2 = 0x40000000 ∧
      (after (.vrcp { vaddF with b := .reg 0 }) s).me.vreg 3 2 = 0x3e800000 := by
  decide +kernel

/-- The examples of R385: 200.7 to `.i8`, −3.0 to `.n16`, 70,000.0 to FP16 toward zero. -/
theorem test_vcvt :
    let s := withV [(8, 0, 0x4348b333), (8, 1, 0xc0400000), (8, 2, 0x4788b800)] base
    (after (.vcvt { word0 with ty := 4, a := .reg 8, dst := 9 }) s).me.vreg 9 0 = 127 ∧
      (after (.vcvt { word0 with ty := 7, a := .reg 8, dst := 9 }) s).me.vreg 9 1 = 0 ∧
      (after (.vcvt { word0 with ty := 2, a := .reg 8, dst := 9, pfx := some ⟨0, .reg 0, false, 1, false, 0⟩ }) s).me.vreg 9 2 = 0x7bff := by
  decide

/-- The `vcvtn` of R391's example. -/
def narrowF : Fields := { word0 with fn := 2, c := .reg 40, b := .imm 5, a := .reg 8, dst := 20 }
def widenF : Fields := { word0 with fn := 2, b := .imm 5, a := .reg 20, dst := 8, pfx := some ⟨0, .reg 40, false, 0, false, 0⟩ }
def decodeF : Fields := { word0 with fn := 4, b := .imm 2, a := .reg 1, dst := 40, pfx := some ⟨0, .imm 127, false, 0, false, 0⟩ }

theorem witness_narrow :
    let sl := base.slotAt narrowF narrowF.fn.toNat
    (opSpec (.vcvtn narrowF)).isSome = true ∧ sl.convertible = true ∧ sl.blockOk 5 = true ∧ sl.blk ≠ 0 ∧
      narrowF.prm ≠ modeSR ∧ srcReg base.me narrowF.ka narrowF.a = some 8 ∧ 8 + wideRegs narrowF.ty sl.count ≤ base.me.nregs ∧
      dstReg base.me narrowF + sl.narrowRegs ≤ base.me.nregs ∧ sl.startOk 20 = true ∧ sl.narrowRegs = 2 ∧ 40 + 4 ≤ base.me.nregs ∧
      base.issues (specOf (.vcvtn narrowF)) narrowF ((List.range 8).map (8 + ·) ++ (List.range 4).map (40 + ·))
        ((List.range 2).map (20 + ·) ++ (List.range 4).map (40 + ·)) [] [] = true := by
  decide +kernel

/-- R391's example: 3.0, −0.5, 14.5, 0.1, 0.0, 1.0, −2.0 and 0.25 narrow to E4M3, and widen back. -/
theorem test_narrow_widen :
    let s := withV (([0x40400000, 0xbf000000, 0x41680000, 0x3dcccccd, 0, 0x3f800000, 0xc0000000, 0x3e800000] : List Word).zipIdx.map fun p =>
      (8 + p.2, 0, p.1)) base
    let t := after (.vcvtn narrowF) s
    let u := after (.vcvtw widenF) { t with focus := base.focus }
    t.me.vreg 20 0 = 0x457ed86c ∧ t.me.vreg 21 0 = 0x50e86000 ∧ t.me.vreg 41 0 = 0x00007a00 ∧
      u.me.vreg 8 0 = 0x40400000 ∧ u.me.vreg 10 0 = 0x41600000 ∧ u.me.vreg 11 0 = 0x3dd00000 := by
  decide +kernel

theorem witness_widen_decode :
    let sl := base.slotAt widenF widenF.fn.toNat
    (sl.convertible = true ∧ sl.blockOk 5 = true ∧ sl.blk ≠ 0 ∧ widenF.fop.isZero = false ∧ 20 + sl.narrowRegs ≤ base.me.nregs ∧
      sl.startOk 20 = true ∧
      base.issues (specOf (.vcvtw widenF)) widenF ((List.range 2).map (20 + ·) ++ fopReg widenF) ((List.range 8).map (8 + ·)) [] [] = true) ∧
    ((base.slotN base.me (slotIndex decodeF 4)).code = 14 ∧ decodeF.fop.isZero = false ∧
      base.issues (specOf (.vcbd decodeF)) decodeF (fopReg decodeF) ((List.range 8).map (40 + ·)) [] [] = true) := by
  decide +kernel

theorem test_decodes :
    completes (.vcvtw widenF) base = true ∧ completes (.vcbd decodeF) base = true := by
  decide +kernel

/-- R391: a zero becomes 1; `vgetlfs` reads what `vsetlfs` left. -/
theorem test_lfs :
    let s := withV [(6, 1, 77)] base
    let t := after (.vsetlfs { word0 with ty := 9, a := .reg 6 }) s
    t.me.lfsOf 0 = 1 ∧ t.me.lfsOf 1 = 77 ∧ (after (.vgetlfs { word0 with ty := 9, dst := 7 }) { t with focus := base.focus }).me.vreg 7 1 = 77 := by
  decide

/-- One step of stochastic rounding is 16 steps of the register of R157; SR is a mode of `vcvt` to `.i8`. -/
theorem witness_convert :
    let f : Fields := { word0 with ty := 4, a := .reg 8, dst := 9, pfx := some ⟨0, .reg 0, false, 5, false, 0⟩ }
    opens base (.vcvt f) = true ∧ (base.env f).mode = modeSR ∧ completes (.vcvt f) base = true := by
  decide

/-- A finite value of each format (R154). -/
theorem witness_representable :
    fp32.decode 0x3fc00000 = .fin false 0xc00000 (-23) false ∧ e2m1.decode 3 = .fin false 3 (-1) false ∧
      fp32.round modeRDN false true 0 (fp32.decode 0x3fc00000) = 0x3fc00000 := by
  decide

/-- The example of R395: v1 is 10·lane, lanes 12 to 15 have exited, lanes 0 to 7 execute; v3 is 15 − lane. -/
def diverged : State :=
  let s := stateOf (gangWith (vreg 1 (fun j => BitVec.ofNat 32 (10 * j)) ++ vreg 3 fun j => BitVec.ofNat 32 (15 - j)))
  let s := s.modMe fun g => ([12, 13, 14, 15] : List Nat).foldl (fun g j => g.setLane j { exited := true }) g
  { s with focus := { s.focus with lanes := 0x00ff } }

theorem test_cross_lane :
    let t := after (.vperm { word0 with ty := 9, a := .reg 1, b := .reg 3, dst := 2 }) diverged
    let u := after (.vscan { word0 with ty := 8, a := .reg 1, dst := 4 }) diverged
    let w := after (.vred { word0 with ty := 8, a := .reg 1, dst := 5 }) diverged
    t.me.vreg 2 3 = 0 ∧ t.me.vreg 2 4 = 110 ∧ t.me.vreg 2 7 = 80 ∧ u.me.vreg 4 1 = 10 ∧ u.me.vreg 4 2 = 30 ∧ u.me.vreg 4 7 = 280 ∧
      w.me.vreg 5 0 = 280 ∧ w.me.vreg 5 8 = 0 := by
  decide +kernel

theorem test_compact_expand :
    let s := diverged.modMe fun g => g.setM 4 0x0a4
    (after (.vcomp { word0 with ty := 9, a := .reg 1, b := .reg 4, dst := 2 }) s).me.vreg 2 0 = 20 ∧
      (after (.vcomp { word0 with ty := 9, a := .reg 1, b := .reg 4, dst := 2 }) s).me.vreg 2 2 = 70 ∧
      (after (.vcomp { word0 with ty := 9, a := .reg 1, b := .reg 4, dst := 2 }) s).me.vreg 2 3 = 0 ∧
      (after (.vexpd { word0 with ty := 9, a := .reg 1, b := .reg 4, dst := 2 }) s).me.vreg 2 5 = 10 := by
  decide +kernel

/-! ## Groups 0x6 and 0x7 -/

/-- v16 = 8·lane and v24 = 16·lane are offsets; s1, s2 and s3 are the bases of the coherent, software-managed and broadcast pages,
s4 is zero (a scratchpad base). -/
def memory : State :=
  withS [(1, 0x10000), (2, 0x20000), (3, 0x30000), (4, 0)]
    (stateOf (gangWith ((vreg 5 fun j => BitVec.ofNat 32 (j + 1)) ++ (vreg 16 fun j => BitVec.ofNat 32 (8 * j)) ++
      vreg 24 fun j => BitVec.ofNat 32 (16 * j))))

/-- Where lane j's access at offset 8·j of a page lands. -/
def pageAt (k : PageKind) (pa : Nat) (j : Nat) : Trans := { pa := pa + 8 * j, kind := k, w := true, x := false, imm := false }

/-- Every executing lane's access lands at `p`, in a state and in the state its operands are read in. -/
def aims (s : State) (i : Instr) (p : Nat → Aim) : Bool :=
  match element i with
  | some e =>
    let o := s.plainOperands (specOf i) e.f
    s.issues (specOf i) e.f (e.reads s) [] [] [] && (List.range 64).all fun j => !(s.execLanes e.f).getLsbD j ||
      (s.aim e.f.scratch e.want (e.acc (specOf i) s j).va (e.acc (specOf i) s j).bytes (e.acc (specOf i) s j).bytes == .ok (p j) &&
       !s.laneWaits e.f j (e.acc (specOf i) s j) &&
       o.aim e.f.scratch e.want (e.acc (specOf i) o j).va (e.acc (specOf i) o j).bytes (e.acc (specOf i) o j).bytes == .ok (p j) &&
       !o.laneWaits e.f j (e.acc (specOf i) o j))
  | none => false

def ldF : Fields := { word0 with ty := 9, a := .reg 1, b := .reg 16, dst := 20 }
def stF : Fields := { word0 with ty := 9, a := .reg 1, b := .reg 16, c := .reg 5 }
/-- The scratchpad forms need CTL; X names v16 as v[s0 + 16] (R398). -/
def inSpad (f : Fields) : Fields := { f with a := .reg 4, b := .ind 0, x := 0x1000, len := .l128, ctl := { f.ctl with sp := 1 } }
def atomF : Fields := { word0 with ty := 9, a := .reg 1, b := .reg 16, c := .reg 5, dst := 20 }

theorem witness_element_accesses :
    ([.ld ldF, .st stF, .atom atomF, .cas atomF] : List Instr).all (fun i => aims memory i fun j => .glob (pageAt .coherent 0x10000 j)) = true ∧
    ([.ld (inSpad ldF), .st (inSpad stF), .atom (inSpad atomF)] : List Instr).all (fun i => aims memory i fun j => .spad (8 * j)) = true ∧
    ([.ld { ldF with a := .reg 2 }, .st { stF with a := .reg 2 }] : List Instr).all
      (fun i => aims memory i fun j => .glob (pageAt .swm 0x20000 j)) = true ∧
    memory.focus.fly = false ∧ memory.raceMode memory.me = 0 ∧ memory.route 0 0 = .to 0 ∧
      (∀ n, n < 4 → (memory.myCore.wctl.get 0 n).getLsbD 0 = false) := by
  decide +kernel

/-- R144, R166, R401: a store is little-endian, a load of a signed byte extends. -/
theorem test_store_load :
    let t := after (.st { stF with c := .reg 24 }) memory
    let u := after (.ld { ldF with ty := 4, a := .imm 0, b := .reg 16, dst := 20 }) memory
    t.dram.read 0x10048 = 144 ∧ t.dram.read 0x10049 = 0 ∧
      (after (.ld ldF) { t with focus := memory.focus }).me.vreg 20 9 = 144 ∧
      (after (.ld { ldF with ty := 4 }) { t with focus := memory.focus }).me.vreg 20 9 = 0xffffff90 ∧ u.focus.core = 0 := by
  decide +kernel

/-- An access left in flight (R199) writes no register yet. -/
theorem test_in_flight :
    let s := { memory with focus := { memory.focus with fly := true } }
    aims s (.ld ldF) (fun j => .glob (pageAt .coherent 0x10000 j)) = true ∧ (after (.ld ldF) s).pends.length = 16 ∧
      (after (.ld ldF) s).me.vreg 20 3 = 0 := by
  decide +kernel

/-- R405: the old value is returned and the sum left; R406: the exchange happens where the values agree. -/
theorem test_atom_cas :
    let s := { memory with dram := [(0x10000, 7)] }
    let t := after (.atom atomF) s
    let u := after (.cas { atomF with dst := 21 }) (withV [(21, 0, 7), (21, 1, 9)] s)
    t.me.vreg 20 0 = 7 ∧ t.dram.read 0x10000 = 8 ∧ t.dram.read 0x10008 = 2 ∧
      u.me.vreg 21 0 = 7 ∧ u.dram.read 0x10000 = 1 ∧ u.me.vreg 21 1 = 0 ∧ u.dram.read 0x10008 = 0 := by
  decide +kernel

theorem witness_atomic :
    let a : Access := { va := 0x10000, bytes := 4, kind := .atom 0, ty := 9, data := 5, scope := 0, noWatch := memory.noWatch }
    a.kind.isAtomic = true ∧ (pageAt .coherent 0x10000 0).kind ≠ .broadcast ∧ a.bytes = tyBits a.ty / 8 ∧ (0x10000 : Nat) % 4 = 0 ∧
      a.data < 2 ^ tyBits a.ty ∧ memory.route memory.myCluster (0x10000 / 2 ^ 27) = .to 0 := by
  decide

/-- A software-managed line in the L1 (R185, R191). -/
def cached : State := memory.modCore 0 fun k => { k with l1 := [(0x800, { valid := true, mask := 1, data := 0x2211 })] }
def cachedL2 : State := cached.modCluster 0 fun k => { k with l2 := [(0x800, { valid := true, mask := 2, data := 0x4433 })] }

theorem witness_managed :
    (pageAt .swm 0x20000 0).kind = .swm ∧ (tagsOf cached.myCore.l1).contains (0x20000 / 256) = true ∧ (cached.l1Line 0 0x800).valid = true ∧
      (tagsOf (cachedL2.cluster (clusterOf 0)).l2).contains (0x800 / 4) = true ∧ cachedL2.route 0 (0x800 * 64 / 2 ^ 27) = .to 0 ∧
      cachedL2.physOf (0x800 * 64 / 2 ^ 27) = 0 := by
  decide

theorem test_managed :
    let t := after (.st { stF with a := .reg 2 }) cached
    let u := cachedL2.l1WriteBack 0 0x800
    t.dram = [] ∧ (t.l1Line 0 0x800).byteAt 8 = 2 ∧ (t.l1Line 0 0x800).mask.getLsbD 8 = true ∧ (t.l1Line 0 0x800).byteAt 0 = 1 ∧
      (u.l2Line 0 0x800).byteAt 0 = 0x11 ∧ (u.l2Line 0 0x800).byteAt 1 = 0x44 ∧ (u.l2Line 0 0x800).mask = 3 ∧
      (u.l2WriteBack 0 0x800).dram = [(0x20000, 0x11), (0x20001, 0x44)] := by
  decide +kernel

def fmtF (op : Nat) : Fields :=
  { word0 with a := .reg 1, b := .ind 0, c := if op = 1 then .reg 40 else .reg 0, x := 0x1000, dst := if op = 0 then 40 else 0, len := .l128
               ctl := { word0.ctl with fmte := true, sl := 3 } }

theorem witness_formatted :
    let sl := memory.slotAt (fmtF 0) 3
    sl.convertible = true ∧ sl.blk = 0 ∧ wideRegs 0 sl.count = 8 ∧
      memory.issues (specOf (.ld (fmtF 0))) (fmtF 0) [] ((List.range 8).map (40 + ·)) [] [] = true ∧
      memory.issues (specOf (.st (fmtF 1))) (fmtF 1) ((List.range 8).map (40 + ·)) [] [] [] = true ∧
      (List.range 16).all (fun j => (memory.fmtAim (fmtF 0) .read sl (memory.sa (specOf (.ld (fmtF 0))) (fmtF 0)) (8 * j)).isOk &&
        (memory.fmtAim (fmtF 1) .write sl (memory.sa (specOf (.st (fmtF 1))) (fmtF 1)) (8 * j)).isOk) = true ∧
      completes (.ld (fmtF 0)) memory = true ∧ completes (.st (fmtF 1)) memory = true := by
  decide +kernel

/-- R402: eight FP16 ones from memory widen to FP32 ones. -/
theorem test_formatted_load :
    (after (.ld (fmtF 0)) { memory with dram := [(0x10001, 0x3c), (0x1000f, 0x3c)] }).me.vreg 40 0 = 0x3f800000 ∧
      (after (.ld (fmtF 0)) { memory with dram := [(0x10001, 0x3c), (0x1000f, 0x3c)] }).me.vreg 47 0 = 0x3f800000 := by
  decide +kernel

def ldfeF : Fields := { word0 with ty := 9, fn := 1, a := .reg 4, b := .reg 24, dst := 20 }
def stfeF : Fields := { word0 with ty := 9, a := .reg 4, b := .reg 24, c := .reg 5 }
/-- The granules of the sixteen lanes are full. -/
def filled : State := memory.modCore 0 fun k =>
  { k with spad := [(32, 77)], spadFE := (List.range 16).map fun j => (j, true), lastIssue := [(0, some 0)] }

theorem witness_full_empty :
    opens filled (.ldfe ldfeF) = true ∧ opens filled (.stfe stfeF) = true ∧ ldfeF.m58 = false ∧ stfeF.m58 = false ∧ ldfeF.m57 = true ∧
      (∀ j, j < 16 → filled.aim true .read (filled.eaOf (specOf (.ldfe ldfeF)) ldfeF j) 4 4 = .ok (.spad (16 * j)) ∧
        filled.aim true .read (filled.eaOf (specOf (.stfe stfeF)) stfeF j) 4 4 = .ok (.spad (16 * j)) ∧ filled.granFull 0 j = true) ∧
      (∀ n, n < 4 → (filled.myCore.wctl.get 0 n).getLsbD 0 = false) ∧ filled.myCore.lastIssue.get none 0 = some 0 ∧
      filled.myCore.feWait = [] ∧ filled.myCore.gangs.all (fun g => g.2.waits.isEmpty) = true ∧
      completes (.ldfe ldfeF) filled = true ∧ completes (.stfe stfeF) filled = true := by
  decide +kernel

theorem test_full_empty :
    let t := after (.ldfe ldfeF) filled
    let u := after (.stfe stfeF) memory
    t.me.vreg 20 2 = 77 ∧ t.granFull 0 2 = false ∧ u.granFull 0 2 = true ∧ u.spadRead 0 32 4 = 3 ∧
      (after (.ldfe ldfeF) memory).me.waits.length = 1 ∧ ((after (.ldfe ldfeF) memory).core 0).feWait.length = 16 := by
  decide +kernel

theorem witness_empty_granule :
    let f := { ldfeF with guard := ⟨false, 1⟩ }
    let s := memory.modMe fun g => g.setM 1 8
    s.execLanes f = laneBit 3 ∧ opens s (.ldfe f) = true ∧ f.m58 = false ∧ s.granFull 0 3 = false ∧
      s.aim true .read (s.eaOf (specOf (.ldfe f)) f 3) 4 4 = .ok (.spad 48) ∧
      s.mustWait 0 0 3 { va := 2 ^ 64, bytes := 4, kind := .load, rel := false, scope := 1 } = false := by
  decide +kernel

def rangeF : Fields := { word0 with a := .reg 2, b := .imm 64 }

theorem witness_range :
    let s := cachedL2
    let sp := specOf (.rwb rangeF)
    let f := { rangeF with fn := 1 }
    ([.rwb rangeF, .rwb f, .rinv rangeF, .prf rangeF, .lkl { rangeF with dst := 10 }, .ulkl rangeF] : List Instr).all
      (fun i => opens s i && completes i s) = true ∧ rangeReady s sp rangeF (2 ^ 16) true [] ∧
      rangeReady s sp f (2 ^ 16) false (s.backLines (s.sa sp f) (s.sb sp f)) ∧
      rangeReady s sp f (2 ^ 16) false (s.lockMissing f (linesOf (s.rangeLines (s.sa sp f) (s.sb sp f)))) ∧
      rangeReady s sp f (2 ^ 16) false (s.dirtyL2 (inLines (s.rangeLines (s.sa sp f) (s.sb sp f)))) ∧
      rangeReady s sp f (2 ^ 16) true (s.heldDirty (s.rangeLines (s.sa sp f) (s.sb sp f))) ∧
      rangeLine s sp rangeF 0x800 ∧ s.lineReach 0x800 (s.orderOf rangeF) = none ∧
      lockFits s.myCore.l1 (lockId 0 0) 64 4 1024 (linesOf (s.rangeLines 0x20000 64)) = true := by
  unfold rangeReady rangeLine; decide +kernel

/-- R192, R410. -/
theorem test_range :
    ((after (.rwb { rangeF with fn := 1 }) cachedL2).dram = [(0x20000, 0x11), (0x20001, 0x44)]) ∧
      ((after (.rinv rangeF) cachedL2).l1Line 0 0x800).valid = false ∧ (after (.lkl { rangeF with dst := 10 }) cachedL2).me.sreg 10 = 1 ∧
      lockId 0 0 ∈ ((after (.lkl { rangeF with dst := 10 }) cachedL2).l1Line 0 0x800).lock := by
  decide +kernel

def stbwF : Fields := { word0 with fn := 3, c := .reg 5, b := .imm 0, a := .reg 3 }

theorem witness_fence_broadcast :
    (opens memory (.fence { word0 with ty := 14, fn := 4 }) = true ∧ memory.releaseWaits 0xffff 5 = false ∧ memory.bcastClear 0 = true) ∧
    (opens memory (.fence { word0 with ty := 4 }) = true ∧ ({ word0 with ty := 4 } : Fields).fenceKind = 1 ∧
      memory.owes 0xffff (·.kind.returns) = false) ∧
    (opens memory (.fence { word0 with ty := 8 }) = true ∧ ({ word0 with ty := 8 } : Fields).fenceKind = 2) ∧
    (memory.issues (specOf (.stbw stbwF)) stbwF ((List.range 2).map (5 + ·)) [] [] [] = true ∧ (memory.me.gw = 16) ∧
      memory.aim false .window (memory.eaUni (specOf (.stbw stbwF)) stbwF) 128 128 = .ok (.glob (pageAt .broadcast 0x30000 0)) ∧
      pagesOpen memory (fun _ => 0x30000) 0xffff ∧ memory.eaUni (specOf (.stbw stbwF)) stbwF = 0x30000 ∧
      memory.busQueued (busOf 0x30000) 0 < 64 ∧ memory.groupWaits (memory.execLanes stbwF) (fun x => x.acq || memory.windowMeets x 0x30000 128) false 0 = false ∧
      (memory.beginWalks [0x30000]).storeNear 0 (busOf 0x30000) = true) := by
  unfold pagesOpen; decide +kernel

/-- A store of the transmitter's own core is a message at once; left in flight it is a packet; a release fence holds the lanes' writes. -/
theorem test_fence_broadcast :
    let s := { memory with focus := { memory.focus with fly := true } }
    completes (.fence { word0 with ty := 14, fn := 4 }) memory = true ∧ (after (.stbw stbwF) memory).msgs.length = 1 ∧
      (after (.stbw stbwF) memory).pends.length = 16 ∧ (after (.stbw stbwF) s).msgs = [] ∧ (after (.stbw stbwF) s).packets.length = 1 ∧
      (after (.fence { word0 with ty := 9, fn := 4 }) { memory with nextId := 5 }).me.fences.get (0, 0) 15 = (5, 3) := by
  decide +kernel

/-- A barrier object of three arrivals at 0x10000. -/
def barred (count : Byte) : State := { memory with dram := if count = 0 then [(0x10009, 3)] else [(0x10005, count), (0x10009, 3)] }
def barF : Fields := { word0 with a := .reg 1, b := .imm 0, dst := 6 }
def barinitF : Fields :=
  { word0 with a := .reg 1, b := .immX, c := .reg 5, len := .l128, x := 0, ctl := { word0.ctl with ord := 2, sc := 2 } }

theorem witness_barrier :
    let b : BarAt := ⟨false, 0, 0x10000⟩
    let arr : Fields := { barF with c := .imm 1 }
    let wait : Fields := { barF with c := .reg 7 }
    (opens (barred 0) (.barinit barinitF) = true ∧ barReady (barred 0) (specOf (.barinit barinitF)) barinitF b .store ∧
      (barred 0).releaseWaits 0xffff 2 = false ∧ (barred 0).sc (specOf (.barinit barinitF)) barinitF = 20) ∧
    (opens (barred 0) (.bararr arr) = true ∧ barReady (barred 0) (specOf (.bararr arr)) arr b .cas ∧ barBad (barValue (barred 0) b) = false ∧
      barCount (barValue (barred 0) b) = 0 ∧ barCount (barValue (barred 2) b) = 2 ∧ barExpect (barValue (barred 2) b) = 3 ∧
      (barred 0).releaseWaits 0xffff (barScope (barValue (barred 0) b)) = false) ∧
    (opens (barred 0) (.barwait wait) = true ∧ barReady (barred 0) (specOf (.barwait wait)) wait b .load ∧
      (withS [(7, 32)] (barred 0)).sc (specOf (.barwait wait)) wait = 32 ∧ (withS [(7, 15)] (barred 0)).sc (specOf (.barwait wait)) wait = 15 ∧
      barPhase (barValue (barred 0) b) = 0 ∧ ((barred 0).barBegin (specOf (.barwait wait)) wait).barReach b false ((barred 0).orderOf wait) = none) := by
  unfold barReady; decide +kernel

/-- R412, R413, R414: an arrival counts, the last one completes the phase; a wait on the old phase passes, on the present one stays. -/
theorem test_barrier :
    let b : BarAt := ⟨false, 0, 0x10000⟩
    let t := after (.bararr { barF with c := .imm 1 }) (barred 0)
    let u := after (.bararr { barF with c := .imm 1 }) (barred 2)
    barCount (barValue t b) = 1 ∧ t.me.sreg 6 = 0 ∧ barCount (barValue u b) = 0 ∧ barPhase (barValue u b) = 1 ∧ u.me.sreg 6 = 16 ∧
      completes (.barwait { barF with c := .reg 7 }) (withS [(7, 15)] (barred 0)) = true ∧
      (after (.barwait { barF with c := .reg 7 }) (withS [(7, 32)] (barred 0))).me.waits.length = 1 ∧
      barExpect (barValue (after (.barinit barinitF) memory) b) = 20 := by
  decide +kernel

/-! ## Groups 0x8 to 0xc -/

/-- Contexts 1 and 4 to 7 have a ring of 64 entries at VA 0x18000. -/
def ringed : State := memory.modMe fun g => { g with ctxs := ([1, 4, 5, 6, 7] : List Nat).map fun n => (n, { chring := 0x18001 }) }
def matF (sc sl : Nat) : Fields :=
  { word0 with a := .reg 32, b := .scal 20, c := .immX, x := 64, dst := 10, len := .l128
               ctl := { word0.ctl with sc := BitVec.ofNat 3 sc, fmte := true, sl := BitVec.ofNat 3 sl } }
def hadF : Fields := { matF 5 1 with b := .reg 0 }

theorem witness_matrix :
    let s := withS [(20, 0x400)] ringed
    (matFormats 0 (matA s (matF 4 6)) (matB s (matF 4 6)) = true ∧ matDepth 0 (matA s (matF 4 6)) (matB s (matF 4 6)) 64 = true ∧
      (matRun s (specOf (.mma (matF 4 6))) (matF 4 6)).length = 32 ∧
      matOff s (specOf (.mma (matF 4 6))) (matF 4 6) 0 0xffff 1 = some 0x400 ∧ (matB s (matF 4 6)).imageBytes 64 = 128 ∧
      s.issues (specOf (.mma (matF 4 6))) (matF 4 6) (matRun s (specOf (.mma (matF 4 6))) (matF 4 6)) [] [] (matRun s (specOf (.mma (matF 4 6))) (matF 4 6)) = true) ∧
    (matFormats 1 (matA s hadF) (matB s hadF) = true ∧ matDepth 1 (matA s hadF) (matB s hadF) 64 = true ∧
      s.issues (specOf (.mhad hadF)) hadF (matRun s (specOf (.mhad hadF)) hadF) [] [] (matRun s (specOf (.mhad hadF)) hadF) = true) ∧
    (matFormats 2 (matA s (matF 4 0)) (matB s (matF 4 0)) = true ∧
      s.issues (specOf (.mpass (matF 4 0))) (matF 4 0) (matRun s (specOf (.mpass (matF 4 0))) (matF 4 0)) [] []
        (matRun s (specOf (.mpass (matF 4 0))) (matF 4 0)) = true) ∧
    (∀ n, n ∈ [1, 4, 5, 6, 7] → ringOk (s.me.ctx n).chring = true ∧ ((s.me.ctx n).tliss - (s.me.ctx n).tlcnt).toNat < 64 ∧
      s.translateFor 0 s.me (s.me.nextSlot n) .write = .ok (pageAt .coherent 0x18000 0) ∧ s.chainReach n = none) ∧
    s.owes (BitVec.allOnes 64) (fun _ => true) = false := by
  decide +kernel

set_option maxRecDepth 4000 in
theorem test_matrix :
    let s := withS [(20, 0x400)] ringed
    let t := after (.mma (matF 4 6)) s
    t.me.sreg 10 = 1 ∧ (t.me.ctx 4).tliss = 1 ∧ (t.core 0).octQ.length = 2 ∧ t.homeRead 0 0x18000 8 = 0x18040 ∧
      completes (.mhad hadF) s = true ∧ completes (.mpass (matF 4 0)) s = true := by
  decide +kernel

def amF : Fields := { word0 with a := .imm 3, b := .imm 3, dst := 64 }
def tiled : State := memory.modCore 0 fun k => { k with am := [(2048 * 3 + 32 * 5 + 1, 99)] }

theorem witness_tiles :
    tiled.issues (specOf (.amld amF)) amF [] ((List.range 8).map (64 + ·)) [] [] = true ∧
      tiled.issues (specOf (.amtr amF)) amF [] ((List.range 8).map (64 + ·)) [] [] = true ∧
      tiled.issues (specOf (.amst { amF with dst := 0, c := .reg 64 })) { amF with dst := 0, c := .reg 64 } ((List.range 8).map (64 + ·)) [] [] [] = true ∧
      opens tiled (.amclr { word0 with a := .imm 3 }) = true ∧ tiled.sa (specOf (.amld amF)) amF = 3 ∧ tiled.sb (specOf (.amld amF)) amF = 3 ∧
      3 < tiled.me.seat.amt ∧ tiled.me.tileBusy 3 = false := by
  decide +kernel

/-- R424: lane j reads row 3 + j, columns 0 to 7; the transposing form reads its columns. -/
theorem test_tiles :
    (after (.amld amF) tiled).me.vreg 65 2 = 99 ∧ (after (.amtr { amF with b := .imm 0 }) tiled).me.vreg 69 1 = 99 ∧
      (after (.amclr { word0 with a := .imm 3 }) tiled).amRead 0 tiled.me 3 5 1 = 0 ∧
      (after (.amst { amF with dst := 0, b := .imm 0, c := .reg 5 }) tiled).amRead 0 tiled.me 3 6 0 = 7 := by
  decide +kernel

/-- Window 2 sums up to four contributions of each lane; window 3 keeps an index maximum. -/
def winF (a : Nat) : Fields := { word0 with a := .imm (BitVec.ofNat 8 a) }
def windowed : State := memory.modMe fun g => { g with wins := [(2, { wdesc := mkDesc 0 0 4, wlen := 4 }), (3, { wdesc := mkDesc 8 0 4, wlen := 4 })] }
def wdeclF : Fields := { winF 1 with b := .imm 0, c := .imm 4 }

theorem witness_windows :
    let s := windowed
    (opens s (.wdecl wdeclF) = true ∧ names s (specOf (.wdecl wdeclF)) wdeclF 0 {} 16 ∧ winOk 16 0 0 4 = true ∧
      s.sc (specOf (.wdecl wdeclF)) wdeclF = 4) ∧
    (opens s (.wpush { winF 2 with b := .reg 5 }) = true ∧ names s (specOf (.wpush { winF 2 with b := .reg 5 })) { winF 2 with b := .reg 5 } 0 (s.me.win 2) 16 ∧
      (s.me.win 2).en = true ∧ s.owes 0xffff (·.acq) = false ∧ s.releaseWaits 0xffff 1 = false) ∧
    (s.issues (specOf (.wq { winF 2 with dst := 4 })) { winF 2 with dst := 4 } [] [] [] [] = true ∧ winIsIdx (s.me.win 2).opc = false ∧
      s.issues (specOf (.wq { winF 3 with dst := 4 })) { winF 3 with dst := 4 } [] [5] [] [] = true ∧ winIsIdx (s.me.win 3).opc = true) ∧
    (opens s (.wrst (winF 2)) = true ∧ opens s (.wlen { winF 2 with b := .imm 2 }) = true ∧
      s.sb (specOf (.wlen { winF 2 with b := .imm 2 })) { winF 2 with b := .imm 2 } = 2 ∧ (s.me.win 2).wmax = 4) := by
  unfold names; decide +kernel

theorem test_windows :
    let t := after (.wpush { winF 2 with b := .reg 5 }) windowed
    let u := after (.wpush { winF 2 with b := .reg 5 }) { t with focus := windowed.focus }
    (after (.wq { winF 2 with dst := 4 }) { u with focus := windowed.focus }).me.vreg 4 3 = 8 ∧
      (after (.wrst (winF 2)) { u with focus := windowed.focus }).me.win 2 = { wdesc := mkDesc 0 0 4, wlen := 4 } ∧
      ((after (.wlen { winF 2 with b := .imm 2 }) windowed).me.win 2).wlen = 2 ∧
      ((after (.wdecl wdeclF) windowed).me.win 1).wdesc = mkDesc 0 0 4 := by
  decide +kernel

/-- A lane group with one old and one new contribution, and a window that an image can hold. -/
theorem witness_stacks :
    (let g : WinGroup := { front := [7], back := [3], bagg := 3 }
     g.front = (List.range 1).map (fun i => rightFold 0 (([7] : List DWord).drop i)) ∧ g.bagg = leftFold 0 [3]) ∧
    (let w := windowed.me.win 2
     winOk 16 w.opc w.glog w.wmax = true ∧ w.wdesc = mkDesc w.opc w.glog w.wmax ∧ w.wlen = BitVec.ofNat 64 w.len ∧ 1 ≤ w.len ∧ w.len ≤ w.wmax ∧
       w.group 0 = {} ∧ leftFold w.opc [] = 0 ∧ winCanon w.opc 0 = 0) := by
  decide +kernel

def wsaveF : Fields := { winF 2 with b := .reg 1 }

theorem witness_window_images :
    let s := after (.wsave wsaveF) windowed
    let u := { s with focus := windowed.focus }
    (opens windowed (.wsave wsaveF) = true ∧ (windowed.me.win 2).en = true ∧ windowed.sb (specOf (.wsave wsaveF)) wsaveF = 0x10000 ∧
      windowed.imageFault 0x10000 ((windowed.me.win 2).imageBytes 16) .write = none ∧ windowed.raceMode windowed.me = 0 ∧ s.focus.done = true) ∧
    (opens u (.wload wsaveF) = true ∧ u.imageFault 0x10000 (u.imageSize 16 0x10000) .read = none ∧
      (readWindow 16 (u.imagePeek 0x10000 (u.imageSize 16 0x10000))).isSome = true ∧ completes (.wload wsaveF) u = true) := by
  decide +kernel

/-- The instruction line at VA 0x100 holds `vadd.i32 b0, v5, v16`: the body of recipe 5. -/
def bodyI : Instr := .vaddInt { word0 with ty := 8, a := .reg 5, b := .reg 16, nwb := true }
def coded : State := memory.modCore 0 fun k => { k with icache := [(4, BitVec.ofNat 512 (leNat (encode bodyI)))] }
def rtagF : Fields := { word0 with a := .imm 5, b := .imm 0, c := .imm 1, dst := 40 }
def tagged : State := { after (.rtag rtagF) coded with focus := memory.focus }
def dropped : State := { after (.rdrop { word0 with a := .reg 40 }) tagged with focus := memory.focus }

theorem witness_recipes :
    (opens coded (.rtag rtagF) = true ∧ (match coded.tagCheck rtagF 0xffff with
      | .ok x read vals => x.vecOps == [5, 16] && read == [0x100] && vals.length == 16 && coded.issues (specOf (.rtag rtagF)) rtagF x.vecOps [] [] []
      | _ => false) = true) ∧
    (opens tagged (.rdrop { word0 with a := .reg 40 }) = true ∧ tagged.me.tagOf 40 = some 5 ∧ tagged.me.matrixHolds [40] = false ∧
      (tagged.me.recipe 5).vecOps = [5, 16] ∧ tagged.pends = []) ∧
    (dropped.me.droppedAs 40 = some 5 ∧
      dropped.issues (specOf (.rmat { word0 with a := .reg 40 })) { word0 with a := .reg 40 } [40] [] [] [40] = true ∧
      dropped.issues (specOf (.rclr { word0 with a := .imm 5 })) { word0 with a := .imm 5 } [40] [] [] [40] = true) := by
  decide +kernel

/-- R262, R264: a dropped register reads as its body computes it. -/
theorem test_recipes :
    tagged.me.vreg 40 2 = 19 ∧ (after (.vmov { word0 with ty := 9, a := .reg 40, dst := 41 }) dropped).me.vreg 41 2 = 19 ∧
      ((after (.rmat { word0 with a := .reg 40 }) dropped).me.recipe 5).drop = false ∧
      ((after (.rclr { word0 with a := .imm 5 }) dropped).me.recipe 5).act = false := by
  decide +kernel

def cpF : Fields := { word0 with a := .reg 10, b := .reg 3, c := .immX, dst := 11, len := .l128, x := 0x4000, ctl := { word0.ctl with sc := 1 } }
def coF (fnc : Nat) : Fields :=
  { word0 with a := .reg 10, b := .reg 3, c := .immX, dst := 11, len := .l128, x := 0x4000
               ctl := { word0.ctl with sc := 6, xmod := BitVec.ofNat 14 fnc } }
def eputF : Fields := { word0 with a := .reg 4, b := .reg 5, c := .immX, dst := 6, len := .l128, x := 0x2000, ctl := { word0.ctl with sc := 7 } }

set_option maxRecDepth 8000 in
theorem witness_engines :
    ([.cp cpF, .bcast (coF 0), .bcred (coF 0x41), .bcall (coF 0x41), .eput eputF] : List Instr).all
      (fun i => opens ringed i && completes i ringed) = true ∧ (ringed.slotN ringed.me 0).splits = false ∧ cpF.ctl.conv = 0 := by
  decide +kernel

set_option maxRecDepth 4000 in
/-- A scaled copy: DST's and SRC's descriptors, and the scales by conversion (R439). -/
theorem witness_scaled_copy :
    let f := { cpF with ctl := { cpF.ctl with fmte := true, sl := 2, xmod := 0x1000 } }
    let g := { cpF with ctl := { cpF.ctl with fmte := true, sl := 2, xmod := 0x2000 } }
    opens ringed (.cp f) = true ∧ opens ringed (.cp g) = true ∧ f.ctl.conv = 1 ∧ g.ctl.conv = 2 ∧
      (ringed.slotN ringed.me 2).splits = true ∧ (3 : BitVec 8).toNat ≤ 62 := by
  decide +kernel

set_option maxRecDepth 4000 in
theorem test_engines :
    let t := after (.cp cpF) ringed
    t.me.sreg 11 = 1 ∧ (t.me.ctx 1).tliss = 1 ∧ t.homeRead 0 0x18008 8 = 1 ∧ t.homeRead 0 0x18010 1 = 1 := by
  decide +kernel

def tlF (sc n : Nat) : Fields :=
  { word0 with a := .imm (BitVec.ofNat 8 n), b := .immX, len := .l128, ctl := { word0.ctl with sc := BitVec.ofNat 3 sc } }
def chained : State := ringed.modMe fun g => g.setCtx 4 { chring := 0x18001, tliss := 3, tlcnt := 1 }

theorem witness_waits :
    let lt (n : Nat) : Fields := { tlF 4 n with fn := 1 }
    (opens chained (.tlwaitGe (tlF 4 1)) = true ∧ waitFor chained (specOf (.tlwaitGe (tlF 4 1))) (tlF 4 1) = 1 ∧
      opens chained (.tlwaitGe (tlF 4 3)) = true ∧ waitFor chained (specOf (.tlwaitGe (tlF 4 3))) (tlF 4 3) = 3 ∧
      (chained.me.ctx 4).stopped = false) ∧
    (opens chained (.tlwaitLt (lt 3)) = true ∧ waitFor chained (specOf (.tlwaitLt (lt 3))) (lt 3) = 3 ∧
      opens chained (.tlwaitLt (lt 2)) = true ∧ waitFor chained (specOf (.tlwaitLt (lt 2))) (lt 2) = 2) := by
  decide +kernel

theorem test_waits :
    let waits (i : Instr) : List (Option (Nat × Nat × Bool)) := (after i chained).me.waits.map (·.tl)
    waits (.tlwaitGe (tlF 4 1)) = [] ∧ waits (.tlwaitGe (tlF 4 3)) = [some (4, 3, true)] ∧
      waits (.tlwaitLt { tlF 4 3 with fn := 1 }) = [] ∧ waits (.tlwaitLt { tlF 4 2 with fn := 1 }) = [some (4, 2, false)] ∧
      ((after (.tlwaitGe (tlF 4 1)) chained).me.lane 0).pc = 0x108 ∧ ((after (.tlwaitGe (tlF 4 3)) chained).me.lane 0).pc = 0x100 := by
  decide +kernel

/-- A record at 0x11000 with code 0x500 and JOIN 2; s5 is its base, s6 the target core. -/
def recorded : State :=
  withS [(5, 0x11000), (6, 0), (7, 0x11000), (12, 0x10000)]
    { memory with dram := Memory.writeN (Memory.writeN [] 0x11000 8 0x500) 0x11018 2 2 }
def mkrecF : Fields := { word0 with a := .reg 12, b := .immX, c := .reg 9, len := .l96, x := 0x100 }
def spawnF : Fields := { word0 with a := .imm 64, b := .reg 12, c := .reg 8 }
def postF : Fields := { word0 with a := .reg 5, b := .reg 6, c := .imm 0 }
def joinF : Fields := { word0 with a := .reg 7, c := .imm 0 }

theorem witness_records :
    (opens recorded (.mkrec mkrecF) = true ∧ (recorded.me.sreg 12).toNat % 32 = 0 ∧ (branchTarget recorded mkrecF mkrecF.b).toNat % 32 = 0 ∧
      recorded.storeCauses (recStores 0x10000 (recorded.newRecord (specOf (.mkrec mkrecF)) mkrecF)) 0xffff = [] ∧
      recorded.storeWaits (recStores 0x10000 (recorded.newRecord (specOf (.mkrec mkrecF)) mkrecF)) 0xffff = false) ∧
    (opens recorded (.spawn spawnF) = true ∧ opens recorded (.spawnOne { spawnF with fn := 1 }) = true ∧ settled recorded ∧
      recorded.sb (specOf (.spawn spawnF)) spawnF % 32 = 0 ∧ (branchTarget recorded spawnF spawnF.a).toNat % 32 = 0 ∧ recorded.recRoom 0 0 16 = true) ∧
    (opens recorded (.post postF) = true ∧ recordAt recorded (specOf (.post postF)) postF = 0x11000 ∧
      recorded.translateFor 0 recorded.me 0x11000 .read = .ok (pageAt .coherent 0x11000 0) ∧ recorded.sb (specOf (.post postF)) postF = 0 ∧
      recCode (BitVec.ofNat 256 (recorded.memPeek 0 (pageAt .coherent 0x11000 0) 32)) = 0x500) ∧
    (opens recorded (.join joinF) = true ∧ recordAt recorded (specOf (.join joinF)) joinF = 0x11000 ∧
      recorded.translateFor 0 recorded.me 0x11018 .write = .ok (pageAt .coherent 0x11018 0) ∧ recorded.homeRead 0 0x11018 2 = 2) := by
  unfold settled; decide +kernel

theorem test_records :
    (after (.mkrec mkrecF) recorded).homeRead 0 0x10000 8 = 0x500 ∧ (((after (.spawn spawnF) recorded).core 0).recQ.get [] 0).length = 16 ∧
      (after (.post postF) recorded).packets.length = 1 ∧ (after (.join joinF) recorded).homeRead 0 0x11018 2 = 1 ∧
      (after (.join joinF) recorded).packets.length = 0 := by
  decide +kernel

def callF : Fields := { word0 with a := .reg 8 }
/-- A callee gang whose lanes 0 to 7 have callers. -/
def callee : State := base.modMe fun g => { g with kind := .callee, callers := (List.range 16).map fun j => (j, { call := 3, lane := j }) }

theorem witness_calls :
    (base.issues (specOf (.callq callF)) callF (List.range 8) [] [] [] = true ∧ (∀ j, j < 16 → base.va (specOf (.callq callF)) callF j % 4 = 0) ∧
      base.myCore.calleeFits (base.callItems (specOf (.callq callF)) callF 0xffff) = true) ∧
    (let f := { word0 with guard := ⟨false, 1⟩ }
     callee.me.kind = .callee ∧ callee.issues (specOf (.retq f)) f (List.range 8) [] [] [] = true ∧ (callee.execLanes f).getLsbD 8 = false ∧
       callee.me.liveLanes.getLsbD 8 = true) := by
  decide +kernel

theorem test_calls :
    ((after (.callq callF) base).me.lane 4).susp = true ∧ (after (.callq callF) base).nextId = 1 ∧
      ((after (.retq { word0 with guard := ⟨false, 1⟩ }) callee).core 0).returns.length = 8 := by
  decide +kernel

/-- An edge descriptor at 0x10400, its queue at 0x10480 with one full slot of payload 0x55, its counter at 0x10440. -/
def edged : State :=
  let m : Memory := Memory.writeN (Memory.writeN [] 0x10400 8 0x10480) 0x10408 4 (1 + 16 * 2 ^ 16)
  withS [(5, 0x10600), (6, 0x10400)]
    { memory with dram := Memory.writeN (Memory.writeN (Memory.writeN m 0x10410 8 0x10440) 0x104c0 8 (2 ^ 32 + 1)) 0x104c8 8 0x55 }
def egetF : Fields := { word0 with a := .reg 5, b := .reg 6, c := .imm 0, dst := 7 }

theorem witness_eget :
    let e : Edge := { queue := 0x10480, slots := 1, size := 16, counter := 0x10440, cons := 0 }
    opens edged (.eget egetF) = true ∧ edged.getEdge 0x10400 = .ok e ∧ edged.headToken (edged.gangAgent 0 0) e = .ok (some (0x104c0, 2 ^ 32 + 1)) ∧
      edged.storeCauses [(0x10600, 8, 0)] 0xffff = [] ∧ edged.storeWaits [(0x10600, 8, 0)] 0xffff = false ∧
      edged.agValue (edged.gangAgent 0 0) 0x104c8 8 = .ok 0x55 ∧ (edged.freeSlot (edged.gangAgent 0 0) e).isOk = true := by
  decide +kernel

theorem test_eget :
    let t := after (.eget egetF) edged
    t.me.sreg 7 = 1 ∧ t.homeRead 0 0x10600 8 = 0x55 ∧ t.homeRead 0 0x10440 8 = 1 ∧ t.homeRead 0 0x10488 4 = 1 := by
  decide +kernel

/-- An access of R453's table to register number x of the own gang. -/
def sysrF (x : Nat) : Fields := { word0 with a := .immX, c := .imm 0, dst := 6, len := .l96, x := BitVec.ofNat 32 x }
def syswF (x : Nat) : Fields := { word0 with a := .immX, b := .reg 5, c := .imm 0, len := .l96, x := BitVec.ofNat 32 x }
/-- The handler gang of a core runs at 0x100; s10 and s11 are given. -/
def handling (s : State) (a b : Nat) : State :=
  let s := s.startHandler 0 0 0 0
  { s.modGang 0 handlerSlot fun g => { g with s := g.s.putAll [(10, BitVec.ofNat 64 a), (11, BitVec.ofNat 64 b)] } with
    focus := { core := 0, slot := handlerSlot, lanes := 0xffff, pc := 0x100, len := 8 } }

theorem witness_sysr :
    (0x401 : Nat) < 0x1000 ∧ ringed.sysDenied 0x401 0 = false ∧ ringed.sysDenied 0x068 0 = true ∧
    ([0x000, 0x008, 0x018, 0x030, 0x042, 0x050, 0x100, 0x401, 0x440, 0x805] : List Nat).all (fun x =>
      opens ringed (.sysr (sysrF x)) && !ringed.sysDenied x 0 && ringed.sa (specOf (.sysr (sysrF x))) (sysrF x) == x &&
        completes (.sysr (sysrF x)) ringed) = true ∧
    (registerValue ringed 0 0x019).isSome = true ∧ (ringed.sysBusy 0 0 (.v 5) = false ∧ ringed.sysReplay 0 0 (.v 5) = none) ∧
    (handling ringed 0 0).sysDenied 0x083 0 = false ∧ opens (handling ringed 0 0) (.sysr (sysrF 0x083)) = true := by
  decide +kernel

theorem test_sysr :
    (after (.sysr (sysrF 0x019)) ringed).me.sreg 6 = 0x18001 ∧ (after (.sysr (sysrF 0x805)) ringed).me.sreg 6 = 1 ∧
      (after (.sysr (sysrF 0x040)) windowed).focus.core = 0 ∧ (after (.sysr (sysrF 0x032)) windowed).me.sreg 6 = mkDesc 0 0 4 := by
  decide +kernel

/-- Each register that `sysw` writes, with a value its own checks take. -/
def writable : List (Nat × DWord) :=
  [(0x000, 7), (0x01a, 0x18001), (0x028, 1), (0x028, 2), (0x042, 3), (0x403, 9), (0x400, 9), (0x443, 9), (0x440, 9), (0x806, 9)]

theorem witness_sysw :
    let s := windowed.modMe fun g => g.setCtx 0 { cause := 0x20, tliss := 3, tlcnt := 1 }
    writable.all (fun p =>
      let u := withS [(5, p.2)] s
      let f := syswF p.1
      (match sysReg p.1 with
       | some r => (match u.sysAt (specOf (.sysw f)) f with
           | some _ => true
           | none => false) && u.issues (specOf (.sysw f)) f [] r.vec r.sca [] && (u.sysWriteCauses 0 0 r p.2.toNat 0xffff).isEmpty &&
           !u.sysPends 0 0 r
       | none => false) && completes (.sysw f) u) = true ∧
    (let u := withS [(5, 64)] s
     opens u (.sysw (syswF 0x050)) = true ∧ (match sysReg 0x050 with
       | some r => u.sysPends 0 0 r
       | none => false) = true) := by
  decide +kernel

theorem test_sysw :
    let s := withS [(5, 0xabc)] windowed
    (after (.sysw (syswF 0x403)) s).me.sreg 3 = 0xabc ∧ (after (.sysw (syswF 0x400)) s).me.sreg 0 = 0 ∧
      (after (.sysw (syswF 0x443)) s).me.mreg 3 = 0xabc ∧ (after (.sysw (syswF 0x440)) s).me.mreg 0 = 0xffff ∧
      (after (.sysw (syswF 0x806)) s).me.vreg 6 0 = 0xabc ∧ (after (.sysw (syswF 0x806)) s).me.vreg 6 1 = 0 := by
  decide +kernel

/-- The handler's registers (R299, R306, R312). -/
theorem test_sysw_handler :
    let s := handling ringed 0 0
    let w (x : Nat) (v : DWord) (s : State) : State := after (.sysw (syswF x)) (s.modGang 0 handlerSlot fun g => g.setS 5 v)
    ((w 0x069 0xffffffffffffffff s).core 0).waddr.get 0 1 = 0x01fffffffffffff8 ∧ ((w 0x06d 7 s).core 0).wval.get 0 1 = 7 ∧
      ((w 0x071 7 s).core 0).wmask.get 0 1 = 7 ∧ ((w 0x075 1 s).core 0).wctl.get 0 1 = 1 ∧ ((w 0x083 1 s).gang 0 3).gdbStop = true ∧
      (w 0x0c0 0x20007 (s.modCore 0 fun k => { k with serving := some (.monitor 9) })).cqTail = 1 := by
  decide +kernel

theorem witness_system :
    ([.bclaim { word0 with a := .imm 17, dst := 6 }, .brel word0, .tsr { word0 with a := .imm 0, dst := 8 },
      .tsr { word0 with a := .imm 1, dst := 8 }, .tsr { word0 with a := .imm 2, dst := 8 }, .phint { word0 with a := .imm 16 }, .halt word0,
      .trc { word0 with a := .reg 5 }] : List Instr).all (fun i => opens base i && completes i base) = true ∧
    (branchTarget base { word0 with a := .imm 16 } (.imm 16)).toNat % 64 = 0 ∧ base.me.saveReq = none ∧ base.haltOn = false ∧
      (base.launch 0).trCtl.getLsbD 2 = false ∧ base.myCore.trq.length < 64 := by
  decide +kernel

/-- R455: a claim is clamped to 15 to 19 in a c3 cluster and registers nothing elsewhere; R283; R300; R309. -/
theorem test_system :
    let c3 := base.modCluster 0 fun k => { k with pool := 3, inPool := true }
    let s : State := { (base.modMe fun g => { g with saveReq := some 0 }).modCore 0 fun k => { k with tlb := [{ page 0 0 0 with size := 2 ^ 30 }] } with
                       launches := [(0, { trCtl := 4, bw := 1, bh := 1, save := 0x200001 })] }
    (after (.bclaim { word0 with a := .imm 40, dst := 6 }) c3).me.claim = some 19 ∧
      (after (.bclaim { word0 with a := .imm 2, dst := 6 }) c3).me.claim = some 15 ∧
      (after (.bclaim { word0 with a := .imm 17, dst := 6 }) base).me.claim = none ∧
      (after (.phint { word0 with a := .imm 16 }) s).me.saveStop = some (some 0x140) ∧ (after (.halt word0) base).beacons.length = 1 ∧
      ((after (.trc { word0 with a := .reg 5 }) s).core 0).trq.length = 1 := by
  decide +kernel

/-! ## Traps -/

/-- A gang that has trapped in an `sadd` with an ill-formed guard. -/
def badI : Instr := .sadd { saddF with guard := ⟨true, 0⟩ }
def stopped : State := after badI base
/-- The handler serves a trap of slot 0 at a word of zeros; its frame, at VA 0, has one entry with the lanes of `mask`. -/
def entry0 : Replay := { base := 0, pfx := 0, pc := 0x100, mask := 0xffff, group := 0xffff, cause := 3, cap := 0, vals := [] }
def servingWith (mask : Nat) : State :=
  let s := handling { base.modGang 0 0 fun g => { g with trapped := true } with dram := Memory.writeN (Memory.writeN [] 4 1 1) (8 * entryWord 0 4) 2 mask } 0 0
  s.modCore 0 fun k => { k with serving := some (.trap { slot := 0, causes := [(3, 0xffff)], entry := entry0 } 0) }
def serving : State := servingWith 0xff
def returnF : Fields := { word0 with a := .reg 10, b := .reg 11 }

theorem witness_traps :
    untrapped base ∧ base.me.isHandler = false ∧ encodingOk (specOf badI) (fieldsOf badI) = false ∧
      (let f := { saddF with pfx := some ⟨0, .reg 0, false, 0, false, 1⟩ }
       encodingOk (specOf (.sadd f)) f = true ∧ prefixOk (specOf (.sadd f)) f = false) ∧
      (let f := { word0 with a := .reg 3, b := .reg 4 }
       (specOf (.rtrapResume f)).handlerOnly = true ∧ base.encCauses (specOf (.rtrapResume f)) f [] = [] ∧ base.execLanes f ≠ 0) ∧
      (let v : Fields := { word0 with ty := 8, a := .reg 5, b := .reg 16, dst := 20 }
       let s := withS [(1, 0x800)] (base.modMe fun g => { g with seat := { g.seat with octs := 8 } })
       let sp := specOf (.vaddInt v)
       let ok (f : Fields) : Bool := encodingOk sp f && prefixOk sp f
       s.me.nregs = 64 ∧ ok { v with dst := 100 } = true ∧ ok { v with a := .reg 100 } = true ∧
         ok { v with len := .l96, a := .ind 1 } = true ∧ ok { v with len := .l96, b := .ind 1 } = true ∧ sp.dst.isVector = true ∧
         sp.a.vectorReg = true ∧ sp.b.vectorReg = true ∧ s.me.nregs ≤ (s.me.sreg 1).toNat) ∧
      (let s := base.modCore 0 fun k => { k with latches := [] }
       let lost (i : Instr) : Bool :=
         let f := fieldsOf i
         let sp := specOf i
         s.encCauses sp f [] == [] && !s.pendBusy sp f (s.srcRegs sp f ++ s.dstRegs sp f) (scaDst sp f) &&
           !s.me.matrixHolds (s.dstRegs sp f) && (usesLatch f).any fun l => !s.latchValid l
       s.latchValid 0 = false ∧ lost (.sadd { saddF with a := .latch 0 }) = true ∧
         lost (.vaddInt { word0 with ty := 8, a := .latch 0, b := .reg 16, dst := 20 }) = true ∧
         lost (.eget { egetF with b := .latch 0 }) = true ∧ lost (.spawn { spawnF with c := .latch 0 }) = true) := by
  refine ⟨⟨by decide, ?_⟩, by decide +kernel⟩
  intro w hw; cases hw

theorem test_latch_lost :
    (match ((after (.eget { egetF with b := .latch 0 }) (base.modCore 0 fun k => { k with latches := [] })).core 0).work with
     | [.trap u] => u.causes == [(cLatchLost, 0xffff)]
     | _ => false) = true := by
  decide +kernel

theorem test_traps :
    (stopped.core 0).work.length = 1 ∧ stopped.me.trapped = true ∧ (stopped.me.lane 0).pc = 0x100 ∧ stopped.me.sreg 3 = base.me.sreg 3 ∧
      (match (stopped.core 0).work with
       | [.trap u] => u.causes == [(cIllegalEncoding, 0xffff)]
       | _ => false) = true := by
  decide +kernel

theorem witness_operand_traps :
    (let f := { ldF with a := .imm 0 }
     let s := withS [(1, 0x10002)] memory
     s.issues (specOf (.ld ldF)) ldF [] [] [] [] = true ∧ f.len = .l64 ∧ s.eaOf (specOf (.ld ldF)) ldF 0 % 4 = 2) ∧
    (let s := withV [(8, 3, 0x10002)] base
     opens s (.ret { word0 with a := .reg 8 }) = true ∧ opens s (.jmpi { word0 with a := .reg 8 }) = true ∧
       opens s (.calli { word0 with a := .reg 8, dst := 20 }) = true ∧ s.va (specOf (.ret { word0 with a := .reg 8 })) { word0 with a := .reg 8 } 3 % 4 = 2) := by
  decide +kernel

theorem test_operand_traps :
    (match ((after (.ld ldF) (withS [(1, 0x10002)] memory)).core 0).work with
     | [.trap u] => u.causes == [(cMisalign, 0xffff)]
     | _ => false) = true ∧
    (match ((after (.ret { word0 with a := .reg 8 }) (withV [(8, 3, 0x10002)] base)).core 0).work with
     | [.trap u] => u.causes == [(cFetchAlign, 8)]
     | _ => false) = true := by
  decide +kernel

theorem witness_trap_returns :
    (match serving.served 0 0 with
     | some u => serving.frameOk u 0 && u.slot == 0 && !u.ended
     | none => false) = true ∧
      opens serving (.rtrapResume returnF) = true ∧ opens serving (.rtrapKill { returnF with fn := 1 }) = true ∧
      serving.sa (specOf (.rtrapResume returnF)) returnF = 0 ∧ serving.sb (specOf (.rtrapResume returnF)) returnF = 0 ∧
      (match serving.translateFor 0 serving.me 0 .read with
       | .ok _ => true
       | .error _ => false) = true ∧ serving.owes (BitVec.allOnes 64) (fun _ => true) = false := by
  decide +kernel

theorem test_trap_returns :
    let t := after (.rtrapResume returnF) serving
    let u := after (.rtrapKill { returnF with fn := 1 }) serving
    (t.gang 0 0).trapped = false ∧ (t.gang 0 0).replay.map (·.mask) = [0xff] ∧ (t.core 0).serving = none ∧ (u.gang 0 0).seat.used = false := by
  decide +kernel

/-! ## Reach: the premises on pages, homes and earlier accesses -/

theorem witness_clean : clean memory ∧ clean recorded ∧ clean (barred 2) := by
  refine ⟨⟨?_, ?_⟩, ⟨?_, ?_⟩, ?_, ?_⟩ <;> decide +kernel

theorem witness_element_reach :
    let done (i : Instr) : Bool := match element i with
      | some e => (lanesRun i e (specOf i) (memory.plainOperands (specOf i) e.f) (fun j => .glob (pageAt .coherent 0x10000 j)) 0xffff).2.2.2 == 0
      | none => false
    pagesOpen memory (fun j => 0x10000 + 8 * j) 0xffff ∧ memory.homeCause 0 0x10000 = none ∧
      ([.ld ldF, .st stF, .atom atomF, .cas atomF] : List Instr).all done = true := by
  unfold pagesOpen; decide +kernel

theorem witness_formatted_reach :
    let sl := memory.slotAt (fmtF 0) 3
    let open_ (i : Instr) (f : Fields) (k : AccKind) (w : Want) : Bool := (List.range 16).all fun j =>
      match fmtPlace sl (memory.sa (specOf i) f) (memory.vb (specOf i) f j) with
      | .ok q => (fmtPieces sl q).all fun x =>
          let y : Access := { memory.fmtAccess f k with va := x.1, bytes := x.2 }
          !memory.laneWaits f j y && memory.walkOpen 0 (memory.space memory.me).1 (memory.space memory.me).2 x.1 &&
            memory.accOpen (memory.aim false w x.1 x.2 1) y
      | .error _ => false
    open_ (.ld (fmtF 0)) (fmtF 0) .load .read = true ∧ open_ (.st (fmtF 1)) (fmtF 1) .store .write = true ∧
      (memory.fmtRun (specOf (.ld (fmtF 0))) (fmtF 0) .read sl (memory.fmtAccess (fmtF 0) .load) 0xffff fun _ => []).2.2 = [] := by
  decide +kernel

theorem witness_waits_for_none :
    (∀ j, j < 16 → filled.mustWait 0 0 j { va := 2 ^ 64, bytes := 4, kind := .load, rel := false, scope := 1 } = false ∧
      memory.mustWait 0 0 j { va := 2 ^ 64, bytes := 4, kind := .store, rel := true, scope := 1 } = false) ∧
      (∀ n ∈ ([1, 4, 5, 6, 7] : List Nat), ringed.walkOpen 0 0 0 (ringed.me.nextSlot n) = true ∧ ringed.slotWaits n = false ∧
        ringed.chainReach n = none) ∧
      (let b := (windowed.me.win 2).imageBytes 16
       windowed.imageWaits 0x10000 b .store 0xffff = false ∧ windowed.imageWaits 0x10000 b .load 0xffff = false ∧
         windowed.walkHold (pageVas 0x10000 b) = none) ∧
      tagged.landing [40] = false ∧ edged.owes 0xffff (·.acq) = false ∧ edged.walkHold [0x10600] = none ∧
      (withS [(1, 0x10002)] memory).laneWaits ldF 0 { va := 0x10002, bytes := 4, kind := .load, ty := 9, scope := 0, noWatch := memory.noWatch } = false ∧
      pagesOpen memory (fun _ => 0x10002) 0xffff := by
  unfold pagesOpen; decide +kernel

theorem witness_record_reach :
    let s := recorded
    s.walkHold [0x10000] = none ∧ s.walkOpen 0 0 0 0x11000 = true ∧ s.walkOpen 0 0 0 0x11018 = true ∧
      s.accessOpen 0 (pageAt .coherent 0x11000 0) 32 false = true ∧ s.homeCause 0 0x11000 = none ∧ s.sends 0 0 = .to 0 ∧ s.route 0 0 = .to 0 ∧
      s.badEntries = [] ∧ s.cohOpen 0 0x10000 true = true ∧ s.cohOpen 0 0x11018 true = true ∧ (s.joinAt 0 0 0x11000).isOk = true ∧
      (s.laneStores (.mkrec mkrecF) (specOf (.mkrec mkrecF)) mkrecF
        (recStores 0x10000 (s.newRecord (specOf (.mkrec mkrecF)) mkrecF)) 0xffff).2 = [] := by
  decide +kernel

/-- The last lane's `exit`, of a plain body and of a handler that serves a doorbell; a write of another gang's register by the handler. -/
theorem witness_last_exit :
    let h := (handling ringed 0 0).modCore 0 fun k => { k with serving := some (.monitor 9) }
    (base.me.kind ≠ .callee ∧ base.me.kind ≠ .record ∧ base.me.posts = 0 ∧ base.me.trapped = false ∧ (∀ n, n < 8 → (base.me.ctx n).stopped = false) ∧
      (after (.exit word0) base).me.live = false) ∧
      h.me.isHandler = true ∧ opens h (.exit word0) = true ∧ ((after (.exit word0) h).core 0).serving = none ∧
      (let s := h.modGang 0 0 fun g => { g with trapped := true }
       s.sysBusy 0 0 (.s 3) = false ∧ (s.gang 0 0).matrixHolds [] = false ∧ s.rowsReady 0 0 [] 0 = true ∧ settled h) ∧
      serving.walkOpen 0 (serving.space serving.me).1 (serving.space serving.me).2 0 = true := by
  unfold settled; decide +kernel

/-! ## Events -/

/-- A running device: region 0 is ON, logical core 0 at its place. -/
def up : State := { mgmt := 0xe, regions := [(0, { st := .on })], tbl := [(0, 0x800000)] }
/-- A state is left as it was. -/
def refuses (i : Instr) (s : State) : Bool := after i s = s

theorem witness_host_accesses :
    up.hostPa 0x1000 = some 0x1000 ∧ (∀ i, i < 4 → up.hostByte (0x1000 + i) = some (0x1000 + i)) ∧
      let t := after (.hostMemoryWrite 0x1000 [1, 2, 3, 4]) up
      t.dram = [(0x1000, 1), (0x1001, 2), (0x1002, 3), (0x1003, 4)] ∧ (after (.hostMemoryRead 0x1000 4) t).hostReads = [0x04030201] := by
  decide +kernel

theorem witness_host_registers :
    up.blockRead 0x20000 8 = some 0 ∧ up.blockRead 0x20000 4 = none ∧ up.object16 0x34000 = none ∧ up.object16 0x1000008 = none ∧
      hostReg 0x34000 = some (.hroot, 8) ∧ HostReg.plain .hroot = some 0xffff01ffffff0000 ∧ hostReg 0x1000008 = none ∧
      (after (.registerWrite (mailboxBase + 0x34000) 8 0xffffffffffffffff) up).hostRegs.get 0 0x34000 = 0xffff01ffffff0000 ∧
      (after (.registerWrite (mailboxBase + 0x34000) 4 1) up).mgmt = 0x10e := by
  decide +kernel

theorem witness_host_reads_nothing :
    (after (.hostMemoryRead (mailboxBase + 0x20000) 4) up).mgmt = 0x10e ∧ (after (.hostMemoryRead (mailboxBase + 0x20000) 8) up).hostReads = [0] := by
  decide +kernel

/-- The completion queue takes any message at once. -/
def roomy (s : State) : Bool := s.cqOver == [] && s.cqHeld == [] && s.cqWait == [] && decide (64 < s.cqFree)
theorem room_of {s : State} (h : roomy s = true) : room s := by simpa [roomy, room, and_assoc] using h
theorem room_up : roomy up = true := by decide +kernel

/-- A graph image at offset 0 with one node and no edge. -/
def image : State := { up with dram := Memory.writeN (Memory.writeN [] 0 4 1) 64 1 5 }

theorem witness_walker_starts :
    (image.startRefusal 0 1 = some 3 ∧ ({ image with mgmt := 0 } : State).startRefusal 0 0 = some 1) ∧
      image.startRefusal 0 0 = none ∧ Run.regsBad {} = false ∧ image.imageRead 0 0 0 64 = .ok 1 ∧ headerOk 1 = true ∧
      (match image.imageEdges 0 0 1 0 with
       | .ok l => l == []
       | .error _ => false) = true ∧ (image.claimEdges 0 []).isOk = true ∧
      (let t := after (.walkerStart 0 0) image
       (t.walker 0).st = 1 ∧ (t.runOf 0).nnode = 1 ∧ (t.runOf 0).entry = some 0) ∧
      (after (.walkerStart 0 1) image).cq.get 0 0 = CqEntry.bits { payload := 1, tag := 0, src := 0, cause := 3, kind := 3 } := by
  decide +kernel

theorem witness_head_moves :
    let s : State := { up with cqTail := 3, cqHead := 1, walkers := [(0, { st := 3, faultAt := some 1 }), (1, { st := 3, faultAt := some 2 })] }
    (2 + 4096 - s.cqHead) % 4096 ≤ (s.cqTail + 4096 - s.cqHead) % 4096 ∧ s.cqOver = [] ∧
      (let t := after (.cqHeadWrite 2) s
       t.cqHead = 2 ∧ (t.walker 0).st = 0 ∧ (t.walker 1).st = 3 ∧ t.irqs = 1) ∧
      (after (.cqHeadWrite 3) s).irqs = 0 := by
  decide +kernel

/-- A load of lane 2 into v6 of core 1's gang 3, sent to core 0. -/
def pend : Pend :=
  { id := 4, core := 1, slot := 3, lane := 2, kind := .load, page := .coherent, va := 0x10, pa := 0x10, phys := 0, bytes := 4, ty := 8
    data := 0, cmp := 0, dst := some 6, lat := 0, acq := false, rel := false, instr := entry0 }

theorem witness_invalidations :
    let s : State := { up with tlbQ := [(0x200000000000, 0)], cores := [(0, { tlb := [page 0 0 0] })] }
    let u : State := { s with pends := [pend] }
    (∀ p ∈ s.pends, invAccess 0x200000000000 p = false) ∧ invAccess 0x200000000000 pend = true ∧ refuses .tlbInvalidateComplete u = true ∧
      (after (.tlbInvalidate 5) up).tlbQ = [(5, 0)] ∧
      ((after .tlbInvalidateComplete s).core 0).tlb = [] ∧ (after .tlbInvalidateComplete s).tlbCnt = 1 := by
  decide +kernel

theorem witness_kills :
    let s : State := { up with walkers := [(3, { st := 1, run := some {} })] }
    let u : State := { up with walkers := [(0, { st := 1, run := some {} })], pends := [{ pend with kind := .store, ltag := 5 }] }
    s.launchesOf 3 = [] ∧ (s.walker 3).run = some {} ∧ s.workDone 3 = true ∧ (∀ p ∈ s.cores, p.2.trq = []) ∧ roomy s = true ∧
      ((after (.runkill 3) s).walker 3).st = 3 ∧
      (after (.runkill 3) s).cq.get 0 0 = CqEntry.bits { payload := 0xffffffff, tag := 0, src := 3, cause := 0x0b, kind := 2 } ∧
      u.launchesOf 0 = [] ∧ u.workDone 0 = false ∧
      (let t := after (.runkill 0) u
       t.cq = [] ∧ (t.walker 0).st = 1 ∧ (t.runOf 0).fault = some (0x0b, 0xffffffff)) := by
  decide +kernel

theorem witness_doorbells :
    let s : State := { up with cores := [(0, { work := [.doorbell 9], serving := some (.trap { slot := 2, causes := [], entry := entry0 } 0) })] }
    (up.phase = 3 ∧ (up.region 0).st = .on ∧ (up.core 0).inReset = false ∧ entryV (up.tableAt 0 0) = true ∧ entryV (up.tableAt 0 1) = false) ∧
      (refuses (.monitorDoorbell 1 7) up = true ∧ refuses (.handlerRestart 1 0x8000000000000000) up = true) ∧
      (up.core 0).work = [] ∧ HWork.doorbell 9 ∈ (s.core 0).work ∧ (s.gang 0 handlerSlot).claim = none ∧ roomy s = true ∧
      ((after (.monitorDoorbell 0 7) up).core 0).work = [.doorbell 7] ∧ ((after (.monitorDoorbell 0 7) s).core 0).work = [.doorbell 9] ∧
      ((after (.monitorDoorbell 0 7) s).cqTail = 1) ∧
      ((after (.handlerRestart 0 0x8000000000000000) s).core 0).work = [.trap { slot := 2, causes := [], entry := entry0 }, .doorbell 9] ∧
      ((after (.handlerRestart 0 0x8000000000000000) s).core 0).serving = none := by
  decide +kernel

theorem get_table (n k : Nat) (e : Word) (h : k < n) : SMap.get 0 ((List.range n).map fun c => (c, e)) k = e := by
  have : ∀ l : List Nat, k ∈ l → SMap.get 0 (l.map fun c => (c, e)) k = e := by
    intro l
    induction l with
    | nil => intro h; cases h
    | cons a l ih =>
      intro h
      by_cases ha : a = k
      · simp [SMap.get, ha]
      · simp only [List.map_cons, SMap.get, ha, if_false]
        exact ih ((List.mem_cons.1 h).resolve_left fun x => ha x.symm)
  exact this _ (List.mem_range.2 h)

def tabled (t : SMap Word) : State := { mgmt := 4, tbl := t }

/-- Every entry of the table is valid. -/
theorem witness_tables_legal : ∃ t, State.tablesOk (tabled t) = true := by
  refine ⟨(List.range nCores).map fun c => (c, 0x800000), List.all_eq_true.2 fun c hc => ?_⟩
  have h := get_table nCores c 0x800000 (List.mem_range.1 hc)
  generalize (List.range nCores).map (fun c => (c, (0x800000 : Word))) = t at h
  simp only [tabled, h]
  decide

theorem witness_bring_up :
    let phase (n : DWord) : State := { mgmt := n * 4 }
    ((phase 0).phase = 0 ∧ (after (.defectMapWrite 5 true) (phase 0)).mgmt = 0 ∧
        (after (.defectMapWrite 5 true) { phase 0 with dmapWords := List.replicate 216 0 }).mgmt = 1) ∧
      (after (.defectMapWrite 5 true) (phase 1)).mgmt = 0x24 ∧
      (after (.phaseTables 4) (phase 0)).mgmt = 0x10 ∧ (after (.phaseTables 4) { mgmt := 1 }).mgmt = 5 ∧
      (State.tablesOk (phase 1) = false ∧ (after (.phasePlane 8 []) (phase 1)).mgmt = 0x14) ∧
      ((phase 2).phase = 2 ∧ (phase 2).mgmt.getLsbD 1 = false ∧ (after (.phaseRunning 12) (phase 2)).mgmt = 0x18) ∧
      (State.phase { mgmt := 10 } = 2 ∧ BitVec.getLsbD (10 : DWord) 1 = true) ∧
      (after (.mgmtStatFlagClear 0x14) { mgmt := 0x34 }).mgmt = 0x24 ∧ (after (.mgmtStatFlagClear 0) (phase 1)).mgmt = 0x14 := by
  decide +kernel

/-- An entry of core 0 is allowed where no other entry is valid. -/
theorem entry_allowed (s : State) (tab : Nat → Word) (h : ∀ c, c ≠ 0 → entryV (tab c) = false) (hd : s.dmapWords = []) :
    s.entryAllowed tab 0 0x800000 = true := by
  have all : (List.range nCores).all (fun c => c == 0 || !entryV (tab c) || entryPhys (tab c) != entryPhys 0x800000) = true :=
    List.all_eq_true.2 fun c _ => by
      by_cases hc : c = 0
      · simp [hc]
      · simp [h c hc]
  simp only [State.entryAllowed, State.defective, hd, all, Bool.and_true]
  decide

theorem witness_tables :
    (∀ s : State, s.phase = 1 → s.tbl = [] → s.dmapWords = [] → s.entryAllowed (fun c => s.tbl.get 0 c) 0 0x800000 = true) ∧
      State.phase { mgmt := 4 } = 1 ∧ up.phase = 3 ∧ up.slHeld = none ∧
      (∀ c, c ≠ 0 → entryV (up.tableNow c) = false) ∧ up.entryAllowed up.tableNow 12288 0 = false ∧ up.groupOf 2 5 = 5 := by
  refine ⟨fun s _ ht hd => entry_allowed s _ (fun c _ => by simp only [ht, SMap.get]; decide) hd, by decide, by decide, rfl, fun c hc => ?_, by decide +kernel,
    by decide +kernel⟩
  have : up.tableNow c = 0 := by simp [State.tableNow, up, SMap.get, lastUpd, Ne.symm hc]
  rw [this]; decide

theorem test_tables :
    let full : State := { up with beaconsKept := List.replicate 1024 { seq := 0, kind := .time, frame := 0 } }
    (after (.tableLoad (2 ^ 32 * 12288)) { mgmt := 4 }).mgmt = 0x84 ∧ (after (.tableLoad 0) { mgmt := 0 }).mgmt = 0x20 ∧
      (after (.tableUpdate (2 ^ 32 * 12288)) up).mgmt = 0x8e ∧ (after (.groupBind 0x20506) up).mgmt = 0x4e ∧
      (after (.groupBind 0x205c3) up).binds = [(389, 195)] ∧ (after (.groupBind 0x20505) up).beacons.map (·.kind) = [.bind 2 5 5] ∧
      (after (.tableUpdate 0) up).tableNow 0 = 0 ∧ (after (.tableUpdate 0) up).beacons.map (fun b => (b.kind, b.frame)) = [(.table 0 0, 1)] ∧
      full.hostKept = 1024 ∧ (after (.groupBind 0x20505) full).mgmt = 0x80e := by
  decide +kernel

/-- The device with region 0 as given. -/
def region (x : Region) : State := { up with regions := [(0, x)] }
def at_ (n : Nat) (s : State) : State := { s with now := n }

theorem witness_repair :
    let held : State := { up with cores := [(5, { held := true })] }
    let placed : State := { base with launches := [(0, { base.launch 0 with save := 1 })] }
    (after (.coreHold 0x8000000000000005) up).core 5 = { held := true } ∧ ((after (.coreRelease 5) held).core 5).held = false ∧
      (placed.gang 0 0).seat.used = true ∧ (placed.launch 0).nimg = 1 ∧ (base.launch 0).nimg = 0 ∧
      (((after (.coreHoldPreempt 0xc000000000000000) placed).block 0).saveReq).isSome = true ∧
      ((after (.coreHoldPreempt 0xc000000000000000) base).block 0).saveReq = none ∧
      (held.core 5).held = true ∧ (held.core 5).drained = false ∧ (∀ g, g < 15 → (held.gang 5 g).seat.used = false) ∧
      (∀ p, p < 4 → (held.core 5).recQ.get [] p = []) ∧ roomy held = true ∧
      (after (.heldCoreDrained 5) held).cq.get 0 0 = CqEntry.bits { payload := 5, tag := 0, src := 0, cause := 0x20, kind := 5 } := by
  decide +kernel

/-- A copy of core 0's slice to the region's second physical core, under way. -/
def copying : State := { up with slcopy := 0x8000000000008000, slHeld := some (0, 1), dram := [(5, 7)] }

theorem valid_up (c : Nat) (h : entryV (up.tableNow c) = true) : entryPhys (up.tableNow c) = 0 := by
  by_cases hc : c = 0
  · subst hc; decide
  · have : up.tableNow c = 0 := by simp [State.tableNow, up, SMap.get, lastUpd, Ne.symm hc]
    rw [this] at h; cases h

theorem witness_slice_copy :
    (copyDest 0x8000000000008000 = 1 ∧ up.slcopy.getLsbD 63 = false ∧ up.defective 1 = false ∧ regionOfPhys 1 = regionOf (clusterOf 0) ∧
      ∀ c, c < nCores → entryV (up.tableNow c) = true → entryPhys (up.tableNow c) ≠ 1) ∧
      copying.dram.wf = true ∧ entryV (copying.tableAt 0 0) = true ∧ copying.physOf 0 ≠ 1 ∧
      (after .sliceCopyComplete copying).dram = [(5, 7), (2 ^ 27 + 5, 7)] ∧ (after .sliceCopyComplete copying).slcopy = 0x8000 ∧
      (after (.sliceCopy 0x8000) up).slcopy = 0x8000 ∧ (after (.sliceCopy 0x8000000000000000) up).mgmt = 0x20e := by
  refine ⟨⟨by decide, by decide, by decide, by decide, fun c _ h => by rw [valid_up c h]; decide⟩, by decide +kernel⟩

theorem witness_halts :
    up.hostKept < 1024 ∧ State.reset.hostKept < 1024 ∧ (after .hostHalt up).haltOn = true ∧
      (after .hostHalt up).beacons.map (·.kind) = [.halt true 0 0] ∧
      (after .hostResume (after .hostHalt State.reset)).beaconsKept.map (·.kind) = [.halt true 0 0, .halt false 0 0] := by
  decide +kernel

/-- Region 0 with every core retired. -/
def retired : State := { up with tbl := (regionCores 0).map fun c => (c, 0x1000000) }

theorem witness_region_commands :
    ((after (.regionEnable 0) (region {})).region 0).st = .ramp ∧ ((after (.regionEnable 0) up).region 0).refused = true ∧
      ((after (.regionDisable 0) (region { st := .hold })).region 0).st = .off ∧
      (retired.regionDrained 0 = true ∧ ((after (.regionDisable 0) retired).region 0).st = .off) ∧
      (up.regionDrained 0 = false ∧ ((after (.regionDisable 0) up).region 0).refused = true) ∧
      ((after (.regionRestart 0) (region { st := .hold })).region 0).st = .restart ∧ ((after (.regionRestart 0) up).region 0).refused = true ∧
      ((after (.regionReleaseHalt 0) (region { st := .on, stage := 3, temp := 92 })).region 0).stage = 1 ∧
      ((after (.regionReleaseHalt 0) (region { st := .on, stage := 3, temp := 97 })).region 0).stage = 2 ∧
      ((after (.regionReleaseHalt 0) (region { st := .on, stage := 2, temp := 97 })).region 0).refused = true ∧
      ((after (.registerWrite (mailboxBase + 0x1011000) 8 5) up).region 0).refused = true := by
  decide +kernel

theorem witness_region_supply :
    let on (i : Instr) (n : Nat) (x : Region) : Region := (after i (at_ n (region x))).region 0
    (on (.rampComplete 0) 10000 { st := .ramp }).st = .on ∧ (on (.rampComplete 0) 9999 { st := .ramp }).st = .ramp ∧
      (on (.rampTimeout 0) 500000 { st := .ramp }).cause = 4 ∧ roomy (at_ 500000 (region { st := .ramp })) = true ∧
      (on (.rampTimeout 0) 500000 { st := .ramp }).rampfail = 1 ∧
      (on (.supplyFault 0 7) 0 { st := .on }).cause = 7 ∧ (on (.supplyFault 0 7) 0 { st := .on }).trips = 1 ∧
      (on (.tripDischarged 0) 0 { st := .trip }).st = .hold ∧ (on (.restartRailsSettled 0) 0 { st := .restart }).settled = true ∧
      (on (.restartComplete 0) 9 { st := .restart, settled := true, tablesIn := true, stage := 4 }).stage = 3 ∧
      (on (.restartTimeout 0) 1000000 { st := .restart }).cause = 6 ∧ (on (.thermalTrip 0) 0 { st := .on }).cause = 5 ∧
      (on (.overcurrentWarning 0) 0 { st := .on, ocwarn := 0xffff }).ocwarn = 0xffff := by
  decide +kernel

/-- Region 0 restarts with its rails settled at 0, region 1 is ON; its first cluster counts two beacons that are still to reach the other. -/
def restarting : State :=
  { up with
    now := 4000
    regions := [(0, { st := .restart, settled := true }), (1, { st := .on })]
    beacons := [{ seq := 0, kind := .table 3 0, frame := 2 }, { seq := 1, kind := .bind 2 0 195, frame := 3 }]
    clusters := [(2, { frames := 3990, epoch := 4 })] }

theorem witness_restart_tables :
    (restarting.region 0).tablesIn = false ∧ (restarting.region 0).settledAt + 4000 ≤ restarting.now ∧ (restarting.region 1).st = .on ∧
      (∀ p, p < 96 → (restarting.region p).st = .on → regionHops 0 1 ≤ regionHops 0 p) ∧
      let t := after (.restartTableLoad 0 1) restarting
      (t.region 0).tablesIn = true ∧ (t.cluster 0).epoch = 5 ∧ (t.cluster 0).bindEpoch = 1 ∧ (t.cluster 1).frames = 3990 ∧
        (t.cluster 2).epoch = 4 := by
  decide +kernel

/-- Cluster 0 holds region 0's boost grant. -/
def boosted (permits : Nat) : State :=
  { up with
    now := 10000
    regions := [(0, { st := .on, holder := some 0, permits, grantAt := 0 })]
    clusters := [(0, { pool := 3, claimAge := some 5 })]
    cores := [(0, { gangs := [(0, { claim := some 17 })] })] }

set_option maxRecDepth 8000 in
theorem witness_currents :
    let v : State := { up with now := 10000 }
    refuses (.governorTick 31000) up = true ∧ (after (.governorTick 31000) v).gov = 14 ∧ (after (.governorTick 31000) v).boostOk = false ∧
      (after (.governorTick 28999) v).gov = 15 ∧ (after (.governorTick 31000) v).govAt = 10000 ∧
      (after (.governorTick 29000) { v with gov := 7 }).gov = 7 ∧
      ((after (.currentRampStep 0 1000) (at_ 100 (region { st := .on }))).region 0).amps = 1000 ∧
      ((after (.currentRampStep 0 0) (at_ 100 (region { st := .on, amps := 3000 }))).region 0).amps = 480 ∧
      refuses (.currentRampStep 0 1000) (at_ 99 (region { st := .on })) = true ∧
      (let s : State := { boosted 3 with regions := [(0, { st := .on, permits := 3 })] }
       (s.region 0).holder = none ∧ s.boostOk = true ∧ (s.cluster 0).claimAge = some 5 ∧ (s.cluster 1).claimAge = none ∧
         ((after (.boostGrant 0) s).region 0).holder = some 0 ∧ ((after (.boostGrant 0) s).region 0).permits = 2 ∧
         ((after (.boostGrant 0) s).cluster 0).nextFreq = some 17) ∧
      ((boosted 1).region 0).grantAt + 10000 ≤ (boosted 1).now ∧ ((after (.boostInterval 0) (boosted 1)).region 0).permits = 0 ∧
      (((boosted 0).region 0).holder = some 0 ∧ ((after (.boostInterval 0) (boosted 0)).cluster 0).bexh = true ∧
        ((after (.boostInterval 0) (boosted 0)).gang 0 0).claim = none) ∧
      ((after (.boostFallStep 0) { up with clusters := [(0, { fallAt := some 0 })] }).cluster 0).nextFreq = some 14 ∧
      ((after (.permitRefill 0) (at_ 40000 (region { st := .on, permits := 63, idleFrom := some 0 }))).region 0).permits = 64 ∧
      ((after (.frequencyChangeComplete 0) { up with clusters := [(0, { nextFreq := some 10 })] }).cluster 0).freq = 10 := by
  decide +kernel

/-- A launch of class 2 has not fitted for 20 µs. -/
def starving : State :=
  { up with
    now := 20000
    launches := [(9, { cls := 2 })]
    hubs := [(0, { lists := [{ ltag := 9, blocks := [0], own := true, eff := 1, since := 0, blockedAt := some 0 }] })]
    clusters := [(0, { inPool := true })] }

/-- Cluster 1 is on its way to a pool. -/
def arriving (p : Nat) (x : Cluster) : State := { up with clusters := [(1, { x with moving := some p })] }

set_option maxRecDepth 8000 in
theorem witness_pools :
    (starving.starved 0).map (·.ltag) = some 9 ∧ starving.originIn 0 (starving.launch 9) = none ∧ starving.fieldHalted 0 = false ∧
      starving.clusterIdle 0 = true ∧ (starving.cluster 0).idleSince + 20000 ≤ starving.now ∧
      (∀ c ∈ clusterCores 0, ∀ g, g < 16 → (starving.gang c g).claim = none) ∧
      ((fieldClusters 0).filter fun q => (starving.cluster q).moving == some 2).length < 1 ∧
      ((after (.poolTargetMove 0 0) starving).cluster 0).moving = some 2 ∧ ((after (.poolTargetMove 0 0) starving).cluster 0).inPool = true ∧
      (let x := (after (.poolMoveComplete 1) (arriving 2 { freq := Config.classFreq 2 })).cluster 1
       x.pool = 2 ∧ x.inPool = true ∧ x.moving = none) ∧
      refuses (.poolMoveComplete 1) (arriving 0 { nextFreq := some 10 }) = true := by
  decide +kernel

theorem witness_thermal :
    let went (old temp : Nat) : State := after (.thermalSample 0 temp) (region { st := .on, stage := old })
    ((went 0 100).region 0).stage = 2 ∧ ((went 0 100).cluster 0).nextFreq = some 10 ∧ ((went 1 105).region 0).stage = 3 ∧
      ((went 1 105).cluster 1).inPool = false ∧ ((went 2 94).region 0).stage = 1 ∧ ((went 2 94).cluster 0).nextFreq = some (Config.classFreq 1) ∧
      ((went 1 300).region 0).temp = 255 ∧ ((went 3 20).region 0).stage = 3 ∧ ((went 1 89).region 0).stage = 0 := by
  decide +kernel

/-- A packet from core 1 to core 0's place, standing at physical core 1. -/
def packet (body : PktBody) : Packet :=
  { id := 7, src := 1, dst := 0, srcPhys := 1, dstPhys := 0, at_ := 1, order := 0, plane := 1, vc := 0, prio := 2, since := 0, portAt := 0, body }

/-- It has reached core 0, or come back to core 1. -/
def there (p : Packet) : Packet := { p with at_ := 0, taken := true }

def returned (nack : Bool) (p : Packet) : Packet := { p with ret := true, nack, taken := true }

def qrec : QRec := { bits := 5 * 2 ^ 64, va := 0x40, stamp := 0 }
def postPacket : Packet := packet (.post qrec 1 3)
def carrying (p : Packet) : State := { up with packets := [p], tbl := [(0, 0x800000), (1, 0x808000)] }

theorem witness_mesh_packets :
    let s := carrying postPacket
    let local_ (p : Packet) : State := carrying { p with at_ := 0 }
    (s.granted 1 3 1).map (·.id) = some 7 ∧ neighbour 1 3 = some 0 ∧ neighbour 0 4 = none ∧ s.linkUp 1 3 = true ∧
      ({ s with linksDown := [(1, 3)] } : State).linkUp 1 3 = false ∧
      (after (.meshPacketReceive 1 3 1) s).packets = [{ postPacket with at_ := 0, inPort := 2 }] ∧
      (after (.meshPacketReceive 1 3 1) { s with linksDown := [(1, 3)] }).packets = [{ postPacket with lost := true }] ∧
      ((local_ (packet (.access 4))).granted 0 4 1).map (·.id) = some 7 ∧
      (after (.meshPacketReceive 0 4 1) (local_ (packet (.access 4)))).packets = [there (packet (.access 4))] ∧
      (after (.meshPacketReceive 0 4 1) (local_ postPacket)).packets = [there postPacket] ∧
      (let u := local_ (packet (.store 0x210 [1, 2] 5))
       u.stands 0 0 = true ∧ (after (.meshPacketReceive 0 4 1) u).msgs.map (·.bus) = [2] ∧ (after (.meshPacketReceive 0 4 1) u).packets = []) ∧
      postPacket.ports = [3] ∧ (after (.packetAging 7) (at_ 512 s)).packets = [{ postPacket with prio := 3, portAt := 512 }] ∧
      (after (.linkHeartbeatTimeout 1 3) s).linksDown = [(1, 3), (0, 2)] ∧ roomy s = true := by
  decide +kernel

/-- The answer of a post has come back to core 1, whose gang 3 has two posts unanswered. -/
theorem witness_post_answer :
    let p := { postPacket with ret := true }
    let s : State := { carrying p with cores := [(1, { gangs := [(3, { posts := 2 })] })] }
    (s.granted 1 4 3).map (·.id) = some 7 ∧ ((after (.meshPacketReceive 1 4 3) s).gang 1 3).posts = 1 ∧
      (after (.meshPacketReceive 1 4 3) s).packets = [] := by
  decide +kernel

theorem witness_lost_packets :
    let lost := { postPacket with lost := true }
    let fell (b : PktBody) : Packet := { packet b with lost := true, fallback := true }
    (at_ 20000 (carrying lost)).packet? 7 = some lost ∧
      (after (.linkFallbackReinject 7) (at_ 20000 (carrying lost))).packets =
        [{ postPacket with order := 1, vc := 1, fallback := true, since := 20000, portAt := 20000 }] ∧
      (let s : State := { at_ 20000 (carrying (fell (.access 4))) with pends := [pend] }
       s.pend? 4 = some pend ∧ (after (.linkFallbackReinject 7) s).pends = [{ pend with failed := some 0x40 }]) ∧
      (let s : State := { at_ 20000 (carrying (fell (.store 0x210 [1, 2] 5))) with pends := [{ pend with msg := some 7 }] }
       (after (.linkFallbackReinject 7) s).pends = [{ pend with failed := some 0x40 }]) ∧
      (let t := after (.linkFallbackReinject 7) (at_ 20000 (carrying (fell postPacket.body)))
       t.packets = [returned true { postPacket with fallback := true, reinjected := true }] ∧ t.cqTail = 1) := by
  decide +kernel

/-- Core 0's entry is `e`; an access of core 1 has been refused at physical core 0. -/
def nacked (again : Bool) (e : Word) : State :=
  { up with packets := [{ returned true (packet (.access 4)) with reinjected := again }], pends := [pend], tbl := [(0, e), (1, 0x808000)] }

theorem witness_nacks :
    let first : State := { nacked false 0x810000 with packets := [there (packet (.access 4))] }
    let retry : Packet := { packet (.access 4) with reinjected := true }
    (there (packet (.access 4))).arrived = true ∧ first.standsFor (there (packet (.access 4))) = false ∧
      (returned true (packet (.access 4))).arrived = true ∧
      (after (.packetNack 7) first).packets = [{ packet (.access 4) with at_ := 0, ret := true, nack := true }] ∧
      refuses (.packetNack 7) { first with packets := [{ there (packet (.access 4)) with epoch := 1 }] } = true ∧
      (after (.packetNack 7) (nacked true 0x810000)).pends = [{ pend with failed := some 0x30 }] ∧
      refuses (.packetNack 7) { nacked false 0x810000 with packets := [{ returned true (packet (.access 4)) with epoch := 1 }] } = true ∧
      (nacked false 0x810000).sends 0 0 = .to 2 ∧ (after (.packetNack 7) (nacked false 0x810000)).packets = [{ retry with dstPhys := 2 }] ∧
      (after (.packetNack 7) { nacked false 0x810000 with badEntries := [(1, 0)] }).packets = [{ retry with held := true }] ∧
      (nacked false 0x1000000).sends 0 0 = .retired ∧
      (after (.packetNack 7) (nacked false 0x1000000)).pends = [{ pend with failed := some 0x30 }] ∧
      (nacked false 0).sends 0 0 = .unreachable ∧ (after (.packetNack 7) (nacked false 0)).pends = [{ pend with failed := some 0x40 }] := by
  decide +kernel

/-- A packet held for its router's entry, whose neighbour has answered. -/
def holding (good : Bool) : State := { carrying { postPacket with held := true } with badEntries := [(1, 0)], tblAnswers := [(1, 0, good)] }

theorem witness_router_tables :
    (after (.tableScrub [(1, 2)]) up).eccFixed.get 0 1 = 1 ∧ (after (.tableScrub [(1, 2), (1, 2)]) up).badEntries = [(1, 2)] ∧
      (let s : State := { up with softEntries := [(1, 2)] }
       s.readEntry 1 3 = s ∧ (s.readEntry 1 2).softEntries = [] ∧ (s.readEntry 1 2).eccFixed.get 0 1 = 1) ∧
      askOf 1 = 2 ∧ (carrying postPacket).linkUp 1 2 = true ∧
      (after (.routerTableRequest 2 0) { holding true with tblAnswers := [] }).tblAnswers = [(1, 0, true)] ∧
      (after (.tableRepairResponse 1 0) (holding true)).packets = [postPacket] ∧
      ((after (.tableRepairResponse 1 0) (holding true)).badEntries = [] ∧ roomy (holding false) = true) ∧
      (after (.tableRepairResponse 1 0) (holding false)).badEntries = [(1, 0)] ∧ (after (.tableRepairResponse 1 0) (holding false)).cqTail = 1 := by
  decide +kernel

/-- A broadcast store of cluster 1 on bus 2, complete at frame 5; cluster 0 lands it at offset 0. -/
def message (body : MsgBody) : Msg := { id := 9, bus := 2, writer := 1, core := 8, group := 1, seq := 0, done := 5, body }
def bussed (m : Msg) : State :=
  { up with now := 6, msgs := [m], clusters := [(0, { fbase := [(0, 0x8000000000000000)], flim := [(0, 0x1000)], fland := [(0, 0)] })] }

theorem witness_bus_messages :
    let s := bussed (message (.store 0x210 [1, 2]))
    let v : State := { bussed (message (.snoop .rx 3 0)) with clusters := [(0, { moesi := [(3, .s)] })] }
    let x : State := { bussed (message (.snoop .rx 3 0)) with clusters := [] }
    let u := after (.photonicFrame 0 [(2, 1)]) x
    let w := after (.retainedCopyRequest 1 9) u
    (s.forwards (regionOf 0) = true ∧ (s.cluster 0).holes = [] ∧ s.msgApplied 0 (message (.store 0x210 [1, 2])) = false ∧
      (s.cluster 0).landing 0x210 = some 0x210) ∧
      ((after (.photonicFrame 0 []) s).cluster 0).appliedTo.get 0 2 = 6 ∧
      ((after (.photonicFrame 0 []) s).l2Line 0 (landKey 0x210 / 64)).data.extractLsb' 128 16 = 0x201 ∧ (after (.photonicFrame 0 []) v).moesiOf 0 3 = .i ∧
      (x.bindAt 0 2 1 = 1 ∧ (x.cluster 0).rxTo < x.now ∧
        (u.cluster 0).holes = [{ bus := 2, group := 1, frame := 1, last := 6 }] ∧ u.msgs.map (·.lostAt) = [[0]] ∧
        u.msgs.map (·.retained) = [true]) ∧
      (w.msgs.map (·.copies) = [[0]] ∧ (w.cluster 0).holes.length = 1 ∧ w.packets.map (·.body) = [.copy 9 0] ∧
        refuses (.retainedCopyReceive 0 9) w = true ∧
        (after (.retainedCopyReceive 0 9) { w with packets := w.packets.map fun p => { p with at_ := p.goal, taken := true } }).msgs.map (·.lostAt) =
          [[]]) ∧
      (let idle : State := { x with msgs := [], now := 3 }
       let h := after (.photonicFrame 0 [(2, 1)]) idle
       let z : State := { at_ 9 h with msgs := [{ message (.snoop .rx 3 0) with done := 8 }] }
       (h.cluster 0).holes = [{ bus := 2, group := 1, frame := 1, last := 3 }] ∧
         ((after (.retainedCopyRequest 1 9) (after (.photonicFrame 0 []) z)).cluster 0).holes = []) ∧
      (after (.retainedCopyExpire 9) (at_ 40005 (bussed { message (.snoop .rx 3 0) with acked := true }))).msgs = [] ∧
      (after (.retainedCopyExpire 9) (at_ 40005 u)).msgs.map (·.retained) = [false] ∧
      (let d (n : Nat) : State := { up with clusters := [(0, { fails := [(2, 1, 0, n)] })] }
       refuses (.groupDead 0 2 1) (d 15) = true ∧ (after (.groupDead 0 2 1) (d 16)).deadGroups = [(2, 1)] ∧
         (after (.groupDead 0 2 1) (d 16)).cqTail = 1) ∧
      (let h : State := { at_ 100005 up with clusters := [(0, { holes := [{ bus := 2, group := 1, frame := 5, last := 5 }] })] }
       roomy h = true ∧ ((after (.holeTimeout 0 2) h).cluster 0).holes.map (·.told) = [true] ∧ (after (.holeTimeout 0 2) h).cqTail = 1) := by
  decide +kernel

/-- A beacon of an earlier frame for cluster 0, whose receivers have got there. -/
def beaconed (kind : BeaconKind) (x : Cluster) : State :=
  { up with now := 9, beacons := [{ seq := 0, kind, frame := 8 }], clusters := [(0, { x with rxTo := 9 })], binds := [(384, 195)] }

theorem witness_beacons :
    (up.namedBeaconCluster = some 0 ∧ (let t := after .beaconClusterHandover { at_ 9 up with beaconsKept := [{ seq := 0, kind := .time, frame := 2 }] }
       t.beacons.map (·.kind) = [.time] ∧ t.beacons.map (·.frame) = [10] ∧ t.beaconsKept = [])) ∧
      ((up.region (regionOf up.bclu)).st = .on ∧ (after .timeBeaconSend (at_ 2048 up)).beacons.map (·.frame) = [2049]) ∧
      ((beaconed .time {}).nextBeacon 0).map (·.kind) = some .time ∧ roomy (beaconed .time {}) = true ∧
      (let t := after (.timeBeacon 0) (beaconed .time {})
       (t.cluster 0).frames = 9 ∧ (t.cluster 0).beaconAt = 1 ∧ t.cqTail = 1) ∧
      (after (.timeBeacon 0) (beaconed .time { frames := 9 })).cqTail = 0 ∧
      ((after (.timeBeacon 0) (beaconed .time { frames := 12 })).cluster 0).stall = 3 ∧
      ((after (.tableUpdateBeacon 0) (beaconed (.table 9 0x848000) {})).cluster 0).epoch = 1 ∧
      (let x := (after (.haltBeacon 0) (beaconed (.halt true 0 0) { cyc := 50 })).cluster 0
       x.halted = true ∧ x.haltAt = 9 ∧ x.haltCyc = 5) ∧
      ((after (.resumeBeacon 0) (beaconed (.halt false 0 0) { halted := true })).cluster 0).halted = false := by
  decide +kernel

/-- A table update of core 1: its own entry again takes it out of reset, another physical core gives it a fresh start. -/
theorem witness_table_beacons :
    let s (e : Word) : State := { beaconed (.table 1 e) {} with tbl := [(0, 0x800000), (1, 0x808000)], cores := [(1, { inReset := true, work := [.doorbell 5] })] }
    entryPhys 0x808000 = (s 0x808000).physOf 1 ∧ entryV ((s 0x808000).tableAt 0 1) = true ∧ (s 0x808000).softEntries = [] ∧
      ((after (.tableUpdateBeacon 0) (s 0x808000)).core 1).inReset = false ∧
      ((after (.tableUpdateBeacon 0) (s 0x808000)).core 1).work.length = 1 ∧
      entryPhys 0x820000 ≠ (s 0x820000).physOf 1 ∧ ((after (.tableUpdateBeacon 0) (s 0x820000)).core 1).work = [] ∧
      (after (.tableUpdateBeacon 0) (s 0)).core 1 = (s 0).core 1 := by
  decide +kernel

/-- A bind of cluster 0's stores on bus 2 to group 195, and one of another cluster. -/
theorem witness_bind_beacons :
    let s : State := { beaconed (.bind 2 0 195) {} with deadGroups := [(2, 0), (3, 0)] }
    let t := after (.groupBindBeacon 0) s
    let o : State := { beaconed (.bind 2 1 195) {} with binds := [(385, 195)] }
    s.groupOf 2 0 = 0 ∧ (t.cluster 0).bindEpoch = 1 ∧ t.groupOf 2 0 = 195 ∧ t.deadGroups = [(3, 0)] ∧ t.endMarks.map (·.group) = [0] ∧
      (after (.groupBindBeacon 0) o).endMarks = [] ∧ (after (.groupBindBeacon 0) o).bindAt 0 2 1 = 195 := by
  decide +kernel

/-- Cluster 0's read of superblock 3, placed by its own snoop. -/
def asked : SbReq := { cluster := 0, sb := 3, kind := .rs, msg := 1, placed := true, alone := true }

theorem witness_memory_system :
    (let s : State := { up with sbReqs := [{ asked with sup := some 0 }] }
     let there (t : State) : State := { t with packets := t.packets.map fun p => { p with at_ := p.goal, taken := true } }
     let t := there (after (.superblockResponse 0 3) s)
     s.supplied { asked with sup := some 0 } = true ∧ s.l2RoomOpen 0 3 = true ∧ ((s.setMoesi 0 3 .e).setTags 0 3).dedup.length ≤ 16 ∧
       t.packets.map (·.body) = [.supply 1] ∧ t.sbReqs.map (·.sent) = [true] ∧ t.moesiOf 0 3 = .i ∧
       (after (.superblockResponse 0 3) t).moesiOf 0 3 = .e ∧
       (after (.superblockResponse 0 3) { t with sbReqs := t.sbReqs.map fun r => { r with behind := [(.rx, 2)] } }).moesiOf 0 3 = .i) ∧
      (let s : State := { carrying (there (packet (.evict 3))) with evicting := [3, 4] }
       s.standsFor (there (packet (.evict 3))) = true ∧ s.inTurn (there (packet (.evict 3))) = true ∧ s.homeHeld 0 = false ∧
         (after (.evictionDataArrive 3) s).evicting = [4] ∧ (after (.evictionDataArrive 3) s).packets = []) ∧
      (let k := there (packet (.access 4))
       let s : State := { carrying k with pends := [pend], dram := [(0x10, 7)] }
       s.pend? 4 = some pend ∧ s.accessPacket 4 = some k ∧ k.arrived = true ∧ s.inTurn k = true ∧ s.standsFor k = true ∧ s.homeHeld 0 = false ∧
         s.forwards (regionOfPhys 0) = true ∧ s.canPerform pend = true ∧
         (after (.homeRequest 4) s).pends = [{ pend with performed := true, value := 7 }] ∧
         (after (.homeRequest 4) s).packets = [{ k with ret := true, taken := false }]) := by
  decide +kernel

/-- An access's answer taken up with its packet, and one that went the way at once. -/
theorem witness_answers :
    let p : Pend := { pend with performed := true, value := 7 }
    let s (p : Pend) : State := { up with pends := [p] }
    let u : State := { carrying (returned false (packet (.access 4))) with pends := [p] }
    (s p).answerIn 4 = true ∧ u.answerIn 4 = true ∧ ((after (.memoryResponse 4) (s p)).gang 1 3).vreg 6 2 = 7 ∧
      (after (.memoryResponse 4) (s p)).pends = [] ∧ ((after (.memoryResponse 4) u).gang 1 3).vreg 6 2 = 7 ∧
      (after (.memoryResponse 4) u).packets = [] ∧
      (after (.writeAcknowledge 4) (s { p with kind := .store })).pends = [] ∧
      (match ((after (.memoryResponse 4) (s { pend with failed := some 0x40 })).core 1).work with
        | [.trap u] => u.causes == [(0x40, 4)] && u.slot == 3
        | _ => false) = true ∧
      (match ((after (.writeAcknowledge 4) (s { pend with kind := .store, failed := some 0x30 })).core 1).work with
        | [.trap u] => u.causes == [(0x30, 4)] && u.va == 0x10
        | _ => false) = true := by
  decide +kernel

/-- Two page walks of VA 0: through the root at 2 MiB, whose table at 4 MiB maps a page of 1 GiB, and through an empty root. -/
def walking : State :=
  { up with
    dram := Memory.writeN (Memory.writeN [] 0x200000 8 0x400001) 0x400000 8 7
    clusters := [(0, { walks := [{ asn := 0, root := 0x200000, va := 0, cores := [1] }, { asn := 0, root := 0x800000, va := 0, cores := [] }] })] }

theorem witness_page_walks :
    let t := after (.pageWalk 0) walking
    let held (l : List (Nat × Nat)) : State := { walking with badEntries := l }
    (match walking.walk 1 0 0x200000 0, walking.walk 0 0 0x800000 0 with
     | .ok e, .error _ => e.size == 2 ^ 30
     | _, _ => false) = true ∧
      (∀ sb ∈ walking.walkReads 1 0 0x200000 0, walking.cohOpen 1 (256 * sb) false = true) ∧
      (t.cluster 0).walks.length = 1 ∧ (t.core 1).tlb.map (·.w) = [true] ∧ ((after (.pageWalk 0) t).cluster 0).walks = [] ∧
      (∃ sb ∈ (held [(0, 0)]).walkReads 1 0 0x200000 0, (held [(0, 0)]).cohOpen 1 (256 * sb) false = false) ∧
      refuses (.pageWalk 0) (held [(0, 0)]) = true := by
  decide +kernel

/-! ## Walkers, hubs and bodies -/

/-- Walker 0 runs an image of one node and the given node's bits; core 0 maps VA 0 to PA 0 for its run. -/
def graph (node : Nat) (r : Run) : State :=
  { up with
    dram := Memory.writeN [] 64 64 node
    cores := [(0, { tlb := [page 0 0 0] })]
    clusters := [(0, { inPool := true })]
    walkers := [(0, { st := 1, tag := 6, run := some { r with nnode := 1 } })] }
/-- A node of a kind with ARG0, JOINN and no successor. -/
def nodeOf (kind joinn arg0 : Nat) : Nat := kind + joinn * 2 ^ 16 + arg0 * 2 ^ 64 + (2 ^ 128 - 1) * 2 ^ 256
def entering (node : Nat) : State := graph node { entry := some 0 }

/-- A record at offset 0x1000 of the launch region: code 0x40, a 2 x 3 grid of blocks of one core and one gang of 16 lanes. -/
def record : Nat := 0x40 + 2 ^ 64 * 2 + 2 ^ 80 * 3 + 2 ^ 104 + 2 ^ 113 + 2 ^ 117
def launching (r : Nat) : State :=
  let s := entering (nodeOf 0 0 0x1000)
  { s with dram := Memory.writeN s.dram 0x1000 64 r }

theorem witness_nodes_fire :
    let s := entering (nodeOf 5 0 0x77)
    s.walks 0 = true ∧ (s.runOf 0).entry = some 0 ∧ s.firing? 0 0 = none ∧ s.imageRead 0 0 64 64 = .ok (nodeOf 5 0 0x77) ∧
      ((entering 7).workDone 0 = true ∧ (entering 7).runOf 0 = { nnode := 1, entry := some 0 } ∧ (∀ p ∈ (entering 7).cores, p.2.trq = [])) ∧
      nodeBad (nodeOf 5 0 0x77) 0 = false ∧ nodeBad 7 0 = true ∧ roomy (entering 7) = true ∧
      (after (.nodeFire 0 0) (entering 7)).cq.get 0 0 = CqEntry.bits { payload := 0, tag := 6, src := 0, cause := 1, kind := 2 } ∧
      ((after (.nodeFire 0 0) s).firing? 0 0).map (·.arg0) = some 0x77 ∧
      ((after (.nodeFire 0 0) (entering (nodeOf 1 0 0x40))).firing? 0 0).map (·.chain) = some 0x40 ∧
      (((after (.nodeFire 0 0) (entering (nodeOf 4 2 0))).runOf 0).joins.get 0 0) = 1 := by
  decide +kernel

theorem witness_launches :
    (launching record).launchRecord 0 0x1000 = .ok record ∧ (launching record).tableWaits 0 record = false ∧ (launching record).launchCauses 0 record = [] ∧
      (launching (record - 2 ^ 80 * 3)).launchCauses 0 (record - 2 ^ 80 * 3) = [0x12] ∧
      (after (.nodeFire 0 0) (launching (record - 2 ^ 80 * 3))).cq.get 0 0 =
        CqEntry.bits { payload := 0, tag := 6, src := 0, cause := 0x12, kind := 2 } := by
  decide +kernel

/-- A firing of node 0 without token and successors. -/
def firing (kind : Nat) : Firing := { node := 0, edge := none, kind, succ := [0xffffffff] }
def fires (f : Firing) : State := graph 0 { firings := [f] }

theorem witness_firings_end :
    let launched : State := { fires { firing 0 with ltag := 5 } with launches := [(5, {})] }
    let waiting : State := at_ 1000 (fires { firing 6 with arg0 := 0x200, arg1 := 3, arg2 := 1 })
    let set : State := { waiting with dram := [(0x200, 3)] }
    launched.firing? 0 0 = some { firing 0 with ltag := 5 } ∧ (launched.launch 5).left = 0 ∧ launched.writesDone (· == 5) = true ∧ launched.fieldHalted 0 = false ∧
      ((graph 0 {}).workDone 0 = true ∧ (graph 0 {}).edgesOpen 0 = true ∧ (graph 0 {}).walks 0 = true ∧ (graph 0 {}).runOf 0 = { nnode := 1 }) ∧
      (after (.kernelNodeComplete 0 0) launched).launches = [] ∧ (after (.copyNodeComplete 0 0) (fires (firing 1))).firing? 0 0 = none ∧
      (after (.signalEntryWritten 0 0) (fires { firing 5 with arg0 := 9 })).cq.get 0 0 =
        CqEntry.bits { payload := 9, tag := 6, src := 0, cause := 0, kind := 4 } ∧
      (match waiting.condWord 0 0x200, set.condWord 0 0x200 with
       | .ok a, .ok b => a == 0 && b == 3
       | _, _ => false) = true ∧
      ((after (.waitNodePoll 0 0) set).firing? 0 0 = none ∧ (after (.waitNodePoll 0 0) waiting).walkers = waiting.walkers) ∧
      (after (.waitNodeTimeout 0 0) waiting).cq.get 0 0 = CqEntry.bits { payload := 0, tag := 6, src := 0, cause := 5, kind := 2 } ∧
      (let s := fires { firing 1 with give := some [] }
       (after (.runDone 0) (graph 0 {})).cq.get 0 0 = CqEntry.bits { payload := 0, tag := 6, src := 0, cause := 0, kind := 1 } ∧
         (s.walker 0).st = 1) := by
  decide +kernel

/-- Edge 0: two slots of 16 bytes at 0x400, the counter at 0x500; `free` slots are free. -/
def edge : Edge := { queue := 0x400, slots := 2, size := 16, counter := 0x500, cons := 0 }
def delivering (free : Nat) : State :=
  let s := graph 0 { firings := [{ firing 1 with succ := [0], give := some [0] }], edges := [edge] }
  { s with dram := Memory.writeN [] 0x500 8 free }

theorem witness_deliveries :
    (match (delivering 1).deliver ((delivering 1).walkAgent 0) edge 0, (delivering 0).deliver ((delivering 0).walkAgent 0) edge 0 with
     | .ok (some _), .ok none => true
     | _, _ => false) = true ∧
      (let t := after (.freeSlotRetry (.walker 0 0)) (delivering 1)
       t.firing? 0 0 = none ∧ t.dram = [(0x40c, 1), (0x440, 1), (0x444, 1)]) ∧
      (let t := after (.freeSlotRetry (.walker 0 0)) (delivering 0)
       (t.walker 0).st = 2 ∧ (t.firing? 0 0).map (·.give) = some (some [0])) ∧
      (match (graph 0 {}).edgesEmpty 0 with
       | .ok b => b
       | .error _ => false) = true := by
  decide +kernel

/-- Launch 9: code 0x40, a grid of 2 x 30 blocks of one core, one gang of 16 lanes with one octet row, class 1. -/
def kernel : Launch := { code := 0x40, gx := 2, gy := 30, gw := 16, octs := 1, cls := 1, gangs := 1, left := 60, token := 0x88 }
/-- Hub 0 with a list of launch 9; its field's lowest cluster is in the class 1 pool. -/
def hubbed (y : HubList) : State :=
  { up with launches := [(9, kernel)], clusters := [(0, { inPool := true })], hubs := [(0, { lists := [y] })] }
def queued : State := hubbed { ltag := 9, blocks := [48], own := true, eff := 1, since := 0 }

theorem witness_hub_lists :
    let s : State := { queued with hubs := [] }
    s.launches.any (·.1 == 9) = true ∧ s.fieldHalted 0 = false ∧ s.hubList? 0 9 = none ∧ s.fieldPool 0 1 = true ∧
      (((after (.launchReceive 0 9) s).hubList? 0 9).map (·.blocks)) = some [0, 48] ∧
      (queued.hubList? 0 9).map (·.eff) = some 1 ∧
      (((after (.hubPriorityAging 0 9) (at_ 1000000 queued)).hubList? 0 9).map (·.eff)) = some 2 := by
  decide +kernel

theorem witness_block_place :
    let u := (queued.handAll 0).markBlocked 0
    u.hubChoice 0 = some (9, 48, 0) ∧ u.savedBlock 9 48 = none ∧
      let t := after (.blockPlace 0) queued
      t.block 0 = { ltag := 9, index := 48, placed := true } ∧ (t.gang 0 0).live = true ∧ (t.gang 0 0).sreg 3 = 0x180000 ∧
        (t.gang 0 0).sreg 1 = 0x88 ∧ ((t.gang 0 0).lane 15).pc = 0x40 ∧ (t.gang 0 0).mreg 0 = 0xffff ∧ (t.hub 0).last = 9 := by
  decide +kernel

/-- Hub 2 asks hub 0 for blocks of launch 9. -/
def asking (blocks : List Nat) : State :=
  { hubbed { ltag := 9, blocks, own := true, eff := 1, since := 0 } with
    hubs := [(0, { lists := [{ ltag := 9, blocks, own := true, eff := 1, since := 0 }] }), (2, { steal := some (0, [9]) })] }
/-- Hub 0 has an answer to its request to hub 1. -/
def answered (bs : List Nat) (empties : Nat) : State :=
  { queued with hubs := [(0, { steal := some (1, [9]), answer := some (9, bs), empties })] }

theorem witness_steals :
    (asking []).thiefOf 0 = some (2, [9]) ∧ ((asking []).hub 0).giveFrom 2 [9] = none ∧
      (((asking [0, 48, 96]).hub 0).giveFrom 2 [9]).map (·.ltag) = some 9 ∧
      ((after (.stealRequest 0) (asking [])).hub 2).answer = some (0, []) ∧
      (let t := after (.stealRequest 0) (asking [0, 48, 96])
       (t.hub 2).answer = some (9, [48, 96]) ∧ (t.hubList? 0 9).map (·.blocks) = some [0]) ∧
      ((after (.stealResponse 0) (answered [] 0)).hub 0).steal = some (nextHub 1, [9]) ∧
      ((after (.stealResponse 0) (answered [] 46)).hub 0).backoff = some 0 ∧
      ((after (.stealResponse 0) (answered [3] 0)).hubList? 0 9).map (·.blocks) = some [3] := by
  decide +kernel

/-- Block 4 of launch 9 stands on core 0 with its one gang idle. -/
def standing : State :=
  { queued with
    blocks := [(4, { ltag := 9, placed := true })]
    cores := [(0, { gangs := [(0, { seat := { used := true, block := 4, ltag := 9, octs := 1 } })] })] }

theorem witness_block_exit :
    standing.blockGangs 4 = [(0, 0)] ∧ standing.slotDone 0 0 = true ∧ (standing.block 4).images = [] ∧ standing.blockCores 4 = [0] ∧
      (let t := after (.blockExit 4) standing
       t.blocks = [] ∧ (t.gang 0 0).seat.used = false ∧ (t.launch 9).left = 59) ∧
      ((after (.stealBackoffExpire 0) (at_ 10000 { up with hubs := [(0, { backoff := some 0 })] })).hub 0).backoff = none := by
  decide +kernel

/-- A record of launch 9 with code 0x80, frame 0x55 and two octet rows. -/
def task : QRec := { bits := mkRecord 0x80 0x55 0 0 0 2 2 9, va := 0x1234, stamp := 0 }
def taskAt (p : Nat) : State := standing.modCore 0 fun k => { k with recQ := [(p, [task])] }

theorem witness_record_admission :
    let s := taskAt 2
    s.admits 0 = true ∧ (s.core 0).rowWait = [] ∧ s.recordSlots 0 = [0] ∧ s.admitFrom 0 0 4 = .run 2 task ∧
      (let t := after (.recordAdmit 0) s
       (t.gang 0 0).live = true ∧ (t.gang 0 0).sreg 1 = 0x1234 ∧ (t.gang 0 0).sreg 2 = 0x55 ∧ (t.gang 0 0).seat.octs = 2 ∧
         ((t.gang 0 0).lane 15).pc = 0x80 ∧ (t.core 0).recQ.get [] 2 = []) ∧
      ((taskAt 1).recRoom 0 2 1 = true ∧ ((after (.recordPromote 0 1) (at_ 1000000 (taskAt 1))).core 0).recQ.get [] 2 = [task]) := by
  decide +kernel

/-- A post of core 1's gang 3 has reached core 0, or come back to core 1 refused. -/
def posted (p : Packet) (s : State) : State := { s with packets := [p], tbl := [(0, 0x800000), (1, 0x808000)] }

def refusedPost : Packet := { returned true (packet (.post task 2 3)) with reinjected := true }

/-- The block stands on core 1 too, in the slot that gang 3 posts from. -/
def standingBoth : State :=
  { standing with cores := standing.cores ++ [(1, { gangs := [(3, { seat := { used := true, block := 4, ltag := 9, octs := 1 }, posts := 1 })] })] }

theorem witness_posts :
    let p := there (packet (.post task 2 3))
    let s := posted p standing
    let back := posted refusedPost standingBoth
    p.arrived = true ∧ s.packet? 7 = some p ∧ s.inTurn p = true ∧ s.standsFor p = true ∧ s.residentAt 0 9 = true ∧ s.recRoom 0 2 1 = true ∧
      (let t := after (.postReceive 7) s
       ((t.core 0).recQ.get [] 2).map (·.bits) = [task.bits] ∧ t.packets = [{ p with ret := true, taken := false }]) ∧
      ((posted p queued).residentAt 0 9 = false ∧
        (after (.postReceive 7) (posted p queued)).packets = [{ p with ret := true, nack := true, taken := false, reinjected := true }]) ∧
      refusedPost.arrived = true ∧ back.inTurn refusedPost = true ∧ back.residentAt 1 9 = true ∧ back.recRoom 1 2 1 = true ∧
      (let t := after (.postRefusedReturn 7) back
       ((t.core 1).recQ.get [] 2).map (·.bits) = [task.bits] ∧ (t.gang 1 3).posts = 0 ∧ t.packets = []) ∧
      (let t := after (.postRefusedReturn 7) (posted refusedPost { queued with cores := [(1, { gangs := [(3, { posts := 1 })] })] })
       t.packets = [] ∧ (t.gang 1 3).posts = 0 ∧ (t.core 1).recQ = []) := by
  decide +kernel

theorem witness_full_queue : State.recRoom { up with cores := [(0, { recQ := [(2, List.replicate 16384 task)] })] } 0 2 1 = false := by
  have h : (List.replicate 16384 task).length = 16384 := List.length_replicate ..
  generalize List.replicate 16384 task = l at h
  simp [State.recRoom, State.core, SMap.get, recCap, h]

/-- A record's body has ended on core 0; its parent at 0x10040 has JOIN 2. -/
def ended : State :=
  { base.modGang 0 0 fun g => { g with live := false, kind := .record, ending := true, parent := 0x10040 } with dram := Memory.writeN [] 0x10058 2 2 }

theorem witness_joins :
    (ended.joinAt 0 0 0x10040).isOk = true ∧ ended.pends = [] ∧ ended.bcastClear 0 = true ∧
      (after (.joinDecrement 0 0) ended).dram = [(0x10058, 1)] ∧ ((after (.joinDecrement 0 0) ended).gang 0 0).parent = 0 := by
  decide +kernel

/-- Two items for code 0x200 and one for another wait in callee queue 3 of core 0. -/
def item (target : DWord) (lane : Nat) : CallItem :=
  { target, ltag := 9, block := 4, caller := { call := 5, lane }, v := [BitVec.ofNat 32 (100 + lane)], stamp := 0 }
def calling : State := standing.modCore 0 fun k => { k with calleeQ := [(3, [item 0x200 1, item 0x300 2, item 0x200 4])], calleeAt := [(3, some 0)] }

theorem witness_callees :
    (calling.gang 0 0).idle = true ∧ calling.admits 0 = true ∧ calling.calleeReady 0 0 = true ∧ (calling.core 0).fullest 9 = some 3 ∧
      (takeItems 0x200 9 16 [item 0x200 1, item 0x300 2, item 0x200 4]).1 = [item 0x200 1, item 0x200 4] ∧
      let t := after (.calleeGangForm 0 0) calling
      (t.gang 0 0).mreg 0 = 3 ∧ ((t.gang 0 0).lane 1).pc = 0x200 ∧ (t.gang 0 0).vreg 0 1 = 104 ∧
        (t.core 0).calleeQ.get [] 3 = [item 0x300 2] := by
  decide +kernel

/-- Lane 2 of base's gang is suspended in `callq` 5. -/
def suspended : State := base.modGang 0 0 fun g => { g with lanes := g.lanes.put 2 { pc := 0x108, susp := true, call := 5 } }

/-- Queue 3 has waited for 2 µs; the gang's launch has a save pool of `n` images at 2 MiB, whose pages core 0 maps. -/
def starved (n : DWord) : State :=
  { at_ 2000 suspended with launches := [(0, { octs := 32, bw := 1, bh := 1, save := 0x200000 + n })] }.modCore 0 fun k =>
    { k with
      tlb := [{ page 0 0 0 with size := 2 ^ 30 }]
      calleeQ := [(3, [{ item 0x200 1 with ltag := 0 }])]
      calleeAt := [(3, some 0)] }

theorem witness_callers :
    let s := suspended.modCore 0 fun k => { k with returns := [(5, 2, [77])] }
    s.admits 0 = true ∧ (s.core 0).slotSaves = [] ∧ (s.gang 0 0).calls = [5] ∧ s.callDone (s.gang 0 0) 5 = true ∧
      (s.gang 0 0).matrixHolds (List.range 8) = false ∧ (s.gang 0 0).rowAt = none ∧
      (s.replayFault 0 (s.gang 0 0) (((s.gang 0 0).touched (List.range 8) []).map fun m => ((s.gang 0 0).recipe m).treg.toNat)).isNone = true ∧
      s.rowsReady 0 0 ((s.gang 0 0).touched (List.range 8) []) ((s.gang 0 0).callMask 5) = true ∧
      (let t := after (.callerResume 0 0) s
       ((t.gang 0 0).lane 2).susp = false ∧ (t.gang 0 0).vreg 0 2 = 77 ∧ (t.core 0).returns = []) ∧
      (let m : MatRun := { seq := 1, areg := 0, regs := 8, tile := 0, tiles := 1, bits := 0, left := [0] }
       let u := s.modGang 0 0 fun g => { g with ctxs := [(4, { tliss := 1, mats := [m] })] }
       (u.gang 0 0).matrixHolds (List.range 8) = true ∧ refuses (.callerResume 0 0) u = true) ∧
      (starved 1).idleSlots 0 = [] ∧ (starved 1).callVictims 0 0 = [(0, 5)] ∧ (starved 1).slotImage 0 0 = true ∧
      ((after (.callqSlotPreempt 0) (starved 1)).gang 0 0).saveCall = true ∧ (starved 0).slotImage 0 0 = false ∧
      refuses (.callqSlotPreempt 0) (starved 0) = true := by
  decide +kernel

/-! ## The events of a core -/

/-- Cluster 0 has run for n core cycles. -/
def cycled (n : Nat) (s : State) : State := s.modCluster 0 fun x => { x with cyc := 10 * n }
def parked : State := base.modGang 0 0 fun g => { g with lanes := g.lanes.put 3 { pc := 0x200, stamp := 4, parked := true }, parkAt := some 0 }
/-- Lane 2 waits in a timed `ldfe` of 16 cycles. -/
def feWaiting : State :=
  base.modCore 0 fun k => { k with feWait := [{ slot := 0, lane := 2, granule := 256, addr := 4096, fill := true, clr := true, data := 0, bound := some 16, since := 0 }] }
/-- The gang waits at a barrier for at most 32 cycles. -/
def barWaiting (count : Byte) : State := after (.barwait { barF with c := .reg 7 }) (withS [(7, 512)] (barred count))

/-- Slot 0's gang waits for a hint since 0; its block can have an image where its launch has a pool of `n`. -/
def hinted (n : DWord) : State := at_ 20000 ((starved n).modGang 0 0 fun g => { g with saveReq := some 0 })

theorem witness_bounds :
    (let s := (cycled 32 base).modCore 0 fun k => { k with holds := [(1, some { slot := 1, count := 2, since := 0 })] }
     s.runs 0 = true ∧ 0 + 32 ≤ s.cycles (clusterOf 0) ∧ ((after (.holdTimeout 0 1) s).core 0).holds.get none 1 = none) ∧
      (let t := after (.regangTimeout 0 0) (cycled 4096 parked)
       (parked.gang 0 0).parkAt = some 0 ∧ ((t.gang 0 0).lane 3).pc = 0x208 ∧ ((t.gang 0 0).lane 3).parked = false ∧ ((t.gang 0 0).lane 3).stamp = 4) ∧
      ((cycled 16 feWaiting).runs 0 = true ∧ ((after (.ldfeTimeout 0 0 2) (cycled 16 feWaiting)).core 0).feWait = []) ∧
      ((hinted 1).obtainImages 0).isSome = true ∧ ((after (.hintTimeout 0 0) (hinted 1)).gang 0 0).saveStop = some none ∧
      ((hinted 0).obtainImages 0).isSome = false ∧ refuses (.hintTimeout 0 0) (hinted 0) = true := by
  decide +kernel

/-- Lane 3 waits in an `ldfe.to` of 16 cycles that writes v20 and v21. -/
def timed : State :=
  after (.ldfe { ldfeF with fn := 2, c := .reg 7, guard := ⟨false, 1⟩ }) (withS [(7, 16)] (memory.modMe fun g => g.setM 1 8))

theorem witness_timed_load :
    let s := cycled 16 timed
    let t := after (.ldfeTimeout 0 0 3) s
    (match (s.gang 0 0).waits, (s.core 0).feWait with
     | [w], [q] => w.ex == 8 && w.done == 0 && w.zero == 0 && w.timedOut == 0 && w.ldfe && (w.fe?.map fun f => f.m58 && !f.nwb) == some true &&
         w.dst == 20 && q.bound == some 16 && q.since == 0 && q.lane == 3
     | _, _ => false) = true ∧ s.runs 0 = true ∧ (s.gang 0 0).droppedAs 20 = none ∧
      (t.gang 0 0).waits = [] ∧ (t.gang 0 0).vreg 21 3 = 0 ∧ ((t.gang 0 0).lane 3).pc = 0x108 := by
  decide +kernel

theorem witness_barrier_waits :
    let s := barWaiting 0
    let passed : State := { s with dram := [(0x10000, 1), (0x10009, 3)] }
    let broken : State := { s with dram := [] }
    let busy : State := { s with
      clusters := [(0, { walks := List.replicate 16 { asn := 0, root := 0, va := 2 ^ 40, cores := [1] } })]
      cores := s.cores.map fun q => (q.1, { q.2 with tlb := [] }) }
    let b : BarAt := ⟨false, 0, 0x10000⟩
    let looks (s : State) (w : Wait) (x : Bool → Bool → Bool) : Bool :=
      let o := s.endWait 0 0 w
      let u := o.barWalk 0 w b
      (match o.barNow 0 w b with
       | some (.ok c) => c == b && u.barOpen c false && (u.barReach c false 0).isNone &&
           x (barBad (u.barRead 0 c.entry)) (barPassed (u.barRead 0 c.entry) 0)
       | _ => false)
    (match (s.gang 0 0).waits with
     | [w] =>
       w.bar == some (false, 0, 0x10000, 0) && w.ins.isSome && w.bound == some 32 && w.since == 0 && w.entry.isSome &&
         looks s w (fun bad done => !bad && !done) && looks passed w (fun bad done => !bad && done) && looks broken w (fun bad _ => bad) &&
         ((busy.endWait 0 0 w).barNow 0 w b).isNone
     | _ => false) = true ∧
      s.runs 0 = true ∧ ((after (.barrierWaitRecheck 0 0) s).gang 0 0).waits.length = 1 ∧
      (let t := after (.barrierWaitRecheck 0 0) passed
       (t.gang 0 0).sreg 6 = 0 ∧ ((t.gang 0 0).lane 0).pc = 0x108 ∧ (t.gang 0 0).waits = []) ∧
      ((after (.barrierWaitRecheck 0 0) broken).core 0).work.length = 1 ∧
      (let t := after (.barrierWaitTimeout 0 0) (cycled 32 s)
       (t.gang 0 0).sreg 6 = 1 ∧ ((t.gang 0 0).lane 0).pc = 0x108 ∧ (t.gang 0 0).waits = []) := by
  decide +kernel

/-- Context 1 has one copy entry at 0x18000: 8 bytes from 0x19000 to 0x19100, its descriptor at 0x19200; `done` rows are written. -/
def copyBits : Nat := 2 ^ 128 + 0x19000 * 2 ^ 192 + 0x19100 * 2 ^ 256 + 0x19200 * 2 ^ 320
def engined (done : Nat) : State :=
  { memory.modMe fun g => { g with ctxs := [(1, { chring := 0x18001, tliss := 1, done })] } with
    dram := Memory.writeN (Memory.writeN (Memory.writeN [] 0x18000 64 copyBits) 0x19000 8 0x77) 0x19200 64 (1 + 8 * 2 ^ 256) }

theorem witness_engine_rows :
    (match (engined 0).engineAt (.gang 0 0 1) with
     | some v =>
       (match (engined 0).entryBits v, (engined 0).copyPlan v copyBits with
        | .ok e, .ok (sl, dims) => e == copyBits && rowCount dims == 1 && ((engined 0).copyRow v e sl dims 0).isOk
        | _, _ => false)
     | none => false) = true ∧
      (let t := after (.engineRowWritten (.gang 0 0 1)) (engined 0)
       ((t.gang 0 0).ctx 1).done = 1 ∧ t.homeRead 0 0x19100 8 = 0x77) ∧
      ((engined 1).engineAt (.gang 0 0 1)).map (·.rows) = some 1 ∧
      (let t := after (.engineEntryComplete (.gang 0 0 1)) (engined 1)
       ((t.gang 0 0).ctx 1).tlcnt = 1 ∧ ((t.gang 0 0).ctx 1).done = 0) ∧
      (let t := after (.engineEntryFault (.gang 0 0 1) 0x0b) (engined 0)
       ((t.gang 0 0).ctx 1).cause = 0x0b ∧ ((t.gang 0 0).ctx 1).tlcnt = 0) := by
  decide +kernel

/-- One entry of context n: a matrix entry without tiles left, a matched collective, an edge put, or a collective of this core alone. -/
def issuedOn (n : Nat) (x : ECtx) (e : Nat) : State :=
  { memory.modMe fun g => { g with ctxs := [(n, { x with chring := 0x18001, tliss := 1 })] } with dram := Memory.writeN [] 0x18000 64 e }
/-- A gather of one word from 0x19000 to 0x19100 by a rectangle of one core. -/
def collBits : Nat := 5 * 2 ^ 128 + 0x19000 * 2 ^ 192 + 0x19100 * 2 ^ 256 + 2 ^ 320

set_option maxRecDepth 8000 in
theorem witness_matrix_entries :
    let m : MatRun := { seq := 1, areg := 0, regs := 0, tile := 0, tiles := 0, bits := 0, left := [], out := [(5, 9)] }
    let s := issuedOn 4 { mats := [m] } (4 * 2 ^ 128)
    let t := after (.engineEntryComplete (.gang 0 0 4)) s
    (s.engineAt (.gang 0 0 4)).isSome = true ∧ (∀ m ∈ ((s.gang 0 0).ctx 4).mats, m.left = []) ∧ ((t.gang 0 0).ctx 4).tlcnt = 1 ∧
      ((t.gang 0 0).ctx 4).cause = 0 ∧ (t.core 0).am = [(5, 9)] := by
  decide +kernel

theorem witness_collectives :
    let s := (issuedOn 6 {} collBits).modGang 0 0 fun g => g
    (match s.engineAt (.gang 0 0 6) with
     | some v =>
       (match s.entryBits v, s.spaceRead v 0 0x19000 4 with
        | .ok e, .ok d => e == collBits && s.collFault v 0 0 e == none && s.collMembers 0 0 e == [(0, 0)] && entryKind e == 5 && coRoot e == 0 &&
            cpSrc e == 0x19000 && cpDst e == 0x19100 && (s.spaceWrite v 0 0x19100 4 d.2).isOk
        | _, _ => false)
     | none => false) = true ∧
      (((after (.collectiveMatch 0 0) s).gang 0 0).ctx 6).matched = 1 ∧
      (((after (.engineEntryComplete (.gang 0 0 6)) (issuedOn 6 { matched := 1 } collBits)).gang 0 0).ctx 6).tlcnt = 1 := by
  decide +kernel

set_option maxRecDepth 8000 in
theorem witness_matrix_passes :
    let s := after (.mpass (matF 4 0)) (withS [(20, 0x400)] ringed)
    let q := (s.core 0).octQ.take 1
    let u := s.modCore 0 fun k => { k with octQ := q }
    let t := after (.matrixPass 0) u
    q.length = 1 ∧ (q.all fun o => (u.octRun 0 o).isSome) = true ∧ (t.core 0).octQ = [] ∧
      ((u.gang 0 0).ctx 4).mats.all (·.out == []) = true ∧ (((t.gang 0 0).ctx 4).mats.map (·.left)) = [[1]] ∧
      (((t.gang 0 0).ctx 4).mats.all (·.out != [])) = true := by
  decide +kernel

/-- Context 1 of slot 0 is faulted with two entries outstanding. -/
def faulted : State := base.modGang 0 0 fun g => { g with live := true, ctxs := [(1, { tliss := 3, tlcnt := 1, cause := 2, done := 4 })] }

set_option maxRecDepth 8000 in
theorem witness_self_tests :
    (let s : State := { up with clusters := [(0, { frames := 40 })] }
     ((after (.matrixSelfTest 0 true) s).core 0).selfTest = 40 ∧ roomy s = true ∧ (after (.matrixSelfTest 0 false) s).cqTail = 1) ∧
      (let w : Wait := { lanes := 0xffff, pc := 0x100, since := 0, len := 8, sysw := some (0, 0x19, 0x40001) }
       let s := base.modGang 0 0 fun g => { g with waits := [w] }
       ((s.gang 0 0).ctx 1).tlcnt = ((s.gang 0 0).ctx 1).tliss ∧ (∀ h, h < 16 → h ≠ 0 → (s.gang 0 h).waits = []) ∧
         (let t := after (.chringWrite 0 0 1) s
          ((t.gang 0 0).ctx 1).chring = 0x40001 ∧ (t.gang 0 0).waits = [] ∧ ((t.gang 0 0).lane 7).pc = 0x108)) ∧
      (faulted.gang 0 0).live = true ∧ (after (.ectlResume 0 0 1) faulted |>.gang 0 0).ctx 1 = { (faulted.gang 0 0).ctx 1 with resumed := true } ∧
      (((after (.ectlAbandon 0 0 1) faulted).gang 0 0).ctx 1).tlcnt = 3 ∧ (((after (.ectlAbandon 0 0 1) faulted).gang 0 0).ctx 1).cause = 0 := by
  decide +kernel

/-- Core 0's handler runs. -/
def handlerRuns : State := base.modGang 0 handlerSlot fun g => { g with live := true }
/-- A trap of slot 2 waits; the handler's frames lie at VA 0, on a page it may write. -/
def trapWaits : State :=
  { up with
    cores := [(0, { tlb := [page 0 0x10000 0], work := [.trap { slot := 2, causes := [(3, 1)], entry := entry0 }] })] }

theorem witness_handlers :
    (let w : Wait := { lanes := 0xffff, pc := 0x100, since := 0, len := 8, sysw := some (0, 0x052, 0xffffffffffffffff) }
     let t := after (.filterWrite 0 0) (base.modGang 0 0 fun g => { g with waits := [w] })
     (t.cluster 0).fbase.get 0 2 = 0x800000ffffffff80 ∧ (t.gang 0 0).waits = []) ∧
      (handlerRuns.gang 0 handlerSlot).live = true ∧ roomy handlerRuns = true ∧
      (after (.mondoneWrite 0 0x050007) handlerRuns).cq.get 0 0 = CqEntry.bits { payload := 7, tag := 0, src := 0, cause := 5, kind := 9 } ∧
      ((after (.gangStop 0 0 true) handlerRuns).gang 0 0).gdbStop = true ∧
      ((after (.gangStep 0 0) (after (.gangStop 0 0 true) handlerRuns)).gang 0 0).gdbStep = true ∧
      ((after (.gangStop 0 0 false) (after (.gangStop 0 0 true) handlerRuns)).gang 0 0).gdbStop = false := by
  decide +kernel

theorem witness_frame_page : framePage trapWaits 0 (pageAt .coherent 0x10000 0) := by
  have l1 (q : Nat) : (trapWaits.core q).l1 = [] := by
    by_cases h : q = 0
    · subst h; decide +kernel
    · simp [trapWaits, State.core, SMap.get, Ne.symm h]
  refine ⟨?_, ?_, ?_, ?_, ?_, ?_, fun q _ e he => ?_, ?_⟩
  case refine_7 => rw [l1 q] at he; cases he
  all_goals decide +kernel

theorem witness_handler_entries :
    (let s : State := { up with cores := [(0, { work := [.doorbell 9] })], hostRegs := [(0x36000, 0x5000)] }
     let t := after (.handlerEntry 0) s
     s.coreRuns 0 = true ∧ (t.core 0).serving = some (.monitor 9) ∧ (t.gang 0 handlerSlot).sreg 1 = 0x5000 ∧
       (t.gang 0 handlerSlot).sreg 3 = 0x1f) ∧
      trapWaits.coreRuns 0 = true ∧ (trapWaits.cluster 0).nextFreq = none ∧
      (let s := trapWaits.modCore 0 fun k => { k with tlb := [{ page 0 0 0 with w := false }] }
       s.walkOpen 0 0 0 (s.frameVa 0) = true ∧ (match (lookedUp s 0).translate 0 0 0 (s.frameVa 0) .write with
        | .error e => decide (e < 256)
        | .ok _ => false) = true ∧ ((after (.handlerEntry 0) s).core 0).hStopped = true) := by
  decide +kernel

/-- Slot 0 waits for a row. -/
def rowWaiting : State := base.modGang 0 0 fun g => { g with rowAt := some 0, rowNeed := 1 }

/-- The first gigabyte, software-managed, at core 0. -/
def savePage : TlbEntry := { page 0 0 1 with size := 2 ^ 30 }

/-- Images in a software-managed page of core 0's slice are open where the cluster holds nothing and the home answers. -/
theorem image_open (s : State) (a : Agent) (va : Nat) (want : Want) (hw : want = .read ∨ want = .write)
    (hp : s.pends = []) (ht : (s.core a.core).tlb = [savePage]) (ha : a.asn = 0) (hv : va + 2 ^ 21 ≤ 0x7e00000)
    (hl : (s.cluster (clusterOf a.core)).l2 = []) (hm : (s.cluster (clusterOf a.core)).moesi = [])
    (hh : s.homeOpen a.core 0 = true) (hc : s.homeCause a.core 0 a.order = none) : s.imageOpen a va want = true := by
  have room : ∀ sb, s.l2RoomOpen (clusterOf a.core) sb = true := fun sb => by
    simp [State.l2RoomOpen, State.setTags, hl, hm, tagsOf]
  simp only [State.imageOpen, hp, List.all_nil, Bool.true_and, List.all_eq_true, List.mem_range]
  intro k hk
  have hit : s.tlbHit a.core a.asn (va + 0x100 * k) = some savePage := by
    have : savePage.covers a.asn (va + 0x100 * k) = true := by
      simp [TlbEntry.covers, savePage, page, ha]; omega
    simp [State.tlbHit, ht, this]
  have hd : (va + 0x100 * k) / 2 ^ 27 = 0 := by omega
  have hn : va + 0x100 * k < 144115188075855872 := by omega
  have hi : inHole (va + 0x100 * k) = false := by simp [inHole]; omega
  have hq : s.homeCause a.core (va + 0x100 * k) a.order = none := by
    have hd : (va + 0x100 * k) / 2 ^ 27 = 0 / 2 ^ 27 := by omega
    rw [← hc]; simp only [State.homeCause, hd]
  have hd : (va + 0x100 * k) / 134217728 = 0 := by omega
  have hpl : s.agPlace a (va + 0x100 * k) want = .ok (savePage.trans (va + 0x100 * k)) := by
    rcases hw with rfl | rfl <;>
    simp [State.agPlace, State.walkOpen, State.translate, State.lookup, hit, Nat.not_le.2 hn, savePage, page, TlbEntry.trans, State.holed, hi,
      State.engReach, room, hd, hh, hq, State.l2Line, hl]
  simp [hpl]

/-- Slot 0's gang stops for a save; its launch has a pool of one image at 2 MiB. -/
def saving : State :=
  { base.modGang 0 0 fun g => { g with saveStop := some none } with
    launches := [(0, { fs := slots, octs := 32, bw := 1, bh := 1, save := 0x200001 })]
    cores := [(0, { (base.modGang 0 0 fun g => { g with saveStop := some none }).core 0 with tlb := [savePage] })] }

theorem witness_rows :
    (let s := rowWaiting.modCore 0 fun k => { k with rowWait := [0] }
     s.admits 0 = true ∧ (s.gang 0 0).rowNeed ≤ (s.core 0).freeFor (s.gang 0 0).seat ∧ ((after (.materialiseRowGrant 0) s).core 0).rowWait = [] ∧
       ((after (.materialiseRowGrant 0) s).gang 0 0).rowGrant = 1) ∧
      (let s (n : DWord) := at_ 10000 ((starved n).modGang 0 0 fun g => { g with rowAt := some 0, rowNeed := 1 })
       (s 1).rowHolders 0 = [0] ∧ (s 1).slotImage 0 0 = true ∧ ((after (.materialiseDeadlockSave 0) (s 1)).gang 0 0).saveStop = some none ∧
         (s 0).slotImage 0 0 = false ∧ refuses (.materialiseDeadlockSave 0) (s 0) = true) := by
  decide +kernel

theorem witness_saves :
    (saving.gang 0 0).saveStop = some none ∧ saving.drainedGang 0 0 = true ∧ (saving.block 0).images = [] ∧
      saving.hintOpen 0 (saving.gang 0 0) = true ∧ saving.linesOpen 0 = true ∧
      saving.freeImages 0 (saving.launch 0) 1 = some [0] ∧ (saving.launch 0).imageVa 0 = 0x200000 := by
  decide +kernel

theorem witness_save_image : saving.imageOpen (saving.gangAgent 0 0) 0x200000 .write = true :=
  image_open _ _ _ _ (.inr rfl) (by decide +kernel) (by decide +kernel) (by decide +kernel) (by decide +kernel) (by decide +kernel)
    (by decide +kernel) (by decide +kernel) (by decide +kernel)

/-- Core 0 was saved into an image at 2 MiB for its slot 0, which has become idle. -/
def slotSaved : State :=
  { saving with cores := [(0, { (saving.modGang 0 0 fun g => { seat := g.seat, live := false }).core 0 with
                                slotSaves := [{ slot := 0, va := 0x200000, rest := saving.gang 0 0 }] })] }

theorem witness_slot_restores :
    let s := slotSaved
    s.admits 0 = true ∧ (s.core 0).rowWait = [] ∧ ((s.core 0).slotSaves.find? fun x => !x.call && s.slotReady 0 x).isSome = true := by
  have ready : slotSaved.slotReady 0 { slot := 0, va := 0x200000, rest := saving.gang 0 0 } = true := by
    have := image_open slotSaved (slotSaved.gangAgent 0 0) 0x200000 .read (.inl rfl) (by decide +kernel) (by decide +kernel) (by decide +kernel)
      (by decide +kernel) (by decide +kernel) (by decide +kernel) (by decide +kernel) (by decide +kernel)
    simp only [State.slotReady, Nat.reduceMod, this, Bool.and_true]
    decide +kernel
  have saved : (slotSaved.core 0).slotSaves = [{ slot := 0, va := 0x200000, rest := saving.gang 0 0 }] := by decide +kernel
  exact ⟨by decide +kernel, by decide +kernel, by rw [saved]; simpa using ready⟩

/-- The block of slot 0's gang is saved: the image of this gang, and one more where `two`. -/
def blockSaving (two : Bool) : State :=
  saving.setBlock 0 { saving.block 0 with
    placed := true
    images := { pos := 0, gidx := (saving.gang 0 0).seat.gidx, va := 0x200000 } ::
      if two then [{ pos := 1, gidx := 0, va := 0x300000 }] else [] }

/-- Slot 0's gang can be saved for its block now, in the place of the first image. -/
def blockSavable (s : State) : Bool :=
  s.drainedGang 0 0 && s.hintOpen 0 (s.gang 0 0) && s.linesOpen 0 && (s.blockCores 0).all s.linesOpen && s.coreIndex 0 (s.gang 0 0) == 0 &&
    ((s.block 0).images.find? fun i => i.pos == s.coreIndex 0 (s.gang 0 0) && i.gidx == (s.gang 0 0).seat.gidx && !i.done).isSome

theorem witness_block_saves :
    blockSavable (blockSaving true) = true ∧ blockSavable (blockSaving false) = true ∧ (saving.gang 0 0).seat.block = 0 ∧
      ((blockSaving true).block 0).images.map (·.done) = [false, false] ∧ ((blockSaving false).block 0).images.length = 1 ∧
      ((blockSaving false).block 0).placed = true := by
  decide +kernel

theorem witness_block_image (two : Bool) :
    (blockSaving two).imageOpen ((blockSaving two).gangAgent 0 0) 0x200000 .write = true := by
  cases two <;>
  exact image_open _ _ _ _ (.inr rfl) (by decide +kernel) (by decide +kernel) (by decide +kernel) (by decide +kernel) (by decide +kernel)
    (by decide +kernel) (by decide +kernel) (by decide +kernel)

/-- Block 4 of launch 9 was saved into an image at 2 MiB and heads its hub's list. -/
def restorable : State :=
  { queued with
    blocks := [(4, { ltag := 9, index := 48, saved := true, images := [{ pos := 0, gidx := 0, va := 0x200000, done := true }] })]
    cores := [(0, { tlb := [savePage] })] }

theorem witness_restores :
    let u := (restorable.handAll 0).markBlocked 0
    u.hubChoice 0 = some (9, 48, 0) ∧ u.savedBlock 9 48 = some 4 ∧ (∀ c ∈ rectCores (u.launch 9) 0, u.linesOpen c = true) ∧
      u.imageOpen { core := 0, asn := (u.launch 9).asn, root := (u.launch 9).root } 0x200000 .read = true :=
  ⟨by decide +kernel, by decide +kernel, by decide +kernel, image_open _ _ _ _ (.inl rfl) (by decide +kernel) (by decide +kernel)
    (by decide +kernel) (by decide +kernel) (by decide +kernel) (by decide +kernel) (by decide +kernel) (by decide +kernel)⟩

/-- Slot 0's gang has executed an instruction that is tagged. -/
def tagging (f : Sample → Sample) : State :=
  base.modCore 0 fun k => { k with sampled := [(0, some (f { walker := 0, name := 3, at_ := 9, slot := 0, pc := 0x100, seq := 4, half := 128 }))] }

theorem witness_losses :
    (let s := base.modGang 0 0 fun g => { g with live := true }
     let p : Pend := { pend with core := 0, slot := 0, performed := true, failed := none }
     let u : State := { s with pends := [p] }
     s.spoiledLoad 0 0 0x1234 = none ∧ ((after (.eccError 0 0 6 0x1234) s).gang 0 0).ecc.map (fun e => (e.source, e.va)) =
       some (6, 0x1234) ∧
       u.spoiledLoad 0 0 0x12 = some p ∧ (after (.eccError 0 0 6 0x12) u).pends.map (·.failed) = [some cMachineCheck]) ∧
      ((up.gang 0 0).live = false ∧ roomy up = true ∧ (after (.eccError 0 0 6 0) up).cqTail = 1) ∧
      (let s (q : List HWork) : State := (tagging id).modCore 0 fun k => { k with work := q }
       let x : Sample := { walker := 0, name := 3, at_ := 9, slot := 0, pc := 0x100, seq := 4, half := 128 }
       let u : TrapRec := { slot := 0, causes := [(cIllegalEncoding, 1)], entry := { entry0 with seq := 4 } }
       ((s []).core 0).sampled.get none 0 = some x ∧ (s []).sampleStage 0 x = none ∧ (s [.trap u]).sampleStage 0 x = some 1 ∧
         ((after (.sampleTag 0 0 128 3) (s [])).core 0).trq.map (·.walker) = [0] ∧
         ((after (.sampleTag 0 0 128 3) (s [.trap u])).core 0).trq.length = 1 ∧
         ((after (.sampleTag 0 0 128 3) (s [])).core 0).sampleCnt.get 0 0 = 128) ∧
      (after .linkModuleLoss up).linkMods = 7 ∧ (after .modulePowerLoss up).powered = false ∧
      (match step (after .modulePowerLoss up) with
       | .fault .unpowered => true
       | _ => false) = true := by
  decide +kernel

/-- An error for the next instruction: a scalar one meets it as a whole, a vector one in a lane of the error's at least. -/
theorem witness_consumed_errors :
    let e : Ecc := { source := 6, va := 0x1234, mask := 4 }
    let s := base.modMe fun g => { g with ecc := some e }
    let v : Fields := { word0 with ty := 8, a := .reg 5, b := .reg 16, dst := 20 }
    opens (s.modMe fun g => { g with ecc := none }) (.sadd saddF) = true ∧ opens (s.modMe fun g => { g with ecc := none }) (.vaddInt v) = true ∧
      (match ((after (.sadd saddF) s).core 0).work, ((after (.vaddInt v) s).core 0).work with
       | [.trap a], [.trap b] => a.causes == [(cMachineCheck, 0xffff)] && a.inner == 6 && a.va == 0x1234 && b.causes == [(cMachineCheck, 4)]
       | _, _ => false) = true ∧ (after (.vaddInt v) s).me.vreg 20 2 = base.me.vreg 20 2 := by
  decide +kernel

/-! ## The machine -/

/-- A step on a state in which `sadd.n64 s3, s1, s2` is fetched next runs it. -/
theorem test_step_runs_decoded :
    (match step (State.reset.withFetchWord 64 (leBytes (encode (.sadd saddF)))) with
     | .next t => ((t.gang 0 0).lane 0).pc == 8
     | _ => false) = true := by
  decide +kernel

theorem witness_memory_canonical : State.reset.dram.wf = true ∧ (edged.dram.wf = true) := by decide +kernel

end Sys2Proof.Tests
end

section
/-! Every step keeps DRAM canonical (O60). Only six functions write `State.dram` (`homeWrite`, `cohWrite`, `loseSuperblock`, `hostStore`,
`copySlice`, `regionLost`). The lemmas follow the model's functions in the order of their definitions: `dram_f` says that `f` leaves DRAM alone,
`wf_f` that it keeps DRAM canonical, `keeps_f` that an instruction or event does, whatever its outcome. -/

namespace Sys2Proof.Machine

/-! ### What it means to keep DRAM canonical -/

@[simp] theorem dram_ite (c : Prop) {_ : Decidable c} (a b : State) : (if c then a else b).dram = if c then a.dram else b.dram :=
  apply_ite State.dram c a b

@[simp] theorem dram_foldl {α : Type} {f : State → α → State} (hf : ∀ s a, (f s a).dram = s.dram) (l : List α) (s : State) :
    (l.foldl f s).dram = s.dram := by
  induction l generalizing s with
  | nil => rfl
  | cons a l ih => rw [List.foldl_cons, ih, hf]

@[simp] theorem Memory.wf_ite (c : Prop) {_ : Decidable c} (m n : Memory) :
    Memory.wf (if c then m else n) = if c then m.wf else n.wf := apply_ite Memory.wf c m n

theorem foldl_keeps {α β : Type} (P : β → Prop) {f : β → α → β} (hf : ∀ b a, P b → P (f b a)) (l : List α) {b : β} (h : P b) :
    P (l.foldl f b) := by
  induction l generalizing b with
  | nil => exact h
  | cons a l ih => exact ih (hf b a h)

@[simp] theorem wf_foldl {α : Type} {f : State → α → State} (hf : ∀ s a, s.dram.wf = true → (f s a).dram.wf = true) (l : List α) {s : State}
    (h : s.dram.wf = true) : (l.foldl f s).dram.wf = true :=
  foldl_keeps (fun s : State => s.dram.wf = true) hf l h

theorem wf_of_eq {α : Type} {x : State × α} {t : State} {a : α} (e : x = (t, a)) (h : x.1.dram.wf = true) : t.dram.wf = true := by
  subst e
  exact h

/-- The invariant by name, for the proofs in which the kernel must not open `State.dram`. -/
def State.Canonical (s : State) : Prop := s.dram.wf = true

theorem State.Canonical.of_dram {s t : State} (h : s.Canonical) (e : t.dram = s.dram) : t.Canonical := by
  rw [State.Canonical, e]
  exact h

/-- An outcome that is a state is canonical. -/
def Keeps (o : Out) : Prop := ∀ t, o = .next t → t.dram.wf = true

@[simp] theorem keeps_next (t : State) : Keeps (.next t) ↔ t.dram.wf = true := by simp [Keeps]

@[simp] theorem keeps_fault (r : Fault) : Keeps (.fault r) := by simp [Keeps]

@[simp] theorem keeps_refused (r : Refusal) : Keeps (.refused r) := by simp [Keeps]

@[simp] theorem keeps_ite (c : Prop) {_ : Decidable c} (a b : Out) : Keeps (if c then a else b) = if c then Keeps a else Keeps b :=
  apply_ite Keeps c a b

/-- `P` of the value, if there is one. -/
def IfOk {ε α : Type} (P : α → Prop) : Except ε α → Prop
  | .ok a => P a
  | .error _ => True

/-- `P` of the value, if there is one. -/
def IfSome {α : Type} (P : α → Prop) : Option α → Prop
  | some a => P a
  | none => True

/-- `P` of the state that fetch leaves, whether or not a group goes on to issue. -/
def Ready.Holds (P : State → Prop) : Ready → Prop
  | .stay t => P t
  | .go _ _ t => P t

@[simp] theorem ifOk_ok {ε α : Type} (P : α → Prop) (a : α) : IfOk P (.ok a : Except ε α) ↔ P a := Iff.rfl

@[simp] theorem ifOk_error {ε α : Type} (P : α → Prop) (e : ε) : IfOk P (.error e : Except ε α) := trivial

@[simp] theorem ifSome_some {α : Type} (P : α → Prop) (a : α) : IfSome P (some a) ↔ P a := Iff.rfl

@[simp] theorem ifSome_none {α : Type} (P : α → Prop) : IfSome P none := trivial

theorem IfOk.of_eq {ε α : Type} {P : α → Prop} {x : Except ε α} {a : α} (h : IfOk P x) (e : x = .ok a) : P a := by
  subst e
  exact h

theorem IfSome.of_eq {α : Type} {P : α → Prop} {x : Option α} {a : α} (h : IfSome P x) (e : x = some a) : P a := by
  subst e
  exact h

theorem IfOk.map {ε α β : Type} {P : β → Prop} {x : Except ε α} (f : α → β) (h : IfOk (fun a => P (f a)) x) : IfOk P (x.map f) := by
  cases x
  · trivial
  · exact h

theorem IfSome.map {α β : Type} {P : β → Prop} {x : Option α} (f : α → β) (h : IfSome (fun a => P (f a)) x) : IfSome P (x.map f) := by
  cases x
  · trivial
  · exact h

theorem IfOk.always {ε α : Type} {P : α → Prop} (h : ∀ a, P a) (x : Except ε α) : IfOk P x := by
  cases x
  · trivial
  · exact h _

theorem IfOk.mono {ε α : Type} {P Q : α → Prop} {x : Except ε α} (h : IfOk P x) (hq : ∀ a, P a → Q a) : IfOk Q x := by
  cases x
  · trivial
  · exact hq _ h

theorem IfSome.mono {α : Type} {P Q : α → Prop} {x : Option α} (h : IfSome P x) (hq : ∀ a, P a → Q a) : IfSome Q x := by
  cases x
  · trivial
  · exact hq _ h

theorem IfSome.getD {α : Type} {P : α → Prop} {x : Option α} {d : α} (h : IfSome P x) (hd : P d) : P (x.getD d) := by
  cases x
  · exact hd
  · exact h

/-! ### Accessors, messages and directories (Ops) -/

@[simp] theorem dram_bboxEvent (s : State) (field kind source data : Nat) : (s.bboxEvent field kind source data).dram = s.dram := rfl

@[simp] theorem dram_bboxOpen (s : State) (field kind : Nat) : (s.bboxOpen field kind).dram = s.dram := rfl

@[simp] theorem dram_flag (s : State) (b : Nat) : (s.flag b).dram = s.dram := rfl

@[simp] theorem dram_cqWrite (s : State) (e : CqEntry) : (s.cqWrite e).dram = s.dram := by simp [State.cqWrite]

@[simp] theorem dram_cqPost (s : State) (e : CqEntry) : (s.cqPost e).dram = s.dram := by
  unfold State.cqPost
  simp only [dram_ite]
  (repeat' split) <;> simp

@[simp] theorem dram_cqDrain (n : Nat) (s : State) : (State.cqDrain n s).dram = s.dram := by
  induction n generalizing s with
  | zero => rfl
  | succ n ih =>
    unfold State.cqDrain
    (repeat' split) <;> simp [ih]

@[simp] theorem dram_message (s : State) (kind : BitVec 8) (src cause payload : Nat) :
    (s.message kind src cause payload).dram = s.dram := by
  simp [State.message]

@[simp] theorem dram_endHold (s : State) (c g : Nat) : (s.endHold c g).dram = s.dram := rfl

@[simp] theorem dram_coreCheck (s : State) (c cause : Nat) : (s.coreCheck c cause).dram = s.dram := by simp [State.coreCheck]

@[simp] theorem dram_takeTrap (s : State) (c : Nat) (t : TrapRec) : (s.takeTrap c t).dram = s.dram := by simp [State.takeTrap]

@[simp] theorem dram_takeEndTrap (s : State) (c g code : Nat) (va : DWord) : (s.takeEndTrap c g code va).dram = s.dram := by
  simp [State.takeEndTrap]

@[simp] theorem dram_markCalls (s : State) (c : Nat) : (s.markCalls c).dram = s.dram := by simp [State.markCalls]

@[simp] theorem dram_tryIdle (s : State) (c g : Nat) : (s.tryIdle c g).dram = s.dram := by
  unfold State.tryIdle
  simp only [dram_ite]
  split
  · rfl
  · split <;> simp

/-! ### Buses (Bus) -/

@[simp] theorem dram_inject (s : State) (src dst : Nat) (l : Launch) (rc addr : Nat) (body : PktBody) :
    (s.inject src dst l rc addr body).dram = s.dram := by simp [State.inject]

@[simp] theorem dram_respond (s : State) (q c : Nat) (body : PktBody) : (s.respond q c body).dram = s.dram := rfl

@[simp] theorem dram_sendMsg (s : State) (bus k core frames : Nat) (body : MsgBody) (ltag : Half) :
    (s.sendMsg bus k core frames body ltag).1.dram = s.dram := rfl

@[simp] theorem dram_countSnoop (s : State) (bus k : Nat) : (s.countSnoop bus k).dram = s.dram := rfl

@[simp] theorem dram_pushBack (s : State) (bus k n : Nat) (d : Half) (group : Nat) : (s.pushBack bus k n d group).dram = s.dram := rfl

@[simp] theorem dram_launchBeacon (s : State) (k : Nat) (b : Beacon) : (s.launchBeacon k b).dram = s.dram := rfl

@[simp] theorem dram_sendBeacon (s : State) (k : Nat) (kind : BeaconKind) : (s.sendBeacon k kind).dram = s.dram := rfl

@[simp] theorem dram_noteHalt (s : State) (on : Bool) (src core : Nat) : (s.noteHalt on src core).dram = s.dram := by simp [State.noteHalt]

@[simp] theorem dram_sendHalt (s : State) (k : Nat) (on : Bool) (src core : Nat) : (s.sendHalt k on src core).dram = s.dram := by
  simp [State.sendHalt]

/-! ### Translation and the hierarchy (Mem) -/

@[simp] theorem wf_homeWrite (s : State) (k pa n v : Nat) (h : s.dram.wf = true) : (s.homeWrite k pa n v).dram.wf = true := by
  unfold State.homeWrite
  split <;> simp [h]

@[simp] theorem wf_cohWrite (s : State) (pa n v : Nat) (h : s.dram.wf = true) : (s.cohWrite pa n v).dram.wf = true := by
  simp [State.cohWrite, h]

@[simp] theorem wf_loseSuperblock (s : State) (sb : Nat) (h : s.dram.wf = true) : (s.loseSuperblock sb).dram.wf = true := by
  simp [State.loseSuperblock, h]

@[simp] theorem dram_askHome (s : State) (c pa : Nat) : (s.askHome c pa).dram = s.dram := by simp [State.askHome]

@[simp] theorem dram_dropCopies (s : State) (k sb : Nat) (p : Nat → Bool) : (s.dropCopies k sb p).dram = s.dram := by
  simp [State.dropCopies]

@[simp] theorem dram_setMoesi (s : State) (k sb : Nat) (x : Moesi) : (s.setMoesi k sb x).dram = s.dram := by
  simp [State.setMoesi]

@[simp] theorem dram_snoopOthers (s : State) (k sb : Nat) (sn : Snoop) : (s.snoopOthers k sb sn).dram = s.dram := by
  simp [State.snoopOthers]

@[simp] theorem dram_setL1 (s : State) (c la : Nat) (l : Line) : (s.setL1 c la l).dram = s.dram := rfl

@[simp] theorem dram_setL2 (s : State) (k la : Nat) (l : Line) : (s.setL2 k la l).dram = s.dram := rfl

@[simp] theorem wf_l2WriteBack (s : State) (k la : Nat) (h : s.dram.wf = true) : (s.l2WriteBack k la).dram.wf = true := by
  simp [State.l2WriteBack, h]

@[simp] theorem wf_l2WriteUnit (s : State) (k la : Nat) (h : s.dram.wf = true) : (s.l2WriteUnit k la).dram.wf = true := by
  simp +contextual [State.l2WriteUnit, h]

@[simp] theorem wf_l2Evict (s : State) (k sb : Nat) (h : s.dram.wf = true) : (s.l2Evict k sb).dram.wf = true := by
  simp +contextual [State.l2Evict, h]

@[simp] theorem dram_loseCoherent (s : State) (k sb : Nat) : (s.loseCoherent k sb).dram = s.dram := by simp [State.loseCoherent]

@[simp] theorem wf_l2Shrink (s : State) (k sb : Nat) (keep : List Nat) (h : s.dram.wf = true) : (s.l2Shrink k sb keep).dram.wf = true := by
  unfold State.l2Shrink
  simp only []
  split
  · simp [h]
  · exact h

@[simp] theorem wf_l2Room (s : State) (k sb : Nat) (keep : List Nat) (h : s.dram.wf = true) : (s.l2Room k sb keep).dram.wf = true := by
  simp [State.l2Room, h]

@[simp] theorem wf_evictCoherent (s : State) (k sb : Nat) (h : s.dram.wf = true) : (s.evictCoherent k sb).dram.wf = true := by
  simp [State.evictCoherent, h]

@[simp] theorem wf_share (s : State) (k sb : Nat) (h : s.dram.wf = true) : (s.share k sb).dram.wf = true := by simp [State.share, h]

@[simp] theorem wf_own (s : State) (k sb : Nat) (h : s.dram.wf = true) : (s.own k sb).dram.wf = true := by
  unfold State.own
  split <;> simp [h]

@[simp] theorem wf_l2Fetch (s : State) (k la : Nat) (h : s.dram.wf = true) : (s.l2Fetch k la).dram.wf = true := by simp [State.l2Fetch, h]

@[simp] theorem wf_l1WriteBack (s : State) (c la : Nat) (keep : List Nat) (h : s.dram.wf = true) :
    (s.l1WriteBack c la keep).dram.wf = true := by
  simp [State.l1WriteBack, h]

@[simp] theorem wf_l1WriteUnit (s : State) (c la : Nat) (h : s.dram.wf = true) : (s.l1WriteUnit c la).dram.wf = true := by
  unfold State.l1WriteUnit
  have hf (l : List Nat) : ∀ ks : List Nat, (l.foldl (fun s a => s.l1WriteBack c a ks) s).dram.wf = true := fun ks =>
    wf_foldl (fun s a h => wf_l1WriteBack s c a ks h) l h
  simp [hf]

@[simp] theorem wf_l1Evict (s : State) (c sb : Nat) (h : s.dram.wf = true) : (s.l1Evict c sb).dram.wf = true := by
  simp +contextual [State.l1Evict, h]

@[simp] theorem wf_l1Room (s : State) (c sb : Nat) (h : s.dram.wf = true) : (s.l1Room c sb).dram.wf = true := by
  unfold State.l1Room
  simp only []
  split
  · exact h
  · split <;> simp [h]

@[simp] theorem wf_cohFill (s : State) (c sb : Nat) (h : s.dram.wf = true) : (s.cohFill c sb).dram.wf = true := by simp [State.cohFill, h]

@[simp] theorem wf_l1Fetch (s : State) (c la : Nat) (h : s.dram.wf = true) : (s.l1Fetch c la).dram.wf = true := by
  unfold State.l1Fetch
  simp only []
  split <;> simp [h]

@[simp] theorem dram_askWalk (s : State) (c : Nat) (asn : Half) (root va : Nat) : (s.askWalk c asn root va).dram = s.dram := by
  simp [State.askWalk]

@[simp] theorem wf_readWalk (s : State) (c : Nat) (asn : Half) (root va : Nat) (h : s.dram.wf = true) :
    (s.readWalk c asn root va).dram.wf = true := by
  exact wf_foldl (fun s sb h => by split <;> simp [h]) _ h

@[simp] theorem wf_queueWalk (s : State) (c : Nat) (asn : Half) (root va : Nat) (h : s.dram.wf = true) :
    (s.queueWalk c asn root va).dram.wf = true := by simp [State.queueWalk, h]

@[simp] theorem wf_refill (s : State) (c : Nat) (asn : Half) (va : Nat) (h : s.dram.wf = true) : (s.refill c asn va).dram.wf = true := by
  unfold State.refill
  (repeat' split) <;> simp [h]

@[simp] theorem dram_askCoh (s : State) (c pa : Nat) (writes : Bool) : (s.askCoh c pa writes).dram = s.dram := by simp [State.askCoh]

@[simp] theorem wf_memRead (s : State) (c : Nat) (t : Trans) (n : Nat) (h : s.dram.wf = true) : (s.memRead c t n).1.dram.wf = true := by
  unfold State.memRead
  (repeat' split) <;> simp [h]

@[simp] theorem wf_memWrite (s : State) (c : Nat) (t : Trans) (n v : Nat) (h : s.dram.wf = true) : (s.memWrite c t n v).dram.wf = true := by
  unfold State.memWrite
  split <;> simp [h]

@[simp] theorem wf_memAtomic (s : State) (c : Nat) (t : Trans) (n : Nat) (f : Nat → Option Nat) (h : s.dram.wf = true) :
    (s.memAtomic c t n f).1.dram.wf = true := by
  unfold State.memAtomic
  simp only []
  split
  · split <;> simp [h]
  · simp [h]

@[simp] theorem wf_engineWrite (s : State) (c : Nat) (t : Trans) (n v : Nat) (h : s.dram.wf = true) :
    (s.engineWrite c t n v).dram.wf = true := by
  unfold State.engineWrite
  split <;> simp [h]

@[simp] theorem wf_engineRead (s : State) (c : Nat) (t : Trans) (n : Nat) (h : s.dram.wf = true) :
    (s.engineRead c t n).1.dram.wf = true := by
  unfold State.engineRead
  simp only []
  split
  · simp [h]
  · simp [h]
  · split <;> simp [h]

@[simp] theorem dram_spadWrite (s : State) (c a n v : Nat) : (s.spadWrite c a n v).dram = s.dram := rfl

@[simp] theorem dram_setGran (s : State) (c gr : Nat) (b : Bool) : (s.setGran c gr b).dram = s.dram := rfl

/-! ### Operands and the issue of an instruction (Operands) -/

@[simp] theorem wf_konstFetch (s : State) (c : Nat) (g : Gang) (va : Nat) (h : s.dram.wf = true) :
    (s.konstFetch c g va).dram.wf = true := by
  unfold State.konstFetch
  split
  · exact h
  · simp only []
    split <;> simp [h]

@[simp] theorem wf_konstFill (s : State) (c : Nat) (g : Gang) (f : Fields) (h : s.dram.wf = true) : (s.konstFill c g f).dram.wf = true := by
  simp +contextual [State.konstFill, h]

@[simp] theorem wf_replayFetch (s : State) (c : Nat) (g : Gang) (e : ReplayErr) (h : s.dram.wf = true) :
    (s.replayFetch c g e).dram.wf = true := by
  unfold State.replayFetch
  split
  · simp only []
    split <;> simp [h]
  · simp only []
    split
    · simp [h]
    · split
      · exact h
      · (repeat' split) <;> simp [h]

@[simp] theorem wf_materialise (s : State) (c g n : Nat) (h : s.dram.wf = true) : (s.materialise c g n).dram.wf = true := by
  simp [State.materialise, h]

@[simp] theorem wf_clearRecipe (s : State) (c g n : Nat) (h : s.dram.wf = true) : (s.clearRecipe c g n).dram.wf = true := by
  simp [State.clearRecipe, h]

@[simp] theorem wf_touch (s : State) (c g : Nat) (vs ss : List Nat) (h : s.dram.wf = true) : (s.touch c g vs ss).dram.wf = true := by
  simp +contextual [State.touch, h]

@[simp] theorem dram_waitRow (s : State) (c g : Nat) (ns : List Nat) (lanes : Mask) : (s.waitRow c g ns lanes).dram = s.dram := by
  simp [State.waitRow]

@[simp] theorem dram_rowDone (s : State) (c g : Nat) : (s.rowDone c g).dram = s.dram := by simp [State.rowDone]

@[simp] theorem dram_setLatch (s : State) (lat : Nat) (vec : List (Nat × DWord)) (sca : Option DWord) :
    (s.setLatch lat vec sca).dram = s.dram := rfl

@[simp] theorem dram_lateLatch (s before : State) : (s.lateLatch before).dram = s.dram := by
  unfold State.lateLatch
  split <;> rfl

@[simp] theorem dram_wrS (s : State) (f : Fields) (v : DWord) : (s.wrS f v).dram = s.dram := by
  unfold State.wrS
  split <;> rfl

@[simp] theorem dram_wrM (s : State) (f : Fields) (v : Mask) : (s.wrM f v).dram = s.dram := by
  unfold State.wrM
  split <;> rfl

@[simp] theorem dram_wrVAt (s : State) (f : Fields) (r : Nat) (wide : Bool) (ex zero : Mask) (val : Nat → Nat) :
    (s.wrVAt f r wide ex zero val).dram = s.dram := by simp [State.wrVAt]

@[simp] theorem dram_wrV (s : State) (f : Fields) (wide : Bool) (ex zero : Mask) (val : Nat → Nat) :
    (s.wrV f wide ex zero val).dram = s.dram := by simp [State.wrV]

@[simp] theorem dram_wrRun (s : State) (f : Fields) (r n : Nat) (ex zero : Mask) (val : Nat → Nat → Nat) :
    (s.wrRun f r n ex zero val).dram = s.dram := rfl

@[simp] theorem dram_popReplay (s : State) : (s.popReplay).dram = s.dram := by
  unfold State.popReplay
  split <;> rfl

@[simp] theorem dram_issued (s : State) : (s.issued).dram = s.dram := rfl

@[simp] theorem dram_moveOn (s : State) (next : Nat → DWord × Nat) : (s.moveOn next).dram = s.dram := by simp [State.moveOn]

@[simp] theorem dram_waitIn (s : State) (w : Wait) : (s.waitIn w).dram = s.dram := by simp [State.waitIn]

@[simp] theorem dram_finish (s : State) : (s.finish).dram = s.dram := by simp [State.finish]

@[simp] theorem wf_trapPrecise (s : State) (i : Instr) (sp : OpSpec) (f : Fields) (causes : Causes) (mask : Mask) (info : TrapInfo)
    (h : s.dram.wf = true) :
    (s.trapPrecise i sp f causes mask info).dram.wf = true := by simp [State.trapPrecise, h]

@[simp] theorem wf_trapLate (s s0 : State) (i : Instr) (sp : OpSpec) (f : Fields) (causes : Causes) (info : TrapInfo)
    (h : s.dram.wf = true) : (s.trapLate s0 i sp f causes info).dram.wf = true := by simp [State.trapLate, h]

@[simp] theorem wf_readied (s : State) (f : Fields) (vs ss mat : List Nat) (h : s.dram.wf = true) :
    (s.readied f vs ss mat).dram.wf = true := by
  unfold State.readied
  refine wf_konstFill _ _ _ _ (wf_foldl (fun s n h => wf_materialise _ _ _ _ h) _ ?_)
  simp [h]

@[simp] theorem dram_markReplay (s : State) (regs : List Nat) : (s.markReplay regs).dram = s.dram := by
  unfold State.markReplay
  split <;> rfl

@[simp] theorem dram_askWalks (s : State) (vas : List Nat) : (s.askWalks vas).dram = s.dram := by simp [State.askWalks]

theorem wf_waitsFirst (s : State) (f : Fields) (p : Plan) (ex : Mask) (h : s.dram.wf = true) :
    IfSome (fun t => t.dram.wf = true) (s.waitsFirst f p ex) := by
  unfold State.waitsFirst
  simp only [Option.map]
  (repeat' split) <;> simp [h]

@[simp] theorem keeps_consume {s t : State} (i : Instr) (f : Fields) (sp : OpSpec) (e : Ecc) (ex zero : Mask)
    {body : State → Mask → Mask → Out} (hs : s.dram.wf = true) (ht : t.dram.wf = true)
    (hb : ∀ u ex z, u.dram.wf = true → Keeps (body u ex z)) : Keeps (s.consume t i f sp e ex zero body) := by
  unfold State.consume
  simp only []
  split
  · split
    · next u eq =>
      have hu : u.dram.wf = true := hb _ _ _ (by simpa using ht) u eq
      simp [hu]
    · exact hb _ _ _ (by simpa using ht)
  · simp [hs]

theorem keeps_issue {s : State} (i : Instr) (f : Fields) (sp : OpSpec) (p : Plan) {body : State → Mask → Mask → Out}
    (h : s.dram.wf = true) (hb : ∀ t ex z, t.dram.wf = true → Keeps (body t ex z)) : Keeps (s.issue i f sp p body) := by
  unfold State.issue
  simp only []
  split
  · simp [h]
  · split
    · simp [h]
    · split
      · simp [h]
      · split
        · simp [h]
        · split
          · next e => exact (keeps_next _).2 ((wf_waitsFirst s f p _ h).of_eq e)
          · split
            · simp [h]
            · split
              · simp [h]
              · split
                · simp [h]
                · split
                  · exact hb _ _ _ (by simp [h])
                  · exact keeps_consume _ _ _ _ _ _ (by simpa using h) (by simp [h]) hb

@[simp] theorem keeps_run {s : State} (i : Instr) (f : Fields) (p : OpSpec → Plan) {body : OpSpec → State → Mask → Mask → Out}
    (h : s.dram.wf = true) (hb : ∀ sp t ex z, t.dram.wf = true → Keeps (body sp t ex z)) : Keeps (s.run i f p body) := by
  unfold State.run
  split
  · exact keeps_issue _ _ _ _ h (hb _)
  · simpa using h

/-! ### Fetch (Fetch) -/

@[simp] theorem wf_codeFill (s : State) (c : Nat) (t : Trans) (h : s.dram.wf = true) : (s.codeFill c t).dram.wf = true := by
  unfold State.codeFill
  split <;> simp [h]

@[simp] theorem dram_switchTo (s : State) (c g slot : Nat) : (s.switchTo c g slot).dram = s.dram := rfl

@[simp] theorem dram_setHold (s : State) (c slot : Nat) (h : Option Hold) : (s.setHold c slot h).dram = s.dram := rfl

@[simp] theorem wf_holdAfter (s : State) (slot : Nat) (i : Instr) (replayed : Bool) (h : s.dram.wf = true) :
    (s.holdAfter slot i replayed).dram.wf = true := by
  unfold State.holdAfter
  split <;> simp [h]

@[simp] theorem dram_rawTrap (s : State) (causes : Causes) (fetch : Bool) (base : BitVec 128) (pfx : Word) :
    (s.rawTrap causes fetch base pfx).dram = s.dram := by simp [State.rawTrap]

theorem wf_ready (s : State) (c g j : Nat) (fly : Bool) (h : s.dram.wf = true) :
    (s.ready c g j fly).Holds fun t => t.dram.wf = true := by
  unfold State.ready
  simp only []
  split
  · exact h
  · split
    · exact h
    · split
      · split
        · exact h
        · split <;> simp [Ready.Holds, h]
      · split
        · exact h
        · split
          · simp [Ready.Holds, h]
          · split
            · simp [Ready.Holds, h]
            · split
              · simp [Ready.Holds, h]
              · split
                · simp [Ready.Holds, h]
                · split <;> simp [Ready.Holds, h]

@[simp] theorem wf_settle (before : State) (slot : Nat) (i : Instr) (after : State) (h : after.dram.wf = true) :
    (before.settle slot i after).dram.wf = true := by simp [State.settle, h]

@[simp] theorem dram_tick (s : State) (n : Nat) : (s.tick n).dram = s.dram := rfl

/-! ### Blocks and gangs (Blocks) -/

@[simp] theorem dram_setRun (s : State) (w : Nat) (r : Run) : (s.setRun w r).dram = s.dram := rfl

@[simp] theorem dram_modRun (s : State) (w : Nat) (f : Run → Run) : (s.modRun w f).dram = s.dram := rfl

theorem wf_wPut (s : State) (w va n v : Nat) (h : s.dram.wf = true) : IfOk (fun t => t.dram.wf = true) (s.wPut w va n v) := by
  unfold State.wPut
  simp only []
  (repeat' split) <;> simp [h]

@[simp] theorem dram_latePut (s : State) (c : Nat) (asn : Half) (t : Trans) (va n v : Nat) (o : Owner) (kind : AccKind) :
    (s.latePut c asn t va n v o kind).dram = s.dram := rfl

@[simp] theorem wf_hwPut (s : State) (c : Nat) (asn : Half) (root va n v : Nat) (o : Owner) (h : s.dram.wf = true) :
    (s.hwPut c asn root va n v o).dram.wf = true := by
  unfold State.hwPut
  (repeat' split) <;> simp [h]

@[simp] theorem wf_wTry (s : State) (w va n v : Nat) (h : s.dram.wf = true) : (s.wTry w va n v).dram.wf = true := by simp [State.wTry, h]

@[simp] theorem wf_releaseEdges (s : State) (w : Nat) (h : s.dram.wf = true) : (s.releaseEdges w).dram.wf = true := by
  simp +contextual [State.releaseEdges, h]

@[simp] theorem wf_drainTrace (s : State) (c : Nat) (h : s.dram.wf = true) : (s.drainTrace c).dram.wf = true := by
  simp only [State.drainTrace, dram_modCore]
  refine wf_foldl (fun s r h => ?_) _ h
  simp only [dram_modRun]
  exact wf_foldl (fun s i h => wf_hwPut _ _ _ _ _ _ _ _ h) _ h

@[simp] theorem wf_drainTraces (s : State) (h : s.dram.wf = true) : (s.drainTraces).dram.wf = true := by
  exact wf_foldl (fun s c h => by split <;> simp [h]) _ h

@[simp] theorem wf_pass (s : State) (n : Nat) (h : s.dram.wf = true) : (s.pass n).dram.wf = true := by simp [State.pass, h]

@[simp] theorem dram_traceRecord (s : State) (c w : Nat) (b : BitVec 256) : (s.traceRecord c w b).dram = s.dram := by
  unfold State.traceRecord
  split <;> rfl

@[simp] theorem dram_runFault (s : State) (w cause node edge : Nat) : (s.runFault w cause node edge).dram = s.dram := rfl

@[simp] theorem wf_writeFault (s : State) (w cause : Nat) (payload : DWord) (h : s.dram.wf = true) :
    (s.writeFault w cause payload).dram.wf = true := by simp [State.writeFault, h]

@[simp] theorem dram_showStall (s : State) (w : Nat) : (s.showStall w).dram = s.dram := by
  unfold State.showStall
  simp only []
  split <;> simp

@[simp] theorem wf_settleFault (s : State) (w : Nat) (h : s.dram.wf = true) : (s.settleFault w).dram.wf = true := by
  unfold State.settleFault
  simp only []
  (repeat' split) <;> simp [h]

@[simp] theorem wf_unlockL1 (s : State) (c g : Nat) (p : Nat → Bool) (h : s.dram.wf = true) : (s.unlockL1 c g p).dram.wf = true := by
  simp +contextual [State.unlockL1, h]

@[simp] theorem dram_lateBack (s : State) (k la : Nat) (ltag : Half) : (s.lateBack k la ltag).dram = s.dram := by
  unfold State.lateBack
  simp only [dram_setL2]
  exact dram_foldl (fun s i => dram_latePut s _ _ _ _ _ _ _ _) _ s

@[simp] theorem wf_unlockL2 (s : State) (c g : Nat) (p : Nat → Bool) (h : s.dram.wf = true) : (s.unlockL2 c g p).dram.wf = true := by
  refine wf_foldl (fun s la h => ?_) _ h
  simp only [dram_setL2]
  split <;> simp [h]

@[simp] theorem wf_releaseLocks (s : State) (c g : Nat) (h : s.dram.wf = true) : (s.releaseLocks c g).dram.wf = true := by
  simp [State.releaseLocks, h]

@[simp] theorem wf_barWrite (s : State) (c : Nat) (e : BarEntry) (v : Nat) (h : s.dram.wf = true) : (s.barWrite c e v).dram.wf = true := by
  unfold State.barWrite
  split <;> simp [h]

@[simp] theorem wf_barBreak (s : State) (c : Nat) (e : BarEntry) (v : Nat) (ltag : Half) (h : s.dram.wf = true) :
    (s.barBreak c e v ltag).dram.wf = true := by simp [State.barBreak, h]

@[simp] theorem wf_breakBarriers (s : State) (b : Nat) (h : s.dram.wf = true) : (s.breakBarriers b).dram.wf = true := by
  refine wf_foldl (fun s e h => ?_) _ h
  simp only []
  split <;> simp [h]

@[simp] theorem dram_filler (s : State) (c : Nat) : (s.filler c).1.dram = s.dram := rfl

@[simp] theorem dram_chargeFiller (s : State) (c g : Nat) : (s.chargeFiller c g).dram = s.dram := rfl

@[simp] theorem dram_endClaim (s : State) (c g : Nat) : (s.endClaim c g).dram = s.dram := by simp [State.endClaim]

@[simp] theorem dram_endClaims (s : State) (k : Nat) : (s.endClaims k).dram = s.dram := by simp [State.endClaims]

@[simp] theorem dram_forgetLatches (s : State) (c g : Nat) : (s.forgetLatches c g).dram = s.dram := rfl

@[simp] theorem dram_dropGang (s : State) (c g : Nat) : (s.dropGang c g).dram = s.dram := by simp [State.dropGang]

@[simp] theorem dram_orphan (s : State) (c : Nat) : (s.orphan c).dram = s.dram := rfl

@[simp] theorem dram_keepRecs (s : State) (c : Nat) (keep : QRec → Bool) : (s.keepRecs c keep).dram = s.dram := rfl

@[simp] theorem dram_markIdle (s : State) (c : Nat) : (s.markIdle c).dram = s.dram := by simp [State.markIdle]

@[simp] theorem dram_returnImages (s : State) (w : Nat) (vas : List DWord) : (s.returnImages w vas).dram = s.dram := by
  unfold State.returnImages
  split <;> rfl

@[simp] theorem wf_gangPut (s : State) (c g va v : Nat) (h : s.dram.wf = true) : (s.gangPut c g va v).dram.wf = true := by
  simp [State.gangPut, h]

@[simp] theorem wf_breakColls (s : State) (b : Nat) (h : s.dram.wf = true) : (s.breakColls b).dram.wf = true := by
  refine wf_foldl (fun s p h => ?_) _ h
  simp only []
  split <;> simp [h]

@[simp] theorem wf_abandonAll (s : State) (b : Nat) (h : s.dram.wf = true) : (s.abandonAll b).dram.wf = true := by
  refine wf_foldl (fun s p h => wf_foldl (fun s n h => ?_) _ h) _ h
  exact wf_foldl (fun s i h => wf_gangPut _ _ _ _ _ h) _ h

@[simp] theorem wf_freeBlock (s : State) (b : Nat) (killed : Bool) (h : s.dram.wf = true) : (s.freeBlock b killed).dram.wf = true := by
  simp +contextual [State.freeBlock, h]

@[simp] theorem wf_exitBlock (s : State) (b : Nat) (h : s.dram.wf = true) : (s.exitBlock b).dram.wf = true := by simp [State.exitBlock, h]

@[simp] theorem dram_dropUnplaced (s : State) (ltag : Half) : (s.dropUnplaced ltag).dram = s.dram := rfl

@[simp] theorem dram_unlistBlock (s : State) (ltag : Half) (i : Nat) : (s.unlistBlock ltag i).dram = s.dram := rfl

@[simp] theorem dram_killLaunch (s : State) (ltag : Half) : (s.killLaunch ltag).dram = s.dram := by simp [State.killLaunch]

@[simp] theorem wf_killBlock (s : State) (b : Nat) (h : s.dram.wf = true) : (s.killBlock b).dram.wf = true := by
  unfold State.killBlock
  simp only [dram_setLaunch, dram_killLaunch, dram_runFault]
  refine wf_freeBlock _ _ _ ?_
  split <;> simp [h]

/-! ### The photonic plane's copies (Plane) -/

@[simp] theorem dram_stampAt (s : State) (c : Nat) (sender : DWord) : (s.stampAt c sender).dram = s.dram := by
  unfold State.stampAt
  split <;> rfl

/-! ### Accesses in flight (Access) -/

@[simp] theorem wf_recWrite (s : State) (c : Nat) (g : Gang) (va n v : Nat) (h : s.dram.wf = true) :
    (s.recWrite c g va n v).dram.wf = true := by
  unfold State.recWrite
  (repeat' split) <;> simp [h]

@[simp] theorem dram_keepWriter (s : State) (c : Nat) (g : Gang) (at_ : Nat) : (s.keepWriter c g at_).dram = s.dram := by
  unfold State.keepWriter
  split <;> rfl

@[simp] theorem wf_raceCheck (s : State) (c slot j : Nat) (a : Access) (h : s.dram.wf = true) :
    (s.raceCheck c slot j a).1.dram.wf = true := by
  unfold State.raceCheck
  simp only []
  split
  · exact h
  · split
    · exact h
    · rw [apply_ite (fun u : State => u.dram.wf)]
      split
      · refine wf_recWrite _ _ _ _ _ _ ?_
        split <;> simp [h]
      · split <;> simp [h]

@[simp] theorem wf_raceReport (s : State) (c slot j : Nat) (a : Access) (shadow : Nat) (mis : Bool) (h : s.dram.wf = true) :
    (s.raceReport c slot j a shadow mis).dram.wf = true := by simp [State.raceReport, h]

@[simp] theorem wf_raceLogged (s : State) (c slot j : Nat) (a : Access) (h : s.dram.wf = true) :
    (s.raceLogged c slot j a).dram.wf = true := by
  unfold State.raceLogged
  simp only []
  (repeat' split) <;> simp [h]

@[simp] theorem wf_raceTrapped (s : State) (c slot : Nat) (l : List (Nat × Access)) (h : s.dram.wf = true) :
    (s.raceTrapped c slot l).1.dram.wf = true := by
  unfold State.raceTrapped
  split
  · exact h
  · exact foldl_keeps (β := State × Mask) (fun r => r.1.dram.wf = true) (fun r p h => wf_raceCheck _ _ _ _ _ h) _ h

@[simp] theorem dram_watchRecord (s : State) (c : Nat) (g : Gang) (j va n : Nat) : (s.watchRecord c g j va n).dram = s.dram := by
  simp [State.watchRecord]

@[simp] theorem dram_watch (s : State) (c slot j : Nat) (spad : Bool) (a : Access) (va oldWord : Nat) (new : Option Nat) :
    (s.watch c slot j spad a va oldWord new).1.dram = s.dram := by
  unfold State.watch
  split
  · rfl
  · simp only []
    generalize (if a.noWatch then _ else _ : List (Nat × Nat)) = fired
    split
    · rfl
    · exact dram_foldl (fun t p => by split <;> simp) _ _

@[simp] theorem wf_perform (s : State) (c slot j : Nat) (t : Trans) (a : Access) (served : Bool) (h : s.dram.wf = true) :
    (s.perform c slot j t a served).1.dram.wf = true := by
  have hw (va w : Nat) (o : Option Nat) : (s.watch c slot j false a va w o).1.dram.wf = true := by simp [h]
  have hr (va w : Nat) (o : Option Nat) : ((s.watch c slot j false a va w o).1.raceLogged c slot j a).dram.wf = true := by simp [h]
  unfold State.perform
  simp only []
  split
  · exact h
  · split
    · exact h
    · refine iteInduction (motive := fun r : State × Except Nat Nat => r.1.dram.wf = true) (fun _ => hw _ _ _) fun _ => ?_
      split <;> simp [hr]

@[simp] theorem dram_performSpad (s : State) (c slot j p : Nat) (a : Access) : (s.performSpad c slot j p a).1.dram = s.dram := by
  unfold State.performSpad
  simp only []
  (repeat' split) <;> simp

@[simp] theorem dram_setPend (s : State) (q : Pend) : (s.setPend q).dram = s.dram := rfl

@[simp] theorem dram_dropPend (s : State) (id : Nat) : (s.dropPend id).dram = s.dram := rfl

@[simp] theorem wf_performEngine (s : State) (p : Pend) (h : s.dram.wf = true) : (s.performEngine p).1.dram.wf = true := by
  unfold State.performEngine
  (repeat' split) <;> simp [h]

@[simp] theorem wf_performPend (s : State) (p : Pend) (served : Bool) (h : s.dram.wf = true) : (s.performPend p served).dram.wf = true := by
  unfold State.performPend
  simp only []
  split
  · simp only [dram_setPend]
    split <;> simp [h]
  · simp only [dram_setPend]
    split <;> simp [h]

@[simp] theorem dram_requestSb (s : State) (p : Pend) : (s.requestSb p).dram = s.dram := by
  unfold State.requestSb
  simp only []
  split
  · simp
  · split <;> simp

@[simp] theorem dram_request (s : State) (p : Pend) : (s.request p).dram = s.dram := by
  unfold State.request
  simp only []
  (repeat' split) <;> simp

@[simp] theorem wf_launchPend (s : State) (p : Pend) (h : s.dram.wf = true) : (s.launchPend p).dram.wf = true := by
  unfold State.launchPend
  simp only []
  split <;> simp [h]

/-! ### Conversions (Convert) -/

@[simp] theorem keeps_execVcvt (f : Fields) (s : State) (h : s.dram.wf = true) : Keeps (execVcvt f s) := by simp [execVcvt, h]

@[simp] theorem keeps_execVcvtn (f : Fields) (s : State) (h : s.dram.wf = true) : Keeps (execVcvtn f s) := by simp [execVcvtn, h]

@[simp] theorem keeps_execVcvtw (f : Fields) (s : State) (h : s.dram.wf = true) : Keeps (execVcvtw f s) := by simp [execVcvtw, h]

@[simp] theorem keeps_execVcbd (f : Fields) (s : State) (h : s.dram.wf = true) : Keeps (execVcbd f s) := by simp [execVcbd, h]

@[simp] theorem keeps_execVsetlfs (f : Fields) (s : State) (h : s.dram.wf = true) : Keeps (execVsetlfs f s) := by simp [execVsetlfs, h]

@[simp] theorem keeps_execVgetlfs (f : Fields) (s : State) (h : s.dram.wf = true) : Keeps (execVgetlfs f s) := by simp [execVgetlfs, h]

/-! ### Memory instructions (Memory) -/

@[simp] theorem wf_beginWalks (s : State) (vas : List Nat) (h : s.dram.wf = true) : (s.beginWalks vas).dram.wf = true := by
  simp +contextual [State.beginWalks, h]

@[simp] theorem wf_accessBegin (s : State) (scratch : Bool) (acc : Nat → Access) (ex : Mask) (h : s.dram.wf = true) :
    (s.accessBegin scratch acc ex).dram.wf = true := by
  unfold State.accessBegin
  split <;> simp [h]

@[simp] theorem wf_performLanes (s : State) (chk : Nat → Except Nat Aim) (acc : Nat → Access) (fly : Bool) (pend : Nat → Trans → Pend)
    (ex : Mask) (h : s.dram.wf = true) :
    (s.performLanes chk acc fly pend ex).1.dram.wf = true := by
  refine foldl_keeps (β := State × SMap Nat × Causes × Mask) (fun r => r.1.dram.wf = true) (fun r j h => ?_) _ h
  simp only []
  split
  · exact h
  · split <;> next e => exact wf_of_eq e (by simp [h])
  · split
    · simp [h]
    · split <;> next e => exact wf_of_eq e (by simp [h])

@[simp] theorem keeps_elementAccess (s : State) (i : Instr) (f : Fields) (want : Want) (ret : Bool) (reads : List Nat)
    (acc : OpSpec → State → Nat → Access) (h : s.dram.wf = true) :
    Keeps (s.elementAccess i f want ret reads acc) := by
  refine keeps_run _ _ _ h fun sp t ex z ht => ?_
  simp [ht]

@[simp] theorem wf_fmtLane (s : State) (f : Fields) (want : Want) (j : Nat) (acc : Access) (ps : List (Nat × Nat × Nat))
    (h : s.dram.wf = true) :
    (s.fmtLane f want j acc ps).1.dram.wf = true := by
  induction ps generalizing s with
  | nil => exact h
  | cons p l ih =>
    unfold State.fmtLane
    simp only []
    split
    · exact h
    · split
      · next e =>
        rw [← show _ = _ from congrArg Prod.fst e]
        refine ih _ ?_
        split <;> simp [h]
      · exact h

@[simp] theorem dram_freshUnits (s : State) (l : List (List Nat)) : (s.freshUnits l).dram = s.dram := by simp [State.freshUnits]

@[simp] theorem dram_tieUnits (s : State) (l : List (List Nat)) : (s.tieUnits l).dram = s.dram := by simp [State.tieUnits]

@[simp] theorem wf_fmtRun (s : State) (sp : OpSpec) (f : Fields) (want : Want) (sl : Slot) (acc : Access) (ex : Mask)
    (vals : Nat → List Nat) (h : s.dram.wf = true) :
    (s.fmtRun sp f want sl acc ex vals).1.dram.wf = true := by
  unfold State.fmtRun
  simp only []
  refine foldl_keeps (β := State × SMap (List Nat) × Causes) (fun r => r.1.dram.wf = true) (fun r j h => ?_) _ ?_
  · split
    · exact h
    · split
      · next e => 
        rw [← show _ = _ from congrArg Prod.fst e]
        refine wf_fmtLane _ _ _ _ _ _ ?_
        split <;> simp [h]
      · next e => 
        rw [← show _ = _ from congrArg Prod.fst e]
        refine wf_fmtLane _ _ _ _ _ _ ?_
        split <;> simp [h]
  · split <;> simp [h]

@[simp] theorem keeps_fmtLoad (s : State) (i : Instr) (f : Fields) (h : s.dram.wf = true) : Keeps (s.fmtLoad i f) := by
  refine keeps_run _ _ _ h fun sp t ex z ht => ?_
  simp [ht]

@[simp] theorem keeps_fmtStore (s : State) (i : Instr) (f : Fields) (h : s.dram.wf = true) : Keeps (s.fmtStore i f) := by
  refine keeps_run _ _ _ h fun sp t ex z ht => ?_
  simp [ht]

@[simp] theorem keeps_execLd (f : Fields) (s : State) (h : s.dram.wf = true) : Keeps (execLd f s) := by simp [execLd, h]

@[simp] theorem keeps_execSt (f : Fields) (s : State) (h : s.dram.wf = true) : Keeps (execSt f s) := by simp [execSt, h]

@[simp] theorem keeps_execAtom (f : Fields) (s : State) (h : s.dram.wf = true) : Keeps (execAtom f s) := by simp [execAtom, h]

@[simp] theorem keeps_execCas (f : Fields) (s : State) (h : s.dram.wf = true) : Keeps (execCas f s) := by simp [execCas, h]

@[simp] theorem dram_feGot (s : State) (c slot lane : Nat) (v : Word) : (s.feGot c slot lane v).dram = s.dram := rfl

@[simp] theorem dram_feTrap (s : State) (c slot lane va : Nat) : (s.feTrap c slot lane va).dram = s.dram := by
  unfold State.feTrap
  simp only []
  split
  · rfl
  · split <;> simp

@[simp] theorem dram_feStore (s : State) (c : Nat) (w : FeWaiter) : (s.feStore c w).dram = s.dram := by simp [State.feStore]

@[simp] theorem dram_feServe (c gr n : Nat) (s : State) : (State.feServe c gr n s).dram = s.dram := by
  induction n generalizing s with
  | zero => rfl
  | succ n ih =>
    unfold State.feServe
    simp only []
    split
    · rfl
    · split <;> simp [ih]

@[simp] theorem wf_feResult (s : State) (f : Fields) (w : Wait) (h : s.dram.wf = true) : (s.feResult f w).dram.wf = true := by
  simp [State.feResult, h]

@[simp] theorem dram_focusWait (s : State) (c slot : Nat) (w : Wait) : (s.focusWait c slot w).dram = s.dram := rfl

@[simp] theorem dram_endWait (s : State) (c slot : Nat) (w : Wait) : (s.endWait c slot w).dram = s.dram := rfl

@[simp] theorem wf_feSettle (s : State) (c slot : Nat) (h : s.dram.wf = true) : (s.feSettle c slot).dram.wf = true := by
  refine wf_foldl (fun s w h => ?_) _ h
  split
  · split <;> simp [h]
  · exact h

@[simp] theorem wf_feSettleAll (s : State) (c : Nat) (h : s.dram.wf = true) : (s.feSettleAll c).dram.wf = true := by
  simp +contextual [State.feSettleAll, h]

@[simp] theorem wf_granTurned (s : State) (c gr : Nat) (h : s.dram.wf = true) : (s.granTurned c gr).dram.wf = true := by
  simp [State.granTurned, h]

@[simp] theorem keeps_fullEmpty (s : State) (i : Instr) (f : Fields) (ldfe : Bool) (reads : List Nat)
    (bound : OpSpec → State → Nat → Option Nat) (data : OpSpec → State → Nat → Nat) (h : s.dram.wf = true) :
    Keeps (s.fullEmpty i f ldfe reads bound data) := by
  refine keeps_run _ _ _ h fun sp t ex z ht => ?_
  simp only [keeps_next]
  refine wf_feSettleAll _ _ (wf_foldl (fun u j hu => ?_) _ ?_)
  · split
    · (repeat' split) <;> simp [hu]
    · exact hu
  · simp [ht]

@[simp] theorem keeps_execLdfe (f : Fields) (s : State) (h : s.dram.wf = true) : Keeps (execLdfe f s) := by simp [execLdfe, h]

@[simp] theorem keeps_execStfe (f : Fields) (s : State) (h : s.dram.wf = true) : Keeps (execStfe f s) := by simp [execStfe, h]

@[simp] theorem dram_sendStore (s : State) (c : Nat) (l : Half) (rc off : Nat) (data : List Byte) (near : Bool) :
    (s.sendStore c l rc off data near).1.dram = s.dram := by
  unfold State.sendStore
  split <;> simp

@[simp] theorem keeps_execStbw (f : Fields) (s : State) (h : s.dram.wf = true) : Keeps (execStbw f s) := by
  unfold execStbw
  refine keeps_run _ _ _ h fun sp t ex z ht => ?_
  split
  · simp only [keeps_next, dram_finish]
    rw [dram_foldl fun u j => by rfl]
    simp [ht]
  · simp [ht]

@[simp] theorem keeps_rangeEnd (s s0 : State) (i : Instr) (sp : OpSpec) (f : Fields) (ex : Mask) (bad : Option Nat)
    (h : s.dram.wf = true) : Keeps (s.rangeEnd s0 i sp f ex bad) := by
  unfold State.rangeEnd
  split <;> simp [h]

@[simp] theorem wf_backL1 (s : State) (p : Nat → Bool) (h : s.dram.wf = true) : (s.backL1 p).dram.wf = true := by
  simp +contextual [State.backL1, h]

@[simp] theorem wf_backL2 (s : State) (p : Nat → Bool) (order : Nat) (h : s.dram.wf = true) : (s.backL2 p order).dram.wf = true := by
  simp +contextual [State.backL2, h]

@[simp] theorem keeps_execRwb (f : Fields) (s : State) (h : s.dram.wf = true) : Keeps (execRwb f s) := by
  unfold execRwb
  refine keeps_run _ _ _ h fun sp t ex z ht => ?_
  have hb : (t.beginWalks (pageVas (t.sa sp f) (t.sb sp f))).dram.wf = true := wf_beginWalks _ _ ht
  simp only []
  split
  · simp [hb]
  · exact keeps_rangeEnd _ _ _ _ _ _ _ (by simp [hb])

@[simp] theorem keeps_execRinv (f : Fields) (s : State) (h : s.dram.wf = true) : Keeps (execRinv f s) := by
  unfold execRinv
  refine keeps_run _ _ _ h fun sp t ex z ht => ?_
  have hb : (t.beginWalks (pageVas (t.sa sp f) (t.sb sp f))).dram.wf = true := wf_beginWalks _ _ ht
  simp only []
  split
  · simp [hb]
  · exact keeps_rangeEnd _ _ _ _ _ _ _ (by simp [hb])

@[simp] theorem keeps_execPrf (f : Fields) (s : State) (h : s.dram.wf = true) : Keeps (execPrf f s) := by
  unfold execPrf
  refine keeps_run _ _ _ h fun sp t ex z ht => ?_
  simp only [keeps_next, dram_finish]
  refine wf_foldl (fun u j hu => ?_) _ ht
  (repeat' split) <;> simp [hu]

@[simp] theorem keeps_execLkl (f : Fields) (s : State) (h : s.dram.wf = true) : Keeps (execLkl f s) := by
  unfold execLkl
  refine keeps_run _ _ _ h fun sp t ex z ht => ?_
  have hb : (t.beginWalks (pageVas (t.sa sp f) (t.sb sp f))).dram.wf = true := wf_beginWalks _ _ ht
  refine iteInduction (motive := Keeps) (fun _ => keeps_rangeEnd _ _ _ _ _ _ _ hb) (fun _ => ?_)
  simp only [keeps_next, dram_finish, dram_wrS]
  refine iteInduction (motive := fun u : State => u.dram.wf = true) (fun _ => hb) (fun _ => ?_)
  refine wf_foldl (fun u la hu => ?_) _ (by simpa using hb)
  split <;> simp [hu]

@[simp] theorem keeps_execUlkl (f : Fields) (s : State) (h : s.dram.wf = true) : Keeps (execUlkl f s) := by
  unfold execUlkl
  refine keeps_run _ _ _ h fun sp t ex z ht => ?_
  simp [ht]

@[simp] theorem dram_markFence (s : State) (ex : Mask) (scope : Nat) : (s.markFence ex scope).dram = s.dram := rfl

@[simp] theorem keeps_execFence (f : Fields) (s : State) (h : s.dram.wf = true) : Keeps (execFence f s) := by simp [execFence, h]

@[simp] theorem dram_barEnter (s : State) (b : BarAt) : (s.barEnter b).dram = s.dram := by
  unfold State.barEnter
  split <;> rfl

@[simp] theorem wf_barBegin (s : State) (sp : OpSpec) (f : Fields) (h : s.dram.wf = true) : (s.barBegin sp f).dram.wf = true := by
  simp [State.barBegin, h]

@[simp] theorem keeps_barTrap (s s0 : State) (i : Instr) (sp : OpSpec) (f : Fields) (ex : Mask) (e : Nat) (h : s.dram.wf = true) :
    Keeps (s.barTrap s0 i sp f ex e) := by simp [State.barTrap, h]

@[simp] theorem keeps_execBarinit (f : Fields) (s : State) (h : s.dram.wf = true) : Keeps (execBarinit f s) := by
  unfold execBarinit
  refine keeps_run _ _ _ h fun sp t ex z ht => ?_
  split
  · simp [ht]
  · have hb : (t.barBegin sp f).dram.wf = true := wf_barBegin _ _ _ ht
    simp only []
    split
    · simp [hb]
    · split <;> simp [hb]

@[simp] theorem dram_barComplete (s : State) (b : BarAt) : (s.barComplete b).dram = s.dram := rfl

@[simp] theorem keeps_execBararr (f : Fields) (s : State) (h : s.dram.wf = true) : Keeps (execBararr f s) := by
  unfold execBararr
  refine keeps_run _ _ _ h fun sp t ex z ht => ?_
  have hb : (t.barBegin sp f).dram.wf = true := wf_barBegin _ _ _ ht
  split
  · simp [ht]
  · simp only []
    split
    · simp [hb]
    · split
      · simp [hb]
      · split
        · simp [hb]
        · simp only [keeps_next, dram_finish, dram_wrS]
          rw [dram_ite, Memory.wf_ite]
          split
          · simp only [dram_barComplete]
            refine wf_barWrite _ _ _ _ ?_
            split <;> simp [hb]
          · refine wf_barWrite _ _ _ _ ?_
            split <;> simp [hb]

@[simp] theorem wf_barLook (s : State) (c : Nat) (e : BarEntry) (h : s.dram.wf = true) : (s.barLook c e).dram.wf = true := by
  simp [State.barLook, h]

@[simp] theorem keeps_execBarwait (f : Fields) (s : State) (h : s.dram.wf = true) : Keeps (execBarwait f s) := by
  unfold execBarwait
  refine keeps_run _ _ _ h fun sp t ex z ht => ?_
  split
  · simp [ht]
  · have hb : (t.barBegin sp f).dram.wf = true := wf_barBegin _ _ _ ht
    simp only []
    split
    · simp [hb]
    · split
      · simp [hb]
      · split <;> simp [hb]

/-! ### Edges (Edges) -/

@[simp] theorem wf_agWalk (s : State) (a : Agent) (va : Nat) (h : s.dram.wf = true) : (s.agWalk a va).dram.wf = true := by
  simp [State.agWalk, h]

theorem wf_agRead (s : State) (a : Agent) (va n : Nat) (h : s.dram.wf = true) : IfOk (fun t => t.1.dram.wf = true) (s.agRead a va n) := by
  exact IfOk.map _ (IfOk.always (fun t => by simp [h]) _)

theorem wf_agWrite (s : State) (a : Agent) (va n v : Nat) (h : s.dram.wf = true) : IfOk (fun t => t.dram.wf = true)
    (s.agWrite a va n v) := by
  exact IfOk.map _ (IfOk.always (fun t => by simp [h]) _)

theorem wf_agAtomic (s : State) (a : Agent) (va n : Nat) (f : Nat → Option Nat) (h : s.dram.wf = true) :
    IfOk (fun t => t.1.dram.wf = true) (s.agAtomic a va n f) := by
  unfold State.agAtomic
  simp only []
  split
  · trivial
  · split
    · trivial
    · refine iteInduction (motive := IfOk _) (fun _ => trivial) (fun _ => ?_)
      split <;> simp [h]

theorem wf_agReads (s : State) (a : Agent) (ps : List (Nat × Nat)) (h : s.dram.wf = true) :
    IfOk (fun t => t.1.dram.wf = true) (s.agReads a ps) := by
  induction ps generalizing s with
  | nil => exact h
  | cons p l ih =>
    unfold State.agReads
    split
    · trivial
    · next t v e =>
      have ht := (wf_agRead s a p.1 p.2 h).of_eq e
      split
      · trivial
      · next e => exact (ih t ht).of_eq e (P := fun r => r.1.dram.wf = true)

theorem wf_agWrites (s : State) (a : Agent) (ps : List (Nat × Nat)) (x : Nat) (h : s.dram.wf = true) :
    IfOk (fun t => t.dram.wf = true) (s.agWrites a ps x) := by
  induction ps generalizing s x with
  | nil => exact h
  | cons p l ih =>
    unfold State.agWrites
    split
    · trivial
    · next t e => exact ih t _ ((wf_agWrite _ _ _ _ _ h).of_eq e)

theorem dram_of_obtainImages (s : State) (b : Nat) : IfSome (fun t => t.dram = s.dram) (s.obtainImages b) := by
  unfold State.obtainImages
  split
  · rfl
  · simp only []
    split
    · trivial
    · simp

theorem wf_obtainImages (s : State) (b : Nat) (h : s.dram.wf = true) : IfSome (fun t => t.dram.wf = true) (s.obtainImages b) :=
  (dram_of_obtainImages s b).mono fun t e => by rw [e]; exact h

@[simp] theorem dram_stopAtHint (s : State) (c slot : Nat) (hint : Option DWord) : (s.stopAtHint c slot hint).dram = s.dram := by
  unfold State.stopAtHint
  split
  · rfl
  · next e => simpa using (dram_of_obtainImages _ _).of_eq e

@[simp] theorem dram_tokenSeen (s : State) (owner : Nat) (e : Edge) (root : Nat) : (s.tokenSeen owner e root).dram = s.dram := by
  unfold State.tokenSeen
  (repeat' split) <;> rfl

theorem wf_deliver (s : State) (a : Agent) (e : Edge) (payload : Nat) (h : s.dram.wf = true) :
    IfOk (IfSome fun t => t.dram.wf = true) (s.deliver a e payload) := by
  unfold State.deliver
  split
  · trivial
  · split
    · trivial
    · trivial
    · next t _ _ e =>
      have ht := (wf_agAtomic _ _ _ _ _ h).of_eq e
      split
      · trivial
      · next u n e =>
        have hu := (wf_agAtomic _ _ _ _ _ ht).of_eq e
        simp only []
        split
        · trivial
        · next v e =>
          have hv := (wf_agWrites _ _ _ _ hu).of_eq e
          split
          · next e _ => simpa using (wf_agWrite _ _ _ _ _ hv).of_eq e
          · trivial
          · trivial

theorem wf_freeSlot (s : State) (a : Agent) (e : Edge) (h : s.dram.wf = true) : IfOk (fun t => t.dram.wf = true) (s.freeSlot a e) := by
  unfold State.freeSlot
  split
  · trivial
  · split
    · trivial
    · simp only []
      split
      · trivial
      · split
        · trivial
        · next u e =>
          have hu := (wf_agWrite _ _ _ _ _ h).of_eq e
          split
          · trivial
          · next v e =>
            have hv := (wf_agWrite _ _ _ _ _ hu).of_eq e
            exact IfOk.map _ (wf_agAtomic _ _ _ _ _ hv)

/-! ### Chains (Chain) -/

@[simp] theorem wf_putLine (s : State) (c : Nat) (t : Trans) (v : Nat) (h : s.dram.wf = true) : (s.putLine c t v).dram.wf = true := by
  simp +contextual [State.putLine, h]

@[simp] theorem wf_append (s : State) (n kind rc body : Nat) (h : s.dram.wf = true) : (s.append n kind rc body).1.dram.wf = true := by
  unfold State.append
  split <;> simp [h]

@[simp] theorem keeps_engineIssue {s : State} (i : Instr) (f : Fields) (n kind : Nat) (plan : OpSpec → Plan)
    (body : OpSpec → State → Mask → Nat) {more : State → Mask → DWord → Nat → State} (h : s.dram.wf = true)
    (hm : ∀ t ex q e, (more t ex q e).dram = t.dram) : Keeps (s.engineIssue i f n kind plan body more) := by
  refine keeps_run _ _ _ h fun sp t ex z ht => ?_
  split
  · simp [ht]
  · simp [hm, ht]

/-! ### Matrix operations (Matrix) -/

@[simp] theorem keeps_matrixOp (s : State) (i : Instr) (f : Fields) (mode : Nat) (h : s.dram.wf = true) : Keeps (s.matrixOp i f mode) := by
  unfold State.matrixOp
  refine keeps_engineIssue _ _ _ _ _ _ h fun t ex q e => ?_
  simp only [dram_ite, dram_modCore, dram_modMe, ite_self]

@[simp] theorem keeps_execMma (f : Fields) (s : State) (h : s.dram.wf = true) : Keeps (execMma f s) := by simp [execMma, h]

@[simp] theorem keeps_execMhad (f : Fields) (s : State) (h : s.dram.wf = true) : Keeps (execMhad f s) := by simp [execMhad, h]

@[simp] theorem keeps_execMpass (f : Fields) (s : State) (h : s.dram.wf = true) : Keeps (execMpass f s) := by simp [execMpass, h]

@[simp] theorem dram_amThrough (s : State) (c slot ctx : Nat) (seq : DWord) : (s.amThrough c slot ctx seq).dram = s.dram := by
  simp [State.amThrough]

@[simp] theorem dram_runOctet (s : State) (c : Nat) (q : OctOp) : (s.runOctet c q).dram = s.dram := by
  unfold State.runOctet
  split <;> rfl

@[simp] theorem keeps_execMatrixPass (core : Nat) (s : State) (h : s.dram.wf = true) : Keeps (execMatrixPass core s) := by
  simp [execMatrixPass, h]

@[simp] theorem keeps_tileLoad (s : State) (i : Instr) (f : Fields) (high : Nat) (at_ : Nat → Nat → Nat → Nat × Nat)
    (h : s.dram.wf = true) :
    Keeps (s.tileLoad i f high at_) := by simp [State.tileLoad, h]

@[simp] theorem keeps_execAmld (f : Fields) (s : State) (h : s.dram.wf = true) : Keeps (execAmld f s) := by simp [execAmld, h]

@[simp] theorem keeps_execAmtr (f : Fields) (s : State) (h : s.dram.wf = true) : Keeps (execAmtr f s) := by simp [execAmtr, h]

@[simp] theorem keeps_execAmst (f : Fields) (s : State) (h : s.dram.wf = true) : Keeps (execAmst f s) := by simp [execAmst, h]

@[simp] theorem keeps_execAmclr (f : Fields) (s : State) (h : s.dram.wf = true) : Keeps (execAmclr f s) := by simp [execAmclr, h]

/-! ### Engines (Engines) -/

theorem ifOk_engErr {α : Type} {P : α → Prop} {x : Except Nat α} (h : IfOk P x) : IfOk P (engErr x) := by
  cases x
  · trivial
  · exact h

theorem wf_spaceRead (s : State) (v : EngineAt) (sp a n : Nat) (h : s.dram.wf = true) :
    IfOk (fun t => t.1.dram.wf = true) (s.spaceRead v sp a n) := by
  unfold State.spaceRead
  split
  · exact ifOk_engErr (wf_agReads _ _ _ h)
  · split <;> simp [h]
  · simp only []
    split <;> simp [h]
  · trivial

theorem wf_spaceWrite (s : State) (v : EngineAt) (sp a n val : Nat) (h : s.dram.wf = true) :
    IfOk (fun t => t.dram.wf = true) (s.spaceWrite v sp a n val) := by
  unfold State.spaceWrite
  split
  · exact ifOk_engErr (wf_agWrites _ _ _ _ h)
  · split <;> simp [h]
  · split <;> simp [h]
  · simp only []
    split <;> simp [h]
  · trivial

theorem wf_spaceReads (s : State) (v : EngineAt) (sp : Nat) (ps : List (Nat × Nat)) (h : s.dram.wf = true) :
    IfOk (fun t => t.1.dram.wf = true) (s.spaceReads v sp ps) := by
  induction ps generalizing s with
  | nil => exact h
  | cons p l ih =>
    unfold State.spaceReads
    split
    · trivial
    · next t x e =>
      have ht := (wf_spaceRead s v sp p.1 p.2 h).of_eq e
      split
      · trivial
      · next e =>
        have hu := (ih t ht).of_eq e
        exact hu

theorem wf_spaceWrites (s : State) (v : EngineAt) (sp : Nat) (ps : List (Nat × Nat)) (x : Nat) (h : s.dram.wf = true) :
    IfOk (fun t => t.dram.wf = true) (s.spaceWrites v sp ps x) := by
  induction ps generalizing s x with
  | nil => exact h
  | cons p l ih =>
    unfold State.spaceWrites
    split
    · trivial
    · next t e => exact ih t _ ((wf_spaceWrite _ _ _ _ _ _ h).of_eq e)

@[simp] theorem dram_modEngCtx (s : State) (v : EngineAt) (f : ECtx → ECtx) : (s.modEngCtx v f).dram = s.dram := by
  unfold State.modEngCtx
  split <;> rfl

theorem wf_readRow (s : State) (v : EngineAt) (e : Nat) (src : Side) (h : s.dram.wf = true) :
    IfOk (fun t => t.1.dram.wf = true) (s.readRow v e src) := by
  unfold State.readRow
  split
  · trivial
  · next t x e => exact IfOk.map _ (wf_spaceReads _ _ _ _ ((wf_spaceReads s v _ _ h).of_eq e))

@[simp] theorem dram_freshL2 (s : State) (k : Nat) (l : List (List Nat)) : (s.freshL2 k l).dram = s.dram := by
  unfold State.freshL2
  refine dram_foldl (fun t u => ?_) l s
  split
  · rfl
  · exact dram_foldl (fun t la => dram_setL2 t k la _) u t

theorem wf_copyRow (s : State) (v : EngineAt) (e : Nat) (sl : Slot) (dims : List Dim) (row : Nat) (h : s.dram.wf = true) :
    IfOk (fun t => t.dram.wf = true) (s.copyRow v e sl dims row) := by
  have hr : IfOk (fun t : State × Nat × Nat => t.1.dram.wf = true) ((s.freshL2 (clusterOf v.agent.core)
      (s.sideLines v (cpSsp e) sl (copySides sl e dims row).1)).readRow v e (copySides sl e dims row).1) := wf_readRow _ _ _ _ (by simpa using h)
  unfold State.copyRow
  simp only []
  split
  · trivial
  · next s2 x sc e2 =>
    have h2 : s2.dram.wf = true := by
      split at e2
      · cases e2; exact h
      · exact hr.of_eq e2
    split
    · trivial
    · next s3 e3 =>
      have h3 : s3.dram.wf = true := (wf_spaceWrites _ _ _ _ _ (by split <;> simp [h2])).of_eq e3
      exact IfOk.map _ (IfOk.mono (wf_spaceWrites _ _ _ _ _ h3) fun t ht => by simpa using ht)

@[simp] theorem wf_copyFills (s : State) (v : EngineAt) (e : Nat) (sl : Slot) (dims : List Dim) (row : Nat) (h : s.dram.wf = true) :
    (s.copyFills v e sl dims row).dram.wf = true := by
  unfold State.copyFills
  (repeat' split) <;> simp +contextual [h]

@[simp] theorem dram_rowDoneBy (s : State) (who : Engine) (v : EngineAt) (held : Option Held) : (s.rowDoneBy who v held).dram = s.dram := by
  unfold State.rowDoneBy
  split <;> simp

@[simp] theorem wf_entryStatus (s : State) (v : EngineAt) (st : Nat) (cause : Option Nat) (via : Nat) (h : s.dram.wf = true) :
    (s.entryStatus v st cause via).dram.wf = true := by
  unfold State.entryStatus
  simp only []
  (repeat' split) <;> simp [h]

theorem wf_freeFiring (s : State) (w : Nat) (f : Firing) (h : s.dram.wf = true) : IfSome (fun t => t.dram.wf = true)
    (s.freeFiring w f) := by
  unfold State.freeFiring
  split
  · split
    · next t e => simpa using (wf_freeSlot _ _ _ h).of_eq e
    · split <;> simp [h]
  · exact h

@[simp] theorem wf_endFaulted (s : State) (w : Nat) (f : Firing) (h : s.dram.wf = true) : (s.endFaulted w f).dram.wf = true := by
  unfold State.endFaulted
  split
  · next t e => simpa using (wf_freeFiring _ _ _ h).of_eq e
  · simpa using h

@[simp] theorem wf_faultFiring (s : State) (w node cause edge : Nat) (h : s.dram.wf = true) :
    (s.faultFiring w node cause edge).dram.wf = true := by
  unfold State.faultFiring
  simp only []
  (repeat' split) <;> simp [h]

@[simp] theorem dram_tlSettle (s : State) (c g : Nat) : (s.tlSettle c g).dram = s.dram :=
  dram_foldl (fun s w => by split <;> simp) _ _

@[simp] theorem dram_tlFaults (s : State) (c g n : Nat) : (s.tlFaults c g n).dram = s.dram := by
  refine dram_foldl (fun s w => ?_) _ _
  (repeat' split) <;> simp

@[simp] theorem dram_engineTrap (s : State) (c g n : Nat) : (s.engineTrap c g n).dram = s.dram := by simp [State.engineTrap]

@[simp] theorem wf_completeEntry (s : State) (who : Engine) (v : EngineAt) (next : Nat) (h : s.dram.wf = true) :
    (s.completeEntry who v next).dram.wf = true := by
  unfold State.completeEntry
  split <;> simp [h]

@[simp] theorem wf_faultEntry (s : State) (who : Engine) (v : EngineAt) (cause : Nat) (h : s.dram.wf = true) :
    (s.faultEntry who v cause).dram.wf = true := by
  unfold State.faultEntry
  split <;> simp [h]

@[simp] theorem keeps_execCollectiveMatch (core slot : Nat) (s : State) (h : s.dram.wf = true) : Keeps
    (execCollectiveMatch core slot s) := by
  unfold execCollectiveMatch
  split
  · simpa using h
  · split
    · simpa using h
    · have hf (l : List ((Nat × Nat) × EngineAt)) :
          (l.foldl (fun s q => s.faultEntry (.gang q.1.1 q.1.2 6) q.2 eCollMismatch) s).dram.wf = true :=
        wf_foldl (fun s q h => wf_faultEntry _ _ _ _ h) l h
      simp only [keeps_ite, keeps_next, hf, wf_faultEntry _ _ _ _ h, h]
      rw [dram_foldl fun s q => dram_modEngCtx s _ _]
      rw [wf_foldl (fun u q hu => ?_) _ h]
      · simp
      · split
        · split
          · exact hu
          · split
            · next e => exact (wf_spaceWrite _ _ _ _ _ _ hu).of_eq e
            · exact hu
        · exact hu

theorem wf_edgePut (s : State) (who : Engine) (v : EngineAt) (e : Nat) (h : s.dram.wf = true) :
    IfOk (IfSome fun t => t.dram.wf = true) (s.edgePut who v e) := by
  unfold State.edgePut
  split
  · trivial
  · refine IfOk.map _ (IfOk.mono (ifOk_engErr (wf_deliver _ _ _ _ h)) fun r hr => ?_)
    exact IfSome.map _ (IfSome.mono hr fun t ht => by simp [ht])

@[simp] theorem keeps_execEngineRowWritten (who : Engine) (s : State) (h : s.dram.wf = true) : Keeps (execEngineRowWritten who s) := by
  unfold execEngineRowWritten
  split
  · simpa using h
  · split
    · simpa using h
    · split
      · simpa using h
      · split
        · simpa using h
        · split
          · simpa using h
          · split
            · simpa using h
            · next e => exact (keeps_next _).2 (wf_copyFills _ _ _ _ _ _ (by simpa using (wf_copyRow _ _ _ _ _ _ h).of_eq e))

@[simp] theorem keeps_execEngineEntryComplete (who : Engine) (s : State) (h : s.dram.wf = true) : Keeps
    (execEngineEntryComplete who s) := by
  unfold execEngineEntryComplete
  split
  · simpa using h
  · split
    · simpa using h
    · split
      · split
        · simpa using h
        · split <;> simp [h]
      · split
        · simpa using h
        · simp only []
          split
          · split <;> simp [h]
          · split
            · split <;> simp [h]
            · split
              · next t e =>
                have ht : IfSome (fun t => t.dram.wf = true) (some t) := (wf_edgePut _ _ _ _ h).of_eq e
                exact (keeps_next _).2 ht
              · simpa using h

@[simp] theorem wf_readAhead (s : State) (c g n num : Nat) (h : s.dram.wf = true) : (s.readAhead c g n num).dram.wf = true := by
  unfold State.readAhead
  simp only []
  split
  · exact h
  · split
    · exact h
    · split
      · exact h
      · split
        · exact h
        · next e =>
          rw [dram_modGang]
          exact (wf_readRow _ _ _ _ (by simpa using h)).of_eq e

@[simp] theorem keeps_execEngineEntryFault (who : Engine) (cause : BitVec 8) (s : State) (h : s.dram.wf = true) :
    Keeps (execEngineEntryFault who cause s) := by
  unfold execEngineEntryFault
  split <;> simp [h]

@[simp] theorem keeps_execMatrixSelfTest (core : Nat) (passed : Bool) (s : State) (h : s.dram.wf = true) :
    Keeps (execMatrixSelfTest core passed s) := by simp [execMatrixSelfTest, h]

@[simp] theorem dram_setRing (s : State) (c g n : Nat) (v : DWord) : (s.setRing c g n v).dram = s.dram := rfl

@[simp] theorem keeps_execChringWrite (core slot ctx : Nat) (s : State) (h : s.dram.wf = true) : Keeps
    (execChringWrite core slot ctx s) := by
  unfold execChringWrite
  simp only []
  (repeat' split) <;> simp [h]

@[simp] theorem dram_resumeCtx (s : State) (c g n : Nat) : (s.resumeCtx c g n).dram = s.dram := by simp [State.resumeCtx]

@[simp] theorem wf_abandonCtx (s : State) (c g n : Nat) (h : s.dram.wf = true) : (s.abandonCtx c g n).dram.wf = true := by
  simp +contextual [State.abandonCtx, h]

@[simp] theorem keeps_execEctlResume (core slot ctx : Nat) (s : State) (h : s.dram.wf = true) : Keeps (execEctlResume core slot ctx s) := by
  simp [execEctlResume, h]

@[simp] theorem keeps_execEctlAbandon (core slot ctx : Nat) (s : State) (h : s.dram.wf = true) : Keeps
    (execEctlAbandon core slot ctx s) := by
  simp [execEctlAbandon, h]

@[simp] theorem keeps_execCp (f : Fields) (s : State) (h : s.dram.wf = true) : Keeps (execCp f s) := by
  unfold execCp
  exact keeps_engineIssue _ _ _ _ _ _ h fun _ _ _ _ => rfl

@[simp] theorem keeps_collective (s : State) (i : Instr) (f : Fields) (kind : Nat) (h : s.dram.wf = true) : Keeps
    (s.collective i f kind) := by
  unfold State.collective
  refine keeps_engineIssue _ _ _ _ _ _ h fun t ex q e => ?_
  split
  · split <;> rfl
  · rfl

@[simp] theorem keeps_execBcast (f : Fields) (s : State) (h : s.dram.wf = true) : Keeps (execBcast f s) := by simp [execBcast, h]

@[simp] theorem keeps_execBcred (f : Fields) (s : State) (h : s.dram.wf = true) : Keeps (execBcred f s) := by simp [execBcred, h]

@[simp] theorem keeps_execBcall (f : Fields) (s : State) (h : s.dram.wf = true) : Keeps (execBcall f s) := by simp [execBcall, h]

@[simp] theorem keeps_execEput (f : Fields) (s : State) (h : s.dram.wf = true) : Keeps (execEput f s) := by
  exact keeps_engineIssue _ _ _ _ _ _ h fun _ _ _ _ => rfl

@[simp] theorem keeps_timeline (s : State) (i : Instr) (f : Fields) (ge : Bool) (range : ECtx → Nat → Bool) (h : s.dram.wf = true) :
    Keeps (s.timeline i f ge range) := by simp +contextual [State.timeline, h]

@[simp] theorem keeps_execTlwaitGe (f : Fields) (s : State) (h : s.dram.wf = true) : Keeps (execTlwaitGe f s) := by simp [execTlwaitGe, h]

@[simp] theorem keeps_execTlwaitLt (f : Fields) (s : State) (h : s.dram.wf = true) : Keeps (execTlwaitLt f s) := by simp [execTlwaitLt, h]

/-! ### Control flow (Control) -/

@[simp] theorem dram_park (s : State) (taken : Mask) (any : Bool) : (s.park taken any).dram = s.dram := by simp [State.park]

@[simp] theorem dram_exitLanes (s : State) (taken : Mask) : (s.exitLanes taken).dram = s.dram := by simp [State.exitLanes]

@[simp] theorem wf_returnItems (s : State) (taken : Mask) (h : s.dram.wf = true) : (s.returnItems taken).dram.wf = true := by
  simp [State.returnItems, h]

@[simp] theorem wf_endBody (s : State) (i : Instr) (f : Fields) (h : s.dram.wf = true) : (s.endBody i f).dram.wf = true := by
  simp [State.endBody, h]

@[simp] theorem wf_endHandler (s : State) (h : s.dram.wf = true) : (s.endHandler).dram.wf = true := by
  unfold State.endHandler
  simp only []
  split
  · split <;> simp [h]
  · simp [h]

@[simp] theorem wf_endLanes (s : State) (i : Instr) (f : Fields) (taken : Mask) (h : s.dram.wf = true) :
    (s.endLanes i f taken).dram.wf = true := by
  unfold State.endLanes
  simp only []
  (repeat' split) <;> simp [h]

@[simp] theorem keeps_execBr (f : Fields) (s : State) (h : s.dram.wf = true) : Keeps (execBr f s) := by simp [execBr, h]

@[simp] theorem keeps_execBrs (f : Fields) (s : State) (h : s.dram.wf = true) : Keeps (execBrs f s) := by simp [execBrs, h]

@[simp] theorem keeps_execJmpi (f : Fields) (s : State) (h : s.dram.wf = true) : Keeps (execJmpi f s) := by simp [execJmpi, h]

@[simp] theorem keeps_execCall (f : Fields) (s : State) (h : s.dram.wf = true) : Keeps (execCall f s) := by simp [execCall, h]

@[simp] theorem keeps_execCalli (f : Fields) (s : State) (h : s.dram.wf = true) : Keeps (execCalli f s) := by simp [execCalli, h]

@[simp] theorem keeps_execRet (f : Fields) (s : State) (h : s.dram.wf = true) : Keeps (execRet f s) := by simp [execRet, h]

@[simp] theorem keeps_execLoop (f : Fields) (s : State) (h : s.dram.wf = true) : Keeps (execLoop f s) := by simp [execLoop, h]

@[simp] theorem keeps_execRegang (f : Fields) (s : State) (h : s.dram.wf = true) : Keeps (execRegang f s) := by simp [execRegang, h]

@[simp] theorem keeps_execRegangAny (f : Fields) (s : State) (h : s.dram.wf = true) : Keeps (execRegangAny f s) := by
  simp [execRegangAny, h]

@[simp] theorem keeps_execExit (f : Fields) (s : State) (h : s.dram.wf = true) : Keeps (execExit f s) := by simp +contextual [execExit, h]

/-! ### Host events (Host) -/

@[simp] theorem dram_hostSnoop (s : State) (sb : Nat) (writes : Bool) : (s.hostSnoop sb writes).dram = s.dram := by simp [State.hostSnoop]

@[simp] theorem dram_hostLoad (s : State) (off n : Nat) : (s.hostLoad off n).1.dram = s.dram := by simp [State.hostLoad]

@[simp] theorem wf_hostStore (s : State) (off : Nat) (data : List Byte) (h : s.dram.wf = true) : (s.hostStore off data).dram.wf = true := by
  unfold State.hostStore
  have hf : ((sbsOf (s.hostPas off data.length)).foldl (fun s b => s.hostSnoop b true) s).dram.wf = true :=
    (congrArg Memory.wf (dram_foldl (fun s b => dram_hostSnoop s b true) _ s)).trans h
  simp only [dram_ite, dram_flag, ite_self]
  refine foldl_keeps (fun m : Memory => m.wf = true) (fun m p hm => ?_) _ hf
  split
  · exact Memory.wf_write _ _ _ hm
  · exact hm

@[simp] theorem dram_countDelay (s : State) (key : Nat) : (s.countDelay key).dram = s.dram := by
  unfold State.countDelay
  split <;> rfl

@[simp] theorem keeps_execHostMemoryRead (off n : Nat) (s : State) (h : s.dram.wf = true) : Keeps (execHostMemoryRead off n s) := by
  unfold execHostMemoryRead
  simp only []
  (repeat' split) <;> simp [h]

@[simp] theorem keeps_execHostMemoryWrite (off : Nat) (data : List Byte) (s : State) (h : s.dram.wf = true) :
    Keeps (execHostMemoryWrite off data s) := by
  unfold execHostMemoryWrite
  split <;> simp [h]

@[simp] theorem dram_plainWrite (s : State) (key : Nat) (r : HostReg) (v : DWord) : (s.plainWrite key r v).dram = s.dram := by
  unfold State.plainWrite
  (repeat' split) <;> rfl

@[simp] theorem keeps_execRegisterWrite (off size : Nat) (v : DWord) (s : State) (h : s.dram.wf = true) :
    Keeps (execRegisterWrite off size v s) := by
  unfold execRegisterWrite
  (repeat' split) <;> simp [h]

theorem wf_claimEdges (s : State) (w : Nat) (es : List (Edge × Nat)) (h : s.dram.wf = true) :
    IfOk (fun t => t.dram.wf = true) (s.claimEdges w es) := by
  induction es generalizing s with
  | nil => exact h
  | cons p l ih =>
    unfold State.claimEdges
    split
    · trivial
    · next t v e =>
      split
      · exact ih _ ((wf_agAtomic _ _ _ _ _ h).of_eq e)
      · trivial

theorem wf_openRun (s : State) (w : Nat) (r : Run) (h : s.dram.wf = true) : IfOk (fun t => t.dram.wf = true) (s.openRun w r) := by
  unfold State.openRun
  split
  · trivial
  · split
    · trivial
    · split
      · trivial
      · split
        · trivial
        · exact IfOk.map _ (wf_claimEdges _ _ _ h)

@[simp] theorem wf_startRun (s : State) (w : Nat) (v : DWord) (h : s.dram.wf = true) : (s.startRun w v).dram.wf = true := by
  unfold State.startRun
  simp only []
  split
  · next u e => exact (wf_openRun _ _ _ (by simpa using h)).of_eq e
  · split
    · exact h
    · simp [h]

@[simp] theorem keeps_execWalkerStart (w : Nat) (v : DWord) (s : State) (h : s.dram.wf = true) : Keeps (execWalkerStart w v s) := by
  unfold execWalkerStart
  (repeat' split) <;> simp [h]

@[simp] theorem wf_settleFaults (s : State) (h : s.dram.wf = true) : (s.settleFaults).dram.wf = true := by
  simp +contextual [State.settleFaults, h]

@[simp] theorem keeps_execCqHeadWrite (v : DWord) (s : State) (h : s.dram.wf = true) : Keeps (execCqHeadWrite v s) := by
  simp [execCqHeadWrite, h]

@[simp] theorem keeps_execTlbInvalidate (v : DWord) (s : State) (h : s.dram.wf = true) : Keeps (execTlbInvalidate v s) := by
  simp [execTlbInvalidate, h]

@[simp] theorem dram_dropCode (s : State) (p : Nat → Bool) : (s.dropCode p).dram = s.dram := rfl

@[simp] theorem keeps_execTlbInvalidateComplete (s : State) (h : s.dram.wf = true) : Keeps (execTlbInvalidateComplete s) := by
  unfold execTlbInvalidateComplete
  split <;> simp [h]

@[simp] theorem wf_killAll (s : State) (l : Nat) (h : s.dram.wf = true) : (s.killAll l).dram.wf = true := by
  simp +contextual [State.killAll, h]

@[simp] theorem keeps_execRunkill (v : DWord) (s : State) (h : s.dram.wf = true) : Keeps (execRunkill v s) := by
  unfold execRunkill
  simp only []
  split
  · simpa using h
  · simp only [keeps_next]
    exact wf_settleFault _ _ (by
      rw [dram_modRun]
      exact wf_foldl (fun s l h => wf_killAll s l h) _ (by simpa using h))

@[simp] theorem keeps_execMonitorDoorbell (n : Nat) (v : DWord) (s : State) (h : s.dram.wf = true) : Keeps (execMonitorDoorbell n v s) := by
  simp [execMonitorDoorbell, h]

@[simp] theorem keeps_execHandlerRestart (n : Nat) (v : DWord) (s : State) (h : s.dram.wf = true) : Keeps (execHandlerRestart n v s) := by
  simp [execHandlerRestart, h]

@[simp] theorem keeps_execDefectMapWrite (v : DWord) (checked : Bool) (s : State) (h : s.dram.wf = true) :
    Keeps (execDefectMapWrite v checked s) := by simp [execDefectMapWrite, h]

@[simp] theorem keeps_execTableLoad (v : DWord) (s : State) (h : s.dram.wf = true) : Keeps (execTableLoad v s) := by simp [execTableLoad, h]

@[simp] theorem dram_openMessage (s : State) (kind : BitVec 8) (src : Nat) : (s.openMessage kind src).dram = s.dram := by
  simp [State.openMessage]

@[simp] theorem dram_linkMessage (s : State) (cluster : Nat) : (s.linkMessage cluster).dram = s.dram := by simp [State.linkMessage]

@[simp] theorem dram_darkMessage (s : State) : (s.darkMessage).dram = s.dram := by simp [State.darkMessage]

@[simp] theorem dram_enterRunning (s : State) : (s.enterRunning).dram = s.dram := by
  unfold State.enterRunning
  simp only []
  rw [dram_dropCode, dram_foldl fun s c => dram_setGang s c _ _]

@[simp] theorem dram_mgmtWrite (s : State) (v : DWord) (dark : List (Nat × Nat)) : (s.mgmtWrite v dark).dram = s.dram := by
  simp [State.mgmtWrite]

@[simp] theorem keeps_execPhaseTables (v : DWord) (s : State) (h : s.dram.wf = true) : Keeps (execPhaseTables v s) := by
  simp [execPhaseTables, h]

@[simp] theorem keeps_execPhasePlane (v : DWord) (dark : List (Nat × Nat)) (s : State) (h : s.dram.wf = true) :
    Keeps (execPhasePlane v dark s) := by simp [execPhasePlane, h]

@[simp] theorem keeps_execPhaseRunning (v : DWord) (s : State) (h : s.dram.wf = true) : Keeps (execPhaseRunning v s) := by
  simp [execPhaseRunning, h]

@[simp] theorem keeps_execMgmtStatFlagClear (v : DWord) (s : State) (h : s.dram.wf = true) : Keeps (execMgmtStatFlagClear v s) := by
  simp [execMgmtStatFlagClear, h]

theorem dram_of_hostBeacon (s : State) (k : BeaconKind) : IfSome (fun t => t.dram = s.dram) (s.hostBeacon k) := by
  unfold State.hostBeacon
  split
  · trivial
  · split <;> simp

theorem wf_hostBeacon (s : State) (k : BeaconKind) (h : s.dram.wf = true) : IfSome (fun t => t.dram.wf = true) (s.hostBeacon k) :=
  (dram_of_hostBeacon s k).mono fun t e => by rw [e]; exact h

@[simp] theorem wf_copySlice (s : State) (old new : Nat) (h : s.dram.wf = true) : (s.copySlice old new).dram.wf = true := by
  unfold State.copySlice
  exact foldl_keeps (fun m : Memory => m.wf = true) (fun m p hm => Memory.wf_write _ _ _ hm) _ (Memory.wf_clear _ _ _ h)

@[simp] theorem dram_countAnew (s : State) (core : Nat) (e : Word) : (s.countAnew core e).dram = s.dram := by simp [State.countAnew]

@[simp] theorem keeps_execTableUpdate (v : DWord) (s : State) (h : s.dram.wf = true) : Keeps (execTableUpdate v s) := by
  unfold execTableUpdate
  simp only []
  split
  · simpa using h
  · split
    · simpa using h
    · split
      · simpa using h
      · next t e => simpa using (wf_hostBeacon _ _ h).of_eq e

@[simp] theorem keeps_execGroupBind (v : DWord) (s : State) (h : s.dram.wf = true) : Keeps (execGroupBind v s) := by
  unfold execGroupBind
  simp only []
  split
  · simpa using h
  · split
    · simpa using h
    · next t e => simpa using (wf_hostBeacon _ _ h).of_eq e

@[simp] theorem dram_hostHalt (s : State) (on : Bool) : (s.hostHalt on).dram = s.dram := by
  unfold State.hostHalt
  split
  · simp
  · next e =>
    have ht := (dram_of_hostBeacon _ _).of_eq e
    split <;> simp [ht]

@[simp] theorem keeps_execHostHalt (s : State) (h : s.dram.wf = true) : Keeps (execHostHalt s) := by simp [execHostHalt, h]

@[simp] theorem keeps_execHostResume (s : State) (h : s.dram.wf = true) : Keeps (execHostResume s) := by simp [execHostResume, h]

@[simp] theorem keeps_execCoreHold (v : DWord) (s : State) (h : s.dram.wf = true) : Keeps (execCoreHold v s) := by simp [execCoreHold, h]

@[simp] theorem dram_askSave (s : State) (b : Nat) : (s.askSave b).dram = s.dram := by
  unfold State.askSave
  split
  · rfl
  · rw [dram_foldl fun s p => dram_modGang s _ _ _, dram_modBlock]

@[simp] theorem wf_forceSave (s : State) (b : Nat) (h : s.dram.wf = true) : (s.forceSave b).dram.wf = true := by
  unfold State.forceSave
  split
  · simp [h]
  · next t e =>
    have ht := (wf_obtainImages _ _ h).of_eq e
    exact wf_foldl (fun s p hs => by simpa using hs) _ (by simpa using ht)

@[simp] theorem keeps_execCoreHoldPreempt (v : DWord) (s : State) (h : s.dram.wf = true) : Keeps (execCoreHoldPreempt v s) := by
  simp [execCoreHoldPreempt, h]

@[simp] theorem keeps_execCoreRelease (v : DWord) (s : State) (h : s.dram.wf = true) : Keeps (execCoreRelease v s) := by
  simp [execCoreRelease, h]

@[simp] theorem keeps_execHeldCoreDrained (core : Nat) (s : State) (h : s.dram.wf = true) : Keeps (execHeldCoreDrained core s) := by
  simp [execHeldCoreDrained, h]

@[simp] theorem keeps_execSliceCopy (v : DWord) (s : State) (h : s.dram.wf = true) : Keeps (execSliceCopy v s) := by
  unfold execSliceCopy
  split <;> simp [h]

@[simp] theorem keeps_execSliceCopyComplete (s : State) (h : s.dram.wf = true) : Keeps (execSliceCopyComplete s) := by
  unfold execSliceCopyComplete
  split <;> simp [h]

/-! ### Mesh events (Mesh) -/

@[simp] theorem dram_setPacket (s : State) (q : Packet) : (s.setPacket q).dram = s.dram := rfl

@[simp] theorem dram_dropPacket (s : State) (id : Nat) : (s.dropPacket id).dram = s.dram := rfl

@[simp] theorem dram_answerPost (s : State) (c slot : Nat) : (s.answerPost c slot).dram = s.dram := by simp [State.answerPost]

@[simp] theorem dram_handIn (s : State) (p : Packet) : (s.handIn p).dram = s.dram := by
  unfold State.handIn
  split <;> simp

@[simp] theorem keeps_execMeshPacketReceive (router dir : Nat) (plane : BitVec 2) (s : State) (h : s.dram.wf = true) :
    Keeps (execMeshPacketReceive router dir plane s) := by
  unfold execMeshPacketReceive
  (repeat' split) <;> simp [h]

@[simp] theorem keeps_execPacketAging (id : Nat) (s : State) (h : s.dram.wf = true) : Keeps (execPacketAging id s) := by
  unfold execPacketAging
  split <;> simp [h]

@[simp] theorem keeps_execLinkHeartbeatTimeout (router dir : Nat) (s : State) (h : s.dram.wf = true) :
    Keeps (execLinkHeartbeatTimeout router dir s) := by
  unfold execLinkHeartbeatTimeout
  split <;> simp [h]

@[simp] theorem dram_failPend (s : State) (id cause : Nat) : (s.failPend id cause).dram = s.dram := by
  unfold State.failPend
  split <;> rfl

@[simp] theorem dram_failStore (s : State) (id cause : Nat) : (s.failStore id cause).dram = s.dram := rfl

@[simp] theorem wf_failRequest (s : State) (msg : Nat) (h : s.dram.wf = true) : (s.failRequest msg).dram.wf = true := by
  unfold State.failRequest
  split <;> simp [h]

@[simp] theorem wf_failEvict (s : State) (sb : Nat) (h : s.dram.wf = true) : (s.failEvict sb).dram.wf = true := by simp [State.failEvict, h]

@[simp] theorem dram_failCopy (s : State) (id k : Nat) : (s.failCopy id k).dram = s.dram := rfl

@[simp] theorem wf_failPacket (s : State) (p : Packet) (h : s.dram.wf = true) : (s.failPacket p).dram.wf = true := by
  unfold State.failPacket
  split <;> simp [h]

@[simp] theorem keeps_execLinkFallbackReinject (id : Nat) (s : State) (h : s.dram.wf = true) : Keeps (execLinkFallbackReinject id s) := by
  unfold execLinkFallbackReinject
  (repeat' split) <;> simp [h]

@[simp] theorem wf_refusePacket (s : State) (p : Packet) (h : s.dram.wf = true) : (s.refusePacket p).dram.wf = true := by
  unfold State.refusePacket
  split <;> simp [h]

@[simp] theorem wf_lookAgain (s : State) (p : Packet) (h : s.dram.wf = true) : (s.lookAgain p).dram.wf = true := by
  unfold State.lookAgain
  simp only []
  (repeat' split) <;> simp [h]

@[simp] theorem keeps_execPacketNack (id : Nat) (s : State) (h : s.dram.wf = true) : Keeps (execPacketNack id s) := by
  unfold execPacketNack
  (repeat' split) <;> simp [h]

@[simp] theorem keeps_execTableScrub (flips : List (Nat × Nat)) (s : State) (h : s.dram.wf = true) : Keeps (execTableScrub flips s) := by
  simp [execTableScrub, h]

@[simp] theorem keeps_execRouterTableRequest (router entry : Nat) (s : State) (h : s.dram.wf = true) :
    Keeps (execRouterTableRequest router entry s) := by simp [execRouterTableRequest, h]

@[simp] theorem wf_unhold (s : State) (router entry : Nat) (h : s.dram.wf = true) : (s.unhold router entry).dram.wf = true := by
  simp +contextual [State.unhold, h]

@[simp] theorem keeps_execTableRepairResponse (router entry : Nat) (s : State) (h : s.dram.wf = true) :
    Keeps (execTableRepairResponse router entry s) := by
  unfold execTableRepairResponse
  split <;> simp [h]

/-! ### Windows (Windows) -/

@[simp] theorem wf_setWin (s : State) (sp : OpSpec) (f : Fields) (w : Win) (h : s.dram.wf = true) : (s.setWin sp f w).dram.wf = true := by
  unfold State.setWin
  split <;> simp [h]

@[simp] theorem keeps_execWdecl (f : Fields) (s : State) (h : s.dram.wf = true) : Keeps (execWdecl f s) := by
  simp +contextual [execWdecl, h]

@[simp] theorem keeps_execWpush (f : Fields) (s : State) (h : s.dram.wf = true) : Keeps (execWpush f s) := by
  unfold execWpush
  refine keeps_run _ _ _ h fun sp t ex z ht => ?_
  (repeat' split) <;> simp [ht]

@[simp] theorem keeps_execWq (f : Fields) (s : State) (h : s.dram.wf = true) : Keeps (execWq f s) := by
  unfold execWq
  refine keeps_run _ _ _ h fun sp t ex z ht => ?_
  (repeat' split) <;> simp [ht]

@[simp] theorem keeps_execWrst (f : Fields) (s : State) (h : s.dram.wf = true) : Keeps (execWrst f s) := by
  unfold execWrst
  refine keeps_run _ _ _ h fun sp t ex z ht => ?_
  (repeat' split) <;> simp [ht]

@[simp] theorem keeps_execWlen (f : Fields) (s : State) (h : s.dram.wf = true) : Keeps (execWlen f s) := by
  unfold execWlen
  refine keeps_run _ _ _ h fun sp t ex z ht => ?_
  (repeat' split) <;> simp [ht]

@[simp] theorem keeps_execWsave (f : Fields) (s : State) (h : s.dram.wf = true) : Keeps (execWsave f s) := by
  unfold execWsave
  refine keeps_run _ _ _ h fun sp t ex z ht => ?_
  split
  · simp [ht]
  · next w gw _ =>
    have hb : (t.beginWalks (pageVas (t.sb sp f) (w.imageBytes gw))).dram.wf = true := wf_beginWalks _ _ ht
    simp only []
    split <;> simp [hb]

@[simp] theorem keeps_execWload (f : Fields) (s : State) (h : s.dram.wf = true) : Keeps (execWload f s) := by
  unfold execWload
  refine keeps_run _ _ _ h fun sp t ex z ht => ?_
  have hb (l : List Nat) (m : List (Nat × Access)) : ((t.beginWalks l).raceTrapped t.focus.core t.focus.slot m).1.dram.wf = true := by
    simp [ht]
  simp only []
  split
  · simp [hb]
  · split <;> simp [hb]

/-! ### Traps, registers by number and handlers (System) -/

@[simp] theorem dram_settleEnacc (s : State) (c g : Nat) : (s.settleEnacc c g).dram = s.dram := rfl

@[simp] theorem keeps_execSysr (f : Fields) (s : State) (h : s.dram.wf = true) : Keeps (execSysr f s) := by
  unfold execSysr
  refine keeps_run _ _ _ h fun sp t ex z ht => ?_
  (repeat' split) <;> simp [ht]

@[simp] theorem dram_setFilter (s : State) (k : Nat) (r : SysReg) (v : DWord) : (s.setFilter k r v).dram = s.dram := rfl

@[simp] theorem dram_setGdbg (s : State) (c g v : Nat) : (s.setGdbg c g v).dram = s.dram := rfl

@[simp] theorem dram_monDone (s : State) (c : Nat) (v : DWord) : (s.monDone c v).dram = s.dram := by simp [State.monDone]

@[simp] theorem wf_sysPut (s : State) (c t lane : Nat) (r : SysReg) (v : DWord) (h : s.dram.wf = true) :
    (s.sysPut c t lane r v).dram.wf = true := by
  unfold State.sysPut
  (repeat' split) <;> simp [h]

@[simp] theorem keeps_execSysw (f : Fields) (s : State) (h : s.dram.wf = true) : Keeps (execSysw f s) := by
  unfold execSysw
  refine keeps_run _ _ _ h fun sp t ex z ht => ?_
  (repeat' split) <;> simp [ht]

@[simp] theorem keeps_execFilterWrite (core slot : Nat) (s : State) (h : s.dram.wf = true) : Keeps (execFilterWrite core slot s) := by
  unfold execFilterWrite
  (repeat' split) <;> simp [h]

@[simp] theorem keeps_execMondoneWrite (core : Nat) (v : DWord) (s : State) (h : s.dram.wf = true) : Keeps (execMondoneWrite core v s) := by
  simp [execMondoneWrite, h]

@[simp] theorem keeps_execGangStop (core slot : Nat) (stop : Bool) (s : State) (h : s.dram.wf = true) :
    Keeps (execGangStop core slot stop s) := by simp [execGangStop, h]

@[simp] theorem keeps_execGangStep (core slot : Nat) (s : State) (h : s.dram.wf = true) : Keeps (execGangStep core slot s) := by
  simp [execGangStep, h]

@[simp] theorem dram_claimBoost (s : State) (c g f : Nat) : (s.claimBoost c g f).dram = s.dram := by simp [State.claimBoost]

@[simp] theorem keeps_execBclaim (f : Fields) (s : State) (h : s.dram.wf = true) : Keeps (execBclaim f s) := by simp [execBclaim, h]

@[simp] theorem keeps_execBrel (f : Fields) (s : State) (h : s.dram.wf = true) : Keeps (execBrel f s) := by simp [execBrel, h]

@[simp] theorem keeps_execTsr (f : Fields) (s : State) (h : s.dram.wf = true) : Keeps (execTsr f s) := by simp [execTsr, h]

@[simp] theorem keeps_execPhint (f : Fields) (s : State) (h : s.dram.wf = true) : Keeps (execPhint f s) := by simp [execPhint, h]

@[simp] theorem keeps_execHalt (f : Fields) (s : State) (h : s.dram.wf = true) : Keeps (execHalt f s) := by simp [execHalt, h]

@[simp] theorem keeps_execTrc (f : Fields) (s : State) (h : s.dram.wf = true) : Keeps (execTrc f s) := by simp [execTrc, h]

/-! ### Power and regions (Power) -/

@[simp] theorem dram_setRegState (s : State) (r : Nat) (x : RegState) : (s.setRegState r x).dram = s.dram := rfl

@[simp] theorem dram_refuseRegion (s : State) (r : Nat) : (s.refuseRegion r).dram = s.dram := rfl

@[simp] theorem wf_loseOwned (s : State) (sb : Nat) (h : s.dram.wf = true) : (s.loseOwned sb).dram.wf = true := by simp [State.loseOwned, h]

@[simp] theorem wf_endRequest (s : State) (q : SbReq) (h : s.dram.wf = true) : (s.endRequest q).dram.wf = true := by
  unfold State.endRequest
  split <;> simp [h]

@[simp] theorem wf_regionLost (s : State) (r : Nat) (h : s.dram.wf = true) : (s.regionLost r).dram.wf = true := by
  unfold State.regionLost
  simp only [dram_modRegion]
  rw [dram_foldl fun s c => dram_modCore s c _]
  refine Memory.wf_filter _ _ (wf_foldl (fun s q h => wf_failRequest _ _ h) _ ?_)
  refine wf_foldl (fun s sb h => wf_loseOwned _ _ h) _ (wf_foldl (fun s sb h => wf_failEvict _ _ h) _ ?_)
  exact wf_foldl (fun s q h => wf_endRequest _ _ h) _ h

@[simp] theorem dram_orphanAll (s : State) (r : Nat) : (s.orphanAll r).dram = s.dram :=
  dram_foldl (fun t c => dram_foldl (fun t _ => dram_orphan t c) _ t) _ s

@[simp] theorem wf_trip (s : State) (r : Nat) (cause : BitVec 4) (h : s.dram.wf = true) : (s.trip r cause).dram.wf = true := by
  simp [State.trip, h]

@[simp] theorem keeps_execRegionEnable (r : Nat) (s : State) (h : s.dram.wf = true) : Keeps (execRegionEnable r s) := by
  simp [execRegionEnable, h]

@[simp] theorem keeps_execRegionDisable (r : Nat) (s : State) (h : s.dram.wf = true) : Keeps (execRegionDisable r s) := by
  unfold execRegionDisable
  (repeat' split) <;> simp [h]

@[simp] theorem keeps_execRegionRestart (r : Nat) (s : State) (h : s.dram.wf = true) : Keeps (execRegionRestart r s) := by
  simp [execRegionRestart, h]

@[simp] theorem dram_endThrottle (s : State) (r : Nat) : (s.endThrottle r).dram = s.dram := rfl

@[simp] theorem keeps_execRegionReleaseHalt (r : Nat) (s : State) (h : s.dram.wf = true) : Keeps (execRegionReleaseHalt r s) := by
  simp [execRegionReleaseHalt, h]

@[simp] theorem dram_joinPools (s : State) (r : Nat) : (s.joinPools r).dram = s.dram := by
  unfold State.joinPools
  split <;> rfl

@[simp] theorem dram_linksBack (s : State) (r : Nat) : (s.linksBack r).dram = s.dram := rfl

@[simp] theorem dram_startReceivers (s : State) (r : Nat) : (s.startReceivers r).dram = s.dram := by
  unfold State.startReceivers
  split <;> rfl

@[simp] theorem keeps_execRampComplete (r : Nat) (s : State) (h : s.dram.wf = true) : Keeps (execRampComplete r s) := by
  simp [execRampComplete, h]

@[simp] theorem keeps_execRampTimeout (r : Nat) (s : State) (h : s.dram.wf = true) : Keeps (execRampTimeout r s) := by
  simp [execRampTimeout, h]

@[simp] theorem keeps_execSupplyFault (r : Nat) (cause : BitVec 4) (s : State) (h : s.dram.wf = true) : Keeps
    (execSupplyFault r cause s) := by
  simp [execSupplyFault, h]

@[simp] theorem keeps_execTripDischarged (r : Nat) (s : State) (h : s.dram.wf = true) : Keeps (execTripDischarged r s) := by
  simp [execTripDischarged, h]

@[simp] theorem keeps_execRestartRailsSettled (r : Nat) (s : State) (h : s.dram.wf = true) : Keeps (execRestartRailsSettled r s) := by
  simp [execRestartRailsSettled, h]

@[simp] theorem keeps_execRestartTableLoad (r source : Nat) (s : State) (h : s.dram.wf = true) : Keeps
    (execRestartTableLoad r source s) := by
  simp +contextual [execRestartTableLoad, h]

@[simp] theorem keeps_execRestartComplete (r : Nat) (s : State) (h : s.dram.wf = true) : Keeps (execRestartComplete r s) := by
  unfold execRestartComplete
  extract_lets x t u v
  have ht : t.Canonical := State.Canonical.of_dram (s := s) h (by simp [t])
  have hu : u.Canonical := foldl_keeps State.Canonical (fun v c hv =>
    (hv.of_dram (dram_setGang _ _ _ _)).of_dram (dram_modCore _ _ _)) _ ht
  have hv : v.Canonical := hu.of_dram (dram_linksBack u r)
  clear_value u v
  exact iteInduction (motive := Keeps) (fun _ => (keeps_next _).2 hv) (fun _ => (keeps_next _).2 h)

@[simp] theorem keeps_execRestartTimeout (r : Nat) (s : State) (h : s.dram.wf = true) : Keeps (execRestartTimeout r s) := by
  simp [execRestartTimeout, h]

@[simp] theorem keeps_execOvercurrentWarning (r : Nat) (s : State) (h : s.dram.wf = true) : Keeps (execOvercurrentWarning r s) := by
  simp [execOvercurrentWarning, h]

@[simp] theorem keeps_execGovernorTick (watts : Nat) (s : State) (h : s.dram.wf = true) : Keeps (execGovernorTick watts s) := by
  simp [execGovernorTick, h]

@[simp] theorem keeps_execCurrentRampStep (r demand : Nat) (s : State) (h : s.dram.wf = true) : Keeps (execCurrentRampStep r demand s) := by
  simp [execCurrentRampStep, h]

@[simp] theorem dram_cancelClaim (s : State) (k : Nat) : (s.cancelClaim k).dram = s.dram := by
  unfold State.cancelClaim
  rw [dram_modCluster, dram_foldl]
  intro s c
  exact dram_foldl (fun s g => by split <;> simp) _ _

@[simp] theorem keeps_execBoostGrant (r : Nat) (s : State) (h : s.dram.wf = true) : Keeps (execBoostGrant r s) := by
  unfold execBoostGrant
  split <;> simp [h]

@[simp] theorem keeps_execBoostInterval (r : Nat) (s : State) (h : s.dram.wf = true) : Keeps (execBoostInterval r s) := by
  unfold execBoostInterval
  extract_lets x
  split
  · simpa using h
  · next k _ =>
    refine iteInduction (motive := Keeps) (fun _ => (keeps_next _).2 h) fun _ => ?_
    refine iteInduction (motive := Keeps) (fun _ => (keeps_next _).2 ?_) fun _ => (keeps_next _).2 ?_
    · rw [dram_modRegion]; exact h
    · rw [dram_modCluster, dram_modRegion, dram_cancelClaim]; exact h

@[simp] theorem keeps_execBoostFallStep (c : Nat) (s : State) (h : s.dram.wf = true) : Keeps (execBoostFallStep c s) := by
  unfold execBoostFallStep
  split <;> simp [h]

@[simp] theorem keeps_execPermitRefill (r : Nat) (s : State) (h : s.dram.wf = true) : Keeps (execPermitRefill r s) := by
  unfold execPermitRefill
  split <;> simp [h]

@[simp] theorem keeps_execFrequencyChangeComplete (c : Nat) (s : State) (h : s.dram.wf = true) : Keeps
    (execFrequencyChangeComplete c s) := by
  unfold execFrequencyChangeComplete
  split <;> simp [h]

@[simp] theorem keeps_execPoolMoveComplete (c : Nat) (s : State) (h : s.dram.wf = true) : Keeps (execPoolMoveComplete c s) := by
  unfold execPoolMoveComplete
  split <;> simp [h]

@[simp] theorem dram_thermalMessage (s : State) (r : Nat) : (s.thermalMessage r).dram = s.dram := by simp [State.thermalMessage]

@[simp] theorem dram_enterThrottle (s : State) (r : Nat) : (s.enterThrottle r).dram = s.dram := by simp [State.enterThrottle]

@[simp] theorem wf_enterHaltStage (s : State) (r : Nat) (h : s.dram.wf = true) : (s.enterHaltStage r).dram.wf = true := by
  simp +contextual [State.enterHaltStage, h]

@[simp] theorem wf_enterStage (s : State) (r k : Nat) (h : s.dram.wf = true) : (s.enterStage r k).dram.wf = true := by
  unfold State.enterStage
  (repeat' split) <;> simp [h]

@[simp] theorem keeps_execThermalSample (r temp : Nat) (s : State) (h : s.dram.wf = true) : Keeps (execThermalSample r temp s) := by
  simp +contextual [execThermalSample, h]

@[simp] theorem keeps_execThermalTrip (r : Nat) (s : State) (h : s.dram.wf = true) : Keeps (execThermalTrip r s) := by
  simp [execThermalTrip, h]

/-! ### Walkers (Walkers) -/

@[simp] theorem dram_modFiring (s : State) (w node : Nat) (f : Firing → Firing) : (s.modFiring w node f).dram = s.dram := rfl

@[simp] theorem dram_dropFiring (s : State) (w node : Nat) : (s.dropFiring w node).dram = s.dram := rfl

@[simp] theorem wf_deliverList (w node : Nat) (ks : List Nat) (s : State) (h : s.dram.wf = true) :
    (State.deliverList w node ks s).dram.wf = true := by
  induction ks generalizing s with
  | nil => simp [State.deliverList, h]
  | cons k l ih =>
    unfold State.deliverList
    split
    · exact ih _ h
    · split
      · split <;> simp [h]
      · simp [h]
      · next t e => exact ih t ((wf_deliver _ _ _ _ h).of_eq e)

@[simp] theorem wf_deliverRest (s : State) (w node : Nat) (h : s.dram.wf = true) : (s.deliverRest w node).dram.wf = true := by
  unfold State.deliverRest
  (repeat' split) <;> simp [h]

theorem wf_completeFiring (s : State) (w node : Nat) (give : List Nat) (h : s.dram.wf = true) :
    IfSome (fun t => t.dram.wf = true) (s.completeFiring w node give) := by
  unfold State.completeFiring
  split
  · exact h
  · exact IfSome.map _ (IfSome.mono (wf_freeFiring _ _ _ h) fun t ht => by simp [ht])

@[simp] theorem dram_dropConsts (s : State) (t : Nat) : (s.dropConsts t).dram = s.dram := rfl

/-- The definition is opened before it is applied: applied, the kernel would run the record read that its `match` looks at. -/
theorem wf_fireKernel (s : State) (w node arg token : Nat) (h : s.dram.wf = true) :
    IfSome (fun t => t.dram.wf = true) (s.fireKernel w node arg token) := by
  have e : @State.fireKernel = @State.fireKernel := rfl
  conv at e => rhs; delta State.fireKernel
  rw [e]
  simp only []
  split
  · split <;> simp [h]
  · split
    · trivial
    · split
      · simp [h]
      · simp only [ifSome_some, dram_modFiring, dram_setLaunch, dram_dropConsts, dram_dropCode, h]

theorem wf_fireNode (s : State) (w : Nat) (f : Firing) (joinn token : Nat) (h : s.dram.wf = true) :
    IfSome (fun t => t.dram.wf = true) (s.fireNode w f joinn token) := by
  have hc (g : Run → Run) (l : List Nat) : IfSome (fun t => t.dram.wf = true) ((s.modRun w g).completeFiring w f.node l) :=
    wf_completeFiring _ _ _ _ (by simpa using h)
  have hs (l : List Nat) : IfSome (fun t => t.dram.wf = true) (s.completeFiring w f.node l) := wf_completeFiring _ _ _ _ h
  unfold State.fireNode
  simp only []
  split
  · exact wf_fireKernel _ _ _ _ _ h
  · split
    · exact hs _
    · simpa using h
  · split
    · split <;> simp [h]
    · split
      · simp [h]
      · exact hs _
  · split
    · split <;> simp [h]
    · split
      · split
        · exact hs _
        · exact hc _ _
      · split
        · exact hs _
        · split
          · simp [h]
          · exact hc _ _
  · split <;> exact hc _ _
  · split
    · split <;> simp [h]
    · split
      · exact hs _
      · exact h
  · exact h

/-- The definition is opened before it is applied: applied, the kernel would run the image read that its `match` looks at. -/
theorem wf_beginFiring (s : State) (w node : Nat) (token : Option (Nat × Nat)) (h : s.dram.wf = true) :
    IfSome (fun t => t.dram.wf = true) (s.beginFiring w node token) := by
  have e : @State.beginFiring = @State.beginFiring := rfl
  conv at e => rhs; delta State.beginFiring
  rw [e]
  simp only []
  split
  · split
    · trivial
    · simp [h]
  · split
    · simp [h]
    · exact wf_fireNode _ _ _ _ _ (by simp [h])

@[simp] theorem keeps_execNodeFire (w node : Nat) (s : State) (h : s.dram.wf = true) : Keeps (execNodeFire w node s) := by
  unfold execNodeFire
  simp only []
  split
  · simpa using h
  · split
    · split
      · exact (keeps_next _).2 ((wf_beginFiring _ _ _ _ (by simpa using h)).getD h)
      · simpa using h
    · split
      · split <;> simp [h]
      · split
        · exact (keeps_next _).2 ((wf_beginFiring _ _ _ _ h).getD h)
        · simpa using h

/-- The definition is opened before it is applied: applied, the kernel would run the state that its `match` looks at. -/
@[simp] theorem keeps_execKernelNodeComplete (w node : Nat) (s : State) (h : s.dram.wf = true) : Keeps
    (execKernelNodeComplete w node s) := by
  have e : @execKernelNodeComplete = @execKernelNodeComplete := rfl
  conv at e => rhs; delta execKernelNodeComplete
  rw [e]
  simp only []
  split
  · simpa using h
  · split
    · simpa using h
    · exact (keeps_next _).2 (IfSome.getD (P := fun t : State => t.dram.wf = true) (wf_completeFiring _ _ _ _ h) h)

@[simp] theorem keeps_execCopyNodeComplete (w node : Nat) (s : State) (h : s.dram.wf = true) : Keeps (execCopyNodeComplete w node s) := by
  unfold execCopyNodeComplete
  split
  · simpa using h
  · split
    · exact (keeps_next _).2 ((wf_completeFiring _ _ _ _ h).getD h)
    · split
      · simpa using h
      · split <;> simp [h]

@[simp] theorem keeps_execSignalEntryWritten (w node : Nat) (s : State) (h : s.dram.wf = true) : Keeps
    (execSignalEntryWritten w node s) := by
  unfold execSignalEntryWritten
  split
  · simpa using h
  · split
    · simpa using h
    · exact (keeps_next _).2 ((wf_completeFiring _ _ _ _ (by simpa using h)).getD h)

@[simp] theorem keeps_execWaitNodePoll (w node : Nat) (s : State) (h : s.dram.wf = true) : Keeps (execWaitNodePoll w node s) := by
  unfold execWaitNodePoll
  split
  · simpa using h
  · split
    · simp [h]
    · simp [(wf_completeFiring _ _ _ _ h).getD h, h]

@[simp] theorem keeps_execWaitNodeTimeout (w node : Nat) (s : State) (h : s.dram.wf = true) : Keeps (execWaitNodeTimeout w node s) := by
  unfold execWaitNodeTimeout
  (repeat' split) <;> simp [h]

@[simp] theorem keeps_execFreeSlotRetry (who : Engine) (s : State) (h : s.dram.wf = true) : Keeps (execFreeSlotRetry who s) := by
  unfold execFreeSlotRetry
  split
  · simp [h]
  · split
    · simpa using h
    · split
      · simpa using h
      · split
        · simpa using h
        · split
          · next t e =>
            have ht : IfSome (fun t => t.dram.wf = true) (some t) := (wf_edgePut _ _ _ _ h).of_eq e
            exact (keeps_next _).2 ht
          · simpa using h

@[simp] theorem keeps_execRunDone (w : Nat) (s : State) (h : s.dram.wf = true) : Keeps (execRunDone w s) := by
  unfold execRunDone
  split <;> simp [h]

/-! ### Hubs (Hubs) -/

@[simp] theorem dram_modList (s : State) (h : Nat) (ltag : Half) (f : HubList → HubList) : (s.modList h ltag f).dram = s.dram := rfl

@[simp] theorem dram_pushBlocks (s : State) (h : Nat) (ltag : Half) (bs : List Nat) : (s.pushBlocks h ltag bs).dram = s.dram := by
  unfold State.pushBlocks
  (repeat' split) <;> rfl

@[simp] theorem dram_handOver (s : State) (h : Nat) (ltag : Half) : (s.handOver h ltag).dram = s.dram := by
  unfold State.handOver
  simp only []
  split
  · rfl
  · split
    · rfl
    · exact dram_foldl (fun s i => by split <;> simp) _ _

@[simp] theorem keeps_execLaunchReceive (hub ltag : Nat) (s : State) (h : s.dram.wf = true) : Keeps (execLaunchReceive hub ltag s) := by
  simp [execLaunchReceive, h]

@[simp] theorem dram_seatGang (s : State) (c slot : Nat) (x : Seat) : (s.seatGang c slot x).dram = s.dram := rfl

theorem wf_seatBlock {s : State} (b : Nat) (l : Launch) (ltag : Half) (origin : Nat) {seat : Nat → Nat → Seat → State → State}
    (hs : ∀ c n p t, t.dram.wf = true → (seat c n p t).dram.wf = true) (h : s.dram.wf = true) :
    (s.seatBlock b l ltag origin seat).dram.wf = true := by
  unfold State.seatBlock
  exact wf_foldl (fun t c ht => wf_foldl (fun t (p : Nat × Seat) ht => hs c p.1 p.2 t ht) _ ht) _ h

theorem dram_seatBlock (s : State) (b : Nat) (l : Launch) (ltag : Half) (origin : Nat) {seat : Nat → Nat → Seat → State → State}
    (hs : ∀ c n p t, (seat c n p t).dram = t.dram) : (s.seatBlock b l ltag origin seat).dram = s.dram := by
  unfold State.seatBlock
  exact dram_foldl (fun t c => dram_foldl (fun t (p : Nat × Seat) => hs c p.1 p.2 t) _ t) _ s

@[simp] theorem dram_popHead (s : State) (h : Nat) (ltag : Half) : (s.popHead h ltag).dram = s.dram := rfl

@[simp] theorem dram_markBlocked (s : State) (h : Nat) : (s.markBlocked h).dram = s.dram := rfl

@[simp] theorem keeps_execPoolTargetMove (hub c : Nat) (s : State) (h : s.dram.wf = true) : Keeps (execPoolTargetMove hub c s) := by
  unfold execPoolTargetMove
  split <;> simp [h]

@[simp] theorem dram_askSteal (s : State) (h : Nat) : (s.askSteal h).dram = s.dram := by simp [State.askSteal]

@[simp] theorem dram_handAll (s : State) (h : Nat) : (s.handAll h).dram = s.dram := by simp [State.handAll]

@[simp] theorem keeps_execBlockPlace (hub : Nat) (s : State) (h : s.dram.wf = true) : Keeps (execBlockPlace hub s) := by
  unfold execBlockPlace
  simp only []
  split
  · simpa using h
  · split
    · simp [h]
    · split
      · simp [h]
      · rw [keeps_next, dram_popHead, dram_seatBlock _ _ _ _ _ fun c g x s => dram_seatGang s c g x]
        simp [h]

@[simp] theorem keeps_execHubPriorityAging (hub ltag : Nat) (s : State) (h : s.dram.wf = true) : Keeps
    (execHubPriorityAging hub ltag s) := by
  unfold execHubPriorityAging
  simp only []
  (repeat' split) <;> simp [h]

@[simp] theorem keeps_execStealRequest (victim : Nat) (s : State) (h : s.dram.wf = true) : Keeps (execStealRequest victim s) := by
  unfold execStealRequest
  (repeat' split) <;> simp [h]

@[simp] theorem keeps_execStealResponse (thief : Nat) (s : State) (h : s.dram.wf = true) : Keeps (execStealResponse thief s) := by
  unfold execStealResponse
  simp only []
  (repeat' split) <;> simp [h]

@[simp] theorem keeps_execStealBackoffExpire (hub : Nat) (s : State) (h : s.dram.wf = true) : Keeps (execStealBackoffExpire hub s) := by
  unfold execStealBackoffExpire
  split <;> simp [h]

@[simp] theorem keeps_execBlockExit (block : Nat) (s : State) (h : s.dram.wf = true) : Keeps (execBlockExit block s) := by
  simp [execBlockExit, h]

/-! ### Calls and tasks (Tasks) -/

@[simp] theorem dram_pushRecs (s : State) (c p : Nat) (l : List QRec) : (s.pushRecs c p l).dram = s.dram := rfl

@[simp] theorem dram_popRec (s : State) (c p : Nat) : (s.popRec c p).dram = s.dram := rfl

@[simp] theorem wf_laneStores (s : State) (i : Instr) (sp : OpSpec) (f : Fields) (l : List (Nat × Nat × Nat)) (ex : Mask)
    (h : s.dram.wf = true) :
    (s.laneStores i sp f l ex).1.dram.wf = true := by
  unfold State.laneStores
  simp only []
  refine foldl_keeps (β := State × Causes) (fun r => r.1.dram.wf = true) (fun r p hr => ?_) _ (by simp [h])
  split
  · exact hr
  · split
    · simp [hr]
    · split
      · next e => exact wf_of_eq e (by simp [hr])
      · next e => exact wf_of_eq e (by simp [hr])

@[simp] theorem keeps_execMkrec (f : Fields) (s : State) (h : s.dram.wf = true) : Keeps (execMkrec f s) := by
  unfold execMkrec
  refine keeps_run _ _ _ h fun sp t ex z ht => ?_
  simp [ht]

@[simp] theorem wf_spawnAll (s : State) (sp : OpSpec) (f : Fields) (frames : List DWord) (h : s.dram.wf = true) :
    (s.spawnAll sp f frames).dram.wf = true := by simp [State.spawnAll, h]

@[simp] theorem keeps_spawn (s : State) (i : Instr) (f : Fields) (count : Mask → Nat) (frames : OpSpec → State → Mask → List DWord)
    (h : s.dram.wf = true) :
    Keeps (s.spawn i f count frames) := by simp +contextual [State.spawn, h]

@[simp] theorem keeps_execSpawn (f : Fields) (s : State) (h : s.dram.wf = true) : Keeps (execSpawn f s) := by simp [execSpawn, h]

@[simp] theorem keeps_execSpawnOne (f : Fields) (s : State) (h : s.dram.wf = true) : Keeps (execSpawnOne f s) := by simp [execSpawnOne, h]

@[simp] theorem dram_sendRecord (s : State) (c slot : Nat) (r : BitVec 256) (va : DWord) (n prio rc : Nat) :
    (s.sendRecord c slot r va n prio rc).dram = s.dram := by
  unfold State.sendRecord
  simp only []
  split
  · simp
  · split <;> simp

@[simp] theorem keeps_execPost (f : Fields) (s : State) (h : s.dram.wf = true) : Keeps (execPost f s) := by
  unfold execPost
  refine keeps_run _ _ _ h fun sp t ex z ht => ?_
  have hb : (t.beginWalks [recPosAt t sp f]).dram.wf = true := wf_beginWalks _ _ ht
  simp only []
  (repeat' split) <;> simp [hb]

theorem wf_joinAt (s : State) (c slot : Nat) (a : DWord) (h : s.dram.wf = true) : IfOk (fun t => t.dram.wf = true) (s.joinAt c slot a) := by
  unfold State.joinAt
  simp only []
  split
  · trivial
  · trivial
  · next t e =>
    have ht := (wf_agAtomic _ _ _ _ _ h).of_eq e
    split
    · trivial
    · next u raw e =>
      have hu := (wf_agRead _ _ _ _ ht).of_eq e
      simpa using hu
  · next t _ _ _ e => exact (wf_agAtomic _ _ _ _ _ h).of_eq e

@[simp] theorem keeps_execJoin (f : Fields) (s : State) (h : s.dram.wf = true) : Keeps (execJoin f s) := by
  unfold execJoin
  refine keeps_run _ _ _ h fun sp t ex z ht => ?_
  simp only []
  split
  · next u e => simpa using (wf_joinAt _ _ _ _ ht).of_eq e
  · simp [ht]

@[simp] theorem dram_dropReturns (s : State) (call : Nat) : (s.dropReturns call).dram = s.dram := rfl

@[simp] theorem keeps_execCallq (f : Fields) (s : State) (h : s.dram.wf = true) : Keeps (execCallq f s) := by
  simp +contextual [execCallq, h]

@[simp] theorem keeps_execRetq (f : Fields) (s : State) (h : s.dram.wf = true) : Keeps (execRetq f s) := by simp +contextual [execRetq, h]

@[simp] theorem keeps_execEget (f : Fields) (s : State) (h : s.dram.wf = true) : Keeps (execEget f s) := by
  unfold execEget
  refine keeps_run _ _ _ h fun sp t ex z ht => ?_
  simp only []
  split
  · simp [ht]
  · split
    · split
      · next u _ e =>
        have hu := (wf_freeSlot _ _ _ ht).of_eq e
        split
        · split <;> simp [hu]
        · simp [hu]
      · simp [ht]
      · simp [ht]
    · simp [ht]

/-! ### Bodies (Bodies) -/

@[simp] theorem dram_startCallee (s : State) (c g : Nat) (target : DWord) (items : List CallItem) :
    (s.startCallee c g target items).dram = s.dram := by simp [State.startCallee]

@[simp] theorem keeps_execCalleeGangForm (core slot : Nat) (s : State) (h : s.dram.wf = true) : Keeps (execCalleeGangForm core slot s) := by
  unfold execCalleeGangForm
  simp only []
  (repeat' split) <;> simp [h]

@[simp] theorem wf_resumeCall (s : State) (c slot call : Nat) (h : s.dram.wf = true) : (s.resumeCall c slot call).dram.wf = true := by
  simp [State.resumeCall, h]

@[simp] theorem dram_returnFault (s : State) (c slot call : Nat) (e : ReplayErr) : (s.returnFault c slot call e).dram = s.dram := by
  unfold State.returnFault
  simp only []
  split
  · split <;> simp
  · rfl

@[simp] theorem wf_answerCall (s : State) (c slot call : Nat) (h : s.dram.wf = true) : (s.answerCall c slot call).dram.wf = true := by
  unfold State.answerCall
  simp only []
  (repeat' split) <;> simp [h]

@[simp] theorem dram_startRecord (s : State) (c g : Nat) (r : QRec) : (s.startRecord c g r).dram = s.dram := by simp [State.startRecord]

@[simp] theorem dram_markTested (s : State) (c : Nat) (slots : List Nat) : (s.markTested c slots).dram = s.dram := rfl

@[simp] theorem keeps_execRecordAdmit (core : Nat) (s : State) (h : s.dram.wf = true) : Keeps (execRecordAdmit core s) := by
  unfold execRecordAdmit
  simp only []
  (repeat' split) <;> simp [h]

@[simp] theorem keeps_execRecordPromote (core prio : Nat) (s : State) (h : s.dram.wf = true) : Keeps (execRecordPromote core prio s) := by
  unfold execRecordPromote
  simp only []
  (repeat' split) <;> simp [h]

@[simp] theorem dram_enqueuePost (s : State) (c prio : Nat) (r : QRec) : (s.enqueuePost c prio r).dram = s.dram := by
  simp [State.enqueuePost]

@[simp] theorem keeps_execPostReceive (id : Nat) (s : State) (h : s.dram.wf = true) : Keeps (execPostReceive id s) := by
  unfold execPostReceive
  (repeat' split) <;> simp [h]

@[simp] theorem keeps_execPostRefusedReturn (id : Nat) (s : State) (h : s.dram.wf = true) : Keeps (execPostRefusedReturn id s) := by
  unfold execPostRefusedReturn
  (repeat' split) <;> simp [h]

@[simp] theorem keeps_execJoinDecrement (core slot : Nat) (s : State) (h : s.dram.wf = true) : Keeps (execJoinDecrement core slot s) := by
  unfold execJoinDecrement
  simp only []
  split
  · simpa using h
  · split
    · next e => simpa using (wf_joinAt _ _ _ _ h).of_eq e
    · split <;> simp [h]

/-! ### Copies and signals (Cross) -/

@[simp] theorem keeps_crossLane (s : State) (i : Instr) (f : Fields) (val : OpSpec → State → Mask → Nat → Nat) (h : s.dram.wf = true) :
    Keeps (s.crossLane i f val) := by simp [State.crossLane, h]

@[simp] theorem keeps_execVperm (f : Fields) (s : State) (h : s.dram.wf = true) : Keeps (execVperm f s) := by simp [execVperm, h]

@[simp] theorem keeps_execVshfl (f : Fields) (s : State) (h : s.dram.wf = true) : Keeps (execVshfl f s) := by simp [execVshfl, h]

@[simp] theorem keeps_execVbcl (f : Fields) (s : State) (h : s.dram.wf = true) : Keeps (execVbcl f s) := by simp [execVbcl, h]

@[simp] theorem keeps_execVred (f : Fields) (s : State) (h : s.dram.wf = true) : Keeps (execVred f s) := by simp [execVred, h]

@[simp] theorem keeps_execVscan (f : Fields) (s : State) (h : s.dram.wf = true) : Keeps (execVscan f s) := by simp [execVscan, h]

@[simp] theorem keeps_execVscanx (f : Fields) (s : State) (h : s.dram.wf = true) : Keeps (execVscanx f s) := by simp [execVscanx, h]

@[simp] theorem keeps_execVcomp (f : Fields) (s : State) (h : s.dram.wf = true) : Keeps (execVcomp f s) := by simp [execVcomp, h]

@[simp] theorem keeps_execVexpd (f : Fields) (s : State) (h : s.dram.wf = true) : Keeps (execVexpd f s) := by simp [execVexpd, h]

/-! ### Photonic events (Photonic) -/

@[simp] theorem dram_answerReq (s : State) (msg core : Nat) : (s.answerReq msg core).dram = s.dram := rfl

@[simp] theorem dram_applySnoop (s : State) (c : Nat) (m : Msg) (k : Snoop) (sb : Nat) : (s.applySnoop c m k sb).dram = s.dram := by
  simp [State.applySnoop]

@[simp] theorem wf_landLine (s : State) (c pa : Nat) (data : List Byte) (h : s.dram.wf = true) : (s.landLine c pa data).dram.wf = true := by
  simp [State.landLine, h]

@[simp] theorem wf_applyStore (s : State) (c off : Nat) (data : List Byte) (h : s.dram.wf = true) :
    (s.applyStore c off data).dram.wf = true := by
  unfold State.applyStore
  (repeat' split) <;> simp [h]

@[simp] theorem wf_applyMsg (s : State) (c : Nat) (m : Msg) (h : s.dram.wf = true) : (s.applyMsg c m).dram.wf = true := by
  unfold State.applyMsg
  split <;> simp [h]

@[simp] theorem dram_seeHoles (s : State) (c lo hi : Nat) (dark : List (Nat × Nat)) : (s.seeHoles c lo hi dark).dram = s.dram := by
  simp [State.seeHoles]

@[simp] theorem dram_seeResent (s : State) (c lo hi : Nat) (dark : List (Nat × Nat)) : (s.seeResent c lo hi dark).dram = s.dram := rfl

@[simp] theorem dram_endHoles (s : State) (c : Nat) : (s.endHoles c).dram = s.dram := by simp [State.endHoles]

@[simp] theorem wf_applyBus (s : State) (c bus : Nat) (h : s.dram.wf = true) : (s.applyBus c bus).dram.wf = true := by
  simp +contextual [State.applyBus, h]

@[simp] theorem dram_settleAcks (s : State) : (s.settleAcks).dram = s.dram := rfl

@[simp] theorem keeps_execPhotonicFrame (c : Nat) (dark : List (Nat × Nat)) (s : State) (h : s.dram.wf = true) :
    Keeps (execPhotonicFrame c dark s) := by
  unfold execPhotonicFrame
  (repeat' split) <;> simp +contextual [h]

@[simp] theorem dram_sendCopies (s : State) (c id : Nat) (ks : List Nat) : (s.sendCopies c id ks).dram = s.dram :=
  dram_foldl (fun s _ => dram_respond s _ _ _) ks s

@[simp] theorem keeps_execRetainedCopyRequest (c id : Nat) (s : State) (h : s.dram.wf = true) : Keeps (execRetainedCopyRequest c id s) := by
  simp [execRetainedCopyRequest, h]

@[simp] theorem keeps_execRetainedCopyReceive (c id : Nat) (s : State) (h : s.dram.wf = true) : Keeps (execRetainedCopyReceive c id s) := by
  unfold execRetainedCopyReceive
  split <;> simp [h]

@[simp] theorem keeps_execRetainedCopyExpire (id : Nat) (s : State) (h : s.dram.wf = true) : Keeps (execRetainedCopyExpire id s) := by
  unfold execRetainedCopyExpire
  split <;> simp [h]

@[simp] theorem keeps_execGroupDead (c bus group : Nat) (s : State) (h : s.dram.wf = true) : Keeps (execGroupDead c bus group s) := by
  simp [execGroupDead, h]

@[simp] theorem keeps_execHoleTimeout (c bus : Nat) (s : State) (h : s.dram.wf = true) : Keeps (execHoleTimeout c bus s) := by
  unfold execHoleTimeout
  split <;> simp [h]

@[simp] theorem dram_beaconApplied (s : State) (c : Nat) : (s.beaconApplied c).dram = s.dram := rfl

@[simp] theorem dram_sendKept (s : State) (k : Nat) (b : Beacon) : (s.sendKept k b).dram = s.dram := by
  unfold State.sendKept
  split <;> simp

@[simp] theorem keeps_execBeaconClusterHandover (s : State) (h : s.dram.wf = true) : Keeps (execBeaconClusterHandover s) := by
  unfold execBeaconClusterHandover
  split <;> simp [h]

@[simp] theorem keeps_execTimeBeaconSend (s : State) (h : s.dram.wf = true) : Keeps (execTimeBeaconSend s) := by
  simp [execTimeBeaconSend, h]

@[simp] theorem dram_slewCores (s : State) (c : Nat) : (s.slewCores c).dram = s.dram := by
  simp [State.slewCores]

@[simp] theorem keeps_execTimeBeacon (c : Nat) (s : State) (h : s.dram.wf = true) : Keeps (execTimeBeacon c s) := by
  unfold execTimeBeacon
  split
  · simp only [keeps_ite, keeps_next, dram_bboxEvent, dram_message, dram_modCluster, dram_slewCores, dram_beaconApplied, h, ite_self]
  · simpa using h

@[simp] theorem wf_takeEntry (s t : State) (core : Nat) (e : Word) (h : t.dram.wf = true) :
    (s.takeEntry t core e).dram.wf = true := by
  unfold State.takeEntry
  (repeat' split) <;> simp [h]

@[simp] theorem keeps_execTableUpdateBeacon (c : Nat) (s : State) (h : s.dram.wf = true) : Keeps (execTableUpdateBeacon c s) := by
  unfold execTableUpdateBeacon
  split
  · split
    · have hf (l : List Nat) (core : Nat) {t : State} (ht : t.dram.wf = true) :
          (l.foldl (fun s r => s.unhold r core) t).dram.wf = true := wf_foldl (fun s r hs => wf_unhold s r core hs) l ht
      have hb (f : Cluster → Cluster) : ((s.beaconApplied c).modCluster c f).dram.wf = true := by simp [h]
      simp only [keeps_next]
      split
      · exact wf_takeEntry _ _ _ _ (hf _ _ (hb _))
      · exact hf _ _ (hb _)
    · simpa using h
  · simpa using h

@[simp] theorem dram_rebind (s : State) (k bus old new : Nat) : (s.rebind k bus old new).dram = s.dram := rfl

@[simp] theorem keeps_execGroupBindBeacon (c : Nat) (s : State) (h : s.dram.wf = true) : Keeps (execGroupBindBeacon c s) := by
  unfold execGroupBindBeacon
  (repeat' split) <;> simp [h]

@[simp] theorem keeps_execHaltBeacon (c : Nat) (s : State) (h : s.dram.wf = true) : Keeps (execHaltBeacon c s) := by
  unfold execHaltBeacon
  (repeat' split) <;> simp [h]

@[simp] theorem dram_thawField (s : State) (f : Nat) (d : Nat → Nat) : (s.thawField f d).dram = s.dram := rfl

@[simp] theorem keeps_execResumeBeacon (c : Nat) (s : State) (h : s.dram.wf = true) : Keeps (execResumeBeacon c s) := by
  unfold execResumeBeacon
  (repeat' split) <;> simp [h]

/-! ### Memory system events (MemSys) -/

@[simp] theorem wf_performWaiting (s : State) (msg : Nat) (h : s.dram.wf = true) : (s.performWaiting msg).dram.wf = true := by
  unfold State.performWaiting
  refine wf_foldl (fun s id hs => ?_) _ h
  split
  · split
    · exact wf_performPend _ _ false hs
    · exact hs
  · exact hs

@[simp] theorem dram_answerBehind (s : State) (c sb : Nat) (qs : List (Snoop × Nat)) : (s.answerBehind c sb qs).dram = s.dram := by
  induction qs generalizing s with
  | nil => rfl
  | cons p l ih => simp [State.answerBehind, ih]

@[simp] theorem wf_takeSuperblock (s : State) (c sb : Nat) (r : SbReq) (h : s.dram.wf = true) :
    (s.takeSuperblock c sb r).dram.wf = true := by
  simp [State.takeSuperblock, h]

@[simp] theorem keeps_execSuperblockResponse (c sb : Nat) (s : State) (h : s.dram.wf = true) : Keeps (execSuperblockResponse c sb s) := by
  unfold execSuperblockResponse
  (repeat' split) <;> simp [h]

@[simp] theorem keeps_execEvictionDataArrive (sb : Nat) (s : State) (h : s.dram.wf = true) : Keeps (execEvictionDataArrive sb s) := by
  unfold execEvictionDataArrive
  split <;> simp [h]

@[simp] theorem keeps_execHomeRequest (id : Nat) (s : State) (h : s.dram.wf = true) : Keeps (execHomeRequest id s) := by
  unfold execHomeRequest
  split <;> simp [h]

@[simp] theorem dram_pendTrap (s : State) (p : Pend) (cause : Nat) : (s.pendTrap p cause).dram = s.dram := by simp [State.pendTrap]

@[simp] theorem dram_deliverPend (s : State) (p : Pend) : (s.deliverPend p).dram = s.dram := by
  unfold State.deliverPend
  simp only []
  split
  · simp
  · split <;> simp

@[simp] theorem dram_takeAnswer (s : State) (id : Nat) : (s.takeAnswer id).dram = s.dram := by
  unfold State.takeAnswer
  split <;> rfl

@[simp] theorem wf_tryPerform (s : State) (id : Nat) (h : s.dram.wf = true) : (s.tryPerform id).dram.wf = true := by
  unfold State.tryPerform
  split <;> simp [h]

@[simp] theorem dram_askAnew (s : State) (id : Nat) : (s.askAnew id).dram = s.dram := by
  unfold State.askAnew
  split <;> simp

@[simp] theorem keeps_execMemoryResponse (id : Nat) (s : State) (h : s.dram.wf = true) : Keeps (execMemoryResponse id s) := by
  unfold execMemoryResponse
  simp only []
  (repeat' split) <;> simp [h]

@[simp] theorem keeps_execWriteAcknowledge (id : Nat) (s : State) (h : s.dram.wf = true) : Keeps (execWriteAcknowledge id s) := by
  unfold execWriteAcknowledge
  simp only []
  (repeat' split) <;> simp [h]

@[simp] theorem keeps_execPageWalk (c : Nat) (s : State) (h : s.dram.wf = true) : Keeps (execPageWalk c s) := by
  unfold execPageWalk
  split
  · simpa using h
  · simp only []
    split
    · simpa using h
    · split
      · simp [h]
      · rw [keeps_next, dram_foldl fun s q => dram_modCore s q _]
        simp [h]

/-! ### Recipes (Recipes) -/

@[simp] theorem keeps_execRtag (f : Fields) (s : State) (h : s.dram.wf = true) : Keeps (execRtag f s) := by
  unfold execRtag
  refine keeps_run _ _ _ h fun sp t ex z ht => ?_
  split
  · simp only [keeps_next, dram_finish, dram_modMe, dram_wrV]
    refine wf_foldl (fun u pc hu => ?_) _ ht
    split <;> simp [hu]
  · simp [ht]

@[simp] theorem keeps_execRdrop (f : Fields) (s : State) (h : s.dram.wf = true) : Keeps (execRdrop f s) := by
  unfold execRdrop
  refine keeps_run _ _ _ h fun sp t ex z ht => ?_
  (repeat' split) <;> simp [ht]

@[simp] theorem keeps_execRmat (f : Fields) (s : State) (h : s.dram.wf = true) : Keeps (execRmat f s) := by simp [execRmat, h]

@[simp] theorem keeps_execRclr (f : Fields) (s : State) (h : s.dram.wf = true) : Keeps (execRclr f s) := by simp +contextual [execRclr, h]

/-! ### Trap entry and return (Traps) -/

@[simp] theorem dram_startHandler (s : State) (c s1 s3 s4 : Nat) : (s.startHandler c s1 s3 s4).dram = s.dram := rfl

/-- `Canonical` has a constant of its own so that the kernel compares its arguments; a `State.dram` it would open, and run the frame's stores. -/
@[simp] theorem wf_serveTrap (s : State) (c : Nat) (t : TrapRec) (rest : List HWork) (p : Trans) (h : s.dram.wf = true) :
    (s.serveTrap c t rest p).dram.wf = true := by
  change (s.serveTrap c t rest p).Canonical
  unfold State.serveTrap
  extract_lets tab u va v
  have hu : u.Canonical :=
    foldl_keeps State.Canonical (fun (x : State) i hx => wf_memWrite x c _ 8 (tab.get 0 i) hx) (List.range frameWords) h
  clear_value u
  exact (hu.of_dram (dram_modCore _ _ _)).of_dram (dram_startHandler _ _ _ _ _)

@[simp] theorem keeps_execHandlerEntry (core : Nat) (s : State) (h : s.dram.wf = true) : Keeps (execHandlerEntry core s) := by
  unfold execHandlerEntry
  simp only []
  (repeat' split) <;> simp [h]

@[simp] theorem wf_reloadLatches (s : State) (t : TrapRec) (b : Nat) (h : s.dram.wf = true) : (s.reloadLatches t b).dram.wf = true := by
  simp [State.reloadLatches, h]

@[simp] theorem wf_resumeTrap (s : State) (t : TrapRec) (b : Nat) (h : s.dram.wf = true) : (s.resumeTrap t b).dram.wf = true := by
  have hr := wf_reloadLatches s t b h
  unfold State.resumeTrap
  simp only [dram_ite, dram_tryIdle, dram_modCore, dram_modGang, ite_self]
  rw [dram_foldl fun s n => by rw [dram_dropReturns, dram_modGang]]
  exact hr

@[simp] theorem keeps_execRtrapResume (f : Fields) (s : State) (h : s.dram.wf = true) : Keeps (execRtrapResume f s) := by
  unfold execRtrapResume
  refine keeps_run _ _ _ h fun sp t ex z ht => ?_
  (repeat' split) <;> simp [ht]

@[simp] theorem keeps_execRtrapKill (f : Fields) (s : State) (h : s.dram.wf = true) : Keeps (execRtrapKill f s) := by
  unfold execRtrapKill
  refine keeps_run _ _ _ h fun sp t ex z ht => ?_
  (repeat' split) <;> simp [ht]

/-! ### Saves and restores (Saves) -/

@[simp] theorem wf_hintFill (s : State) (c : Nat) (g : Gang) (h : s.dram.wf = true) : (s.hintFill c g).dram.wf = true := by
  unfold State.hintFill
  simp only []
  (repeat' split) <;> simp [h]

@[simp] theorem wf_writeImage (s : State) (c slot : Nat) (block : Bool) (x : SaveSet) (traps : List TrapRec) (va : Nat)
    (h : s.dram.wf = true) :
    (s.writeImage c slot block x traps va).dram.wf = true := by simp +contextual [State.writeImage, h]

@[simp] theorem dram_unhook (s : State) (c slot : Nat) : (s.unhook c slot).dram = s.dram := rfl

@[simp] theorem wf_beforeSave (s : State) (c slot : Nat) (h : s.dram.wf = true) : (s.beforeSave c slot).dram.wf = true := by
  simp [State.beforeSave, h]

theorem canonical_beforeSave {s : State} (c slot : Nat) (h : s.Canonical) : (s.beforeSave c slot).Canonical := wf_beforeSave _ _ _ h
theorem canonical_writeImage {s : State} (c slot : Nat) (b : Bool) (x : SaveSet) (l : List TrapRec) (va : Nat) (h : s.Canonical) :
    (s.writeImage c slot b x l va).Canonical :=
  wf_writeImage _ _ _ _ _ _ _ h

@[simp] theorem wf_saveSlot (s : State) (c slot i : Nat) (h : s.dram.wf = true) : (s.saveSlot c slot i).dram.wf = true := by
  change (s.saveSlot c slot i).Canonical
  unfold State.saveSlot
  extract_lets l va t g x traps u v w
  have hu : u.Canonical := canonical_writeImage _ _ _ _ _ _ (canonical_beforeSave _ _ h)
  clear_value u
  have hv : v.Canonical := (hu.of_dram (dram_unhook _ _ _)).of_dram (dram_modRun _ _ _)
  have hw : w.Canonical := hv.of_dram (dram_modCore _ _ _)
  exact (hw.of_dram (dram_setGang _ _ _ _)).of_dram (dram_markCalls _ _)

@[simp] theorem wf_backHome (s : State) (c : Nat) (h : s.dram.wf = true) : (s.backHome c).dram.wf = true := by
  unfold State.backHome
  refine wf_foldl (fun s la h => by split <;> simp [h]) _ ?_
  exact wf_foldl (fun s la h => wf_l1WriteUnit _ _ _ h) _ h

@[simp] theorem wf_leaveSaved (s : State) (b : Nat) (h : s.dram.wf = true) : (s.leaveSaved b).dram.wf = true := by
  have hb (l : List Nat) : (l.foldl (fun (s : State) c => s.backHome c) s).dram.wf = true := wf_foldl (fun s c h => wf_backHome _ _ h) l h
  have hd (l : List (Nat × Nat)) (u : State) : (l.foldl (fun (s : State) p => s.dropGang p.1 p.2) u).dram = u.dram :=
    dram_foldl (fun s p => dram_dropGang _ _ _) l u
  unfold State.leaveSaved
  simp only []
  split <;> simp [hb, hd]

@[simp] theorem wf_saveGang (s : State) (c slot b : Nat) (h : s.dram.wf = true) : (s.saveGang c slot b).dram.wf = true := by
  change (s.saveGang c slot b).Canonical
  unfold State.saveGang
  extract_lets t g pos
  have ht : t.Canonical := canonical_beforeSave _ _ h
  clear_value t
  split
  · exact ht
  · next i _ =>
    extract_lets u v w x y
    have hu : u.Canonical := canonical_writeImage _ _ _ _ _ _ ht
    clear_value u
    have hv : v.Canonical := hu.of_dram (dram_unhook _ _ _)
    have hw : w.Canonical := hv.of_dram (dram_modBlock _ _ _)
    have hx : x.Canonical := hw.of_dram (dram_modCore _ _ _)
    have hy : y.Canonical := hx.of_dram (dram_setGang _ _ _ _)
    clear_value y
    split
    · exact wf_leaveSaved _ _ hy
    · exact hy

@[simp] theorem keeps_execGangSave (core slot : Nat) (s : State) (h : s.dram.wf = true) : Keeps (execGangSave core slot s) := by
  unfold execGangSave
  simp only []
  (repeat' split) <;> simp [h]

@[simp] theorem keeps_execHintTimeout (core slot : Nat) (s : State) (h : s.dram.wf = true) : Keeps (execHintTimeout core slot s) := by
  unfold execHintTimeout
  split <;> simp [h]

@[simp] theorem keeps_execCallqSlotPreempt (core : Nat) (s : State) (h : s.dram.wf = true) : Keeps (execCallqSlotPreempt core s) := by
  unfold execCallqSlotPreempt
  (repeat' split) <;> simp [h]

@[simp] theorem keeps_execMaterialiseDeadlockSave (core : Nat) (s : State) (h : s.dram.wf = true) :
    Keeps (execMaterialiseDeadlockSave core s) := by
  unfold execMaterialiseDeadlockSave
  simp only []
  (repeat' split) <;> simp [h]

@[simp] theorem wf_restoreSlot (s : State) (c : Nat) (x : SlotSave) (h : s.dram.wf = true) : (s.restoreSlot c x).dram.wf = true := by
  simp [State.restoreSlot, h]

@[simp] theorem keeps_execCallerResume (core slot : Nat) (s : State) (h : s.dram.wf = true) : Keeps (execCallerResume core slot s) := by
  unfold execCallerResume
  simp only []
  (repeat' split) <;> simp [h]

@[simp] theorem keeps_execMaterialiseRowGrant (core : Nat) (s : State) (h : s.dram.wf = true) : Keeps (execMaterialiseRowGrant core s) := by
  unfold execMaterialiseRowGrant
  (repeat' split) <;> simp [h]

@[simp] theorem dram_restoreTrap (s : State) (c slot : Nat) : (s.restoreTrap c slot).dram = s.dram := by simp [State.restoreTrap]

@[simp] theorem wf_restoreGang (s : State) (c slot : Nat) (seat : Seat) (i : Image) (h : s.dram.wf = true) :
    (s.restoreGang c slot seat i).dram.wf = true := by simp [State.restoreGang, h]

@[simp] theorem dram_setRecs (s : State) (c p : Nat) (l : List QRec) : (s.setRecs c p l).dram = s.dram := rfl

@[simp] theorem dram_moveRecords (s : State) (ltag : Half) (old new : Nat) : (s.moveRecords ltag old new).dram = s.dram := by
  simp [State.moveRecords]

@[simp] theorem wf_freshLines (s : State) (c : Nat) (h : s.dram.wf = true) : (s.freshLines c).dram.wf = true := by
  simp [State.freshLines, h]

@[simp] theorem wf_restoreBlock (s : State) (b : Nat) (l : Launch) (ltag : Half) (o : Nat) (h : s.dram.wf = true) :
    (s.restoreBlock b l ltag o).dram.wf = true := by
  unfold State.restoreBlock
  simp only []
  rw [dram_foldl fun t p => by split <;> simp, dram_foldl fun t p => dram_moveRecords t _ _ _, dram_returnImages, dram_modBlock]
  refine wf_seatBlock _ _ _ _ (fun c n x t ht => ?_) ?_
  · split
    · exact wf_restoreGang _ _ _ _ _ ht
    · exact ht
  · rw [dram_setBlock]
    exact wf_foldl (fun t c ht => wf_freshLines t c ht) _ h

@[simp] theorem keeps_execBlockRestore (hub : Nat) (s : State) (h : s.dram.wf = true) : Keeps (execBlockRestore hub s) := by
  unfold execBlockRestore
  simp only []
  (repeat' split) <;> simp [h]

/-! ### Scalar instructions (Scalar) -/

@[simp] theorem keeps_scalarOp (s : State) (i : Instr) (f : Fields) (r : OpSpec → State → Nat) (h : s.dram.wf = true) :
    Keeps (s.scalarOp i f r) := by simp [State.scalarOp, h]

@[simp] theorem keeps_scalarInt2 (s : State) (i : Instr) (f : Fields) (op : IntOp) (h : s.dram.wf = true) : Keeps
    (s.scalarInt2 i f op) := by
  simp [State.scalarInt2, h]

@[simp] theorem keeps_scalarShift (s : State) (i : Instr) (f : Fields) (op : IntOp) (h : s.dram.wf = true) : Keeps
    (s.scalarShift i f op) := by
  simp [State.scalarShift, h]

@[simp] theorem keeps_maskOp (s : State) (i : Instr) (f : Fields) (r : Mask → Mask → Mask) (h : s.dram.wf = true) : Keeps
    (s.maskOp i f r) := by
  simp [State.maskOp, h]

@[simp] theorem keeps_execNop (f : Fields) (s : State) (h : s.dram.wf = true) : Keeps (execNop f s) := by simp [execNop, h]

@[simp] theorem keeps_execSmov (f : Fields) (s : State) (h : s.dram.wf = true) : Keeps (execSmov f s) := by simp [execSmov, h]

@[simp] theorem keeps_execSadd (f : Fields) (s : State) (h : s.dram.wf = true) : Keeps (execSadd f s) := by simp [execSadd, h]

@[simp] theorem keeps_execSsub (f : Fields) (s : State) (h : s.dram.wf = true) : Keeps (execSsub f s) := by simp [execSsub, h]

@[simp] theorem keeps_execSmul (f : Fields) (s : State) (h : s.dram.wf = true) : Keeps (execSmul f s) := by simp [execSmul, h]

@[simp] theorem keeps_execSmulh (f : Fields) (s : State) (h : s.dram.wf = true) : Keeps (execSmulh f s) := by simp [execSmulh, h]

@[simp] theorem keeps_execSdiv (f : Fields) (s : State) (h : s.dram.wf = true) : Keeps (execSdiv f s) := by simp [execSdiv, h]

@[simp] theorem keeps_execSrem (f : Fields) (s : State) (h : s.dram.wf = true) : Keeps (execSrem f s) := by simp [execSrem, h]

@[simp] theorem keeps_execSand (f : Fields) (s : State) (h : s.dram.wf = true) : Keeps (execSand f s) := by simp [execSand, h]

@[simp] theorem keeps_execSor (f : Fields) (s : State) (h : s.dram.wf = true) : Keeps (execSor f s) := by simp [execSor, h]

@[simp] theorem keeps_execSxor (f : Fields) (s : State) (h : s.dram.wf = true) : Keeps (execSxor f s) := by simp [execSxor, h]

@[simp] theorem keeps_execSmin (f : Fields) (s : State) (h : s.dram.wf = true) : Keeps (execSmin f s) := by simp [execSmin, h]

@[simp] theorem keeps_execSmax (f : Fields) (s : State) (h : s.dram.wf = true) : Keeps (execSmax f s) := by simp [execSmax, h]

@[simp] theorem keeps_execSshl (f : Fields) (s : State) (h : s.dram.wf = true) : Keeps (execSshl f s) := by simp [execSshl, h]

@[simp] theorem keeps_execSshr (f : Fields) (s : State) (h : s.dram.wf = true) : Keeps (execSshr f s) := by simp [execSshr, h]

@[simp] theorem keeps_execSsra (f : Fields) (s : State) (h : s.dram.wf = true) : Keeps (execSsra f s) := by simp [execSsra, h]

@[simp] theorem keeps_execScmp (f : Fields) (s : State) (h : s.dram.wf = true) : Keeps (execScmp f s) := by simp [execScmp, h]

@[simp] theorem keeps_execSsel (f : Fields) (s : State) (h : s.dram.wf = true) : Keeps (execSsel f s) := by simp [execSsel, h]

@[simp] theorem keeps_execSlea (f : Fields) (s : State) (h : s.dram.wf = true) : Keeps (execSlea f s) := by simp [execSlea, h]

@[simp] theorem keeps_execSclz (f : Fields) (s : State) (h : s.dram.wf = true) : Keeps (execSclz f s) := by simp [execSclz, h]

@[simp] theorem keeps_execSpopc (f : Fields) (s : State) (h : s.dram.wf = true) : Keeps (execSpopc f s) := by simp [execSpopc, h]

@[simp] theorem keeps_execSbfx (f : Fields) (s : State) (h : s.dram.wf = true) : Keeps (execSbfx f s) := by simp [execSbfx, h]

@[simp] theorem keeps_execSbfi (f : Fields) (s : State) (h : s.dram.wf = true) : Keeps (execSbfi f s) := by simp [execSbfi, h]

@[simp] theorem keeps_execSgetl (f : Fields) (s : State) (h : s.dram.wf = true) : Keeps (execSgetl f s) := by simp [execSgetl, h]

@[simp] theorem keeps_execVsetl (f : Fields) (s : State) (h : s.dram.wf = true) : Keeps (execVsetl f s) := by
  simp +contextual [execVsetl, h]

@[simp] theorem keeps_execMmov (f : Fields) (s : State) (h : s.dram.wf = true) : Keeps (execMmov f s) := by simp [execMmov, h]

@[simp] theorem keeps_execMand (f : Fields) (s : State) (h : s.dram.wf = true) : Keeps (execMand f s) := by simp [execMand, h]

@[simp] theorem keeps_execMor (f : Fields) (s : State) (h : s.dram.wf = true) : Keeps (execMor f s) := by simp [execMor, h]

@[simp] theorem keeps_execMxor (f : Fields) (s : State) (h : s.dram.wf = true) : Keeps (execMxor f s) := by simp [execMxor, h]

@[simp] theorem keeps_execMandn (f : Fields) (s : State) (h : s.dram.wf = true) : Keeps (execMandn f s) := by simp [execMandn, h]

@[simp] theorem keeps_execMpopc (f : Fields) (s : State) (h : s.dram.wf = true) : Keeps (execMpopc f s) := by simp [execMpopc, h]

@[simp] theorem keeps_execMffs (f : Fields) (s : State) (h : s.dram.wf = true) : Keeps (execMffs f s) := by simp [execMffs, h]

/-! ### Integer vector instructions (VecInt) -/

@[simp] theorem keeps_lanewise (s : State) (i : Instr) (f : Fields) (e : Env) (h : s.dram.wf = true) : Keeps (s.lanewise i f e) := by
  simp [State.lanewise, h]

@[simp] theorem keeps_compare (s : State) (i : Instr) (f : Fields) (cond : State → Nat → Nat → Bool) (h : s.dram.wf = true) :
    Keeps (s.compare i f cond) := by simp [State.compare, h]

@[simp] theorem keeps_execVaddInt (f : Fields) (s : State) (h : s.dram.wf = true) : Keeps (execVaddInt f s) := by simp [execVaddInt, h]

@[simp] theorem keeps_execVsubInt (f : Fields) (s : State) (h : s.dram.wf = true) : Keeps (execVsubInt f s) := by simp [execVsubInt, h]

@[simp] theorem keeps_execVmulInt (f : Fields) (s : State) (h : s.dram.wf = true) : Keeps (execVmulInt f s) := by simp [execVmulInt, h]

@[simp] theorem keeps_execVmulh (f : Fields) (s : State) (h : s.dram.wf = true) : Keeps (execVmulh f s) := by simp [execVmulh, h]

@[simp] theorem keeps_execVmad (f : Fields) (s : State) (h : s.dram.wf = true) : Keeps (execVmad f s) := by simp [execVmad, h]

@[simp] theorem keeps_execVdivInt (f : Fields) (s : State) (h : s.dram.wf = true) : Keeps (execVdivInt f s) := by simp [execVdivInt, h]

@[simp] theorem keeps_execVrem (f : Fields) (s : State) (h : s.dram.wf = true) : Keeps (execVrem f s) := by simp [execVrem, h]

@[simp] theorem keeps_execVabsInt (f : Fields) (s : State) (h : s.dram.wf = true) : Keeps (execVabsInt f s) := by simp [execVabsInt, h]

@[simp] theorem keeps_execVnegInt (f : Fields) (s : State) (h : s.dram.wf = true) : Keeps (execVnegInt f s) := by simp [execVnegInt, h]

@[simp] theorem keeps_execVminInt (f : Fields) (s : State) (h : s.dram.wf = true) : Keeps (execVminInt f s) := by simp [execVminInt, h]

@[simp] theorem keeps_execVmaxInt (f : Fields) (s : State) (h : s.dram.wf = true) : Keeps (execVmaxInt f s) := by simp [execVmaxInt, h]

@[simp] theorem keeps_execVand (f : Fields) (s : State) (h : s.dram.wf = true) : Keeps (execVand f s) := by simp [execVand, h]

@[simp] theorem keeps_execVor (f : Fields) (s : State) (h : s.dram.wf = true) : Keeps (execVor f s) := by simp [execVor, h]

@[simp] theorem keeps_execVxor (f : Fields) (s : State) (h : s.dram.wf = true) : Keeps (execVxor f s) := by simp [execVxor, h]

@[simp] theorem keeps_execVnot (f : Fields) (s : State) (h : s.dram.wf = true) : Keeps (execVnot f s) := by simp [execVnot, h]

@[simp] theorem keeps_execVshl (f : Fields) (s : State) (h : s.dram.wf = true) : Keeps (execVshl f s) := by simp [execVshl, h]

@[simp] theorem keeps_execVshr (f : Fields) (s : State) (h : s.dram.wf = true) : Keeps (execVshr f s) := by simp [execVshr, h]

@[simp] theorem keeps_execVsra (f : Fields) (s : State) (h : s.dram.wf = true) : Keeps (execVsra f s) := by simp [execVsra, h]

@[simp] theorem keeps_execVrot (f : Fields) (s : State) (h : s.dram.wf = true) : Keeps (execVrot f s) := by simp [execVrot, h]

@[simp] theorem keeps_execVclz (f : Fields) (s : State) (h : s.dram.wf = true) : Keeps (execVclz f s) := by simp [execVclz, h]

@[simp] theorem keeps_execVpopc (f : Fields) (s : State) (h : s.dram.wf = true) : Keeps (execVpopc f s) := by simp [execVpopc, h]

@[simp] theorem keeps_execVmov (f : Fields) (s : State) (h : s.dram.wf = true) : Keeps (execVmov f s) := by simp [execVmov, h]

@[simp] theorem keeps_execVbfx (f : Fields) (s : State) (h : s.dram.wf = true) : Keeps (execVbfx f s) := by simp [execVbfx, h]

@[simp] theorem keeps_execVdp4 (f : Fields) (s : State) (h : s.dram.wf = true) : Keeps (execVdp4 f s) := by simp [execVdp4, h]

@[simp] theorem keeps_execVcmpInt (f : Fields) (s : State) (h : s.dram.wf = true) : Keeps (execVcmpInt f s) := by simp [execVcmpInt, h]

@[simp] theorem keeps_execVsel (f : Fields) (s : State) (h : s.dram.wf = true) : Keeps (execVsel f s) := by simp [execVsel, h]

/-! ### Floating vector instructions (VecFloat) -/

@[simp] theorem keeps_execVaddFloat (f : Fields) (s : State) (h : s.dram.wf = true) : Keeps (execVaddFloat f s) := by
  simp [execVaddFloat, h]

@[simp] theorem keeps_execVsubFloat (f : Fields) (s : State) (h : s.dram.wf = true) : Keeps (execVsubFloat f s) := by
  simp [execVsubFloat, h]

@[simp] theorem keeps_execVmulFloat (f : Fields) (s : State) (h : s.dram.wf = true) : Keeps (execVmulFloat f s) := by
  simp [execVmulFloat, h]

@[simp] theorem keeps_execVfma (f : Fields) (s : State) (h : s.dram.wf = true) : Keeps (execVfma f s) := by simp [execVfma, h]

@[simp] theorem keeps_execVfms (f : Fields) (s : State) (h : s.dram.wf = true) : Keeps (execVfms f s) := by simp [execVfms, h]

@[simp] theorem keeps_execVfnma (f : Fields) (s : State) (h : s.dram.wf = true) : Keeps (execVfnma f s) := by simp [execVfnma, h]

@[simp] theorem keeps_execVdivFloat (f : Fields) (s : State) (h : s.dram.wf = true) : Keeps (execVdivFloat f s) := by
  simp [execVdivFloat, h]

@[simp] theorem keeps_execVsqrt (f : Fields) (s : State) (h : s.dram.wf = true) : Keeps (execVsqrt f s) := by simp [execVsqrt, h]

@[simp] theorem keeps_execVrsqrt (f : Fields) (s : State) (h : s.dram.wf = true) : Keeps (execVrsqrt f s) := by simp [execVrsqrt, h]

@[simp] theorem keeps_execVrcp (f : Fields) (s : State) (h : s.dram.wf = true) : Keeps (execVrcp f s) := by simp [execVrcp, h]

@[simp] theorem keeps_execVexp2 (f : Fields) (s : State) (h : s.dram.wf = true) : Keeps (execVexp2 f s) := by simp [execVexp2, h]

@[simp] theorem keeps_execVlog2 (f : Fields) (s : State) (h : s.dram.wf = true) : Keeps (execVlog2 f s) := by simp [execVlog2, h]

@[simp] theorem keeps_execVminFloat (f : Fields) (s : State) (h : s.dram.wf = true) : Keeps (execVminFloat f s) := by
  simp [execVminFloat, h]

@[simp] theorem keeps_execVmaxFloat (f : Fields) (s : State) (h : s.dram.wf = true) : Keeps (execVmaxFloat f s) := by
  simp [execVmaxFloat, h]

@[simp] theorem keeps_execVabsFloat (f : Fields) (s : State) (h : s.dram.wf = true) : Keeps (execVabsFloat f s) := by
  simp [execVabsFloat, h]

@[simp] theorem keeps_execVnegFloat (f : Fields) (s : State) (h : s.dram.wf = true) : Keeps (execVnegFloat f s) := by
  simp [execVnegFloat, h]

@[simp] theorem keeps_execVclass (f : Fields) (s : State) (h : s.dram.wf = true) : Keeps (execVclass f s) := by simp [execVclass, h]

@[simp] theorem keeps_execVscale (f : Fields) (s : State) (h : s.dram.wf = true) : Keeps (execVscale f s) := by simp [execVscale, h]

@[simp] theorem keeps_execVlse (f : Fields) (s : State) (h : s.dram.wf = true) : Keeps (execVlse f s) := by simp [execVlse, h]

@[simp] theorem keeps_execVrint (f : Fields) (s : State) (h : s.dram.wf = true) : Keeps (execVrint f s) := by simp [execVrint, h]

@[simp] theorem keeps_execVcmpFloat (f : Fields) (s : State) (h : s.dram.wf = true) : Keeps (execVcmpFloat f s) := by
  simp [execVcmpFloat, h]

/-! ### Watches (Watch) -/

@[simp] theorem keeps_execHoldTimeout (core islot : Nat) (s : State) (h : s.dram.wf = true) : Keeps (execHoldTimeout core islot s) := by
  unfold execHoldTimeout
  split <;> simp [h]

@[simp] theorem keeps_execRegangTimeout (core slot : Nat) (s : State) (h : s.dram.wf = true) : Keeps (execRegangTimeout core slot s) := by
  unfold execRegangTimeout
  split <;> simp [h]

@[simp] theorem keeps_execLdfeTimeout (core slot lane : Nat) (s : State) (h : s.dram.wf = true) : Keeps
    (execLdfeTimeout core slot lane s) := by
  unfold execLdfeTimeout
  (repeat' split) <;> simp [h]

@[simp] theorem dram_barWaitTrap (s : State) (core slot : Nat) (w : Wait) (e : Nat) : (s.barWaitTrap core slot w e).dram = s.dram := by
  unfold State.barWaitTrap
  split <;> simp

@[simp] theorem wf_barWalk (s : State) (core : Nat) (w : Wait) (b : BarAt) (h : s.dram.wf = true) :
    (s.barWalk core w b).dram.wf = true := by
  unfold State.barWalk
  (repeat' split) <;> simp [h]

@[simp] theorem wf_barAgain (s : State) (core slot : Nat) (w : Wait) (h : s.dram.wf = true) : (s.barAgain core slot w).dram.wf = true := by
  unfold State.barAgain
  simp only []
  (repeat' split) <;> simp [h]

@[simp] theorem dram_barTimeout (s : State) (core slot : Nat) (w : Wait) : (s.barTimeout core slot w).dram = s.dram := by
  unfold State.barTimeout
  split <;> simp

@[simp] theorem keeps_execBarrierWaitRecheck (core slot : Nat) (s : State) (h : s.dram.wf = true) :
    Keeps (execBarrierWaitRecheck core slot s) := by
  unfold execBarrierWaitRecheck
  (repeat' split) <;> simp +contextual [h]

@[simp] theorem keeps_execBarrierWaitTimeout (core slot : Nat) (s : State) (h : s.dram.wf = true) :
    Keeps (execBarrierWaitTimeout core slot s) := by simp [execBarrierWaitTimeout, h]

@[simp] theorem keeps_execEccError (core slot : Nat) (source : BitVec 8) (va : DWord) (s : State) (h : s.dram.wf = true) :
    Keeps (execEccError core slot source va s) := by
  unfold execEccError
  (repeat' split) <;> simp [h]

@[simp] theorem dram_countSample (before : State) (islot : Nat) (s : State) : (State.countSample before islot s).dram = s.dram := by
  simp [State.countSample]

@[simp] theorem keeps_execSampleTag (core islot next : Nat) (level : BitVec 4) (s : State) (h : s.dram.wf = true) :
    Keeps (execSampleTag core islot next level s) := by
  unfold execSampleTag
  split <;> simp [h]

@[simp] theorem keeps_execLinkModuleLoss (s : State) (h : s.dram.wf = true) : Keeps (execLinkModuleLoss s) := by
  simp [execLinkModuleLoss, h]

@[simp] theorem keeps_execModulePowerLoss (s : State) (h : s.dram.wf = true) : Keeps (execModulePowerLoss s) := by
  simp [execModulePowerLoss, h]

/-! ### Dispatch (Dispatch) -/

/-- Each arm of the dispatch has its lemma above. -/
theorem keeps_exec (i : Instr) (s : State) (h : s.dram.wf = true) : Keeps (exec i s) := by
  cases i <;> simp [exec, h]

/-! ### The step (Step) -/

@[simp] theorem keeps_issueMove (before : State) (c g j : Nat) (fly : Bool) (h : before.dram.wf = true) : Keeps
    (before.issueMove c g j fly) := by
  unfold State.issueMove
  split
  · simpa using h
  · have hr := wf_ready before c g j fly h
    split
    · next e => rw [e] at hr; exact (keeps_next _).2 hr
    · next i slot t e =>
      rw [e] at hr
      have hx := keeps_exec i t hr
      split
      · next u e =>
        rw [e, keeps_next] at hx
        rw [keeps_next, dram_countSample]
        exact wf_settle _ _ _ _ hx
      · exact hx

theorem keeps_step (s : State) (h : s.dram.wf = true) : Keeps (step s) := by
  unfold step
  split
  · simp
  · split
    · simp [h]
    · simp [h]
    · simp [h]
    · simp [h]
    · simp [h]
    · split
      · exact keeps_exec _ _ h
      · simpa using h
    · exact keeps_issueMove _ _ _ _ _ h

/-- Settles O60: each kind of move of the agenda keeps DRAM canonical, an instruction or event by the lemma of its arm. -/
theorem stepKeepsMemoryCanonical : Obligations.StepKeepsMemoryCanonical := by
  unfold Obligations.StepKeepsMemoryCanonical
  exact fun s t h e => keeps_step s h t e

end Sys2Proof.Machine
end

/-! SUPPORT and CLAIM. The rules of the host's events, and O50. -/

section

namespace Sys2Proof

theorem SMap.get_map {α : Type} {d : α} (f : α → α) (hd : f d = d) (m : SMap α) (k : Nat) :
    SMap.get d (m.map fun p : Nat × α => (p.1, f p.2)) k = f (m.get d k) := by
  induction m with
  | nil => exact hd.symm
  | cons e m ih =>
    simp only [List.map_cons, SMap.get]
    split
    · rfl
    · exact ih

end Sys2Proof

namespace Sys2Proof.Machine
open Sys2Proof.Claims

/-! ### Host accesses to the register blocks -/

theorem hostPa_mailbox (s : State) (key : Nat) : s.hostPa (mailboxBase + key) = none := by
  unfold State.hostPa mailboxBase nCores
  rw [if_neg (by omega), if_neg (by omega), if_neg (by omega)]

theorem blockKey_mailbox {key : Nat} (h : key < 0x2000000) : blockKey (mailboxBase + key) = some key := by
  unfold blockKey
  rw [if_pos (by omega), Nat.add_sub_cancel_left]

theorem countDelay_of_not_trcnt {s : State} {key : Nat} (h : ∀ n w, hostReg key ≠ some (.trcnt n, w)) : s.countDelay key = s := by
  unfold State.countDelay
  split
  · next e => exact absurd e (h _ _)
  · rfl

/-- The new DELAY over the old DROP. -/
theorem bits_delay {n d : Nat} (hn : n ≤ 0xffffffff) (hd : d < 2 ^ 32) :
    bits (BitVec.ofNat 64 (n * 2 ^ 32 + d)).toNat 0 32 = d ∧ bits (BitVec.ofNat 64 (n * 2 ^ 32 + d)).toNat 32 32 = n := by
  have e : (BitVec.ofNat 64 (n * 2 ^ 32 + d)).toNat = n * 2 ^ 32 + d := by
    rw [BitVec.toNat_ofNat, Nat.mod_eq_of_lt]
    omega
  rw [e]
  unfold bits
  omega

theorem bits_lt (v i n : Nat) : bits v i n < 2 ^ n := Nat.mod_lt _ (Nat.two_pow_pos n)

theorem countDelay_keeps (s : State) (key : Nat) :
    let o := s.countDelay key
    bits (o.hostRegs.get 0 key).toNat 0 32 = bits (s.hostRegs.get 0 key).toNat 0 32 ∧
      bits (s.hostRegs.get 0 key).toNat 32 32 ≤ bits (o.hostRegs.get 0 key).toNat 32 32 ∧
      { o with hostRegs := s.hostRegs, freeCtr := s.freeCtr } = s := by
  unfold State.countDelay
  split
  · simp only [SMap.get_put_same]
    have hd := bits_lt (s.hostRegs.get 0 key).toNat 0 32
    have hn := bits_lt (s.hostRegs.get 0 key).toNat 32 32
    obtain ⟨lo, hi⟩ := bits_delay (n := min 0xffffffff (bits (s.hostRegs.get 0 key).toNat 32 32 + bits (Config.freeValue s.freeCtr).toNat 0 32))
      (by omega) hd
    refine ⟨lo, ?_, trivial⟩
    rw [hi]
    omega
  · exact ⟨rfl, le_refl _, rfl⟩

theorem plainWrite_of_plain {r : HostReg} {m : DWord} (h : r.plain = some m) (s : State) (key : Nat) (v : DWord) :
    s.plainWrite key r v = { s with hostRegs := s.hostRegs.put key (v &&& m) } := by
  unfold State.plainWrite
  split
  · cases h
  · cases h
  · cases h
  · rw [h]

theorem exec_registerWrite {s : State} {key : Nat} (hk : key < 0x2000000) (ho : s.object16 key = none) (size : Nat) (v : DWord) :
    exec (.registerWrite (mailboxBase + key) size v) s = match hostReg key with
      | some (r, w) => if size = w then .next (s.plainWrite key r v) else .next (s.flag 8)
      | none => .next (s.flag 8) := by
  simp only [exec, execRegisterWrite, blockKey_mailbox hk, ho]
  rfl

theorem exec_hostRegisterRead (s : State) {key : Nat} (hk : key < 0x2000000) (size : Nat) :
    exec (.hostMemoryRead (mailboxBase + key) size) s = match (s.countDelay key).blockRead key size with
      | some v => .next { s.countDelay key with hostReads := (s.countDelay key).hostReads ++ [BitVec.ofNat 128 v] }
      | none => .next { (s.countDelay key).flag 8 with hostReads := (s.countDelay key).hostReads ++ [0] } := by
  simp only [exec, execHostMemoryRead, hostPa_mailbox, blockKey_mailbox hk] <;> rfl

theorem hostReads_countDelay (s : State) (key : Nat) : (s.countDelay key).hostReads = s.hostReads := by
  unfold State.countDelay
  split <;> rfl

theorem hostRegisters_holds : hostRegisters := by
  intro s key size hk
  refine ⟨countDelay_of_not_trcnt, countDelay_keeps s key, fun v e => ?_, fun e => ?_, fun v ho => ⟨fun r m hr hm => ?_, fun hw => ?_⟩⟩
  · rw [exec_hostRegisterRead s hk, e]
    simp only [hostReads_countDelay]
  · rw [exec_hostRegisterRead s hk, e]
    simp only [hostReads_countDelay]
  · refine ⟨{ s with hostRegs := s.hostRegs.put key (v &&& m) }, ?_, SMap.get_put_same .., fun k h => SMap.get_put_other _ _ _ h, rfl⟩
    rw [exec_registerWrite hk ho, hr]
    simp only [if_pos, plainWrite_of_plain hm]
  · rw [exec_registerWrite hk ho]
    split
    · next r w e => rw [if_neg (Ne.symm (hw r w e))]
    · rfl

/-! ### Invalidations -/

theorem core_dropCode_all (s : State) (c : Nat) : (s.dropCode fun _ => true).core c = { s.core c with icache := [] } :=
  SMap.get_map (fun k : CoreSt => { k with icache := [] }) rfl s.cores c

/-- A core without the translations that an invalidation names. -/
def CoreSt.invalidated (v : DWord) (k : CoreSt) : CoreSt := { k with tlb := k.tlb.filter fun e => !invMatches v e }

/-- A cluster without the translations that an invalidation names. -/
def Cluster.invalidated (v : DWord) (x : Cluster) : Cluster := { x with tlb := x.tlb.filter fun e => !invMatches v e }

/-- The state once the invalidation `v` is complete. -/
def State.invalidated (s : State) (v : DWord) (rest : List (DWord × Nat)) : State :=
  { s with
    tlbQ := rest
    tlbCnt := s.tlbCnt + 1
    cores := s.cores.map fun (q : Nat × CoreSt) => (q.1, q.2.invalidated v)
    clusters := s.clusters.map fun (q : Nat × Cluster) => (q.1, q.2.invalidated v) }.dropCode fun _ => true

theorem exec_tlbInvalidateComplete {s : State} {v : DWord} {since : Nat} {rest : List (DWord × Nat)} (e : s.tlbQ = (v, since) :: rest) :
    exec .tlbInvalidateComplete s = if s.pends.any (invAccess v) then .next s else .next (s.invalidated v rest) := by
  simp only [exec, execTlbInvalidateComplete, e]
  rfl

theorem core_invalidated (s : State) (v : DWord) (rest : List (DWord × Nat)) (c : Nat) :
    (s.invalidated v rest).core c = { (s.core c).invalidated v with icache := [] } := by
  rw [State.invalidated, core_dropCode_all]
  exact congrArg (fun k : CoreSt => { k with icache := [] }) (SMap.get_map (d := {}) (CoreSt.invalidated v) rfl s.cores c)

theorem cluster_invalidated (s : State) (v : DWord) (rest : List (DWord × Nat)) (k : Nat) :
    (s.invalidated v rest).cluster k = (s.cluster k).invalidated v :=
  SMap.get_map (Cluster.invalidated v) rfl s.clusters k

theorem invalidations_holds : invalidations := by
  refine ⟨fun v s => rfl, fun v since rest s e => ⟨fun ⟨p, hp, hm⟩ => ?_, fun hno => ⟨s.invalidated v rest, ?_, rfl, rfl, fun c => ?_, fun k => ?_, rfl⟩⟩⟩
  · rw [exec_tlbInvalidateComplete e, if_pos (List.any_eq_true.mpr ⟨p, hp, hm⟩)]
  · rw [exec_tlbInvalidateComplete e, if_neg (by simpa using hno)]
  · rw [core_invalidated]
    exact ⟨rfl, rfl, rfl⟩
  · rw [cluster_invalidated]
    exact ⟨rfl, rfl⟩

/-! ### Entries of the completion queue -/

theorem cqPost_of_room {s : State} (h : room s) (e : CqEntry) : s.cqPost e = s.cqWrite e := by
  obtain ⟨hover, -, hwait, hfree⟩ := h
  unfold State.cqPost
  rw [hover, hwait]
  split
  · rw [if_pos]
    simp only [List.isEmpty_nil, Bool.true_and, decide_eq_true_eq]
    omega
  · rw [if_pos]
    simpa using hfree

theorem cqWrite_of_not_graphFault (s : State) {e : CqEntry} (h : e.kind ≠ kindGraphFault) :
    s.cqWrite e = { s with
      cq := s.cq.put s.cqTail e.bits, cqTail := (s.cqTail + 1) % 4096, irqs := if s.cqTail = s.cqHead then s.irqs + 1 else s.irqs } := by
  simp [State.cqWrite, h]

theorem told_cqWrite (s : State) (e : CqEntry) : Told s (s.cqWrite e) e := by
  unfold State.cqWrite
  constructor
  · simp only []
    split <;> exact SMap.get_put_same ..
  · simp only []
    split <;> rfl
  · simp only []
    split <;> rfl

/-- A message posted with room, of a kind that no walker waits for. -/
theorem cqPost_eq {s : State} (h : room s) {e : CqEntry} (hk : e.kind ≠ kindGraphFault) :
    s.cqPost e = { s with
      cq := s.cq.put s.cqTail e.bits, cqTail := (s.cqTail + 1) % 4096, irqs := if s.cqTail = s.cqHead then s.irqs + 1 else s.irqs } := by
  rw [cqPost_of_room h, cqWrite_of_not_graphFault s hk]

theorem told_cqPost {s : State} (h : room s) (e : CqEntry) : Told s (s.cqPost e) e := by
  rw [cqPost_of_room h]
  exact told_cqWrite s e

/-! ### Doorbells -/

theorem takesDoorbell_iff {s : State} {n : Nat} (h : n < nCores) : s.takesDoorbell n = true ↔ coreUp s n := by
  simp [State.takesDoorbell, coreUp, h, and_assoc]

theorem any_doorbell_iff (l : List HWork) :
    (l.any fun w => match w with
      | .doorbell _ => true
      | .trap _ => false) = true ↔ ∃ q, HWork.doorbell q ∈ l := by
  rw [List.any_eq_true]
  constructor
  · rintro ⟨w, hw, e⟩
    cases w with
    | doorbell q => exact ⟨q, hw⟩
    | trap t => cases e
  · rintro ⟨q, hq⟩
    exact ⟨_, hq, rfl⟩

theorem endClaim_of_none {s : State} {c g : Nat} (h : (s.gang c g).claim = none) :
    s.endClaim c g = s.modGang c g fun x => { x with claim := none } := by
  simp [State.endClaim, h]

theorem unlockL1_of_unlocked {s : State} {c g : Nat} (p : Nat → Bool) (h : ∀ e ∈ (s.core c).l1, lockId c g ∉ e.2.lock) :
    s.unlockL1 c g p = s := by
  have e : ((s.core c).l1.filter fun e => p e.1 && e.2.lock.contains (lockId c g)) = [] :=
    List.filter_eq_nil_iff.mpr fun e he => by simp [h e he]
  unfold State.unlockL1
  rw [e]
  rfl

theorem unlockL2_of_unlocked {s : State} {c g : Nat} (p : Nat → Bool) (h : ∀ e ∈ (s.cluster (clusterOf c)).l2, lockId c g ∉ e.2.lock) :
    s.unlockL2 c g p = s := by
  have e : ((s.cluster (clusterOf c)).l2.filter fun e => p e.1 && e.2.lock.contains (lockId c g)) = [] :=
    List.filter_eq_nil_iff.mpr fun e he => by simp [h e he]
  unfold State.unlockL2
  simp only [e]
  rfl

theorem releaseLocks_of_unlocked {s : State} {c g : Nat} (h1 : ∀ e ∈ (s.core c).l1, lockId c g ∉ e.2.lock)
    (h2 : ∀ e ∈ (s.cluster (clusterOf c)).l2, lockId c g ∉ e.2.lock) : s.releaseLocks c g = s := by
  unfold State.releaseLocks
  rw [unlockL1_of_unlocked _ h1, unlockL2_of_unlocked _ h2]

theorem monitorDoorbell_of_down {s : State} {n : Nat} (v : DWord) (hn : n < nCores) (h : ¬ coreUp s n) :
    exec (.monitorDoorbell n v) s = .next s ∧ exec (.handlerRestart n v) s = .next s := by
  have hd : s.takesDoorbell n = false := by rw [← Bool.not_eq_true, takesDoorbell_iff hn]; exact h
  simp [exec, execMonitorDoorbell, execHandlerRestart, hd]

theorem monitorDoorbell_taken {s : State} {n : Nat} {v : DWord} (hn : n < nCores) (hup : coreUp s n) (hv : v.getLsbD 63 = false)
    (hno : ∀ q, HWork.doorbell q ∉ (s.core n).work) :
    exec (.monitorDoorbell n v) s = .next (s.modCore n fun k => { k with work := k.work ++ [.doorbell (v.extractLsb' 0 16)] }) := by
  have hw := mt (any_doorbell_iff _).mp (not_exists.mpr hno)
  simp only [exec, execMonitorDoorbell, (takesDoorbell_iff hn).mpr hup, hv]
  exact if_neg hw

theorem monitorDoorbell_discarded {s : State} {n : Nat} {v : DWord} (hn : n < nCores) (hup : coreUp s n) (hv : v.getLsbD 63 = false)
    (hex : ∃ q, HWork.doorbell q ∈ (s.core n).work) :
    exec (.monitorDoorbell n v) s = .next ({ s with freeCtr := s.freeCtr + 1 }.cqPost
      { payload := Config.freeValue s.freeCtr, tag := 0, src := BitVec.ofNat 16 n, cause := 0xff, kind := kindMonitor }) := by
  have hw := (any_doorbell_iff _).mpr hex
  simp only [exec, execMonitorDoorbell, (takesDoorbell_iff hn).mpr hup, hv]
  exact if_pos hw

def State.withPends (s : State) (l : List Pend) : State := { s with pends := l }

@[simp] theorem core_withPends (s : State) (l : List Pend) (c : Nat) : (s.withPends l).core c = s.core c := rfl

/-- What a restarted handler's accesses still owe goes to nobody. -/
def State.disowned (s : State) (n : Nat) : List Pend :=
  s.pends.map fun (p : Pend) => if p.core == n && p.slot == handlerSlot then { p with slot := 16, dst := none } else p

/-- The trap that a handler served, to be served again. -/
def servedAgain : Option Serving → List HWork
  | some (.trap x _) => [.trap x]
  | _ => []

/-- The core `n` with its handler begun anew. -/
def CoreSt.restarted (n : Nat) (k : CoreSt) : CoreSt :=
  { k with
    feWait := k.feWait.filter (·.slot != handlerSlot)
    gangs := k.gangs.put handlerSlot (freshHandler n)
    hStopped := false
    work := servedAgain k.serving ++ k.work
    serving := none }

theorem exec_handlerRestart {s : State} {n : Nat} {v : DWord} (hn : n < nCores) (hup : coreUp s n) (hv : v.getLsbD 63 = true)
    (hclaim : (s.gang n handlerSlot).claim = none) (h1 : ∀ e ∈ (s.core n).l1, lockId n handlerSlot ∉ e.2.lock)
    (h2 : ∀ e ∈ (s.cluster (clusterOf n)).l2, lockId n handlerSlot ∉ e.2.lock) :
    exec (.handlerRestart n v) s = .next
      (((s.modGang n handlerSlot fun x => { x with claim := none }).withPends (s.disowned n)).modCore n (CoreSt.restarted n)) := by
  show execHandlerRestart n v s = _
  unfold execHandlerRestart
  rw [(takesDoorbell_iff hn).mpr hup, hv, endClaim_of_none hclaim,
    releaseLocks_of_unlocked (s := s.modGang n handlerSlot _) (by simpa [State.modGang, State.setGang] using h1) h2]
  rfl

theorem exists_modCore (s : State) (c : Nat) (f : CoreSt → CoreSt) : ∃ x, s.modCore c f = { s with cores := x } := ⟨_, rfl⟩

theorem exists_modGang (s : State) (c g : Nat) (f : Gang → Gang) : ∃ x, s.modGang c g f = { s with cores := x } := ⟨_, rfl⟩

theorem restarted_rest (s : State) (n g : Nat) (f : Gang → Gang) (l : List Pend) (h : CoreSt → CoreSt) :
    { ((s.modGang n g f).withPends l).modCore n h with cores := s.cores, pends := s.pends } = s := by
  obtain ⟨x, e⟩ := exists_modGang s n g f
  obtain ⟨y, e'⟩ := exists_modCore ((s.modGang n g f).withPends l) n h
  rw [e', e]
  rfl

theorem doorbells_holds : doorbells := by
  intro n v s hn
  refine ⟨monitorDoorbell_of_down v hn, fun hup hv hno => ?_, fun hup hv hex hr => ?_, fun hup hv hclaim h1 h2 => ?_⟩
  · refine ⟨_, monitorDoorbell_taken hn hup hv hno, ?_, ?_, fun c hc => core_modCore_other _ _ hc, rfl⟩ <;> rw [core_modCore_same]
  · refine ⟨_, Config.freeValue s.freeCtr, monitorDoorbell_discarded hn hup hv hex, ?_, ?_⟩
    · rw [cqPost_eq (s := { s with freeCtr := s.freeCtr + 1 }) hr (e := { kind := kindMonitor, .. }) (show kindMonitor ≠ kindGraphFault by decide)]
    · have ht := told_cqPost (s := { s with freeCtr := s.freeCtr + 1 }) hr
        { payload := Config.freeValue s.freeCtr, tag := 0, src := BitVec.ofNat 16 n, cause := 0xff, kind := kindMonitor }
      exact ⟨ht.entry, ht.tail, ht.irqs⟩
  · refine ⟨_, exec_handlerRestart hn hup hv hclaim h1 h2, ?_⟩
    have hwork : ((((s.modGang n handlerSlot fun x => { x with claim := none }).withPends (s.disowned n)).modCore n
        (CoreSt.restarted n)).core n).work = servedAgain (s.core n).serving ++ (s.core n).work := by
      simp [CoreSt.restarted, State.modGang, State.setGang]
    refine ⟨?_, ?_, ?_, fun x va e => ?_, fun hno => ?_, fun g hg => ?_, fun c hc => ?_, ?_, restarted_rest s n handlerSlot _ _ _⟩
    · simp [State.gang, CoreSt.restarted]
    · simp [CoreSt.restarted]
    · simp [CoreSt.restarted]
    · rw [hwork, e]
      rfl
    · rw [hwork]
      unfold servedAgain
      split
      · next e => exact absurd e (hno _ _)
      · rfl
    · simp [State.gang, CoreSt.restarted, State.modGang, State.setGang, SMap.get_put_other _ _ _ hg]
    · rw [core_modCore_other _ _ hc, core_withPends]
      exact core_modCore_other s _ hc
    · simp [State.withPends, State.disowned]

/-! ### The queue's head -/

theorem cqDrain_of_empty {s : State} (h1 : s.cqOver = []) (h2 : s.cqHeld = []) (h3 : s.cqWait = []) (n : Nat) : State.cqDrain n s = s := by
  cases n with
  | zero => rfl
  | succ n => simp [State.cqDrain, h1, h2, h3]

theorem settleFault_of_none {s : State} {w : Nat} (h : ∀ r, (s.walker w).run = some r → r.fault = none) : s.settleFault w = s := by
  have e : (s.runOf w).fault = none := by
    unfold State.runOf
    cases hr : (s.walker w).run with
    | none => rfl
    | some r => exact h r hr
  simp [State.settleFault, e]

theorem settleFaults_of_none {s : State} (h : ∀ w r, (s.walker w).run = some r → r.fault = none) : s.settleFaults = s := by
  unfold State.settleFaults
  induction s.walkers.map (·.1) with
  | nil => rfl
  | cons w l ih => rw [List.foldl_cons, settleFault_of_none (h w), ih]

/-- A walker after the host has taken `d` entries from the queue's head: idle, if its fault was among them. -/
def Walker.passed (head d : Nat) (x : Walker) : Walker :=
  match x.faultAt with
  | some i => if (i + 4096 - head) % 4096 < d then { x with st := 0, faultAt := none } else x
  | none => x

theorem run_passed (head d : Nat) (x : Walker) : (x.passed head d).run = x.run := by
  unfold Walker.passed
  split
  · split <;> rfl
  · rfl

/-- The state with the queue's head at `n`. -/
def State.headMoved (s : State) (n : Nat) : State :=
  { s with
    walkers := s.walkers.map fun p => (p.1, p.2.passed s.cqHead ((n + 4096 - s.cqHead) % 4096))
    cqHead := n
    irqs := if n ≠ s.cqTail then s.irqs + 1 else s.irqs }

theorem walker_headMoved (s : State) (n w : Nat) :
    (s.headMoved n).walker w = (s.walker w).passed s.cqHead ((n + 4096 - s.cqHead) % 4096) :=
  SMap.get_map (d := ({} : Walker)) (Walker.passed s.cqHead ((n + 4096 - s.cqHead) % 4096)) rfl s.walkers w

theorem map_passed (head d : Nat) (l : SMap Walker) :
    (l.map fun (p : Nat × Walker) => match p.2.faultAt with
      | some i => if (i + 4096 - head) % 4096 < d then (p.1, { p.2 with st := 0, faultAt := none }) else p
      | none => p) = l.map fun p => (p.1, p.2.passed head d) := by
  refine List.map_congr_left fun p _ => ?_
  unfold Walker.passed
  split
  · split <;> rfl
  · rfl

theorem exec_cqHeadWrite {s : State} {v : DWord} (hv : v.toNat < 4096)
    (hd : (v.toNat + 4096 - s.cqHead) % 4096 ≤ (s.cqTail + 4096 - s.cqHead) % 4096) (h1 : s.cqOver = []) (h2 : s.cqHeld = [])
    (h3 : s.cqWait = []) (hf : ∀ w r, (s.walker w).run = some r → r.fault = none) :
    exec (.cqHeadWrite v) s = .next (s.headMoved v.toNat) := by
  have e : exec (.cqHeadWrite v) s = .next ((s.headMoved v.toNat).cqDrain (s.cqOver.length + s.cqHeld.length + s.cqWait.length + 1)).settleFaults := by
    show execCqHeadWrite v s = _
    unfold execCqHeadWrite
    simp only []
    rw [if_neg (by omega), State.headMoved, ← map_passed] <;> rfl
  rw [e, cqDrain_of_empty (s := s.headMoved v.toNat) h1 h2 h3, settleFaults_of_none]
  intro w r hr
  rw [walker_headMoved, run_passed] at hr
  exact hf w r hr

theorem headMoves_holds : headMoves := by
  intro v s hv hd h1 h2 h3 hf
  refine ⟨_, exec_cqHeadWrite hv hd h1 h2 h3 hf, rfl, ?_, fun w => ?_, rfl⟩
  · simp [State.headMoved]
  · rw [walker_headMoved]
    rfl

/-! ### Kills -/

theorem releaseEdges_of_nil {s : State} {w : Nat} (h : (s.runOf w).edges = []) : s.releaseEdges w = s := by
  simp [State.releaseEdges, h]

theorem SMap.get_of_all {α : Type} {P : α → Prop} {d : α} (hd : P d) {m : SMap α} (h : ∀ p ∈ m, P p.2) (k : Nat) : P (m.get d k) := by
  induction m with
  | nil => exact hd
  | cons p m ih =>
    unfold SMap.get
    split
    · exact h p List.mem_cons_self
    · exact ih fun q hq => h q (List.mem_cons_of_mem _ hq)

theorem drainTraces_of_empty {s : State} (h : ∀ p ∈ s.cores, p.2.trq = []) : s.drainTraces = s := by
  unfold State.drainTraces
  induction s.cores.map (·.1) with
  | nil => rfl
  | cons c l ih =>
    have e : (s.core c).trq = [] := SMap.get_of_all (P := fun k : CoreSt => k.trq = []) rfl h c
    rw [List.foldl_cons, e, if_pos List.isEmpty_nil, ih]

/-- Nothing but walker `w` differs. -/
structure OnlyWalker (s t : State) (w : Nat) : Prop where
  rest : t = { s with walkers := t.walkers }
  others : ∀ k, k ≠ w → t.walker k = s.walker k

theorem OnlyWalker.trans {s t u : State} {w : Nat} (h : OnlyWalker s t w) (h' : OnlyWalker t u w) : OnlyWalker s u w := by
  refine ⟨?_, fun k hk => (h'.others k hk).trans (h.others k hk)⟩
  rw [h'.rest, h.rest]

theorem onlyWalker_setWalker (s : State) (w : Nat) (x : Walker) : OnlyWalker s (s.setWalker w x) w :=
  ⟨rfl, fun k hk => by simp [State.walker, State.setWalker, SMap.get_put_other _ _ _ hk]⟩

theorem onlyWalker_modRun (s : State) (w : Nat) (f : Run → Run) : OnlyWalker s (s.modRun w f) w := onlyWalker_setWalker s w _

theorem walker_modRun_same {s : State} {w : Nat} {r : Run} (h : (s.walker w).run = some r) (f : Run → Run) :
    (s.modRun w f).walker w = { s.walker w with run := some (f r) } := by
  simp [State.modRun, State.setRun, State.runOf, h]

theorem showStall_of_idle {s : State} {w : Nat} {r : Run} (h : (s.walker w).run = some r) (hf : r.firings = []) :
    s.showStall w = s.setWalker w { s.walker w with st := 1 } := by
  simp [State.showStall, h, hf]

theorem OnlyWalker.workDone_eq {s t : State} {w : Nat} (h : OnlyWalker s t w) (k : Nat) : t.workDone k = s.workDone k := by
  rw [h.rest]
  rfl

theorem OnlyWalker.cqTakes_eq {s t : State} {w : Nat} (h : OnlyWalker s t w) : t.cqTakes = s.cqTakes := by
  rw [h.rest]
  rfl

theorem edgesOpen_of_nil {s : State} {w : Nat} (h : (s.runOf w).edges = []) : s.edgesOpen w = true := by simp [State.edgesOpen, h]

/-- A faulted run with no firing left: it waits with WSTAT 1, and writes its fault once nothing keeps it. -/
theorem settleFault_of_idle {s : State} {w c : Nat} {p : DWord} {r : Run} (h : (s.walker w).run = some r) (hf : r.firings = [])
    (he : r.edges = []) (hfault : r.fault = some (c, p)) :
    ∃ t, OnlyWalker s t w ∧ t.walker w = { s.walker w with st := 1, run := some r } ∧
      s.settleFault w = if s.workDone w && s.cqTakes then t.writeFault w c p else t := by
  have hrun : ((s.setRun w r).walker w).run = some r := by simp [State.setRun]
  have hstall := showStall_of_idle hrun hf
  have hsame : { r with firings := r.firings.filter fun (f : Firing) => f.give.isNone || f.edge.isSome } = r := by rw [hf, List.filter_nil, ← hf]
  have ho : OnlyWalker s ((s.setRun w r).showStall w) w := by
    rw [hstall]
    exact (onlyWalker_setWalker s w _).trans (onlyWalker_setWalker _ w _)
  have hw : ((s.setRun w r).showStall w).walker w = { s.walker w with st := 1, run := some r } := by
    rw [hstall, walker_setWalker_same]
    simp [State.setRun]
  have hopen : ((s.setRun w r).showStall w).edgesOpen w = true := edgesOpen_of_nil (by simp [State.runOf, hw, he])
  refine ⟨_, ho, hw, ?_⟩
  unfold State.settleFault
  rw [show s.runOf w = r by simp [State.runOf, h]]
  simp only [hsame]
  simp only [hfault, h, Option.isSome_some, if_true]
  simp only [hw, hf, List.filter_nil, List.isEmpty_nil, Option.isSome_some, Bool.true_and, hopen, Bool.and_true, ho.workDone_eq, ho.cqTakes_eq]

/-- The run that RUNKILL leaves: its first fault, no entry, its chains and launches alone. -/
def Run.killedBy (r : Run) : Run :=
  { r with
    fault := some (r.fault.getD (0x0b, 0xffffffff)), entry := none, killed := true
    firings := r.firings.filter fun f => f.give.isNone && (f.chain != 0 || f.ltag != 0) }

theorem exec_runkill {s : State} {v : DWord} {w : Nat} (hb : bits v.toNat 0 9 = w) (hw : w < 384) (h0 : (s.walker w).st ≠ 0)
    (h3 : (s.walker w).st ≠ 3) {r : Run} (hr : (s.walker w).run = some r) (hl : s.launchesOf w = []) :
    ∃ u, exec (.runkill v) s = .next (u.settleFault w) ∧ OnlyWalker s u w ∧ u.walker w = { s.walker w with run := some r.killedBy } := by
  refine ⟨_, ?_, (onlyWalker_modRun s w fun r => { r with fault := some (r.fault.getD (0x0b, 0xffffffff)), entry := none, killed := true }).trans
    (onlyWalker_modRun _ w fun r => { r with firings := r.firings.filter fun f => f.give.isNone && (f.chain != 0 || f.ltag != 0) }), ?_⟩
  · show execRunkill v s = _
    unfold execRunkill
    simp only [hb]
    rw [if_neg (by simp only [not_or]; exact ⟨by omega, h0, h3⟩)]
    have hl' (f : Run → Run) : (s.modRun w f).launchesOf w = [] := hl
    rw [hl', List.foldl_nil]
  · rw [walker_modRun_same (r := { r with fault := some (r.fault.getD (0x0b, 0xffffffff)), entry := none, killed := true }),
      walker_modRun_same hr]
    · rfl
    · rw [walker_modRun_same hr]

theorem writeFault_of_idle {s : State} {w : Nat} (c : Nat) (p : DWord) (he : (s.runOf w).edges = []) (ht : ∀ q ∈ s.cores, q.2.trq = []) :
    s.writeFault w c p = (s.setWalker w { s.walker w with st := 3, run := none }).cqPost
      { payload := p, tag := (s.walker w).tag, src := BitVec.ofNat 16 w, cause := BitVec.ofNat 8 c, kind := kindGraphFault } := by
  unfold State.writeFault
  rw [drainTraces_of_empty ht, releaseEdges_of_nil he]

theorem cqTakes_of_room {s : State} (h : room s) : s.cqTakes = true := by
  obtain ⟨hover, -, hwait, hfree⟩ := h
  simp [State.cqTakes, hover, hwait, hfree]

theorem cqWrite_graphFault (s : State) {w : Nat} (hw : w < 384) {e : CqEntry} (hk : e.kind = kindGraphFault) (hsrc : e.src = BitVec.ofNat 16 w) :
    s.cqWrite e = { s with
      cq := s.cq.put s.cqTail e.bits, cqTail := (s.cqTail + 1) % 4096, irqs := if s.cqTail = s.cqHead then s.irqs + 1 else s.irqs
      walkers := s.walkers.put w { s.walker w with faultAt := some s.cqTail } } := by
  have hn : e.src.toNat = w := by rw [hsrc, BitVec.toNat_ofNat]; omega
  unfold State.cqWrite
  rw [if_pos hk, hn]
  rfl

/-- A run's fault written with room for it: the walker's place, and what stays. -/
theorem writeFault_told {s : State} {w : Nat} (hw : w < 384) (c : Nat) (p : DWord) (hr : room s) (he : (s.runOf w).edges = [])
    (ht : ∀ q ∈ s.cores, q.2.trq = []) :
    (s.writeFault w c p).walker w = { s.walker w with st := 3, run := none, faultAt := some s.cqTail } ∧
      (∀ k, k ≠ w → (s.writeFault w c p).walker k = s.walker k) ∧ (s.writeFault w c p).dram = s.dram ∧
      (s.writeFault w c p).cores = s.cores ∧ (s.writeFault w c p).blocks = s.blocks ∧
      Told s (s.writeFault w c p)
        { payload := p, tag := (s.walker w).tag, src := BitVec.ofNat 16 w, cause := BitVec.ofNat 8 c, kind := kindGraphFault } := by
  have hroom : room (s.setWalker w { s.walker w with st := 3, run := none }) := hr
  have htold := told_cqPost hroom
    { payload := p, tag := (s.walker w).tag, src := BitVec.ofNat 16 w, cause := BitVec.ofNat 8 c, kind := kindGraphFault }
  rw [writeFault_of_idle c p he ht]
  rw [cqPost_of_room hroom, cqWrite_graphFault _ hw rfl rfl] at *
  refine ⟨?_, fun k hk => ?_, rfl, rfl, rfl, ⟨htold.entry, htold.tail, htold.irqs⟩⟩
  · simp [State.walker, State.setWalker]
  · simp [State.walker, State.setWalker, SMap.get_put_other _ _ _ hk]

/-- A kill of a run with no firing left: the state it leaves, or its fault. -/
theorem runkill_of_idle {s : State} {v : DWord} {w : Nat} (hb : bits v.toNat 0 9 = w) (hw : w < 384) (h0 : (s.walker w).st ≠ 0)
    (h3 : (s.walker w).st ≠ 3) {r : Run} (hr : (s.walker w).run = some r) (hf : r.firings = []) (he : r.edges = [])
    (hl : s.launchesOf w = []) :
    ∃ t, OnlyWalker s t w ∧ t.walker w = { s.walker w with st := 1, run := some r.killedBy } ∧
      exec (.runkill v) s = .next (if s.workDone w && s.cqTakes then
        t.writeFault w (r.fault.getD (0x0b, 0xffffffff)).1 (r.fault.getD (0x0b, 0xffffffff)).2 else t) := by
  obtain ⟨u, hexec, hu, huw⟩ := exec_runkill hb hw h0 h3 hr hl
  obtain ⟨t, ht, htw, hs⟩ := settleFault_of_idle (s := u) (w := w) (r := r.killedBy) (c := (r.fault.getD (0x0b, 0xffffffff)).1)
    (p := (r.fault.getD (0x0b, 0xffffffff)).2) (by rw [huw]) (by simp [Run.killedBy, hf]) he rfl
  refine ⟨t, hu.trans ht, by rw [htw, huw], ?_⟩
  rw [hexec, hs, hu.workDone_eq, hu.cqTakes_eq]

theorem kills_holds : kills := by
  intro v r s hlt w h0 h3 hr hf he hl
  obtain ⟨t, ht, htw, hexec⟩ := runkill_of_idle (w := w) rfl hlt h0 h3 hr hf he hl
  refine ⟨fun hdone => ?_, fun hdone htrq hroom => ?_⟩
  · rw [hdone] at hexec
    refine ⟨t, hexec, ?_, by rw [htw], r.killedBy, by rw [htw], rfl, rfl, rfl⟩
    rw [ht.rest]
  · rw [hdone, cqTakes_of_room hroom, Bool.and_self, if_pos rfl] at hexec
    have hroom' : room t := by rw [ht.rest]; exact hroom
    have htrq' : ∀ q ∈ t.cores, q.2.trq = [] := by rw [ht.rest]; exact htrq
    have hedges : (t.runOf w).edges = [] := by
      rw [State.runOf, htw]
      exact he
    obtain ⟨hw, hother, hdram, hcores, hblocks, htold⟩ := writeFault_told (w := w) hlt (r.fault.getD (0x0b, 0xffffffff)).1
      (r.fault.getD (0x0b, 0xffffffff)).2 hroom' hedges htrq'
    have hq : t.cqTail = s.cqTail ∧ t.irqs = s.irqs ∧ t.cqHead = s.cqHead ∧ t.dram = s.dram ∧ t.cores = s.cores ∧ t.blocks = s.blocks := by
      rw [ht.rest]
      exact ⟨rfl, rfl, rfl, rfl, rfl, rfl⟩
    obtain ⟨htail, hirqs, hhead, hd, hc, hb⟩ := hq
    obtain ⟨hentry, ht', hi⟩ := htold
    rw [htw] at hentry hw
    rw [htail] at hentry ht' hi hw
    rw [hirqs, hhead] at hi
    exact ⟨_, hexec, by rw [hw], by rw [hw], by rw [hw], fun k hk => (hother k hk).trans (ht.others k hk), hdram.trans hd,
      hcores.trans hc, hblocks.trans hb, ⟨hentry, ht', hi⟩⟩

/-! ### Accesses of a walker leave the walkers, the host's registers and the accesses in flight -/

/-- What no access to memory touches: the walkers, the host's registers and the accesses in flight. -/
def State.hostPart (s : State) : SMap Walker × SMap DWord × List Pend := (s.walkers, s.hostRegs, s.pends)

@[simp] theorem hostPart_ite (c : Prop) {_ : Decidable c} (a b : State) :
    (if c then a else b).hostPart = if c then a.hostPart else b.hostPart := apply_ite State.hostPart c a b

@[simp] theorem hostPart_foldl {α : Type} {f : State → α → State} (hf : ∀ s a, (f s a).hostPart = s.hostPart) (l : List α) (s : State) :
    (l.foldl f s).hostPart = s.hostPart := by
  induction l generalizing s with
  | nil => rfl
  | cons a l ih => rw [List.foldl_cons, ih, hf]

@[simp] theorem hostPart_modCore (s : State) (c : Nat) (f : CoreSt → CoreSt) : (s.modCore c f).hostPart = s.hostPart := rfl

@[simp] theorem hostPart_modCluster (s : State) (k : Nat) (f : Cluster → Cluster) : (s.modCluster k f).hostPart = s.hostPart := rfl

@[simp] theorem hostPart_setCluster (s : State) (k : Nat) (x : Cluster) : (s.setCluster k x).hostPart = s.hostPart := rfl

@[simp] theorem hostPart_readEntry (s : State) (r e : Nat) : (s.readEntry r e).hostPart = s.hostPart := by
  unfold State.readEntry
  split <;> rfl

@[simp] theorem hostPart_askHome (s : State) (c pa : Nat) : (s.askHome c pa).hostPart = s.hostPart := by simp [State.askHome]

@[simp] theorem hostPart_dropCopies (s : State) (k sb : Nat) (p : Nat → Bool) : (s.dropCopies k sb p).hostPart = s.hostPart := by
  simp [State.dropCopies]

@[simp] theorem hostPart_setMoesi (s : State) (k sb : Nat) (x : Moesi) : (s.setMoesi k sb x).hostPart = s.hostPart := by
  simp [State.setMoesi]

@[simp] theorem hostPart_countSnoop (s : State) (bus k : Nat) : (s.countSnoop bus k).hostPart = s.hostPart := rfl

@[simp] theorem hostPart_setL2 (s : State) (k la : Nat) (l : Line) : (s.setL2 k la l).hostPart = s.hostPart := rfl

@[simp] theorem hostPart_homeWrite (s : State) (k pa n v : Nat) : (s.homeWrite k pa n v).hostPart = s.hostPart := by
  unfold State.homeWrite
  split <;> rfl

@[simp] theorem hostPart_cohWrite (s : State) (pa n v : Nat) : (s.cohWrite pa n v).hostPart = s.hostPart := rfl

@[simp] theorem hostPart_l2WriteBack (s : State) (k la : Nat) : (s.l2WriteBack k la).hostPart = s.hostPart := by simp [State.l2WriteBack]

@[simp] theorem hostPart_l2WriteUnit (s : State) (k la : Nat) : (s.l2WriteUnit k la).hostPart = s.hostPart := by simp [State.l2WriteUnit]

@[simp] theorem hostPart_l2Evict (s : State) (k sb : Nat) : (s.l2Evict k sb).hostPart = s.hostPart := by simp [State.l2Evict]

@[simp] theorem hostPart_sendMsg (s : State) (bus k core frames : Nat) (body : MsgBody) (ltag : Half) :
    (s.sendMsg bus k core frames body ltag).1.hostPart = s.hostPart := rfl

@[simp] theorem hostPart_inject (s : State) (src dst : Nat) (l : Launch) (rc addr : Nat) (body : PktBody) :
    (s.inject src dst l rc addr body).hostPart = s.hostPart :=
  hostPart_readEntry s (s.physOf src) dst

theorem hostPart_evicting (s : State) (l : List Nat) : { s with evicting := l }.hostPart = s.hostPart := rfl

@[simp] theorem hostPart_loseCoherent (s : State) (k sb : Nat) : (s.loseCoherent k sb).hostPart = s.hostPart := by
  unfold State.loseCoherent
  simp only []
  split
  · simp
  · rw [hostPart_evicting, hostPart_inject, hostPart_sendMsg, hostPart_modCluster, hostPart_setMoesi]

@[simp] theorem hostPart_l2Shrink (s : State) (k sb : Nat) (keep : List Nat) : (s.l2Shrink k sb keep).hostPart = s.hostPart := by
  unfold State.l2Shrink
  simp only []
  split
  · simp
  · rfl

@[simp] theorem hostPart_l2Room (s : State) (k sb : Nat) (keep : List Nat) : (s.l2Room k sb keep).hostPart = s.hostPart := by
  simp [State.l2Room]

@[simp] theorem hostPart_snoopOthers (s : State) (k sb : Nat) (sn : Snoop) : (s.snoopOthers k sb sn).hostPart = s.hostPart := by
  simp [State.snoopOthers]

@[simp] theorem hostPart_own (s : State) (k sb : Nat) : (s.own k sb).hostPart = s.hostPart := by
  unfold State.own
  split
  · rfl
  · simp
  · show (State.setMoesi _ k sb .m).hostPart = _
    simp

@[simp] theorem hostPart_share (s : State) (k sb : Nat) : (s.share k sb).hostPart = s.hostPart := by
  unfold State.share
  split
  · rfl
  · show (State.setMoesi _ k sb _).hostPart = _
    simp

@[simp] theorem hostPart_askCoh (s : State) (c pa : Nat) (writes : Bool) : (s.askCoh c pa writes).hostPart = s.hostPart := by
  simp [State.askCoh]

@[simp] theorem hostPart_readWalk (s : State) (c : Nat) (asn : Half) (root va : Nat) : (s.readWalk c asn root va).hostPart = s.hostPart := by
  simp [State.readWalk]

@[simp] theorem hostPart_askWalk (s : State) (c : Nat) (asn : Half) (root va : Nat) : (s.askWalk c asn root va).hostPart = s.hostPart := by
  simp [State.askWalk]

@[simp] theorem hostPart_agWalk (s : State) (a : Agent) (va : Nat) : (s.agWalk a va).hostPart = s.hostPart := by
  simp [State.agWalk, State.queueWalk]

@[simp] theorem hostPart_memAtomic (s : State) (c : Nat) (t : Trans) (n : Nat) (f : Nat → Option Nat) :
    (s.memAtomic c t n f).1.hostPart = s.hostPart := by
  unfold State.memAtomic
  simp only []
  split <;> simp

theorem hostPart_agAtomic (s : State) (a : Agent) (va n : Nat) (f : Nat → Option Nat) :
    IfOk (fun t => t.1.hostPart = s.hostPart) (s.agAtomic a va n f) := by
  unfold State.agAtomic
  split
  · trivial
  · split
    · trivial
    · refine iteInduction (motive := IfOk _) (fun _ => trivial) fun _ => ?_
      split
      · trivial
      · simp

theorem hostPart_claimEdges (s : State) (w : Nat) (es : List (Edge × Nat)) : IfOk (fun t => t.hostPart = s.hostPart) (s.claimEdges w es) := by
  induction es generalizing s with
  | nil => rfl
  | cons e es ih =>
    unfold State.claimEdges
    split
    · trivial
    · next e =>
      split
      · exact (ih _).mono fun u hu => hu.trans ((hostPart_agAtomic _ _ _ _ _).of_eq e)
      · trivial

/-! ### Starting a run -/

theorem exec_walkerStart_refused {s : State} {w c : Nat} {v : DWord} (hw : w < 384) (h : s.startRefusal w v = some c) :
    exec (.walkerStart w v) s = .next (s.cqPost
      { payload := v, tag := v.extractLsb' 48 16, src := BitVec.ofNat 16 w, cause := BitVec.ofNat 8 c, kind := kindStartRefused }) := by
  show execWalkerStart w v s = _
  unfold execWalkerStart
  rw [if_neg (by omega), h]

theorem exec_walkerStart {s : State} {w : Nat} {v : DWord} (hw : w < 384) (h : s.startRefusal w v = none) :
    exec (.walkerStart w v) s = .next (s.startRun w v) := by
  show execWalkerStart w v s = _
  unfold execWalkerStart
  rw [if_neg (by omega), h]

/-- The walker out of idle, with the run that its registers name. -/
def State.starting (s : State) (w : Nat) (v : DWord) : State :=
  { s.setWalker w { st := 1, tag := v.extractLsb' 48 16, run := some (s.runAt w v) } with hostRegs := s.hostRegs.put (0x39000 + 8 * w) 0 }

theorem startRun_of_ok {s u : State} {w h : Nat} {v : DWord} {l : List Edge} (hregs : (s.runAt w v).regsBad = false)
    (hread : (s.starting w v).imageRead w (s.runAt w v).base 0 64 = .ok h) (hhead : headerOk h = true)
    (hedges : (s.starting w v).imageEdges w (s.runAt w v).base (bits h 0 32) (bits h 32 32) = .ok l)
    (hclaim : (s.starting w v).claimEdges w l.zipIdx = .ok u) :
    s.startRun w v = u.setRun w { s.runAt w v with nnode := bits h 0 32, entry := some (bits h 64 32), edges := l } := by
  have e : (s.starting w v).openRun w (s.runAt w v) =
      .ok (u.setRun w { s.runAt w v with nnode := bits h 0 32, entry := some (bits h 64 32), edges := l }) := by
    unfold State.openRun
    rw [hregs, hread]
    simp only [hhead, hedges, hclaim]
    rfl
  unfold State.startRun
  simp only []
  split
  · next e' => exact Except.ok.inj (e'.symm.trans e)
  · next e' => cases e'.symm.trans e

theorem walkerStarts_holds : walkerStarts := by
  intro w v s hw
  refine ⟨fun c hc hr => ?_, fun h l u hnone => ?_⟩
  · have ht := told_cqPost hr
      { payload := v, tag := v.extractLsb' 48 16, src := BitVec.ofNat 16 w, cause := BitVec.ofNat 8 c, kind := kindStartRefused }
    refine ⟨_, exec_walkerStart_refused hw hc, ?_, ht⟩
    rw [cqPost_eq hr (show kindStartRefused ≠ kindGraphFault by decide)]
  · intro reg base r o hregs hread hhead hedges hclaim
    have hpart : u.hostPart = o.hostPart := (hostPart_claimEdges o w _).of_eq hclaim
    obtain ⟨hwalk, hrest⟩ := Prod.mk.inj hpart
    obtain ⟨hhost, -⟩ := Prod.mk.inj hrest
    have hu (k : Nat) : u.walker k = o.walker k := congrArg (fun m => SMap.get ({} : Walker) m k) hwalk
    have ho : o.walker w = { st := 1, tag := v.extractLsb' 48 16, run := some r } := walker_setWalker_same s w _
    refine ⟨_, _, (exec_walkerStart hw hnone).trans (congrArg _ (startRun_of_ok hregs hread hhead hedges hclaim)), ?_, ?_, ?_, rfl, fun k hk => ?_, ?_⟩
    · simp [State.setRun, hu, ho]
    · simp [State.setRun, hu, ho]
    · exact congrArg Walker.run (walker_setWalker_same u w _)
    · exact ((onlyWalker_setWalker u w _).others k hk).trans ((hu k).trans ((onlyWalker_setWalker s w _).others k hk))
    · show u.hostRegs.get 0 _ = 0
      rw [hhost]
      exact SMap.get_put_same ..

/-! ### What a message to the host changes -/

/-- From `s` to `t` the host has been told something: the queue, the messages behind it, CQOVF, a black box and free values. -/
structure Messages (s t : State) : Prop where
  mgmt : t.mgmt = s.mgmt ∨ t.mgmt = s.mgmt ||| 0x400
  rest : t = { s with
    mgmt := t.mgmt, freeCtr := t.freeCtr, irqs := t.irqs, cq := t.cq, cqTail := t.cqTail, cqOver := t.cqOver, cqHeld := t.cqHeld
    cqWait := t.cqWait, bbox := t.bbox }

theorem Messages.refl (s : State) : Messages s s := ⟨.inl rfl, rfl⟩

theorem Messages.trans {s t u : State} (h : Messages s t) (h' : Messages t u) : Messages s u := by
  refine ⟨?_, by rw [h'.rest, h.rest]⟩
  rcases h'.mgmt with e' | e' <;> rcases h.mgmt with e | e <;> rw [e', e]
  · exact .inl rfl
  · exact .inr rfl
  · exact .inr rfl
  · exact .inr (by rw [BitVec.or_assoc, BitVec.or_self])

theorem messages_foldl {α : Type} {f : State → α → State} (hf : ∀ s a, Messages s (f s a)) (l : List α) (s : State) :
    Messages s (l.foldl f s) := by
  induction l generalizing s with
  | nil => exact .refl s
  | cons a l ih => exact (hf s a).trans (ih _)

theorem messages_cqPost (s : State) {e : CqEntry} (h : e.kind ≠ kindGraphFault) : Messages s (s.cqPost e) := by
  unfold State.cqPost
  rw [cqWrite_of_not_graphFault s h]
  split
  · split
    · exact ⟨.inl rfl, rfl⟩
    · simp only []
      split
      · exact ⟨.inr rfl, rfl⟩
      · split
        · exact ⟨.inr rfl, rfl⟩
        · split <;> exact ⟨.inr rfl, rfl⟩
  · split <;> exact ⟨.inl rfl, rfl⟩

theorem messages_message (s : State) {kind : BitVec 8} (h : kind ≠ kindGraphFault) (src cause payload : Nat) :
    Messages s (s.message kind src cause payload) := messages_cqPost s h

theorem messages_freeCtr (s : State) (n : Nat) : Messages s { s with freeCtr := n } := ⟨.inl rfl, rfl⟩

theorem messages_bboxEvent (s : State) (field kind source data : Nat) : Messages s (s.bboxEvent field kind source data) := ⟨.inl rfl, rfl⟩

theorem messages_bboxOpen (s : State) (field kind : Nat) : Messages s (s.bboxOpen field kind) := ⟨.inl rfl, rfl⟩

theorem messages_openMessage (s : State) {kind : BitVec 8} (h : kind ≠ kindGraphFault) (src : Nat) : Messages s (s.openMessage kind src) :=
  (messages_freeCtr s _).trans (messages_message _ h _ _ _)

theorem messages_darkMessage (s : State) : Messages s s.darkMessage :=
  ((messages_freeCtr s _).trans (messages_openMessage _ (by decide) _)).trans (messages_bboxOpen _ _ _)

/-! ### Bring-up -/

theorem phase_eq (s : State) : s.phase = (s.mgmt.extractLsb' 2 2).toNat := by
  simp [State.phase, bits, BitVec.extractLsb'_toNat, Nat.shiftRight_eq_div_pow]

/-- MGMT_STAT with PHASE `n`. -/
def atPhase (m : DWord) (n : Nat) : DWord := (m &&& ~~~0xc) ||| BitVec.ofNat 64 (n * 4)

theorem extract_atPhase_2 (m : DWord) : (atPhase m 2).extractLsb' 2 2 = 2#2 := by
  simp [atPhase, BitVec.extractLsb'_or, BitVec.extractLsb'_and]

theorem extract_atPhase_3 (m : DWord) : (atPhase m 3).extractLsb' 2 2 = 3#2 := by
  simp [atPhase, BitVec.extractLsb'_or, BitVec.extractLsb'_and]

/-- MGMT_STAT without the flags that a write names. -/
def unflagged (m v : DWord) : DWord := m &&& ~~~(v &&& 0xff0)

theorem getLsbD_unflagged {m v : DWord} {i : Nat} (h : (0xff0 : DWord).getLsbD i = false) (hi : i < 64) : (unflagged m v).getLsbD i = m.getLsbD i := by
  rw [unflagged, BitVec.getLsbD_and, BitVec.getLsbD_not, BitVec.getLsbD_and, h]
  simp [hi]

/-- A write of MGMT_STAT that names the phase it is in. -/
theorem mgmtWrite_same {s : State} {v : DWord} (h : bits v.toNat 2 2 = s.phase) (dark : List (Nat × Nat)) :
    s.mgmtWrite v dark = { s with mgmt := unflagged s.mgmt v } := by
  unfold State.mgmtWrite
  exact if_pos h

/-- A write of MGMT_STAT that names neither the phase nor the next. -/
theorem mgmtWrite_skips {s : State} {v : DWord} (h : bits v.toNat 2 2 ≠ s.phase) (h' : bits v.toNat 2 2 ≠ s.phase + 1) (dark : List (Nat × Nat)) :
    s.mgmtWrite v dark = { s with mgmt := unflagged s.mgmt v ||| 0x10 } := by
  unfold State.mgmtWrite
  exact (if_neg h).trans (if_pos h')

theorem mgmtWrite_1 {s : State} {v : DWord} (h : bits v.toNat 2 2 = 1) (hp : s.phase = 0) (dark : List (Nat × Nat)) :
    s.mgmtWrite v dark = { s with mgmt := if s.mgmt.getLsbD 0 then atPhase (unflagged s.mgmt v) 1 else unflagged s.mgmt v ||| 0x10 } := by
  have e : (unflagged s.mgmt v).getLsbD 0 = s.mgmt.getLsbD 0 := getLsbD_unflagged (by decide) (by decide)
  unfold State.mgmtWrite
  refine (if_neg (by omega)).trans ((if_neg (by omega)).trans ((if_pos h).trans ?_))
  by_cases hm : s.mgmt.getLsbD 0 = true
  · rw [if_pos hm]
    refine (if_pos (e.trans hm)).trans ?_
    rw [h]
    rfl
  · rw [if_neg hm]
    exact if_neg (by rw [← e] at hm; exact hm)

/-- The state that enters phase 2, before the dark groups are told. -/
def State.planeEntered (s : State) (v : DWord) (dark : List (Nat × Nat)) : State :=
  { s with mgmt := atPhase (unflagged s.mgmt v) 2, deadGroups := dark }

/-- The state in phase 2, the host told of each dark group. -/
def State.planeTold (s : State) (v : DWord) (dark : List (Nat × Nat)) : State :=
  (dark.foldl (fun (s : State) _ => s.darkMessage) (s.planeEntered v dark)).flag 1

theorem mgmtWrite_2 {s : State} {v : DWord} (h : bits v.toNat 2 2 = 2) (hp : s.phase = 1) (dark : List (Nat × Nat)) :
    s.mgmtWrite v dark = if s.tablesOk then s.planeTold v (dark.filter fun p => p.1 < 16 && p.2 < 200)
      else { s with mgmt := unflagged s.mgmt v ||| 0x10 } := by
  unfold State.mgmtWrite
  refine (if_neg (by omega)).trans ((if_neg (by omega)).trans ((if_neg (by omega)).trans ((if_pos h).trans ?_)))
  rw [h]
  rfl

theorem mgmtWrite_3 {s : State} {v : DWord} (h : bits v.toNat 2 2 = 3) (hp : s.phase = 2) (dark : List (Nat × Nat)) :
    s.mgmtWrite v dark = if s.mgmt.getLsbD 1 then { s with mgmt := atPhase (unflagged s.mgmt v) 3 }.enterRunning
      else { s with mgmt := unflagged s.mgmt v ||| 0x10 } := by
  have e : (unflagged s.mgmt v).getLsbD 1 = s.mgmt.getLsbD 1 := getLsbD_unflagged (by decide) (by decide)
  unfold State.mgmtWrite
  refine (if_neg (by omega)).trans ((if_neg (by omega)).trans ((if_neg (by omega)).trans ((if_neg (by omega)).trans ?_)))
  rw [← e, h]
  rfl

theorem planeEntered_told {s : State} {v : DWord} (dark : List (Nat × Nat)) {t : State} (h : Messages (s.planeEntered v dark) t) :
    (t.flag 1).phase = 2 ∧ (t.flag 1).mgmt.getLsbD 1 = true ∧ (t.flag 1).deadGroups = dark ∧ (t.flag 1).tbl = s.tbl ∧
      (t.flag 1).cores = s.cores ∧ (t.flag 1).clusters = s.clusters ∧ (t.flag 1).dram = s.dram := by
  have hm : t.mgmt.extractLsb' 2 2 = 2#2 := by
    rcases h.mgmt with e | e
    · rw [e]
      exact extract_atPhase_2 _
    · rw [e, BitVec.extractLsb'_or, show (s.planeEntered v dark).mgmt = atPhase _ 2 from rfl, extract_atPhase_2]
      decide
  refine ⟨?_, ?_, ?_⟩
  · rw [phase_eq, State.flag, BitVec.extractLsb'_or, hm]
    decide
  · simp [State.flag]
  · unfold State.flag
    rw [h.rest]
    exact ⟨rfl, rfl, rfl, rfl, rfl⟩

theorem SMap.get_map_keys {α : Type} (d : α) (f : Nat → α) {l : List Nat} {k : Nat} (h : k ∈ l) : SMap.get d (l.map fun i => (i, f i)) k = f k := by
  induction l with
  | nil => cases h
  | cons i l ih =>
    simp only [List.map_cons, SMap.get]
    split
    · next e => rw [e]
    · next e => exact ih ((List.mem_cons.mp h).resolve_left fun e' => e e'.symm)

/-- Every core of the list gets its handler anew. -/
def State.freshHandlers (s : State) (l : List Nat) : State := l.foldl (fun s c => s.setGang c handlerSlot (freshHandler c)) s

theorem exists_freshHandlers (s : State) (l : List Nat) : ∃ x, s.freshHandlers l = { s with cores := x } := by
  induction l generalizing s with
  | nil => exact ⟨s.cores, rfl⟩
  | cons c l ih =>
    obtain ⟨x, e⟩ := ih (s.setGang c handlerSlot (freshHandler c))
    exact ⟨x, e⟩

theorem gang_freshHandlers_other (s : State) (l : List Nat) (c : Nat) {g : Nat} (h : g ≠ handlerSlot) :
    (s.freshHandlers l).gang c g = s.gang c g := by
  induction l generalizing s with
  | nil => rfl
  | cons q l ih =>
    refine (ih _).trans ?_
    by_cases hc : c = q
    · rw [hc, gang_setGang_slot _ _ _ h]
    · rw [gang_setGang_core _ _ _ _ hc]

theorem gang_freshHandlers (s : State) {l : List Nat} {c : Nat} (h : c ∈ l ∨ s.gang c handlerSlot = freshHandler c) :
    (s.freshHandlers l).gang c handlerSlot = freshHandler c := by
  induction l generalizing s with
  | nil => exact h.resolve_left (by simp)
  | cons q l ih =>
    refine ih _ ?_
    by_cases hc : c = q
    · exact .inr (by rw [hc, gang_setGang_same])
    · rw [gang_setGang_core _ _ _ _ hc]
      exact h.imp_left fun hm => (List.mem_cons.mp hm).resolve_left hc

/-- A cluster as phase 3 begins. -/
def State.clusterEntered (s : State) (k : Nat) : Cluster :=
  let r := s.region (regionOf k)
  { s.cluster k with
    inPool := r.st == .on && decide (r.stage < 3), pool := 1, freq := if r.stage < 2 then 14 else 10, thr := decide (2 ≤ r.stage)
    nextFreq := none, epoch := 0, frames := s.now, rxTo := s.now, idleSince := s.now }

/-- The state that enters phase 3, before the handlers begin. -/
def State.entered (s : State) : State :=
  { s with
    hroot := s.hostRegs.get 0 0x34000
    hentry := s.hostRegs.get 0 0x34008
    hfbase := s.hostRegs.get 0 0x34010
    upds := []
    clusters := (List.range 192).map fun k => (k, s.clusterEntered k) }

theorem enterRunning_eq (s : State) : s.enterRunning = (s.entered.freshHandlers (List.range nCores)).dropCode fun _ => true := rfl

theorem exists_enterRunning (s : State) : ∃ x, s.enterRunning = { s.entered with cores := x } := by
  obtain ⟨x, e⟩ := exists_freshHandlers s.entered (List.range nCores)
  rw [enterRunning_eq, e]
  exact ⟨_, rfl⟩

theorem cluster_enterRunning (s : State) {k : Nat} (h : k < 192) : s.enterRunning.cluster k = s.clusterEntered k := by
  obtain ⟨x, e⟩ := exists_enterRunning s
  have hk := SMap.get_map_keys ({} : Cluster) s.clusterEntered (List.mem_range.mpr h)
  rw [e, ← hk]
  rfl

theorem core_enterRunning (s : State) (c : Nat) :
    s.enterRunning.core c = { (s.entered.freshHandlers (List.range nCores)).core c with icache := [] } := by
  rw [enterRunning_eq, core_dropCode_all]

theorem gang_of_core {s t : State} {c : Nat} (h : s.core c = { t.core c with icache := [] }) (g : Nat) : s.gang c g = t.gang c g := by
  rw [State.gang, h]
  rfl

theorem gang_enterRunning (s : State) (c g : Nat) : s.enterRunning.gang c g = (s.entered.freshHandlers (List.range nCores)).gang c g :=
  gang_of_core (core_enterRunning s c) g

theorem phase3_entered {s t : State} {v : DWord} (h : t = { s with mgmt := atPhase (unflagged s.mgmt v) 3 }.enterRunning) :
    t.phase = 3 ∧ t.hroot = s.hostRegs.get 0 0x34000 ∧ t.hentry = s.hostRegs.get 0 0x34008 ∧ t.hfbase = s.hostRegs.get 0 0x34010 ∧
      t.upds = [] ∧ t.tbl = s.tbl ∧ t.dram = s.dram := by
  obtain ⟨x, e⟩ := exists_enterRunning { s with mgmt := atPhase (unflagged s.mgmt v) 3 }
  rw [e] at h
  subst h
  refine ⟨?_, rfl, rfl, rfl, rfl, rfl, rfl⟩
  rw [phase_eq]
  show ((atPhase (unflagged s.mgmt v) 3).extractLsb' 2 2).toNat = 3
  rw [extract_atPhase_3]
  rfl

theorem bringUp_holds : bringUp := by
  intro v s named at'
  refine ⟨fun hp checked => ?_, fun hp checked => ?_, fun hb hp => ?_, fun hb hp ht dark => ?_, fun hb hp ht dark => ?_, fun hb hp hm => ?_,
    fun hb hp hm => ?_, fun hb => ?_, fun hb hp => ?_⟩
  · simp only [exec, execDefectMapWrite, hp, coreMapWords, ne_eq, not_true_eq_false, if_false, Nat.lt_succ_iff]
    congr
  · simp only [exec, execDefectMapWrite, hp, ne_eq, not_false_eq_true, if_true]
    rfl
  · simp only [exec, execPhaseTables, hb, if_true, mgmtWrite_1 hb hp]
    rfl
  · refine ⟨s.planeTold v (dark.filter fun p => p.1 < 16 && p.2 < 200), ?_,
      planeEntered_told _ (messages_foldl (fun s _ => messages_darkMessage s) _ (s.planeEntered v _))⟩
    simp only [exec, execPhasePlane, hb, if_true, mgmtWrite_2 hb hp, ht]
  · simp only [exec, execPhasePlane, hb, if_true, mgmtWrite_2 hb hp, ht]
    rfl
  · simp only [exec, execPhaseRunning, hb, if_true, mgmtWrite_3 hb hp, hm]
    rfl
  · obtain ⟨t, ht⟩ : ∃ t, t = { s with mgmt := atPhase (unflagged s.mgmt v) 3 }.enterRunning := ⟨_, rfl⟩
    obtain ⟨h1, h2, h3, h4, h5, h6, h7⟩ := phase3_entered ht
    refine ⟨t, ?_, h1, h2, h3, h4, h5, h6, h7, fun k hk => ?_, fun c hc => ?_, fun c => ?_, fun c g hg => ?_⟩
    · simp only [exec, execPhaseRunning, hb, if_true, mgmtWrite_3 hb hp, hm, ht]
    · rw [ht, cluster_enterRunning _ hk]
      exact ⟨rfl, rfl, rfl, rfl, rfl, rfl, rfl⟩
    · have hm : c ∈ List.range nCores := List.mem_range.mpr hc
      rw [ht, gang_enterRunning, gang_freshHandlers _ (Or.inl hm)]
    · rw [ht, core_enterRunning]
    · rw [ht, gang_enterRunning, gang_freshHandlers_other _ _ _ hg]
      rfl
  · simp only [exec, execMgmtStatFlagClear, hb, true_or, if_true, mgmtWrite_same hb]
    rfl
  · simp only [exec, execMgmtStatFlagClear, hb, or_true, if_true]
    rw [mgmtWrite_skips (by omega) (by omega)]
    rfl

/-! ### The host's beacons -/

theorem beaconSent_sendBeacon (s : State) (k : Nat) (kind : BeaconKind) : beaconSent s (s.sendBeacon k kind) k kind :=
  ⟨_, rfl, rfl, rfl, rfl, rfl, rfl, rfl⟩

/-- From `s` to `t` a beacon of the host has been sent or kept. -/
structure Beaconed (s t : State) (k : BeaconKind) : Prop where
  out : beaconOut s t k
  rest : t = { s with
    nextId := t.nextId, msgs := t.msgs, msgSeq := t.msgSeq, txFree := t.txFree, beacons := t.beacons, beaconSeq := t.beaconSeq
    beaconsKept := t.beaconsKept }

theorem hostBeacon_of_room {s : State} (h : s.hostKept < 1024) (k : BeaconKind) : ∃ t, s.hostBeacon k = some t ∧ Beaconed s t k := by
  unfold State.hostBeacon
  rw [if_neg (by omega)]
  split
  · next hs =>
    obtain ⟨hon, hkept⟩ := hs
    have hkept' : s.beaconsKept = [] := List.isEmpty_iff.mp hkept
    exact ⟨_, rfl, ⟨fun _ _ => ⟨beaconSent_sendBeacon s _ k, hkept'⟩, fun hno => absurd hno (by simp [hon, hkept'])⟩, rfl⟩
  · next hs =>
    refine ⟨_, rfl, ⟨fun hon hkept => absurd ⟨hon, by simp [hkept]⟩ hs, fun _ => ⟨rfl, rfl⟩⟩, rfl⟩

theorem hostBeacon_of_full {s : State} (h : 1024 ≤ s.hostKept) (k : BeaconKind) : s.hostBeacon k = none := if_pos h

theorem beaconOut_of_eq {s t u : State} {k : BeaconKind} (h : beaconOut s t k) (h1 : u.beacons = t.beacons)
    (h2 : u.beaconsKept = t.beaconsKept) : beaconOut s u k := by
  unfold beaconOut beaconSent at *
  rw [h1, h2]
  exact h

/-! ### The routers' tables and bindings -/

theorem lastUpd_append (c core : Nat) (e : Word) (l : List (Nat × Word)) :
    lastUpd c (l ++ [(core, e)]) = if core = c then some e else lastUpd c l := by
  unfold lastUpd
  rw [List.reverse_append]
  by_cases h : core = c
  · simp [h]
  · simp [h]

theorem exec_tableLoad {v : DWord} {s : State} (hp : s.phase = 1) :
    exec (.tableLoad v) s = if s.entryAllowed (fun c => s.tbl.get 0 c) (bits v.toNat 32 14) (entryBitsOf v) then
      .next { s with tbl := s.tbl.put (bits v.toNat 32 14) (entryBitsOf v) } else .next { s with mgmt := s.mgmt ||| 0x80 } := by
  show execTableLoad v s = _
  unfold execTableLoad
  refine (if_neg (by simp [hp])).trans ?_
  cases s.entryAllowed (fun c => s.tbl.get 0 c) (bits v.toNat 32 14) (entryBitsOf v) <;> rfl

theorem exec_tableUpdate {v : DWord} {s : State} (hp : s.phase = 3)
    (ha : s.entryAllowed s.tableNow (bits v.toNat 32 14) (entryBitsOf v) = true) :
    exec (.tableUpdate v) s = match s.hostBeacon (.table (bits v.toNat 32 14) (entryBitsOf v)) with
      | none => .next { s with mgmt := s.mgmt ||| 0x800 }
      | some t => .next ({ t.countAnew (bits v.toNat 32 14) (entryBitsOf v) with upds := t.upds ++ [(bits v.toNat 32 14, entryBitsOf v)] }.bboxEvent
          (fieldOf (bits v.toNat 32 14)) 5 (bits v.toNat 32 14) (entryBitsOf v).toNat) := by
  show execTableUpdate v s = _
  unfold execTableUpdate
  refine (if_neg (by simp [hp])).trans ((if_neg (by simp [ha])).trans ?_)
  rfl

theorem exec_tableUpdate_illegal {v : DWord} {s : State} (hp : s.phase = 3)
    (ha : s.entryAllowed s.tableNow (bits v.toNat 32 14) (entryBitsOf v) = false) :
    exec (.tableUpdate v) s = .next { s with mgmt := s.mgmt ||| 0x80 } := by
  show execTableUpdate v s = _
  unfold execTableUpdate
  exact (if_neg (by simp [hp])).trans (if_pos (by simp [ha]))

/-- The state once an update of entry `core` is accepted, its beacon in `t`. -/
def State.updated (t : State) (core : Nat) (e : Word) : State :=
  { t.countAnew core e with upds := t.upds ++ [(core, e)] }.bboxEvent (fieldOf core) 5 core e.toNat

theorem exists_countAnew (t : State) (core : Nat) (e : Word) : ∃ x, t.countAnew core e = { t with regions := x } := by
  unfold State.countAnew
  simp only []
  split
  · exact ⟨_, rfl⟩
  · exact ⟨t.regions, rfl⟩

theorem updated_accepted {s t : State} {core : Nat} {e : Word} (h : Beaconed s t (.table core e)) :
    (t.updated core e).upds = s.upds ++ [(core, e)] ∧ (t.updated core e).tableNow core = e ∧
      (∀ c, c ≠ core → (t.updated core e).tableNow c = s.tableNow c) ∧ beaconOut s (t.updated core e) (.table core e) ∧
      (t.updated core e).tbl = s.tbl ∧ (t.updated core e).dram = s.dram ∧ (t.updated core e).cores = s.cores ∧
      (t.updated core e).clusters = s.clusters := by
  obtain ⟨x, hx⟩ := exists_countAnew t core e
  have hupds : t.upds = s.upds := by rw [h.rest]
  obtain ⟨htbl, hdram, hcores, hclusters⟩ : t.tbl = s.tbl ∧ t.dram = s.dram ∧ t.cores = s.cores ∧ t.clusters = s.clusters := by
    rw [h.rest]
    exact ⟨rfl, rfl, rfl, rfl⟩
  have hnow (c : Nat) : (t.updated core e).tableNow c = if core = c then e else s.tableNow c := by
    unfold State.updated State.tableNow State.bboxEvent
    rw [hx]
    simp only [hupds, htbl, lastUpd_append]
    split <;> rfl
  unfold State.updated State.bboxEvent at *
  rw [hx] at *
  refine ⟨by rw [hupds], (hnow core).trans (if_pos rfl), fun c hc => (hnow c).trans (if_neg hc.symm), beaconOut_of_eq h.out rfl rfl, htbl, hdram,
    hcores, hclusters⟩

/-- A group that no cluster of the bus is bound to now. -/
def spareGroup (s : State) (bus g : Nat) : Prop := 192 ≤ g ∧ g < 200 ∧ ∀ c, c < 192 → s.groupNow bus c ≠ g

/-- A binding the command's rule admits. -/
def bindLegal (s : State) (bus k g : Nat) : Prop := k < 192 ∧ (g = k ∨ spareGroup s bus g)

theorem bindRefused_iff (s : State) (bus k g : Nat) :
    (192 ≤ k ∨ (!((192 ≤ g && g < 200 && (List.range 192).all fun c => s.groupNow bus c != g) || g == k)) = true) ↔ ¬ bindLegal s bus k g := by
  have hspare : (192 ≤ g && g < 200 && (List.range 192).all fun c => s.groupNow bus c != g) = true ↔ spareGroup s bus g := by
    simp [spareGroup, and_assoc]
  rw [bindLegal, Bool.not_eq_true', Bool.or_eq_false_iff, ← Bool.not_eq_true, hspare]
  simp only [beq_eq_false_iff_ne]
  rw [not_and_or, not_lt, not_or, and_comm]

theorem exec_groupBind {v : DWord} {s : State} {bus k g : Nat} (hbus : bus = bits v.toNat 16 4) (hk : k = bits v.toNat 8 8)
    (hg : g = bits v.toNat 0 8) (h : bindLegal s bus k g) :
    exec (.groupBind v) s = match s.hostBeacon (.bind bus k g) with
      | none => .next { s with mgmt := s.mgmt ||| 0x800 }
      | some t => .next ({ t with binds := t.binds ++ [(bus * 192 + k, g)] }.bboxEvent (fieldOfCluster k) 6 k (bus * 256 + g)) := by
  subst hbus hk hg
  show execGroupBind v s = _
  unfold execGroupBind
  refine (if_neg fun hr => (bindRefused_iff s _ _ _).mp hr h).trans ?_
  rfl

theorem exec_groupBind_illegal {v : DWord} {s : State} (h : ¬ bindLegal s (bits v.toNat 16 4) (bits v.toNat 8 8) (bits v.toNat 0 8)) :
    exec (.groupBind v) s = .next { s with mgmt := s.mgmt ||| 0x40 } := by
  show execGroupBind v s = _
  unfold execGroupBind
  exact if_pos ((bindRefused_iff s _ _ _).mpr h)

theorem groupBind_accepts {v : DWord} {s : State} {bus k g : Nat} (hbus : bus = bits v.toNat 16 4) (hk : k = bits v.toNat 8 8)
    (hg : g = bits v.toNat 0 8) (h : bindLegal s bus k g) (hroom : s.hostKept < 1024) :
    ∃ t, exec (.groupBind v) s = .next t ∧ beaconOut s t (.bind bus k g) ∧ t.binds = s.binds ++ [(bus * 192 + k, g)] ∧
      t.clusters = s.clusters := by
  obtain ⟨t, ht, hb⟩ := hostBeacon_of_room hroom (.bind bus k g)
  obtain ⟨hbinds, hclusters⟩ : t.binds = s.binds ∧ t.clusters = s.clusters := by
    rw [hb.rest]
    exact ⟨rfl, rfl⟩
  refine ⟨{ t with binds := t.binds ++ [(bus * 192 + k, g)] }.bboxEvent (fieldOfCluster k) 6 k (bus * 256 + g), ?_,
    beaconOut_of_eq hb.out rfl rfl, congrArg (· ++ _) hbinds, hclusters⟩
  rw [exec_groupBind hbus hk hg h, ht]

theorem tableUpdate_accepts {v : DWord} {s : State} {core : Nat} {e : Word} (hcore : core = bits v.toNat 32 14) (he : e = entryBitsOf v)
    (hp : s.phase = 3) (ha : s.entryAllowed s.tableNow core e = true) (hroom : s.hostKept < 1024) :
    ∃ t, exec (.tableUpdate v) s = .next t ∧ t.upds = s.upds ++ [(core, e)] ∧ t.tableNow core = e ∧
      (∀ c, c ≠ core → t.tableNow c = s.tableNow c) ∧ beaconOut s t (.table core e) ∧ t.tbl = s.tbl ∧ t.dram = s.dram ∧
      t.cores = s.cores ∧ t.clusters = s.clusters := by
  subst hcore he
  obtain ⟨t, ht, hb⟩ := hostBeacon_of_room hroom (.table (bits v.toNat 32 14) (entryBitsOf v))
  refine ⟨t.updated (bits v.toNat 32 14) (entryBitsOf v), ?_, updated_accepted hb⟩
  rw [exec_tableUpdate hp ha, ht]
  rfl

theorem tableUpdate_full {v : DWord} {s : State} (hp : s.phase = 3)
    (ha : s.entryAllowed s.tableNow (bits v.toNat 32 14) (entryBitsOf v) = true) (hfull : 1024 ≤ s.hostKept) :
    exec (.tableUpdate v) s = .next { s with mgmt := s.mgmt ||| 0x800 } := by
  rw [exec_tableUpdate hp ha, hostBeacon_of_full hfull]

theorem tables_holds : tables := by
  intro v s core e
  refine ⟨fun hp ha => ?_, fun hp ha => ?_, fun hp => ?_, fun hp ha hk => tableUpdate_accepts rfl rfl hp ha hk,
    fun hp ha hk => tableUpdate_full hp ha hk, exec_tableUpdate_illegal, ?_⟩
  · exact ⟨{ s with tbl := s.tbl.put core e }, (exec_tableLoad hp).trans (if_pos ha), SMap.get_put_same .., fun c hc => SMap.get_put_other _ _ _ hc, rfl⟩
  · exact (exec_tableLoad hp).trans (if_neg (Bool.not_eq_true _ ▸ ha))
  · exact if_pos hp
  · intro bus k g spare
    refine ⟨fun hk hg hroom => groupBind_accepts rfl rfl rfl ⟨hk, hg⟩ hroom, fun hk hg hfull => ?_, fun hill => ?_⟩
    · rw [exec_groupBind (bus := bus) (k := k) (g := g) rfl rfl rfl ⟨hk, hg⟩, hostBeacon_of_full hfull]
    · refine exec_groupBind_illegal fun ⟨hk, hg⟩ => hill.elim (fun h => absurd hk (not_lt.mpr h)) fun ⟨hne, hns⟩ => hg.elim hne hns

theorem Memory.read_filter (P : Nat → Bool) (m : Memory) (k : Nat) :
    Memory.read (m.filter fun c => P c.1) k = if P k then m.read k else 0 := by
  induction m with
  | nil => simp [Memory.read]
  | cons e m ih =>
    obtain ⟨q, x⟩ := e
    rw [List.filter_cons]
    by_cases hq : P q = true
    · rw [if_pos hq]
      simp only [Memory.read, ih]
      by_cases hk : q = k
      · rw [if_pos hk, if_pos hk, if_pos (hk ▸ hq)]
      · rw [if_neg hk, if_neg hk]
    · rw [if_neg hq, ih]
      simp only [Memory.read]
      by_cases hk : q = k
      · rw [if_neg (hk ▸ hq), if_neg (hk ▸ hq)]
      · rw [if_neg hk]

theorem Memory.read_clear (m : Memory) (a n k : Nat) : (m.clear a n).read k = if a ≤ k ∧ k < a + n then 0 else m.read k := by
  refine (Memory.read_filter (fun x => x < a || a + n ≤ x) m k).trans ?_
  by_cases h : a ≤ k ∧ k < a + n
  · rw [if_pos h, if_neg (by simp; omega)]
  · rw [if_neg h, if_pos (by simp; omega)]

/-! ### Copying a slice -/

/-- The bytes of `l`, each written at its own offset of slice `new`. -/
def copyCells (new : Nat) (l : List Host.Cell) (m : Memory) : Memory := l.foldl (fun (m : Memory) p => m.write (dramKey new p.1) p.2) m

theorem read_copied_other {new k : Nat} {l : List Host.Cell} (h : ∀ c ∈ l, dramKey new c.1 ≠ k) (m : Memory) :
    (copyCells new l m).read k = m.read k := by
  induction l generalizing m with
  | nil => rfl
  | cons c l ih =>
    refine (ih (fun d hd => h d (List.mem_cons_of_mem _ hd)) _).trans ?_
    rw [Memory.read_write, if_neg (h c List.mem_cons_self).symm]

theorem dramKey_inj {new old k x : Nat} (hk : k / 2 ^ 27 = old) (h : dramKey new k = dramKey new x) : k = dramKey old x := by
  unfold dramKey at *
  omega

theorem read_copied {new old x : Nat} {l : List Host.Cell} (hl : l.Pairwise fun a b => a.1 < b.1) (hold : ∀ c ∈ l, c.1 / 2 ^ 27 = old) {m : Memory}
    (hm : m.read (dramKey new x) = 0) : (copyCells new l m).read (dramKey new x) = Memory.read l (dramKey old x) := by
  induction l generalizing m with
  | nil => exact hm
  | cons c l ih =>
    obtain ⟨q, b⟩ := c
    rw [List.pairwise_cons] at hl
    have hq := hold (q, b) List.mem_cons_self
    have hold' : ∀ c ∈ l, c.1 / 2 ^ 27 = old := fun c hc => hold c (List.mem_cons_of_mem _ hc)
    show (copyCells new l (m.write (dramKey new q) b)).read _ = if q = dramKey old x then b else Memory.read l (dramKey old x)
    by_cases h : q = dramKey old x
    · rw [if_pos h, read_copied_other, Memory.read_write, if_pos]
      · subst h
        unfold dramKey
        omega
      · intro c hc e
        have hlt := hl.1 c hc
        have := dramKey_inj (hold' c hc) e
        omega
    · rw [if_neg h]
      refine ih hl.2 hold' ?_
      rw [Memory.read_write, if_neg, hm]
      exact fun e => h (dramKey_inj hq e.symm)

theorem copySlice_dram (s : State) (old new : Nat) : (s.copySlice old new).dram =
    copyCells new (s.dram.filter fun p => p.1 / 2 ^ 27 == old) (s.dram.clear (dramKey new 0) (2 ^ 27)) := rfl

theorem read_copySlice {s : State} (h : s.dram.wf = true) (old new x : Nat) :
    (s.copySlice old new).dram.read (dramKey new x) = s.dram.read (dramKey old x) := by
  rw [copySlice_dram, read_copied (old := old)]
  · refine (Memory.read_filter (fun k => k / 2 ^ 27 == old) s.dram _).trans (if_pos ?_)
    rw [beq_iff_eq]
    unfold dramKey
    omega
  · exact ((Memory.wf_iff _).mp h).1.filter _
  · intro c hc
    simpa using (List.mem_filter.mp hc).2
  · rw [Memory.read_clear, if_pos]
    unfold dramKey
    omega

theorem read_copySlice_other (s : State) (old new x : Nat) (hx : x / 2 ^ 27 ≠ new) : (s.copySlice old new).dram.read x = s.dram.read x := by
  rw [copySlice_dram, read_copied_other, Memory.read_clear, if_neg]
  · unfold dramKey
    omega
  · intro c _ e
    unfold dramKey at e
    omega

theorem exec_sliceCopyComplete {s : State} {src p : Nat} (h : s.slcopy.getLsbD 63 = true) (hs : s.slHeld = some (src, p))
    (hv : entryV (s.tableAt (clusterOf src) src) = true) :
    exec .sliceCopyComplete s = .next { s.copySlice (s.physOf src) p with slcopy := s.slcopy &&& 0x7fffffffffffffff } := by
  show execSliceCopyComplete s = _
  unfold execSliceCopyComplete
  rw [h, hs]
  simp only [hv, if_true]
  rfl

/-- A copy the command's rule admits. -/
def copyLegal (s : State) (v : DWord) : Prop :=
  bits v.toNat 32 14 < nCores ∧ bits v.toNat 15 8 < 144 ∧ bits v.toNat 8 7 < 96 ∧ s.defective (copyDest v) = false ∧
    regionOfPhys (copyDest v) = regionOf (clusterOf (bits v.toNat 32 14)) ∧
    ∀ c, c < nCores → entryV (s.tableNow c) = true → entryPhys (s.tableNow c) ≠ copyDest v

theorem exec_sliceCopy_refused {s : State} {v : DWord} (h : s.slcopy.getLsbD 63 = false) (hv : v.getLsbD 63 = true) (hl : ¬ copyLegal s v) :
    exec (.sliceCopy v) s = .next { s with slcopy := v &&& 0x00003fff007fff00, mgmt := s.mgmt ||| 0x200 } := by
  show execSliceCopy v s = _
  unfold execSliceCopy
  refine (if_neg (by rw [h]; decide)).trans ((if_neg (by rw [hv]; decide)).trans ((if_pos ?_).trans rfl))
  rw [Bool.not_eq_true', ← Bool.not_eq_true]
  intro hok
  refine hl ?_
  simpa [copyLegal, and_assoc, imp_iff_not_or] using hok

theorem exec_sliceCopy_legal {s : State} {v : DWord} (h : s.slcopy.getLsbD 63 = false) (hv : v.getLsbD 63 = true) (hl : copyLegal s v) :
    exec (.sliceCopy v) s = .next { s with
      slcopy := v &&& 0x00003fff007fff00 ||| 0x8000000000000000, slHeld := some (bits v.toNat 32 14, copyDest v) } := by
  show execSliceCopy v s = _
  unfold execSliceCopy
  refine (if_neg (by rw [h]; decide)).trans ((if_neg (by rw [hv]; decide)).trans ((if_neg ?_).trans rfl))
  rw [Bool.not_eq_true', Bool.not_eq_false]
  simpa [copyLegal, and_assoc, imp_iff_not_or] using hl

theorem exec_sliceCopy_off {s : State} {v : DWord} (h : s.slcopy.getLsbD 63 = false) (hv : v.getLsbD 63 = false) :
    exec (.sliceCopy v) s = .next { s with slcopy := v &&& 0x00003fff007fff00 } := by
  show execSliceCopy v s = _
  unfold execSliceCopy
  exact (if_neg (by rw [h]; decide)).trans (if_pos (by rw [hv]; rfl))

/-! ### Asking the blocks of a core to save -/

/-- From `s` to `t` some blocks have been asked to save and nothing else of a block or of a core's hold has changed. -/
structure SavesAsked (s t : State) : Prop where
  launches : t.launches = s.launches
  held : ∀ c, (t.core c).held = (s.core c).held
  ltag : ∀ b, (t.block b).ltag = (s.block b).ltag
  kept : ∀ b, (s.launch (s.block b).ltag.toNat).nimg = 0 → t.block b = s.block b
  asked : ∀ b, (s.block b).saveReq.isSome = true → (t.block b).saveReq.isSome = true

theorem SavesAsked.refl (s : State) : SavesAsked s s := ⟨rfl, fun _ => rfl, fun _ => rfl, fun _ _ => rfl, fun _ h => h⟩

theorem SavesAsked.images {s t : State} (h : SavesAsked s t) (b : Nat) :
    (t.launch (t.block b).ltag.toNat).nimg = (s.launch (s.block b).ltag.toNat).nimg := by
  rw [State.launch, h.launches, h.ltag]
  rfl

theorem SavesAsked.trans {s t u : State} (h : SavesAsked s t) (h' : SavesAsked t u) : SavesAsked s u where
  launches := h'.launches.trans h.launches
  held c := (h'.held c).trans (h.held c)
  ltag b := (h'.ltag b).trans (h.ltag b)
  kept b hb := (h'.kept b ((h.images b).trans hb)).trans (h.kept b hb)
  asked b hb := h'.asked b (h.asked b hb)

/-- From `s` to `t` only gangs of cores have changed, no core's hold. -/
structure GangsOnly (s t : State) : Prop where
  rest : t = { s with cores := t.cores }
  held : ∀ c, (t.core c).held = (s.core c).held

theorem GangsOnly.block {s t : State} (h : GangsOnly s t) (b : Nat) : t.block b = s.block b := by
  rw [h.rest]
  rfl

theorem gangsOnly_foldl {α : Type} {f : State → α → State} (hf : ∀ s a, GangsOnly s (f s a)) (l : List α) (s : State) :
    GangsOnly s (l.foldl f s) := by
  induction l generalizing s with
  | nil => exact ⟨rfl, fun _ => rfl⟩
  | cons a l ih =>
    refine ⟨?_, fun c => ((ih (f s a)).held c).trans ((hf s a).held c)⟩
    rw [List.foldl_cons, (ih (f s a)).rest, (hf s a).rest]

theorem gangsOnly_modGang (s : State) (c g : Nat) (f : Gang → Gang) : GangsOnly s (s.modGang c g f) := by
  refine ⟨rfl, fun d => ?_⟩
  unfold State.modGang State.setGang
  by_cases h : d = c
  · rw [h, core_modCore_same]
  · rw [core_modCore_other _ _ h]

theorem block_modBlock (s : State) (b d : Nat) (f : Block → Block) : (s.modBlock b f).block d = if d = b then f (s.block b) else s.block d := by
  unfold State.modBlock State.setBlock State.block
  by_cases h : d = b
  · rw [if_pos h, h, SMap.get_put_same]
  · rw [if_neg h, SMap.get_put_other _ _ _ h]

theorem askSave_of_some {s : State} {b : Nat} (h : (s.block b).saveReq.isSome = true ∨ (s.launch (s.block b).ltag.toNat).nimg = 0) :
    s.askSave b = s := by
  unfold State.askSave
  refine if_pos ?_
  simpa using h

theorem block_askSave {s : State} {b : Nat} (h : (s.block b).saveReq.isSome = false) (hn : (s.launch (s.block b).ltag.toNat).nimg ≠ 0) :
    GangsOnly (s.modBlock b fun x => { x with saveReq := some (s.now, true) }) (s.askSave b) := by
  unfold State.askSave
  rw [if_neg (by simp [h, hn])]
  exact gangsOnly_foldl (fun s p => gangsOnly_modGang s _ _ _) _ _

theorem savesAsked_askSave (s : State) (b : Nat) : SavesAsked s (s.askSave b) := by
  by_cases h : (s.block b).saveReq.isSome = true ∨ (s.launch (s.block b).ltag.toNat).nimg = 0
  · rw [askSave_of_some h]
    exact .refl s
  · obtain ⟨hs, hn⟩ := not_or.mp h
    have hg := block_askSave (Bool.not_eq_true _ ▸ hs) hn
    refine ⟨by rw [hg.rest]; rfl, fun c => hg.held c, fun d => ?_, fun d hd => ?_, fun d hd => ?_⟩ <;> rw [hg.block, block_modBlock] <;> split
    · next e => rw [e]
    · rfl
    · next e => exact absurd (e ▸ hd) hn
    · rfl
    · rfl
    · exact hd

theorem saveReq_askSave {s : State} {b : Nat} (hn : (s.launch (s.block b).ltag.toNat).nimg ≠ 0) : ((s.askSave b).block b).saveReq.isSome = true := by
  by_cases h : (s.block b).saveReq.isSome = true
  · rw [askSave_of_some (.inl h)]
    exact h
  · have hg := block_askSave (Bool.not_eq_true _ ▸ h) hn
    rw [hg.block, block_modBlock, if_pos rfl]
    rfl

theorem savesAsked_foldl (l : List Nat) (s : State) : SavesAsked s (l.foldl (fun s b => s.askSave b) s) := by
  induction l generalizing s with
  | nil => exact .refl s
  | cons b l ih => exact (savesAsked_askSave s b).trans (ih _)

theorem saveReq_foldl {l : List Nat} {b : Nat} (hb : b ∈ l) {s : State} (hn : (s.launch (s.block b).ltag.toNat).nimg ≠ 0) :
    ((l.foldl (fun s b => s.askSave b) s).block b).saveReq.isSome = true := by
  induction l generalizing s with
  | nil => cases hb
  | cons d l ih =>
    rw [List.foldl_cons]
    rcases List.mem_cons.mp hb with rfl | hb'
    · exact (savesAsked_foldl l _).asked b (saveReq_askSave hn)
    · exact ih hb' (by rw [(savesAsked_askSave s d).images]; exact hn)

theorem mem_blocksOn {s : State} {c g : Nat} (hg : g < 15) (hu : (s.gang c g).seat.used = true) : (s.gang c g).seat.block ∈ s.blocksOn c := by
  unfold State.blocksOn
  rw [List.mem_dedup, List.mem_map]
  exact ⟨g, List.mem_filter.mpr ⟨List.mem_range.mpr hg, hu⟩, rfl⟩

/-! ### Holding a core -/

theorem Messages.core {s t : State} (h : Messages s t) (c : Nat) : t.core c = s.core c := by
  rw [h.rest]
  rfl

/-- A core held anew. -/
def CoreSt.heldAnew (k : CoreSt) : CoreSt := { k with held := true, drained := false }

theorem exec_coreHold {v : DWord} {s : State} (hc : bits v.toNat 0 14 < nCores) (h : v.getLsbD 63 = true) (h' : v.getLsbD 62 = false) :
    exec (.coreHold v) s = .next (s.modCore (bits v.toNat 0 14) CoreSt.heldAnew) := by
  show execCoreHold v s = _
  unfold execCoreHold
  exact if_pos ⟨h, by rw [h']; rfl, hc⟩

theorem exec_coreHoldPreempt {v : DWord} {s : State} (hc : bits v.toNat 0 14 < nCores) (h : v.getLsbD 63 = true) (h' : v.getLsbD 62 = true) :
    exec (.coreHoldPreempt v) s = .next (((s.modCore (bits v.toNat 0 14) CoreSt.heldAnew).blocksOn (bits v.toNat 0 14)).foldl (fun s b => s.askSave b)
      (s.modCore (bits v.toNat 0 14) CoreSt.heldAnew)) := by
  show execCoreHoldPreempt v s = _
  unfold execCoreHoldPreempt
  exact if_pos ⟨h, h', hc⟩

theorem exec_coreRelease {v : DWord} {s : State} (hc : bits v.toNat 0 14 < nCores) (h : v.getLsbD 63 = false) :
    exec (.coreRelease v) s = .next (s.modCore (bits v.toNat 0 14) fun k => { k with held := false }) := by
  show execCoreRelease v s = _
  unfold execCoreRelease
  exact if_pos ⟨by rw [h]; rfl, hc⟩

theorem blocksOn_of_unused {s : State} {c : Nat} (h : ∀ g, g < 15 → (s.gang c g).seat.used = false) : s.blocksOn c = [] := by
  unfold State.blocksOn
  rw [List.filter_eq_nil_iff.mpr]
  · rfl
  · intro g hg
    simp [h g (List.mem_range.mp hg)]

theorem exec_heldCoreDrained {s : State} {c : Nat} (hc : c < nCores) (hh : (s.core c).held = true) (hd : (s.core c).drained = false)
    (hu : ∀ g, g < 15 → (s.gang c g).seat.used = false) (hq : ∀ p, p < 4 → (s.core c).recQ.get [] p = []) :
    exec (.heldCoreDrained c) s =
      .next ((s.modCore c fun x => { x with drained := true }).message kindRegion (regionOf (clusterOf c)) 0x20 c) := by
  show execHeldCoreDrained c s = _
  unfold execHeldCoreDrained
  refine if_pos ⟨hc, hh, by simp [hd], ?_⟩
  rw [blocksOn_of_unused hu]
  simp only [List.isEmpty_nil, Bool.true_and, List.all_eq_true, List.mem_range]
  intro p hp
  rw [hq p hp]
  rfl

theorem heldCoreDrained_tells {s : State} {c : Nat} (hc : c < nCores) (hh : (s.core c).held = true) (hd : (s.core c).drained = false)
    (hu : ∀ g, g < 15 → (s.gang c g).seat.used = false) (hq : ∀ p, p < 4 → (s.core c).recQ.get [] p = []) (hr : room s) :
    ∃ t, exec (.heldCoreDrained c) s = .next t ∧ (t.core c).drained = true ∧
      Told s t { payload := BitVec.ofNat 64 c, tag := 0, src := BitVec.ofNat 16 (regionOf (clusterOf c)), cause := 0x20, kind := 5 } := by
  refine ⟨_, exec_heldCoreDrained hc hh hd hu hq, ?_, ?_⟩
  · have hm := messages_message (s.modCore c fun x => { x with drained := true }) (kind := kindRegion) (by decide) (regionOf (clusterOf c)) 0x20 c
    rw [hm.core, core_modCore_same]
  · have ht := told_cqPost (s := s.modCore c fun x => { x with drained := true }) hr
      { payload := BitVec.ofNat 64 (c % 2 ^ 48), tag := 0, src := BitVec.ofNat 16 (regionOf (clusterOf c)), cause := BitVec.ofNat 8 0x20, kind := kindRegion }
    rw [Nat.mod_eq_of_lt (lt_trans hc (by decide))] at ht
    unfold State.message
    rw [Nat.mod_eq_of_lt (lt_trans hc (by decide))]
    exact ⟨ht.entry, ht.tail, ht.irqs⟩

/-! ### The host's halts -/

/-- The host's beacon is sent at once. -/
def sendsNow (s : State) : Prop := (s.region (regionOf s.bclu)).st = .on ∧ s.beaconsKept = []

theorem hostHalt_of_sent {s : State} (hk : s.hostKept < 1024) (h : sendsNow s) (on : Bool) :
    ∃ t, Beaconed s t (.halt on 0 0) ∧ s.hostHalt on = t.noteHalt on 0 0 := by
  obtain ⟨t, ht, hb⟩ := hostBeacon_of_room hk (.halt on 0 0)
  refine ⟨t, hb, ?_⟩
  unfold State.hostHalt
  rw [ht]
  refine if_pos ?_
  rw [(hb.out.1 h.1 h.2).2, h.2]

theorem hostHalt_of_kept {s : State} (hk : s.hostKept < 1024) (h : ¬ sendsNow s) (on : Bool) : Beaconed s (s.hostHalt on) (.halt on 0 0) := by
  obtain ⟨t, ht, hb⟩ := hostBeacon_of_room hk (.halt on 0 0)
  have hkept : t.beaconsKept = s.beaconsKept ++ [{ seq := s.beaconSeq, kind := .halt on 0 0, frame := s.now }] :=
    (hb.out.2 (not_and_or.mp h)).2
  suffices e : s.hostHalt on = t from e ▸ hb
  unfold State.hostHalt
  rw [ht]
  refine if_neg ?_
  simp [hkept]

theorem noteHalt_beacons (s : State) (on : Bool) (src core : Nat) :
    (s.noteHalt on src core).beacons = s.beacons ∧ (s.noteHalt on src core).beaconsKept = s.beaconsKept := by
  unfold State.noteHalt
  split
  · split <;> exact ⟨rfl, rfl⟩
  · exact ⟨rfl, rfl⟩

theorem hostHalt_sends {s : State} (hk : s.hostKept < 1024) (on : Bool) : beaconOut s (s.hostHalt on) (.halt on 0 0) := by
  by_cases h : sendsNow s
  · obtain ⟨t, hb, e⟩ := hostHalt_of_sent hk h on
    obtain ⟨h1, h2⟩ := noteHalt_beacons t on 0 0
    rw [e]
    exact beaconOut_of_eq hb.out h1 h2
  · exact (hostHalt_of_kept hk h on).out

theorem noteHalt_on (s : State) (src core : Nat) : (s.noteHalt true src core).haltOn = true := by
  unfold State.noteHalt
  rw [if_pos rfl]
  split
  · assumption
  · rfl

theorem hostHalt_marks {s : State} (hk : s.hostKept < 1024) (on : Bool) :
    (sendsNow s → (s.hostHalt on).haltOn = on) ∧ (¬ sendsNow s → (s.hostHalt on).haltOn = s.haltOn) := by
  refine ⟨fun h => ?_, fun h => ?_⟩
  · obtain ⟨t, -, e⟩ := hostHalt_of_sent hk h on
    rw [e]
    cases on
    · rfl
    · exact noteHalt_on t 0 0
  · rw [(hostHalt_of_kept hk h on).rest]

theorem hostHalt_source {s : State} (hk : s.hostKept < 1024) (h : sendsNow s) (hoff : s.haltOn = false) :
    (s.hostHalt true).haltSrc = 0 ∧ (s.hostHalt true).haltCore = 0 ∧ (s.hostHalt true).haltTime = BitVec.ofNat 64 s.now := by
  obtain ⟨t, hb, e⟩ := hostHalt_of_sent hk h true
  obtain ⟨hnow, hon⟩ : t.now = s.now ∧ t.haltOn = s.haltOn := by
    rw [hb.rest]
    exact ⟨rfl, rfl⟩
  have e' : t.noteHalt true 0 0 = { t with haltOn := true, haltSrc := BitVec.ofNat 2 0, haltCore := BitVec.ofNat 14 0, haltTime := BitVec.ofNat 64 t.now } := by
    unfold State.noteHalt
    exact (if_pos rfl).trans (if_neg (by rw [hon, hoff]; decide))
  rw [e, e', hnow]
  exact ⟨rfl, rfl, rfl⟩

theorem modCore_hold (v : DWord) (s : State) (f : CoreSt → CoreSt) (hf : ∀ k, (f k).gangs = k.gangs) :
    ((s.modCore (bits v.toNat 0 14) f).core (bits v.toNat 0 14)).held = (f (s.core (bits v.toNat 0 14))).held ∧
      ((s.modCore (bits v.toNat 0 14) f).core (bits v.toNat 0 14)).gangs = (s.core (bits v.toNat 0 14)).gangs ∧
      (∀ k, k ≠ bits v.toNat 0 14 → (s.modCore (bits v.toNat 0 14) f).core k = s.core k) ∧
      { s.modCore (bits v.toNat 0 14) f with cores := s.cores } = s := by
  rw [core_modCore_same]
  exact ⟨rfl, hf _, fun k hk => core_modCore_other s f hk, rfl⟩

theorem coreHoldPreempt_asks {v : DWord} {s : State} (hc : bits v.toNat 0 14 < nCores) (h : v.getLsbD 63 = true) (h' : v.getLsbD 62 = true) :
    ∃ t, exec (.coreHoldPreempt v) s = .next t ∧ (t.core (bits v.toNat 0 14)).held = true ∧
      ∀ g, g < 15 → (s.gang (bits v.toNat 0 14) g).seat.used = true →
        let b := (s.gang (bits v.toNat 0 14) g).seat.block
        let images := (s.launch (s.block b).ltag.toNat).nimg
        (0 < images → (t.block b).saveReq.isSome = true) ∧ (images = 0 → t.block b = s.block b) := by
  refine ⟨_, exec_coreHoldPreempt hc h h', ?_, fun g hg hu => ⟨fun hn => ?_, fun hn => ?_⟩⟩
  · rw [(savesAsked_foldl _ _).held, core_modCore_same]
    rfl
  · refine saveReq_foldl ?_ (Nat.ne_of_gt hn)
    have e : (s.modCore (bits v.toNat 0 14) CoreSt.heldAnew).gang (bits v.toNat 0 14) g = s.gang (bits v.toNat 0 14) g := by
      unfold State.gang
      rw [core_modCore_same]
      rfl
    rw [← e]
    exact mem_blocksOn hg (by rw [e]; exact hu)
  · exact (savesAsked_foldl _ _).kept _ hn

theorem repair_holds : repair := by
  refine ⟨?_, fun c s hc hh hd hu hq hr => heldCoreDrained_tells hc hh hd hu hq hr, ?_, ?_, ?_⟩
  · intro v s c hc
    exact ⟨fun h h' => ⟨_, exec_coreHold hc h h', modCore_hold v s _ fun _ => rfl⟩, fun h h' => coreHoldPreempt_asks hc h h',
      fun h => ⟨_, exec_coreRelease hc h, modCore_hold v s _ fun _ => rfl⟩⟩
  · intro v s src p legal reg h
    exact ⟨exec_sliceCopy_off h, exec_sliceCopy_legal h, exec_sliceCopy_refused h⟩
  · intro s src p hwf h hs hv _
    refine ⟨_, exec_sliceCopyComplete h hs hv, ?_, fun x _ => read_copySlice hwf _ _ x, fun x hx => read_copySlice_other s _ _ _ hx, rfl⟩
    show (s.slcopy &&& 0x7fffffffffffffff#64).getLsbD 63 = false
    rw [BitVec.getLsbD_and]
    exact Bool.and_false _
  · intro s hk sent
    exact ⟨⟨s.hostHalt true, rfl, hostHalt_sends hk true, (hostHalt_marks hk true).1, (hostHalt_marks hk true).2, hostHalt_source hk⟩,
      s.hostHalt false, rfl, hostHalt_sends hk false, (hostHalt_marks hk false).1, (hostHalt_marks hk false).2⟩

/-! ### What a snoop changes -/

/-- From `s` to `t` only states of superblocks and coherent lines of cores have changed. -/
structure SnoopOnly (s t : State) : Prop where
  rest : t = { s with clusters := t.clusters, cores := t.cores }
  core : ∀ c, { t.core c with coh := (s.core c).coh } = s.core c
  cluster : ∀ k, { t.cluster k with moesi := (s.cluster k).moesi } = s.cluster k

theorem SnoopOnly.refl (s : State) : SnoopOnly s s := ⟨rfl, fun _ => rfl, fun _ => rfl⟩

theorem SnoopOnly.trans {s t u : State} (h : SnoopOnly s t) (h' : SnoopOnly t u) : SnoopOnly s u where
  rest := by rw [h'.rest, h.rest]
  core c := by rw [← h.core c, ← h'.core c]
  cluster k := by rw [← h.cluster k, ← h'.cluster k]

theorem snoopOnly_foldl {α : Type} {f : State → α → State} (hf : ∀ s a, SnoopOnly s (f s a)) (l : List α) (s : State) :
    SnoopOnly s (l.foldl f s) := by
  induction l generalizing s with
  | nil => exact .refl s
  | cons a l ih => exact (hf s a).trans (ih _)

theorem snoopOnly_modCoh (s : State) (c : Nat) (f : List Nat → List Nat) : SnoopOnly s (s.modCore c fun x => { x with coh := f x.coh }) := by
  refine ⟨rfl, fun d => ?_, fun _ => rfl⟩
  by_cases h : d = c
  · rw [h, core_modCore_same]
  · rw [core_modCore_other _ _ h]

theorem snoopOnly_dropCopies (s : State) (k sb : Nat) (p : Nat → Bool) : SnoopOnly s (s.dropCopies k sb p) := by
  refine snoopOnly_foldl (fun s c => ?_) _ s
  split
  · exact snoopOnly_modCoh s c fun l => l.filter (· != sb)
  · exact .refl s

theorem cluster_modCluster_other (s : State) {k q : Nat} (f : Cluster → Cluster) (h : q ≠ k) : (s.modCluster k f).cluster q = s.cluster q :=
  cluster_setCluster_other s _ h

theorem snoopOnly_modMoesi (s : State) (k : Nat) (f : SMap Moesi → SMap Moesi) : SnoopOnly s (s.modCluster k fun x => { x with moesi := f x.moesi }) := by
  refine ⟨rfl, fun _ => rfl, fun q => ?_⟩
  by_cases h : q = k
  · rw [h, cluster_modCluster_same]
  · rw [cluster_modCluster_other _ _ h]

theorem snoopOnly_setMoesi (s : State) (k sb : Nat) (x : Moesi) : SnoopOnly s (s.setMoesi k sb x) := by
  unfold State.setMoesi
  refine SnoopOnly.trans ?_ (snoopOnly_modMoesi _ k fun y => y.put sb x)
  split
  · exact snoopOnly_dropCopies s k sb _
  · exact .refl s

theorem snoopOnly_snoopOthers (s : State) (k sb : Nat) (sn : Snoop) : SnoopOnly s (s.snoopOthers k sb sn) :=
  snoopOnly_foldl (fun s q => snoopOnly_setMoesi s q sb _) _ s

theorem clusters_dropCopies (s : State) (k sb : Nat) (p : Nat → Bool) : (s.dropCopies k sb p).clusters = s.clusters := by
  unfold State.dropCopies
  generalize clusterCores k = l
  induction l generalizing s with
  | nil => rfl
  | cons c l ih =>
    refine (ih _).trans ?_
    show State.clusters (if _ then _ else s) = _
    split <;> rfl

theorem moesiOf_setMoesi (s : State) (k sb q b : Nat) (x : Moesi) :
    (s.setMoesi k sb x).moesiOf q b = if q = k ∧ b = sb then x else s.moesiOf q b := by
  have hdrop (y : Nat) : (if x = .i then s.dropCopies k sb fun _ => true else s).cluster y = s.cluster y := by
    split
    · unfold State.cluster
      rw [clusters_dropCopies]
    · rfl
  unfold State.setMoesi State.moesiOf
  simp only []
  by_cases hq : q = k
  · subst hq
    rw [cluster_modCluster_same, SMap.get_put, hdrop]
    simp
  · rw [cluster_modCluster_other _ _ hq, hdrop, if_neg (fun h => hq h.1)]

theorem Moesi.after_after (x : Moesi) (k : Snoop) : (x.after k).after k = x.after k := by cases k <;> cases x <;> rfl

theorem Moesi.after_i (k : Snoop) : Moesi.i.after k = .i := by cases k <;> rfl

theorem moesiOf_foldl_setMoesi (sb : Nat) (sn : Snoop) (l : List Nat) (s : State) (c b : Nat) :
    (l.foldl (fun s q => s.setMoesi q sb ((s.moesiOf q sb).after sn)) s).moesiOf c b =
      if b = sb ∧ c ∈ l then (s.moesiOf c b).after sn else s.moesiOf c b := by
  induction l generalizing s with
  | nil => simp
  | cons q l ih =>
    rw [List.foldl_cons, ih, moesiOf_setMoesi]
    by_cases hb : b = sb
    · subst hb
      by_cases hq : c = q
      · subst hq
        simp [Moesi.after_after]
      · simp [hq]
    · simp [hb]

theorem get_of_not_mem {α : Type} {d : α} {m : SMap α} {k : Nat} (h : ∀ p ∈ m, p.1 ≠ k) : m.get d k = d := by
  induction m with
  | nil => rfl
  | cons e m ih => exact (if_neg (h e List.mem_cons_self)).trans (ih fun p hp => h p (List.mem_cons_of_mem _ hp))

/-- A snoop of superblock `sb` for another than `c`. -/
theorem moesiOf_snoopOthers (s : State) {k c : Nat} (hc : c ≠ k) (sb b : Nat) (sn : Snoop) :
    (s.snoopOthers k sb sn).moesiOf c b = if b = sb then (s.moesiOf c b).after sn else s.moesiOf c b := by
  unfold State.snoopOthers
  rw [moesiOf_foldl_setMoesi]
  by_cases hb : b = sb
  · subst hb
    rw [if_pos rfl]
    split
    · rfl
    · next h =>
      suffices s.moesiOf c b = .i by rw [this, Moesi.after_i]
      by_contra hne
      refine h ⟨rfl, ?_⟩
      have : ∃ p ∈ s.clusters, p.1 = c := by
        by_contra hno
        refine hne ?_
        unfold State.moesiOf State.cluster
        rw [get_of_not_mem fun p hp e => hno ⟨p, hp, e⟩]
        rfl
      obtain ⟨p, hp, rfl⟩ := this
      refine List.mem_map.mpr ⟨p, List.mem_filter.mpr ⟨hp, ?_⟩, rfl⟩
      simpa [hc] using hne
  · rw [if_neg (fun h => hb h.1), if_neg hb]

/-! ### What a host access changes -/

/-- The kind of a host access' snoop. -/
def hostSnoopKind (writes : Bool) : Snoop := if writes then .rx else .rs

/-- From `s` to `t` the host has snooped the superblocks `l`. -/
structure HostSnooped (s t : State) (l : List Nat) (writes : Bool) : Prop where
  rest : t = { s with clusters := t.clusters, cores := t.cores, homeBits := t.homeBits }
  core : ∀ c, { t.core c with coh := (s.core c).coh } = s.core c
  cluster : ∀ k, { t.cluster k with moesi := (s.cluster k).moesi } = s.cluster k
  moesi : ∀ c sb, c < 192 → t.moesiOf c sb = if sb ∈ l then (s.moesiOf c sb).after (hostSnoopKind writes) else s.moesiOf c sb
  home : ∀ sb, t.homeBits.get 0 sb = if writes = true ∧ sb ∈ l then 0 else s.homeBits.get 0 sb
  kept : writes = false → t.homeBits = s.homeBits

theorem hostSnooped_hostSnoop (s : State) (sb : Nat) (writes : Bool) : HostSnooped s (s.hostSnoop sb writes) [sb] writes := by
  have h := snoopOnly_snoopOthers s 192 sb (hostSnoopKind writes)
  have hm (c b : Nat) (hc : c < 192) := moesiOf_snoopOthers s (k := 192) (c := c) (by omega) sb b (hostSnoopKind writes)
  cases writes
  · have e : s.hostSnoop sb false = s.snoopOthers 192 sb (hostSnoopKind false) := rfl
    have hh : (s.snoopOthers 192 sb (hostSnoopKind false)).homeBits = s.homeBits := by rw [h.rest]
    rw [e]
    exact ⟨by rw [h.rest], h.core, h.cluster, fun c b hc => by simpa using hm c b hc, fun b => by simp [hh], fun _ => hh⟩
  · have e : s.hostSnoop sb true = { s.snoopOthers 192 sb (hostSnoopKind true) with
        homeBits := (s.snoopOthers 192 sb (hostSnoopKind true)).homeBits.put sb 0 } := rfl
    have hh : (s.snoopOthers 192 sb (hostSnoopKind true)).homeBits = s.homeBits := by rw [h.rest]
    rw [e, hh]
    refine ⟨by rw [h.rest], h.core, h.cluster, fun c b hc => ?_, fun b => ?_, fun h => absurd h (by decide)⟩
    · exact (hm c b hc).trans (by simp)
    · rw [SMap.get_put]
      simp

theorem HostSnooped.trans {s t u : State} {l l' : List Nat} {writes : Bool} (h : HostSnooped s t l writes) (h' : HostSnooped t u l' writes) :
    HostSnooped s u (l ++ l') writes where
  rest := by rw [h'.rest, h.rest]
  core c := by rw [← h.core c, ← h'.core c]
  cluster k := by rw [← h.cluster k, ← h'.cluster k]
  moesi c sb hc := by
    rw [h'.moesi c sb hc, h.moesi c sb hc]
    by_cases h1 : sb ∈ l <;> by_cases h2 : sb ∈ l' <;> simp [h1, h2, Moesi.after_after]
  home sb := by
    rw [h'.home, h.home]
    cases writes
    · simp
    · by_cases h1 : sb ∈ l <;> by_cases h2 : sb ∈ l' <;> simp [h1, h2]
  kept e := (h'.kept e).trans (h.kept e)

theorem hostSnooped_foldl (writes : Bool) (l : List Nat) (s : State) : HostSnooped s (l.foldl (fun s b => s.hostSnoop b writes) s) l writes := by
  induction l generalizing s with
  | nil => exact ⟨rfl, fun _ => rfl, fun _ => rfl, fun _ _ _ => by simp, fun _ => by simp, fun _ => rfl⟩
  | cons b l ih => exact (hostSnooped_hostSnoop s b writes).trans (ih _)

theorem HostSnooped.hostByte {s t : State} {l : List Nat} {writes : Bool} (h : HostSnooped s t l writes) (pa : Nat) : t.hostByte pa = s.hostByte pa := by
  have hepoch (k : Nat) : (t.cluster k).epoch = (s.cluster k).epoch := by
    have e := congrArg Cluster.epoch (h.cluster k)
    exact e
  have hat (k c : Nat) : t.tableAt k c = s.tableAt k c := by
    unfold State.tableAt
    rw [hepoch, h.rest]
  have hroutes (k : Nat) : t.tableRoutes k = s.tableRoutes k := by
    have hphase : t.phase = s.phase := by
      unfold State.phase
      rw [h.rest]
    have hupds : t.upds = s.upds := by rw [h.rest]
    unfold State.tableRoutes
    simp only [hat, hphase, hupds, hepoch]
  have hkey : t.hostKey pa = s.hostKey pa := by
    unfold State.hostKey State.physOf
    simp only [hat, hroutes]
  have hfwd (r : Nat) : t.forwards r = s.forwards r := by
    unfold State.forwards State.region
    rw [h.rest]
  unfold State.hostByte
  simp only [hkey, hfwd]

/-- A byte that the host reaches lies in a superblock that its access snoops. -/
theorem mem_sbsOf {l : List (Option Nat)} {sb : Nat} : sb ∈ sbsOf l ↔ ∃ pa, some pa ∈ l ∧ pa / 256 = sb := by
  unfold sbsOf
  rw [List.mem_dedup, List.mem_filterMap]
  constructor
  · rintro ⟨_ | pa, ha, e⟩
    · cases e
    · exact ⟨pa, ha, Option.some.inj e⟩
  · rintro ⟨pa, ha, rfl⟩
    exact ⟨some pa, ha, rfl⟩

theorem hostPas_eq {s : State} {off n : Nat} {pa : Nat → Nat} (h : ∀ i, i < n → s.hostPa (off + i) = some (pa i)) :
    s.hostPas off n = (List.range n).map fun i => some (pa i) :=
  List.map_congr_left fun i hi => h i (List.mem_range.mp hi)

theorem mem_sbsOf_range {n sb : Nat} {pa : Nat → Nat} :
    sb ∈ sbsOf ((List.range n).map fun i => some (pa i)) ↔ sb ∈ (List.range n).map fun i => pa i / 256 := by
  rw [mem_sbsOf]
  simp [eq_comm]

theorem HostSnooped.snooped {s t u : State} {n : Nat} {pa : Nat → Nat} {writes : Bool}
    (h : HostSnooped s t (sbsOf ((List.range n).map fun i => some (pa i))) writes) (e : u.clusters = t.clusters) :
    Claims.snooped s u ((List.range n).map fun i => pa i / 256) (hostSnoopKind writes) := by
  intro c sb hc
  have hm := h.moesi c sb hc
  unfold State.moesiOf at hm
  simp only [mem_sbsOf_range] at hm
  simp only [List.contains_iff_mem]
  rw [← hm]
  exact congrArg (fun m : SMap Cluster => (m.get {} c).moesi.get .i sb) e

theorem all_isSome_range (n : Nat) (pa : Nat → Nat) : (((List.range n).map fun i => some (pa i)).all (·.isSome)) = true := by
  simp

/-- A read by the host, its superblocks snooped in `t`. -/
theorem hostLoad_eq {s : State} {off n : Nat} {pa key : Nat → Nat}
    (h : ∀ i, i < n → s.hostPa (off + i) = some (pa i) ∧ s.hostByte (pa i) = some (key i)) :
    ∃ t, HostSnooped s t (sbsOf ((List.range n).map fun i => some (pa i))) false ∧
      s.hostLoad off n = ({ t with freeCtr := s.freeCtr + n }, (List.range n).map fun i => s.dram.read (key i)) := by
  obtain ⟨t, ht⟩ : ∃ t, t = (sbsOf ((List.range n).map fun i => some (pa i))).foldl (fun s b => s.hostSnoop b false) s := ⟨_, rfl⟩
  have hsn := hostSnooped_foldl false (sbsOf ((List.range n).map fun i => some (pa i))) s
  rw [← ht] at hsn
  refine ⟨t, hsn, ?_⟩
  unfold State.hostLoad
  rw [hostPas_eq fun i hi => (h i hi).1]
  simp only [← ht, all_isSome_range, if_true]
  refine Prod.ext rfl (List.ext_getElem (by simp) fun i hi _ => ?_)
  have hn : i < n := by simpa using hi
  have hb : State.hostByte { t with freeCtr := s.freeCtr + n } (pa i) = some (key i) := (hsn.hostByte (pa i)).trans (h i hn).2
  have hd : t.dram = s.dram := by rw [hsn.rest]
  simp only [List.getElem_map, List.getElem_zipIdx, List.getElem_range]
  rw [hb]
  exact congrArg (fun m : Memory => m.read (key i)) hd

/-! ### What the host stores -/

/-- Bytes written one after another: the last at a place stands. -/
theorem read_foldl_write (key : Nat → Nat) (val : Nat → Byte) (x : Nat) (l : List Nat) (m : Memory) :
    (l.foldl (fun (m : Memory) i => m.write (key i) (val i)) m).read x =
      ((l.reverse.find? fun i => key i == x).map val).getD (m.read x) := by
  induction l using List.reverseRecOn with
  | nil => rfl
  | append_singleton l a ih =>
    rw [List.foldl_append, List.reverse_append]
    refine (Memory.read_write _ _ _ _).trans ?_
    by_cases h : key a = x
    · rw [if_pos h.symm]
      simp [h]
    · rw [if_neg (Ne.symm h), ih]
      simp [h]

/-- The memory of a store by the host. -/
theorem storeFold_eq {s : State} {pa key : Nat → Nat} {data : List Byte} (h : ∀ i, i < data.length → s.hostByte (pa i) = some (key i)) (m : Memory) :
    (((List.range data.length).map fun i => some (pa i)).zip data).foldl (fun (m : Memory) p => match p.1.bind s.hostByte with
      | some k => m.write k p.2
      | none => m) m = (List.range data.length).foldl (fun (m : Memory) i => m.write (key i) (data.getD i 0)) m := by
  have e : ((List.range data.length).map fun i => some (pa i)).zip data = (List.range data.length).map fun i => (some (pa i), data.getD i 0) := by
    refine List.ext_getElem (by simp) fun i hi _ => ?_
    have hn : i < data.length := by simpa using hi
    simp [hn]
  rw [e, List.foldl_map]
  refine List.foldl_ext _ _ _ fun m i hi => ?_
  simp only [Option.bind_some, h i (List.mem_range.mp hi)]

theorem hostStore_eq {s : State} {off : Nat} {data : List Byte} {pa key : Nat → Nat}
    (h : ∀ i, i < data.length → s.hostPa (off + i) = some (pa i) ∧ s.hostByte (pa i) = some (key i)) :
    ∃ t, HostSnooped s t (sbsOf ((List.range data.length).map fun i => some (pa i))) true ∧
      s.hostStore off data = { t with dram := (List.range data.length).foldl (fun (m : Memory) i => m.write (key i) (data.getD i 0)) s.dram } := by
  obtain ⟨t, ht⟩ : ∃ t, t = (sbsOf ((List.range data.length).map fun i => some (pa i))).foldl (fun s b => s.hostSnoop b true) s := ⟨_, rfl⟩
  have hsn := hostSnooped_foldl true (sbsOf ((List.range data.length).map fun i => some (pa i))) s
  rw [← ht] at hsn
  refine ⟨t, hsn, ?_⟩
  unfold State.hostStore
  rw [hostPas_eq fun i hi => (h i hi).1]
  simp only [← ht, all_isSome_range, if_true]
  have hd : t.dram = s.dram := by rw [hsn.rest]
  rw [← hd, ← storeFold_eq (s := t) (pa := pa) fun i hi => (hsn.hostByte (pa i)).trans (h i hi).2] <;> rfl

/-! ### Host accesses -/

theorem exec_hostMemoryRead_open {s : State} {off n pa : Nat} (h : s.hostPa off = some pa) (ho : s.hostOpen off n = true) :
    exec (.hostMemoryRead off n) s = .next { (s.hostLoad off n).1 with
      hostReads := (s.hostLoad off n).1.hostReads ++ answerParts (n + 1) (s.hostLoad off n).2 } := by
  show execHostMemoryRead off n s = _
  unfold execHostMemoryRead
  rw [h]
  exact if_neg (by rw [ho]; decide)

theorem exec_hostMemoryWrite_open {s : State} {off pa : Nat} {data : List Byte} (h : s.hostPa off = some pa) (ho : s.hostOpen off data.length = true) :
    exec (.hostMemoryWrite off data) s = .next (s.hostStore off data) := by
  show execHostMemoryWrite off data s = _
  unfold execHostMemoryWrite
  rw [h]
  exact congrArg _ (if_pos ho)

theorem hostAccesses_holds : hostAccesses := by
  intro s off n pa key hn ho h sbs rest
  have hpa : s.hostPa off = some (pa 0) := (h 0 hn).1
  constructor
  · obtain ⟨t, hsn, e⟩ := hostLoad_eq h
    obtain ⟨x, hx⟩ : ∃ x, x = answerParts (n + 1) ((List.range n).map fun i => s.dram.read (key i)) := ⟨_, rfl⟩
    refine ⟨{ t with freeCtr := s.freeCtr + n, hostReads := s.hostReads ++ x }, ?_, congrArg _ hx, hsn.snooped rfl, ⟨hsn.core, hsn.cluster⟩, ?_⟩
    · rw [exec_hostMemoryRead_open hpa ho, e]
      have hr : t.hostReads = s.hostReads := by rw [hsn.rest]
      simp only [hr, hx]
    · rw [hsn.rest, hsn.kept rfl]
  · intro data hlen
    subst hlen
    obtain ⟨t, hsn, e⟩ := hostStore_eq h
    obtain ⟨x, hx⟩ : ∃ x, x = (List.range data.length).foldl (fun (m : Memory) i => m.write (key i) (data.getD i 0)) s.dram := ⟨_, rfl⟩
    rw [← hx] at e
    refine ⟨{ t with dram := x }, by rw [exec_hostMemoryWrite_open hpa ho, e], fun k => ?_, hsn.snooped rfl, ⟨hsn.core, hsn.cluster⟩, fun sb => ?_, ?_⟩
    · show x.read k = _
      rw [hx, read_foldl_write]
      split
      · next i hi => rw [hi]; rfl
      · next hi => rw [hi]; rfl
    · have hh := hsn.home sb
      simp only [mem_sbsOf_range, true_and] at hh
      simp only [List.contains_iff_mem, sbs]
      exact hh
    · rw [hsn.rest]

/-- Settles O50: what the host does completes with the effect of its rule. -/
theorem hostEvents : Obligations.HostEvents :=
  ⟨hostAccesses_holds, hostRegisters_holds, walkerStarts_holds, headMoves_holds, invalidations_holds, kills_holds, doorbells_holds, bringUp_holds,
    tables_holds, repair_holds⟩

end Sys2Proof.Machine

end

/-! SUPPORT and CLAIM. The rules of the interconnect's events, and O52. -/

section

namespace Sys2Proof.Machine

open Sys2Proof.Claims

/-! ### Packets -/

theorem becomes_setPacket (s : State) {p q : Packet} (h : q.id = p.id) : PacketBecomes s (s.setPacket q) p q := by
  refine ⟨?_, rfl⟩
  unfold State.setPacket
  rw [h]

/-! ### What the end of a gang changes -/

/-- From `s` to `t` only cores have changed and what the host has been told. -/
structure CoresAndHost (s t : State) : Prop where
  rest : t = { s with
    cores := t.cores, mgmt := t.mgmt, freeCtr := t.freeCtr, irqs := t.irqs, cq := t.cq, cqTail := t.cqTail, cqOver := t.cqOver, cqHeld := t.cqHeld
    cqWait := t.cqWait, bbox := t.bbox }

theorem CoresAndHost.refl (s : State) : CoresAndHost s s := ⟨rfl⟩

theorem CoresAndHost.trans {s t u : State} (h : CoresAndHost s t) (h' : CoresAndHost t u) : CoresAndHost s u := ⟨by rw [h'.rest, h.rest]⟩

theorem Messages.coresAndHost {s t : State} (h : Messages s t) : CoresAndHost s t := ⟨by rw [h.rest]⟩

theorem coresAndHost_modCore (s : State) (c : Nat) (f : CoreSt → CoreSt) : CoresAndHost s (s.modCore c f) := ⟨rfl⟩

theorem coresAndHost_modGang (s : State) (c g : Nat) (f : Gang → Gang) : CoresAndHost s (s.modGang c g f) := ⟨rfl⟩

theorem coresAndHost_setGang (s : State) (c g : Nat) (x : Gang) : CoresAndHost s (s.setGang c g x) := ⟨rfl⟩

theorem messages_coreCheck (s : State) (c cause : Nat) : Messages s (s.coreCheck c cause) :=
  (messages_message s (kind := kindMachineCheck) (by decide) _ _ _).trans ⟨.inl rfl, rfl⟩

/-- A core's work as a trap joins it. -/
def trapWork (t : TrapRec) (l : List HWork) : List HWork :=
  if l.any fun w => match w with
      | .trap u => u.slot == t.slot && !u.ended && !t.ended
      | .doorbell _ => false then
    l.map fun w => match w with
      | .trap u => if u.slot == t.slot && !u.ended then .trap (u.join t) else w
      | w => w
  else l ++ [.trap t]

/-- A gang that has trapped at `t`. -/
def Gang.trappedAt (t : TrapRec) (g : Gang) : Gang :=
  { g with trapped := true, waits := g.waits.filter fun w => w.pc != t.entry.pc || (w.lanes ||| w.ex) &&& t.entry.mask == 0 }

/-- The trap with the latches that its gang had. -/
def State.withLats (s : State) (c : Nat) (t : TrapRec) : TrapRec := { t with lats := ((s.endHold c t.slot).core c).latches.get {} (t.slot % 4) }

/-- The state once a trap waits for the handler of its core. -/
def State.trapQueued (s : State) (c : Nat) (t : TrapRec) : State :=
  (s.endHold c t.slot).modCore c fun k => { k with work := trapWork (s.withLats c t) k.work }

/-- A machine check opens a black box. -/
def State.trapShown (s : State) (c : Nat) (t : TrapRec) : State :=
  if t.causes.any fun q => q.1 == cMachineCheck then s.bboxOpen (fieldOf c) 3 else s

theorem takeTrap_eq {s : State} {c : Nat} {t : TrapRec} (h : t.slot ≠ handlerSlot) :
    s.takeTrap c t = ((s.trapQueued c t).trapShown c t).modGang c t.slot (Gang.trappedAt t) := by
  unfold State.takeTrap
  exact (if_neg h).trans rfl

theorem messages_trapShown (s : State) (c : Nat) (t : TrapRec) : Messages s (s.trapShown c t) := by
  unfold State.trapShown
  split
  · exact messages_bboxOpen _ _ _
  · exact .refl _

theorem coresAndHost_takeTrap (s : State) (c : Nat) (t : TrapRec) : CoresAndHost s (s.takeTrap c t) := by
  by_cases h : t.slot = handlerSlot
  · unfold State.takeTrap
    rw [if_pos h]
    exact (coresAndHost_modCore s c _).trans (messages_coreCheck _ _ _).coresAndHost
  · rw [takeTrap_eq h]
    refine CoresAndHost.trans ?_ (coresAndHost_modGang _ _ _ _)
    refine CoresAndHost.trans ?_ (messages_trapShown _ _ _).coresAndHost
    exact (coresAndHost_modCore s c _).trans (coresAndHost_modCore _ c _)

theorem coresAndHost_markCalls (s : State) (c : Nat) : CoresAndHost s (s.markCalls c) := by
  unfold State.markCalls
  simp only []
  split
  · split <;> exact ⟨rfl⟩
  · exact ⟨rfl⟩

/-- The trap that a gang's end takes. -/
def State.endTrap (s : State) (c g code : Nat) (va : DWord) : TrapRec :=
  { slot := g, causes := [(code, (s.gang c g).mreg 0)], va, raised := s.timeAt (clusterOf c), ended := true
    entry := { base := (s.gang c g).endBase, pfx := 0, pc := (s.gang c g).endPc, mask := 0, group := 0, cause := BitVec.ofNat 8 code, cap := 0, vals := [] } }

theorem takeEndTrap_eq (s : State) (c g code : Nat) (va : DWord) :
    s.takeEndTrap c g code va = (s.takeTrap c (s.endTrap c g code va)).modGang c g fun x => { x with live := true, ending := true } := rfl

theorem coresAndHost_takeEndTrap (s : State) (c g code : Nat) (va : DWord) : CoresAndHost s (s.takeEndTrap c g code va) := by
  rw [takeEndTrap_eq]
  exact (coresAndHost_takeTrap s c _).trans (coresAndHost_modGang _ c g _)

theorem coresAndHost_tryIdle (s : State) (c g : Nat) : CoresAndHost s (s.tryIdle c g) := by
  unfold State.tryIdle
  simp only []
  split
  · exact .refl s
  · split
    · exact (coresAndHost_setGang s c g _).trans (coresAndHost_takeEndTrap _ c g _ _)
    · exact (coresAndHost_setGang s c g _).trans (coresAndHost_markCalls _ _)

theorem coresAndHost_answerPost (s : State) (c g : Nat) : CoresAndHost s (s.answerPost c g) := by
  unfold State.answerPost
  split
  · exact (coresAndHost_modGang s c g _).trans (coresAndHost_tryIdle _ _ _)
  · exact .refl s

/-! ### The answer to a post -/

theorem gang_modGang_other (s : State) {c d g e : Nat} (f : Gang → Gang) (h : d ≠ c ∨ e ≠ g) : (s.modGang c g f).gang d e = s.gang d e := by
  unfold State.modGang
  rcases h with h | h
  · exact gang_setGang_core s g e _ h
  · by_cases hd : d = c
    · rw [hd]
      exact gang_setGang_slot s c _ h
    · exact gang_setGang_core s g e _ hd

theorem gangs_endHold (s : State) (c g d e : Nat) : (s.endHold c g).gang d e = s.gang d e := by
  unfold State.gang
  by_cases h : d = c
  · subst h
    unfold State.endHold
    rw [core_modCore_same]
    split
    · split <;> rfl
    · rfl
  · unfold State.endHold
    rw [core_modCore_other _ _ h]

theorem gang_trapQueued (s : State) (c : Nat) (t : TrapRec) (d e : Nat) : (s.trapQueued c t).gang d e = s.gang d e := by
  rw [← gangs_endHold s c t.slot d e]
  unfold State.trapQueued State.gang
  by_cases h : d = c
  · rw [h, core_modCore_same]
  · rw [core_modCore_other _ _ h]

theorem gang_takeTrap {s : State} {c : Nat} {t : TrapRec} (h : t.slot ≠ handlerSlot) :
    (s.takeTrap c t).gang c t.slot = (s.gang c t.slot).trappedAt t := by
  rw [takeTrap_eq h, gang_modGang_same]
  have e : ((s.trapQueued c t).trapShown c t).gang c t.slot = (s.trapQueued c t).gang c t.slot := by
    unfold State.gang
    rw [(messages_trapShown _ _ _).core]
  rw [e, gang_trapQueued]

theorem gang_markCalls (s : State) (c d g : Nat) : (s.markCalls c).gang d g = s.gang d g := by
  have hset (f : SMap (Option Nat)) : (s.setCore c { s.core c with calleeAt := f }).gang d g = s.gang d g := by
    unfold State.gang
    by_cases h : d = c
    · rw [h, core_setCore_same]
    · rw [core_setCore_other _ _ h]
  unfold State.markCalls
  simp only []
  split
  · split
    · rfl
    · exact hset _
  · exact hset _

theorem posts_takeEndTrap (s : State) (c : Nat) {g : Nat} (h : g < 15) (code : Nat) (va : DWord) :
    ((s.takeEndTrap c g code va).gang c g).posts = (s.gang c g).posts := by
  rw [takeEndTrap_eq, gang_modGang_same]
  have hslot : (s.endTrap c g code va).slot ≠ handlerSlot := Nat.ne_of_lt h
  have e := congrArg Gang.posts (gang_takeTrap (s := s) (c := c) hslot)
  exact e

theorem posts_tryIdle (s : State) (c : Nat) {g : Nat} (h : g < 15) : ((s.tryIdle c g).gang c g).posts = (s.gang c g).posts := by
  unfold State.tryIdle
  simp only []
  split
  · rfl
  · split
    · rw [posts_takeEndTrap _ _ h, gang_setGang_same]
    · rw [gang_markCalls, gang_setGang_same]

theorem posts_answerPost (s : State) (c : Nat) {g : Nat} (h : g < 15) : ((s.answerPost c g).gang c g).posts = (s.gang c g).posts - 1 := by
  unfold State.answerPost
  split
  · rw [posts_tryIdle _ _ h, gang_modGang_same]
  · next hno =>
    have : (s.gang c g).posts = 0 := by
      by_contra h0
      exact hno ⟨h, h0⟩
    rw [this]

/-! ### Hops, and what is handed in -/

/-- The state once an output port has noted the packet that it grants. -/
def State.noted (s : State) (router dir plane : Nat) (p : Packet) : State :=
  { s with portLast := s.portLast.put (portKey router dir plane) p.inPort }

theorem exec_meshPacketReceive {router dir : Nat} {plane : BitVec 2} {p : Packet} {s : State} (h : s.granted router dir plane.toNat = some p) :
    exec (.meshPacketReceive router dir plane) s = match neighbour router dir with
      | none => .next ((s.noted router dir plane.toNat p).handIn p)
      | some q => .next (if s.linkUp router dir then
          (s.noted router dir plane.toNat p).setPacket { p with at_ := q, inPort := if dir % 2 = 0 then dir + 1 else dir - 1, portAt := s.now }
        else (s.noted router dir plane.toNat p).setPacket { p with lost := true }) := by
  show execMeshPacketReceive router dir plane s = _
  unfold execMeshPacketReceive
  rw [h] <;> rfl

theorem handIn_of_plain {p : Packet} (hs : ∀ off data l, p.body ≠ .store off data l) (hp : ∀ r n k, p.body ≠ .post r n k) (s : State) :
    s.handIn p = s.setPacket { p with taken := true } := by
  unfold State.handIn
  split
  · next e _ => exact absurd e (hs _ _ _)
  · next e _ => exact absurd e (hp _ _ _)
  · rfl

theorem handIn_post {p : Packet} {r : QRec} {n k : Nat} (hb : p.body = .post r n k) (s : State) :
    s.handIn p = if p.ret = true ∧ p.nack = false then (s.dropPacket p.id).answerPost p.src k else s.setPacket { p with taken := true } := by
  unfold State.handIn
  rw [hb]
  cases p.ret <;> cases p.nack <;> rfl

/-- The message that a broadcast store becomes. -/
def storeMsg (s : State) (p : Packet) (off : Nat) (data : List Byte) (l : Half) : State × Nat :=
  (s.dropPacket p.id).sendMsg (busOf off) (clusterOf p.src) p.src (1 + data.length / 16) (.store off data) l

theorem handIn_store {p : Packet} {off : Nat} {data : List Byte} {l : Half} (hb : p.body = .store off data l) (hr : p.ret = false) {s : State}
    (hs : s.stands p.dstPhys p.dst = true) : ∃ x, s.handIn p = { (storeMsg s p off data l).1 with pends := x } := by
  unfold State.handIn
  rw [hb, hr]
  exact ⟨_, if_pos hs⟩

theorem meshReceive_store {router dir : Nat} {plane : BitVec 2} {p : Packet} {s : State} {off : Nat} {data : List Byte} {l : Half}
    (h : s.granted router dir plane.toNat = some p) (hn : neighbour router dir = none) (hb : p.body = .store off data l) (hr : p.ret = false)
    (hs : s.stands p.dstPhys p.dst = true) : ∃ t m, exec (.meshPacketReceive router dir plane) s = .next t ∧
      t.packets = s.packets.filter (fun y => y.id != p.id) ∧ t.msgs = s.msgs ++ [m] ∧ m.bus = busOf off ∧ m.writer = clusterOf p.src ∧
      m.core = p.src ∧ m.frames = 1 + data.length / 16 ∧ m.body = .store off data ∧ m.ltag = l ∧ t.dram = s.dram := by
  obtain ⟨x, e⟩ := handIn_store (s := s.noted router dir plane.toNat p) hb hr hs
  rw [exec_meshPacketReceive h, hn, e]
  exact ⟨_, _, rfl, rfl, rfl, rfl, rfl, rfl, rfl, rfl, rfl, rfl⟩

theorem meshReceive_answer {router dir : Nat} {plane : BitVec 2} {p : Packet} {s : State} {r : QRec} {n k : Nat}
    (h : s.granted router dir plane.toNat = some p) (hn : neighbour router dir = none) (hb : p.body = .post r n k) (hr : p.ret = true)
    (hk : p.nack = false) (hslot : k < 15) : ∃ t, exec (.meshPacketReceive router dir plane) s = .next t ∧
      t.packets = s.packets.filter (fun y => y.id != p.id) ∧ (t.gang p.src k).posts = (s.gang p.src k).posts - 1 ∧ t.dram = s.dram := by
  have e := handIn_post hb (s.noted router dir plane.toNat p)
  rw [if_pos ⟨hr, hk⟩] at e
  rw [exec_meshPacketReceive h, hn, e]
  have hc := coresAndHost_answerPost ((s.noted router dir plane.toNat p).dropPacket p.id) p.src k
  refine ⟨_, rfl, ?_, posts_answerPost _ _ hslot, ?_⟩ <;> rw [hc.rest] <;> rfl

/-! ### Aging -/

theorem exec_packetAging_halted {id : Nat} {p : Packet} {s : State} (h : s.packet? id = some p)
    (hh : (s.cluster (s.routerCluster p.at_)).halted = true) : exec (.packetAging id) s = .next s := by
  show execPacketAging id s = _
  unfold execPacketAging
  rw [h]
  exact if_neg (by simp [hh])

theorem exec_packetAging_rises {id : Nat} {p : Packet} {s : State} (h : s.packet? id = some p)
    (hh : (s.cluster (s.routerCluster p.at_)).halted = false) (hp : p.ports ≠ []) (hl : p.lost = false) (ht : p.portAt + 512 ≤ s.now) (hn : p.prio < 4) :
    exec (.packetAging id) s = .next (s.setPacket { p with prio := p.prio + 1, portAt := s.now }) := by
  show execPacketAging id s = _
  unfold execPacketAging
  rw [h]
  exact if_pos ⟨by simp [hh], by simpa using hp, by simp [hl], ht, hn⟩

/-! ### Links that are down -/

/-- A message of a kind that goes before others is written while one entry is free. -/
theorem cqPost_privileged {s : State} {e : CqEntry} (hp : e.privileged = true) (hk : e.kind ≠ kindGraphFault) (ho : s.cqOver = []) (hf : 0 < s.cqFree) :
    s.cqPost e = { s with
      cq := s.cq.put s.cqTail e.bits, cqTail := (s.cqTail + 1) % 4096, irqs := if s.cqTail = s.cqHead then s.irqs + 1 else s.irqs } := by
  unfold State.cqPost
  rw [if_pos hp, if_pos (by simp [ho, hf]), cqWrite_of_not_graphFault s hk]

/-- One entry later the queue still has room. -/
theorem cqFree_after {s t : State} (h : 64 < s.cqFree) (hh : t.cqHead = s.cqHead) (ht : t.cqTail = (s.cqTail + 1) % 4096) : 0 < t.cqFree := by
  unfold State.cqFree at *
  rw [hh, ht]
  omega

/-- The entry that a report of a link posts. -/
def linkEntry (s : State) (k : Nat) : CqEntry :=
  { payload := BitVec.ofNat 64 ((Config.freeValue (s.freeCtr + 2)).toNat % 2 ^ 48), tag := 0, src := BitVec.ofNat 16 k
    cause := BitVec.ofNat 8 ((Config.freeValue (s.freeCtr + 1)).toNat % 256), kind := kindLink }

theorem linkMessage_eq {s : State} (k : Nat) (ho : s.cqOver = []) (hf : 0 < s.cqFree) :
    ∃ x y, s.linkMessage k = { s with
      cq := s.cq.put s.cqTail (linkEntry s k).bits, cqTail := (s.cqTail + 1) % 4096, irqs := if s.cqTail = s.cqHead then s.irqs + 1 else s.irqs
      freeCtr := x, bbox := y } := by
  have e : ({ s with freeCtr := s.freeCtr + 3 } : State).cqPost (linkEntry s k) = { ({ s with freeCtr := s.freeCtr + 3 } : State) with
      cq := s.cq.put s.cqTail (linkEntry s k).bits, cqTail := (s.cqTail + 1) % 4096, irqs := if s.cqTail = s.cqHead then s.irqs + 1 else s.irqs } :=
    cqPost_privileged (s := { s with freeCtr := s.freeCtr + 3 }) rfl (show kindLink ≠ kindGraphFault by decide) ho hf
  have e' : s.linkMessage k = (({ s with freeCtr := s.freeCtr + 3 } : State).cqPost (linkEntry s k)).bboxOpen (fieldOfCluster k) 4 := rfl
  rw [e', e]
  exact ⟨_, _, rfl⟩

theorem linkHeartbeatTimeout_tells {router dir q : Nat} {s : State} (hr : router < 13824) (hn : neighbour router dir = some q)
    (hd : (router, dir) ∉ s.linksDown) (hroom : room s) :
    ∃ t, ∃ e e' : CqEntry, exec (.linkHeartbeatTimeout router dir) s = .next t ∧
      t.linksDown = s.linksDown ++ [(router, dir), (q, if dir % 2 = 0 then dir + 1 else dir - 1)] ∧ e.kind = 8 ∧ e'.kind = 8 ∧
      t.cq.get 0 s.cqTail = e.bits ∧ t.cq.get 0 ((s.cqTail + 1) % 4096) = e'.bits ∧ t.packets = s.packets ∧ t.cores = s.cores := by
  obtain ⟨t, ht⟩ : ∃ t, t = { s with linksDown := s.linksDown ++ [(router, dir), (q, if dir % 2 = 0 then dir + 1 else dir - 1)] } := ⟨_, rfl⟩
  have e : exec (.linkHeartbeatTimeout router dir) s = .next ((t.linkMessage (t.clusterOfPhys router)).linkMessage
      ((t.linkMessage (t.clusterOfPhys router)).clusterOfPhys q)) := by
    show execLinkHeartbeatTimeout router dir s = _
    unfold execLinkHeartbeatTimeout
    rw [hn, ht]
    exact if_neg (by simpa [hd] using hr)
  obtain ⟨hover, -, -, hfree⟩ := hroom
  obtain ⟨x, y, e1⟩ := linkMessage_eq (s := t) (t.clusterOfPhys router) (by rw [ht]; exact hover) (by rw [ht]; exact Nat.lt_of_succ_lt (Nat.lt_of_le_of_lt (by decide) hfree))
  obtain ⟨u, hu⟩ : ∃ u, u = t.linkMessage (t.clusterOfPhys router) := ⟨_, rfl⟩
  rw [← hu] at e e1
  have htail : u.cqTail = (s.cqTail + 1) % 4096 := by rw [e1, ht]
  have hcq : u.cq = s.cq.put s.cqTail (linkEntry t (t.clusterOfPhys router)).bits := by rw [e1, ht]
  obtain ⟨x', y', e2⟩ := linkMessage_eq (s := u) (u.clusterOfPhys q) (by rw [e1, ht]; exact hover) (cqFree_after hfree (by rw [e1, ht]) htail)
  have hne : s.cqTail ≠ (s.cqTail + 1) % 4096 := by omega
  refine ⟨_, linkEntry t (t.clusterOfPhys router), linkEntry u (u.clusterOfPhys q), e, ?_, rfl, rfl, ?_, ?_, ?_, ?_⟩
  · rw [e2, e1, ht]
  · rw [e2]
    exact (SMap.get_put_other _ _ _ (htail ▸ hne)).trans (by rw [hcq, SMap.get_put_same])
  · rw [e2, ← htail]
    exact SMap.get_put_same ..
  · rw [e2, e1, ht]
  · rw [e2, e1, ht]

theorem find?_map_of_key {α : Type} {key : α → Nat} {g : α → α} (hg : ∀ y, key (g y) = key y) (l : List α) (a : Nat) :
    (l.map g).find? (fun y => key y == a) = (l.find? fun y => key y == a).map g := by
  rw [List.find?_map]
  congr 2
  funext y
  simp [hg]

theorem id_of_pend? {s : State} {a : Nat} {x : Pend} (h : s.pend? a = some x) : x.id = a := by simpa using List.find?_some h

theorem pend?_setPend {s : State} {a : Nat} {x q : Pend} (h : s.pend? a = some x) (hq : q.id = a) : (s.setPend q).pend? a = some q := by
  have e := find?_map_of_key (key := Pend.id) (g := fun p => if p.id = q.id then q else p) (fun y => by split <;> simp [*]) s.pends a
  have hx := id_of_pend? h
  unfold State.pend? at *
  refine e.trans ?_
  rw [h]
  simp [hx, hq]

/-! ### Packets that are lost -/

theorem failPend_of_some {s : State} {a cause : Nat} {x : Pend} (h : s.pend? a = some x) :
    (s.failPend a cause).pend? a = some { x with failed := some cause } ∧ (s.failPend a cause).packets = s.packets := by
  unfold State.failPend
  rw [h]
  exact ⟨pend?_setPend h (show x.id = a from id_of_pend? h), rfl⟩

theorem exec_linkFallbackReinject_first {id : Nat} {p : Packet} {s : State} (h : s.packet? id = some p) (hl : p.lost = true)
    (ht : p.since + 20000 ≤ s.now) (hf : p.fallback = false) :
    exec (.linkFallbackReinject id) s = .next (s.setPacket
      { p with at_ := if p.ret then p.dstPhys else p.srcPhys, inPort := 4, order := if p.order = 1 then 0 else 1
               vc := if p.order = 1 then 0 else 1, fallback := true, lost := false, since := s.now, portAt := s.now }) := by
  show execLinkFallbackReinject id s = _
  unfold execLinkFallbackReinject
  rw [h]
  exact (if_neg (by simp [hl, ht])).trans (if_neg (by simp [hf]))

theorem exec_linkFallbackReinject_last {id : Nat} {p : Packet} {s : State} (h : s.packet? id = some p) (hl : p.lost = true)
    (ht : p.since + 20000 ≤ s.now) (hf : p.fallback = true) : exec (.linkFallbackReinject id) s = .next (s.failPacket p) := by
  show execLinkFallbackReinject id s = _
  unfold execLinkFallbackReinject
  rw [h]
  exact (if_neg (by simp [hl, ht])).trans (if_pos hf)

theorem failPacket_access {p : Packet} {a : Nat} (hb : p.body = .access a) (s : State) :
    s.failPacket p = (s.dropPacket p.id).failPend a cMachineCheck := by
  unfold State.failPacket
  rw [hb]

theorem failPacket_store {p : Packet} {off : Nat} {data : List Byte} {l : Half} (hb : p.body = .store off data l) (s : State) :
    s.failPacket p = (s.dropPacket p.id).failStore p.id cMachineCheck := by
  unfold State.failPacket
  rw [hb]

theorem failPacket_post {p : Packet} {r : QRec} {n k : Nat} (hb : p.body = .post r n k) (hr : p.ret = false) (s : State) :
    s.failPacket p = (s.coreCheck p.src cMachineCheck).setPacket p.returned := by
  unfold State.failPacket
  rw [hb]
  exact if_neg (by simp [hr])

theorem refusePacket_access {p : Packet} {a : Nat} (hb : p.body = .access a) (s : State) :
    s.refusePacket p = (s.dropPacket p.id).failPend a cTargetRetired := by
  unfold State.refusePacket
  rw [hb]

theorem linkFallbackReinject_post {id : Nat} {p : Packet} {s : State} {r : QRec} {n k : Nat} (h : s.packet? id = some p) (hl : p.lost = true)
    (ht : p.since + 20000 ≤ s.now) (hf : p.fallback = true) (hb : p.body = .post r n k) (hr : p.ret = false) (hroom : room s) :
    ∃ t, ∃ e : CqEntry, exec (.linkFallbackReinject id) s = .next t ∧ e.kind = 7 ∧
      e.src = BitVec.ofNat 16 (clusterOf p.src) ∧ Told s t e ∧ t.packets = s.packets.map fun x => if x.id = p.id then
        { p with ret := true, nack := true, taken := true, at_ := p.srcPhys, lost := false, held := false, reinjected := true } else x := by
  have htold := told_cqPost hroom { payload := BitVec.ofNat 64 (p.src % 2 ^ 48), tag := 0, src := BitVec.ofNat 16 (clusterOf p.src)
                                    cause := BitVec.ofNat 8 cMachineCheck, kind := kindMachineCheck }
  have hq : p.returned = { p with ret := true, nack := true, taken := true, at_ := p.srcPhys, lost := false, held := false, reinjected := true } := by
    unfold Packet.returned
    rw [hr, Bool.not_false, Bool.or_true]
  have hp : (s.coreCheck p.src cMachineCheck).packets = s.packets := by rw [(messages_coreCheck s p.src cMachineCheck).rest]
  refine ⟨_, _, (exec_linkFallbackReinject_last h hl ht hf).trans (congrArg _ (failPacket_post hb hr s)), rfl, rfl, ⟨htold.entry, htold.tail, htold.irqs⟩, ?_⟩
  rw [← hq, ← hp]
  rfl

/-! ### Refusals -/

theorem exec_packetNack_early {id : Nat} {p : Packet} {s : State} (h : s.packet? id = some p) (ha : p.arrived = true) (hr : p.ret = false)
    (hs : s.standsFor p = false) (he : (s.cluster (clusterOf p.dst)).epoch < p.epoch) : exec (.packetNack id) s = .next s := by
  show execPacketNack id s = _
  unfold execPacketNack
  rw [h]
  simp [ha, hr, hs, State.upToDate, he]

theorem exec_packetNack_turns {id : Nat} {p : Packet} {s : State} (h : s.packet? id = some p) (ha : p.arrived = true) (hr : p.ret = false)
    (hs : s.standsFor p = false) (he : p.epoch ≤ (s.cluster (clusterOf p.dst)).epoch) :
    exec (.packetNack id) s = .next (s.setPacket
      { p.back true s.now with epoch := if p.reinjected then p.epoch else (s.cluster (clusterOf p.dst)).epoch }) := by
  show execPacketNack id s = _
  unfold execPacketNack
  rw [h]
  cases hi : p.reinjected <;> simp [ha, hr, hs, State.upToDate, he, hi] <;> rfl

theorem exec_packetNack_again {id : Nat} {p : Packet} {s : State} (h : s.packet? id = some p) (ha : p.arrived = true) (hr : p.ret = true)
    (hn : p.nack = true) (hi : p.reinjected = true) : exec (.packetNack id) s = .next (s.refusePacket p) := by
  show execPacketNack id s = _
  unfold execPacketNack
  rw [h]
  simp [ha, hr, hn, hi]

theorem exec_packetNack_waits {id : Nat} {p : Packet} {s : State} (h : s.packet? id = some p) (ha : p.arrived = true) (hr : p.ret = true)
    (hn : p.nack = true) (hi : p.reinjected = false) (he : (s.cluster (clusterOf p.src)).epoch < p.epoch) : exec (.packetNack id) s = .next s := by
  show execPacketNack id s = _
  unfold execPacketNack
  rw [h]
  simp [ha, hr, hn, hi, he]

theorem exec_packetNack_looks {id : Nat} {p : Packet} {s : State} (h : s.packet? id = some p) (ha : p.arrived = true) (hr : p.ret = true)
    (hn : p.nack = true) (hi : p.reinjected = false) (he : p.epoch ≤ (s.cluster (clusterOf p.src)).epoch) :
    exec (.packetNack id) s = .next (s.lookAgain { p with reinjected := true }) := by
  show execPacketNack id s = _
  unfold execPacketNack
  rw [h]
  simp [ha, hr, hn, hi, he]

/-- The packet as it is looked up once more at its source. -/
def Packet.sentAgain (p : Packet) (epoch now : Nat) : Packet :=
  { p with
    at_ := p.srcPhys, ret := false, nack := false, taken := false, held := false, lost := false, fallback := false, inPort := 4
    order := p.clsOrder, vc := if p.clsOrder = 1 then 1 else 0, epoch, since := now, portAt := now }

theorem lookAgain_bad {s : State} {p : Packet} (h : (p.srcPhys, p.dst) ∈ s.badEntries) :
    s.lookAgain p = s.setPacket { p.sentAgain (s.cluster (clusterOf p.src)).epoch s.now with held := true } := by
  unfold State.lookAgain
  exact if_pos (by simpa using h)

theorem readEntry_of_not_soft {s : State} {r e : Nat} (h : (r, e) ∉ s.softEntries) : s.readEntry r e = s := by
  unfold State.readEntry
  exact if_neg (by simpa using h)

/-- What becomes of a packet that is looked up once more, its entry good. -/
def State.sentOn (s : State) (p : Packet) (r : Route) (epoch now : Nat) : State :=
  match r with
  | .to d => s.setPacket { p.sentAgain epoch now with dstPhys := d }
  | .retired => s.refusePacket p
  | .unreachable => s.failPacket p

theorem lookAgain_good {s : State} {p : Packet} (h : (p.srcPhys, p.dst) ∉ s.badEntries) :
    s.lookAgain p = (s.readEntry p.srcPhys p.dst).sentOn p ((s.readEntry p.srcPhys p.dst).sends (clusterOf p.src) p.dst)
      (s.cluster (clusterOf p.src)).epoch s.now := by
  unfold State.lookAgain
  exact (if_neg (by simpa using h)).trans rfl

theorem lookAgain_of_not_soft {s : State} {p : Packet} (h : (p.srcPhys, p.dst) ∉ s.badEntries) (h' : (p.srcPhys, p.dst) ∉ s.softEntries) :
    s.lookAgain p = s.sentOn p (s.sends (clusterOf p.src) p.dst) (s.cluster (clusterOf p.src)).epoch s.now := by
  rw [lookAgain_good h, readEntry_of_not_soft h']

theorem exec_packetNack_sends {id : Nat} {p : Packet} {s : State} {r : Route} (h : s.packet? id = some p) (ha : p.arrived = true) (hr : p.ret = true)
    (hn : p.nack = true) (hi : p.reinjected = false) (he : p.epoch ≤ (s.cluster (clusterOf p.src)).epoch) (hgood : (p.srcPhys, p.dst) ∉ s.badEntries)
    (hsoft : (p.srcPhys, p.dst) ∉ s.softEntries) (hsend : s.sends (clusterOf p.src) p.dst = r) :
    exec (.packetNack id) s = .next (s.sentOn { p with reinjected := true } r (s.cluster (clusterOf p.src)).epoch s.now) := by
  rw [exec_packetNack_looks h ha hr hn hi he, lookAgain_of_not_soft (p := { p with reinjected := true }) hgood hsoft]
  exact congrArg (fun x => Host.Outcome.next (s.sentOn { p with reinjected := true } x (s.cluster (clusterOf p.src)).epoch s.now)) hsend

theorem meshPackets_holds : meshPackets := by
  refine ⟨?_, ?_, fun router dir q s hr hn hd hroom => linkHeartbeatTimeout_tells hr hn hd hroom, ?_, ?_⟩
  · rintro router dir plane p s o h rfl runs
    refine ⟨fun q hn => ⟨fun hup => ⟨_, ?_, becomes_setPacket _ rfl⟩, fun hdown => ⟨_, ?_, becomes_setPacket _ rfl⟩⟩,
      fun hn => ⟨fun hs hp => ⟨_, ?_, becomes_setPacket _ rfl⟩, fun r n k hb hno => ⟨_, ?_, becomes_setPacket _ rfl⟩,
        fun r n k hb hr hk hslot => meshReceive_answer h hn hb hr hk hslot, fun off data l hb hr hs => meshReceive_store h hn hb hr hs⟩⟩
    · refine (exec_meshPacketReceive h).trans ?_
      rw [hn]
      exact congrArg _ (if_pos hup)
    · refine (exec_meshPacketReceive h).trans ?_
      rw [hn]
      exact congrArg _ (if_neg (by simp [hdown]))
    · refine (exec_meshPacketReceive h).trans ?_
      rw [hn]
      exact congrArg _ (handIn_of_plain hs hp _)
    · refine (exec_meshPacketReceive h).trans ?_
      rw [hn]
      exact congrArg _ ((handIn_post hb _).trans (if_neg fun hx => by simp [hx.1, hx.2] at hno))
  · intro id p s h halted
    exact ⟨fun hh => exec_packetAging_halted h hh, fun hh hp hl ht hn => ⟨_, exec_packetAging_rises h hh hp hl ht hn, becomes_setPacket s rfl⟩⟩
  · intro id p s h hl ht runs
    refine ⟨fun hf => ⟨_, exec_linkFallbackReinject_first h hl ht hf, becomes_setPacket s rfl⟩, fun a x hf hb hx => ?_, fun off data l hf hb => ?_,
      fun r n k hf hb hr hroom => linkFallbackReinject_post h hl ht hf hb hr hroom⟩
    · refine ⟨_, (exec_linkFallbackReinject_last h hl ht hf).trans (congrArg _ (failPacket_access hb s)), ?_⟩
      exact failPend_of_some (s := s.dropPacket p.id) hx
    · exact ⟨_, (exec_linkFallbackReinject_last h hl ht hf).trans (congrArg _ (failPacket_store hb s)), rfl, rfl⟩
  · intro id p s h ha runs turned again fails
    refine ⟨fun hr hs => ⟨fun he => exec_packetNack_early h ha hr hs he, fun he => ⟨_, exec_packetNack_turns h ha hr hs he, becomes_setPacket s rfl⟩⟩,
      fun hr hn => ⟨fun hi a x hb hx => ?_, fun hi he => exec_packetNack_waits h ha hr hn hi he, fun hi he => ⟨fun hbad => ?_, fun hgood hsoft => ⟨fun d hd => ?_, fun hret a x hb hx => ?_, fun hun a x hb hx => ?_⟩⟩⟩⟩
    · refine ⟨_, (exec_packetNack_again h ha hr hn hi).trans (congrArg _ (refusePacket_access hb s)), ?_⟩
      exact failPend_of_some (s := s.dropPacket p.id) hx
    · exact ⟨_, (exec_packetNack_looks h ha hr hn hi he).trans (congrArg _ (lookAgain_bad hbad)), becomes_setPacket s rfl⟩
    · exact ⟨_, exec_packetNack_sends h ha hr hn hi he hgood hsoft hd, becomes_setPacket s rfl⟩
    · refine ⟨_, (exec_packetNack_sends h ha hr hn hi he hgood hsoft hret).trans (congrArg _ (refusePacket_access (p := { p with reinjected := true }) hb s)), ?_⟩
      exact failPend_of_some (s := s.dropPacket p.id) hx
    · refine ⟨_, (exec_packetNack_sends h ha hr hn hi he hgood hsoft hun).trans (congrArg _ (failPacket_access (p := { p with reinjected := true }) hb s)), ?_⟩
      exact failPend_of_some (s := s.dropPacket p.id) hx

/-! ### Scrubs and reads of the routers' tables -/

theorem strike_first {s : State} {r e : Nat} (hr : r < 13824) (he : e < nCores) (hb : (r, e) ∉ s.badEntries) (hs : s.softEntries = []) :
    s.strike r e = { s with softEntries := [(r, e)] } := by
  unfold State.strike
  rw [if_neg (by simp [hb, not_le.mpr hr, not_le.mpr he]), if_neg (by simp [hs]), hs]
  rfl

theorem strike_second {s : State} {r e : Nat} (hr : r < 13824) (he : e < nCores) (hb : (r, e) ∉ s.badEntries) :
    State.strike { s with softEntries := [(r, e)] } r e = { s with softEntries := [], badEntries := s.badEntries ++ [(r, e)] } := by
  unfold State.strike
  rw [if_neg (by simp [hb, not_le.mpr hr, not_le.mpr he]), if_pos (by simp)]
  simp

/-- A scrub after the flips have struck. -/
theorem exec_tableScrub (flips : List (Nat × Nat)) {s t : State} (h : flips.foldl (fun s p => s.strike p.1 p.2) s = t) :
    exec (.tableScrub flips) s = .next { t with
      eccFixed := t.softEntries.foldl (fun (m : SMap Nat) p => m.put p.1 (m.get 0 p.1 + 1)) t.eccFixed, softEntries := [] } := by
  subst h
  rfl

theorem tableScrub_fixes {s : State} {r e : Nat} (hr : r < 13824) (he : e < nCores) (hb : (r, e) ∉ s.badEntries) (hs : s.softEntries = []) :
    ∃ t, exec (.tableScrub [(r, e)]) s = .next t ∧ t.eccFixed.get 0 r = s.eccFixed.get 0 r + 1 ∧ { t with eccFixed := s.eccFixed } = s := by
  refine ⟨_, exec_tableScrub [(r, e)] (strike_first hr he hb hs), SMap.get_put_same .., ?_⟩
  rw [← hs]

theorem tableScrub_loses {s : State} {r e : Nat} (hr : r < 13824) (he : e < nCores) (hb : (r, e) ∉ s.badEntries) (hs : s.softEntries = []) :
    ∃ t, exec (.tableScrub [(r, e), (r, e)]) s = .next t ∧ t.badEntries = s.badEntries ++ [(r, e)] ∧ { t with badEntries := s.badEntries } = s := by
  have h : [(r, e), (r, e)].foldl (fun s p => s.strike p.1 p.2) s = { s with softEntries := [], badEntries := s.badEntries ++ [(r, e)] } := by
    rw [← strike_second hr he hb, ← strike_first hr he hb hs]
    rfl
  refine ⟨_, exec_tableScrub _ h, rfl, ?_⟩
  show { s with softEntries := [] } = s
  rw [← hs]

theorem readEntry_of_soft {s : State} {r e : Nat} (h : (r, e) ∈ s.softEntries) :
    s.readEntry r e = { s with softEntries := s.softEntries.filter (· != (r, e)), eccFixed := s.eccFixed.put r (s.eccFixed.get 0 r + 1) } := by
  unfold State.readEntry
  exact if_pos (by simpa using h)

theorem readEntry_rest (s : State) (r e : Nat) : s.readEntry r e = { s with
    softEntries := (s.readEntry r e).softEntries, eccFixed := (s.readEntry r e).eccFixed } := by
  by_cases h : (r, e) ∈ s.softEntries
  · rw [readEntry_of_soft h]
  · rw [readEntry_of_not_soft h]

/-! ### Requests and answers -/

/-- The routers that `router` answers with its copy of an entry. -/
def State.askers (s : State) (router entry : Nat) : List Nat :=
  ((s.badEntries.filter fun b => b.2 == entry && (askOf b.1 == router && s.linkUp b.1 (if b.1 % 144 = 143 then 3 else 2) &&
    !s.tblAnswers.any fun a => a.1 == b.1 && a.2.1 == entry)).map (·.1)).dedup

theorem exec_routerTableRequest (r e : Nat) (s : State) : exec (.routerTableRequest r e) s = .next { s.readEntry r e with
    tblAnswers := s.tblAnswers ++ (s.askers r e).map fun q => (q, e, !s.badEntries.contains (r, e)) } := rfl

theorem mem_askers {s : State} {q r e : Nat} : q ∈ s.askers r e ↔
    (q, e) ∈ s.badEntries ∧ askOf q = r ∧ s.linkUp q (if q % 144 = 143 then 3 else 2) = true ∧ ∀ b, (q, e, b) ∉ s.tblAnswers := by
  unfold State.askers
  rw [List.mem_dedup, List.mem_map]
  constructor
  · rintro ⟨⟨q', e'⟩, h, rfl⟩
    obtain ⟨hb, h⟩ := List.mem_filter.mp h
    simp only [Bool.and_eq_true, beq_iff_eq, Bool.not_eq_true', List.any_eq_false] at h
    obtain ⟨rfl, ⟨ha, hl⟩, hn⟩ := h
    exact ⟨hb, ha, hl, fun b hm => hn _ hm (by simp)⟩
  · rintro ⟨hb, ha, hl, hn⟩
    refine ⟨(q, e), List.mem_filter.mpr ⟨hb, ?_⟩, rfl⟩
    simp only [Bool.and_eq_true, beq_iff_eq, Bool.not_eq_true', List.any_eq_false]
    refine ⟨trivial, ⟨ha, hl⟩, ?_⟩
    rintro ⟨a, a', b⟩ hm hx
    simp only at hx
    obtain ⟨rfl, rfl⟩ := hx
    exact hn b hm

/-! ### What a repaired entry lets go -/

/-- The mesh's packets and the entries that cannot be corrected. -/
def State.meshPart (s : State) : List Packet × List (Nat × Nat) := (s.packets, s.badEntries)

theorem CoresAndHost.meshPart {s t : State} (h : CoresAndHost s t) : t.meshPart = s.meshPart := by
  rw [h.rest]
  rfl

theorem meshPart_failPend (s : State) (id cause : Nat) : (s.failPend id cause).meshPart = s.meshPart := by
  unfold State.failPend
  split <;> rfl

theorem meshPart_failRequest (s : State) (msg : Nat) : (s.failRequest msg).meshPart = s.meshPart := by
  unfold State.failRequest
  split
  · rfl
  · simp only []
    split <;> rfl

theorem meshPart_readEntry (s : State) (r e : Nat) : (s.readEntry r e).meshPart = s.meshPart := by
  rw [readEntry_rest]
  rfl

/-- Router `r` holds the packet for its entry `e`. -/
def Packet.heldFor (r e : Nat) (p : Packet) : Prop := p.at_ = r ∧ p.dst = e ∧ p.held = true

/-- From `s` to `t` no packet has come that `r` holds for `e`, and of those numbered `id` none is left. -/
structure LetsGo (r e id : Nat) (s t : State) : Prop where
  bad : t.badEntries = s.badEntries
  held : ∀ p ∈ t.packets, p.heldFor r e → p ∈ s.packets ∧ p.id ≠ id

theorem letsGo_of_meshPart {r e id : Nat} {s t u : State} (h : LetsGo r e id s t) (e' : u.meshPart = t.meshPart) : LetsGo r e id s u := by
  have hp := congrArg Prod.fst e'
  have hb := congrArg Prod.snd e'
  exact ⟨hb.trans h.bad, fun p hm => h.held p (Eq.mp (congrArg (p ∈ ·) hp) hm)⟩

theorem letsGo_after_meshPart {r e id : Nat} {s t u : State} (h : LetsGo r e id t u) (e' : t.meshPart = s.meshPart) : LetsGo r e id s u := by
  have hp := congrArg Prod.fst e'
  have hb := congrArg Prod.snd e'
  exact ⟨h.bad.trans hb, fun p hm hh => (h.held p hm hh).imp_left (Eq.mp (congrArg (p ∈ ·) hp))⟩

theorem letsGo_dropPacket (r e : Nat) (s : State) (id : Nat) : LetsGo r e id s (s.dropPacket id) := by
  refine ⟨rfl, fun p hm _ => ?_⟩
  obtain ⟨hm, hne⟩ := List.mem_filter.mp hm
  exact ⟨hm, by simpa using hne⟩

theorem letsGo_setPacket {r e : Nat} {q : Packet} (h : ¬ q.heldFor r e) (s : State) : LetsGo r e q.id s (s.setPacket q) := by
  refine ⟨rfl, fun p hm hh => ?_⟩
  obtain ⟨x, hx, rfl⟩ := List.mem_map.mp hm
  by_cases hi : x.id = q.id
  · simp only [if_pos hi] at hh
    exact absurd hh h
  · simp only [if_neg hi] at hh ⊢
    exact ⟨hx, hi⟩

theorem returned_not_held (r e : Nat) (p : Packet) : ¬ p.returned.heldFor r e := fun h => Bool.false_ne_true h.2.2

theorem letsGo_refusePacket (r e : Nat) (s : State) (p : Packet) : LetsGo r e p.id s (s.refusePacket p) := by
  have hd := letsGo_dropPacket r e s p.id
  unfold State.refusePacket
  split
  · exact letsGo_of_meshPart hd (meshPart_failPend _ _ _)
  · exact letsGo_of_meshPart hd rfl
  · exact letsGo_setPacket (returned_not_held r e p) s
  · exact letsGo_of_meshPart hd (meshPart_failRequest _ _)
  · exact letsGo_of_meshPart hd rfl
  · exact letsGo_of_meshPart hd rfl

theorem meshPart_coreCheck (s : State) (c cause : Nat) : (s.coreCheck c cause).meshPart = s.meshPart :=
  (messages_coreCheck s c cause).coresAndHost.meshPart

theorem letsGo_failPacket (r e : Nat) (s : State) (p : Packet) : LetsGo r e p.id s (s.failPacket p) := by
  have hd := letsGo_dropPacket r e s p.id
  unfold State.failPacket
  split
  · exact letsGo_of_meshPart hd (meshPart_failPend _ _ _)
  · exact letsGo_of_meshPart hd rfl
  · simp only []
    split
    · exact letsGo_after_meshPart (letsGo_of_meshPart (letsGo_dropPacket r e _ p.id) (coresAndHost_answerPost _ _ _).meshPart) (meshPart_coreCheck s _ _)
    · exact letsGo_after_meshPart (letsGo_setPacket (returned_not_held r e p) _) (meshPart_coreCheck s _ _)
  · exact letsGo_of_meshPart hd (meshPart_failRequest _ _)
  · exact letsGo_of_meshPart hd (meshPart_coreCheck _ _ _)
  · exact letsGo_of_meshPart hd rfl

theorem letsGo_sentOn (r e : Nat) (s : State) (p : Packet) (rt : Route) (epoch now : Nat) : LetsGo r e p.id s (s.sentOn p rt epoch now) := by
  unfold State.sentOn
  split
  · exact letsGo_setPacket (q := { p.sentAgain epoch now with dstPhys := _ }) (fun h => Bool.false_ne_true h.2.2) s
  · exact letsGo_refusePacket r e s p
  · exact letsGo_failPacket r e s p

theorem letsGo_lookAgain {r : Nat} {s : State} {p : Packet} (h : (r, p.dst) ∉ s.badEntries) : LetsGo r p.dst p.id s (s.lookAgain p) := by
  by_cases hb : (p.srcPhys, p.dst) ∈ s.badEntries
  · rw [lookAgain_bad hb]
    refine letsGo_setPacket (q := { p.sentAgain (s.cluster (clusterOf p.src)).epoch s.now with held := true }) (fun hh => h ?_) s
    have hat : p.srcPhys = r := hh.1
    exact hat ▸ hb
  · rw [lookAgain_good hb]
    exact letsGo_after_meshPart (letsGo_sentOn r p.dst _ p _ _ _) (meshPart_readEntry s _ _)

/-- All the packets that are looked up again are let go. -/
theorem letGo_foldl {r e : Nat} (l : List Packet) (hl : ∀ p ∈ l, p.dst = e) (s : State) (hb : (r, e) ∉ s.badEntries) :
    (l.foldl (fun s p => s.lookAgain p) s).badEntries = s.badEntries ∧
      ∀ p ∈ (l.foldl (fun s p => s.lookAgain p) s).packets, p.heldFor r e → p ∈ s.packets ∧ ∀ q ∈ l, p.id ≠ q.id := by
  induction l generalizing s with
  | nil => exact ⟨rfl, fun p hm _ => ⟨hm, fun q hq => nomatch hq⟩⟩
  | cons a l ih =>
    obtain rfl := hl a List.mem_cons_self
    have h1 := letsGo_lookAgain (r := r) hb
    obtain ⟨h2, h3⟩ := ih (fun p hp => hl p (List.mem_cons_of_mem _ hp)) (s.lookAgain a) (by rw [h1.bad]; exact hb)
    refine ⟨h2.trans h1.bad, fun p hm hh => ?_⟩
    obtain ⟨h4, h5⟩ := h3 p hm hh
    obtain ⟨h6, h7⟩ := h1.held p h4 hh
    exact ⟨h6, fun q hq => (List.mem_cons.mp hq).elim (fun e => e ▸ h7) (h5 q)⟩

theorem unhold_letsGo (s : State) (r e : Nat) :
    (r, e) ∉ (s.unhold r e).badEntries ∧ ∀ p ∈ (s.unhold r e).packets, p.at_ = r → p.dst = e → p.held = false := by
  have hb : (r, e) ∉ s.badEntries.filter (· != (r, e)) := fun h => by simpa using (List.mem_filter.mp h).2
  obtain ⟨h1, h2⟩ := letGo_foldl (r := r) (e := e) (s.packets.filter fun p => p.held && p.at_ == r && p.dst == e) (fun p hp => by
    have h := (List.mem_filter.mp hp).2
    simp only [Bool.and_eq_true, beq_iff_eq] at h
    exact h.2) { s with badEntries := s.badEntries.filter (· != (r, e)), softEntries := s.softEntries.filter (· != (r, e)) } hb
  refine ⟨fun h => hb (Eq.mp (congrArg ((r, e) ∈ ·) h1) h), fun p hm ha hd => ?_⟩
  by_contra hh
  have hh : p.held = true := by simpa using hh
  obtain ⟨h3, h4⟩ := h2 p hm ⟨ha, hd, hh⟩
  exact h4 p (List.mem_filter.mpr ⟨h3, by simp [hh, ha, hd]⟩) rfl

/-! ### Memory under a repair -/

/-- The packet carries no data of a superblock. -/
def Packet.dataless (p : Packet) : Prop := (∀ q, p.body ≠ .supply q) ∧ ∀ sb, p.body ≠ .evict sb

theorem dram_refusePacket {p : Packet} (h : p.dataless) (s : State) : (s.refusePacket p).dram = s.dram := by
  unfold State.refusePacket
  split
  · exact dram_failPend _ _ _
  · rfl
  · rfl
  · next e => exact absurd e (h.1 _)
  · next e => exact absurd e (h.2 _)
  · rfl

theorem dram_failPacket {p : Packet} (h : p.dataless) (s : State) : (s.failPacket p).dram = s.dram := by
  unfold State.failPacket
  split
  · exact dram_failPend _ _ _
  · rfl
  · simp only []
    split
    · exact (dram_answerPost _ _ _).trans (dram_coreCheck _ _ _)
    · exact dram_coreCheck _ _ _
  · next e => exact absurd e (h.1 _)
  · next e => exact absurd e (h.2 _)
  · rfl

theorem dram_lookAgain {p : Packet} (h : p.dataless) (s : State) : (s.lookAgain p).dram = s.dram := by
  by_cases hb : (p.srcPhys, p.dst) ∈ s.badEntries
  · rw [lookAgain_bad hb]
    rfl
  · rw [lookAgain_good hb]
    unfold State.sentOn
    split
    · exact dram_readEntry _ _ _
    · exact (dram_refusePacket h _).trans (dram_readEntry _ _ _)
    · exact (dram_failPacket h _).trans (dram_readEntry _ _ _)

theorem dram_unhold {s : State} (h : ∀ p ∈ s.packets, p.dataless) (r e : Nat) : (s.unhold r e).dram = s.dram := by
  have hfold (l : List Packet) (hl : ∀ p ∈ l, p.dataless) (t : State) : (l.foldl (fun s p => s.lookAgain p) t).dram = t.dram := by
    induction l generalizing t with
    | nil => rfl
    | cons a l ih => exact (ih (fun p hp => hl p (List.mem_cons_of_mem _ hp)) _).trans (dram_lookAgain (hl a List.mem_cons_self) t)
  exact hfold _ (fun p hp => h p (List.mem_filter.mp hp).1) _

theorem exec_tableRepairResponse {r e x y : Nat} {good : Bool} {s : State}
    (h : s.tblAnswers.find? (fun a => a.1 == r && a.2.1 == e) = some (x, y, good)) :
    ∃ l, exec (.tableRepairResponse r e) s = .next (if good then State.unhold { s with tblAnswers := l } r e
      else (State.openMessage { s with tblAnswers := l } kindMachineCheck (s.clusterOfPhys r)).bboxOpen (regionOfPhys r / 16 * 8 + regionOfPhys r % 8) 3) := by
  refine ⟨s.tblAnswers.filter fun a => !(a.1 == r && a.2.1 == e), ?_⟩
  show execTableRepairResponse r e s = _
  unfold execTableRepairResponse
  rw [h]
  cases good <;> rfl

/-- The entry that an unspecified message of kind `kind` posts. -/
def openEntry (s : State) (kind : BitVec 8) (src : Nat) : CqEntry :=
  { payload := BitVec.ofNat 64 ((Config.freeValue (s.freeCtr + 2)).toNat % 2 ^ 48), tag := 0, src := BitVec.ofNat 16 src
    cause := BitVec.ofNat 8 ((Config.freeValue (s.freeCtr + 1)).toNat % 256), kind }

theorem told_openMessage {s : State} (h : room s) (kind : BitVec 8) (src : Nat) : Told s (s.openMessage kind src) (openEntry s kind src) := by
  have ht := told_cqPost (s := { s with freeCtr := s.freeCtr + 3 }) h (openEntry s kind src)
  exact ⟨ht.entry, ht.tail, ht.irqs⟩

theorem routerTables_holds : routerTables := by
  refine ⟨fun r e s hr he hb hs => ⟨tableScrub_fixes hr he hb hs, tableScrub_loses hr he hb hs⟩,
    fun r e s => ⟨readEntry_of_not_soft, fun h => ?_⟩, fun r e s => ⟨_, exec_routerTableRequest r e s, fun q hb ha hl => ?_, ?_⟩,
    fun r e x y good s h => ⟨fun hg => ?_, fun hg hroom => ?_⟩⟩
  · rw [readEntry_of_soft h]
    exact ⟨fun hm => by simpa using (List.mem_filter.mp hm).2, SMap.get_put_same .., rfl⟩
  · by_cases hx : ∃ b, (q, e, b) ∈ s.tblAnswers
    · exact .inr hx
    · refine .inl (List.mem_append_right _ (List.mem_map.mpr ⟨q, mem_askers.mpr ⟨hb, ha, hl, fun b hm => hx ⟨b, hm⟩⟩, rfl⟩))
  · rw [readEntry_rest]
  · subst hg
    obtain ⟨l, he⟩ := exec_tableRepairResponse h
    obtain ⟨h1, h2⟩ := unhold_letsGo { s with tblAnswers := l } r e
    exact ⟨_, he, h1, h2, fun hp => dram_unhold (s := { s with tblAnswers := l }) hp r e⟩
  · subst hg
    obtain ⟨l, he⟩ := exec_tableRepairResponse h
    have ht := told_openMessage (s := { s with tblAnswers := l }) hroom kindMachineCheck (s.clusterOfPhys r)
    have hm := messages_openMessage { s with tblAnswers := l } (kind := kindMachineCheck) (by decide) (s.clusterOfPhys r)
    exact ⟨_, _, he, rfl, ⟨ht.entry, ht.tail, ht.irqs⟩, by rw [hm.rest]; rfl, by rw [hm.rest]; rfl⟩

/-! ### What caches and superblocks do to a cluster -/

/-- A snoop that cluster `c` sends. -/
def OwnSnoop (c : Nat) (m : Msg) : Prop := m.writer = c ∧ ∃ k sb q, m.body = .snoop k sb q

/-- From `s` to `t` clusters have changed in their caches alone, cores in theirs, and messages are new ones only: snoops of cluster `c`. -/
structure CachesOnly (c : Nat) (s t : State) : Prop where
  msgs : ∃ l, t.msgs = s.msgs ++ l ∧ ∀ m ∈ l, OwnSnoop c m
  cluster : ∀ k, { t.cluster k with
    moesi := (s.cluster k).moesi, l2 := (s.cluster k).l2, evicts := (s.cluster k).evicts, ties := (s.cluster k).ties } = s.cluster k
  core : ∀ q, { t.core q with coh := (s.core q).coh, l1 := (s.core q).l1 } = s.core q

theorem CachesOnly.refl (c : Nat) (s : State) : CachesOnly c s s :=
  ⟨⟨[], (List.append_nil _).symm, fun _ h => nomatch h⟩, fun _ => rfl, fun _ => rfl⟩

theorem CachesOnly.trans {c : Nat} {s t u : State} (h : CachesOnly c s t) (h' : CachesOnly c t u) : CachesOnly c s u where
  msgs := by
    obtain ⟨l, e, hl⟩ := h.msgs
    obtain ⟨l', e', hl'⟩ := h'.msgs
    refine ⟨l ++ l', by rw [e', e, List.append_assoc], fun m hm => (List.mem_append.mp hm).elim (hl m) (hl' m)⟩
  cluster k := by rw [← h.cluster k, ← h'.cluster k]
  core q := by rw [← h.core q, ← h'.core q]

theorem cachesOnly_foldl {α : Type} {c : Nat} {f : State → α → State} (hf : ∀ s a, CachesOnly c s (f s a)) (l : List α) (s : State) :
    CachesOnly c s (l.foldl f s) := by
  induction l generalizing s with
  | nil => exact .refl c s
  | cons a l ih => exact (hf s a).trans (ih _)

/-- A change that is no cluster's, no core's and no message. -/
theorem cachesOnly_of_rest {c : Nat} {s t : State} (h1 : t.msgs = s.msgs) (h2 : t.clusters = s.clusters) (h3 : t.cores = s.cores) : CachesOnly c s t := by
  refine ⟨⟨[], by rw [h1, List.append_nil], fun _ h => nomatch h⟩, fun k => ?_, fun q => ?_⟩
  · unfold State.cluster
    rw [h2]
  · unfold State.core
    rw [h3]

theorem cachesOnly_modCluster (c : Nat) (s : State) (k : Nat) {f : Cluster → Cluster}
    (hf : ∀ x : Cluster, { f x with moesi := x.moesi, l2 := x.l2, evicts := x.evicts, ties := x.ties } = x) : CachesOnly c s (s.modCluster k f) := by
  refine ⟨⟨[], (List.append_nil _).symm, fun _ h => nomatch h⟩, fun q => ?_, fun _ => rfl⟩
  by_cases h : q = k
  · rw [h, cluster_modCluster_same]
    exact hf _
  · rw [cluster_modCluster_other _ _ h]

theorem cachesOnly_modCore (c : Nat) (s : State) (q : Nat) {f : CoreSt → CoreSt} (hf : ∀ x : CoreSt, { f x with coh := x.coh, l1 := x.l1 } = x) :
    CachesOnly c s (s.modCore q f) := by
  refine ⟨⟨[], (List.append_nil _).symm, fun _ h => nomatch h⟩, fun _ => rfl, fun d => ?_⟩
  by_cases h : d = q
  · rw [h, core_modCore_same]
    exact hf _
  · rw [core_modCore_other _ _ h]

theorem SnoopOnly.cachesOnly {s t : State} (h : SnoopOnly s t) (c : Nat) : CachesOnly c s t := by
  refine ⟨⟨[], by rw [h.rest, List.append_nil], fun _ h => nomatch h⟩, fun k => ?_, fun q => ?_⟩
  · rw [← h.cluster k]
  · rw [← h.core q]

theorem cachesOnly_setMoesi (c : Nat) (s : State) (k sb : Nat) (x : Moesi) : CachesOnly c s (s.setMoesi k sb x) :=
  (snoopOnly_setMoesi s k sb x).cachesOnly c

theorem cachesOnly_setL2 (c : Nat) (s : State) (k la : Nat) (l : Line) : CachesOnly c s (s.setL2 k la l) :=
  cachesOnly_modCluster c s k fun _ => rfl

theorem cachesOnly_readEntry (c : Nat) (s : State) (r e : Nat) : CachesOnly c s (s.readEntry r e) := by
  rw [readEntry_rest]
  exact cachesOnly_of_rest rfl rfl rfl

theorem cachesOnly_homeWrite (c : Nat) (s : State) (k pa n v : Nat) : CachesOnly c s (s.homeWrite k pa n v) := by
  unfold State.homeWrite
  split
  · exact cachesOnly_of_rest rfl rfl rfl
  · exact .refl c s

theorem cachesOnly_l2WriteBack (c : Nat) (s : State) (k la : Nat) : CachesOnly c s (s.l2WriteBack k la) := by
  unfold State.l2WriteBack
  simp only []
  split
  · exact .refl c s
  · exact (cachesOnly_readEntry c s _ _).trans ((cachesOnly_homeWrite c _ _ _ _ _).trans (cachesOnly_setL2 c _ _ _ _))

theorem cachesOnly_l2WriteUnit (c : Nat) (s : State) (k la : Nat) : CachesOnly c s (s.l2WriteUnit k la) := by
  unfold State.l2WriteUnit
  simp only []
  have h := cachesOnly_foldl (c := c) (fun s a => cachesOnly_l2WriteBack c s k a) (tied (s.cluster k).ties la) s
  split
  · exact h
  · exact h.trans (cachesOnly_modCluster c _ k fun _ => rfl)

theorem cachesOnly_l2Evict (c : Nat) (s : State) (k sb : Nat) : CachesOnly c s (s.l2Evict k sb) := by
  unfold State.l2Evict
  exact (cachesOnly_foldl (fun s i => cachesOnly_l2WriteUnit c s k (4 * sb + i)) _ s).trans (cachesOnly_modCluster c _ k fun _ => rfl)

theorem cachesOnly_sendSnoop (s : State) (c bus core frames : Nat) (k : Snoop) (sb q : Nat) :
    CachesOnly c s (s.sendMsg bus c core frames (.snoop k sb q)).1 :=
  ⟨⟨_, rfl, fun m hm => by rw [List.mem_singleton.mp hm]; exact ⟨rfl, _, _, _, rfl⟩⟩, fun _ => rfl, fun _ => rfl⟩

theorem cachesOnly_inject (c : Nat) (s : State) (src dst : Nat) (l : Launch) (rc addr : Nat) (body : PktBody) :
    CachesOnly c s (s.inject src dst l rc addr body) := by
  unfold State.inject
  refine (cachesOnly_readEntry c s (s.physOf src) dst).trans ?_
  exact cachesOnly_of_rest rfl rfl rfl

theorem cachesOnly_evicting (c : Nat) (s : State) (l : List Nat) : CachesOnly c s { s with evicting := l } := cachesOnly_of_rest rfl rfl rfl

theorem cachesOnly_homeBits (c : Nat) (s : State) (x : SMap (BitVec 2)) : CachesOnly c s { s with homeBits := x } := cachesOnly_of_rest rfl rfl rfl

theorem cachesOnly_countSnoop (c : Nat) (s : State) (bus k : Nat) : CachesOnly c s (s.countSnoop bus k) := cachesOnly_of_rest rfl rfl rfl

theorem cachesOnly_loseCoherent (s : State) (c sb : Nat) : CachesOnly c s (s.loseCoherent c sb) := by
  have h := (cachesOnly_setMoesi c s c sb .i).trans (cachesOnly_modCluster c _ c (f := fun x => { x with evicts := x.evicts + 1 }) fun _ => rfl)
  unfold State.loseCoherent
  simp only []
  split
  · exact h
  · refine h.trans ((cachesOnly_sendSnoop _ c (sb % 16) (transmitter c) 1 .ev sb 0).trans ?_)
    exact (cachesOnly_inject c _ (transmitter c) (256 * sb / 2 ^ 27) {} 0 (256 * sb) (.evict sb)).trans (cachesOnly_evicting c _ _)

theorem cachesOnly_l2Shrink (s : State) (c sb : Nat) (keep : List Nat) : CachesOnly c s (s.l2Shrink c sb keep) := by
  unfold State.l2Shrink
  simp only []
  split
  · next v _ =>
    have h : CachesOnly c s (if (tagsOf (s.cluster c).l2).contains v then s.l2Evict c v else s) := by
      split
      · exact cachesOnly_l2Evict c s c v
      · exact .refl c s
    revert h
    generalize (if (tagsOf (s.cluster c).l2).contains v then s.l2Evict c v else s) = u
    intro h
    split
    · exact h
    · exact h.trans (cachesOnly_loseCoherent u c v)
  · exact .refl c s

theorem cachesOnly_l2Room (s : State) (c sb : Nat) (keep : List Nat) : CachesOnly c s (s.l2Room c sb keep) := by
  unfold State.l2Room
  simp only []
  split
  · exact .refl c s
  · exact cachesOnly_l2Shrink s c sb keep

theorem cachesOnly_share (s : State) (c sb : Nat) : CachesOnly c s (s.share c sb) := by
  unfold State.share
  split
  · exact .refl c s
  · exact (cachesOnly_l2Room s c sb []).trans ((cachesOnly_countSnoop c _ (sb % 16) c).trans
      (((snoopOnly_snoopOthers _ c sb .rs).cachesOnly c).trans ((cachesOnly_setMoesi c _ c sb _).trans (cachesOnly_homeBits c _ _))))

theorem cachesOnly_landLine (s : State) (c pa : Nat) (data : List Byte) : CachesOnly c s (s.landLine c pa data) := by
  unfold State.landLine
  split
  · exact .refl c s
  · refine (cachesOnly_l2Room s c _ []).trans ((cachesOnly_setL2 c _ c _ _).trans (cachesOnly_foldl (fun s q => ?_) _ _))
    split
    · exact cachesOnly_modCore c s q fun _ => rfl
    · exact .refl c s

theorem cachesOnly_applyStore (s : State) (c off : Nat) (data : List Byte) : CachesOnly c s (s.applyStore c off data) := by
  unfold State.applyStore
  split
  · exact .refl c s
  · split
    · exact cachesOnly_landLine s c _ _
    · exact (cachesOnly_landLine s c _ _).trans (cachesOnly_landLine _ c _ _)

/-! ### A snoop at a cluster -/

/-- The state once the home has answered a snoop, where cluster `c` is its home. -/
def State.homeAnswers (s : State) (c : Nat) (m : Msg) (k : Snoop) (sb : Nat) : State :=
  if homeCluster sb = c then
    let old := s.homeBits.get 0 sb
    let (h, alone) := homeSnoop k old
    let s := { s with
      homeBits := s.homeBits.put sb h
      sbReqs := s.sbReqs.map fun (r : SbReq) => if r.msg = m.id then { r with alone } else r }
    if old.getLsbD 0 then s else s.answerReq m.id (homeCoreOf sb)
  else s

/-- From `s` to `t` only the homes' bits and requests have changed; no request has come. -/
structure HomeOnly (s t : State) : Prop where
  rest : t = { s with homeBits := t.homeBits, sbReqs := t.sbReqs }
  none : s.sbReqs = [] → t.sbReqs = []

theorem HomeOnly.refl (s : State) : HomeOnly s s := ⟨rfl, fun h => h⟩

theorem HomeOnly.trans {s t u : State} (h : HomeOnly s t) (h' : HomeOnly t u) : HomeOnly s u :=
  ⟨by rw [h'.rest, h.rest], fun e => h'.none (h.none e)⟩

theorem homeOnly_mapReqs (s : State) (f : SbReq → SbReq) : HomeOnly s { s with sbReqs := s.sbReqs.map f } :=
  ⟨rfl, fun h => by show s.sbReqs.map f = []; rw [h]; rfl⟩

theorem homeOnly_homeBits (s : State) (x : SMap (BitVec 2)) : HomeOnly s { s with homeBits := x } := ⟨rfl, fun h => h⟩

theorem homeOnly_homeAnswers (s : State) (c : Nat) (m : Msg) (k : Snoop) (sb : Nat) : HomeOnly s (s.homeAnswers c m k sb) := by
  unfold State.homeAnswers
  split
  · have h : HomeOnly s { s with
        homeBits := s.homeBits.put sb (homeSnoop k (s.homeBits.get 0 sb)).1
        sbReqs := s.sbReqs.map fun (r : SbReq) => if r.msg = m.id then { r with alone := (homeSnoop k (s.homeBits.get 0 sb)).2 } else r } :=
      (homeOnly_mapReqs s _).trans (homeOnly_homeBits _ _)
    simp only []
    split
    · exact h
    · exact h.trans (homeOnly_mapReqs _ _)
  · exact .refl s

theorem applySnoop_eq (s : State) (c : Nat) (m : Msg) (k : Snoop) (sb : Nat) : s.applySnoop c m k sb =
    let s := s.homeAnswers c m k sb
    if m.writer = c then
      { s with sbReqs := s.sbReqs.map fun (r : SbReq) =>
          if r.msg = m.id then { r with placed := true, kind := if r.kind = .up ∧ s.moesiOf c sb = .i then .rx else r.kind } else r }
    else if s.sbReqs.any fun r => r.cluster == c && r.sb == sb && r.placed then
      { s with sbReqs := s.sbReqs.map fun (r : SbReq) =>
          if r.cluster = c ∧ r.sb = sb ∧ r.placed then { r with behind := r.behind ++ [(k, m.id)] } else r }
    else if s.moesiOf c sb = .i then s
    else
      let s := if (s.moesiOf c sb).supplies then s.answerReq m.id (transmitter c) else s
      s.setMoesi c sb ((s.moesiOf c sb).after k) := rfl

theorem homeOnly_applySnoop_own {c : Nat} {m : Msg} (h : m.writer = c) (s : State) (k : Snoop) (sb : Nat) : HomeOnly s (s.applySnoop c m k sb) := by
  rw [applySnoop_eq]
  simp only []
  rw [if_pos h]
  exact (homeOnly_homeAnswers s c m k sb).trans (homeOnly_mapReqs _ _)

theorem HomeOnly.cachesOnly {s t : State} (h : HomeOnly s t) (c : Nat) : CachesOnly c s t := by
  refine cachesOnly_of_rest ?_ ?_ ?_ <;> rw [h.rest]

/-- What is left of a snoop's supplier: its answer, and its state after the snoop. -/
theorem cachesOnly_applySnoop (s : State) (c : Nat) (m : Msg) (k : Snoop) (sb : Nat) : CachesOnly c s (s.applySnoop c m k sb) := by
  rw [applySnoop_eq]
  have h := (homeOnly_homeAnswers s c m k sb).cachesOnly c
  revert h
  generalize s.homeAnswers c m k sb = u
  intro h
  simp only []
  split
  · exact h.trans ((homeOnly_mapReqs u _).cachesOnly c)
  · split
    · exact h.trans ((homeOnly_mapReqs u _).cachesOnly c)
    · split
      · exact h
      · refine h.trans (CachesOnly.trans ?_ (cachesOnly_setMoesi c _ c sb _))
        split
        · exact (homeOnly_mapReqs u _).cachesOnly c
        · exact .refl c u

/-- A snoop of another cluster where no request is under way takes the superblock's state with it. -/
theorem moesiOf_applySnoop {s : State} {c : Nat} {m : Msg} (h : m.writer ≠ c) (hr : s.sbReqs = []) (k : Snoop) (sb : Nat) :
    (s.applySnoop c m k sb).moesiOf c sb = (s.moesiOf c sb).after k ∧ (s.applySnoop c m k sb).msgs = s.msgs := by
  rw [applySnoop_eq]
  have hh := homeOnly_homeAnswers s c m k sb
  have hreq := hh.none hr
  have hm : (s.homeAnswers c m k sb).msgs = s.msgs := by rw [hh.rest]
  have hst : (s.homeAnswers c m k sb).moesiOf c sb = s.moesiOf c sb := by
    rw [hh.rest]
    rfl
  rw [← hst, ← hm]
  revert hreq
  generalize s.homeAnswers c m k sb = u
  intro hreq
  simp only [hreq, List.any_nil]
  rw [if_neg h, if_neg (by decide)]
  split
  · next hi => exact ⟨by rw [hi, Moesi.after_i], rfl⟩
  · have hsup : (if (u.moesiOf c sb).supplies then u.answerReq m.id (transmitter c) else u).moesiOf c sb = u.moesiOf c sb ∧
        (if (u.moesiOf c sb).supplies then u.answerReq m.id (transmitter c) else u).msgs = u.msgs := by split <;> exact ⟨rfl, rfl⟩
    obtain ⟨h1, h2⟩ := hsup
    refine ⟨?_, ?_⟩
    · rw [moesiOf_setMoesi, if_pos ⟨rfl, rfl⟩, h1]
    · rw [(snoopOnly_setMoesi _ _ _ _).rest, ← h2]

/-! ### A message at a cluster -/

/-- From `s` to `t` cluster `c` receives: new messages are its own snoops, and what it has applied stays applied. -/
structure Receiving (c : Nat) (s t : State) : Prop where
  msgs : ∃ l, t.msgs = s.msgs ++ l ∧ ∀ m ∈ l, OwnSnoop c m
  holes : (t.cluster c).holes = (s.cluster c).holes
  rxTo : (t.cluster c).rxTo = (s.cluster c).rxTo
  applied : ∀ id ∈ (s.cluster c).applied, id ∈ (t.cluster c).applied

theorem Receiving.refl (c : Nat) (s : State) : Receiving c s s :=
  ⟨⟨[], (List.append_nil _).symm, fun _ h => nomatch h⟩, rfl, rfl, fun _ h => h⟩

theorem Receiving.trans {c : Nat} {s t u : State} (h : Receiving c s t) (h' : Receiving c t u) : Receiving c s u where
  msgs := by
    obtain ⟨l, e, hl⟩ := h.msgs
    obtain ⟨l', e', hl'⟩ := h'.msgs
    refine ⟨l ++ l', by rw [e', e, List.append_assoc], fun m hm => (List.mem_append.mp hm).elim (hl m) (hl' m)⟩
  holes := h'.holes.trans h.holes
  rxTo := h'.rxTo.trans h.rxTo
  applied id hid := h'.applied id (h.applied id hid)

theorem Receiving.mem {c : Nat} {s t : State} (h : Receiving c s t) {m : Msg} (hm : m ∈ s.msgs) : m ∈ t.msgs := by
  obtain ⟨l, e, -⟩ := h.msgs
  rw [e]
  exact List.mem_append_left l hm

/-- A change of the caches alone leaves what a cluster has received as it was. -/
theorem CachesOnly.frames {c : Nat} {s t : State} (h : CachesOnly c s t) (k : Nat) : (t.cluster k).holes = (s.cluster k).holes ∧
    (t.cluster k).rxTo = (s.cluster k).rxTo ∧ (t.cluster k).appliedTo = (s.cluster k).appliedTo ∧ (t.cluster k).applied = (s.cluster k).applied := by
  rw [← h.cluster k]
  exact ⟨rfl, rfl, rfl, rfl⟩

theorem CachesOnly.receiving {c : Nat} {s t : State} (h : CachesOnly c s t) : Receiving c s t := by
  obtain ⟨h1, h2, -, h4⟩ := h.frames c
  exact ⟨h.msgs, h1, h2, fun id hid => h4 ▸ hid⟩

/-- What a message does at cluster `c`, before the cluster notes that it has applied it. -/
def State.takesMsg (s : State) (c : Nat) (m : Msg) : State :=
  match m.body with
  | .snoop k sb _ => s.applySnoop c m k sb
  | .store off data => s.applyStore c off data

theorem applyMsg_eq (s : State) (c : Nat) (m : Msg) :
    s.applyMsg c m = (s.takesMsg c m).modCluster c fun x => { x with applied := x.applied ++ [m.id] } := rfl

theorem cachesOnly_takesMsg (s : State) (c : Nat) (m : Msg) : CachesOnly c s (s.takesMsg c m) := by
  unfold State.takesMsg
  split
  · exact cachesOnly_applySnoop s c m _ _
  · exact cachesOnly_applyStore s c _ _

theorem receiving_modCluster {c : Nat} {s : State} {f : Cluster → Cluster} (h1 : (f (s.cluster c)).holes = (s.cluster c).holes)
    (h2 : (f (s.cluster c)).rxTo = (s.cluster c).rxTo) (h3 : ∀ id ∈ (s.cluster c).applied, id ∈ (f (s.cluster c)).applied) :
    Receiving c s (s.modCluster c f) := by
  refine ⟨⟨[], (List.append_nil _).symm, fun _ h => nomatch h⟩, ?_, ?_, ?_⟩ <;> rw [cluster_modCluster_same]
  · exact h1
  · exact h2
  · exact h3

theorem receiving_applyMsg (s : State) (c : Nat) (m : Msg) : Receiving c s (s.applyMsg c m) := by
  rw [applyMsg_eq]
  exact (cachesOnly_takesMsg s c m).receiving.trans (receiving_modCluster rfl rfl fun id h => List.mem_append_left _ h)

theorem applied_applyMsg (s : State) (c : Nat) (m : Msg) : m.id ∈ ((s.applyMsg c m).cluster c).applied ∧
    ((s.applyMsg c m).cluster c).appliedTo = (s.cluster c).appliedTo := by
  rw [applyMsg_eq, cluster_modCluster_same]
  exact ⟨List.mem_append_right _ List.mem_cons_self, ((cachesOnly_takesMsg s c m).frames c).2.2.1⟩

theorem receiving_applyMsgs (c : Nat) (l : List Msg) (s : State) : Receiving c s (l.foldl (fun s m => s.applyMsg c m) s) ∧
    ((l.foldl (fun s m => s.applyMsg c m) s).cluster c).appliedTo = (s.cluster c).appliedTo ∧
    ∀ m ∈ l, m.id ∈ ((l.foldl (fun s m => s.applyMsg c m) s).cluster c).applied := by
  induction l generalizing s with
  | nil => exact ⟨.refl c s, rfl, fun _ h => nomatch h⟩
  | cons a l ih =>
    obtain ⟨h1, h2, h3⟩ := ih (s.applyMsg c a)
    obtain ⟨h4, h5⟩ := applied_applyMsg s c a
    refine ⟨(receiving_applyMsg s c a).trans h1, h2.trans h5, fun m hm => ?_⟩
    rcases List.mem_cons.mp hm with rfl | hm
    · exact h1.applied _ h4
    · exact h3 m hm

/-! ### A bus at a cluster -/

theorem mem_insertMsg {x m : Msg} {l : List Msg} : x ∈ insertMsg m l ↔ x = m ∨ x ∈ l := by
  induction l with
  | nil => simp [insertMsg]
  | cons a l ih =>
    unfold insertMsg
    split
    · simp
    · rw [List.mem_cons, ih, List.mem_cons]
      exact or_left_comm

theorem mem_foldl_insertMsg {x : Msg} {l acc : List Msg} : x ∈ l.foldl (fun l m => insertMsg m l) acc ↔ x ∈ l ∨ x ∈ acc := by
  induction l generalizing acc with
  | nil => simp
  | cons a l ih =>
    rw [List.foldl_cons, ih, mem_insertMsg, List.mem_cons]
    tauto

theorem mem_busDue {s : State} {c bus : Nat} {m : Msg} : m ∈ s.busDue c bus ↔
    m ∈ s.msgs ∧ m.bus = bus ∧ m.done ≤ (s.cluster c).rxTo ∧ c ∉ m.lostAt ∧ s.msgApplied c m = false := by
  unfold State.busDue
  rw [mem_foldl_insertMsg, List.mem_filter]
  simp [and_assoc]

/-- The messages that a cluster applies on a bus: up to its first hole. -/
def State.busFree (s : State) (c bus : Nat) : List Msg :=
  (s.busDue c bus).takeWhile fun m => (s.cluster c).holes.all fun h => !h.blocks m

theorem busFree_of_no_holes {s : State} {c : Nat} (h : (s.cluster c).holes = []) (bus : Nat) : s.busFree c bus = s.busDue c bus := by
  unfold State.busFree
  rw [h]
  exact List.takeWhile_eq_self_iff.mpr fun _ _ => rfl

/-- How far a cluster has applied a bus. -/
def Cluster.reached (x : Cluster) (bus : Nat) : Nat :=
  max (x.appliedTo.get 0 bus) (((x.holes.filter (·.bus == bus)).map (·.frame - 1)).foldl min x.rxTo)

/-- What the cluster notes of it. -/
def Cluster.noted (bus : Nat) (dead : Bool) (now : Nat) (x : Cluster) : Cluster :=
  { x with
    appliedTo := x.appliedTo.put bus (x.reached bus)
    reports := if dead then x.reports else x.reports.put bus (x.reached bus + x.frames - now) }

/-- The state once the messages that are free on a bus are applied. -/
def State.busApplied (s : State) (c bus : Nat) : State := (s.busFree c bus).foldl (fun s m => s.applyMsg c m) s

theorem applyBus_eq (s : State) (c bus : Nat) : ∃ dead, s.applyBus c bus = (s.busApplied c bus).modCluster c (Cluster.noted bus dead (s.busApplied c bus).now) :=
  ⟨_, rfl⟩

theorem receiving_applyBus (s : State) (c bus : Nat) : Receiving c s (s.applyBus c bus) := by
  obtain ⟨dead, e⟩ := applyBus_eq s c bus
  rw [e]
  exact (receiving_applyMsgs c _ s).1.trans (receiving_modCluster rfl rfl fun _ h => h)

theorem appliedTo_applyBus (s : State) (c bus b : Nat) : ((s.applyBus c bus).cluster c).appliedTo.get 0 b =
    if b = bus then max ((s.cluster c).appliedTo.get 0 b) ((((s.cluster c).holes.filter (·.bus == bus)).map (·.frame - 1)).foldl min (s.cluster c).rxTo)
    else (s.cluster c).appliedTo.get 0 b := by
  obtain ⟨dead, e⟩ := applyBus_eq s c bus
  obtain ⟨h1, h2, -⟩ := receiving_applyMsgs c (s.busFree c bus) s
  rw [e, cluster_modCluster_same]
  show SMap.get 0 (((s.busApplied c bus).cluster c).appliedTo.put bus (((s.busApplied c bus).cluster c).reached bus)) b = _
  rw [SMap.get_put, Cluster.reached, State.busApplied, h2, h1.holes, h1.rxTo]
  split
  · next hb => rw [hb]
  · rfl

theorem applies_applyBus {s : State} {c : Nat} {m : Msg} (hh : (s.cluster c).holes = []) (hm : m ∈ s.msgs) (hd : m.done ≤ (s.cluster c).rxTo)
    (hl : c ∉ m.lostAt) : s.msgApplied c m = true ∨ m.id ∈ ((s.applyBus c m.bus).cluster c).applied := by
  by_cases ha : s.msgApplied c m = true
  · exact .inl ha
  · refine .inr ?_
    obtain ⟨dead, e⟩ := applyBus_eq s c m.bus
    rw [e, cluster_modCluster_same]
    show m.id ∈ ((s.busApplied c m.bus).cluster c).applied
    refine (receiving_applyMsgs c (s.busFree c m.bus) s).2.2 m ?_
    rw [busFree_of_no_holes hh]
    exact mem_busDue.mpr ⟨hm, rfl, hd, hl, by simpa using ha⟩

theorem receiving_applyBuses (c : Nat) (l : List Nat) (s : State) : Receiving c s (l.foldl (fun s b => s.applyBus c b) s) := by
  induction l generalizing s with
  | nil => exact .refl c s
  | cons b l ih => exact (receiving_applyBus s c b).trans (ih _)

theorem appliedTo_applyBuses {c b : Nat} {l : List Nat} (hb : b ∉ l) (s : State) :
    ((l.foldl (fun s b => s.applyBus c b) s).cluster c).appliedTo.get 0 b = (s.cluster c).appliedTo.get 0 b := by
  induction l generalizing s with
  | nil => rfl
  | cons a l ih =>
    rw [List.mem_cons, not_or] at hb
    rw [List.foldl_cons, ih hb.2, appliedTo_applyBus, if_neg hb.1]

theorem range_split {n b : Nat} (h : b < n) : ∃ l r, List.range n = l ++ b :: r ∧ b ∉ l ∧ b ∉ r := by
  obtain ⟨l, r, e⟩ := List.append_of_mem (List.mem_range.mpr h)
  have hn : (l ++ b :: r).Nodup := e ▸ List.nodup_range
  refine ⟨l, r, e, fun hl => ?_, ?_⟩
  · exact (List.nodup_append.mp hn).2.2 b hl b List.mem_cons_self rfl
  · exact (List.nodup_cons.mp (List.nodup_append.mp hn).2.1).1

theorem msgApplied_congr {s t : State} {c : Nat} {m : Msg} (h : (t.cluster c).appliedTo.get 0 m.bus = (s.cluster c).appliedTo.get 0 m.bus)
    (ha : t.msgApplied c m = true) : s.msgApplied c m = true ∨ m.id ∈ (t.cluster c).applied := by
  unfold State.msgApplied at *
  rw [h] at ha
  rw [Bool.or_eq_true] at ha ⊢
  rcases ha with ha | ha
  · exact .inl (.inl ha)
  · exact .inr (by simpa using ha)

/-- Every message received whole on a bus is applied once the buses are gone through. -/
theorem applies_applyBuses {s : State} {c n : Nat} {m : Msg} (hn : m.bus < n) (hh : (s.cluster c).holes = []) (hm : m ∈ s.msgs)
    (hd : m.done ≤ (s.cluster c).rxTo) (hl : c ∉ m.lostAt) :
    s.msgApplied c m = true ∨ m.id ∈ (((List.range n).foldl (fun s b => s.applyBus c b) s).cluster c).applied := by
  obtain ⟨l, r, e, hbl, -⟩ := range_split hn
  rw [e, List.foldl_append, List.foldl_cons]
  have hr := receiving_applyBuses c l s
  have hto := appliedTo_applyBuses (c := c) hbl s
  have hlast := receiving_applyBuses c r ((l.foldl (fun s b => s.applyBus c b) s).applyBus c m.bus)
  rcases applies_applyBus (hr.holes.trans hh) (hr.mem hm) (hr.rxTo ▸ hd) hl with ha | ha
  · rcases msgApplied_congr hto ha with ha | ha
    · exact .inl ha
    · exact .inr (hlast.applied _ ((receiving_applyBus _ c m.bus).applied _ ha))
  · exact .inr (hlast.applied _ ha)

theorem reached_applyBuses {s : State} {c n b : Nat} (hn : b < n) (hh : (s.cluster c).holes = []) :
    (((List.range n).foldl (fun s b => s.applyBus c b) s).cluster c).appliedTo.get 0 b = max ((s.cluster c).appliedTo.get 0 b) (s.cluster c).rxTo := by
  obtain ⟨l, r, e, hbl, hbr⟩ := range_split hn
  have hr := receiving_applyBuses c l s
  rw [e, List.foldl_append, List.foldl_cons, appliedTo_applyBuses hbr, appliedTo_applyBus, if_pos rfl, appliedTo_applyBuses hbl, hr.holes, hr.rxTo, hh]
  rfl

/-! ### Buses on which nothing but the cluster's own snoops is due -/

/-- From `s` to `t` cluster `c` keeps its cache, its superblocks' states and its messages. -/
structure KeepsCache (c : Nat) (s t : State) : Prop where
  l2 : (t.cluster c).l2 = (s.cluster c).l2
  moesi : (t.cluster c).moesi = (s.cluster c).moesi
  land : ∀ off, (t.cluster c).landing off = (s.cluster c).landing off
  msgs : t.msgs = s.msgs
  reqs : s.sbReqs = [] → t.sbReqs = []

theorem KeepsCache.refl (c : Nat) (s : State) : KeepsCache c s s := ⟨rfl, rfl, fun _ => rfl, rfl, fun h => h⟩

theorem KeepsCache.trans {c : Nat} {s t u : State} (h : KeepsCache c s t) (h' : KeepsCache c t u) : KeepsCache c s u :=
  ⟨h'.l2.trans h.l2, h'.moesi.trans h.moesi, fun off => (h'.land off).trans (h.land off), h'.msgs.trans h.msgs, fun e => h'.reqs (h.reqs e)⟩

theorem HomeOnly.keepsCache {s t : State} (h : HomeOnly s t) (c : Nat) : KeepsCache c s t := by
  have hc : t.cluster c = s.cluster c := by
    rw [h.rest]
    rfl
  exact ⟨by rw [hc], by rw [hc], fun _ => by rw [hc], by rw [h.rest], h.none⟩

theorem keepsCache_modCluster {c : Nat} (s : State) {f : Cluster → Cluster} (h1 : ∀ x, (f x).l2 = x.l2) (h2 : ∀ x, (f x).moesi = x.moesi)
    (h3 : ∀ x off, (f x).landing off = x.landing off) : KeepsCache c s (s.modCluster c f) := by
  refine ⟨?_, ?_, fun off => ?_, rfl, fun h => h⟩ <;> rw [cluster_modCluster_same]
  · exact h1 _
  · exact h2 _
  · exact h3 _ off

theorem keepsCache_applyMsg {c : Nat} {m : Msg} (h : OwnSnoop c m) (s : State) : KeepsCache c s (s.applyMsg c m) := by
  obtain ⟨hw, k, sb, q, hb⟩ := h
  rw [applyMsg_eq]
  refine KeepsCache.trans ?_ (keepsCache_modCluster _ (fun _ => rfl) (fun _ => rfl) fun _ _ => rfl)
  unfold State.takesMsg
  rw [hb]
  exact (homeOnly_applySnoop_own hw s k sb).keepsCache c

theorem keepsCache_applyMsgs {c : Nat} {l : List Msg} (h : ∀ m ∈ l, OwnSnoop c m) (s : State) :
    KeepsCache c s (l.foldl (fun s m => s.applyMsg c m) s) := by
  induction l generalizing s with
  | nil => exact .refl c s
  | cons a l ih => exact (keepsCache_applyMsg (h a List.mem_cons_self) s).trans (ih (fun m hm => h m (List.mem_cons_of_mem _ hm)) _)

theorem mem_busFree {s : State} {c bus : Nat} {m : Msg} (h : m ∈ s.busFree c bus) : m ∈ s.msgs ∧ m.bus = bus := by
  obtain ⟨h1, h2, -⟩ := mem_busDue.mp ((List.takeWhile_sublist _).subset h)
  exact ⟨h1, h2⟩

theorem keepsCache_applyBus {s : State} {c bus : Nat} (h : ∀ m ∈ s.msgs, m.bus = bus → OwnSnoop c m) : KeepsCache c s (s.applyBus c bus) := by
  obtain ⟨dead, e⟩ := applyBus_eq s c bus
  rw [e]
  refine KeepsCache.trans ?_ (keepsCache_modCluster _ (fun _ => rfl) (fun _ => rfl) fun _ _ => rfl)
  exact keepsCache_applyMsgs (fun m hm => h m (mem_busFree hm).1 (mem_busFree hm).2) s

theorem keepsCache_applyBuses {s : State} {c : Nat} {l : List Nat} (h : ∀ m ∈ s.msgs, m.bus ∈ l → OwnSnoop c m) :
    KeepsCache c s (l.foldl (fun s b => s.applyBus c b) s) := by
  induction l generalizing s with
  | nil => exact .refl c s
  | cons b l ih =>
    have h1 := keepsCache_applyBus (s := s) (c := c) (bus := b) fun m hm hb => h m hm (hb ▸ List.mem_cons_self)
    exact h1.trans (ih fun m hm hb => h m (h1.msgs ▸ hm) (List.mem_cons_of_mem _ hb))

/-! ### The one message of a frame -/

/-- Cluster `c` has still to apply the message, and holds nothing back. -/
structure OneDue (c : Nat) (s : State) (m : Msg) : Prop where
  msgs : s.msgs = [m]
  holes : (s.cluster c).holes = []
  done : m.done ≤ (s.cluster c).rxTo
  got : c ∉ m.lostAt
  due : s.msgApplied c m = false

theorem OneDue.busDue {c : Nat} {s : State} {m : Msg} (h : OneDue c s m) : s.busDue c m.bus = [m] := by
  unfold State.busDue
  rw [h.msgs]
  have : (m.bus == m.bus && decide (m.done ≤ (s.cluster c).rxTo) && !m.lostAt.contains c && !s.msgApplied c m) = true := by
    simp [h.done, h.got, h.due]
  rw [List.filter_cons, if_pos this]
  rfl

theorem busDue_other {c : Nat} {s : State} {m : Msg} (h : s.msgs = [m]) {b : Nat} (hb : b ≠ m.bus) : s.busDue c b = [] := by
  rw [List.eq_nil_iff_forall_not_mem]
  intro x hx
  obtain ⟨hm, rfl, -⟩ := mem_busDue.mp hx
  rw [h] at hm
  exact hb (by rw [List.mem_singleton.mp hm])

/-- Nothing is due before its bus, so it is still due there. -/
theorem oneDue_before {c : Nat} {s : State} {m : Msg} (h : OneDue c s m) {l : List Nat} (hl : m.bus ∉ l) :
    OneDue c (l.foldl (fun s b => s.applyBus c b) s) m := by
  induction l generalizing s with
  | nil => exact h
  | cons b l ih =>
    rw [List.mem_cons, not_or] at hl
    refine ih ?_ hl.2
    have hr := receiving_applyBus s c b
    have hk := keepsCache_applyBus (s := s) (c := c) (bus := b) fun x hx hxb => by
      rw [h.msgs] at hx
      exact absurd (List.mem_singleton.mp hx ▸ hxb) hl.1
    have happ : ((s.applyBus c b).cluster c).applied = (s.cluster c).applied := by
      obtain ⟨dead, e⟩ := applyBus_eq s c b
      rw [e, cluster_modCluster_same]
      show ((s.busApplied c b).cluster c).applied = _
      unfold State.busApplied
      rw [busFree_of_no_holes h.holes, busDue_other h.msgs (Ne.symm hl.1)]
      rfl
    refine ⟨hk.msgs.trans h.msgs, hr.holes.trans h.holes, hr.rxTo ▸ h.done, h.got, ?_⟩
    have hd := h.due
    unfold State.msgApplied at hd ⊢
    rw [appliedTo_applyBus, if_neg hl.1, happ]
    exact hd

/-- The state in which the one message of a frame is applied, and how the frame goes on. -/
theorem oneDue_applyBuses {c n : Nat} {s : State} {m : Msg} (h : OneDue c s m) (hn : m.bus < n) :
    ∃ u, KeepsCache c s u ∧ ((∀ x ∈ (u.takesMsg c m).msgs, x = m ∨ OwnSnoop c x) →
      KeepsCache c (u.takesMsg c m) ((List.range n).foldl (fun s b => s.applyBus c b) s)) := by
  obtain ⟨l, r, e, hbl, hbr⟩ := range_split hn
  have hu := oneDue_before h hbl
  have hk := keepsCache_applyBuses (s := s) (c := c) (l := l) fun x hx hxl => by
    rw [h.msgs] at hx
    exact absurd (List.mem_singleton.mp hx ▸ hxl) hbl
  refine ⟨_, hk, fun hx => ?_⟩
  rw [e, List.foldl_append, List.foldl_cons]
  revert hu hx
  generalize l.foldl (fun s b => s.applyBus c b) s = u
  intro hu hx
  have h1 : KeepsCache c (u.takesMsg c m) (u.applyBus c m.bus) := by
    obtain ⟨dead, e⟩ := applyBus_eq u c m.bus
    rw [e]
    refine KeepsCache.trans ?_ (keepsCache_modCluster _ (fun _ => rfl) (fun _ => rfl) fun _ _ => rfl)
    unfold State.busApplied
    rw [busFree_of_no_holes hu.holes, hu.busDue]
    show KeepsCache c _ (u.applyMsg c m)
    rw [applyMsg_eq]
    exact keepsCache_modCluster _ (fun _ => rfl) (fun _ => rfl) fun _ _ => rfl
  refine h1.trans (keepsCache_applyBuses fun x hm hxr => ?_)
  rw [h1.msgs] at hm
  exact (hx x hm).elim (fun e => absurd (e ▸ hxr) hbr) id

/-! ### The bytes of a line -/

/-- The mask of the first `n` bytes of a line, as `byteMask` builds it. -/
def byteBits (m : DWord) (n : Nat) : Nat := (List.range n).foldl (fun a i => if m.getLsbD i then a + 255 * 2 ^ (8 * i) else a) 0

theorem byteBits_succ (m : DWord) (n : Nat) : byteBits m (n + 1) = if m.getLsbD n then byteBits m n + 255 * 2 ^ (8 * n) else byteBits m n := by
  unfold byteBits
  rw [List.range_succ, List.foldl_append]
  rfl

theorem byteBits_lt (m : DWord) (n : Nat) : byteBits m n < 2 ^ (8 * n) := by
  induction n with
  | zero => exact Nat.one_pos
  | succ n ih =>
    have h : 2 ^ (8 * (n + 1)) = 2 ^ (8 * n) * 256 := by rw [Nat.mul_succ, Nat.pow_add]
    rw [byteBits_succ, h]
    split <;> omega

theorem testBit_byteBits (m : DWord) (n b : Nat) : (byteBits m n).testBit b = (decide (b / 8 < n) && m.getLsbD (b / 8)) := by
  induction n with
  | zero => simp [byteBits]
  | succ n ih =>
    have hlt := byteBits_lt m n
    rw [byteBits_succ]
    by_cases hm : m.getLsbD n = true
    · rw [if_pos hm, Nat.mul_comm 255, Nat.add_comm, Nat.testBit_two_pow_mul_add _ hlt]
      by_cases hb : b < 8 * n
      · rw [if_pos hb, ih, decide_eq_true (by omega : b / 8 < n), decide_eq_true (by omega : b / 8 < n + 1)]
      · rw [if_neg hb, show (255 : Nat) = 2 ^ 8 - 1 from rfl, Nat.testBit_two_pow_sub_one]
        by_cases hn : b / 8 = n
        · rw [decide_eq_true (by omega : b - 8 * n < 8), hn, decide_eq_true (Nat.lt_succ_self n), hm]
          rfl
        · rw [decide_eq_false (by omega : ¬ b - 8 * n < 8), decide_eq_false (by omega : ¬ b / 8 < n + 1), Bool.false_and]
    · rw [if_neg hm, ih]
      by_cases hn : b / 8 = n
      · rw [hn, eq_false_of_ne_true hm, Bool.and_false, Bool.and_false]
      · congr 1
        exact decide_eq_decide.mpr (by omega)

theorem getLsbD_byteMask (m : DWord) {b : Nat} (hb : b < 512) : (byteMask m).getLsbD b = m.getLsbD (b / 8) := by
  show (BitVec.ofNat 512 (byteBits m 64)).getLsbD b = _
  rw [BitVec.getLsbD_ofNat, testBit_byteBits, decide_eq_true hb, decide_eq_true (by omega : b / 8 < 64)]
  rfl

theorem getLsbD_runMask {i n x : Nat} (hx : x < 64) : (runMask i n).getLsbD x = decide (i ≤ x ∧ x < i + n) := by
  unfold runMask
  rw [BitVec.getLsbD_ofNat, decide_eq_true hx, Nat.testBit_mul_two_pow, Nat.testBit_two_pow_sub_one]
  by_cases h : i ≤ x
  · simp [h]
    omega
  · simp [h]

theorem testBit_leBytes (l : List Byte) (j : Nat) {b : Nat} (hb : b < 8) : (leBytes l).testBit (8 * j + b) = (l.getD j 0).getLsbD b := by
  induction l generalizing j with
  | nil => simp [leBytes]
  | cons d l ih =>
    show (leBytes l * 256 + d.toNat).testBit (8 * j + b) = _
    rw [Nat.mul_comm, show (256 : Nat) = 2 ^ 8 from rfl, Nat.testBit_two_pow_mul_add _ d.isLt]
    cases j with
    | zero =>
      rw [if_pos (by omega)]
      simp [BitVec.getLsbD]
    | succ j =>
      rw [if_neg (by omega), show 8 * (j + 1) + b - 8 = 8 * j + b by omega, ih]
      rfl

theorem getLsbD_write {l : Line} {i n v b : Nat} (h1 : 8 * i ≤ b) (h2 : b < 8 * (i + n)) (hn : i + n ≤ 64) :
    (l.write i n v).data.getLsbD b = v.testBit (b - 8 * i) := by
  show ((BitVec.ofNat 512 (v % 2 ^ (8 * n) * 2 ^ (8 * i)) &&& byteMask (runMask i n)) ||| (l.data &&& ~~~(byteMask (runMask i n)))).getLsbD b = _
  have hb : b < 512 := by omega
  have hm : (byteMask (runMask i n)).getLsbD b = true := by
    rw [getLsbD_byteMask _ hb, getLsbD_runMask (by omega), decide_eq_true_eq]
    omega
  rw [BitVec.getLsbD_or, BitVec.getLsbD_and, BitVec.getLsbD_and, BitVec.getLsbD_not, hm, BitVec.getLsbD_ofNat, decide_eq_true hb,
    Nat.testBit_mul_two_pow, Nat.testBit_mod_two_pow, decide_eq_true h1, decide_eq_true (by omega : b - 8 * i < 8 * n)]
  simp

/-- The bytes of a line after a write of the bytes `data` at `i`. -/
theorem byte_write_leBytes {l : Line} {i j : Nat} {data : List Byte} (hj : j < data.length) (hn : i + data.length ≤ 64) :
    (l.write i data.length (leBytes data)).data.extractLsb' (8 * (i + j)) 8 = data.getD j 0 ∧
      (l.write i data.length (leBytes data)).mask.getLsbD (i + j) = true := by
  constructor
  · ext b hb
    rw [BitVec.getElem_extractLsb', getLsbD_write (by omega) (by omega) hn, show 8 * (i + j) + b - 8 * i = 8 * j + b by omega, testBit_leBytes _ _ hb]
    exact BitVec.getLsbD_eq_getElem hb
  · show (l.mask ||| runMask i data.length).getLsbD (i + j) = true
    rw [BitVec.getLsbD_or, getLsbD_runMask (by omega), decide_eq_true (by omega), Bool.or_true]

/-! ### Frames -/

/-- The state once a cluster has seen which frames failed, and those it still had lost. -/
def State.framesSeen (s : State) (c : Nat) (dark : List (Nat × Nat)) : State :=
  (((s.seeHoles c ((s.cluster c).rxTo + 1) s.now dark).seeResent c ((s.cluster c).rxTo + 1) s.now dark).modCluster c
    fun x => { x with rxTo := max x.rxTo s.now }).endHoles c

theorem exec_photonicFrame {c : Nat} {s : State} (hc : c < 192) (hf : s.forwards (regionOf c) = true) (dark : List (Nat × Nat)) :
    exec (.photonicFrame c dark) s = .next ((List.range 16).foldl (fun s b => s.applyBus c b) (s.framesSeen c dark)).settleAcks := by
  show execPhotonicFrame c dark s = _
  unfold execPhotonicFrame
  exact if_neg (by simp [hf, hc])

/-- The messages as a frame leaves them to cluster `c`. -/
def seenMsg (s : State) (c : Nat) (fail : List (Nat × Nat)) (m : Msg) : Msg :=
  if m.lostAt.contains c ∧ (s.cluster c).rxTo + 1 ≤ m.resent ∧ m.resent ≤ s.now ∧ !fail.contains (m.bus, s.bindAt c m.bus m.writer) then
    { m with lostAt := m.lostAt.filter (· != c) } else m

theorem failing_nil {s : State} (h : s.deadGroups = []) (c : Nat) : s.failing c [] = [] := by
  unfold State.failing
  rw [h]
  rfl

theorem seeHoles_nil {s : State} (h : s.deadGroups = []) (c lo hi : Nat) : s.seeHoles c lo hi [] = s := by
  unfold State.seeHoles
  exact if_pos (.inr (by rw [failing_nil h]; rfl))

theorem endHoles_of_none {s : State} {c : Nat} (h : (s.cluster c).holes = [] ∨ s.endMarks = []) : s.endHoles c = s := by
  unfold State.endHoles
  refine if_neg ?_
  rcases h with h | h
  · simp [h]
  · simp [h]

theorem seenMsg_of_got {s : State} {c : Nat} {m : Msg} (h : c ∉ m.lostAt) (fail : List (Nat × Nat)) : seenMsg s c fail m = m :=
  if_neg fun hx => h (by simpa using hx.1)

theorem framesSeen_nil {s : State} {c : Nat} (hh : (s.cluster c).holes = []) (hd : s.deadGroups = []) :
    s.framesSeen c [] = State.modCluster { s with msgs := s.msgs.map (seenMsg s c []) } c fun x => { x with rxTo := max x.rxTo s.now } := by
  unfold State.framesSeen
  rw [seeHoles_nil hd, endHoles_of_none]
  · unfold State.seeResent
    rw [failing_nil hd]
    rfl
  · refine .inl ?_
    rw [cluster_modCluster_same]
    exact hh

/-- What cluster `c` has after the frames without a failure. -/
theorem cluster_framesSeen_nil {s : State} {c : Nat} (hh : (s.cluster c).holes = []) (hd : s.deadGroups = []) :
    (s.framesSeen c []).cluster c = { s.cluster c with rxTo := max (s.cluster c).rxTo s.now } ∧
      (s.framesSeen c []).msgs = s.msgs.map (seenMsg s c []) ∧ (s.framesSeen c []).sbReqs = s.sbReqs := by
  rw [framesSeen_nil hh hd, cluster_modCluster_same]
  exact ⟨rfl, rfl, rfl⟩

theorem cluster_settleAcks (s : State) (k : Nat) : s.settleAcks.cluster k = s.cluster k := rfl

theorem msgApplied_of_eq {s t : State} {c : Nat} (h1 : (t.cluster c).appliedTo = (s.cluster c).appliedTo) (h2 : (t.cluster c).applied = (s.cluster c).applied)
    (m : Msg) : t.msgApplied c m = s.msgApplied c m := by
  unfold State.msgApplied
  rw [h1, h2]

/-- A message received whole that cluster `c` has not applied is due once the frames are seen. -/
theorem oneDue_framesSeen {s : State} {c : Nat} {m : Msg} (hh : (s.cluster c).holes = []) (hd : s.deadGroups = []) (hm : s.msgs = [m])
    (ht : m.done ≤ s.now) (hl : c ∉ m.lostAt) (ha : s.msgApplied c m = false) : OneDue c (s.framesSeen c []) m := by
  obtain ⟨e, em, -⟩ := cluster_framesSeen_nil hh hd
  refine ⟨?_, ?_, ?_, hl, ?_⟩
  · rw [em, hm, List.map_singleton, seenMsg_of_got hl]
  · rw [e]
    exact hh
  · rw [e]
    exact ht.trans (le_max_right _ _)
  · rw [msgApplied_of_eq (s := s) (by rw [e]) (by rw [e])]
    exact ha

theorem l2Line_landLine {s : State} {c pa : Nat} (h : inHole pa = false) (data : List Byte) :
    ∃ l : Line, (s.landLine c pa data).l2Line c (landKey pa / 64) = l.write (pa % 64) data.length (leBytes data) := by
  have hfold (la : Nat) (l : List Nat) (u : State) : (l.foldl (fun (s : State) q =>
      if ((s.core q).l1.find? fun e => e.1 == la).isSome then s.modCore q fun k => { k with l1 := k.l1.drop (· == la) } else s) u).clusters = u.clusters := by
    induction l generalizing u with
    | nil => rfl
    | cons a l ih =>
      refine (ih _).trans ?_
      show State.clusters (if _ then _ else u) = _
      split <;> rfl
  unfold State.landLine
  rw [if_neg (by simp [h])]
  simp only []
  unfold State.l2Line State.cluster
  rw [hfold]
  refine ⟨((s.l2Room c (landKey pa / 64 / 4)).cluster c).l2.get {} (landKey pa / 64), ?_⟩
  show SMap.get {} (((s.l2Room c (landKey pa / 64 / 4)).setL2 c (landKey pa / 64) _).cluster c).l2 _ = _
  unfold State.setL2
  rw [cluster_modCluster_same]
  exact SMap.get_put_same ..

theorem own_of_cachesOnly {c : Nat} {u t : State} {m : Msg} (hu : u.msgs = [m]) (h : CachesOnly c u t) : ∀ x ∈ t.msgs, x = m ∨ OwnSnoop c x := by
  obtain ⟨l, e, hl⟩ := h.msgs
  intro x hx
  rw [e, hu] at hx
  rcases List.mem_cons.mp hx with hx | hx
  · exact .inl hx
  · exact .inr (hl x hx)

/-- A broadcast store that lands in one line is there after the frame. -/
theorem photonicFrame_lands {c : Nat} {s : State} {m : Msg} (h : OneDue c s m) (hb : m.bus < 16) {off pa : Nat} {data : List Byte}
    (hbody : m.body = .store off data) (hland : (s.cluster c).landing off = some pa) (hhole : inHole pa = false) (hlen : pa % 64 + data.length ≤ 64) :
    ∃ l : Line, ((List.range 16).foldl (fun s b => s.applyBus c b) s).l2Line c (landKey pa / 64) = l.write (pa % 64) data.length (leBytes data) := by
  obtain ⟨u, hu, hk⟩ := oneDue_applyBuses h hb
  have htake : u.takesMsg c m = u.landLine c pa data := by
    unfold State.takesMsg
    rw [hbody]
    show u.applyStore c off data = _
    unfold State.applyStore
    rw [hu.land, hland]
    exact if_pos (by omega)
  have hk' := hk (own_of_cachesOnly (hu.msgs.trans h.msgs) (cachesOnly_takesMsg u c m))
  obtain ⟨l, e⟩ := l2Line_landLine (s := u) (c := c) hhole data
  refine ⟨l, ?_⟩
  rw [← e, ← htake]
  unfold State.l2Line
  rw [hk'.l2]

theorem photonicFrame_snoops {c : Nat} {s : State} {m : Msg} (h : OneDue c s m) (hb : m.bus < 16) {k : Snoop} {sb q : Nat} (hbody : m.body = .snoop k sb q)
    (hw : m.writer ≠ c) (hr : s.sbReqs = []) :
    ((List.range 16).foldl (fun s b => s.applyBus c b) s).moesiOf c sb = (s.moesiOf c sb).after k := by
  obtain ⟨u, hu, hk⟩ := oneDue_applyBuses h hb
  have htake : u.takesMsg c m = u.applySnoop c m k sb := by
    unfold State.takesMsg
    rw [hbody]
  obtain ⟨h1, h2⟩ := moesiOf_applySnoop hw (hu.reqs hr) k sb
  rw [htake] at hk
  have hk' := hk fun x hx => by
    rw [h2, hu.msgs, h.msgs] at hx
    exact .inl (List.mem_singleton.mp hx)
  have hs : u.moesiOf c sb = s.moesiOf c sb := by
    unfold State.moesiOf
    rw [hu.moesi]
  rw [← hs, ← h1]
  unfold State.moesiOf
  rw [hk'.moesi]

/-! ### Frames with a hole -/

theorem addHole_nil (bus g lo hi : Nat) : addHole bus g lo hi [] = [{ bus, group := g, frame := lo, last := hi }] := rfl

theorem failing_one {s : State} {c bus g w : Nat} (hbus : bus < 16) (hg : g < 200) (hw : w < 192) (hne : w ≠ c) (hbind : s.bindAt c bus w = g)
    (hd : s.deadGroups = []) : s.failing c [(bus, g)] = [(bus, g)] := by
  have hany : ((List.range 192).any fun w => w != c && s.bindAt c bus w == g) = true :=
    List.any_eq_true.mpr ⟨w, List.mem_range.mpr hw, by simp [hne, hbind]⟩
  unfold State.failing
  rw [hd, List.append_nil, List.filter_cons, if_pos (by simp [hbus, hg])]
  exact List.filter_eq_self.mpr fun p hp => by rw [List.mem_singleton.mp (List.mem_dedup.mp hp)]; exact hany

/-- A message as the frames `[lo, hi]` leave it, where those of `fail` failed at cluster `c`. -/
def lostMsg (c lo hi : Nat) (fail : List (Nat × Nat)) (m : Msg) : Msg :=
  if fail.contains (m.bus, m.group) ∧ m.writer ≠ c ∧ m.start ≤ hi ∧ lo ≤ m.done ∧ !m.lostAt.contains c then { m with lostAt := m.lostAt ++ [c] } else m

theorem seeHoles_some {s : State} {c lo hi : Nat} {dark : List (Nat × Nat)} {p : Nat × Nat} (h : s.failing c dark = [p]) (hlo : lo ≤ hi) :
    (s.seeHoles c lo hi dark).msgs = s.msgs.map (lostMsg c lo hi [p]) ∧
      ((s.seeHoles c lo hi dark).cluster c).holes = addHole p.1 p.2 lo hi (s.cluster c).holes ∧
      ((s.seeHoles c lo hi dark).cluster c).rxTo = (s.cluster c).rxTo ∧ (s.seeHoles c lo hi dark).endMarks = s.endMarks := by
  unfold State.seeHoles
  rw [h, if_neg (by simp [hlo])]
  simp only [cluster_modCluster_same]
  exact ⟨rfl, rfl, rfl, rfl⟩

theorem mem_seeResent {s : State} {c lo hi : Nat} {dark : List (Nat × Nat)} {y : Msg} (h : y ∈ (s.seeResent c lo hi dark).msgs) (hr : y.resent < lo) :
    y ∈ s.msgs := by
  obtain ⟨x, hx, rfl⟩ := List.mem_map.mp h
  split at hr
  · next hc => exact absurd hr (not_lt.mpr hc.2.1)
  · next hc =>
    rw [if_neg hc]
    exact hx

theorem lost_of_lostMsg {c lo hi bus g : Nat} {m : Msg} (hb : (lostMsg c lo hi [(bus, g)] m).bus = bus) (hg : (lostMsg c lo hi [(bus, g)] m).group = g)
    (hw : (lostMsg c lo hi [(bus, g)] m).writer ≠ c) (hs : (lostMsg c lo hi [(bus, g)] m).start ≤ hi) (hd : lo ≤ (lostMsg c lo hi [(bus, g)] m).done) :
    c ∈ (lostMsg c lo hi [(bus, g)] m).lostAt := by
  by_cases h : [(bus, g)].contains (m.bus, m.group) ∧ m.writer ≠ c ∧ m.start ≤ hi ∧ lo ≤ m.done ∧ !m.lostAt.contains c
  · rw [show lostMsg c lo hi [(bus, g)] m = _ from if_pos h]
    exact List.mem_append_right _ List.mem_cons_self
  · rw [show lostMsg c lo hi [(bus, g)] m = m from if_neg h] at hb hg hw hs hd ⊢
    by_contra hl
    exact h ⟨by simp [hb, hg], hw, hs, hd, by simpa using hl⟩

/-- An acknowledgement changes nothing else of a message. -/
theorem mem_settleAcks {s : State} {y : Msg} (h : y ∈ s.settleAcks.msgs) : ∃ x ∈ s.msgs, y = { x with acked := y.acked } := by
  obtain ⟨x, hx, rfl⟩ := List.mem_map.mp h
  refine ⟨x, hx, ?_⟩
  split
  · rfl
  · split
    · split <;> rfl
    · rfl

theorem photonicFrame_hole {c bus g w : Nat} {s : State} (hc : c < 192) (hbus : bus < 16) (hg : g < 200) (hw : w < 192) (hne : w ≠ c)
    (hbind : s.bindAt c bus w = g) (hf : s.forwards (regionOf c) = true) (hh : (s.cluster c).holes = []) (hd : s.deadGroups = []) (hm : s.endMarks = [])
    (hrx : (s.cluster c).rxTo < s.now) :
    ∃ t, exec (.photonicFrame c [(bus, g)]) s = .next t ∧
      (t.cluster c).holes = [{ bus, group := g, frame := (s.cluster c).rxTo + 1, last := s.now }] ∧
      ∀ m ∈ t.msgs, m.bus = bus → m.group = g → m.writer ≠ c → m.resent = 0 → m.start ≤ s.now → (s.cluster c).rxTo < m.done → c ∈ m.lostAt := by
  obtain ⟨e1, e2, -, e4⟩ := seeHoles_some (lo := (s.cluster c).rxTo + 1) (hi := s.now) (failing_one hbus hg hw hne hbind hd) hrx
  have hmarks : (((s.seeHoles c ((s.cluster c).rxTo + 1) s.now [(bus, g)]).seeResent c ((s.cluster c).rxTo + 1) s.now [(bus, g)]).modCluster c
      fun x => { x with rxTo := max x.rxTo s.now }).endMarks = [] := e4.trans hm
  have hseen := endHoles_of_none (c := c) (.inr hmarks)
  have hr := receiving_applyBuses c (List.range 16) (s.framesSeen c [(bus, g)])
  refine ⟨_, exec_photonicFrame hc hf _, ?_, fun m hmem h1 h2 h3 h4 h5 h6 => ?_⟩
  · rw [cluster_settleAcks, hr.holes]
    unfold State.framesSeen
    rw [hseen, cluster_modCluster_same]
    exact e2.trans (by rw [hh, addHole_nil])
  · obtain ⟨x, hx, e⟩ := mem_settleAcks hmem
    obtain ⟨l, hl, hown⟩ := hr.msgs
    have hlost : m.lostAt = x.lostAt := by rw [e]
    have hxw : x.writer = m.writer := by rw [e]
    rw [hl] at hx
    rcases List.mem_append.mp hx with hx | hx
    · unfold State.framesSeen at hx
      rw [hseen] at hx
      have hx' := mem_seeResent hx (by rw [show x.resent = m.resent by rw [e], h4]; exact Nat.succ_pos _)
      rw [e1] at hx'
      obtain ⟨y, -, rfl⟩ := List.mem_map.mp hx'
      rw [hlost]
      rw [e] at h1 h2 h3 h5 h6
      exact lost_of_lostMsg h1 h2 h3 h5 h6
    · exact absurd (hxw ▸ (hown x hx).1) h3

theorem photonicFrame_whole {c : Nat} {s : State} (hc : c < 192) (hf : s.forwards (regionOf c) = true) (hh : (s.cluster c).holes = [])
    (hd : s.deadGroups = []) :
    ∃ t, exec (.photonicFrame c []) s = .next t ∧
      (∀ m ∈ s.msgs, m.bus < 16 → m.done ≤ s.now → c ∉ m.lostAt → s.msgApplied c m = true ∨ m.id ∈ (t.cluster c).applied) ∧
      (∀ b, b < 16 → (t.cluster c).appliedTo.get 0 b = max ((s.cluster c).appliedTo.get 0 b) (max (s.cluster c).rxTo s.now)) ∧
      (∀ m off data pa i, s.msgs = [m] → m.bus < 16 → m.done ≤ s.now → c ∉ m.lostAt → s.msgApplied c m = false →
        m.body = .store off data → (s.cluster c).landing off = some pa → inHole pa = false → pa % 64 + data.length ≤ 64 → i < data.length →
        (t.l2Line c (landKey pa / 64)).data.extractLsb' (8 * (pa % 64 + i)) 8 = data.getD i 0 ∧
          (t.l2Line c (landKey pa / 64)).mask.getLsbD (pa % 64 + i) = true) ∧
      (∀ m k sb q, s.msgs = [m] → m.bus < 16 → m.done ≤ s.now → c ∉ m.lostAt → s.msgApplied c m = false → m.body = .snoop k sb q →
        m.writer ≠ c → s.sbReqs = [] → t.moesiOf c sb = (s.moesiOf c sb).after k) := by
  obtain ⟨e, em, er⟩ := cluster_framesSeen_nil hh hd
  have hh' : ((s.framesSeen c []).cluster c).holes = [] := by
    rw [e]
    exact hh
  refine ⟨_, exec_photonicFrame hc hf _, fun m hm hb ht hl => ?_, fun b hb => ?_, fun m off data pa i hm hb ht hl ha hbody hland hhole hlen hi => ?_,
    fun m k sb q hm hb ht hl ha hbody hw hr => ?_⟩
  · have hmem : m ∈ (s.framesSeen c []).msgs := by
      rw [em]
      exact List.mem_map.mpr ⟨m, hm, seenMsg_of_got hl _⟩
    have h := applies_applyBuses hb hh' hmem (by rw [e]; exact ht.trans (le_max_right _ _)) hl
    rw [msgApplied_of_eq (s := s) (by rw [e]) (by rw [e])] at h
    rw [cluster_settleAcks]
    exact h
  · have h := reached_applyBuses (c := c) (s := s.framesSeen c []) hb hh'
    rw [e] at h
    rw [cluster_settleAcks]
    exact h
  · have h1 := oneDue_framesSeen hh hd hm ht hl ha
    have hland' : ((s.framesSeen c []).cluster c).landing off = some pa := by
      rw [e]
      exact hland
    obtain ⟨l, el⟩ := photonicFrame_lands h1 hb hbody hland' hhole hlen
    have h2 := byte_write_leBytes (l := l) hi hlen
    rw [← el] at h2
    unfold State.l2Line
    rw [cluster_settleAcks]
    exact h2
  · have h1 := oneDue_framesSeen hh hd hm ht hl ha
    have h2 := photonicFrame_snoops h1 hb hbody hw (er.trans hr)
    have hs : (s.framesSeen c []).moesiOf c sb = s.moesiOf c sb := by
      unfold State.moesiOf
      rw [e]
    rw [← hs]
    unfold State.moesiOf
    rw [cluster_settleAcks]
    exact h2

/-! ### Retained copies -/

theorem find?_of_find? {α : Type} {p r : α → Bool} {l : List α} {a : α} (h : l.find? p = some a) (hr : r a = true) (hi : ∀ x, r x = true → p x = true) :
    l.find? r = some a := by
  induction l with
  | nil => cases h
  | cons x l ih =>
    rw [List.find?_cons] at h ⊢
    by_cases hp : p x = true
    · rw [hp] at h
      obtain rfl := Option.some.inj h
      rw [hr]
    · have hrx : r x = false := by
        by_contra hx
        exact hp (hi x (by simpa using hx))
      rw [hrx]
      rw [eq_false_of_ne_true hp] at h
      exact ih h

theorem id_of_msg? {s : State} {id : Nat} {m : Msg} (h : s.msg? id = some m) : m.id = id := by simpa using List.find?_some h

/-- A retained copy is on its way from cluster `c` to each of the clusters. -/
theorem sendCopies_eq (s : State) (c id : Nat) (ks : List Nat) : ∃ l n, s.sendCopies c id ks = { s with packets := s.packets ++ l, nextId := n } ∧
    ∀ k ∈ ks, ∃ p ∈ l, p.body = .copy id k ∧ p.ret = true ∧ p.at_ = s.physOf (transmitter c) ∧ p.srcPhys = s.physOf (transmitter k) := by
  induction ks generalizing s with
  | nil => exact ⟨[], s.nextId, by rw [List.append_nil]; rfl, fun _ h => nomatch h⟩
  | cons k ks ih =>
    obtain ⟨l, n, e, h⟩ := ih (s.respond (transmitter c) (transmitter k) (.copy id k))
    obtain ⟨p, hp⟩ : ∃ p, p = ({ id := s.nextId, src := transmitter k, dst := transmitter c, srcPhys := s.physOf (transmitter k)
                                 dstPhys := s.physOf (transmitter c), at_ := s.physOf (transmitter c), order := 0, plane := 0, vc := 0, prio := 2
                                 ret := true, since := s.now, portAt := s.now, body := .copy id k } : Packet) := ⟨_, rfl⟩
    have hr : s.respond (transmitter c) (transmitter k) (.copy id k) = { s with nextId := s.nextId + 1, packets := s.packets ++ [p] } := by rw [hp]; rfl
    refine ⟨p :: l, n, ?_, fun q hq => ?_⟩
    · show (s.respond (transmitter c) (transmitter k) (.copy id k)).sendCopies c id ks = _
      rw [e, hr, List.append_assoc]
      rfl
    · rcases List.mem_cons.mp hq with rfl | hq
      · exact ⟨p, List.mem_cons_self, by rw [hp], by rw [hp], by rw [hp], by rw [hp]⟩
      · obtain ⟨x, hx, h1⟩ := h q hq
        rw [hr] at h1
        exact ⟨x, List.mem_cons_of_mem _ hx, h1⟩

theorem get_map_key {α : Type} {d : α} (f : Nat → α → α) (hd : ∀ k, f k d = d) (m : SMap α) (k : Nat) :
    SMap.get d (m.map fun p : Nat × α => (p.1, f p.1 p.2)) k = f k (m.get d k) := by
  induction m with
  | nil => exact (hd k).symm
  | cons e m ih =>
    simp only [List.map_cons, SMap.get]
    by_cases h : e.1 = k
    · rw [if_pos h, if_pos h, h]
    · rw [if_neg h, if_neg h, ih]

/-- A hole of cluster `k` that the frames of writer `c` leave open for nothing. -/
def State.idleHole (s : State) (c k : Nat) (h : Hole) : Bool := h.group == s.bindAt k h.bus c && h.closed (s.cluster k) && !s.holeLost k h

theorem idleHole_iff {s : State} {c k : Nat} {h : Hole} :
    s.idleHole c k h = true ↔ h.group = s.bindAt k h.bus c ∧ h.last < (s.cluster k).rxTo ∧ s.holeLost k h = false := by
  simp [State.idleHole, Hole.closed, and_assoc]

/-- The cluster without the holes that `P` names. -/
def Cluster.closing (P : Hole → Bool) (x : Cluster) : Cluster := if x.holes.any P then { x with holes := x.holes.filter fun h => !P h } else x

theorem closing_keeps (P : Hole → Bool) (x : Cluster) : { x.closing P with holes := x.holes } = x := by
  unfold Cluster.closing
  split <;> rfl

theorem mem_closing {P : Hole → Bool} {x : Cluster} {h : Hole} (hm : h ∈ x.holes) : h ∉ (x.closing P).holes ↔ P h = true := by
  unfold Cluster.closing
  split
  · show h ∉ x.holes.filter _ ↔ _
    rw [List.mem_filter]
    simp [hm]
  · next hno =>
    refine iff_of_false (fun hx => hx hm) fun hP => hno (List.any_eq_true.mpr ⟨h, hm, hP⟩)

/-- The message with its copies on their way. -/
def copyAsked (c id : Nat) (m : Msg) : Msg := if m.id = id ∧ m.writer = c ∧ m.retained then { m with copies := (m.copies ++ m.lostAt).dedup } else m

theorem id_copyAsked (c id : Nat) (m : Msg) : (copyAsked c id m).id = m.id := by
  unfold copyAsked
  split <;> rfl

/-- The clusters that have lost it and have no copy on its way. -/
def asking (lost copies : List Nat) : List Nat := lost.filter fun k => !copies.contains k

theorem exec_retainedCopyRequest {c id : Nat} {m : Msg} {s : State} (h : s.msg? id = some m) (hw : m.writer = c) (hr : m.retained = true) :
    ∃ ks b, exec (.retainedCopyRequest c id) s = .next { s.sendCopies c id (asking m.lostAt m.copies ++ ks) with
      msgs := s.msgs.map (copyAsked c id), beacons := b
      clusters := (s.sendCopies c id (asking m.lostAt m.copies ++ ks)).clusters.map fun (p : Nat × Cluster) => (p.1, p.2.closing (s.idleHole c p.1)) } := by
  have hf : s.msgs.find? (fun m => m.id == id && m.writer == c && m.retained) = some m :=
    find?_of_find? h (by simp [id_of_msg? h, hw, hr]) fun x hx => by
      simp only [Bool.and_eq_true] at hx
      exact hx.1.1
  have hp (p : Nat × Cluster) : (if p.2.holes.any (s.idleHole c p.1) then (p.1, { p.2 with holes := p.2.holes.filter fun h => !s.idleHole c p.1 h }) else p) =
      (p.1, p.2.closing (s.idleHole c p.1)) := by
    unfold Cluster.closing
    split <;> rfl
  refine ⟨(((s.beacons.find? fun b => b.id == id && b.writer == c).map fun b => asking b.lostAt b.copies).getD []),
    s.beacons.map fun (b : Beacon) => if b.id = id ∧ b.writer = c then { b with copies := (b.copies ++ b.lostAt).dedup } else b, ?_⟩
  show execRetainedCopyRequest c id s = _
  unfold execRetainedCopyRequest
  rw [hf, ← funext hp] <;> rfl

theorem msg?_copyAsked {c id : Nat} {m : Msg} {s t : State} (h : s.msg? id = some m) (hw : m.writer = c) (hr : m.retained = true)
    (ht : t.msgs = s.msgs.map (copyAsked c id)) : t.msg? id = some { m with copies := (m.copies ++ m.lostAt).dedup } := by
  have e := find?_map_of_key (key := Msg.id) (id_copyAsked c id) s.msgs id
  unfold State.msg? at *
  rw [ht, e, h]
  exact congrArg some (if_pos ⟨id_of_msg? h, hw, hr⟩)

theorem retainedCopyRequest_sends {c id : Nat} {m : Msg} {s : State} (h : s.msg? id = some m) (hw : m.writer = c) (hr : m.retained = true) :
    ∃ t x l, exec (.retainedCopyRequest c id) s = .next t ∧ t.msg? id = some x ∧ (∀ k, k ∈ x.copies ↔ k ∈ m.copies ∨ k ∈ m.lostAt) ∧
      t.packets = s.packets ++ l ∧ (∀ k ∈ m.lostAt, k ∉ m.copies → ∃ p ∈ l, p.body = .copy id k ∧ p.ret = true ∧
        p.at_ = s.physOf (transmitter c) ∧ p.srcPhys = s.physOf (transmitter k)) ∧
      { x with copies := m.copies } = m ∧
      { t with msgs := s.msgs, beacons := s.beacons, clusters := s.clusters, packets := s.packets, nextId := s.nextId } = s ∧
      ∀ k, { t.cluster k with holes := (s.cluster k).holes } = s.cluster k ∧
        ∀ h ∈ (s.cluster k).holes, h ∉ (t.cluster k).holes ↔
          h.group = s.bindAt k h.bus c ∧ h.last < (s.cluster k).rxTo ∧ s.holeLost k h = false := by
  obtain ⟨ks, b, e⟩ := exec_retainedCopyRequest h hw hr
  obtain ⟨l, n, ec, hl⟩ := sendCopies_eq s c id (asking m.lostAt m.copies ++ ks)
  rw [ec] at e
  have hcl (k : Nat) : SMap.get {} (s.clusters.map fun (p : Nat × Cluster) => (p.1, p.2.closing (s.idleHole c p.1))) k =
      (s.cluster k).closing (s.idleHole c k) := get_map_key (d := ({} : Cluster)) (fun k x => x.closing (s.idleHole c k)) (fun _ => rfl) s.clusters k
  refine ⟨_, _, l, e, msg?_copyAsked h hw hr rfl, fun k => ?_, rfl, fun k hk hno => ?_, rfl, rfl, fun k => ?_⟩
  · rw [List.mem_dedup, List.mem_append]
  · exact hl k (List.mem_append_left _ (List.mem_filter.mpr ⟨hk, by simpa using hno⟩))
  · show { SMap.get {} (s.clusters.map fun (p : Nat × Cluster) => (p.1, p.2.closing (s.idleHole c p.1))) k with holes := (s.cluster k).holes } = s.cluster k ∧
      ∀ h ∈ (s.cluster k).holes, h ∉ (SMap.get {} (s.clusters.map fun (p : Nat × Cluster) => (p.1, p.2.closing (s.idleHole c p.1))) k).holes ↔ _
    rw [hcl]
    exact ⟨closing_keeps _ _, fun h hm => (mem_closing hm).trans idleHole_iff⟩

/-- The message once cluster `c` has its copy. -/
def copyTaken (c id : Nat) (m : Msg) : Msg :=
  if m.id = id ∧ m.copies.contains c then { m with lostAt := m.lostAt.filter (· != c), copies := m.copies.filter (· != c) } else m

theorem id_copyTaken (c id : Nat) (m : Msg) : (copyTaken c id m).id = m.id := by
  unfold copyTaken
  split <;> rfl

/-- The state once the copy is there. -/
def State.copyIn (s : State) (c id : Nat) (p : Packet) : State :=
  { s.dropPacket p.id with
    msgs := s.msgs.map (copyTaken c id)
    beacons := s.beacons.map fun (b : Beacon) =>
      if b.id = id ∧ b.copies.contains c then { b with lostAt := b.lostAt.filter (· != c), copies := b.copies.filter (· != c) } else b }

/-- A hole that is over, with nothing lost left in it. -/
def State.solvedHole (s t : State) (c : Nat) (h : Hole) : Bool := h.closed (s.cluster c) && s.holeLost c h && !t.holeLost c h

theorem exec_retainedCopyReceive {c id : Nat} {p : Packet} {s : State}
    (h : s.packets.find? (fun p => p.body == .copy id c && p.arrived) = some p) :
    exec (.retainedCopyReceive c id) s = .next (if (s.cluster c).holes.any (s.solvedHole (s.copyIn c id p) c) then
      (s.copyIn c id p).modCluster c fun x => { x with holes := x.holes.filter fun h => !s.solvedHole (s.copyIn c id p) c h } else s.copyIn c id p) := by
  show execRetainedCopyReceive c id s = _
  unfold execRetainedCopyReceive
  rw [h]
  show (if _ then _ else _) = _
  rw [apply_ite Host.Outcome.next]
  rfl

theorem retainedCopyReceive_takes {c id : Nat} {m : Msg} {p : Packet} {s : State} (h : s.msg? id = some m) (hc : c ∈ m.copies)
    (hp : s.packets.find? (fun p => p.body == .copy id c && p.arrived) = some p) :
    ∃ t x, exec (.retainedCopyReceive c id) s = .next t ∧ t.msg? id = some x ∧ c ∉ x.lostAt ∧ c ∉ x.copies ∧
      t.packets = s.packets.filter (fun y => y.id != p.id) ∧
      (∀ h ∈ (s.cluster c).holes, h ∉ (t.cluster c).holes ↔ h.last < (s.cluster c).rxTo ∧ s.holeLost c h = true ∧ t.holeLost c h = false) ∧
      ∀ k, k ≠ c → t.cluster k = s.cluster k := by
  obtain ⟨t, ht⟩ : ∃ t, t = (if (s.cluster c).holes.any (s.solvedHole (s.copyIn c id p) c) then
      (s.copyIn c id p).modCluster c fun x => { x with holes := x.holes.filter fun h => !s.solvedHole (s.copyIn c id p) c h } else s.copyIn c id p) := ⟨_, rfl⟩
  have hrest : t = { s.copyIn c id p with clusters := t.clusters } := by
    rw [ht]
    split <;> rfl
  have hclu (k : Nat) : t.cluster k = if k = c then (s.cluster c).closing (s.solvedHole (s.copyIn c id p) c) else s.cluster k := by
    rw [ht]
    unfold Cluster.closing
    split
    · by_cases hk : k = c
      · rw [hk, if_pos rfl, cluster_modCluster_same]
        rfl
      · rw [if_neg hk, cluster_modCluster_other _ _ hk]
        rfl
    · split
      · next hk => rw [hk]; rfl
      · rfl
  have hlost (h : Hole) : t.holeLost c h = (s.copyIn c id p).holeLost c h := by
    rw [hrest]
    rfl
  have hmsg : t.msg? id = some { m with lostAt := m.lostAt.filter (· != c), copies := m.copies.filter (· != c) } := by
    have e := find?_map_of_key (key := Msg.id) (id_copyTaken c id) s.msgs id
    have em : t.msgs = s.msgs.map (copyTaken c id) := by
      rw [hrest]
      rfl
    unfold State.msg? at *
    rw [em, e, h]
    exact congrArg some (if_pos ⟨id_of_msg? h, by simpa using hc⟩)
  refine ⟨t, _, (exec_retainedCopyReceive hp).trans (congrArg _ ht.symm), hmsg, by simp, by simp, ?_, fun h hm => ?_, fun k hk => by rw [hclu, if_neg hk]⟩
  · rw [hrest]
    rfl
  · rw [hclu, if_pos rfl, mem_closing hm, hlost]
    simp [State.solvedHole, Hole.closed, and_assoc]

/-! ### What is told of frames -/

theorem retainedCopyExpire_holds {id : Nat} {m : Msg} {s : State} (h : s.msg? id = some m) (ht : m.done + 40000 ≤ s.now) :
    (m.acked = true → m.lostAt = [] → ∃ t, exec (.retainedCopyExpire id) s = .next t ∧ t.msg? id = none ∧ t.dram = s.dram) ∧
    (m.acked = false ∨ m.lostAt ≠ [] → ∃ t, exec (.retainedCopyExpire id) s = .next t ∧ t.msg? id = some { m with retained := false } ∧
      { t with msgs := s.msgs } = s) := by
  have hex : exec (.retainedCopyExpire id) s = if m.acked ∧ m.lostAt.isEmpty then
      .next { s with
        msgs := s.msgs.filter fun (x : Msg) => x.id != id
        clusters := s.clusters.map fun (p : Nat × Cluster) => (p.1, { p.2 with applied := p.2.applied.filter (· != id) }) }
      else .next { s with msgs := s.msgs.map fun (x : Msg) => if x.id = id then { x with retained := false } else x } := by
    show execRetainedCopyExpire id s = _
    unfold execRetainedCopyExpire
    rw [h]
    exact if_neg (by omega)
  refine ⟨fun ha hl => ⟨_, hex.trans (if_pos ⟨ha, by rw [hl]; rfl⟩), ?_, rfl⟩, fun hno => ⟨_, hex.trans (if_neg ?_), ?_, rfl⟩⟩
  · refine List.find?_eq_none.mpr fun x hx => ?_
    simpa using (List.mem_filter.mp hx).2
  · rintro ⟨ha, hl⟩
    rcases hno with hno | hno
    · rw [ha] at hno
      cases hno
    · exact hno (List.isEmpty_iff.mp hl)
  · have e := find?_map_of_key (key := Msg.id) (g := fun x => if x.id = id then { x with retained := false } else x)
      (fun y => by split <;> rfl) s.msgs id
    unfold State.msg? at *
    refine e.trans ?_
    rw [h]
    exact congrArg some (if_pos (id_of_msg? h))

theorem told_linkMessage {s t : State} (k : Nat) (hr : room s) (h2 : t.cqTail = s.cqTail) (h3 : t.cqHead = s.cqHead) (h4 : t.irqs = s.irqs)
    (h5 : t.cqOver = s.cqOver) : Told s (t.linkMessage k) (linkEntry t k) := by
  obtain ⟨hover, -, -, hfree⟩ := hr
  obtain ⟨x, y, e⟩ := linkMessage_eq (s := t) k (h5.trans hover) (by unfold State.cqFree at *; rw [h2, h3]; omega)
  rw [e]
  refine ⟨?_, ?_, ?_⟩
  · show SMap.get 0 (t.cq.put t.cqTail _) s.cqTail = _
    rw [h2, SMap.get_put_same]
  · show (t.cqTail + 1) % 4096 = _
    rw [h2]
  · show (if t.cqTail = t.cqHead then t.irqs + 1 else t.irqs) = _
    rw [h2, h3, h4]

theorem groupDead_holds {c bus g : Nat} {s : State} (hc : c < 192) (hb : bus < 16) (hg : g < 200) (hd : (bus, g) ∉ s.deadGroups) :
    (s.failedFrames c bus g < 16 → exec (.groupDead c bus g) s = .next s) ∧
    (16 ≤ s.failedFrames c bus g → room s → ∃ t, ∃ e : CqEntry, exec (.groupDead c bus g) s = .next t ∧
      t.deadGroups = s.deadGroups ++ [(bus, g)] ∧ e.kind = 8 ∧ e.src = BitVec.ofNat 16 c ∧ Told s t e) := by
  refine ⟨fun hf => ?_, fun hf hr => ?_⟩
  · show execGroupDead c bus g s = _
    unfold execGroupDead
    exact if_pos (.inr (.inr (.inr (.inr hf))))
  · have e : exec (.groupDead c bus g) s = .next (State.linkMessage { s with deadGroups := s.deadGroups ++ [(bus, g)] } c) := by
      show execGroupDead c bus g s = _
      unfold execGroupDead
      exact if_neg (by simp [hd]; omega)
    refine ⟨_, linkEntry { s with deadGroups := s.deadGroups ++ [(bus, g)] } c, e, ?_, rfl, rfl, told_linkMessage c hr rfl rfl rfl rfl⟩
    obtain ⟨x, y, el⟩ := linkMessage_eq (s := { s with deadGroups := s.deadGroups ++ [(bus, g)] }) c hr.1 (Nat.lt_of_le_of_lt (Nat.zero_le _) hr.2.2.2)
    rw [el]

theorem holeTimeout_holds {c bus : Nat} {h : Hole} {s : State}
    (hf : (s.cluster c).holes.find? (fun h => h.bus == bus && !h.told && h.frame + 100000 ≤ s.now) = some h) (hr : room s) :
    ∃ t, ∃ e : CqEntry, exec (.holeTimeout c bus) s = .next t ∧ { h with told := true } ∈ (t.cluster c).holes ∧ e.kind = 7 ∧
      e.src = BitVec.ofNat 16 c ∧ Told s t e := by
  obtain ⟨t, ht⟩ : ∃ t, t = s.modCluster c fun x => { x with holes := x.holes.map fun (y : Hole) => if y = h then { y with told := true } else y } := ⟨_, rfl⟩
  have e : exec (.holeTimeout c bus) s = .next ((t.openMessage kindMachineCheck c).bboxOpen (fieldOfCluster c) 3) := by
    show execHoleTimeout c bus s = _
    unfold execHoleTimeout
    rw [hf, ht]
  have hroom : room t := by
    rw [ht]
    exact hr
  have htold := told_openMessage hroom kindMachineCheck c
  have hm := (messages_openMessage t (kind := kindMachineCheck) (by decide) c).trans (messages_bboxOpen _ (fieldOfCluster c) 3)
  have hmem : { h with told := true } ∈ (t.cluster c).holes := by
    rw [ht, cluster_modCluster_same]
    exact List.mem_map.mpr ⟨h, List.mem_of_find?_eq_some hf, if_pos rfl⟩
  refine ⟨_, openEntry t kindMachineCheck c, e, ?_, rfl, rfl, ⟨?_, ?_, ?_⟩⟩
  · rw [hm.rest]
    exact hmem
  · rw [show s.cqTail = t.cqTail by rw [ht]; rfl]
    exact htold.entry
  · exact htold.tail.trans (by rw [ht]; rfl)
  · exact htold.irqs.trans (by rw [ht]; rfl)

theorem busMessages_holds : busMessages :=
  ⟨fun _ _ hc hf hh hd => photonicFrame_whole hc hf hh hd,
    fun _ _ _ _ _ hc hb hg hw hne hbind hf hh hd hm hrx => photonicFrame_hole hc hb hg hw hne hbind hf hh hd hm hrx,
    fun _ _ _ _ h hw hr => retainedCopyRequest_sends h hw hr, fun _ _ _ _ _ h hc _ hp => retainedCopyReceive_takes h hc hp,
    fun _ _ _ h ht => retainedCopyExpire_holds h ht, fun _ _ _ _ hc hb hg hd => groupDead_holds hc hb hg hd,
    fun _ _ _ _ hf hr => holeTimeout_holds hf hr⟩

/-! ### Sending beacons -/

theorem le_foldl_max (l : List Nat) (a : Nat) : a ≤ l.foldl max a := by
  induction l generalizing a with
  | nil => exact le_rfl
  | cons x l ih => exact (le_max_left a x).trans (ih _)

theorem lt_beaconSlot (s : State) (bus k : Nat) : s.now < s.beaconSlot bus k := le_foldl_max _ _

/-- From `s` to `t` cluster `k` has sent the beacons `l`. -/
structure Launched (k : Nat) (s t : State) (l : List Beacon) : Prop where
  beacons : t.beacons = s.beacons ++ l
  writer : ∀ b ∈ l, b.writer = k ∧ s.now < b.frame
  bclu : t.bclu = s.bclu
  kept : t.beaconsKept = s.beaconsKept
  seq : t.beaconSeq = s.beaconSeq
  now : t.now = s.now

theorem Launched.nil (k : Nat) (s : State) : Launched k s s [] := ⟨(List.append_nil _).symm, fun _ h => (nomatch h), rfl, rfl, rfl, rfl⟩

theorem Launched.append {k : Nat} {s t u : State} {l l' : List Beacon} (h : Launched k s t l) (h' : Launched k t u l') : Launched k s u (l ++ l') where
  beacons := by rw [h'.beacons, h.beacons, List.append_assoc]
  writer b hb := (List.mem_append.mp hb).elim (h.writer b) fun hb => h.now ▸ h'.writer b hb
  bclu := h'.bclu.trans h.bclu
  kept := h'.kept.trans h.kept
  seq := h'.seq.trans h.seq
  now := h'.now.trans h.now

theorem launched_launchBeacon (s : State) (k : Nat) (b : Beacon) : ∃ x, Launched k s (s.launchBeacon k b) [x] ∧ x.seq = b.seq ∧ x.kind = b.kind :=
  ⟨_, ⟨rfl, fun x hx => by rw [List.mem_singleton.mp hx]; exact ⟨rfl, lt_beaconSlot s _ k⟩, rfl, rfl, rfl, rfl⟩, rfl, rfl⟩

theorem noteHalt_rest (s : State) (on : Bool) (src core : Nat) : ∃ a b c d, s.noteHalt on src core = { s with
    haltOn := a, haltSrc := b, haltCore := c, haltTime := d } := by
  unfold State.noteHalt
  split
  · split <;> exact ⟨_, _, _, _, rfl⟩
  · exact ⟨_, _, _, _, rfl⟩

theorem launched_noteHalt {k : Nat} {s t : State} {l : List Beacon} (h : Launched k s t l) (on : Bool) (src core : Nat) :
    Launched k s (t.noteHalt on src core) l := by
  obtain ⟨a, b, c, d, e⟩ := noteHalt_rest t on src core
  rw [e]
  exact ⟨h.beacons, h.writer, h.bclu, h.kept, h.seq, h.now⟩

theorem launched_sendKept (s : State) (k : Nat) (b : Beacon) : ∃ x, Launched k s (s.sendKept k b) [x] ∧ x.seq = b.seq ∧ x.kind = b.kind := by
  obtain ⟨x, h, hs, hk⟩ := launched_launchBeacon s k b
  refine ⟨x, ?_, hs, hk⟩
  unfold State.sendKept
  split
  · exact launched_noteHalt h _ 0 0
  · exact h

theorem launched_sendAll (k : Nat) (l : List Beacon) (s : State) : ∃ l', Launched k s (l.foldl (fun s b => s.sendKept k b) s) l' ∧
    l'.map (fun b => (b.seq, b.kind)) = l.map fun b => (b.seq, b.kind) := by
  induction l generalizing s with
  | nil => exact ⟨[], .nil k s, rfl⟩
  | cons b l ih =>
    obtain ⟨x, h, hs, hk⟩ := launched_sendKept s k b
    obtain ⟨l', h', e⟩ := ih (s.sendKept k b)
    refine ⟨[x] ++ l', h.append h', ?_⟩
    rw [List.map_append, e, List.map_cons, hs, hk]
    rfl

theorem beaconClusterHandover_sends {k : Nat} {s : State} (h : s.namedBeaconCluster = some k) :
    ∃ t l, exec .beaconClusterHandover s = .next t ∧ t.bclu = k ∧
    t.beaconsKept = [] ∧ t.beaconSeq = s.beaconSeq ∧ t.beacons = s.beacons ++ l ∧
    l.map (fun b => (b.seq, b.kind)) = s.beaconsKept.map (fun b => (b.seq, b.kind)) ∧ ∀ b ∈ l, b.writer = k ∧ s.now < b.frame := by
  obtain ⟨l, hl, e⟩ := launched_sendAll k s.beaconsKept { s with bclu := k, beaconsKept := [] }
  have hex : exec .beaconClusterHandover s = .next (s.beaconsKept.foldl (fun s b => s.sendKept k b) { s with bclu := k, beaconsKept := [] }) := by
    show execBeaconClusterHandover s = _
    unfold execBeaconClusterHandover
    rw [h]
  exact ⟨_, l, hex, hl.bclu, hl.kept, hl.seq, hl.beacons, e, hl.writer⟩

theorem timeBeaconSend_sends {s : State} (hon : (s.region (regionOf s.bclu)).st = .on) (hk : s.beaconsKept = []) (ht : s.now % 1024 = 0)
    (hno : ∀ b ∈ s.beacons, ¬(s.now < b.frame ∧ b.kind = .time)) :
    ∃ t, exec .timeBeaconSend s = .next t ∧ beaconSent s t s.bclu .time ∧ t.beaconSeq = s.beaconSeq + 1 := by
  have hsent : (s.beacons.any fun b => b.kind == .time && s.now < b.frame) = false := by
    rw [List.any_eq_false]
    intro b hb
    have := hno b hb
    simp only [Bool.and_eq_true, beq_iff_eq, decide_eq_true_eq]
    tauto
  have hex : exec .timeBeaconSend s = .next (s.sendBeacon s.bclu .time) := by
    show execTimeBeaconSend s = _
    unfold execTimeBeaconSend
    simp only [hon, hk, ht, hsent]
    rfl
  exact ⟨_, hex, beaconSent_sendBeacon s _ _, rfl⟩

/-! ### Time beacons -/

theorem cluster_of_clusters {s t : State} (h : t.clusters = s.clusters) (k : Nat) : t.cluster k = s.cluster k := by
  unfold State.cluster
  rw [h]

theorem core_of_cores {s t : State} (h : t.cores = s.cores) (c : Nat) : t.core c = s.core c := by
  unfold State.core
  rw [h]

theorem Messages.cluster {s t : State} (h : Messages s t) (k : Nat) : t.cluster k = s.cluster k := cluster_of_clusters (by rw [h.rest]) k

theorem slewCores_rest (s : State) (c : Nat) : ∃ x, s.slewCores c = { s with cores := x } := by
  unfold State.slewCores
  generalize clusterCores c = l
  induction l generalizing s with
  | nil => exact ⟨s.cores, rfl⟩
  | cons a l ih =>
    rw [List.foldl_cons]
    split
    · exact ih s
    · obtain ⟨x, e⟩ := ih (s.modCore a fun k => { k with ltsLead := s.ltsAhead a, ltsSlew := if s.ltsAhead a = 0 then none else some s.now })
      exact ⟨x, e⟩

/-- The state once a cluster has counted a beacon and its cores slew. -/
def State.timed (s : State) (c : Nat) : State := (s.beaconApplied c).slewCores c

theorem cluster_timed (s : State) (c : Nat) : (s.timed c).cluster c = { s.cluster c with beaconAt := (s.cluster c).beaconAt + 1 } := by
  obtain ⟨x, e⟩ := slewCores_rest (s.beaconApplied c) c
  have hc : (s.timed c).clusters = (s.beaconApplied c).clusters := by rw [State.timed, e]
  rw [cluster_of_clusters hc]
  exact cluster_modCluster_same s c _

/-- A cluster's frames after a time beacon: one that is behind catches up, one that is ahead waits. -/
def Cluster.setBy (now : Nat) (x : Cluster) : Cluster := if x.frames < now then { x with frames := now } else { x with stall := x.frames - now }

theorem setBy_keeps (now : Nat) (x : Cluster) : (x.setBy now).beaconAt = x.beaconAt := by
  unfold Cluster.setBy
  split <;> rfl

theorem frames_setBy (now : Nat) (x : Cluster) : (x.setBy now).frames = max x.frames now := by
  unfold Cluster.setBy
  split
  · next hlt => exact (max_eq_right (Nat.le_of_lt hlt)).symm
  · next hge => exact (max_eq_left (not_lt.mp hge)).symm

theorem stall_setBy {now : Nat} {x : Cluster} (h : now < x.frames) : (x.setBy now).stall = x.frames - now :=
  congrArg Cluster.stall (if_neg (Nat.not_lt_of_gt h))

/-- The state whose clock the beacon has set. -/
def State.clockSet (s : State) (c : Nat) : State := { s.modCluster c (Cluster.setBy s.now) with freeCtr := s.freeCtr + 1 }

theorem exec_timeBeacon {c : Nat} {b : Beacon} {s : State} (h : s.nextBeacon c = some b) (hk : b.kind = .time) :
    exec (.timeBeacon c) s = if (s.cluster c).frames = (s.timed c).now then .next (s.timed c) else
      .next (((s.timed c).clockSet c |>.message kindLink c 0x10 (Config.freeValue (s.timed c).freeCtr).toNat).bboxEvent (fieldOfCluster c) 9 c
        (wrap 56 (((s.timed c).now : Int) - (s.cluster c).frames))) := by
  show execTimeBeacon c s = _
  unfold execTimeBeacon
  rw [h]
  refine (if_neg (by simp [hk])).trans ?_
  unfold State.timed
  generalize (s.beaconApplied c).slewCores c = u
  rfl

theorem timeBeacon_takes {c : Nat} {b : Beacon} {s : State} (h : s.nextBeacon c = some b) (hk : b.kind = .time) :
    ∃ t, exec (.timeBeacon c) s = .next t ∧ (t.cluster c).beaconAt = (s.cluster c).beaconAt + 1 ∧
      (t.cluster c).frames = max (s.cluster c).frames s.now ∧ (s.now < (s.cluster c).frames → (t.cluster c).stall = (s.cluster c).frames - s.now) ∧
      ((s.cluster c).frames = s.now → t.cq = s.cq) ∧
      ((s.cluster c).frames ≠ s.now → room s → ∃ e : CqEntry, e.kind = 8 ∧ e.cause = 0x10 ∧ e.src = BitVec.ofNat 16 c ∧ Told s t e) := by
  have hex := exec_timeBeacon h hk
  have hcl := cluster_timed s c
  obtain ⟨x, ex⟩ := slewCores_rest (s.beaconApplied c) c
  have hrest : ∃ y, s.timed c = { s with cores := x, clusters := y } := ⟨_, by rw [State.timed, ex]; rfl⟩
  obtain ⟨y, hrest⟩ := hrest
  revert hex hcl
  generalize s.timed c = u at *
  intro hex hcl
  have hnow : u.now = s.now := by rw [hrest]
  rw [hnow] at hex
  by_cases hf : (s.cluster c).frames = s.now
  · rw [if_pos hf] at hex
    refine ⟨u, hex, by rw [hcl], ?_, fun hlt => absurd hf (Nat.ne_of_gt hlt), fun _ => by rw [hrest], fun hne => absurd hf hne⟩
    rw [hcl]
    show (s.cluster c).frames = _
    rw [hf, max_self]
  · rw [if_neg hf] at hex
    have hvc : (u.clockSet c).cluster c = Cluster.setBy s.now { s.cluster c with beaconAt := (s.cluster c).beaconAt + 1 } := by
      rw [cluster_of_clusters (t := u.clockSet c) (s := u.modCluster c (Cluster.setBy u.now)) rfl, cluster_modCluster_same, hcl, hnow]
    have hv : ∃ z n, u.clockSet c = { s with cores := x, clusters := z, freeCtr := n } := ⟨_, _, by rw [hrest]; rfl⟩
    obtain ⟨z, n, hv⟩ := hv
    revert hex hvc hv
    generalize u.clockSet c = v
    intro hex hvc hv
    have hm := (messages_message v (kind := kindLink) (by decide) c 0x10 (Config.freeValue u.freeCtr).toNat).trans
      (messages_bboxEvent _ (fieldOfCluster c) 9 c (wrap 56 ((s.now : Int) - (s.cluster c).frames)))
    refine ⟨_, hex, ?_, ?_, fun hlt => ?_, fun he => absurd he hf, fun _ hr => ?_⟩
    · rw [hm.cluster, hvc]
      exact setBy_keeps _ _
    · rw [hm.cluster, hvc]
      exact frames_setBy _ _
    · rw [hm.cluster, hvc]
      exact stall_setBy hlt
    · have hroom : room v := by
        rw [hv]
        exact hr
      have ht := told_cqPost hroom { payload := BitVec.ofNat 64 ((Config.freeValue u.freeCtr).toNat % 2 ^ 48), tag := 0, src := BitVec.ofNat 16 c
                                     cause := BitVec.ofNat 8 0x10, kind := kindLink }
      refine ⟨{ payload := BitVec.ofNat 64 ((Config.freeValue u.freeCtr).toNat % 2 ^ 48), tag := 0, src := BitVec.ofNat 16 c
                cause := BitVec.ofNat 8 0x10, kind := kindLink }, rfl, rfl, rfl, ⟨?_, ?_, ?_⟩⟩
      · rw [show s.cqTail = v.cqTail by rw [hv]]
        exact ht.entry
      · exact ht.tail.trans (by rw [hv])
      · exact ht.irqs.trans (by rw [hv])

/-! ### Table updates -/

/-- The state once the core's slice has moved with it, where a copy held it. -/
def State.sliceMoved (s t : State) (core : Nat) (e : Word) : State :=
  match s.slHeld with
  | some (src, p) =>
    if src = core then
      { (if entryV e && entryPhys e == p && !s.slcopy.getLsbD 63 then t.copySlice (s.physOf core) p else t) with slHeld := none }
    else t
  | none => t

theorem sliceMoved_keeps (s t : State) (core : Nat) (e : Word) :
    (s.sliceMoved t core e).cores = t.cores ∧ (s.sliceMoved t core e).clusters = t.clusters := by
  unfold State.sliceMoved
  split
  · next p _ =>
    split
    · have h : (if entryV e && entryPhys e == p && !s.slcopy.getLsbD 63 then t.copySlice (s.physOf core) p else t).cores = t.cores ∧
          (if entryV e && entryPhys e == p && !s.slcopy.getLsbD 63 then t.copySlice (s.physOf core) p else t).clusters = t.clusters := by
        split <;> exact ⟨rfl, rfl⟩
      exact h
    · exact ⟨rfl, rfl⟩
  · exact ⟨rfl, rfl⟩

theorem takeEntry_eq (s t : State) (core : Nat) (e : Word) : s.takeEntry t core e =
    if !entryV e then s.sliceMoved t core e
    else if entryPhys e = s.physOf core ∧ entryV (s.tableAt (clusterOf core) core) then
      (s.sliceMoved t core e).setCore core { (s.sliceMoved t core e).core core with inReset := ((s.sliceMoved t core e).core core).inReset && entryRet e }
    else (s.sliceMoved t core e).setCore core
      { inReset := ((s.sliceMoved t core e).core core).inReset && entryRet e, held := ((s.sliceMoved t core e).core core).held
        drained := ((s.sliceMoved t core e).core core).drained, recQ := ((s.sliceMoved t core e).core core).recQ
        recHeadAt := ((s.sliceMoved t core e).core core).recHeadAt, gangs := [(handlerSlot, freshHandler core)] } := rfl

theorem clusters_takeEntry (s t : State) (core : Nat) (e : Word) : (s.takeEntry t core e).clusters = t.clusters := by
  obtain ⟨-, h⟩ := sliceMoved_keeps s t core e
  rw [takeEntry_eq]
  split
  · exact h
  · split <;> exact h

/-- What becomes of a core: as the update's entry is not valid, names the place where it is, or another. -/
theorem core_takeEntry (s t : State) (core : Nat) (e : Word) :
    (∀ q, q ≠ core → (s.takeEntry t core e).core q = t.core q) ∧
    (entryV e = false → (s.takeEntry t core e).core core = t.core core) ∧
    (entryV e = true → entryPhys e = s.physOf core ∧ entryV (s.tableAt (clusterOf core) core) = true →
      (s.takeEntry t core e).core core = { t.core core with inReset := (t.core core).inReset && entryRet e }) ∧
    (entryV e = true → ¬(entryPhys e = s.physOf core ∧ entryV (s.tableAt (clusterOf core) core) = true) → (s.takeEntry t core e).core core =
      { inReset := (t.core core).inReset && entryRet e, held := (t.core core).held, drained := (t.core core).drained, recQ := (t.core core).recQ
        recHeadAt := (t.core core).recHeadAt, gangs := [(handlerSlot, freshHandler core)] }) := by
  obtain ⟨h, -⟩ := sliceMoved_keeps s t core e
  have hc (q : Nat) : (s.sliceMoved t core e).core q = t.core q := core_of_cores h q
  rw [takeEntry_eq]
  refine ⟨fun q hq => ?_, fun hv => ?_, fun hv hs => ?_, fun hv hs => ?_⟩
  · split
    · exact hc q
    · split <;> exact (core_setCore_other _ _ hq).trans (hc q)
  · rw [if_pos (by rw [hv]; rfl)]
    exact hc core
  · rw [if_neg (by rw [hv]; decide), if_pos hs, core_setCore_same, hc]
  · rw [if_neg (by rw [hv]; decide), if_neg hs, core_setCore_same, hc]

/-- The state once a cluster has counted a beacon, and has changed by `f`. -/
theorem cluster_beaconApplied (s : State) (c : Nat) (f : Cluster → Cluster) :
    ((s.beaconApplied c).modCluster c f).cluster c = f { s.cluster c with beaconAt := (s.cluster c).beaconAt + 1 } ∧
      ∀ k, k ≠ c → ((s.beaconApplied c).modCluster c f).cluster k = s.cluster k := by
  refine ⟨?_, fun k hk => ?_⟩
  · rw [cluster_modCluster_same, State.beaconApplied, cluster_modCluster_same]
  · rw [cluster_modCluster_other _ _ hk, State.beaconApplied, cluster_modCluster_other _ _ hk]

theorem exec_tableUpdateBeacon {c core : Nat} {e : Word} {b : Beacon} {s : State} (h : s.nextBeacon c = some b) (hk : b.kind = .table core e)
    (hb : s.badEntries = []) (hs : s.softEntries = []) :
    exec (.tableUpdateBeacon c) s = .next (if clusterOf core = c then
      s.takeEntry ((s.beaconApplied c).modCluster c fun x => { x with epoch := x.epoch + 1 }) core e
      else (s.beaconApplied c).modCluster c fun x => { x with epoch := x.epoch + 1 }) := by
  show execTableUpdateBeacon c s = _
  unfold execTableUpdateBeacon
  rw [h]
  simp only [hk]
  have hb' : ((s.beaconApplied c).modCluster c fun x => { x with epoch := x.epoch + 1 }).badEntries = [] := hb
  have hs' : ((s.beaconApplied c).modCluster c fun x => { x with epoch := x.epoch + 1 }).softEntries = [] := hs
  rw [hb', hs']
  rfl

theorem tableUpdateBeacon_takes {c core : Nat} {e : Word} {b : Beacon} {s : State} (h : s.nextBeacon c = some b) (hk : b.kind = .table core e)
    (hb : s.badEntries = []) (hs : s.softEntries = []) :
    ∃ t, exec (.tableUpdateBeacon c) s = .next t ∧
      t.cluster c = { s.cluster c with beaconAt := (s.cluster c).beaconAt + 1, epoch := (s.cluster c).epoch + 1 } ∧
      (∀ k, k ≠ c → t.cluster k = s.cluster k) ∧ (∀ q, q ≠ core → t.core q = s.core q) ∧
      (clusterOf core ≠ c ∨ entryV e = false → t.core core = s.core core) ∧
      let same : Prop := entryPhys e = s.physOf core ∧ entryV (s.tableAt c core) = true
      let inReset := (s.core core).inReset && entryRet e
      (clusterOf core = c → entryV e = true → same → t.core core = { s.core core with inReset }) ∧
      (clusterOf core = c → entryV e = true → ¬same → t.core core =
        { inReset, held := (s.core core).held, drained := (s.core core).drained, recQ := (s.core core).recQ
          recHeadAt := (s.core core).recHeadAt, gangs := [(handlerSlot, freshHandler core)] }) := by
  have hex := exec_tableUpdateBeacon h hk hb hs
  obtain ⟨h1, h2⟩ := cluster_beaconApplied s c fun x => { x with epoch := x.epoch + 1 }
  by_cases hc : clusterOf core = c
  · rw [if_pos hc] at hex
    obtain ⟨h3, h4, h5, h6⟩ := core_takeEntry s ((s.beaconApplied c).modCluster c fun x => { x with epoch := x.epoch + 1 }) core e
    have hcl (k : Nat) := cluster_of_clusters (clusters_takeEntry s ((s.beaconApplied c).modCluster c fun x => { x with epoch := x.epoch + 1 }) core e) k
    rw [hc] at h5 h6
    exact ⟨_, hex, (hcl c).trans h1, fun k hk => (hcl k).trans (h2 k hk), h3, fun hno => h4 (hno.resolve_left fun hne => hne hc), fun _ => h5, fun _ => h6⟩
  · rw [if_neg hc] at hex
    exact ⟨_, hex, h1, h2, fun _ _ => rfl, fun _ => rfl, fun he => absurd he hc, fun he => absurd he hc⟩

/-! ### Group bindings -/

theorem exec_groupBindBeacon {c bus k g : Nat} {b : Beacon} {s : State} (h : s.nextBeacon c = some b) (hk : b.kind = .bind bus k g) :
    exec (.groupBindBeacon c) s = .next (if k = c ∧ s.groupOf bus k ≠ g then
      ((s.beaconApplied c).modCluster c fun x => { x with bindEpoch := x.bindEpoch + 1 }).rebind k bus (s.groupOf bus k) g
      else (s.beaconApplied c).modCluster c fun x => { x with bindEpoch := x.bindEpoch + 1 }) := by
  show execGroupBindBeacon c s = _
  unfold execGroupBindBeacon
  rw [h]
  simp only [hk]

theorem rebind_keeps (s : State) (k bus old new : Nat) : (s.rebind k bus old new).clusters = s.clusters ∧ (s.rebind k bus old new).binds = s.binds ∧
    (s.rebind k bus old new).deadGroups = s.deadGroups.filter (fun p => p.1 != bus) ∧
    ∃ m, (s.rebind k bus old new).endMarks = s.endMarks ++ [m] ∧ m.bus = bus ∧ m.writer = k ∧ m.group = old :=
  ⟨rfl, rfl, rfl, _, rfl, rfl, rfl, rfl⟩

theorem boundTo_take_succ {l : List (Nat × Nat)} {n bus k g : Nat} (h : l[n]? = some (bus * 192 + k, g)) : boundTo (l.take (n + 1)) bus k = g := by
  unfold boundTo
  rw [List.take_add_one, h]
  simp

theorem groupBindBeacon_takes {c bus k g : Nat} {b : Beacon} {s : State} (h : s.nextBeacon c = some b) (hk : b.kind = .bind bus k g) :
    ∃ t, exec (.groupBindBeacon c) s = .next t ∧
      t.cluster c = { s.cluster c with beaconAt := (s.cluster c).beaconAt + 1, bindEpoch := (s.cluster c).bindEpoch + 1 } ∧
      (∀ j, j ≠ c → t.cluster j = s.cluster j) ∧
      (s.binds[(s.cluster c).bindEpoch]? = some (bus * 192 + k, g) → t.bindAt c bus k = g) ∧
      (k ≠ c ∨ s.groupOf bus k = g → { t with clusters := s.clusters } = s) ∧
      (k = c → s.groupOf bus k ≠ g → (∀ d ∈ t.deadGroups, d.1 ≠ bus) ∧
        ∃ m, t.endMarks = s.endMarks ++ [m] ∧ m.bus = bus ∧ m.writer = k ∧ m.group = s.groupOf bus k) := by
  have hex := exec_groupBindBeacon h hk
  obtain ⟨h1, h2⟩ := cluster_beaconApplied s c fun x => { x with bindEpoch := x.bindEpoch + 1 }
  have hbound {t : State} (hb : t.binds = s.binds) (hc : (t.cluster c).bindEpoch = (s.cluster c).bindEpoch + 1)
      (hn : s.binds[(s.cluster c).bindEpoch]? = some (bus * 192 + k, g)) : t.bindAt c bus k = g := by
    unfold State.bindAt
    rw [hb, hc]
    exact boundTo_take_succ hn
  by_cases hc : k = c ∧ s.groupOf bus k ≠ g
  · rw [if_pos hc] at hex
    obtain ⟨h3, h4, h5, h6⟩ := rebind_keeps ((s.beaconApplied c).modCluster c fun x => { x with bindEpoch := x.bindEpoch + 1 }) k bus (s.groupOf bus k) g
    have hcl (j : Nat) := cluster_of_clusters h3 j
    refine ⟨_, hex, (hcl c).trans h1, fun j hj => (hcl j).trans (h2 j hj), hbound h4 (by rw [hcl, h1]), fun hno => ?_, fun _ _ => ⟨fun d hd => ?_, h6⟩⟩
    · exact absurd hc fun hx => hno.elim (fun hne => hne hx.1) hx.2
    · rw [h5] at hd
      simpa using (List.mem_filter.mp hd).2
  · rw [if_neg hc] at hex
    exact ⟨_, hex, h1, h2, hbound rfl (by rw [h1]), fun _ => rfl, fun he hne => absurd ⟨he, hne⟩ hc⟩

/-! ### Halts -/

theorem exec_haltBeacon {c src core : Nat} {b : Beacon} {s : State} (h : s.nextBeacon c = some b) (hk : b.kind = .halt true src core) :
    exec (.haltBeacon c) s = .next (if ((s.beaconApplied c).cluster c).halted then s.beaconApplied c
      else (s.beaconApplied c).modCluster c fun x => { x with halted := true, haltAt := s.now, haltCyc := s.cycles c }) := by
  show execHaltBeacon c s = _
  unfold execHaltBeacon
  rw [h]
  simp only [hk]

theorem haltBeacon_takes {c src core : Nat} {b : Beacon} {s : State} (h : s.nextBeacon c = some b) (hk : b.kind = .halt true src core) :
    ∃ t, exec (.haltBeacon c) s = .next t ∧ (t.cluster c).halted = true ∧ (t.cluster c).beaconAt = (s.cluster c).beaconAt + 1 ∧
      ((s.cluster c).halted = false → (t.cluster c).haltAt = s.now ∧ (t.cluster c).haltCyc = s.cycles c) ∧ { t with clusters := s.clusters } = s := by
  have hex := exec_haltBeacon h hk
  have h0 : (s.beaconApplied c).cluster c = { s.cluster c with beaconAt := (s.cluster c).beaconAt + 1 } := cluster_modCluster_same s c _
  rw [h0] at hex
  by_cases hh : (s.cluster c).halted = true
  · rw [if_pos hh] at hex
    refine ⟨_, hex, ?_, ?_, fun hno => absurd (hh.symm.trans hno) (by decide), rfl⟩ <;> rw [h0]
    exact hh
  · rw [if_neg hh] at hex
    obtain ⟨h1, -⟩ := cluster_beaconApplied s c fun x => { x with halted := true, haltAt := s.now, haltCyc := s.cycles c }
    refine ⟨_, hex, ?_, ?_, fun _ => ⟨?_, ?_⟩, rfl⟩ <;> rw [h1]

/-- The state in which a cluster runs on. -/
def State.thawed (s : State) (c : Nat) : State :=
  let x := s.cluster c
  let d := resumeAt x.haltAt s.now
  let n := resumeAt x.haltCyc (s.cycles c)
  let t := (s.beaconApplied c).modCluster c fun y => { y with halted := false }
  { t with
    cores := s.cores.map fun (p : Nat × CoreSt) => if clusterOf p.1 = c then (p.1, p.2.thaw d n) else p
    packets := s.packets.map fun (p : Packet) => if t.routerCluster p.at_ = c then { p with portAt := d p.portAt } else p
    blocks := s.blocks.map fun (p : Nat × Block) =>
      if clusterOf p.2.origin = c then (p.1, { p.2 with saveReq := p.2.saveReq.map fun q => (d q.1, q.2) }) else p }

theorem exec_resumeBeacon_running {c src core : Nat} {b : Beacon} {s : State} (h : s.nextBeacon c = some b) (hk : b.kind = .halt false src core)
    (hh : (s.cluster c).halted = false) : exec (.resumeBeacon c) s = .next (s.beaconApplied c) := by
  have h0 : ((s.beaconApplied c).cluster c).halted = false := by
    rw [State.beaconApplied, cluster_modCluster_same]
    exact hh
  show execResumeBeacon c s = _
  unfold execResumeBeacon
  rw [h]
  simp only [hk]
  exact if_pos (by rw [h0]; rfl)

theorem exec_resumeBeacon_halted {c src core : Nat} {b : Beacon} {s : State} (h : s.nextBeacon c = some b) (hk : b.kind = .halt false src core)
    (hh : (s.cluster c).halted = true) : ∃ t, exec (.resumeBeacon c) s = .next t ∧
      t.clusters = (s.thawed c).clusters ∧ t.cores = (s.thawed c).cores ∧ t.packets = (s.thawed c).packets := by
  have h0 : (s.beaconApplied c).cluster c = { s.cluster c with beaconAt := (s.cluster c).beaconAt + 1 } := cluster_modCluster_same s c _
  have e : exec (.resumeBeacon c) s = .next (if (fieldClusters (fieldOfCluster c)).head? = some c then
      (s.thawed c).thawField (fieldOfCluster c) (resumeAt (s.cluster c).haltAt s.now) else s.thawed c) := by
    show execResumeBeacon c s = _
    unfold execResumeBeacon
    rw [h]
    simp only [hk, h0]
    exact if_neg (by simp [hh])
  refine ⟨_, e, ?_⟩
  split <;> exact ⟨rfl, rfl, rfl⟩

/-- The routers stand for the same cores as long as the tables and their epochs do. -/
theorem routerCluster_congr {s t : State} (h1 : ∀ k, (t.cluster k).epoch = (s.cluster k).epoch) (h2 : t.upds = s.upds) (h3 : t.tbl = s.tbl) (p : Nat) :
    t.routerCluster p = s.routerCluster p := by
  have hat (k c : Nat) : t.tableAt k c = s.tableAt k c := by
    unfold State.tableAt
    rw [h1, h2, h3]
  have hst (p c : Nat) : t.stands p c = s.stands p c := by
    unfold State.stands State.physOf
    rw [hat]
  unfold State.routerCluster
  simp only [hst]

theorem core_thawed (s : State) (c q : Nat) : (s.thawed c).core q = if clusterOf q = c then
    (s.core q).thaw (resumeAt (s.cluster c).haltAt s.now) (resumeAt (s.cluster c).haltCyc (s.cycles c)) else s.core q := by
  have hf (p : Nat × CoreSt) : (if clusterOf p.1 = c then
      (p.1, p.2.thaw (resumeAt (s.cluster c).haltAt s.now) (resumeAt (s.cluster c).haltCyc (s.cycles c))) else p) =
      (p.1, if clusterOf p.1 = c then p.2.thaw (resumeAt (s.cluster c).haltAt s.now) (resumeAt (s.cluster c).haltCyc (s.cycles c)) else p.2) := by
    split <;> rfl
  unfold State.thawed State.core
  simp only [hf]
  refine get_map_key (d := ({} : CoreSt)) (fun k x => if clusterOf k = c then
      x.thaw (resumeAt (s.cluster c).haltAt s.now) (resumeAt (s.cluster c).haltCyc (s.cycles c)) else x) (fun k => ?_) s.cores q
  split <;> rfl

theorem gang_thaw (k : CoreSt) (d n : Nat → Nat) (g : Nat) : (k.thaw d n).gangs.get {} g = (k.gangs.get {} g).thaw d n :=
  SMap.get_map (d := ({} : Gang)) (fun x => x.thaw d n) rfl k.gangs g

theorem resumeBeacon_takes {c src core : Nat} {b : Beacon} {s : State} (h : s.nextBeacon c = some b) (hk : b.kind = .halt false src core) :
    ∃ t, exec (.resumeBeacon c) s = .next t ∧ (t.cluster c).halted = false ∧ (t.cluster c).beaconAt = (s.cluster c).beaconAt + 1 ∧
      ((s.cluster c).halted = true → ∀ q g, clusterOf q = c →
        t.gang q g = (s.gang q g).thaw (resumeAt (s.cluster c).haltAt s.now) (resumeAt (s.cluster c).haltCyc (s.cycles c))) ∧
      ((s.cluster c).halted = true → t.packets = s.packets.map fun p =>
        if s.routerCluster p.at_ = c then
          { p with portAt := if p.portAt < (s.cluster c).haltAt then p.portAt + (s.now - (s.cluster c).haltAt) else s.now } else p) ∧
      (∀ q, clusterOf q ≠ c ∨ (s.cluster c).halted = false → t.core q = s.core q) := by
  have h0 : (s.beaconApplied c).cluster c = { s.cluster c with beaconAt := (s.cluster c).beaconAt + 1 } := cluster_modCluster_same s c _
  by_cases hh : (s.cluster c).halted = true
  · obtain ⟨t, e, h1, h2, h3⟩ := exec_resumeBeacon_halted h hk hh
    obtain ⟨h4, h5⟩ := cluster_beaconApplied s c fun y => { y with halted := false }
    have hcl : t.cluster c = { s.cluster c with beaconAt := (s.cluster c).beaconAt + 1, halted := false } := (cluster_of_clusters h1 c).trans h4
    refine ⟨t, e, by rw [hcl], by rw [hcl], fun _ q g hq => ?_, fun _ => ?_, fun q hq => ?_⟩
    · unfold State.gang
      rw [core_of_cores h2, core_thawed, if_pos hq]
      exact gang_thaw _ _ _ g
    · rw [h3]
      refine List.map_congr_left fun p _ => ?_
      have hr : ((s.beaconApplied c).modCluster c fun y => { y with halted := false }).routerCluster p.at_ = s.routerCluster p.at_ := by
        refine routerCluster_congr (s := s) (t := (s.beaconApplied c).modCluster c fun y => { y with halted := false }) (fun k => ?_) rfl rfl _
        by_cases hkc : k = c
        · rw [hkc, h4]
        · rw [h5 k hkc]
      rw [← hr]
      rfl
    · rw [core_of_cores h2, core_thawed, if_neg]
      exact fun hqc => hq.elim (fun hne => hne hqc) fun hno => absurd (hh.symm.trans hno) (by decide)
  · have hh' := eq_false_of_ne_true hh
    refine ⟨_, exec_resumeBeacon_running h hk hh', ?_, ?_, fun ht => absurd ht hh, fun ht => absurd ht hh, fun q _ => rfl⟩ <;> rw [h0]
    exact hh'

theorem beacons_holds : beacons :=
  ⟨fun _ _ h => beaconClusterHandover_sends h, fun _ hon hk ht hno => timeBeaconSend_sends hon hk ht hno,
    fun _ _ _ h => ⟨timeBeacon_takes h, fun _ _ hk hb hs => tableUpdateBeacon_takes h hk hb hs, fun _ _ _ hk => groupBindBeacon_takes h hk,
      fun _ _ hk => haltBeacon_takes h hk, fun _ _ hk => resumeBeacon_takes h hk⟩⟩

/-! ### Accesses leave the accesses in flight as they are -/

theorem pends_of_hostPart {s t : State} (h : t.hostPart = s.hostPart) : t.pends = s.pends := (Prod.mk.inj (Prod.mk.inj h).2).2

@[simp] theorem hostPart_setL1 (s : State) (c la : Nat) (l : Line) : (s.setL1 c la l).hostPart = s.hostPart := rfl

@[simp] theorem hostPart_l1WriteBack (s : State) (c la : Nat) (keep : List Nat) : (s.l1WriteBack c la keep).hostPart = s.hostPart := by
  simp [State.l1WriteBack]

@[simp] theorem hostPart_l1WriteUnit (s : State) (c la : Nat) : (s.l1WriteUnit c la).hostPart = s.hostPart := by simp [State.l1WriteUnit]

@[simp] theorem hostPart_l1Evict (s : State) (c sb : Nat) : (s.l1Evict c sb).hostPart = s.hostPart := by simp [State.l1Evict]

@[simp] theorem hostPart_l1Room (s : State) (c sb : Nat) : (s.l1Room c sb).hostPart = s.hostPart := by
  unfold State.l1Room
  split
  · rfl
  · simp only []
    split
    · simp
    · rfl

@[simp] theorem hostPart_cohFill (s : State) (c sb : Nat) : (s.cohFill c sb).hostPart = s.hostPart := by simp [State.cohFill]

@[simp] theorem hostPart_l2Fetch (s : State) (k la : Nat) : (s.l2Fetch k la).hostPart = s.hostPart := by simp [State.l2Fetch]

@[simp] theorem hostPart_l1Fetch (s : State) (c la : Nat) : (s.l1Fetch c la).hostPart = s.hostPart := by simp [State.l1Fetch]

@[simp] theorem hostPart_memRead (s : State) (c : Nat) (t : Trans) (n : Nat) : (s.memRead c t n).1.hostPart = s.hostPart := by
  unfold State.memRead
  simp only []
  split
  · simp
  · simp
  · split <;> simp

@[simp] theorem hostPart_memWrite (s : State) (c : Nat) (t : Trans) (n v : Nat) : (s.memWrite c t n v).hostPart = s.hostPart := by
  unfold State.memWrite
  split <;> simp

@[simp] theorem hostPart_engineWrite (s : State) (c : Nat) (t : Trans) (n v : Nat) : (s.engineWrite c t n v).hostPart = s.hostPart := by
  unfold State.engineWrite
  simp only []
  split <;> simp

@[simp] theorem hostPart_recWrite (s : State) (c : Nat) (g : Gang) (va n v : Nat) : (s.recWrite c g va n v).hostPart = s.hostPart := by
  unfold State.recWrite
  split
  · split
    · rfl
    · split <;> simp
  · rfl

@[simp] theorem hostPart_keepWriter (s : State) (c : Nat) (g : Gang) (at_ : Nat) : (s.keepWriter c g at_).hostPart = s.hostPart := by
  unfold State.keepWriter
  split <;> rfl

@[simp] theorem hostPart_modGang (s : State) (c g : Nat) (f : Gang → Gang) : (s.modGang c g f).hostPart = s.hostPart := rfl

@[simp] theorem hostPart_raceCheck (s : State) (c slot j : Nat) (a : Access) : (s.raceCheck c slot j a).1.hostPart = s.hostPart := by
  unfold State.raceCheck
  simp only []
  split
  · rfl
  · split
    · rfl
    · simp

@[simp] theorem hostPart_raceReport (s : State) (c slot j : Nat) (a : Access) (shadow : Nat) (mis : Bool) :
    (s.raceReport c slot j a shadow mis).hostPart = s.hostPart := by simp [State.raceReport]

@[simp] theorem hostPart_raceLogged (s : State) (c slot j : Nat) (a : Access) : (s.raceLogged c slot j a).hostPart = s.hostPart := by
  unfold State.raceLogged
  simp only []
  split
  · rfl
  · split <;> simp

theorem pends_traceRecord (s : State) (c w : Nat) (b : BitVec 256) : (s.traceRecord c w b).pends = s.pends := by
  unfold State.traceRecord
  split <;> rfl

theorem pends_watchRecord (s : State) (c : Nat) (g : Gang) (j va n : Nat) : (s.watchRecord c g j va n).pends = s.pends := by
  unfold State.watchRecord
  simp only []
  split
  · exact pends_traceRecord _ _ _ _
  · rfl

theorem pends_sendHalt (s : State) (k : Nat) (on : Bool) (src core : Nat) : (s.sendHalt k on src core).pends = s.pends := by
  obtain ⟨a, b, c, d, e⟩ := noteHalt_rest (s.sendBeacon k (.halt on src core)) on src core
  unfold State.sendHalt
  rw [e]
  rfl

theorem pends_watch (s : State) (c slot j : Nat) (spad : Bool) (a : Access) (va oldWord : Nat) (new : Option Nat) :
    (s.watch c slot j spad a va oldWord new).1.pends = s.pends := by
  have hfold (l : List (Nat × Nat)) (t : State) (g : Gang) : (l.foldl (fun (t : State) p =>
      if p.2 = 1 then t.watchRecord c g j a.va p.1 else t.sendHalt (clusterOf c) true 2 c) t).pends = t.pends := by
    induction l generalizing t with
    | nil => rfl
    | cons p l ih =>
      refine (ih _).trans ?_
      show State.pends (if _ then _ else _) = _
      split
      · exact pends_watchRecord _ _ _ _ _ _
      · exact pends_sendHalt _ _ _ _ _
  unfold State.watch
  split
  · rfl
  · simp only []
    generalize (if a.noWatch then _ else _ : List (Nat × Nat)) = fired
    split
    · rfl
    · exact hfold fired s _

theorem pends_perform (s : State) (c slot j : Nat) (t : Trans) (a : Access) (served : Bool) : (s.perform c slot j t a served).1.pends = s.pends := by
  have hw (va w : Nat) (o : Option Nat) : (s.watch c slot j false a va w o).1.pends = s.pends := pends_watch _ _ _ _ _ _ _ _ _
  have hr (va w : Nat) (o : Option Nat) : ((s.watch c slot j false a va w o).1.raceLogged c slot j a).pends = s.pends :=
    (pends_of_hostPart (hostPart_raceLogged _ _ _ _ _)).trans (hw va w o)
  unfold State.perform
  simp only []
  split
  · rfl
  · split
    · rfl
    · refine iteInduction (motive := fun r : State × Except Nat Nat => r.1.pends = s.pends) (fun _ => hw _ _ _) fun _ => ?_
      split
      · exact (pends_of_hostPart (hostPart_memRead _ _ _ _)).trans (hr _ _ _)
      · exact (pends_of_hostPart (hostPart_memWrite _ _ _ _ _)).trans (hr _ _ _)
      · exact (pends_of_hostPart (hostPart_memWrite _ _ _ _ _)).trans (hr _ _ _)
      · exact (pends_of_hostPart (hostPart_memAtomic _ _ _ _ _)).trans (hr _ _ _)
      · exact (pends_of_hostPart (hostPart_memAtomic _ _ _ _ _)).trans (hr _ _ _)

/-! ### Superblocks -/

theorem cluster_setMoesi_same (s : State) (k sb : Nat) (x : Moesi) :
    (s.setMoesi k sb x).cluster k = { s.cluster k with moesi := (s.cluster k).moesi.put sb x } := by
  have hdrop : (if x = .i then s.dropCopies k sb fun _ => true else s).cluster k = s.cluster k := by
    split
    · exact cluster_of_clusters (clusters_dropCopies _ _ _ _) k
    · rfl
  unfold State.setMoesi
  simp only []
  rw [cluster_modCluster_same, hdrop]

theorem performWaiting_of_none {s : State} {msg : Nat} (h : ∀ p ∈ s.pends, p.msg ≠ some msg) : s.performWaiting msg = s := by
  unfold State.performWaiting
  rw [List.filter_eq_nil_iff.mpr fun p hp => by simpa using h p hp]
  rfl

/-- From `s` to `t` a requester has answered the snoops behind its own: its superblock has the state `x`. -/
structure Answered (c sb : Nat) (x : Moesi) (s t : State) : Prop where
  moesi : t.moesiOf c sb = x
  reqs : ∀ q ∈ t.sbReqs, ∃ r ∈ s.sbReqs, r.msg = q.msg
  dram : t.dram = s.dram
  pends : t.pends = s.pends

theorem answered_step (s : State) (c sb m : Nat) (k : Snoop) : Answered c sb ((s.moesiOf c sb).after k) s
    (if s.moesiOf c sb = .i then (if (s.moesiOf c sb).supplies then s.answerReq m (transmitter c) else s)
      else (if (s.moesiOf c sb).supplies then s.answerReq m (transmitter c) else s).setMoesi c sb ((s.moesiOf c sb).after k)) := by
  have h : Answered c sb (s.moesiOf c sb) s (if (s.moesiOf c sb).supplies then s.answerReq m (transmitter c) else s) := by
    split
    · refine ⟨rfl, fun q hq => ?_, rfl, rfl⟩
      obtain ⟨r, hr, rfl⟩ := List.mem_map.mp hq
      refine ⟨r, hr, ?_⟩
      split <;> rfl
    · exact ⟨rfl, fun q hq => ⟨q, hq, rfl⟩, rfl, rfl⟩
  revert h
  generalize (if (s.moesiOf c sb).supplies then s.answerReq m (transmitter c) else s) = u
  intro h
  split
  · next hi => exact ⟨by rw [h.moesi, hi, Moesi.after_i], h.reqs, h.dram, h.pends⟩
  · have hs := snoopOnly_setMoesi u c sb ((s.moesiOf c sb).after k)
    refine ⟨by rw [moesiOf_setMoesi, if_pos ⟨rfl, rfl⟩], ?_, ?_, ?_⟩ <;> rw [hs.rest]
    · exact h.reqs
    · exact h.dram
    · exact h.pends

theorem answered_answerBehind (c sb : Nat) (l : List (Snoop × Nat)) (s : State) :
    Answered c sb (l.foldl (fun x q => Moesi.after x q.1) (s.moesiOf c sb)) s (s.answerBehind c sb l) := by
  induction l generalizing s with
  | nil => exact ⟨rfl, fun q hq => ⟨q, hq, rfl⟩, rfl, rfl⟩
  | cons a l ih =>
    obtain ⟨k, m⟩ := a
    have h := answered_step s c sb m k
    unfold State.answerBehind
    simp only []
    revert h
    generalize (if s.moesiOf c sb = .i then (if (s.moesiOf c sb).supplies then s.answerReq m (transmitter c) else s)
      else (if (s.moesiOf c sb).supplies then s.answerReq m (transmitter c) else s).setMoesi c sb ((s.moesiOf c sb).after k)) = u
    intro h
    have h' := ih u
    rw [h.moesi] at h'
    refine ⟨h'.moesi, fun q hq => ?_, h'.dram.trans h.dram, h'.pends.trans h.pends⟩
    obtain ⟨r, hr, e⟩ := h'.reqs q hq
    obtain ⟨x, hx, e'⟩ := h.reqs r hr
    exact ⟨x, hx, e'.trans e⟩

/-- The state that a request ends in. -/
def SbReq.takes (r : SbReq) : Moesi := if r.kind = .rs then (if r.alone then .e else .s) else .m

theorem takeSuperblock_takes {s : State} {c sb : Nat} {r : SbReq} (hp : ∀ p ∈ s.pends, p.msg ≠ some r.msg)
    (hlen : ((s.setMoesi c sb r.takes).setTags c (sb % 2048)).dedup.length ≤ 16) :
    (s.takeSuperblock c sb r).moesiOf c sb = r.behind.foldl (fun x q => Moesi.after x q.1) r.takes ∧
      (∀ q ∈ (s.takeSuperblock c sb r).sbReqs, q.msg ≠ r.msg) ∧ (s.takeSuperblock c sb r).dram = s.dram ∧ (s.takeSuperblock c sb r).pends = s.pends := by
  obtain ⟨u, hu⟩ : ∃ u, u = { s.setMoesi c sb r.takes with sbReqs := s.sbReqs.filter fun q => !(q.msg == r.msg) } := ⟨_, rfl⟩
  have hs := snoopOnly_setMoesi s c sb r.takes
  have hud : u.dram = s.dram := by rw [hu, hs.rest]
  have hup : u.pends = s.pends := by rw [hu, hs.rest]
  have hum : u.moesiOf c sb = r.takes := by
    rw [hu]
    exact (moesiOf_setMoesi s c sb c sb r.takes).trans (if_pos ⟨rfl, rfl⟩)
  have hut : u.setTags c (sb % 2048) = (s.setMoesi c sb r.takes).setTags c (sb % 2048) := by
    rw [hu]
    rfl
  have e : s.takeSuperblock c sb r = u.answerBehind c sb r.behind := by
    have e1 : s.takeSuperblock c sb r = ((u.performWaiting r.msg).evictCoherent c sb).answerBehind c sb r.behind := by rw [hu]; rfl
    rw [e1, performWaiting_of_none (hup ▸ hp)]
    unfold State.evictCoherent
    rw [if_pos (hut ▸ hlen)]
  have h := answered_answerBehind c sb r.behind u
  rw [hum] at h
  rw [e]
  refine ⟨h.moesi, fun q hq => ?_, h.dram.trans hud, h.pends.trans hup⟩
  obtain ⟨x, hx, ex⟩ := h.reqs q hq
  rw [hu] at hx
  rw [← ex]
  simpa using (List.mem_filter.mp hx).2

/-! ### Superblocks and evictions -/

theorem exec_superblockResponse_sends {c sb q : Nat} {r : SbReq} {s : State}
    (h : s.sbReqs.find? (fun r => r.cluster == c && r.sb == sb && r.placed) = some r) (hroom : s.l2RoomOpen c sb = true) (hk : r.kind ≠ .up)
    (hs : r.sent = false) (hq : r.sup = some q) (hsup : s.supplied r = true) :
    exec (.superblockResponse c sb) s = .next { s.respond q (transmitter c) (.supply r.msg) with
      sbReqs := s.sbReqs.map fun (x : SbReq) => if x.msg = r.msg then { x with sent := true } else x } := by
  show execSuperblockResponse c sb s = _
  unfold execSuperblockResponse
  rw [h]
  refine (if_neg (by rw [hroom]; decide)).trans ((if_neg hk).trans ((if_pos (by rw [hs]; rfl)).trans ?_))
  rw [hq]
  exact if_pos hsup

theorem superblockResponse_sends {c sb q : Nat} {r : SbReq} {s : State}
    (h : s.sbReqs.find? (fun r => r.cluster == c && r.sb == sb && r.placed) = some r) (hroom : s.l2RoomOpen c sb = true) (hk : r.kind ≠ .up)
    (hs : r.sent = false) (hq : r.sup = some q) (hsup : s.supplied r = true) :
    ∃ t p, exec (.superblockResponse c sb) s = .next t ∧ t.packets = s.packets ++ [p] ∧ p.body = .supply r.msg ∧ p.ret = true ∧
      p.at_ = s.physOf q ∧ p.srcPhys = s.physOf (transmitter c) ∧ (∀ x ∈ t.sbReqs, x.msg = r.msg → x.sent = true) ∧
      { t with packets := s.packets, nextId := s.nextId, sbReqs := s.sbReqs } = s := by
  refine ⟨_, _, exec_superblockResponse_sends h hroom hk hs hq hsup, rfl, rfl, rfl, rfl, rfl, fun x hx hm => ?_, rfl⟩
  obtain ⟨y, -, rfl⟩ := List.mem_map.mp hx
  by_cases hy : y.msg = r.msg
  · rw [if_pos hy]
  · rw [if_neg hy] at hm
    exact absurd hm hy

theorem superblockResponse_takes {c sb : Nat} {r : SbReq} {s : State}
    (h : s.sbReqs.find? (fun r => r.cluster == c && r.sb == sb && r.placed) = some r) (hroom : s.l2RoomOpen c sb = true)
    (hk : r.kind = .up ∨ r.sent = true ∧ ∃ p, s.supplyPacket r.msg = some p ∧ p.arrived = true) (hp : ∀ p ∈ s.pends, p.msg ≠ some r.msg)
    (hlen : ((s.setMoesi c sb r.takes).setTags c (sb % 2048)).dedup.length ≤ 16) :
    ∃ t, exec (.superblockResponse c sb) s = .next t ∧ t.moesiOf c sb = r.behind.foldl (fun x q => Moesi.after x q.1) r.takes ∧
      (∀ q ∈ t.sbReqs, q.msg ≠ r.msg) ∧ t.dram = s.dram ∧ t.pends = s.pends := by
  by_cases hup : r.kind = .up
  · have e : exec (.superblockResponse c sb) s = .next (s.takeSuperblock c sb r) := by
      show execSuperblockResponse c sb s = _
      unfold execSuperblockResponse
      rw [h]
      exact (if_neg (by rw [hroom]; decide)).trans (if_pos hup)
    exact ⟨_, e, takeSuperblock_takes hp hlen⟩
  · obtain ⟨hs, p, hsp, ha⟩ := hk.resolve_left hup
    have e : exec (.superblockResponse c sb) s = .next ((s.dropPacket p.id).takeSuperblock c sb r) := by
      show execSuperblockResponse c sb s = _
      unfold execSuperblockResponse
      rw [h]
      refine (if_neg (by rw [hroom]; decide)).trans ((if_neg hup).trans ((if_neg (by rw [hs]; decide)).trans ?_))
      rw [hsp]
      exact if_pos ha
    have htags : ((s.dropPacket p.id).setMoesi c sb r.takes).setTags c (sb % 2048) = (s.setMoesi c sb r.takes).setTags c (sb % 2048) := by
      unfold State.setTags
      rw [cluster_setMoesi_same, cluster_setMoesi_same]
      rfl
    obtain ⟨h1, h2, h3, h4⟩ := takeSuperblock_takes (s := s.dropPacket p.id) hp (by rw [htags]; exact hlen)
    exact ⟨_, e, h1, h2, h3, h4⟩

theorem exec_evictionDataArrive {sb : Nat} {p : Packet} {s : State}
    (h : s.packets.find? (fun p => p.body == .evict sb && p.arrived && !p.ret) = some p) (h1 : s.standsFor p = true) (h2 : s.inTurn p = true)
    (h3 : s.homeHeld p.dst = false) :
    exec (.evictionDataArrive sb) s = .next { s with packets := s.packets.filter fun y => y.id != p.id, evicting := s.evicting.erase sb } := by
  show execEvictionDataArrive sb s = _
  unfold execEvictionDataArrive
  rw [h]
  exact if_pos (by rw [h1, h2, h3]; rfl)

/-! ### The home's answer -/

theorem exec_homeRequest {id : Nat} {p : Pend} {k : Packet} {s : State} (hp : s.pend? id = some p) (hk : s.accessPacket id = some k)
    (h1 : k.arrived = true) (h2 : k.ret = false) (h3 : s.inTurn k = true) (h4 : s.standsFor k = true) (h5 : s.homeHeld k.dst = false)
    (h6 : s.forwards (regionOfPhys k.dstPhys) = true) (h7 : s.canPerform p true = true) :
    exec (.homeRequest id) s = .next ((s.performPend p true).setPacket (k.back false s.now)) := by
  show execHomeRequest id s = _
  unfold execHomeRequest
  rw [hp, hk]
  exact if_pos ⟨h1, by rw [h2]; rfl, h3, h4, by rw [h5]; rfl, h6, h7⟩

theorem performPend_ok {p : Pend} {s u : State} {served : Bool} {v : Nat} (he : p.engine = false)
    (h : s.perform p.core p.slot p.lane p.trans p.access served = (u, .ok v)) :
    s.performPend p served = u.setPend { p with performed := true, value := BitVec.ofNat 64 v } := by
  unfold State.performPend
  rw [he, h] <;> rfl

theorem homeRequest_answers {id v : Nat} {p : Pend} {k : Packet} {u s : State} (hp : s.pend? id = some p) (hk : s.accessPacket id = some k)
    (h1 : k.arrived = true) (h2 : k.ret = false) (h3 : s.inTurn k = true) (h4 : s.standsFor k = true) (h5 : s.homeHeld k.dst = false)
    (h6 : s.forwards (regionOfPhys k.dstPhys) = true) (h7 : s.canPerform p true = true) (he : p.engine = false)
    (hu : s.perform p.core p.slot p.lane p.trans p.access true = (u, .ok v)) :
    ∃ t, exec (.homeRequest id) s = .next t ∧ t.pend? id = some { p with performed := true, value := BitVec.ofNat 64 v } ∧
      (t.packets = u.packets.map fun x => if x.id = k.id then
        { k with ret := true, nack := false, taken := false, inPort := 4, order := k.clsOrder, vc := if k.clsOrder = 1 then 1 else 0
                 fallback := false, since := s.now, portAt := s.now } else x) ∧ t.dram = u.dram := by
  have hpends : u.pends = s.pends := by
    have e := pends_perform s p.core p.slot p.lane p.trans p.access true
    rw [hu] at e
    exact e
  have hup : u.pend? id = some p := by
    unfold State.pend? at *
    rw [hpends]
    exact hp
  refine ⟨_, (exec_homeRequest hp hk h1 h2 h3 h4 h5 h6 h7).trans (congrArg (fun x : State => Host.Outcome.next (x.setPacket (k.back false s.now))) (performPend_ok he hu)),
    ?_, rfl, rfl⟩
  exact pend?_setPend hup (show p.id = id from id_of_pend? hp)

/-! ### Answers to accesses -/

/-- An access that is over asks for nothing and is performed no more. -/
theorem settled_pend {id : Nat} {p : Pend} {s : State} (h : s.pend? id = some p) (ho : p.performed = true ∨ p.failed.isSome = true) :
    (s.tryPerform id).askAnew id = s := by
  have hc : s.canPerform p = false := by
    unfold State.canPerform
    rcases ho with ho | ho
    · simp [ho]
    · simp [Option.isSome_iff_ne_none.mp ho]
  have hl : s.lacks p = false := by
    unfold State.lacks
    rcases ho with ho | ho
    · simp [ho]
    · simp [Option.isSome_iff_ne_none.mp ho]
  have e : s.tryPerform id = s := by
    unfold State.tryPerform
    rw [h]
    exact if_neg (by simp [hc])
  rw [e]
  unfold State.askAnew
  rw [h]
  exact if_neg (by rw [hl]; decide)

theorem exec_memoryResponse {id : Nat} {p : Pend} {s : State} (h : s.pend? id = some p) (ho : p.performed = true ∨ p.failed.isSome = true)
    (ha : s.answerIn id = true) (hr : p.kind.returns = true) : exec (.memoryResponse id) s = match p.failed with
      | some e => .next ((s.takeAnswer id).pendTrap p e)
      | none => .next (if p.performed then (s.takeAnswer id).deliverPend p else s) := by
  show execMemoryResponse id s = _
  unfold execMemoryResponse
  simp only [settled_pend h ho]
  rw [h]
  exact (if_neg (by simp [hr, ha])).trans rfl

theorem exec_writeAcknowledge {id : Nat} {p : Pend} {s : State} (h : s.pend? id = some p) (ho : p.performed = true ∨ p.failed.isSome = true)
    (ha : s.answerIn id = true) (hr : p.kind.returns = false) : exec (.writeAcknowledge id) s = match p.failed with
      | some e => .next ((s.takeAnswer id).pendTrap p e)
      | none => .next (if p.performed then (s.takeAnswer id).dropPend id else s) := by
  show execWriteAcknowledge id s = _
  unfold execWriteAcknowledge
  simp only [settled_pend h ho]
  rw [h]
  exact (if_neg (by simp [hr, ha])).trans rfl

/-- Taking up an answer drops its packet. -/
theorem takeAnswer_eq (s : State) (id : Nat) : s.takeAnswer id = { s with packets := withoutAnswer s id } := by
  unfold State.takeAnswer withoutAnswer
  cases s.accessPacket id <;> rfl

theorem pend?_dropPend {s : State} {id : Nat} : (s.dropPend id).pend? id = none :=
  List.find?_eq_none.mpr fun x hx => by simpa using (List.mem_filter.mp hx).2

theorem writeAcknowledge_ends {id : Nat} {p : Pend} {s : State} (h : s.pend? id = some p) (ha : s.answerIn id = true) (hp : p.performed = true)
    (hf : p.failed = none) (hr : p.kind.returns = false) : ∃ t, exec (.writeAcknowledge id) s = .next t ∧ t.pend? id = none ∧
      t.packets = withoutAnswer s id ∧ { t with pends := s.pends, packets := s.packets } = s := by
  have e := exec_writeAcknowledge h (.inl hp) ha hr
  rw [hf] at e
  refine ⟨_, e.trans (congrArg _ (if_pos hp)), pend?_dropPend, ?_, ?_⟩ <;> rw [takeAnswer_eq] <;> rfl

theorem tyBits_le (ty : BitVec 4) : tyBits ty ≤ 64 := by
  unfold tyBits
  split <;> decide

theorem loadExt_eq (ty : BitVec 4) (v : Nat) : loadExt ty v = loaded ty v := by
  have hw : max 32 (tyBits ty) ≤ 64 := max_le (by decide) (tyBits_le ty)
  unfold loadExt loaded
  simp only []
  generalize toInt (tyIsI ty && decide (tyBits ty < 32)) (tyBits ty) v = x
  generalize max 32 (tyBits ty) = k at *
  have hdvd : ((2 ^ k : Nat) : Int) ∣ ((2 ^ 64 : Nat) : Int) := Int.natCast_dvd_natCast.mpr (Nat.pow_dvd_pow 2 hw)
  rw [BitVec.toNat_ofInt]
  have h1 : 0 ≤ x % ((2 ^ 64 : Nat) : Int) := Int.emod_nonneg _ (by decide)
  have h2 : 0 ≤ x % ((2 ^ k : Nat) : Int) := Int.emod_nonneg _ (by exact_mod_cast (Nat.two_pow_pos k).ne')
  apply Int.ofNat_inj.mp
  rw [Int.natCast_mod, Int.toNat_of_nonneg h1, Int.toNat_of_nonneg h2, Int.emod_emod_of_dvd x hdvd]

/-- The latch of the lane takes the value, where it is still the gang's. -/
def State.latched (s : State) (p : Pend) : State :=
  if ((s.core p.core).latches.get {} (latchIdx p.slot)).owner.get none p.lat == some p.slot then
    s.modCore p.core fun k =>
      { k with latches := k.latches.put (latchIdx p.slot) { k.latches.get {} (latchIdx p.slot) with
          vec := (k.latches.get {} (latchIdx p.slot)).vec.put (64 * p.lat + p.lane) (BitVec.ofNat 64 (loadExt p.ty p.value.toNat)) } }
  else s

theorem latched_keeps (s : State) (p : Pend) : (s.latched p).pends = s.pends ∧ (s.latched p).packets = s.packets ∧ (s.latched p).dram = s.dram ∧
    ∀ c g, (s.latched p).gang c g = s.gang c g := by
  unfold State.latched
  split
  · refine ⟨rfl, rfl, rfl, fun c g => ?_⟩
    unfold State.gang
    by_cases h : c = p.core
    · rw [h, core_modCore_same]
    · rw [core_modCore_other _ _ h]
  · exact ⟨rfl, rfl, rfl, fun _ _ => rfl⟩

/-- The registers that a value of `v` writes. -/
def valueRegs (p : Pend) (r v : Nat) : List (Nat × Nat × Nat) :=
  if tyBits p.ty = 64 then [(r, p.lane, v % 2 ^ 32), (r + 1, p.lane, v / 2 ^ 32)] else [(r, p.lane, v % 2 ^ 32)]

theorem deliverPend_eq {s : State} {p : Pend} {r : Nat} (hs : p.slot ≠ 16) (hd : p.dst = some r) : s.deliverPend p =
    ((s.dropPend p.id).latched p).modGang p.core p.slot fun g => g.setV (valueRegs p r (loadExt p.ty p.value.toNat)) := by
  unfold State.deliverPend
  refine (if_neg hs).trans ?_
  rw [hd] <;> rfl

theorem vreg_setV_values (g : Gang) (p : Pend) (r v : Nat) : (g.setV (valueRegs p r v)).vreg r p.lane = BitVec.ofNat 32 v ∧
    (tyBits p.ty = 64 → (g.setV (valueRegs p r v)).vreg (r + 1) p.lane = BitVec.ofNat 32 (v / 2 ^ 32)) := by
  have hlow : BitVec.ofNat 32 (v % 2 ^ 32) = BitVec.ofNat 32 v := by
    apply BitVec.eq_of_toNat_eq
    simp
  unfold valueRegs Gang.setV Gang.vreg
  by_cases h : tyBits p.ty = 64
  · rw [if_pos h]
    refine ⟨?_, fun _ => SMap.get_put_same ..⟩
    refine (SMap.get_put_other _ _ _ (show 64 * r + p.lane ≠ 64 * (r + 1) + p.lane by omega)).trans ?_
    rw [← hlow]
    exact SMap.get_put_same ..
  · rw [if_neg h]
    refine ⟨?_, fun h' => absurd h' h⟩
    rw [← hlow]
    exact SMap.get_put_same ..

theorem memoryResponse_delivers {id r : Nat} {p : Pend} {s : State} (h : s.pend? id = some p) (ha : s.answerIn id = true) (hp : p.performed = true)
    (hf : p.failed = none) (hs : p.slot ≠ 16) (hr : p.kind.returns = true) (hd : p.dst = some r) :
    ∃ t, exec (.memoryResponse id) s = .next t ∧ t.pend? id = none ∧
      (t.gang p.core p.slot).vreg r p.lane = BitVec.ofNat 32 (loaded p.ty p.value.toNat) ∧
      (tyBits p.ty = 64 → (t.gang p.core p.slot).vreg (r + 1) p.lane = BitVec.ofNat 32 (loaded p.ty p.value.toNat / 2 ^ 32)) ∧
      t.packets = withoutAnswer s id ∧ t.dram = s.dram ∧ ∀ c g, c ≠ p.core ∨ g ≠ p.slot → t.gang c g = s.gang c g := by
  have e := exec_memoryResponse h (.inl hp) ha hr
  rw [hf] at e
  have e' := e.trans (congrArg Host.Outcome.next ((if_pos hp).trans (deliverPend_eq hs hd)))
  obtain ⟨h1, h2, h3, h4⟩ := latched_keeps ((s.takeAnswer id).dropPend p.id) p
  have h5 := vreg_setV_values (((((s.takeAnswer id).dropPend p.id).latched p)).gang p.core p.slot) p r (loadExt p.ty p.value.toNat)
  rw [← loadExt_eq]
  refine ⟨_, e', ?_, ?_, fun hw => ?_, h2.trans ?_, h3.trans ?_, fun c g hcg => ?_⟩
  · obtain rfl := id_of_pend? h
    unfold State.pend?
    show List.find? _ (((s.takeAnswer p.id).dropPend p.id).latched p).pends = none
    rw [h1]
    exact pend?_dropPend
  · rw [gang_modGang_same]
    exact h5.1
  · rw [gang_modGang_same]
    exact h5.2 hw
  · rw [takeAnswer_eq]
    rfl
  · rw [takeAnswer_eq]
    rfl
  · rw [gang_modGang_other _ _ hcg, h4, takeAnswer_eq]
    rfl

/-! ### Traps of failed accesses -/

/-- The trap of an access that failed with `cause`. -/
def State.pendRec (s : State) (p : Pend) (cause : Nat) : TrapRec :=
  { slot := p.slot, causes := [(cause, laneBit p.lane)], inner := if cause = cMachineCheck then p.errSrc else 0, va := BitVec.ofNat 64 p.va
    raised := s.timeAt (clusterOf p.core)
    entry := { p.instr with cause := BitVec.ofNat 8 cause, mask := laneBit p.lane, group := 0 } }

theorem pendTrap_eq {s : State} {p : Pend} (h : p.slot < 15) (cause : Nat) :
    s.pendTrap p cause = (s.dropPend p.id).takeTrap p.core ((s.dropPend p.id).pendRec p cause) := by
  unfold State.pendTrap
  exact if_neg (by omega)

theorem trapWork_append {t : TrapRec} {l : List HWork} (h : ∀ x, HWork.trap x ∈ l → x.slot ≠ t.slot) : trapWork t l = l ++ [.trap t] := by
  unfold trapWork
  refine if_neg fun hany => ?_
  obtain ⟨w, hw, hq⟩ := List.any_eq_true.mp hany
  cases w with
  | trap u => exact h u hw (by simpa using (Bool.and_eq_true_iff.mp (Bool.and_eq_true_iff.mp hq).1).1)
  | doorbell => exact Bool.false_ne_true hq

theorem work_endHold (s : State) (c g : Nat) : ((s.endHold c g).core c).work = (s.core c).work := by
  unfold State.endHold
  rw [core_modCore_same]
  split
  · split <;> rfl
  · rfl

theorem work_modGang (s : State) (c g : Nat) (f : Gang → Gang) : ((s.modGang c g f).core c).work = (s.core c).work := by
  unfold State.modGang State.setGang
  rw [core_modCore_same]

theorem work_takeTrap {s : State} {c : Nat} {t : TrapRec} (h : t.slot ≠ handlerSlot) :
    ((s.takeTrap c t).core c).work = trapWork (s.withLats c t) (s.core c).work := by
  rw [takeTrap_eq h, work_modGang, (messages_trapShown _ _ _).core]
  unfold State.trapQueued
  rw [core_modCore_same]
  exact congrArg (trapWork _) (work_endHold s c t.slot)

theorem pends_takeTrap (s : State) (c : Nat) (t : TrapRec) : (s.takeTrap c t).pends = s.pends := by
  rw [(coresAndHost_takeTrap s c t).rest]

theorem pendTrap_traps {s : State} {p : Pend} {e : Nat} (h : p.slot < 15) (hw : ∀ x, HWork.trap x ∈ (s.core p.core).work → x.slot ≠ p.slot) :
    ∃ u : TrapRec, (s.pendTrap p e).pend? p.id = none ∧ ((s.pendTrap p e).core p.core).work = (s.core p.core).work ++ [.trap u] ∧ u.slot = p.slot ∧
      u.causes = [(e, laneBit p.lane)] ∧ u.va = BitVec.ofNat 64 p.va ∧ u.entry.mask = laneBit p.lane ∧
      ((s.pendTrap p e).gang p.core p.slot).trapped = true := by
  rw [pendTrap_eq h]
  obtain ⟨t, ht⟩ : ∃ t, t = (s.dropPend p.id).pendRec p e := ⟨_, rfl⟩
  have hslot : t.slot = p.slot := by rw [ht]; rfl
  have hns : t.slot ≠ handlerSlot := by rw [hslot]; exact Nat.ne_of_lt h
  refine ⟨(s.dropPend p.id).withLats p.core t, ?_, ?_, ?_, ?_, ?_, ?_, ?_⟩
  · unfold State.pend?
    rw [pends_takeTrap]
    exact pend?_dropPend
  · rw [← ht, work_takeTrap hns]
    exact trapWork_append fun x hx => by
      rw [show ((s.dropPend p.id).withLats p.core t).slot = p.slot from hslot]
      exact hw x hx
  · exact hslot
  · rw [ht]; rfl
  · rw [ht]; rfl
  · rw [ht]; rfl
  · rw [← ht, ← hslot, gang_takeTrap hns]
    rfl

theorem core_takeAnswer (s : State) (id c : Nat) : (s.takeAnswer id).core c = s.core c := by
  rw [takeAnswer_eq]
  rfl

theorem memoryResponse_traps {id e : Nat} {p : Pend} {s : State} (h : s.pend? id = some p) (ha : s.answerIn id = true) (hf : p.failed = some e)
    (hr : p.kind.returns = true) : exec (.memoryResponse id) s = .next ((s.takeAnswer id).pendTrap p e) := by
  have h1 := exec_memoryResponse h (.inr (by rw [hf]; rfl)) ha hr
  rw [hf] at h1
  exact h1

theorem writeAcknowledge_traps {id e : Nat} {p : Pend} {s : State} (h : s.pend? id = some p) (ha : s.answerIn id = true) (hf : p.failed = some e)
    (hr : p.kind.returns = false) : exec (.writeAcknowledge id) s = .next ((s.takeAnswer id).pendTrap p e) := by
  have h1 := exec_writeAcknowledge h (.inr (by rw [hf]; rfl)) ha hr
  rw [hf] at h1
  exact h1

/-- What stands in the handler's work once a failed access has trapped. -/
theorem failed_traps {i : Instr} {id e : Nat} {p : Pend} {s : State} (h : s.pend? id = some p) (hs : p.slot < 15)
    (hw : ∀ x, HWork.trap x ∈ (s.core p.core).work → x.slot ≠ p.slot) (hi : exec i s = .next ((s.takeAnswer id).pendTrap p e)) :
    ∃ t u, exec i s = .next t ∧ t.pend? id = none ∧ (t.core p.core).work = (s.core p.core).work ++ [.trap u] ∧
      u.slot = p.slot ∧ u.causes = [(e, laneBit p.lane)] ∧ u.va = BitVec.ofNat 64 p.va ∧ u.entry.mask = laneBit p.lane ∧
      (t.gang p.core p.slot).trapped = true := by
  obtain ⟨u, h1, h2, h3⟩ := pendTrap_traps (s := s.takeAnswer id) (e := e) hs (by rw [core_takeAnswer]; exact hw)
  rw [core_takeAnswer] at h2
  rw [show p.id = id from id_of_pend? h] at h1
  exact ⟨_, u, hi, h1, h2, h3⟩

/-! ### Walks of the page tables -/

theorem cachesOnly_readWalk (s : State) (c : Nat) (asn : Half) (root va : Nat) : CachesOnly (clusterOf c) s (s.readWalk c asn root va) := by
  refine cachesOnly_foldl (fun s sb => ?_) _ s
  split
  · exact (cachesOnly_readEntry _ s _ _).trans (cachesOnly_share _ _ sb)
  · exact .refl _ s

/-- A walk that reads only what its cluster holds changes nothing. -/
theorem readWalk_held {s : State} {c : Nat} {asn : Half} {root va : Nat} (h : ∀ sb ∈ s.walkReads c asn root va, s.moesiOf (clusterOf c) sb ≠ .i) :
    s.readWalk c asn root va = s := by
  unfold State.readWalk
  revert h
  generalize s.walkReads c asn root va = l
  intro h
  induction l with
  | nil => rfl
  | cons sb l ih =>
    rw [List.foldl_cons, if_neg (h sb List.mem_cons_self)]
    exact ih fun x hx => h x (List.mem_cons_of_mem _ hx)

/-- A walk's entries come to the TLBs of the cores that wait for it. -/
def State.coresTlb (s : State) (n : Nat) (e : TlbEntry) (l : List Nat) : State :=
  l.foldl (fun (s : State) q => s.modCore q fun k => { k with tlb := tlbInsert 64 8 n e k.tlb }) s

theorem mem_tlbInsert (sets ways n : Nat) (e : TlbEntry) (l : List TlbEntry) : e ∈ tlbInsert sets ways n e l := List.mem_cons_self

theorem coresTlb_rest (s : State) (n : Nat) (e : TlbEntry) (l : List Nat) : ∃ x, s.coresTlb n e l = { s with cores := x } := by
  induction l generalizing s with
  | nil => exact ⟨_, rfl⟩
  | cons a l ih =>
    obtain ⟨x, hx⟩ := ih (s.modCore a fun k => { k with tlb := tlbInsert 64 8 n e k.tlb })
    exact ⟨x, hx⟩

theorem core_coresTlb_other {k : Nat} {l : List Nat} (h : k ∉ l) (s : State) (n : Nat) (e : TlbEntry) : (s.coresTlb n e l).core k = s.core k := by
  induction l generalizing s with
  | nil => rfl
  | cons a l ih =>
    rw [List.mem_cons, not_or] at h
    exact (ih h.2 _).trans (core_modCore_other _ _ h.1)

theorem mem_tlb_coresTlb {k : Nat} {l : List Nat} (n : Nat) (e : TlbEntry) {s : State} (h : k ∈ l ∨ e ∈ (s.core k).tlb) :
    e ∈ ((s.coresTlb n e l).core k).tlb := by
  induction l generalizing s with
  | nil => exact h.resolve_left (nomatch ·)
  | cons a l ih =>
    refine ih (s := s.modCore a fun k => { k with tlb := tlbInsert 64 8 n e k.tlb }) ?_
    by_cases hk : k = a
    · rw [hk, core_modCore_same]
      exact .inr (mem_tlbInsert ..)
    · rw [core_modCore_other _ _ hk]
      exact h.imp_left fun h => (List.mem_cons.mp h).resolve_left hk

/-- The state once cluster `c`'s walk has read its entries. -/
def State.walkRead (s : State) (c q : Nat) (w : WalkReq) (rest : List WalkReq) : State :=
  (s.readWalk q w.asn w.root w.va).modCluster c fun x => { x with walks := rest }

/-- The walk's entry in the cluster's TLB. -/
def State.walkKept (s : State) (c : Nat) (n : Nat) (e : TlbEntry) : State :=
  s.modCluster c fun x => { x with tlb := tlbInsert 512 16 n e x.tlb, evicts := n + 1 }

theorem dram_walkKept (s : State) (c n : Nat) (e : TlbEntry) : (s.walkKept c n e).dram = s.dram := rfl

theorem core_walkKept (s : State) (c n : Nat) (e : TlbEntry) (k : Nat) : (s.walkKept c n e).core k = s.core k := rfl

section
variable {c q : Nat} {w : WalkReq} {rest : List WalkReq} {s : State}

theorem exec_pageWalk_waits (hw : (s.cluster c).walks = w :: rest) (hq : q = w.cores.headD ((clusterCores c).headD 0))
    (h : ∃ sb ∈ s.walkReads q w.asn w.root w.va, s.cohOpen q (256 * sb) false = false) : exec (.pageWalk c) s = .next s := by
  subst hq
  obtain ⟨sb, hsb, ho⟩ := h
  have hall : (s.walkReads (w.cores.headD ((clusterCores c).headD 0)) w.asn w.root w.va).all
      (fun sb => s.cohOpen (w.cores.headD ((clusterCores c).headD 0)) (256 * sb) false) = false :=
    List.all_eq_false.mpr ⟨sb, hsb, by rw [ho]; decide⟩
  show execPageWalk c s = _
  unfold execPageWalk
  rw [hw]
  exact if_pos (by rw [hall]; rfl)

theorem exec_pageWalk_open (hw : (s.cluster c).walks = w :: rest) (hq : q = w.cores.headD ((clusterCores c).headD 0))
    (h : ∀ sb ∈ s.walkReads q w.asn w.root w.va, s.cohOpen q (256 * sb) false = true) : exec (.pageWalk c) s =
      match s.walk q w.asn w.root w.va with
      | .error _ => .next (s.walkRead c q w rest)
      | .ok e => .next (((s.walkRead c q w rest).walkKept c (s.cluster c).evicts e).coresTlb (s.cluster c).evicts e w.cores) := by
  subst hq
  have hall := List.all_eq_true.mpr h
  show execPageWalk c s = _
  unfold execPageWalk
  rw [hw]
  exact (if_neg (by rw [hall]; decide)).trans rfl

theorem cluster_walkRead (s : State) (c q : Nat) (w : WalkReq) (rest : List WalkReq) :
    ((s.walkRead c q w rest).cluster c).walks = rest ∧ ∀ k, ((s.walkRead c q w rest).cluster k).tlb = (s.cluster k).tlb := by
  unfold State.walkRead
  rw [cluster_modCluster_same]
  refine ⟨rfl, fun k => ?_⟩
  have e := congrArg Cluster.tlb ((cachesOnly_readWalk s q w.asn w.root w.va).cluster k)
  by_cases hk : k = c
  · subst hk
    rw [cluster_modCluster_same]
    exact e
  · rw [cluster_modCluster_other _ _ hk]
    exact e

theorem tlb_walkRead (s : State) (c q : Nat) (w : WalkReq) (rest : List WalkReq) (k : Nat) : ((s.walkRead c q w rest).core k).tlb = (s.core k).tlb := by
  have e := congrArg CoreSt.tlb ((cachesOnly_readWalk s q w.asn w.root w.va).core k)
  exact e

theorem dram_walkRead (h : ∀ sb ∈ s.walkReads q w.asn w.root w.va, s.moesiOf (clusterOf q) sb ≠ .i) : (s.walkRead c q w rest).dram = s.dram := by
  unfold State.walkRead
  rw [readWalk_held h]
  rfl

theorem core_walkRead (h : ∀ sb ∈ s.walkReads q w.asn w.root w.va, s.moesiOf (clusterOf q) sb ≠ .i) (k : Nat) :
    (s.walkRead c q w rest).core k = s.core k := by
  unfold State.walkRead
  rw [readWalk_held h]
  rfl

theorem pageWalk_keeps {e : TlbEntry} (hw : (s.cluster c).walks = w :: rest) (hq : q = w.cores.headD ((clusterCores c).headD 0))
    (h : ∀ sb ∈ s.walkReads q w.asn w.root w.va, s.cohOpen q (256 * sb) false = true) (he : s.walk q w.asn w.root w.va = .ok e) :
    ∃ t, exec (.pageWalk c) s = .next t ∧ (t.cluster c).walks = rest ∧ e ∈ (t.cluster c).tlb ∧ (∀ k ∈ w.cores, e ∈ (t.core k).tlb) ∧
      (∀ k, k ∉ w.cores → (t.core k).tlb = (s.core k).tlb) ∧
      ((∀ sb ∈ s.walkReads q w.asn w.root w.va, s.moesiOf (clusterOf q) sb ≠ .i) → t.dram = s.dram ∧ ∀ k, k ∉ w.cores → t.core k = s.core k) := by
  have e1 := exec_pageWalk_open hw hq h
  rw [he] at e1
  obtain ⟨x, hx⟩ := coresTlb_rest ((s.walkRead c q w rest).walkKept c (s.cluster c).evicts e) (s.cluster c).evicts e w.cores
  have hcl : ∀ k, (((s.walkRead c q w rest).walkKept c (s.cluster c).evicts e).coresTlb (s.cluster c).evicts e w.cores).cluster k =
      ((s.walkRead c q w rest).walkKept c (s.cluster c).evicts e).cluster k := fun k => cluster_of_clusters (by rw [hx]) k
  have hcore {k : Nat} (hk : k ∉ w.cores) := core_coresTlb_other hk ((s.walkRead c q w rest).walkKept c (s.cluster c).evicts e) (s.cluster c).evicts e
  refine ⟨_, e1, ?_, ?_, fun k hk => mem_tlb_coresTlb _ _ (.inl hk), fun k hk => ?_, fun hheld => ⟨?_, fun k hk => ?_⟩⟩
  · rw [hcl]
    unfold State.walkKept
    rw [cluster_modCluster_same]
    exact (cluster_walkRead s c q w rest).1
  · rw [hcl]
    unfold State.walkKept
    rw [cluster_modCluster_same]
    exact mem_tlbInsert ..
  · rw [hcore hk]
    exact (congrArg CoreSt.tlb (core_walkKept (s.walkRead c q w rest) c (s.cluster c).evicts e k)).trans (tlb_walkRead s c q w rest k)
  · exact (congrArg State.dram hx).trans ((dram_walkKept (s.walkRead c q w rest) c (s.cluster c).evicts e).trans (dram_walkRead (rest := rest) hheld))
  · rw [hcore hk]
    exact (core_walkKept (s.walkRead c q w rest) c (s.cluster c).evicts e k).trans (core_walkRead (rest := rest) hheld k)

theorem pageWalk_fails {e : Nat} (hw : (s.cluster c).walks = w :: rest) (hq : q = w.cores.headD ((clusterCores c).headD 0))
    (h : ∀ sb ∈ s.walkReads q w.asn w.root w.va, s.cohOpen q (256 * sb) false = true) (he : s.walk q w.asn w.root w.va = .error e) :
    ∃ t, exec (.pageWalk c) s = .next t ∧ (t.cluster c).walks = rest ∧
      (∀ k, (t.cluster k).tlb = (s.cluster k).tlb ∧ (t.core k).tlb = (s.core k).tlb) ∧
      ((∀ sb ∈ s.walkReads q w.asn w.root w.va, s.moesiOf (clusterOf q) sb ≠ .i) → ClusterBecomes s t c { s.cluster c with walks := rest }) := by
  have e1 := exec_pageWalk_open hw hq h
  rw [he] at e1
  obtain ⟨h1, h2⟩ := cluster_walkRead s c q w rest
  refine ⟨_, e1, h1, fun k => ⟨h2 k, tlb_walkRead s c q w rest k⟩, fun hheld => ?_⟩
  unfold State.walkRead
  rw [readWalk_held hheld]
  exact ⟨cluster_modCluster_same s c _, fun _ hk => cluster_modCluster_other _ _ hk, rfl⟩

end

theorem memorySystem_holds : memorySystem := by
  refine ⟨fun c sb r s h hroom => ⟨fun q hk hs hq hsup => superblockResponse_sends h hroom hk hs hq hsup,
    fun hk hp hlen => superblockResponse_takes h hroom hk hp hlen⟩, fun sb p s h h1 h2 h3 => exec_evictionDataArrive h h1 h2 h3,
    fun id v p k u s hp hk h1 h2 h3 h4 h5 h6 h7 he hu => homeRequest_answers hp hk h1 h2 h3 h4 h5 h6 h7 he hu,
    fun id p s h ha hp hf hs => ⟨fun r hr hd => memoryResponse_delivers h ha hp hf hs hr hd, fun hr => writeAcknowledge_ends h ha hp hf hr⟩,
    fun id e p s h ha hf hs hw => ⟨fun hr => failed_traps h hs hw (memoryResponse_traps h ha hf hr),
      fun hr => failed_traps h hs hw (writeAcknowledge_traps h ha hf hr)⟩,
    fun c w rest s hw => ⟨fun h => exec_pageWalk_waits hw rfl h, fun h => ⟨fun e he => pageWalk_keeps hw rfl h he, fun e he => pageWalk_fails hw rfl h he⟩⟩⟩

/-- Settles O52, part by part: the packets of the mesh, the routers' tables, the photonic buses, the beacons and the memory system. -/
theorem interconnectEvents : Obligations.InterconnectEvents :=
  ⟨meshPackets_holds, routerTables_holds, busMessages_holds, beacons_holds, memorySystem_holds⟩

end Sys2Proof.Machine

end

section
/-! CLAIM. The reset state. -/

namespace Sys2Proof.Machine

open Sys2Proof.Claims

/-- Settles O56: every table of the reset state is empty, so that each element reads as its type's default. -/
theorem resetValues : Obligations.ResetValues := by
  unfold Obligations.ResetValues
  refine ⟨rfl, rfl, rfl, rfl, rfl, rfl, rfl, rfl, rfl, rfl, fun _ => rfl, fun _ => rfl, fun _ _ => ?_, fun _ _ => ?_, fun _ _ => ⟨rfl, rfl⟩,
    fun _ _ => ⟨rfl, fun _ => rfl⟩, fun _ => ⟨rfl, fun _ => rfl⟩, rfl, fun _ => rfl, rfl⟩
  · exact ⟨rfl, rfl, rfl, rfl, rfl, rfl, rfl, rfl, rfl, rfl⟩
  · exact ⟨rfl, rfl, rfl, rfl, rfl, rfl, rfl, fun _ _ => rfl⟩

end Sys2Proof.Machine

end

section
/-! SUPPORT. What an access to memory leaves as it is: everything beside DRAM and the home bits, the caches, the walks asked for, and the
traffic of the mesh and the buses. -/

namespace Sys2Proof.Machine

/-- A core without its caches. -/
def CoreSt.offPath (k : CoreSt) : CoreSt := { k with coh := [], l1 := [], ties := [], kcache := [] }

/-- A cluster without its caches and its walks. -/
def Cluster.offPath (x : Cluster) : Cluster := { x with moesi := [], l2 := [], evicts := 0, ties := [], walks := [] }

/-- The state without what an access to memory touches: DRAM and its home bits, the caches and walks, packets, messages and accesses under way,
and the errors that a router corrects as it reads an entry. -/
def State.offPath (s : State) : State × (Nat → CoreSt) × (Nat → Cluster) :=
  ({ s with dram := [], homeBits := [], evicting := [], packets := [], msgs := [], msgSeq := [], txFree := [], nextId := 0, softEntries := []
            eccFixed := [], pends := [], clusters := [], cores := [] },
    fun c => (s.core c).offPath, fun k => (s.cluster k).offPath)

section
variable {s t : State}

theorem core_of_offPath (h : t.offPath = s.offPath) (c : Nat) : (t.core c).offPath = (s.core c).offPath := by
  have : t.offPath.2.1 c = s.offPath.2.1 c := by rw [h]
  exact this

theorem cluster_of_offPath (h : t.offPath = s.offPath) (k : Nat) : (t.cluster k).offPath = (s.cluster k).offPath := by
  have : t.offPath.2.2 k = s.offPath.2.2 k := by rw [h]
  exact this

theorem core_eq_of_offPath (h : t.offPath = s.offPath) (c : Nat) : t.core c = { s.core c with
    coh := (t.core c).coh, l1 := (t.core c).l1, ties := (t.core c).ties, kcache := (t.core c).kcache } := by
  have : { (t.core c).offPath with coh := (t.core c).coh, l1 := (t.core c).l1, ties := (t.core c).ties, kcache := (t.core c).kcache } =
      { (s.core c).offPath with coh := (t.core c).coh, l1 := (t.core c).l1, ties := (t.core c).ties, kcache := (t.core c).kcache } := by
    rw [core_of_offPath h]
  exact this

theorem cluster_eq_of_offPath (h : t.offPath = s.offPath) (k : Nat) : t.cluster k = { s.cluster k with
    moesi := (t.cluster k).moesi, l2 := (t.cluster k).l2, evicts := (t.cluster k).evicts, ties := (t.cluster k).ties
    walks := (t.cluster k).walks } := by
  have : { (t.cluster k).offPath with moesi := (t.cluster k).moesi, l2 := (t.cluster k).l2, evicts := (t.cluster k).evicts
                                      ties := (t.cluster k).ties, walks := (t.cluster k).walks } =
      { (s.cluster k).offPath with moesi := (t.cluster k).moesi, l2 := (t.cluster k).l2, evicts := (t.cluster k).evicts
                                   ties := (t.cluster k).ties, walks := (t.cluster k).walks } := by
    rw [cluster_of_offPath h]
  exact this

theorem focus_of_offPath (h : t.offPath = s.offPath) : t.focus = s.focus := by
  have : t.offPath.1.focus = s.offPath.1.focus := by rw [h]
  exact this

theorem gang_of_offPath (h : t.offPath = s.offPath) (c g : Nat) : t.gang c g = s.gang c g := by
  have : (t.core c).offPath.gangs.get {} g = (s.core c).offPath.gangs.get {} g := by rw [core_of_offPath h]
  exact this

theorem me_of_offPath (h : t.offPath = s.offPath) : t.me = s.me := by
  unfold State.me
  rw [focus_of_offPath h, gang_of_offPath h]

end

@[simp] theorem offPath_ite (c : Prop) {_ : Decidable c} (a b : State) :
    (if c then a else b).offPath = if c then a.offPath else b.offPath := apply_ite State.offPath c a b

@[simp] theorem offPath_foldl {α : Type} {f : State → α → State} (hf : ∀ s a, (f s a).offPath = s.offPath) (l : List α) (s : State) :
    (l.foldl f s).offPath = s.offPath := by
  induction l generalizing s with
  | nil => rfl
  | cons a l ih => rw [List.foldl_cons, ih, hf]

theorem offPath_setCore (s : State) (c : Nat) {x : CoreSt} (h : x.offPath = (s.core c).offPath) : (s.setCore c x).offPath = s.offPath := by
  refine Prod.ext rfl (Prod.ext (funext fun d => ?_) rfl)
  show ((s.setCore c x).core d).offPath = (s.core d).offPath
  by_cases hd : d = c
  · rw [hd, core_setCore_same, h]
  · rw [core_setCore_other _ _ hd]

theorem offPath_setCluster (s : State) (k : Nat) {x : Cluster} (h : x.offPath = (s.cluster k).offPath) :
    (s.setCluster k x).offPath = s.offPath := by
  refine Prod.ext rfl (Prod.ext rfl (funext fun q => ?_))
  show ((s.setCluster k x).cluster q).offPath = (s.cluster q).offPath
  by_cases hq : q = k
  · rw [hq, cluster_setCluster_same, h]
  · rw [cluster_setCluster_other _ _ hq]

theorem offPath_modCore (s : State) (c : Nat) {f : CoreSt → CoreSt} (h : ∀ x, (f x).offPath = x.offPath) : (s.modCore c f).offPath = s.offPath :=
  offPath_setCore s c (h _)

theorem offPath_modCluster (s : State) (k : Nat) {f : Cluster → Cluster} (h : ∀ x, (f x).offPath = x.offPath) :
    (s.modCluster k f).offPath = s.offPath := offPath_setCluster s k (h _)

@[simp] theorem offPath_modCoh (s : State) (c : Nat) (f : List Nat → List Nat) :
    (s.modCore c fun x => { x with coh := f x.coh }).offPath = s.offPath := offPath_modCore s c fun _ => rfl

@[simp] theorem offPath_modEvicts (s : State) (k : Nat) : (s.modCluster k fun x => { x with evicts := x.evicts + 1 }).offPath = s.offPath :=
  offPath_modCluster s k fun _ => rfl

@[simp] theorem offPath_setL1 (s : State) (c la : Nat) (l : Line) : (s.setL1 c la l).offPath = s.offPath := offPath_modCore s c fun _ => rfl

@[simp] theorem offPath_setL2 (s : State) (k la : Nat) (l : Line) : (s.setL2 k la l).offPath = s.offPath := offPath_modCluster s k fun _ => rfl

@[simp] theorem offPath_readEntry (s : State) (r e : Nat) : (s.readEntry r e).offPath = s.offPath := by
  rw [readEntry_rest]
  rfl

@[simp] theorem offPath_askHome (s : State) (c pa : Nat) : (s.askHome c pa).offPath = s.offPath := offPath_readEntry s _ _

@[simp] theorem offPath_dropCopies (s : State) (k sb : Nat) (p : Nat → Bool) : (s.dropCopies k sb p).offPath = s.offPath := by
  simp [State.dropCopies]

@[simp] theorem offPath_setMoesi (s : State) (k sb : Nat) (x : Moesi) : (s.setMoesi k sb x).offPath = s.offPath := by
  unfold State.setMoesi
  have hm (s : State) : (s.modCluster k fun y => { y with moesi := y.moesi.put sb x }).offPath = s.offPath := offPath_modCluster s k fun _ => rfl
  simp [hm]

@[simp] theorem offPath_homeBits (s : State) (x : SMap (BitVec 2)) : { s with homeBits := x }.offPath = s.offPath := rfl

@[simp] theorem offPath_evicting (s : State) (l : List Nat) : { s with evicting := l }.offPath = s.offPath := rfl

@[simp] theorem offPath_countSnoop (s : State) (bus k : Nat) : (s.countSnoop bus k).offPath = s.offPath := rfl

@[simp] theorem offPath_homeWrite (s : State) (k pa n v : Nat) : (s.homeWrite k pa n v).offPath = s.offPath := by
  unfold State.homeWrite
  split <;> rfl

@[simp] theorem offPath_cohWrite (s : State) (pa n v : Nat) : (s.cohWrite pa n v).offPath = s.offPath := rfl

@[simp] theorem offPath_sendMsg (s : State) (bus k core frames : Nat) (body : MsgBody) (ltag : Half) :
    (s.sendMsg bus k core frames body ltag).1.offPath = s.offPath := rfl

@[simp] theorem offPath_inject (s : State) (src dst : Nat) (l : Launch) (rc addr : Nat) (body : PktBody) :
    (s.inject src dst l rc addr body).offPath = s.offPath := offPath_readEntry s (s.physOf src) dst

@[simp] theorem offPath_l2WriteBack (s : State) (k la : Nat) : (s.l2WriteBack k la).offPath = s.offPath := by simp [State.l2WriteBack]

@[simp] theorem offPath_l2WriteUnit (s : State) (k la : Nat) : (s.l2WriteUnit k la).offPath = s.offPath := by
  have hm (s : State) (p : List Nat → Bool) : (s.modCluster k fun x => { x with ties := x.ties.filter p }).offPath = s.offPath :=
    offPath_modCluster s k fun _ => rfl
  simp [State.l2WriteUnit, hm]

@[simp] theorem offPath_l2Evict (s : State) (k sb : Nat) : (s.l2Evict k sb).offPath = s.offPath := by
  have hm (s : State) : (s.modCluster k fun x =>
      { x with l2 := x.l2.drop (fun la => la / 4 == sb), evicts := x.evicts + 1 }).offPath = s.offPath := offPath_modCluster s k fun _ => rfl
  simp [State.l2Evict, hm]

@[simp] theorem offPath_loseCoherent (s : State) (k sb : Nat) : (s.loseCoherent k sb).offPath = s.offPath := by
  unfold State.loseCoherent
  simp only []
  split
  · simp
  · rw [offPath_evicting, offPath_inject, offPath_sendMsg, offPath_modEvicts, offPath_setMoesi]

@[simp] theorem offPath_l2Shrink (s : State) (k sb : Nat) (keep : List Nat) : (s.l2Shrink k sb keep).offPath = s.offPath := by
  unfold State.l2Shrink
  simp only []
  split
  · simp
  · rfl

@[simp] theorem offPath_l2Room (s : State) (k sb : Nat) (keep : List Nat) : (s.l2Room k sb keep).offPath = s.offPath := by simp [State.l2Room]

@[simp] theorem offPath_snoopOthers (s : State) (k sb : Nat) (sn : Snoop) : (s.snoopOthers k sb sn).offPath = s.offPath := by
  simp [State.snoopOthers]

@[simp] theorem offPath_own (s : State) (k sb : Nat) : (s.own k sb).offPath = s.offPath := by
  unfold State.own
  split
  · rfl
  · simp
  · rw [offPath_homeBits]
    simp

@[simp] theorem offPath_share (s : State) (k sb : Nat) : (s.share k sb).offPath = s.offPath := by
  unfold State.share
  split
  · rfl
  · rw [offPath_homeBits]
    simp

@[simp] theorem offPath_l2Fetch (s : State) (k la : Nat) : (s.l2Fetch k la).offPath = s.offPath := by simp [State.l2Fetch]

@[simp] theorem offPath_l1WriteBack (s : State) (c la : Nat) (keep : List Nat) : (s.l1WriteBack c la keep).offPath = s.offPath := by
  simp [State.l1WriteBack]

@[simp] theorem offPath_l1WriteUnit (s : State) (c la : Nat) : (s.l1WriteUnit c la).offPath = s.offPath := by
  have hc (s : State) (p : List Nat → Bool) : (s.modCore c fun k => { k with ties := k.ties.filter p }).offPath = s.offPath :=
    offPath_modCore s c fun _ => rfl
  have hm (s : State) (l : List (List Nat)) : (s.modCluster (clusterOf c) fun x => { x with ties := x.ties ++ l }).offPath = s.offPath :=
    offPath_modCluster s _ fun _ => rfl
  simp [State.l1WriteUnit, hc, hm]

@[simp] theorem offPath_l1Evict (s : State) (c sb : Nat) : (s.l1Evict c sb).offPath = s.offPath := by
  have hc (s : State) : (s.modCore c fun k => { k with l1 := k.l1.drop fun la => la / 4 == sb }).offPath = s.offPath :=
    offPath_modCore s c fun _ => rfl
  simp [State.l1Evict, hc]

@[simp] theorem offPath_l1Room (s : State) (c sb : Nat) : (s.l1Room c sb).offPath = s.offPath := by
  unfold State.l1Room
  split
  · rfl
  · simp only []
    split
    · simp
    · rfl

@[simp] theorem offPath_cohFill (s : State) (c sb : Nat) : (s.cohFill c sb).offPath = s.offPath := by simp [State.cohFill]

@[simp] theorem offPath_l1Fetch (s : State) (c la : Nat) : (s.l1Fetch c la).offPath = s.offPath := by simp [State.l1Fetch]

@[simp] theorem offPath_askCoh (s : State) (c pa : Nat) (writes : Bool) : (s.askCoh c pa writes).offPath = s.offPath := by simp [State.askCoh]

@[simp] theorem offPath_readWalk (s : State) (c : Nat) (asn : Half) (root va : Nat) : (s.readWalk c asn root va).offPath = s.offPath := by
  simp [State.readWalk]

@[simp] theorem offPath_askWalk (s : State) (c : Nat) (asn : Half) (root va : Nat) : (s.askWalk c asn root va).offPath = s.offPath := by
  have h (l : List WalkReq) := offPath_setCluster s (clusterOf c) (x := { s.cluster (clusterOf c) with walks := l }) rfl
  simp [State.askWalk, h]

@[simp] theorem offPath_queueWalk (s : State) (c : Nat) (asn : Half) (root va : Nat) : (s.queueWalk c asn root va).offPath = s.offPath := by
  simp [State.queueWalk]

@[simp] theorem offPath_memRead (s : State) (c : Nat) (t : Trans) (n : Nat) : (s.memRead c t n).1.offPath = s.offPath := by
  unfold State.memRead
  simp only []
  split
  · simp
  · simp
  · split <;> simp

@[simp] theorem offPath_memWrite (s : State) (c : Nat) (t : Trans) (n v : Nat) : (s.memWrite c t n v).offPath = s.offPath := by
  unfold State.memWrite
  split <;> simp

@[simp] theorem offPath_engineRead (s : State) (c : Nat) (t : Trans) (n : Nat) : (s.engineRead c t n).1.offPath = s.offPath := by
  unfold State.engineRead
  simp only []
  split
  · simp
  · simp
  · split <;> simp

@[simp] theorem offPath_engineWrite (s : State) (c : Nat) (t : Trans) (n v : Nat) : (s.engineWrite c t n v).offPath = s.offPath := by
  unfold State.engineWrite
  simp only []
  split <;> simp

@[simp] theorem offPath_latePut (s : State) (c : Nat) (asn : Half) (t : Trans) (va n v : Nat) (o : Owner) (kind : AccKind) :
    (s.latePut c asn t va n v o kind).offPath = s.offPath := rfl

@[simp] theorem offPath_hwPut (s : State) (c : Nat) (asn : Half) (root va n v : Nat) (o : Owner) :
    (s.hwPut c asn root va n v o).offPath = s.offPath := by
  unfold State.hwPut
  split
  · rfl
  · split
    · simp
    · split <;> simp

@[simp] theorem offPath_konstFetch (s : State) (c : Nat) (g : Gang) (va : Nat) : (s.konstFetch c g va).offPath = s.offPath := by
  unfold State.konstFetch
  split
  · rfl
  · simp only []
    split
    · simp
    · refine (offPath_modCore _ c ?_).trans ((offPath_memRead ..).trans (offPath_queueWalk ..))
      exact fun _ => rfl

@[simp] theorem offPath_konstFill (s : State) (c : Nat) (g : Gang) (f : Fields) : (s.konstFill c g f).offPath = s.offPath := by
  simp [State.konstFill]

end Sys2Proof.Machine

end

section
/-! SUPPORT and CLAIM. Fences and broadcast stores. -/

namespace Sys2Proof.Machine

open Sys2Proof.Claims

/-! ### Moving on from a state that differs off the access path alone -/

theorem gang_moveOn_other (s : State) (next : Nat → DWord × Nat) {c g : Nat} (h : c ≠ s.focus.core ∨ g ≠ s.focus.slot) :
    (s.moveOn next).gang c g = s.gang c g := by
  have hw := (moveOn_writesOnly s next).elsewhere
  by_cases hc : c = s.focus.core
  · rw [hc]
    exact hw.gangs g (h.resolve_left fun h => h hc)
  · unfold State.gang
    rw [hw.cores c hc]

theorem sameRegs_finish {o u : State} (hf : u.focus = o.focus) (hg : ∀ c g, u.gang c g = o.gang c g) :
    o.SameRegs u.finish noReg noReg noReg := by
  have hw := moveOn_writesOnly u fun _ => (u.pcNext, 0)
  have hm : u.me = o.me := by
    unfold State.me
    rw [hf, hg]
  refine ⟨fun c g h => ?_, ?_, ?_, fun n h => ?_, fun n h => ?_, fun r j hj h => ?_, fun j h => ?_⟩
  · rw [← hf] at h
    exact (gang_moveOn_other u _ h).trans (hg c g)
  · have := hw.others
    rwa [hm, State.mine, hf] at this
  · have := hw.recipes
    rwa [hm, State.mine, hf] at this
  · have := hw.scalars n h
    rwa [hm, State.mine, hf] at this
  · have := hw.masks n h
    rwa [hm, State.mine, hf] at this
  · have := hw.vectors r j hj h
    rwa [hm, State.mine, hf] at this
  · have := hw.lanes j (by rwa [hf])
    rwa [hm, State.mine, hf] at this

/-- The gang under way after its instruction has ended. -/
theorem mine_finish (s : State) : ∃ r w l, s.mine s.finish = { s.me with replay := r, waits := w, lanes := l } := by
  obtain ⟨r, w, h⟩ := me_moveOn s fun _ => (s.pcNext, 0)
  exact ⟨r, w, _, h⟩

/-! ### Fences -/

theorem execFence_eq {f : Fields} {sp : OpSpec} {s : State} (hsp : opSpec (.fence f) = some sp) (h : s.issuesPlain sp f = true)
    (ha : f.fenceKind = 1 → s.owes (s.execLanes f) (·.kind.returns) = false)
    (hr : f.fenceKind ≠ 1 → f.fenceKind ≠ 2 → s.releaseWaits (s.execLanes f) f.fenceScope = false) :
    exec (.fence f) s = .next (if f.fenceKind = 2 then (s.plainOperands sp f).markFence (s.execLanes f) f.fenceScope
      else s.plainOperands sp f).finish := by
  show execFence f s = _
  unfold execFence
  refine Eq.trans (run_effect hsp h rfl rfl ?_ rfl rfl rfl rfl) rfl
  show (if f.fenceKind = 1 then s.owes (s.execLanes f) (fun q => q.kind.returns)
    else if f.fenceKind = 2 then false else s.releaseWaits (s.execLanes f) f.fenceScope) = false
  split
  · next h1 => exact ha h1
  · next h1 =>
    split
    · rfl
    · next h2 => exact hr h1 h2

theorem me_markFence (s : State) (ex : Mask) (scope : Nat) : (s.markFence ex scope).me = { s.me with
    fences := s.me.fences.putAll ((lanesOf ex).map fun j => (j, (s.nextId, max scope (s.me.fences.get (0, 0) j).2))) } := by
  unfold State.markFence
  exact me_modMe s _

/-- A lane that executes a releasing fence is marked with the accesses so far; the others keep their marks. -/
theorem fences_markFence (s : State) (ex : Mask) (scope : Nat) {j : Nat} (hj : j < 64) :
    (s.markFence ex scope).me.fences.get (0, 0) j =
      if ex.getLsbD j then (s.nextId, max scope (s.me.fences.get (0, 0) j).2) else s.me.fences.get (0, 0) j := by
  rw [me_markFence]
  simp only []
  split
  · next h =>
    exact SMap.get_putAll_map _ _ _ (fun i => i) (fun i => (s.nextId, max scope (s.me.fences.get (0, 0) i).2)) j (mem_lanesOf.mpr ⟨hj, h⟩)
      fun i _ e => by rw [show i = j from e]
  · next h =>
    refine SMap.get_putAll_other _ _ _ _ fun p hp e => ?_
    obtain ⟨i, hi, rfl⟩ := List.mem_map.mp hp
    exact h (e ▸ (mem_lanesOf.mp hi).2)

theorem fence_release (s : State) (ex : Mask) (scope : Nat) :
    let t := (s.markFence ex scope).finish
    s.MovedOn t ∧ s.SameMemory t ∧ s.SameElsewhere t ∧ (∀ n, (s.mine t).sreg n = s.me.sreg n ∧ (s.mine t).mreg n = s.me.mreg n) ∧
      (∀ r j, (s.mine t).vreg r j = s.me.vreg r j) ∧
      ∀ j, j < 64 → (s.mine t).fences.get (0, 0) j =
        if ex.getLsbD j then (s.nextId, max scope (s.me.fences.get (0, 0) j).2) else s.me.fences.get (0, 0) j := by
  intro t
  have hm := me_markFence s ex scope
  have hw := moveOn_writesOnly (s.markFence ex scope) fun _ => ((s.markFence ex scope).pcNext, 0)
  obtain ⟨r, w, l, ht⟩ := mine_finish (s.markFence ex scope)
  change s.mine t = _ at ht
  refine ⟨movedOn_after rfl (by rw [hm]), ?_, ?_, fun n => ?_, fun r j => ?_, fun j hj => ?_⟩
  · exact (sameMemory_modMe s _).trans hw.memory
  · exact (sameElsewhere_modMe s _).trans (sameFocus_of_eq rfl) hw.elsewhere
  · rw [ht, hm]
    exact ⟨rfl, rfl⟩
  · rw [ht, hm]
    rfl
  · rw [ht]
    exact fences_markFence s ex scope hj

theorem fence_holds (f : Fields) (sp : OpSpec) (s : State) (hsp : opSpec (.fence f) = some sp) (h : s.issuesPlain sp f = true)
    (ha : f.fenceKind = 1 → s.owes (s.execLanes f) (·.kind.returns) = false)
    (hr : f.fenceKind ≠ 1 → f.fenceKind ≠ 2 → s.releaseWaits (s.execLanes f) f.fenceScope = false) :
    let o := s.plainOperands sp f
    ∃ t, exec (.fence f) s = .next t ∧ o.MovedOn t ∧ o.SameMemory t ∧ o.SameElsewhere t ∧
      (f.fenceKind ≠ 2 → o.WritesOnly t noReg noReg noReg) ∧
      (∀ n, (o.mine t).sreg n = o.me.sreg n ∧ (o.mine t).mreg n = o.me.mreg n) ∧ (∀ r j, (o.mine t).vreg r j = o.me.vreg r j) ∧
      (f.fenceKind = 2 → ∀ j, j < 64 → (o.mine t).fences.get (0, 0) j =
        if (s.execLanes f).getLsbD j then (o.nextId, max f.fenceScope (o.me.fences.get (0, 0) j).2) else o.me.fences.get (0, 0) j) := by
  intro o
  refine ⟨_, execFence_eq hsp h ha hr, ?_⟩
  by_cases hk : f.fenceKind = 2
  · rw [if_pos hk]
    obtain ⟨h1, h2, h3, h4, h5, h6⟩ := fence_release o (s.execLanes f) f.fenceScope
    exact ⟨h1, h2, h3, fun h => absurd hk h, h4, h5, fun _ => h6⟩
  · rw [if_neg hk]
    have hw := moveOn_writesOnly o fun _ => (o.pcNext, 0)
    obtain ⟨r, w, l, ht⟩ := mine_finish o
    exact ⟨finish_movedOn o, hw.memory, hw.elsewhere, fun _ => hw, fun n => by rw [ht]; exact ⟨rfl, rfl⟩, fun q j => by rw [ht]; rfl,
      fun h => absurd h hk⟩

/-! ### Walks that an instruction begins -/

@[simp] theorem hostPart_queueWalk (s : State) (c : Nat) (asn : Half) (root va : Nat) : (s.queueWalk c asn root va).hostPart = s.hostPart := by
  simp [State.queueWalk]

@[simp] theorem hostPart_beginWalks (s : State) (vas : List Nat) : (s.beginWalks vas).hostPart = s.hostPart := by simp [State.beginWalks]

@[simp] theorem offPath_beginWalks (s : State) (vas : List Nat) : (s.beginWalks vas).offPath = s.offPath := by simp [State.beginWalks]

/-- Where a walk has started, the queue of walks does not hold its instruction up. -/
theorem walksFull_of_walkOpen {s : State} {c : Nat} {asn : Half} {root va : Nat} (h : s.walkOpen c asn root va = true) :
    s.walksFull c asn root va = false := by
  unfold State.walkOpen at h
  rw [Bool.or_eq_true, Bool.or_eq_true, Bool.and_eq_true] at h
  refine Bool.eq_false_iff.mpr fun hf => ?_
  simp only [State.walksFull, Bool.and_eq_true, Bool.not_eq_true', decide_eq_true_eq] at hf
  obtain ⟨⟨⟨hmiss, hva⟩, hlen⟩, hsame⟩ := hf
  obtain (hhit | hbig) | ⟨hstart, -⟩ := h
  · rw [Option.isNone_iff_eq_none.mp hmiss] at hhit
    exact absurd hhit (by decide)
  · exact absurd (of_decide_eq_true hbig) (by omega)
  · unfold State.walkStarts at hstart
    obtain h | h := Bool.or_eq_true_iff.mp hstart
    · exact absurd (of_decide_eq_true h) (by omega)
    · obtain ⟨w, hw, hs⟩ := List.any_eq_true.mp h
      have : (s.cluster (clusterOf c)).walks.any (s.samePage c asn root va) = true := List.any_eq_true.mpr ⟨w, List.mem_of_mem_take hw, hs⟩
      rw [hsame] at this
      exact Bool.false_ne_true this

/-! ### Broadcast stores -/

/-- Some lane executes an instruction that issues. -/
theorem lane_of_issues {s : State} {sp : OpSpec} {f : Fields} {reads vs ss mat : List Nat} (h : s.issues sp f reads vs ss mat = true) :
    ∃ j, j < 64 ∧ (s.execLanes f).getLsbD j = true := by
  simp only [State.issues, Bool.and_eq_true, bne_iff_ne, ne_eq] at h
  obtain ⟨⟨⟨⟨⟨⟨⟨⟨⟨⟨-, hex⟩, -⟩, -⟩, -⟩, -⟩, -⟩, -⟩, -⟩, -⟩, -⟩ := h
  by_contra hno
  refine hex (BitVec.eq_of_getLsbD_eq fun i hi => ?_)
  exact (Bool.eq_false_iff.mpr fun hb => hno ⟨i, hi, hb⟩).trans BitVec.getLsbD_zero.symm

/-- The bytes of a broadcast store of `size` bytes: the lanes' words, one register after another. -/
def State.storeBytes (s : State) (f : Fields) (size : Nat) : List Byte :=
  (List.range size).map fun b => BitVec.ofNat 8
    ((if s.me.liveLanes.getLsbD (b / 4 % s.me.gw) then s.vval s.focus.core s.me (f.c.regNat + b / 4 / s.me.gw) (b / 4 % s.me.gw) else 0) /
      2 ^ (8 * (b % 4)))

theorem getElem?_storeBytes (s : State) (f : Fields) {size x : Nat} (h : x < size) : (s.storeBytes f size)[x]? = some (BitVec.ofNat 8
    ((if s.me.liveLanes.getLsbD (x / 4 % s.me.gw) then s.vval s.focus.core s.me (f.c.regNat + x / 4 / s.me.gw) (x / 4 % s.me.gw) else 0) /
      256 ^ (x % 4))) := by
  rw [State.storeBytes, List.getElem?_map, List.getElem?_range h]
  simp [Nat.pow_mul]

/-- One access for each of the lanes, numbered in their order, that waits for message `mid`. -/
def State.addPends (s : State) (mid : Nat) (p : Nat → Pend) (l : List Nat) : State :=
  l.foldl (fun (u : State) j => { u with nextId := u.nextId + 1, pends := u.pends ++ [{ p j with id := u.nextId, msg := some mid }] }) s

theorem addPends_rest (mid : Nat) (p : Nat → Pend) (l : List Nat) (s : State) :
    ∃ n q, s.addPends mid p l = { s with nextId := n, pends := q } ∧ q.length = s.pends.length + l.length := by
  induction l generalizing s with
  | nil => exact ⟨s.nextId, s.pends, rfl, rfl⟩
  | cons j l ih =>
    obtain ⟨n, q, e, hq⟩ := ih { s with nextId := s.nextId + 1, pends := s.pends ++ [{ p j with id := s.nextId, msg := some mid }] }
    exact ⟨n, q, e, by rw [hq]; simp; omega⟩

/-- The state in which a broadcast store has been sent and its lanes' accesses wait for it. -/
def State.stored (o b : State) (f : Fields) (sp : OpSpec) (q : Trans) (size : Nat) (ex : Mask) : State :=
  let r := b.sendStore b.focus.core b.me.seat.ltag f.ctl.rc.toNat q.pa (o.storeBytes f size) (!b.focus.fly && b.storeNear b.focus.core (busOf q.pa))
  r.1.addPends r.2 (fun j => o.newPend (.stbw f) sp f j q
    { va := b.eaUni sp f, bytes := size, kind := .bcast, rel := f.rel, scope := f.ctl.sc.toNat } none) (lanesOf ex)

theorem execStbw_eq {f : Fields} {sp : OpSpec} {s : State} {q : Trans} (hsp : opSpec (.stbw f) = some sp)
    (hreg : f.c.regNat + (16 * 2 ^ f.fn.toNat / 4 + s.me.gw - 1) / s.me.gw ≤ s.me.nregs)
    (h : s.issues sp f ((List.range ((16 * 2 ^ f.fn.toNat / 4 + s.me.gw - 1) / s.me.gw)).map (f.c.regNat + ·)) [] [] [] = true)
    (haim : s.aim false .window (s.eaUni sp f) (16 * 2 ^ f.fn.toNat) (16 * 2 ^ f.fn.toNat) = .ok (.glob q))
    (hopen : pagesOpen s (fun _ => s.eaUni sp f) (s.execLanes f)) (hbus : s.busQueued (busOf q.pa) s.myCluster < 64)
    (hwait : s.groupWaits (s.execLanes f) (fun x => x.acq || s.windowMeets x (s.eaUni sp f) (16 * 2 ^ f.fn.toNat)) f.rel f.ctl.sc.toNat = false) :
    let o := s.operands sp f ((List.range ((16 * 2 ^ f.fn.toNat / 4 + s.me.gw - 1) / s.me.gw)).map (f.c.regNat + ·)) [] [] []
    o.aim false .window (o.eaUni sp f) (16 * 2 ^ f.fn.toNat) (16 * 2 ^ f.fn.toNat) = .ok (.glob q) →
    exec (.stbw f) s = .next (o.stored (o.beginWalks [o.eaUni sp f]) f sp q (16 * 2 ^ f.fn.toNat) (s.execLanes f)).finish := by
  intro o hoaim
  obtain ⟨j, hj, hb⟩ := lane_of_issues h
  have hwalk : s.walkOpen s.focus.core (s.space s.me).1 (s.space s.me).2 (s.eaUni sp f) = true := hopen j hj hb
  have hfull := walksFull_of_walkOpen hwalk
  show execStbw f s = _
  unfold execStbw
  refine Eq.trans (run_effect hsp h ?_ rfl ?_ ?_ rfl rfl ?_) ?_
  · simp [runOk, hreg, Causes.addIf]
  · simp [State.walkWaits, hwalk, hwait]
  · simp only [State.walkHold, List.any_cons, hfull, List.any_nil, Bool.or_false, Bool.false_eq_true, if_false, haim]
    exact if_neg (by omega)
  · simp only [haim]
  · show (match o.aim false .window (o.eaUni sp f) (16 * 2 ^ f.fn.toNat) (16 * 2 ^ f.fn.toNat) with | .ok (.glob t) => _ | _ => _) = _
    rw [hoaim]
    rfl

theorem sameMemory_readEntry (s : State) (r e : Nat) : s.SameMemory (s.readEntry r e) := by
  rw [readEntry_rest]
  exact ⟨rfl, rfl, fun _ => rfl, fun _ => rfl, rfl, fun _ => rfl, fun _ => rfl, fun _ => rfl⟩

theorem sameMemory_sendStore (s : State) (c : Nat) (l : Half) (rc off : Nat) (data : List Byte) (near : Bool) :
    s.SameMemory (s.sendStore c l rc off data near).1 := by
  cases near with
  | true => exact ⟨rfl, rfl, fun _ => rfl, fun _ => rfl, rfl, fun _ => rfl, fun _ => rfl, fun _ => rfl⟩
  | false =>
    obtain ⟨h1, h2, h3, h4, h5, h6, h7, h8⟩ := sameMemory_readEntry s (s.physOf c) (transmitter (clusterOf c))
    exact ⟨h1, h2, h3, h4, h5, h6, h7, h8⟩

theorem offPath_sendStore (s : State) (c : Nat) (l : Half) (rc off : Nat) (data : List Byte) (near : Bool) :
    (s.sendStore c l rc off data near).1.offPath = s.offPath := by
  cases near with
  | true => exact offPath_sendMsg ..
  | false => exact offPath_inject ..

/-- Near its transmitter a broadcast store is a message. -/
theorem sendStore_near (s : State) (c : Nat) (l : Half) (rc off : Nat) (data : List Byte) :
    let t := (s.sendStore c l rc off data true).1
    t.packets = s.packets ∧ ∃ m, t.msgs = s.msgs ++ [m] ∧ m.bus = off / 256 % 16 ∧ m.writer = clusterOf c ∧ m.body = .store off data ∧
      m.frames = 1 + data.length / 16 ∧ m.ltag = l :=
  ⟨rfl, _, rfl, rfl, rfl, rfl, rfl, rfl⟩

/-- Else it is a packet to the transmitter. -/
theorem sendStore_far (s : State) (c : Nat) (l : Half) (rc off : Nat) (data : List Byte) :
    let t := (s.sendStore c l rc off data false).1
    t.msgs = s.msgs ∧ ∃ x, t.packets = s.packets ++ [x] ∧ x.src = c ∧ x.dst = transmitter (clusterOf c) ∧ x.body = .store off data l := by
  have hr := readEntry_rest s (s.physOf c) (transmitter (clusterOf c))
  have hm : (s.readEntry (s.physOf c) (transmitter (clusterOf c))).msgs = s.msgs := by rw [hr]
  have hp : (s.readEntry (s.physOf c) (transmitter (clusterOf c))).packets = s.packets := by rw [hr]
  exact ⟨hm, _, congrArg (· ++ _) hp, rfl, rfl, rfl⟩

theorem pends_sendStore (s : State) (c : Nat) (l : Half) (rc off : Nat) (data : List Byte) (near : Bool) :
    (s.sendStore c l rc off data near).1.pends = s.pends := by
  cases near with
  | true => rfl
  | false =>
    have hr := readEntry_rest s (s.physOf c) (transmitter (clusterOf c))
    have : (s.readEntry (s.physOf c) (transmitter (clusterOf c))).pends = s.pends := by rw [hr]
    exact this

/-- An instruction that ends changes its gang and the focus. -/
theorem finish_rest (s : State) : s.finish = { s with cores := s.finish.cores, focus := s.finish.focus } := by
  have h : { { s.finish with cores := [], focus := {} } with cores := s.finish.cores, focus := s.finish.focus } =
      { { s with cores := [], focus := {} } with cores := s.finish.cores, focus := s.finish.focus } := by
    rw [(moveOn_writesOnly s fun _ => (s.pcNext, 0)).elsewhere.rest.symm]
    rfl
  exact h

/-- What a broadcast store leaves behind: a message or a packet, and the lanes' accesses. -/
theorem stored_sends {o b : State} (hb : b.offPath = o.offPath) (f : Fields) (sp : OpSpec) (q : Trans) {size : Nat} (ex : Mask) :
    let t := (o.stored b f sp q size ex).finish
    let near := !o.focus.fly && b.storeNear o.focus.core (busOf q.pa)
    o.MovedOn t ∧ o.SameRegs t noReg noReg noReg ∧ b.SameMemory t ∧
      (near = true → t.packets = b.packets ∧ ∃ m, t.msgs = b.msgs ++ [m] ∧ m.bus = q.pa / 256 % 16 ∧ m.writer = o.myCluster ∧
        m.body = .store q.pa (o.storeBytes f size) ∧ m.frames = 1 + size / 16 ∧ m.ltag = o.me.seat.ltag) ∧
      (near = false → t.msgs = b.msgs ∧ ∃ x, t.packets = b.packets ++ [x] ∧ x.src = o.focus.core ∧ x.dst = transmitter o.myCluster ∧
        x.body = .store q.pa (o.storeBytes f size) o.me.seat.ltag) ∧
      t.pends.length = b.pends.length + (lanesOf ex).length := by
  intro t near
  have hfocus : b.focus = o.focus := focus_of_offPath hb
  have hme : b.me = o.me := me_of_offPath hb
  have hlen : (o.storeBytes f size).length = size := by simp [State.storeBytes]
  have hsent : ∃ u, u = (b.sendStore o.focus.core o.me.seat.ltag f.ctl.rc.toNat q.pa (o.storeBytes f size) near).1 ∧
      ∃ n l, o.stored b f sp q size ex = { u with nextId := n, pends := l } ∧ l.length = u.pends.length + (lanesOf ex).length := by
    refine ⟨_, rfl, ?_⟩
    unfold State.stored
    rw [hfocus, hme]
    exact addPends_rest ..
  obtain ⟨u, hu, n, l, hs, hl⟩ := hsent
  have hoff : (o.stored b f sp q size ex).offPath = o.offPath := by
    rw [hs, ← hb]
    exact (congrArg State.offPath hu).trans (offPath_sendStore ..)
  have ht := finish_rest (o.stored b f sp q size ex)
  have hpk : t.packets = u.packets := by
    rw [show t = _ from ht, hs]
  have hms : t.msgs = u.msgs := by
    rw [show t = _ from ht, hs]
  have hf := focus_of_offPath hoff
  refine ⟨movedOn_after hf (by rw [me_of_offPath hoff]), sameRegs_finish hf (gang_of_offPath hoff), ?_, fun hn => ?_, fun hn => ?_, ?_⟩
  · refine State.SameMemory.trans ?_ (moveOn_writesOnly _ _).memory
    rw [hs, hu]
    obtain ⟨h1, h2, h3, h4, h5, h6, h7, h8⟩ :=
      sameMemory_sendStore b o.focus.core o.me.seat.ltag f.ctl.rc.toNat q.pa (o.storeBytes f size) near
    exact ⟨h1, h2, h3, h4, h5, h6, h7, h8⟩
  · rw [hpk, hms, hu, hn]
    have := sendStore_near b o.focus.core o.me.seat.ltag f.ctl.rc.toNat q.pa (o.storeBytes f size)
    rwa [hlen] at this
  · rw [hpk, hms, hu, hn]
    exact sendStore_far ..
  · rw [show t = _ from ht, hs]
    show l.length = _
    rw [hl, hu, pends_sendStore]

theorem stbw_holds (f : Fields) (sp : OpSpec) (s : State) (q : Trans) (hsp : opSpec (.stbw f) = some sp) :
    let size := 16 * 2 ^ f.fn.toNat
    let n := (size / 4 + s.me.gw - 1) / s.me.gw
    let reads := (List.range n).map (f.c.regNat + ·)
    f.c.regNat + n ≤ s.me.nregs → s.issues sp f reads [] [] [] = true →
    let o := s.operands sp f reads [] [] []
    s.aim false .window (s.eaUni sp f) size size = .ok (.glob q) → o.aim false .window (o.eaUni sp f) size size = .ok (.glob q) →
    pagesOpen s (fun _ => s.eaUni sp f) (s.execLanes f) → s.busQueued (busOf q.pa) s.myCluster < 64 →
    s.groupWaits (s.execLanes f) (fun x => x.acq || s.windowMeets x (s.eaUni sp f) size) f.rel f.ctl.sc.toNat = false →
    let b := o.beginWalks [o.eaUni sp f]
    let near := !o.focus.fly && b.storeNear o.focus.core (busOf q.pa)
    ∃ t data, exec (.stbw f) s = .next t ∧ o.MovedOn t ∧ o.SameRegs t noReg noReg noReg ∧ b.SameMemory t ∧ data.length = size ∧
      (∀ x, x < size → data[x]? = some (BitVec.ofNat 8
        ((if o.me.liveLanes.getLsbD (x / 4 % o.me.gw) then
            o.vval o.focus.core o.me (f.c.regNat + x / 4 / o.me.gw) (x / 4 % o.me.gw) else 0) / 256 ^ (x % 4)))) ∧
      (near = true → t.packets = b.packets ∧ ∃ m, t.msgs = b.msgs ++ [m] ∧ m.bus = q.pa / 256 % 16 ∧ m.writer = o.myCluster ∧
        m.body = .store q.pa data ∧ m.frames = 1 + size / 16 ∧ m.ltag = o.me.seat.ltag) ∧
      (near = false → t.msgs = b.msgs ∧ ∃ x, t.packets = b.packets ++ [x] ∧ x.src = o.focus.core ∧ x.dst = transmitter o.myCluster ∧
        x.body = .store q.pa data o.me.seat.ltag) ∧
      t.pends.length = o.pends.length + (lanesOf (s.execLanes f)).length := by
  intro size n reads hreg h o haim hoaim hopen hbus hwait b near
  obtain ⟨h1, h2, h3, h4, h5, h6⟩ := stored_sends (offPath_beginWalks o [o.eaUni sp f]) f sp q (size := size) (s.execLanes f)
  exact ⟨_, o.storeBytes f size, execStbw_eq hsp hreg h haim hopen hbus hwait hoaim, h1, h2, h3, by simp [State.storeBytes],
    fun x hx => getElem?_storeBytes o f hx, h4, h5, h6.trans (by rw [pends_of_hostPart (hostPart_beginWalks o _)])⟩

/-- Settles O30: a fence waits for what its kind orders and a releasing one leaves a mark; a broadcast store is sent once and its lanes wait for it. -/
theorem fenceAndBroadcastStore : Obligations.FenceAndBroadcastStore := ⟨fence_holds, stbw_holds⟩

end Sys2Proof.Machine

end

section
/-! SUPPORT. Changes of a gang that are not of its registers: lanes that move on, waits that end. -/

namespace Sys2Proof.Machine

open Sys2Proof.Claims

/-- An update of a gang leaves the rest of every core. -/
theorem core_modGang (s : State) (c g : Nat) (f : Gang → Gang) (d : Nat) : ∃ x, (s.modGang c g f).core d = { s.core d with gangs := x } := by
  by_cases h : d = c
  · rw [h]
    exact ⟨_, core_modCore_same s c fun k => { k with gangs := k.gangs.put g (f (s.gang c g)) }⟩
  · exact ⟨(s.core d).gangs, core_modCore_other s _ h⟩

/-- From `s` to `t` a gang has changed in its lanes, its waits and its replay queue alone. -/
structure ControlOnly (c g : Nat) (s t : State) : Prop where
  rest : t = { s with cores := t.cores }
  core : ∀ d, { t.core d with gangs := (s.core d).gangs } = s.core d
  gang : ∃ l w r, t.gang c g = { s.gang c g with lanes := l, waits := w, replay := r }
  other : ∀ d h, d ≠ c ∨ h ≠ g → t.gang d h = s.gang d h

theorem ControlOnly.refl (c g : Nat) (s : State) : ControlOnly c g s s := ⟨rfl, fun _ => rfl, ⟨_, _, _, rfl⟩, fun _ _ _ => rfl⟩

theorem ControlOnly.trans {c g : Nat} {s t u : State} (h : ControlOnly c g s t) (h' : ControlOnly c g t u) : ControlOnly c g s u where
  rest := by rw [h'.rest, h.rest]
  core d := by rw [← h.core d, ← h'.core d]
  gang := by
    obtain ⟨_, _, _, e⟩ := h.gang
    obtain ⟨l, w, r, e'⟩ := h'.gang
    exact ⟨l, w, r, by rw [e', e]⟩
  other d e hd := (h'.other d e hd).trans (h.other d e hd)

theorem controlOnly_foldl {α : Type} {c g : Nat} {f : State → α → State} (hf : ∀ s a, ControlOnly c g s (f s a)) (l : List α) (s : State) :
    ControlOnly c g s (l.foldl f s) := by
  induction l generalizing s with
  | nil => exact .refl c g s
  | cons a l ih => exact (hf s a).trans (ih _)

theorem controlOnly_modGang (s : State) (c g : Nat) {f : Gang → Gang}
    (h : ∃ l w r, f (s.gang c g) = { s.gang c g with lanes := l, waits := w, replay := r }) : ControlOnly c g s (s.modGang c g f) := by
  refine ⟨rfl, fun d => ?_, ?_, fun d e hd => gang_modGang_other s f hd⟩
  · obtain ⟨x, hx⟩ := core_modGang s c g f d
    rw [hx]
  · rw [gang_modGang_same]
    exact h

/-- The focus aside, ending an instruction is such a change. -/
theorem controlOnly_finish (s : State) : ControlOnly s.focus.core s.focus.slot s { s.finish with focus := s.focus } := by
  have hw := moveOn_writesOnly s fun _ => (s.pcNext, 0)
  refine ⟨?_, fun d => ?_, ?_, fun d e hd => gang_moveOn_other s _ hd⟩
  · have := finish_rest s
    exact congrArg (fun x : State => { x with focus := s.focus }) this
  · by_cases hd : d = s.focus.core
    · rw [hd]
      have hl : (s.finish.core s.focus.core).latches = (s.core s.focus.core).latches := latches_moveOn s _ _
      have e : { s.finish.core s.focus.core with gangs := (s.core s.focus.core).gangs, latches := (s.core s.focus.core).latches } =
          s.core s.focus.core :=
        congrArg (fun x : CoreSt => { x with gangs := (s.core s.focus.core).gangs, latches := (s.core s.focus.core).latches }) hw.elsewhere.core
      rw [← hl] at e
      exact e
    · have := hw.elsewhere.cores d hd
      exact congrArg (fun x : CoreSt => { x with gangs := (s.core d).gangs }) this
  · obtain ⟨r, w, l, e⟩ := mine_finish s
    exact ⟨l, w, r, e⟩

theorem gang_finish (s : State) (c g : Nat) : ∃ r w l, s.finish.gang c g = { s.gang c g with replay := r, waits := w, lanes := l } := by
  by_cases h : c = s.focus.core ∧ g = s.focus.slot
  · rw [h.1, h.2]
    exact mine_finish s
  · refine ⟨_, _, _, gang_moveOn_other s _ ?_⟩
    by_cases hc : c = s.focus.core
    · exact .inr fun hg => h ⟨hc, hg⟩
    · exact .inl hc

theorem controlOnly_endWait (s : State) (c g : Nat) (w : Wait) : ControlOnly c g s { s.endWait c g w with focus := s.focus } := by
  have h := controlOnly_modGang (s.focusWait c g w) c g (f := fun x => { x with waits := x.waits.filter (· != w) }) ⟨_, _, _, rfl⟩
  exact ⟨rfl, h.core, h.gang, h.other⟩

/-- The end of a wait whose instruction then ends. -/
theorem controlOnly_endWait_finish (s : State) (c g : Nat) (w : Wait) : ControlOnly c g s { (s.endWait c g w).finish with focus := s.focus } := by
  have h1 := controlOnly_endWait s c g w
  have h2 := controlOnly_finish (s.endWait c g w)
  have h2 : ControlOnly c g { s.endWait c g w with focus := s.focus } { (s.endWait c g w).finish with focus := s.focus } :=
    ⟨congrArg (fun x : State => { x with focus := s.focus }) h2.rest, h2.core, h2.gang, h2.other⟩
  exact h1.trans h2

theorem controlOnly_tlSettle (s : State) (c g : Nat) : ControlOnly c g s (s.tlSettle c g) := by
  refine controlOnly_foldl (fun s w => ?_) _ s
  split
  · split
    · exact controlOnly_endWait_finish s c g w
    · exact .refl c g s
  · exact .refl c g s

section
variable {c g : Nat} {s t : State} (h : ControlOnly c g s t)
include h

theorem ControlOnly.dram : t.dram = s.dram := by rw [h.rest]

theorem ControlOnly.focus : t.focus = s.focus := by rw [h.rest]

theorem ControlOnly.cluster (k : Nat) : t.cluster k = s.cluster k := cluster_of_clusters (by rw [h.rest]) k

theorem ControlOnly.ctx (d e n : Nat) : (t.gang d e).ctx n = (s.gang d e).ctx n := by
  by_cases hd : d = c ∧ e = g
  · obtain ⟨l, w, r, hg⟩ := h.gang
    rw [hd.1, hd.2, hg]
    rfl
  · rw [h.other d e (by by_cases hc : d = c; exacts [.inr fun he => hd ⟨hc, he⟩, .inl hc])]

end

end Sys2Proof.Machine

end

section
/-! SUPPORT and CLAIM. Writes of system registers. -/

namespace Sys2Proof.Machine

open Sys2Proof.Claims

/-! ### The numbers of the registers -/

/-- The number of a register. -/
def SysReg.number : SysReg → Nat
  | .pwstat => 0
  | .enacc => 1
  | .tlcnt n => 0x008 + n
  | .tliss n => 0x010 + n
  | .chring n => 0x018 + n
  | .prog n => 0x020 + n
  | .ectl n => 0x028 + n
  | .wdesc n => 0x030 + n
  | .wlen n => 0x040 + n
  | .bfltBase n => 0x050 + n
  | .bfltLim n => 0x058 + n
  | .bland n => 0x060 + n
  | .waddr n => 0x068 + n
  | .wval n => 0x06c + n
  | .wmask n => 0x070 + n
  | .wctl n => 0x074 + n
  | .gdbg n => 0x080 + n
  | .mondone => 0x0c0
  | .rcp n k => 0x100 + 16 * n + k
  | .s n => 0x400 + n
  | .m n => 0x440 + n
  | .v n => 0x800 + n

/-- How many registers of each kind there are. -/
def SysReg.inRange : SysReg → Prop
  | .pwstat | .enacc | .mondone => True
  | .tlcnt n | .tliss n | .chring n | .prog n | .ectl n | .bfltBase n | .bfltLim n | .bland n => n < 8
  | .wdesc n | .wlen n | .m n => n < 16
  | .waddr n | .wval n | .wmask n | .wctl n => n < 4
  | .gdbg n => n < 15
  | .rcp n k => n < 32 ∧ k < 10
  | .s n => n < 64
  | .v n => n < 2048

/-- A register of the number `x`, if there is one. -/
def Numbered (x : Nat) (o : Option SysReg) : Prop := ∀ r, o = some r → x = r.number ∧ r.inRange

theorem numbered_none (x : Nat) : Numbered x none := fun _ h => nomatch h

theorem numbered_some {x : Nat} {r : SysReg} (h : x = r.number ∧ r.inRange) : Numbered x (some r) := by
  intro q e
  cases e
  exact h

theorem numbered_ite {x : Nat} {c : Prop} {_ : Decidable c} {a b : Option SysReg} (ha : c → Numbered x a) (hb : ¬ c → Numbered x b) :
    Numbered x (if c then a else b) := iteInduction (motive := Numbered x) ha hb

theorem numbered_sysReg (x : Nat) : Numbered x (sysReg x) := by
  unfold sysReg
  repeat' refine numbered_ite (fun _ => ?_) fun _ => ?_
  any_goals exact numbered_none x
  all_goals
    refine numbered_some ?_
    simp only [SysReg.number, SysReg.inRange, and_true]
    omega

theorem number_of_sysReg {x : Nat} {r : SysReg} (h : sysReg x = some r) : x = r.number ∧ r.inRange := numbered_sysReg x r h

/-- The number of a register names it. -/
theorem sysReg_number (r : SysReg) (h : r.inRange) : sysReg r.number = some r := by
  cases r with
  | pwstat | enacc | mondone => rfl
  | rcp n k =>
    obtain ⟨hn, hk⟩ := h
    simp only [SysReg.number]
    unfold sysReg
    repeat rw [if_neg (by omega)]
    rw [if_pos (by omega), if_pos (by omega), show (0x100 + 16 * n + k - 0x100) / 16 = n by omega, show (0x100 + 16 * n + k - 0x100) % 16 = k by omega]
  | _ n =>
    simp only [SysReg.inRange] at h
    simp only [SysReg.number]
    unfold sysReg
    repeat rw [if_neg (by omega)]
    rw [if_pos (by omega), Nat.add_sub_cancel_left]

/-! ### What a write may change -/

theorem State.SameBytes.refl (s : State) : s.SameBytes s := ⟨rfl, fun _ => rfl, fun _ => rfl, rfl, fun _ => rfl⟩

theorem State.SameBytes.trans {s t u : State} (h : s.SameBytes t) (h' : t.SameBytes u) : s.SameBytes u :=
  ⟨h'.dram.trans h.dram, fun c => (h'.spad c).trans (h.spad c), fun c => (h'.spadFE c).trans (h.spadFE c), h'.decks.trans h.decks,
    fun c => (h'.am c).trans (h.am c)⟩

theorem State.SameLines.refl (s : State) : s.SameLines s := ⟨fun _ => rfl, fun _ => rfl⟩

theorem State.SameLines.trans {s t u : State} (h : s.SameLines t) (h' : t.SameLines u) : s.SameLines u :=
  ⟨fun c => (h'.l1 c).trans (h.l1 c), fun k => (h'.l2 k).trans (h.l2 k)⟩

theorem onlySys_refl (o : State) (x g : Nat) : OnlySys o o x g :=
  ⟨fun _ _ => rfl, fun _ _ => rfl, fun _ _ _ _ => rfl, rfl, fun _ _ _ => rfl, fun _ _ => rfl, fun _ => ⟨fun _ => ⟨rfl, rfl⟩, fun _ _ => rfl⟩,
    fun _ _ _ => rfl, fun _ _ => ⟨fun _ => rfl, fun _ => rfl, fun _ => rfl, fun _ => rfl⟩, fun _ => ⟨rfl, rfl, rfl⟩, fun _ => ⟨.refl o, .refl o⟩⟩

theorem onlySys_trans {o v w : State} {x g : Nat} (h : OnlySys o v x g) (hf : v.focus = o.focus) (h' : OnlySys v w x g) : OnlySys o w x g := by
  obtain ⟨k1, k2, k3, k4, k5, k6, k7, k8, k9, k10, k11⟩ := h'
  simp only [State.mine, State.me, hf] at k1 k2 k3 k4 k5 k6 k7 k8 k9
  refine ⟨fun n hn => (k1 n hn).trans (h.scalars n hn), fun n hn => (k2 n hn).trans (h.masks n hn),
    fun r j hj hr => (k3 r j hj hr).trans (h.vectors r j hj hr), k4.trans h.recipes, fun n h1 h2 => (k5 n h1 h2).trans (h.contexts n h1 h2),
    fun n hn => (k6 n hn).trans (h.windows n hn), fun hg => ?_, fun c e he => (k8 c e he).trans (h.gangs c e he), fun c n => ?_, fun k => ?_,
    fun hx => ⟨(h.memory hx).1.trans (k11 hx).1, (h.memory hx).2.trans (k11 hx).2⟩⟩
  · obtain ⟨a, b⟩ := h.issuer hg
    obtain ⟨a', b'⟩ := k7 hg
    exact ⟨fun n => ⟨(a' n).1.trans (a n).1, (a' n).2.trans (a n).2⟩, fun r j => (b' r j).trans (b r j)⟩
  · obtain ⟨a1, a2, a3, a4⟩ := h.watch c n
    obtain ⟨b1, b2, b3, b4⟩ := k9 c n
    exact ⟨fun e => (b1 e).trans (a1 e), fun e => (b2 e).trans (a2 e), fun e => (b3 e).trans (a3 e), fun e => (b4 e).trans (a4 e)⟩
  · obtain ⟨a1, a2, a3⟩ := h.filters k
    obtain ⟨b1, b2, b3⟩ := k10 k
    exact ⟨b1.trans a1, b2.trans a2, b3.trans a3⟩

/-- An update of one gang of a core leaves its memories and its watch registers. -/
theorem sameBytes_modGang (s : State) (c g : Nat) (f : Gang → Gang) : s.SameBytes (s.modGang c g f) ∧ s.SameLines (s.modGang c g f) := by
  refine ⟨⟨rfl, fun d => ?_, fun d => ?_, rfl, fun d => ?_⟩, ⟨fun d => ?_, fun _ => rfl⟩⟩ <;>
    obtain ⟨x, hx⟩ := core_modGang s c g f d <;> rw [hx]

theorem onlySys_modGang (o : State) {x g : Nat} {f : Gang → Gang} (y : Gang) (hy : o.gang o.focus.core g = y)
    (h1 : ∀ n, x ≠ 0x400 + n → (f y).sreg n = y.sreg n) (h2 : ∀ n, x ≠ 0x440 + n → (f y).mreg n = y.mreg n)
    (h3 : ∀ r j, j < 64 → x ≠ 0x800 + r → (f y).vreg r j = y.vreg r j) (h4 : (f y).rcp = y.rcp)
    (h5 : ∀ n, x ≠ 0x018 + n → x ≠ 0x028 + n → (f y).ctx n = y.ctx n) (h6 : ∀ n, x ≠ 0x040 + n → (f y).win n = y.win n) :
    OnlySys o (o.modGang o.focus.core g f) x g := by
  subst hy
  have hs := gang_modGang_same o o.focus.core g f
  refine ⟨?_, ?_, ?_, ?_, ?_, ?_, fun hg => ?_, fun c e he => gang_modGang_other o f ?_, fun c n => ?_, fun _ => ⟨rfl, rfl, rfl⟩,
    fun _ => sameBytes_modGang ..⟩
  · rwa [hs]
  · rwa [hs]
  · rwa [hs]
  · rwa [hs]
  · rwa [hs]
  · rwa [hs]
  · have : o.mine (o.modGang o.focus.core g f) = o.me := gang_modGang_other o f (.inr hg)
    rw [this]
    exact ⟨fun _ => ⟨rfl, rfl⟩, fun _ _ => rfl⟩
  · exact he.imp id fun q => q.1
  · obtain ⟨z, hz⟩ := core_modGang o o.focus.core g f c
    rw [hz]
    exact ⟨fun _ => rfl, fun _ => rfl, fun _ => rfl, fun _ => rfl⟩

/-- Where every gang stands as it did, the watch and filter registers and memory remain. -/
theorem onlySys_of_gangs {o t : State} {x : Nat} (g : Nat) (hg : ∀ c e, t.gang c e = o.gang c e)
    (hw : ∀ c n, (c ≠ o.focus.core ∨ x ≠ 0x068 + n → (t.core c).waddr.get 0 n = (o.core c).waddr.get 0 n) ∧
      (c ≠ o.focus.core ∨ x ≠ 0x06c + n → (t.core c).wval.get 0 n = (o.core c).wval.get 0 n) ∧
      (c ≠ o.focus.core ∨ x ≠ 0x070 + n → (t.core c).wmask.get 0 n = (o.core c).wmask.get 0 n) ∧
      (c ≠ o.focus.core ∨ x ≠ 0x074 + n → (t.core c).wctl.get 0 n = (o.core c).wctl.get 0 n))
    (hk : ∀ k, (t.cluster k).fbase = (o.cluster k).fbase ∧ (t.cluster k).flim = (o.cluster k).flim ∧ (t.cluster k).fland = (o.cluster k).fland)
    (hm : ¬(0x028 ≤ x ∧ x < 0x030) → o.SameBytes t ∧ o.SameLines t) : OnlySys o t x g := by
  have hme : o.mine t = o.me := hg _ _
  refine ⟨fun _ _ => ?_, fun _ _ => ?_, fun _ _ _ _ => ?_, ?_, fun _ _ _ => ?_, fun _ _ => ?_, fun _ => ?_, fun c e _ => hg c e, hw, hk, hm⟩
  case refine_7 =>
    rw [hme]
    exact ⟨fun _ => ⟨rfl, rfl⟩, fun _ _ => rfl⟩
  all_goals rw [hg]

/-- An update of a watch register of the core. -/
theorem onlySys_modCore (o : State) {x : Nat} (g : Nat) {f : CoreSt → CoreSt} (y : CoreSt) (hy : o.core o.focus.core = y)
    (hg : (f y).gangs = y.gangs) (h1 : ∀ n, x ≠ 0x068 + n → (f y).waddr.get 0 n = y.waddr.get 0 n)
    (h2 : ∀ n, x ≠ 0x06c + n → (f y).wval.get 0 n = y.wval.get 0 n) (h3 : ∀ n, x ≠ 0x070 + n → (f y).wmask.get 0 n = y.wmask.get 0 n)
    (h4 : ∀ n, x ≠ 0x074 + n → (f y).wctl.get 0 n = y.wctl.get 0 n)
    (hm : (f y).spad = y.spad ∧ (f y).spadFE = y.spadFE ∧ (f y).am = y.am ∧ (f y).l1 = y.l1) :
    OnlySys o (o.modCore o.focus.core f) x g := by
  subst hy
  have hs := core_modCore_same o o.focus.core f
  have ho {c : Nat} (hc : c ≠ o.focus.core) := core_modCore_other o f hc
  obtain ⟨m1, m2, m3, m4⟩ := hm
  have kept {α : Type} (p : CoreSt → α) (hp : p (f (o.core o.focus.core)) = p (o.core o.focus.core)) (c : Nat) :
      p ((o.modCore o.focus.core f).core c) = p (o.core c) := by
    by_cases hc : c = o.focus.core
    · rw [hc, hs, hp]
    · rw [ho hc]
  have watch {n b : Nat} (p : CoreSt → SMap DWord)
      (hp : x ≠ b + n → (p (f (o.core o.focus.core))).get 0 n = (p (o.core o.focus.core)).get 0 n) (c : Nat)
      (hcx : c ≠ o.focus.core ∨ x ≠ b + n) : (p ((o.modCore o.focus.core f).core c)).get 0 n = (p (o.core c)).get 0 n := by
    by_cases hc : c = o.focus.core
    · rw [hc, hs, hp (hcx.resolve_left fun h => h hc)]
    · rw [ho hc]
  refine onlySys_of_gangs g (fun c e => ?_) (fun c n => ⟨?_, ?_, ?_, ?_⟩) (fun _ => ⟨rfl, rfl, rfl⟩) fun _ =>
    ⟨⟨rfl, kept CoreSt.spad m1, kept CoreSt.spadFE m2, rfl, kept CoreSt.am m3⟩, ⟨kept CoreSt.l1 m4, fun _ => rfl⟩⟩
  · unfold State.gang
    rw [kept CoreSt.gangs hg]
  · exact watch CoreSt.waddr (h1 n) c
  · exact watch CoreSt.wval (h2 n) c
  · exact watch CoreSt.wmask (h3 n) c
  · exact watch CoreSt.wctl (h4 n) c

theorem onlySys_messages {o t : State} (h : Messages o t) (x g : Nat) : OnlySys o t x g := by
  have hc (c : Nat) : t.core c = o.core c := core_of_cores (by rw [h.rest]) c
  have hk (k : Nat) : t.cluster k = o.cluster k := h.cluster k
  refine onlySys_of_gangs g (fun c e => ?_) (fun c n => ?_) (fun k => ?_) fun _ =>
    ⟨⟨by rw [h.rest], fun c => by rw [hc], fun c => by rw [hc], by rw [h.rest], fun c => by rw [hc]⟩, ⟨fun c => by rw [hc], fun k => by rw [hk]⟩⟩
  · unfold State.gang
    rw [hc]
  · rw [hc]
    exact ⟨fun _ => rfl, fun _ => rfl, fun _ => rfl, fun _ => rfl⟩
  · rw [hk]
    exact ⟨rfl, rfl, rfl⟩

/-- A command to an engine may access memory. -/
theorem onlySys_offPath {o t : State} (h : t.offPath = o.offPath) {x : Nat} (hx : 0x028 ≤ x ∧ x < 0x030) (g : Nat) : OnlySys o t x g := by
  refine onlySys_of_gangs g (gang_of_offPath h) (fun c n => ?_) (fun k => ?_) fun hn => absurd hx hn
  · rw [core_eq_of_offPath h]
    exact ⟨fun _ => rfl, fun _ => rfl, fun _ => rfl, fun _ => rfl⟩
  · rw [cluster_eq_of_offPath h]
    exact ⟨rfl, rfl, rfl⟩

theorem ControlOnly.any {c g : Nat} {s t : State} (h : ControlOnly c g s t) (d e : Nat) :
    ∃ l w r, t.gang d e = { s.gang d e with lanes := l, waits := w, replay := r } := by
  by_cases hd : d = c ∧ e = g
  · rw [hd.1, hd.2]
    exact h.gang
  · exact ⟨_, _, _, h.other d e (by by_cases hc : d = c; exacts [.inr fun he => hd ⟨hc, he⟩, .inl hc])⟩

/-- Lanes and waits of the issuing gang or of the gang that is named are no registers. -/
theorem onlySys_control {o t : State} {e : Nat} (h : ControlOnly o.focus.core e o t) (x g : Nat) (he : e = g ∨ e = o.focus.slot) :
    OnlySys o t x g := by
  obtain ⟨l, w, r, hg⟩ := h.any o.focus.core g
  have hme : ∃ l w r, o.mine t = { o.me with lanes := l, waits := w, replay := r } := h.any _ _
  have hc (c : Nat) : t.core c = { o.core c with gangs := (t.core c).gangs } :=
    congrArg (fun y : CoreSt => { y with gangs := (t.core c).gangs }) (h.core c)
  refine ⟨fun _ _ => ?_, fun _ _ => ?_, fun _ _ _ _ => ?_, ?_, fun _ _ _ => ?_, fun _ _ => ?_, fun _ => ?_, fun c d hd => h.other c d ?_, fun c n => ?_,
    fun k => ?_, fun _ => ⟨⟨h.dram, fun c => by rw [hc], fun c => by rw [hc], by rw [h.rest], fun c => by rw [hc]⟩,
      ⟨fun c => by rw [hc], fun k => by rw [h.cluster]⟩⟩⟩
  case refine_7 =>
    obtain ⟨l, w, r, hme⟩ := hme
    rw [hme]
    exact ⟨fun _ => ⟨rfl, rfl⟩, fun _ _ => rfl⟩
  case refine_8 =>
    refine hd.imp id fun q => ?_
    rcases he with rfl | rfl
    · exact q.1
    · exact q.2.1
  case refine_10 =>
    rw [h.cluster]
    exact ⟨rfl, rfl, rfl⟩
  case refine_9 =>
    rw [hc]
    exact ⟨fun _ => rfl, fun _ => rfl, fun _ => rfl, fun _ => rfl⟩
  all_goals rw [hg] <;> rfl

end Sys2Proof.Machine

end

section
/-! SUPPORT and CLAIM. Writes of system registers: their effect, and the instruction. -/

namespace Sys2Proof.Machine

open Sys2Proof.Claims

theorem ctx_setCtx (g : Gang) (n m : Nat) (x : ECtx) : (g.setCtx n x).ctx m = if m = n then x else g.ctx m := SMap.get_put ..

theorem ctx_setS (g : Gang) (n m : Nat) (v : DWord) : (g.setS n v).ctx m = g.ctx m := by
  unfold Gang.setS
  split <;> rfl

theorem win_setS (g : Gang) (n m : Nat) (v : DWord) : (g.setS n v).win m = g.win m := by
  unfold Gang.setS
  split <;> rfl

/-! ### Commands to an engine -/

@[simp] theorem offPath_entryStatus (s : State) (v : EngineAt) (st : Nat) (cause : Option Nat) (via : Nat) :
    (s.entryStatus v st cause via).offPath = s.offPath := by
  unfold State.entryStatus
  simp only []
  split
  · rfl
  · split <;> simp

/-- The context that resuming leaves. -/
def ECtx.resume (x : ECtx) : ECtx := { x with resumed := true, held := none }

/-- The context that abandoning its outstanding entries leaves. -/
def ECtx.abandon (x : ECtx) : ECtx :=
  { x with tlcnt := x.tliss, cause := 0, resumed := false, done := 0, mats := [], ahead := [], matched := x.tliss.toNat, held := none }

theorem resumeCtx_of_running {s : State} {c g n : Nat} (h : ((s.gang c g).ctx n).stopped = false) : s.resumeCtx c g n = s := by
  simp [State.resumeCtx, h]

theorem abandonCtx_of_running {s : State} {c g n : Nat} (h : ((s.gang c g).ctx n).stopped = false) : s.abandonCtx c g n = s := by
  simp [State.abandonCtx, h]

/-- The octets of a context's entries that have not run. -/
def State.octsLeft (s : State) (c g n : Nat) : List OctOp :=
  ((s.gang c g).ctx n).mats.flatMap fun m => m.left.map fun o => { slot := g, ctx := n, seq := m.seq, oct := o, arrived := s.cycles (clusterOf c) }

/-- The state in which they wait for the array again. -/
def State.requeue (s : State) (c g n : Nat) : State :=
  if (s.octsLeft c g n).isEmpty then s else s.modCore c fun k => { k with octQ := k.octQ ++ s.octsLeft c g n }

/-- Resuming queues the octets not yet run and marks the context. -/
theorem resumeCtx_eq {s : State} {c g n : Nat} (h : ((s.gang c g).ctx n).stopped = true) : s.resumeCtx c g n =
    (s.requeue c g n).modGang c g fun y =>
      { y.setCtx n ((s.gang c g).ctx n).resume with endFaults := y.endFaults.filter (· != n) } := by
  simp only [State.resumeCtx, h, Bool.not_true, Bool.false_eq_true, if_false]
  rfl

theorem octQ_requeue (s : State) (c g n : Nat) : ((s.requeue c g n).core c).octQ = (s.core c).octQ ++ s.octsLeft c g n := by
  unfold State.requeue
  split
  · next h => rw [List.isEmpty_iff.mp h, List.append_nil]
  · rw [core_modCore_same]

@[simp] theorem gang_modOctQ (s : State) (c : Nat) (f : List OctOp → List OctOp) (d e : Nat) :
    (s.modCore c fun k => { k with octQ := f k.octQ }).gang d e = s.gang d e := by
  unfold State.gang
  by_cases h : d = c
  · rw [h, core_modCore_same]
  · rw [core_modCore_other _ _ h]

theorem gang_requeue (s : State) (c g n d e : Nat) : (s.requeue c g n).gang d e = s.gang d e := by
  unfold State.requeue
  split
  · rfl
  · exact gang_modOctQ s c (· ++ s.octsLeft c g n) d e

theorem focus_requeue (s : State) (c g n : Nat) : (s.requeue c g n).focus = s.focus := by
  unfold State.requeue
  split <;> rfl

/-- The state in which the entries that an abandoned context skips have been marked. -/
def State.skipEntries (s : State) (c g n : Nat) : State :=
  (List.range (((s.gang c g).ctx n).tliss - ((s.gang c g).ctx n).tlcnt).toNat).foldl (fun (t : State) i =>
    t.entryStatus { agent := s.gangAgent c g, gang := some (c, g), ctx := n
                    va := ringSlot ((s.gang c g).ctx n).chring (((s.gang c g).ctx n).tlcnt.toNat + i), rows := 0 } 3 none) s

theorem offPath_skipEntries (s : State) (c g n : Nat) : (s.skipEntries c g n).offPath = s.offPath := by simp [State.skipEntries]

/-- The state in which the context stands drained, before waits on it end. -/
def State.abandoned (s : State) (c g n : Nat) : State :=
  (s.skipEntries c g n).modGang c g fun y => { y.setCtx n ((s.gang c g).ctx n).abandon with endFaults := y.endFaults.filter (· != n) }

theorem focus_abandoned (s : State) (c g n : Nat) : (s.abandoned c g n).focus = s.focus :=
  focus_of_offPath (s := s) (t := s.skipEntries c g n) (offPath_skipEntries s c g n)

theorem abandonCtx_eq {s : State} {c g n : Nat} (h : ((s.gang c g).ctx n).stopped = true) :
    s.abandonCtx c g n = (s.abandoned c g n).tlSettle c g := by
  simp only [State.abandonCtx, h, Bool.not_true, Bool.false_eq_true, if_false]
  rfl

theorem ctx_resumeCtx {s : State} {c g n : Nat} (h : ((s.gang c g).ctx n).stopped = true) (m : Nat) :
    ((s.resumeCtx c g n).gang c g).ctx m = if m = n then ((s.gang c g).ctx n).resume else (s.gang c g).ctx m := by
  rw [resumeCtx_eq h, gang_modGang_same, gang_requeue]
  exact ctx_setCtx ..

theorem ctx_abandonCtx {s : State} {c g n : Nat} (h : ((s.gang c g).ctx n).stopped = true) (m : Nat) :
    ((s.abandonCtx c g n).gang c g).ctx m = if m = n then ((s.gang c g).ctx n).abandon else (s.gang c g).ctx m := by
  rw [abandonCtx_eq h, (controlOnly_tlSettle _ c g).ctx, State.abandoned, gang_modGang_same, gang_of_offPath (offPath_skipEntries s c g n)]
  exact ctx_setCtx ..

theorem focus_resumeCtx (s : State) (c g n : Nat) : (s.resumeCtx c g n).focus = s.focus := by
  cases h : ((s.gang c g).ctx n).stopped
  · rw [resumeCtx_of_running h]
  · rw [resumeCtx_eq h]
    exact focus_requeue s c g n

theorem focus_abandonCtx (s : State) (c g n : Nat) : (s.abandonCtx c g n).focus = s.focus := by
  cases h : ((s.gang c g).ctx n).stopped
  · rw [abandonCtx_of_running h]
  · rw [abandonCtx_eq h, (controlOnly_tlSettle _ c g).focus, focus_abandoned]

/-! ### The effect of a write -/

theorem messages_monDone (s : State) (c : Nat) (v : DWord) : Messages s (s.monDone c v) :=
  messages_cqPost s (show kindMonitor ≠ kindGraphFault by decide)

theorem focus_sysPut (s : State) (c g lane : Nat) (r : SysReg) (v : DWord) : (s.sysPut c g lane r v).focus = s.focus := by
  cases r with
  | ectl n =>
    show State.focus (if _ then _ else if _ then _ else _) = _
    split
    · exact focus_resumeCtx s c g n
    · split
      · exact focus_abandonCtx s c g n
      · rfl
  | wctl n =>
    show State.focus (if _ then _ else _) = _
    split <;> rfl
  | mondone =>
    show (s.monDone c v).focus = _
    rw [(messages_monDone ..).rest]
  | m n =>
    show State.focus (if _ then _ else _) = _
    split <;> rfl
  | _ => rfl

/-- A change of one context of the named gang. -/
theorem onlySys_setCtx (o : State) {x : Nat} (g n : Nat) {f : Gang → Gang} {y : ECtx} {l : List Nat} (hx : x = 0x018 + n ∨ x = 0x028 + n)
    (hf : f (o.gang o.focus.core g) = { (o.gang o.focus.core g).setCtx n y with endFaults := l }) :
    OnlySys o (o.modGang o.focus.core g f) x g := by
  refine onlySys_modGang o _ rfl ?_ ?_ ?_ ?_ (fun m h1 h2 => ?_) ?_ <;> rw [hf]
  · exact fun _ _ => rfl
  · exact fun _ _ => rfl
  · exact fun _ _ _ _ => rfl
  · rfl
  · refine (ctx_setCtx ..).trans (if_neg fun h => ?_)
    omega
  · exact fun _ _ => rfl

theorem onlySys_resumeCtx (o : State) (g n : Nat) : OnlySys o (o.resumeCtx o.focus.core g n) (0x028 + n) g := by
  cases h : ((o.gang o.focus.core g).ctx n).stopped
  · rw [resumeCtx_of_running h]
    exact onlySys_refl ..
  · rw [resumeCtx_eq h]
    have hf := focus_requeue o o.focus.core g n
    refine onlySys_trans (v := o.requeue o.focus.core g n) ?_ hf ?_
    · unfold State.requeue
      split
      · exact onlySys_refl ..
      · exact onlySys_modCore o g _ rfl rfl (fun _ _ => rfl) (fun _ _ => rfl) (fun _ _ => rfl) (fun _ _ => rfl) ⟨rfl, rfl, rfl, rfl⟩
    · have := onlySys_setCtx (o.requeue o.focus.core g n) (x := 0x028 + n) g n (f := fun y =>
        { y.setCtx n ((o.gang o.focus.core g).ctx n).resume with endFaults := y.endFaults.filter (· != n) }) (.inr rfl) rfl
      rwa [hf] at this

theorem onlySys_abandonCtx (o : State) {n : Nat} (hn : n < 8) (g : Nat) : OnlySys o (o.abandonCtx o.focus.core g n) (0x028 + n) g := by
  cases h : ((o.gang o.focus.core g).ctx n).stopped
  · rw [abandonCtx_of_running h]
    exact onlySys_refl ..
  · rw [abandonCtx_eq h]
    have hoff := offPath_skipEntries o o.focus.core g n
    have hf := focus_of_offPath hoff
    have hmark : OnlySys (o.skipEntries o.focus.core g n) (o.abandoned o.focus.core g n) (0x028 + n) g := by
      have := onlySys_setCtx (o.skipEntries o.focus.core g n) (x := 0x028 + n) g n (f := fun y =>
        { y.setCtx n ((o.gang o.focus.core g).ctx n).abandon with endFaults := y.endFaults.filter (· != n) }) (.inr rfl) rfl
      rwa [hf] at this
    refine onlySys_trans (onlySys_trans (onlySys_offPath hoff (by omega) g) hf hmark) (focus_abandoned ..) ?_
    have := onlySys_control (o := o.abandoned o.focus.core g n) (t := (o.abandoned o.focus.core g n).tlSettle o.focus.core g) (e := g)
      (by rw [focus_abandoned]; exact controlOnly_tlSettle ..)
    exact this _ g (.inl rfl)

/-- A stop or a step that the debugger asks of a gang is no register of it. -/
theorem onlySys_setGdbg (o : State) (g : Nat) {n : Nat} (hn : n < 15) (v : Nat) : OnlySys o (o.setGdbg o.focus.core n v) (0x080 + n) g := by
  have hany (c e : Nat) : ∃ a b, (o.setGdbg o.focus.core n v).gang c e = { o.gang c e with gdbStop := a, gdbStep := b } := by
    by_cases h : c = o.focus.core ∧ e = n
    · rw [h.1, h.2]
      exact ⟨_, _, gang_modGang_same ..⟩
    · exact ⟨_, _, gang_modGang_other o _ (by by_cases hc : c = o.focus.core; exacts [.inr fun he => h ⟨hc, he⟩, .inl hc])⟩
  obtain ⟨a, b, hg⟩ := hany o.focus.core g
  refine ⟨fun _ _ => ?_, fun _ _ => ?_, fun _ _ _ _ => ?_, ?_, fun _ _ _ => ?_, fun _ _ => ?_, fun _ => ?_, fun c e he => ?_, fun c m => ?_,
    fun _ => ⟨rfl, rfl, rfl⟩, fun _ => sameBytes_modGang ..⟩
  case refine_7 =>
    obtain ⟨a, b, hme⟩ := hany o.focus.core o.focus.slot
    rw [show o.mine _ = _ from hme]
    exact ⟨fun _ => ⟨rfl, rfl⟩, fun _ _ => rfl⟩
  case refine_8 =>
    refine gang_modGang_other o _ (he.imp id fun q => ?_)
    obtain ⟨-, -, q⟩ := q
    omega
  case refine_9 =>
    obtain ⟨z, hz⟩ := core_modGang o o.focus.core n (fun y => { y with gdbStop := v.testBit 0, gdbStep := v.testBit 0 && (y.gdbStep || v.testBit 1) }) c
    rw [show (o.setGdbg o.focus.core n v).core c = _ from hz]
    exact ⟨fun _ => rfl, fun _ => rfl, fun _ => rfl, fun _ => rfl⟩
  all_goals rw [hg] <;> rfl

/-- A write changes the register that its number names and no other. -/
theorem onlySys_sysPut (o : State) {x : Nat} {r : SysReg} (hx : sysReg x = some r) (g : Nat) {lane : Nat} (hl : lane < 64) (v : DWord) :
    OnlySys o (o.sysPut o.focus.core g lane r v) x g := by
  obtain ⟨rfl, hr⟩ := number_of_sysReg hx
  cases r with
  | chring n =>
    show OnlySys o (o.modGang o.focus.core g fun y => y.setCtx n { y.ctx n with chring := ringBits v }) _ g
    exact onlySys_setCtx o g n (l := (o.gang o.focus.core g).endFaults) (.inl rfl) rfl
  | ectl n =>
    show OnlySys o (if _ then _ else if _ then _ else _) _ g
    split
    · exact onlySys_resumeCtx o g n
    · split
      · exact onlySys_abandonCtx o hr g
      · exact onlySys_refl ..
  | wlen n =>
    show OnlySys o (o.modGang o.focus.core g fun y => { y with wins := y.wins.put n ((y.win n).setLen v.toNat) }) _ g
    refine onlySys_modGang o _ rfl (fun _ _ => rfl) (fun _ _ => rfl) (fun _ _ _ _ => rfl) rfl (fun _ _ _ => rfl) fun m hm => ?_
    refine SMap.get_put_other _ _ _ fun h => hm ?_
    simp only [SysReg.number]
    omega
  | waddr n =>
    show OnlySys o (o.modCore o.focus.core fun k => { k with waddr := k.waddr.put n (v &&& 0x01fffffffffffff8) }) _ g
    refine onlySys_modCore o g _ rfl rfl (fun m hm => ?_) (fun _ _ => rfl) (fun _ _ => rfl) (fun _ _ => rfl) ⟨rfl, rfl, rfl, rfl⟩
    exact SMap.get_put_other _ _ _ fun h => hm (by simp only [SysReg.number]; omega)
  | wval n =>
    show OnlySys o (o.modCore o.focus.core fun k => { k with wval := k.wval.put n v }) _ g
    refine onlySys_modCore o g _ rfl rfl (fun _ _ => rfl) (fun m hm => ?_) (fun _ _ => rfl) (fun _ _ => rfl) ⟨rfl, rfl, rfl, rfl⟩
    exact SMap.get_put_other _ _ _ fun h => hm (by simp only [SysReg.number]; omega)
  | wmask n =>
    show OnlySys o (o.modCore o.focus.core fun k => { k with wmask := k.wmask.put n v }) _ g
    refine onlySys_modCore o g _ rfl rfl (fun _ _ => rfl) (fun _ _ => rfl) (fun m hm => ?_) (fun _ _ => rfl) ⟨rfl, rfl, rfl, rfl⟩
    exact SMap.get_put_other _ _ _ fun h => hm (by simp only [SysReg.number]; omega)
  | wctl n =>
    show OnlySys o (if _ then _ else _) _ g
    split
    · exact onlySys_refl ..
    · refine onlySys_modCore o g _ rfl rfl (fun _ _ => rfl) (fun _ _ => rfl) (fun _ _ => rfl) (fun m hm => ?_) ⟨rfl, rfl, rfl, rfl⟩
      exact SMap.get_put_other _ _ _ fun h => hm (by simp only [SysReg.number]; omega)
  | gdbg n => exact onlySys_setGdbg o g hr v.toNat
  | mondone =>
    show OnlySys o (o.monDone o.focus.core v) _ g
    exact onlySys_messages (messages_monDone ..) _ g
  | s n =>
    show OnlySys o (o.modGang o.focus.core g fun y => y.setS n v) _ g
    refine onlySys_modGang o _ rfl (fun m hm => ?_) (fun _ _ => mreg_setS ..) (fun _ _ _ _ => vreg_setS ..) (rcp_setS ..) (fun m _ _ => ?_) fun m _ => ?_
    · rw [sreg_setS]
      exact if_neg fun h => hm (by simp only [SysReg.number]; omega)
    · rw [ctx_setS]
    · rw [win_setS]
  | m n =>
    show OnlySys o (if _ then _ else _) _ g
    split
    · exact onlySys_refl ..
    · refine onlySys_modGang o _ rfl (fun _ _ => rfl) (fun m hm => ?_) (fun _ _ _ _ => rfl) rfl (fun _ _ _ => rfl) fun _ _ => rfl
      rw [mreg_setM]
      exact if_neg fun h => hm (by simp only [SysReg.number]; omega)
  | v n =>
    show OnlySys o (o.modGang o.focus.core g fun y => y.setV [(n, lane, v.toNat % 2 ^ 32)]) _ g
    refine onlySys_modGang o _ rfl (fun _ _ => rfl) (fun _ _ => rfl) (fun q j hj hq => ?_) rfl (fun _ _ _ => rfl) fun _ _ => rfl
    refine vreg_setV_other _ _ q j hj (fun p hp => ?_) fun p hp h => ?_
    · rw [List.mem_singleton.mp hp]
      exact hl
    · rw [List.mem_singleton.mp hp] at h
      exact hq (by simp only [SysReg.number]; omega)
  | _ => exact onlySys_refl ..

/-! ### The state in which an instruction's operands are read -/

@[simp] theorem focus_foldl {α : Type} {f : State → α → State} (hf : ∀ s a, (f s a).focus = s.focus) (l : List α) (s : State) :
    (l.foldl f s).focus = s.focus := by
  induction l generalizing s with
  | nil => rfl
  | cons a l ih => rw [List.foldl_cons, ih, hf]

theorem focus_rowDone (s : State) (c g : Nat) : (s.rowDone c g).focus = s.focus := by
  unfold State.rowDone
  simp only []
  split <;> rfl

theorem focus_materialise (s : State) (c g n : Nat) : (s.materialise c g n).focus = s.focus := by
  unfold State.materialise
  simp only []
  split <;> rfl

theorem focus_touch (s : State) (c g : Nat) (vs ss : List Nat) : (s.touch c g vs ss).focus = s.focus :=
  focus_foldl (fun s n => show (s.clearRecipe c g n).focus = _ from focus_materialise s c g n) _ s

theorem focus_readied (s : State) (f : Fields) (vs ss mat : List Nat) : (s.readied f vs ss mat).focus = s.focus := by
  unfold State.readied
  simp only []
  rw [focus_of_offPath (offPath_konstFill ..), focus_foldl fun s n => focus_materialise .., focus_touch]
  split
  · exact focus_rowDone ..
  · rfl

/-- Of the focus only the note that an operand is replayed may change. -/
theorem focus_operands (s : State) (sp : OpSpec) (f : Fields) (reads vs ss mat : List Nat) :
    ∃ b, (s.operands sp f reads vs ss mat).focus = { s.focus with replayed := b } := by
  obtain ⟨b, hb⟩ := markReplay_eq s (s.srcRegs sp f ++ reads)
  refine ⟨b, ?_⟩
  unfold State.operands
  rw [focus_readied, hb]

/-! ### The instruction -/

theorem execSysw_eq {f : Fields} {sp : OpSpec} {s : State} {r : SysReg} (hsp : opSpec (.sysw f) = some sp) :
    let g := s.sysTarget (s.sc sp f)
    let k := s.focus.core
    let own := g = s.focus.slot
    let v : DWord := BitVec.ofNat 64 (s.sb sp f)
    s.sysAt sp f = some r → s.issues sp f [] (if own then r.vec else []) (if own then r.sca else []) [] = true →
    (r = .mondone → settled s) → (∀ n, r = .wlen n → s.owes (s.execLanes f) (·.acq) = false) →
    (¬ own → s.sysBusy k g r = false ∧ (s.gang k g).matrixHolds r.vec = false ∧
      s.replayFault k (s.gang k g) (((s.gang k g).touched r.vec r.sca).map fun n => ((s.gang k g).recipe n).treg.toNat) = none) →
    s.sysWriteCauses k g r (s.sb sp f) (s.execLanes f) = [] →
    let o := s.operands sp f [] (if own then r.vec else []) (if own then r.sca else []) []
    o.sysAt sp f = some r → o.sa sp f = s.sa sp f → o.sb sp f = s.sb sp f → o.sc sp f = s.sc sp f →
    (¬ own → o.rowsReady k g ((o.gang k g).touched r.vec r.sca) 0 = true) ∨ o.sysPends k g r = true →
    exec (.sysw f) s = .next (if o.sysPends k g r then
      o.waitIn { lanes := o.focus.lanes, pc := o.focus.pc, since := o.cycles o.myCluster, ins := some f, ex := s.execLanes f, len := o.focus.len
                 sysw := some (g, s.sa sp f, v) }
      else ((if own then o else (if (o.gang k g).ownsRow 0 then o.rowDone k g else o).touch k g r.vec r.sca).sysPut k g (sysLane (s.sc sp f)) r v).finish) := by
  intro g k own v hat hiss hmon hwlen hother hcauses o hoat hoa hob hoc hrows
  have htarget : o.sysTarget (s.sc sp f) = g := by
    obtain ⟨b, hb⟩ := focus_operands s sp f [] (if own then r.vec else []) (if own then r.sca else []) []
    show (if _ then _ else o.focus.slot) = _
    rw [show o.focus = _ from hb]
    rfl
  show execSysw f s = _
  unfold execSysw
  have hvec : (if (g != s.focus.slot) = true then [] else r.vec) = if own then r.vec else [] := by
    by_cases h : own <;> simp [own, h]
  have hsca : (if (g != s.focus.slot) = true then [] else r.sca) = if own then r.sca else [] := by
    by_cases h : own <;> simp [own, h]
  have hbad : (if (g != s.focus.slot) = true then
      s.replayFault k (s.gang k g) (((s.gang k g).touched r.vec r.sca).map fun n => ((s.gang k g).recipe n).treg.toNat) else none) = none := by
    by_cases h : own
    · simp [show g = s.focus.slot from h]
    · rw [if_pos (by simpa using h)]
      exact (hother h).2.2
  refine Eq.trans (run_effect hsp ?_ rfl rfl ?_ rfl ?_ rfl ?_) ?_
  · simp only [hat, Option.map_some, Option.getD_some]
    rw [hvec, hsca]
    exact hiss
  · simp only [hat, Option.map_some, Option.getD_some, Bool.or_eq_false_iff]
    refine ⟨⟨?_, ?_⟩, ?_⟩
    · by_cases h : r = .mondone
      · rw [show s.releaseWaits (BitVec.allOnes 64) 5 = false from hmon h, Bool.and_false]
      · rw [show (some r == some SysReg.mondone) = false by simpa using h, Bool.false_and]
    · cases r with
      | wlen n => exact hwlen n rfl
      | _ => rfl
    · by_cases h : own
      · rw [show (s.sysTarget (s.sc sp f) != s.focus.slot) = false by simpa using h, Bool.false_and]
      · obtain ⟨h1, h2, -⟩ := hother h
        rw [h1, h2]
        simp
  · simp only [hat, Option.map_some, Option.getD_some]
    exact congrArg (Option.filter _) hbad
  · simp only [hat, Option.map_some, Option.getD_some]
    refine (congrArg (fun q : Option ReplayErr => if q.isSome then Causes.add cRecipeFault (s.execLanes f) [] else _) hbad).trans hcauses
  · simp only [hat, Option.map_some, Option.getD_some]
    rw [hvec, hsca]
    change (match o.sysAt sp f with | none => _ | some r' => _) = _
    rw [hoat]
    change (if o.sysPends k (o.sysTarget (o.sc sp f)) r then _ else _) = _
    rw [hoc, htarget, hoa, hob]
    cases hp : o.sysPends k g r
    · have hr : o.rowsReady k g (if own then [] else (o.gang k g).touched r.vec r.sca) 0 = true := by
        split
        · simp [State.rowsReady, Gang.rowsNeeded]
        · next h => exact hrows.resolve_right (by simp [hp]) h
      change (if !o.rowsReady k g (if own then [] else (o.gang k g).touched r.vec r.sca) 0 then _ else _) = _
      rw [hr]
      rfl
    · rfl

/-- The gang under way after its instruction has begun to wait. -/
theorem mine_waitIn (s : State) (w : Wait) : ∃ r, s.mine (s.waitIn w) = { s.me with replay := r, waits := w :: s.me.waits } := by
  obtain ⟨r, hr⟩ := me_popReplay s
  have h := me_modMe s.popReplay.issued fun g => { g with waits := w :: g.waits }
  simp only [focus_issued, focus_popReplay, me_issued, hr] at h
  exact ⟨r, h⟩

theorem focus_waitIn (s : State) (w : Wait) : (s.waitIn w).focus = { s.focus with done := true } := by
  show (s.popReplay.issued).focus = _
  rw [focus_issued, focus_popReplay]

/-- The state in which a register's write takes effect: a gang other than the issuing one has the recipes of its register settled first. -/
def State.writable (o : State) (g : Nat) (r : SysReg) : State :=
  if g = o.focus.slot then o
  else (if (o.gang o.focus.core g).ownsRow 0 then o.rowDone o.focus.core g else o).touch o.focus.core g r.vec r.sca

theorem focus_writable (o : State) (g : Nat) (r : SysReg) : (o.writable g r).focus = o.focus := by
  unfold State.writable
  split
  · rfl
  · rw [focus_touch]
    split
    · exact focus_rowDone ..
    · rfl

theorem core_finish (s : State) (c : Nat) : ∃ x, s.finish.core c = { s.core c with gangs := x } :=
  ⟨(s.finish.core c).gangs, congrArg (fun y : CoreSt => { y with gangs := (s.finish.core c).gangs }) ((controlOnly_finish s).core c)⟩

theorem extract_of_nat (b i n : Nat) (h : b < 2 ^ 64) : (BitVec.ofNat 64 b).extractLsb' i n = BitVec.ofNat n (b / 2 ^ i) := by
  apply BitVec.eq_of_toNat_eq
  rw [BitVec.extractLsb'_toNat, BitVec.toNat_ofNat, Nat.mod_eq_of_lt h, Nat.shiftRight_eq_div_pow, BitVec.toNat_ofNat]

/-- What a write leaves in the register that it names (R454). -/
structure SysWritten (u t : State) (c g lane slot x b : Nat) : Prop where
  scalar : ∀ n, 0 < n → n < 64 → x = 0x400 + n → (t.gang c g).sreg n = BitVec.ofNat 64 b
  mask : ∀ n, 0 < n → n < 16 → x = 0x440 + n → (t.gang c g).mreg n = BitVec.ofNat 64 b &&& (u.gang c g).gwMask
  launched : x = 0x440 → (t.gang c g).mreg 0 = (u.gang c g).mreg 0
  vector : ∀ n, x = 0x800 + n → (t.gang c g).vreg n lane = BitVec.ofNat 32 b ∧
    ∀ j, j < 64 → j ≠ lane → (t.gang c g).vreg n j = (u.gang c g).vreg n j
  ring : ∀ n, n < 8 → x = 0x018 + n → (t.gang c g).ctx n = { (u.gang c g).ctx n with chring := BitVec.ofNat 64 b &&& 0x01ffffffffffff01 }
  command : ∀ n, n < 8 → x = 0x028 + n →
    let y := (u.gang c g).ctx n
    (b % 4 = 1 ∧ y.stopped = true → (t.gang c g).ctx n = { y with resumed := true, held := none }) ∧
    (b % 4 = 2 ∧ y.stopped = true → ((t.gang c g).ctx n).cause = 0 ∧ ((t.gang c g).ctx n).tlcnt = y.tliss ∧
      ((t.gang c g).ctx n).tliss = y.tliss ∧ ((t.gang c g).ctx n).chring = y.chring ∧ ((t.gang c g).ctx n).done = 0) ∧
    (b % 4 = 0 ∨ b % 4 = 3 ∨ y.stopped = false → (t.gang c g).ctx n = y)
  window : ∀ n, n < 16 → x = 0x040 + n → ((t.gang c g).win n).wlen = BitVec.ofNat 64 b ∧ ((t.gang c g).win n).wdesc = ((u.gang c g).win n).wdesc
  address : ∀ n, n < 4 → x = 0x068 + n → (t.core c).waddr.get 0 n = BitVec.ofNat 64 b &&& 0x01fffffffffffff8
  value : ∀ n, n < 4 → x = 0x06c + n → (t.core c).wval.get 0 n = BitVec.ofNat 64 b
  bits : ∀ n, n < 4 → x = 0x070 + n → (t.core c).wmask.get 0 n = BitVec.ofNat 64 b
  control : ∀ n, n < 4 → x = 0x074 + n →
    (t.core c).wctl.get 0 n = if b / 8 % 4 = 3 then (u.core c).wctl.get 0 n else BitVec.ofNat 64 b &&& 0xffff001f
  debug : ∀ n, n < 15 → x = 0x080 + n → n ≠ slot → (t.gang c n).gdbStop = b.testBit 0
  monitor : x = 0x0c0 → 64 < u.cqFree → u.cqWait = [] → u.cqOver = [] →
    t.cq.get 0 u.cqTail = CqEntry.bits { payload := BitVec.ofNat 64 (b % 2 ^ 16), tag := 0, src := BitVec.ofNat 16 c,
                                         cause := BitVec.ofNat 8 (b / 2 ^ 16), kind := 9 }

theorem ctx_command {u : State} {c g lane n b : Nat} (hb : b < 2 ^ 64) :
    let t := u.sysPut c g lane (.ectl n) (BitVec.ofNat 64 b)
    let y := (u.gang c g).ctx n
    (b % 4 = 1 ∧ y.stopped = true → (t.gang c g).ctx n = y.resume) ∧ (b % 4 = 2 ∧ y.stopped = true → (t.gang c g).ctx n = y.abandon) ∧
      (b % 4 = 0 ∨ b % 4 = 3 ∨ y.stopped = false → (t.gang c g).ctx n = y) := by
  intro t y
  have he : (BitVec.ofNat 64 b).extractLsb' 0 2 = BitVec.ofNat 2 b := by simpa using extract_of_nat b 0 2 hb
  have hnat (i : Nat) (hi : i < 4) : BitVec.ofNat 2 b = BitVec.ofNat 2 i ↔ b % 4 = i := by
    rw [← BitVec.toNat_inj, BitVec.toNat_ofNat, BitVec.toNat_ofNat]
    omega
  have ht : t = if b % 4 = 1 then u.resumeCtx c g n else if b % 4 = 2 then u.abandonCtx c g n else u := by
    show (if (BitVec.ofNat 64 b).extractLsb' 0 2 = 1 then _ else if (BitVec.ofNat 64 b).extractLsb' 0 2 = 2 then _ else _) = _
    rw [he]
    exact if_congr (hnat 1 (by omega)) rfl (if_congr (hnat 2 (by omega)) rfl rfl)
  refine ⟨fun ⟨h, hs⟩ => ?_, fun ⟨h, hs⟩ => ?_, fun h => ?_⟩
  · rw [ht, if_pos h, ctx_resumeCtx hs, if_pos rfl]
  · rw [ht, if_neg (by omega), if_pos h, ctx_abandonCtx hs, if_pos rfl]
  · rcases h with h | h | h
    · rw [ht, if_neg (by omega), if_neg (by omega)]
    · rw [ht, if_neg (by omega), if_neg (by omega)]
    · rw [ht, resumeCtx_of_running h, abandonCtx_of_running h]
      simp only [ite_self]
      rfl

/-- The host is told of a MONDONE write. -/
theorem cq_monDone {u : State} {c b : Nat} (hb : b < 2 ^ 64) (hfree : 64 < u.cqFree) (hwait : u.cqWait = []) (hover : u.cqOver = []) :
    (u.monDone c (BitVec.ofNat 64 b)).cq.get 0 u.cqTail =
      CqEntry.bits { payload := BitVec.ofNat 64 (b % 2 ^ 16), tag := 0, src := BitVec.ofNat 16 c, cause := BitVec.ofNat 8 (b / 2 ^ 16), kind := 9 } := by
  have he : u.monDone c (BitVec.ofNat 64 b) = u.cqWrite
      { payload := BitVec.ofNat 64 (b % 2 ^ 16), tag := 0, src := BitVec.ofNat 16 c, cause := BitVec.ofNat 8 (b / 2 ^ 16), kind := 9 } := by
    unfold State.monDone
    rw [extract_of_nat b 16 8 hb, show bits (BitVec.ofNat 64 b).toNat 0 16 = b % 2 ^ 16 by simp [Machine.bits]]
    unfold State.cqPost
    rw [if_neg (show ¬ CqEntry.privileged _ = true by simp [CqEntry.privileged, kindMonitor]), hwait, hover]
    exact if_pos (by simpa using hfree)
  rw [he]
  exact (told_cqWrite u _).entry

theorem written_sysPut {u : State} {x g lane b : Nat} {r : SysReg} (hx : sysReg x = some r) (hl : lane < 64) (hb : b < 2 ^ 64) :
    SysWritten u (u.sysPut u.focus.core g lane r (BitVec.ofNat 64 b)).finish u.focus.core g lane u.focus.slot x b := by
  have named (q : SysReg) (hq : q.inRange) (h : x = q.number) : r = q := by
    rw [h, sysReg_number q hq] at hx
    exact (Option.some.inj hx).symm
  generalize hv : u.sysPut u.focus.core g lane r (BitVec.ofNat 64 b) = v
  obtain ⟨a1, a2, a3, hg⟩ := gang_finish v u.focus.core g
  obtain ⟨a4, hc⟩ := core_finish v u.focus.core
  constructor
  · intro n h0 hn h
    obtain rfl := named (.s n) hn h
    rw [hg, ← hv]
    show ((u.modGang _ _ _).gang _ _).sreg n = _
    rw [gang_modGang_same, sreg_setS, if_pos ⟨rfl, by omega⟩]
  · intro n h0 hn h
    obtain rfl := named (.m n) hn h
    rw [hg, ← hv]
    show ((if n = 0 then u else u.modGang _ _ fun y => y.setM n _).gang _ _).mreg n = _
    rw [if_neg (by omega), gang_modGang_same, mreg_setM, if_pos rfl]
  · intro h
    obtain rfl := named (.m 0) (show 0 < 16 by decide) h
    rw [hg, ← hv]
    rfl
  · intro n h
    have hn : n < 2048 := by
      have := number_of_sysReg hx
      cases r <;> simp only [SysReg.number, SysReg.inRange] at this <;> omega
    obtain rfl := named (.v n) hn h
    rw [hg, ← hv]
    show ((u.modGang _ _ fun y => y.setV [(n, lane, _)]).gang _ _).vreg n lane = _ ∧ ∀ j, j < 64 → j ≠ lane →
      ((u.modGang _ _ fun y => y.setV [(n, lane, _)]).gang _ _).vreg n j = _
    rw [gang_modGang_same]
    have hlane : ∀ p ∈ [(n, lane, (BitVec.ofNat 64 b).toNat % 2 ^ 32)], p.2.1 < 64 := fun p hp => by
      rw [List.mem_singleton.mp hp]
      exact hl
    refine ⟨(vreg_setV_of _ _ n lane ((BitVec.ofNat 64 b).toNat % 2 ^ 32) hl hlane ⟨_, List.mem_singleton.mpr rfl, rfl, rfl⟩ fun p hp _ _ => ?_).trans ?_,
      fun j hj hne => vreg_setV_other _ _ n j hj hlane fun p hp => ?_⟩
    · rw [List.mem_singleton.mp hp]
    · apply BitVec.eq_of_toNat_eq
      rw [BitVec.toNat_ofNat, BitVec.toNat_ofNat, BitVec.toNat_ofNat, Nat.mod_mod, Nat.mod_eq_of_lt hb]
    · rw [List.mem_singleton.mp hp]
      exact fun q => hne q.2.symm
  · intro n hn h
    obtain rfl := named (.chring n) hn h
    rw [hg, ← hv]
    show ((u.modGang _ _ fun y => y.setCtx n _).gang _ _).ctx n = _
    rw [gang_modGang_same, ctx_setCtx, if_pos rfl]
    rfl
  · intro n hn h
    obtain rfl := named (.ectl n) hn h
    intro y
    obtain ⟨h1, h2, h3⟩ := ctx_command (u := u) (c := u.focus.core) (g := g) (lane := lane) (n := n) hb
    rw [hv] at h1 h2 h3
    have hctx : (v.finish.gang u.focus.core g).ctx n = (v.gang u.focus.core g).ctx n := by
      rw [hg]
      rfl
    rw [hctx]
    refine ⟨h1, fun h => ?_, h3⟩
    rw [h2 h]
    exact ⟨rfl, rfl, rfl, rfl, rfl⟩
  · intro n hn h
    obtain rfl := named (.wlen n) hn h
    have hwin : (v.finish.gang u.focus.core g).win n = ((u.gang u.focus.core g).win n).setLen (BitVec.ofNat 64 b).toNat := by
      rw [hg, ← hv]
      show ((u.modGang _ _ fun y => { y with wins := _ }).gang _ _).win n = _
      rw [gang_modGang_same]
      exact SMap.get_put_same ..
    rw [hwin]
    exact ⟨BitVec.ofNat_toNat .., rfl⟩
  · intro n hn h
    obtain rfl := named (.waddr n) hn h
    rw [hc, ← hv]
    show ((u.modCore _ fun k => { k with waddr := _ }).core _).waddr.get 0 n = _
    rw [core_modCore_same, SMap.get_put_same]
  · intro n hn h
    obtain rfl := named (.wval n) hn h
    rw [hc, ← hv]
    show ((u.modCore _ fun k => { k with wval := _ }).core _).wval.get 0 n = _
    rw [core_modCore_same, SMap.get_put_same]
  · intro n hn h
    obtain rfl := named (.wmask n) hn h
    rw [hc, ← hv]
    show ((u.modCore _ fun k => { k with wmask := _ }).core _).wmask.get 0 n = _
    rw [core_modCore_same, SMap.get_put_same]
  · intro n hn h
    obtain rfl := named (.wctl n) hn h
    have hbits : (BitVec.ofNat 64 b).extractLsb' 3 2 = 3 ↔ b / 8 % 4 = 3 := by
      rw [extract_of_nat b 3 2 hb, ← BitVec.toNat_inj, BitVec.toNat_ofNat]
      rfl
    rw [hc, ← hv]
    show ((if (BitVec.ofNat 64 b).extractLsb' 3 2 = 3 then u else u.modCore _ fun k => { k with wctl := _ }).core _).wctl.get 0 n = _
    by_cases hw : b / 8 % 4 = 3
    · rw [if_pos (hbits.mpr hw), if_pos hw]
    · rw [if_neg fun q => hw (hbits.mp q), if_neg hw, core_modCore_same, SMap.get_put_same]
  · intro n hn h hne
    obtain rfl := named (.gdbg n) hn h
    obtain ⟨_, _, _, hn'⟩ := gang_finish v u.focus.core n
    rw [hn', ← hv]
    show ((u.modGang _ n fun y => { y with gdbStop := _, gdbStep := _ }).gang _ n).gdbStop = _
    rw [gang_modGang_same]
    show (BitVec.ofNat 64 b).toNat.testBit 0 = _
    rw [BitVec.toNat_ofNat, Nat.mod_eq_of_lt hb]
  · intro h hfree hwait hover
    obtain rfl := named .mondone trivial h
    rw [finish_rest, ← hv]
    exact cq_monDone hb hfree hwait hover

theorem onlySys_finish (s : State) (x g : Nat) : OnlySys s s.finish x g := by
  obtain ⟨h1, h2, h3, h4, h5, h6, h7, h8, h9, h10, h11⟩ := onlySys_control (controlOnly_finish s) x g (.inr rfl)
  refine ⟨h1, h2, h3, h4, h5, h6, h7, h8, h9, h10, fun hx => ?_⟩
  obtain ⟨⟨a1, a2, a3, a4, a5⟩, b1, b2⟩ := h11 hx
  exact ⟨⟨a1, a2, a3, a4, a5⟩, b1, b2⟩

theorem systemRegisterWrites_holds (f : Fields) (sp : OpSpec) (s : State) (r : SysReg) (hsp : opSpec (.sysw f) = some sp) :
    let g := s.sysTarget (s.sc sp f)
    let k := s.focus.core
    let own := g = s.focus.slot
    s.sysAt sp f = some r → sysReg (s.sa sp f) = some r → s.issues sp f [] (if own then r.vec else []) (if own then r.sca else []) [] = true →
    (r = .mondone → settled s) → (∀ n, r = .wlen n → s.owes (s.execLanes f) (·.acq) = false) →
    (¬ own → s.sysBusy k g r = false ∧ (s.gang k g).matrixHolds r.vec = false ∧
      s.replayFault k (s.gang k g) (((s.gang k g).touched r.vec r.sca).map fun n => ((s.gang k g).recipe n).treg.toNat) = none) →
    s.sysWriteCauses k g r (s.sb sp f) (s.execLanes f) = [] →
    let o := s.operands sp f [] (if own then r.vec else []) (if own then r.sca else []) []
    o.sysAt sp f = some r → o.sa sp f = s.sa sp f → o.sb sp f = s.sb sp f → o.sc sp f = s.sc sp f → s.sb sp f < 2 ^ 64 →
    let v : DWord := BitVec.ofNat 64 (s.sb sp f)
    (o.sysPends k g r = true → ∃ t w, exec (.sysw f) s = .next t ∧ (o.mine t).waits = w :: o.me.waits ∧ w.sysw = some (g, s.sa sp f, v) ∧
      w.pc = s.focus.pc ∧ w.lanes = s.focus.lanes ∧ t.focus.done = true ∧ ∀ j, (o.mine t).lane j = o.me.lane j) ∧
    (o.sysPends k g r = false → (¬ own → o.rowsReady k g ((o.gang k g).touched r.vec r.sca) 0 = true) → ∃ t, exec (.sysw f) s = .next t ∧
      t.focus.done = true ∧
      (∀ j, j < 64 → s.focus.lanes.getLsbD j = true → ((o.mine t).lane j).pc = s.focus.pc + BitVec.ofNat 64 s.focus.len) ∧
      OnlySys (o.writable g r) t (s.sa sp f) g ∧
      SysWritten (o.writable g r) t k g (s.sc sp f / 32 % 64) s.focus.slot (s.sa sp f) (s.sb sp f)) := by
  intro g k own hat hx hiss hmon hwlen hother hcauses o hoat hoa hob hoc hb v
  obtain ⟨y, hf⟩ := focus_operands s sp f [] (if own then r.vec else []) (if own then r.sca else []) []
  have hf : o.focus = { s.focus with replayed := y } := hf
  have hcore : o.focus.core = k := by rw [hf]
  refine ⟨fun hp => ?_, fun hp hrows => ?_⟩
  · have e := execSysw_eq hsp hat hiss hmon hwlen hother hcauses hoat hoa hob hoc (.inr hp)
    rw [if_pos hp] at e
    obtain ⟨z, hz⟩ := mine_waitIn o { lanes := o.focus.lanes, pc := o.focus.pc, since := o.cycles o.myCluster, ins := some f, ex := s.execLanes f
                                      len := o.focus.len, sysw := some (g, s.sa sp f, v) }
    refine ⟨_, _, e, by rw [hz], rfl, by rw [hf], by rw [hf], by rw [focus_waitIn], fun j => ?_⟩
    rw [hz]
    rfl
  · have e := execSysw_eq hsp hat hiss hmon hwlen hother hcauses hoat hoa hob hoc (.inl hrows)
    rw [if_neg (Bool.eq_false_iff.mp hp)] at e
    have hw : (if own then o else (if (o.gang k g).ownsRow 0 then o.rowDone k g else o).touch k g r.vec r.sca) = o.writable g r := by
      unfold State.writable
      rw [hf]
    rw [hw] at e
    have hfw : (o.writable g r).focus = o.focus := focus_writable o g r
    have hfv : ((o.writable g r).sysPut k g (sysLane (s.sc sp f)) r v).focus = o.focus := (focus_sysPut ..).trans hfw
    have hl : sysLane (s.sc sp f) < 64 := Nat.mod_lt _ (by decide)
    have hpc := (finish_movedOn ((o.writable g r).sysPut k g (sysLane (s.sc sp f)) r v)).pc
    refine ⟨_, e, ?_, fun j hj hl => ?_, ?_, ?_⟩
    · show (State.finish _).focus.done = true
      rw [State.finish, focus_moveOn]
    · have := hpc j hj (by rw [hfv, hf]; exact hl)
      rw [State.mine, hfv] at this
      rw [this, hf]
    · have h1 := onlySys_sysPut (o.writable g r) hx g hl v
      rw [hfw, hcore] at h1
      exact onlySys_trans h1 (hfv.trans hfw.symm) (onlySys_finish _ _ g)
    · have := written_sysPut (u := o.writable g r) (g := g) hx hl hb
      rw [hfw, hf] at this
      exact this

/-- Settles O45: a write that must wait leaves its gang waiting with it; any other changes the register that its number names, in the gang that it
names, once the recipes of that register are settled. -/
theorem systemRegisterWrites : Obligations.SystemRegisterWrites := by
  unfold Obligations.SystemRegisterWrites
  intro f sp s r hsp x c b k g lane own ns hat hx hiss hmon hwlen hother hcauses o hoat hoa hob hoc hb u v
  obtain ⟨hpends, hmade⟩ := systemRegisterWrites_holds f sp s r hsp hat hx hiss hmon hwlen hother hcauses hoat hoa hob hoc hb
  refine ⟨hpends, fun hp hrows => ?_⟩
  obtain ⟨t, ht, hdone, hpc, honly, hw⟩ := hmade hp hrows
  have hu : o.writable g r = u := by
    obtain ⟨y, hf⟩ := focus_operands s sp f [] (if own then r.vec else []) (if own then r.sca else []) []
    unfold State.writable
    rw [show o.focus = _ from hf]
  rw [hu] at honly hw
  obtain ⟨w1, w2, w3, w4, w5, w6, w7, w8, w9, w10, w11, w12, w13⟩ := hw
  exact ⟨t, ht, hdone, hpc, honly, w1, w2, w3, w4, w5, w6, w7, w8, w9, w10, w11, w12, w13⟩

end Sys2Proof.Machine

end

section
/-! SUPPORT. Bounds of a core that pass: holds, parked lanes, full-empty words and hints. -/

namespace Sys2Proof.Machine

open Sys2Proof.Claims

/-! ### What remains where only gangs and latches change -/

/-- From `s` to `t` gangs, latches and the focus alone have changed. -/
structure GangsLatches (s t : State) : Prop where
  rest : t = { s with cores := t.cores, focus := t.focus }
  core : ∀ c, (t.core c).others = (s.core c).others

theorem GangsLatches.refl (s : State) : GangsLatches s s := ⟨rfl, fun _ => rfl⟩

theorem GangsLatches.trans {s t u : State} (h : GangsLatches s t) (h' : GangsLatches t u) : GangsLatches s u :=
  ⟨by rw [h'.rest, h.rest], fun c => (h'.core c).trans (h.core c)⟩

theorem gangsLatches_foldl {α : Type} {f : State → α → State} (hf : ∀ s a, GangsLatches s (f s a)) (l : List α) (s : State) :
    GangsLatches s (l.foldl f s) := by
  induction l generalizing s with
  | nil => exact .refl s
  | cons a l ih => exact (hf s a).trans (ih _)

theorem gangsLatches_modCore (s : State) (c : Nat) {f : CoreSt → CoreSt} (h : (f (s.core c)).others = (s.core c).others) :
    GangsLatches s (s.modCore c f) := by
  refine ⟨rfl, fun d => ?_⟩
  by_cases hd : d = c
  · rw [hd, core_modCore_same, h]
  · rw [core_modCore_other _ _ hd]

theorem gangsLatches_modGang (s : State) (c g : Nat) (f : Gang → Gang) : GangsLatches s (s.modGang c g f) :=
  gangsLatches_modCore s c (f := fun k => { k with gangs := k.gangs.put g (f (s.gang c g)) }) rfl

theorem gangsLatches_modMe (s : State) (f : Gang → Gang) : GangsLatches s (s.modMe f) := gangsLatches_modGang ..

theorem gangsLatches_focus (s : State) (x : Focus) : GangsLatches s { s with focus := x } := ⟨rfl, fun _ => rfl⟩

theorem gangsLatches_setLatch (s : State) (l : Nat) (v : List (Nat × DWord)) (x : Option DWord) : GangsLatches s (s.setLatch l v x) :=
  gangsLatches_modCore s _ rfl

theorem gangsLatches_wrVAt (s : State) (f : Fields) (r : Nat) (wide : Bool) (ex zero : Mask) (val : Nat → Nat) :
    GangsLatches s (s.wrVAt f r wide ex zero val) := by
  unfold State.wrVAt
  simp only []
  split
  · exact gangsLatches_setLatch ..
  · exact (gangsLatches_setLatch ..).trans (gangsLatches_modMe ..)

theorem gangsLatches_wrS (s : State) (f : Fields) (v : DWord) : GangsLatches s (s.wrS f v) := by
  unfold State.wrS
  simp only []
  split
  · exact gangsLatches_setLatch ..
  · exact (gangsLatches_setLatch ..).trans (gangsLatches_modMe ..)

theorem gangsLatches_lateLatch (s before : State) : GangsLatches s (s.lateLatch before) := by
  unfold State.lateLatch
  split
  · exact .refl s
  · exact gangsLatches_modCore s _ rfl

theorem gangsLatches_finish (s : State) : GangsLatches s s.finish := by
  refine ⟨finish_rest s, fun c => ?_⟩
  obtain ⟨x, hx⟩ := core_finish s c
  rw [hx]
  rfl

theorem gangsLatches_endWait (s : State) (c g : Nat) (w : Wait) : GangsLatches s (s.endWait c g w) :=
  (gangsLatches_focus s _).trans (gangsLatches_modGang ..)

theorem gangsLatches_feResult (s : State) (f : Fields) (w : Wait) : GangsLatches s (s.feResult f w) := by
  have h (t : State) (ht : GangsLatches s t) : GangsLatches s (t.lateLatch s).finish :=
    ht.trans ((gangsLatches_lateLatch t s).trans (gangsLatches_finish _))
  refine h _ ?_
  split
  · split
    · exact gangsLatches_wrVAt ..
    · exact gangsLatches_wrVAt ..
  · split
    · exact gangsLatches_wrVAt ..
    · exact .refl s

theorem gangsLatches_feSettle (s : State) (c g : Nat) : GangsLatches s (s.feSettle c g) := by
  refine gangsLatches_foldl (fun s w => ?_) _ s
  split
  · split
    · exact (gangsLatches_endWait s c g w).trans ((gangsLatches_feResult _ _ w).trans (gangsLatches_focus _ _))
    · exact .refl s
  · exact .refl s

section
variable {s t : State} (h : GangsLatches s t)
include h

theorem GangsLatches.dram : t.dram = s.dram := by rw [h.rest]

theorem GangsLatches.spad (c : Nat) : (t.core c).spad = (s.core c).spad :=
  (congrArg (fun k : CoreSt => k.spad) (h.core c) :)

theorem GangsLatches.spadFE (c : Nat) : (t.core c).spadFE = (s.core c).spadFE :=
  (congrArg (fun k : CoreSt => k.spadFE) (h.core c) :)

theorem GangsLatches.feWait (c : Nat) : (t.core c).feWait = (s.core c).feWait :=
  (congrArg (fun k : CoreSt => k.feWait) (h.core c) :)

end

/-! ### Holds (R135) -/

theorem holdTimeout_ends {c i : Nat} {h : Hold} {s : State} (hh : (s.core c).holds.get none i = some h) (hr : s.runs c = true)
    (ht : h.since + 32 ≤ s.cycles (clusterOf c)) :
    ∃ t, exec (.holdTimeout c i) s = .next t ∧ (t.core c).holds.get none i = none ∧ (t.core c).gangs = (s.core c).gangs ∧
      (t.core c).latches = (s.core c).latches := by
  refine ⟨s.setHold c i none, ?_, ?_, ?_, ?_⟩
  · show execHoldTimeout c i s = _
    unfold execHoldTimeout
    rw [hh]
    exact if_pos ⟨hr, ht⟩
  · unfold State.setHold
    rw [core_modCore_same, SMap.get_put_same]
  · unfold State.setHold
    rw [core_modCore_same]
  · unfold State.setHold
    rw [core_modCore_same]

/-! ### Parked lanes (R132) -/

/-- A bound that passes releases a parked lane behind its `regang`, its stamp as it was. -/
theorem lane_release_timeout (g : Gang) {j : Nat} (hj : j < 64) (he : (g.lane j).exited = false) (hp : (g.lane j).parked = true) :
    (g.release true).lane j = { g.lane j with pc := (g.lane j).pc + 8, parked := false, parkAny := false } := by
  have hm : j ∈ (List.range 64).filter fun j => (g.lane j).parked && !(g.lane j).exited :=
    List.mem_filter.mpr ⟨List.mem_range.mpr hj, by rw [hp, he]; rfl⟩
  unfold Gang.release
  refine (SMap.get_putAll_map _ _ _ (fun j => j) _ j hm fun i _ e => by rw [show i = j from e]).trans ?_
  simp

theorem regangTimeout_releases {c g a : Nat} {s : State} (hp : (s.gang c g).parkAt = some a) (hr : s.runs c = true)
    (ht : a + 4096 ≤ s.cycles (clusterOf c)) :
    ∃ t, exec (.regangTimeout c g) s = .next t ∧ (t.gang c g).parkAt = none ∧
      ∀ j, j < 64 → ((s.gang c g).lane j).exited = false → ((s.gang c g).lane j).parked = true →
        ((t.gang c g).lane j).parked = false ∧ ((t.gang c g).lane j).pc = ((s.gang c g).lane j).pc + 8 ∧
          ((t.gang c g).lane j).stamp = ((s.gang c g).lane j).stamp := by
  refine ⟨s.modGang c g fun x => x.release true, ?_, ?_, fun j hj he hk => ?_⟩
  · show execRegangTimeout c g s = _
    unfold execRegangTimeout
    rw [hp]
    exact if_pos ⟨hr, ht⟩
  · rw [gang_modGang_same]
    rfl
  · rw [gang_modGang_same, lane_release_timeout _ hj he hk]
    exact ⟨rfl, rfl, rfl⟩

/-! ### Full-empty bounds (R404) -/

/-- The state in which a lane has given up its full-empty word. -/
def State.givenUp (s : State) (c g j : Nat) (q : FeWaiter) : State :=
  (s.modCore c (·.feDrop q)).modGang c g fun x => { x with waits := x.waits.map (Wait.giveUp j) }

theorem exec_ldfeTimeout {c g j b : Nat} {q : FeWaiter} {s : State} (hq : (s.core c).feWait.find? (fun w => w.slot == g && w.lane == j) = some q)
    (hb : q.bound = some b) (hr : s.runs c = true) (ht : q.since + b ≤ s.cycles (clusterOf c)) :
    exec (.ldfeTimeout c g j) s = .next ((s.givenUp c g j q).feSettle c g) := by
  show execLdfeTimeout c g j s = _
  unfold execLdfeTimeout
  rw [hq]
  simp only [hb]
  exact if_pos ⟨hr, ht⟩

theorem core_givenUp (s : State) (c g j : Nat) (q : FeWaiter) : ((s.givenUp c g j q).core c).others = ((s.core c).feDrop q).others := by
  obtain ⟨x, hx⟩ := core_modGang (s.modCore c (·.feDrop q)) c g (fun x => { x with waits := x.waits.map (Wait.giveUp j) }) c
  unfold State.givenUp
  rw [hx, core_modCore_same]
  rfl

theorem ldfeTimeout_drops {c g j b : Nat} {q : FeWaiter} {s : State} (hq : (s.core c).feWait.find? (fun w => w.slot == g && w.lane == j) = some q)
    (hb : q.bound = some b) (hr : s.runs c = true) (ht : q.since + b ≤ s.cycles (clusterOf c)) :
    ∃ t, exec (.ldfeTimeout c g j) s = .next t ∧ (∀ x ∈ (t.core c).feWait, ¬(x.slot = g ∧ x.lane = j ∧ x.granule = q.granule)) ∧
      (t.core c).spad = (s.core c).spad ∧ (t.core c).spadFE = (s.core c).spadFE ∧ t.dram = s.dram := by
  have hs := gangsLatches_feSettle (s.givenUp c g j q) c g
  have hc := core_givenUp s c g j q
  have hslot := List.find?_some hq
  simp only [Bool.and_eq_true, beq_iff_eq] at hslot
  refine ⟨_, exec_ldfeTimeout hq hb hr ht, fun x hx => ?_, ?_, ?_, hs.dram⟩
  · rw [hs.feWait, show ((s.givenUp c g j q).core c).feWait = ((s.core c).feDrop q).feWait from
      (congrArg (fun k : CoreSt => k.feWait) hc :)] at hx
    have := (List.mem_filter.mp hx).2
    rintro ⟨h1, h2, h3⟩
    simp [h1, h2, h3, hslot.1, hslot.2] at this
  · rw [hs.spad]
    exact (congrArg (fun k : CoreSt => k.spad) hc :)
  · rw [hs.spadFE]
    exact (congrArg (fun k : CoreSt => k.spadFE) hc :)

end Sys2Proof.Machine

end

section
/-! SUPPORT. A wait that ends inside an instruction, and the full-empty load whose bound has passed (R404). -/

namespace Sys2Proof.Machine

open Sys2Proof.Claims

/-! ### Gangs that a change of their core leaves -/

theorem gang_of_gangs {s t : State} {c : Nat} (h : (s.core c).gangs = (t.core c).gangs) (g : Nat) : s.gang c g = t.gang c g := by
  unfold State.gang
  rw [h]

theorem gang_modCore (s : State) (c : Nat) {f : CoreSt → CoreSt} (h : ∀ k, (f k).gangs = k.gangs) (d e : Nat) :
    (s.modCore c f).gang d e = s.gang d e := by
  refine gang_of_gangs ?_ e
  by_cases hd : d = c
  · rw [hd, core_modCore_same, h]
  · rw [core_modCore_other _ _ hd]

/-! ### The end of a wait -/

/-- The focus of the group that waits. -/
def Wait.at (w : Wait) (c g : Nat) : Focus := { core := c, slot := g, lanes := w.lanes, pc := w.pc, len := w.len }

@[simp] theorem focus_endWait (s : State) (c g : Nat) (w : Wait) : (s.endWait c g w).focus = w.at c g := rfl

/-- A gang's only wait ends: it waits no more. -/
theorem me_endWait {c g : Nat} {w : Wait} {s : State} (h : (s.gang c g).waits = [w]) :
    (s.endWait c g w).gang c g = { s.gang c g with waits := [] } := by
  unfold State.endWait
  rw [gang_modGang_same]
  show { s.gang c g with waits := (s.gang c g).waits.filter (· != w) } = _
  rw [h]
  simp

/-- The gang under way after it moved on: the waits of its other groups stay. -/
theorem mine_moveOn (s : State) (next : Nat → DWord × Nat) : ∃ r, s.mine (s.moveOn next) = { s.me with
    replay := r, waits := s.me.waits.filter fun w => w.lanes &&& s.focus.lanes == 0, lanes := nextLanes s next } := by
  obtain ⟨r, hr⟩ := me_popReplay s
  refine ⟨r, ?_⟩
  have h := me_modMe s.popReplay.issued fun g =>
    { g with
      waits := g.waits.filter fun w => w.lanes &&& s.focus.lanes == 0
      lanes := g.lanes.putAll ((lanesOf s.focus.lanes).map fun j =>
        (j, { g.lane j with pc := (next j).1, stamp := (g.lane j).stamp + BitVec.ofNat 32 (next j).2 })) }
  simp only [focus_issued, focus_popReplay, me_issued, hr] at h
  unfold State.moveOn
  simp only [focus_issued, focus_popReplay]
  exact h

/-- What holds once the instruction of a gang's only wait has ended: no wait, and the group at the next instruction. -/
structure WaitEnded (c g : Nat) (w : Wait) (t : State) : Prop where
  waits : (t.gang c g).waits = []
  pc : ∀ j, j < 64 → w.lanes.getLsbD j = true → ((t.gang c g).lane j).pc = w.pc + BitVec.ofNat 64 w.len

theorem WaitEnded.of_gang {c g : Nat} {w : Wait} {t u : State} (h : WaitEnded c g w t) (e : u.gang c g = t.gang c g) : WaitEnded c g w u :=
  ⟨by rw [e, h.waits], fun j hj hl => by rw [e, h.pc j hj hl]⟩

theorem waitEnded_finish {c g : Nat} {w : Wait} {s : State} (hf : s.focus = w.at c g) (hw : (s.gang c g).waits = []) :
    WaitEnded c g w s.finish := by
  obtain ⟨r, h⟩ := mine_moveOn s fun _ => (s.pcNext, 0)
  have hm := finish_movedOn s
  have hw : s.me.waits = [] := by rw [State.me, hf]; exact hw
  rw [hw] at h
  refine ⟨?_, fun j hj hl => ?_⟩
  · have := congrArg Gang.waits h
    rw [State.mine, hf] at this
    exact this
  · have := hm.pc j hj (by rw [hf]; exact hl)
    rw [State.mine, hf] at this
    exact this

/-! ### A vector result written from a register -/

theorem focus_wrVAt (s : State) (f : Fields) (r : Nat) (wide : Bool) (ex zero : Mask) (val : Nat → Nat) :
    (s.wrVAt f r wide ex zero val).focus = s.focus := by
  unfold State.wrVAt
  simp only
  split <;> rfl

theorem me_wrVAt (s : State) (f : Fields) (r : Nat) (wide : Bool) (ex zero : Mask) (val : Nat → Nat) :
    (s.wrVAt f r wide ex zero val).me = if f.nwb then s.me else s.me.setV (vecWrites r wide (vecVals wide ex zero val)) := by
  unfold State.me
  rw [focus_wrVAt]
  unfold State.wrVAt
  simp only
  split
  · exact gang_setLatch ..
  · have := me_modMe (s.setLatch f.lat.toNat ((vecVals wide ex zero val).map fun p => (p.1, BitVec.ofNat 64 p.2)) none) fun g =>
      g.setV (vecWrites r wide (vecVals wide ex zero val))
    rw [me_setLatch] at this
    exact this

theorem vecVals_value_of_not_zero {wide : Bool} {ex zero : Mask} {val : Nat → Nat} {j : Nat} (hz : zero.getLsbD j = false)
    {p : Nat × Nat} (h : p ∈ vecVals wide ex zero val) (hp : p.1 = j) : p.2 = val j % 2 ^ (if wide then 64 else 32) := by
  rcases List.mem_append.mp h with h | h <;> obtain ⟨i, hi, rfl⟩ := List.mem_map.mp h <;> obtain rfl : i = j := hp
  · rfl
  · have := (mem_lanesOf.mp hi).2
    rw [hz] at this
    exact absurd this (by decide)

section
variable {s : State} {f : Fields} {r : Nat} {ex zero : Mask} {val : Nat → Nat} {j : Nat} (hn : f.nwb = false) (hj : j < 64)
  (hex : ex.getLsbD j = true) (hz : zero.getLsbD j = false)
include hn hj hex hz

/-- A vector result that PZ does not zero: a lane's register holds its value. -/
theorem vreg_wrVAt : (s.wrVAt f r false ex zero val).me.vreg r j = BitVec.ofNat 32 (val j % 2 ^ 32) := by
  rw [me_wrVAt, if_neg (by simp [hn])]
  refine vreg_setV_of _ _ _ _ _ hj (fun q hq => ?_) ?_ fun q hq _ h2 => ?_
  · obtain ⟨x, hx, e, -⟩ := mem_vecWrites hq
    rw [e]
    exact (vecVals_lane hx).1
  · obtain ⟨p, hp, e⟩ := vecVals_mem (wide := false) (zero := zero) (val := val) hj (by rw [BitVec.getLsbD_or, hex, Bool.true_or])
    exact ⟨_, vecWrites_low hp, rfl, e⟩
  · obtain ⟨x, hx, e, h | h⟩ := mem_vecWrites hq
    · rw [h.2, vecVals_value_of_not_zero hz hx (by rw [← e, h2])]
      rfl
    · exact absurd h.1 (by decide)

/-- Of a 64-bit result the lower register holds the lower word and the next one the upper word. -/
theorem vreg_wrVAt_wide : (s.wrVAt f r true ex zero val).me.vreg r j = BitVec.ofNat 32 (val j % 2 ^ 64 % 2 ^ 32) ∧
    (s.wrVAt f r true ex zero val).me.vreg (r + 1) j = BitVec.ofNat 32 (val j % 2 ^ 64 / 2 ^ 32) := by
  obtain ⟨p, hp, he⟩ := vecVals_mem (wide := true) (zero := zero) (val := val) hj (by rw [BitVec.getLsbD_or, hex, Bool.true_or])
  have hl : ∀ q ∈ vecWrites r true (vecVals true ex zero val), q.2.1 < 64 := fun q hq => by
    obtain ⟨x, hx, e, -⟩ := mem_vecWrites hq
    rw [e]
    exact (vecVals_lane hx).1
  rw [me_wrVAt, if_neg (by simp [hn])]
  refine ⟨vreg_setV_of _ _ _ _ _ hj hl ⟨_, vecWrites_low hp, rfl, he⟩ fun q hq h1 h2 => ?_,
    vreg_setV_of _ _ _ _ _ hj hl ⟨_, vecWrites_high hp, rfl, he⟩ fun q hq h1 h2 => ?_⟩ <;>
    obtain ⟨x, hx, e, h | h⟩ := mem_vecWrites hq
  · rw [h.2, vecVals_value_of_not_zero hz hx (by rw [← e, h2])]
    rfl
  · omega
  · omega
  · rw [h.2.2, vecVals_value_of_not_zero hz hx (by rw [← e, h2])]
    rfl

end

/-- A register that no recipe entry has dropped reads as it stands. -/
theorem vval_of_not_dropped {s : State} {c : Nat} {g : Gang} {r : Nat} (h : g.droppedAs r = none) (j : Nat) : s.vval c g r j = (g.vreg r j).toNat := by
  unfold State.vval State.readV
  rw [h]

/-! ### The instruction of a full-empty wait ends (R404) -/

@[simp] theorem focus_lateLatch (s before : State) : (s.lateLatch before).focus = s.focus := by
  unfold State.lateLatch
  split <;> rfl

@[simp] theorem gang_lateLatch (s before : State) (c g : Nat) : (s.lateLatch before).gang c g = s.gang c g := by
  unfold State.lateLatch
  split
  · rfl
  · exact gang_modCore s _ (f := fun k => { k with latches := (before.core s.focus.core).latches }) (fun _ => rfl) c g

/-- The registers that a full-empty instruction writes as it ends. -/
def State.feRegs (s : State) (f : Fields) (w : Wait) : State :=
  if w.ldfe then
    if f.m58 then
      s.wrVAt f w.dst true w.ex w.zero fun j =>
        if w.done.getLsbD j then (w.got.get 0 j).toNat + 2 ^ 32
        else if f.nwb then (s.latchVec f.lat.toNat j).toNat % 2 ^ 32 else s.vval s.focus.core s.me w.dst j
    else s.wrVAt f w.dst false w.ex w.zero fun j => (w.got.get 0 j).toNat
  else if f.m58 then s.wrVAt f w.dst false w.ex w.zero fun j => if w.done.getLsbD j then 1 else 0
  else s

theorem feResult_eq (s : State) (f : Fields) (w : Wait) : s.feResult f w = ((s.feRegs f w).lateLatch s).finish := rfl

theorem focus_feRegs (s : State) (f : Fields) (w : Wait) : (s.feRegs f w).focus = s.focus := by
  unfold State.feRegs
  split <;> split
  · exact focus_wrVAt ..
  · exact focus_wrVAt ..
  · exact focus_wrVAt ..
  · rfl

theorem waits_wrVAt (s : State) (f : Fields) (r : Nat) (wide : Bool) (ex zero : Mask) (val : Nat → Nat) :
    (s.wrVAt f r wide ex zero val).me.waits = s.me.waits := by
  rw [me_wrVAt]
  split <;> rfl

theorem waits_feRegs (s : State) (f : Fields) (w : Wait) : (s.feRegs f w).me.waits = s.me.waits := by
  unfold State.feRegs
  split <;> split
  · exact waits_wrVAt ..
  · exact waits_wrVAt ..
  · exact waits_wrVAt ..
  · rfl

theorem me_eq_gang {s : State} {w : Wait} {c g : Nat} (h : s.focus = w.at c g) : s.me = s.gang c g := by
  rw [State.me, h]
  rfl

theorem waitEnded_feResult {c g : Nat} {w : Wait} {f : Fields} {s : State} (hf : s.focus = w.at c g) (hw : (s.gang c g).waits = []) :
    WaitEnded c g w (s.feResult f w) := by
  have h1 : (s.feRegs f w).focus = w.at c g := (focus_feRegs s f w).trans hf
  refine waitEnded_finish ((focus_lateLatch ..).trans h1) ?_
  show (((s.feRegs f w).lateLatch s).gang c g).waits = []
  rw [gang_lateLatch, ← me_eq_gang h1, waits_feRegs, me_eq_gang hf, hw]

theorem vreg_feResult {c g : Nat} {w : Wait} {f : Fields} {s : State} (hf : s.focus = w.at c g) (r j : Nat) :
    ((s.feResult f w).gang c g).vreg r j = (s.feRegs f w).me.vreg r j := by
  obtain ⟨x, y, z, h⟩ := gang_finish ((s.feRegs f w).lateLatch s) c g
  rw [feResult_eq, h, gang_lateLatch, me_eq_gang ((focus_feRegs s f w).trans hf)]
  rfl

section
variable {c g j : Nat} {w : Wait} {f : Fields} {s : State} (hf : s.focus = w.at c g) (hm : f.m58 = true) (hn : f.nwb = false) (hj : j < 64)
  (hex : w.ex.getLsbD j = true) (hd : w.done.getLsbD j = false) (hz : w.zero.getLsbD j = false)
include hf hm hn hj hex hd hz

/-- A lane of `ldfe.tmo` that gave up keeps its word, and its flag is 0. -/
theorem feResult_ldfe_givenUp (hl : w.ldfe = true) (hr : (s.gang c g).droppedAs w.dst = none) :
    ((s.feResult f w).gang c g).vreg (w.dst + 1) j = 0 ∧ ((s.feResult f w).gang c g).vreg w.dst j = (s.gang c g).vreg w.dst j := by
  have hb := ((s.gang c g).vreg w.dst j).isLt
  obtain ⟨h1, h2⟩ := vreg_wrVAt_wide (s := s) (r := w.dst) (val := fun j => if w.done.getLsbD j then (w.got.get 0 j).toNat + 2 ^ 32
    else if f.nwb then (s.latchVec f.lat.toNat j).toNat % 2 ^ 32 else s.vval s.focus.core s.me w.dst j) hn hj hex hz
  have hv : s.vval s.focus.core s.me w.dst j = ((s.gang c g).vreg w.dst j).toNat := by
    rw [me_eq_gang hf]
    exact vval_of_not_dropped hr j
  rw [vreg_feResult hf, vreg_feResult hf]
  unfold State.feRegs
  rw [if_pos hl, if_pos hm]
  refine ⟨h2.trans ?_, h1.trans ?_⟩ <;> simp only [hd, hn, Bool.false_eq_true, if_false, hv]
  · rw [show ((s.gang c g).vreg w.dst j).toNat % 2 ^ 64 / 2 ^ 32 = 0 by omega]
    rfl
  · rw [show ((s.gang c g).vreg w.dst j).toNat % 2 ^ 64 % 2 ^ 32 = ((s.gang c g).vreg w.dst j).toNat by omega]
    simp

/-- A lane of `stfe.tmo` that gave up has the flag 0. -/
theorem feResult_stfe_givenUp (hl : w.ldfe = false) : ((s.feResult f w).gang c g).vreg w.dst j = 0 := by
  rw [vreg_feResult hf]
  unfold State.feRegs
  rw [if_neg (by simp [hl]), if_pos hm, vreg_wrVAt hn hj hex hz, hd]
  rfl

end

/-! ### The bound passes (R404) -/

theorem gang_feSettle_ended {c g : Nat} {w : Wait} {f : Fields} {s : State} (hw : (s.gang c g).waits = [w]) (hf : w.fe? = some f)
    (he : w.ex &&& ~~~(w.done ||| w.timedOut) = 0) : (s.feSettle c g).gang c g = ((s.endWait c g w).feResult f w).gang c g := by
  unfold State.feSettle
  rw [hw]
  simp only [List.foldl_cons, List.foldl_nil, hf, he, beq_self_eq_true, if_true]
  rfl

theorem getLsbD_laneBit {l : Nat} (j : Nat) (hl : l < 64) : (laneBit j).getLsbD l = decide (l = j) := by
  unfold laneBit
  rw [BitVec.getLsbD_shiftLeft, show ((1 : Mask).getLsbD (l - j)) = decide (l - j = 0) by
    rw [show (1 : Mask) = 1#64 from rfl, BitVec.getLsbD_one]
    simp]
  by_cases h : l = j
  · simp [← h, hl]
  · have : l < j ∨ l - j ≠ 0 := by omega
    rcases this with h' | h' <;> simp [h, h']

/-- No lane is left once the last has given up. -/
theorem served_giveUp {ex done out : Mask} {j : Nat}
    (h : ∀ l, l < 64 → ex.getLsbD l = true → l ≠ j → done.getLsbD l = true ∨ out.getLsbD l = true) :
    ex &&& ~~~(done ||| (out ||| laneBit j)) = 0 := by
  apply BitVec.eq_of_getLsbD_eq
  intro l hl
  rw [BitVec.getLsbD_and, BitVec.getLsbD_not, BitVec.getLsbD_or, BitVec.getLsbD_or, getLsbD_laneBit j hl]
  by_cases hlj : l = j
  · simp [hlj]
  · cases hx : ex.getLsbD l with
    | false => simp
    | true => rcases h l hl hx hlj with h | h <;> simp [h]

theorem ldfeTimeout_completes {c g j b : Nat} {q : FeWaiter} {w : Wait} {f : Fields} {s : State}
    (hq : (s.core c).feWait.find? (fun y => y.slot == g && y.lane == j) = some q) (hb : q.bound = some b) (hr : s.runs c = true)
    (ht : q.since + b ≤ s.cycles (clusterOf c)) (hj : j < 64) (hw : (s.gang c g).waits = [w]) (hf : w.fe? = some f) (hm : f.m58 = true)
    (hn : f.nwb = false) (hex : w.ex.getLsbD j = true) (hd : w.done.getLsbD j = false) (hz : w.zero.getLsbD j = false)
    (hl : ∀ l, l < 64 → w.ex.getLsbD l = true → l ≠ j → w.done.getLsbD l = true ∨ w.timedOut.getLsbD l = true)
    (hdrop : (s.gang c g).droppedAs w.dst = none) :
    ∃ t, exec (.ldfeTimeout c g j) s = .next t ∧ (t.gang c g).waits = [] ∧
      (w.ldfe = true → (t.gang c g).vreg (w.dst + 1) j = 0 ∧ (t.gang c g).vreg w.dst j = (s.gang c g).vreg w.dst j) ∧
      (w.ldfe = false → (t.gang c g).vreg w.dst j = 0) ∧
      ∀ l, l < 64 → w.lanes.getLsbD l = true → ((t.gang c g).lane l).pc = w.pc + BitVec.ofNat 64 w.len := by
  have hv : w.giveUp j = { w with timedOut := w.timedOut ||| laneBit j } := by
    unfold Wait.giveUp
    rw [hf, hex]
    rfl
  have hg : (s.givenUp c g j q).gang c g = { s.gang c g with waits := [w.giveUp j] } := by
    unfold State.givenUp
    rw [gang_modGang_same, gang_modCore s c (f := fun k => k.feDrop q) (fun _ => rfl), hw]
    rfl
  have hgw : ((s.givenUp c g j q).gang c g).waits = [w.giveUp j] := by rw [hg]
  have hs := gang_feSettle_ended hgw (f := f) (by rw [hv]; exact hf) (by rw [hv]; exact served_giveUp hl)
  have hm' := me_endWait hgw
  rw [hg] at hm'
  have hE := waitEnded_feResult (f := f) (focus_endWait (s.givenUp c g j q) c g (w.giveUp j)) (by rw [hm'])
  rw [hv] at hs hm' hE
  refine ⟨_, exec_ldfeTimeout hq hb hr ht, by rw [hs, hE.waits], fun h => ?_, fun h => ?_, fun l hl' hlanes => by rw [hs]; exact hE.pc l hl' hlanes⟩
  · have := feResult_ldfe_givenUp (w := { w with timedOut := w.timedOut ||| laneBit j }) (focus_endWait (s.givenUp c g j q) c g _) hm hn hj hex
      hd hz h (by rw [hm']; exact hdrop)
    rw [hm'] at this
    rw [hs]
    exact this
  · rw [hs]
    exact feResult_stfe_givenUp (w := { w with timedOut := w.timedOut ||| laneBit j }) (focus_endWait (s.givenUp c g j q) c g _) hm hn hj hex hd hz h

end Sys2Proof.Machine

end

section
/-! SUPPORT. A barrier wait that looks at its object again, and its bound (R414). -/

namespace Sys2Proof.Machine

open Sys2Proof.Claims

/-! ### A scalar result that comes after a wait -/

/-- The gang's issue slot has not passed to another gang: its latches are its own. -/
def State.ownsLatches (s : State) (c g : Nat) : Prop := g = handlerSlot ∨ (s.core c).lastIssue.get none (g % 4) = some g

/-- A scalar instruction that waited ends with its result; `z` is the state in which it goes on. -/
def State.lateScalar (y z : State) (f : Fields) (r : DWord) : State := ((y.wrS f r).lateLatch z).finish

/-- How the instruction of a barrier wait of `s` ends in `t`: `o` is the state in which it goes on. -/
structure BarrierEnds (s o t : State) (c g : Nat) (w : Wait) (f : Fields) (r : DWord) : Prop where
  ended : WaitEnded c g w t
  reg : f.nwb = false → f.dst.toNat ≠ 0 → (t.gang c g).sreg f.dst.toNat = r
  owned : s.ownsLatches c g → o.ScalarResult t f r
  passed : ¬ s.ownsLatches c g → (t.core c).latches = (s.core c).latches

theorem gangsLatches_lateScalar (y z : State) (f : Fields) (r : DWord) : GangsLatches y (y.lateScalar z f r) :=
  (gangsLatches_wrS y f r).trans ((gangsLatches_lateLatch _ z).trans (gangsLatches_finish _))

theorem waits_wrS (s : State) (f : Fields) (r : DWord) : (s.wrS f r).me.waits = s.me.waits := by
  rw [me_wrS]
  split
  · rfl
  · unfold Gang.setS
    split <;> rfl

theorem latches_lateLatch {s before : State} (h : ¬ before.ownsLatches s.focus.core s.focus.slot) :
    ((s.lateLatch before).core s.focus.core).latches = (before.core s.focus.core).latches := by
  unfold State.lateLatch
  refine (congrArg (fun x : State => (x.core s.focus.core).latches) (if_neg h)).trans ?_
  rw [core_modCore_same]

section
variable {s y z : State} {c g : Nat} {w : Wait} {f : Fields} (hf : y.focus = w.at c g) (hg : (y.gang c g).waits = [])
include hf hg

theorem waitEnded_lateScalar (r : DWord) : WaitEnded c g w (y.lateScalar z f r) := by
  have h1 : (y.wrS f r).focus = w.at c g := (focus_wrS y f r).trans hf
  refine waitEnded_finish ((focus_lateLatch ..).trans h1) ?_
  rw [gang_lateLatch, ← me_eq_gang h1, waits_wrS, me_eq_gang hf, hg]

/-- The end of a barrier wait, where `z` has the latches of `s`. -/
theorem barrierEnds_lateScalar {o : State} (ho : o.focus = w.at c g) (hi : (z.core c).lastIssue = (s.core c).lastIssue)
    (hl : (z.core c).latches = (s.core c).latches) (r : DWord) : BarrierEnds s o (y.lateScalar z f r) c g w f r := by
  have h1 : (y.wrS f r).focus = w.at c g := (focus_wrS y f r).trans hf
  have hown : z.ownsLatches c g ↔ s.ownsLatches c g := by
    unfold State.ownsLatches
    rw [hi]
  refine ⟨waitEnded_lateScalar hf hg r, fun hn hd => ?_, fun h => ?_, fun h => ?_⟩
  · obtain ⟨p, q, l, e⟩ := gang_finish ((y.wrS f r).lateLatch z) c g
    have hs : ((y.lateScalar z f r).gang c g).sreg f.dst.toNat = (y.wrS f r).me.sreg f.dst.toNat := by
      unfold State.lateScalar
      rw [e, gang_lateLatch, me_eq_gang h1]
      rfl
    rw [hs, me_wrS, if_neg (by simp [hn])]
    show (y.me.setS f.dst.toNat r).sreg f.dst.toNat = r
    rw [sreg_setS, if_pos ⟨rfl, hd⟩]
  · have hz : (y.wrS f r).lateLatch z = y.wrS f r := by
      unfold State.lateLatch
      rw [h1]
      exact if_pos (hown.mpr h)
    have hs := (scalar_done y f r).2.1
    unfold State.lateScalar
    rw [hz]
    have e : o.focus = y.focus := ho.trans hf.symm
    exact ⟨fun a b => by rw [State.mine, e]; exact hs.reg a b, rfl, by rw [State.myLatches, e]; exact hs.latch,
      by rw [State.myLatches, e]; exact hs.owner⟩
  · have h2 := latches_lateLatch (s := y.wrS f r) (before := z) (by rw [h1]; exact fun k => h (hown.mp k))
    rw [h1] at h2
    exact (latches_moveOn ..).trans (h2.trans hl)

end

/-! ### Looks at an object -/

@[simp] theorem offPath_barWalk (s : State) (c : Nat) (w : Wait) (b : BarAt) : (s.barWalk c w b).offPath = s.offPath := by
  unfold State.barWalk
  simp

@[simp] theorem offPath_barLook (s : State) (c : Nat) (e : BarEntry) : (s.barLook c e).offPath = s.offPath := by simp [State.barLook]

theorem barWalk_spad {s : State} {c : Nat} {w : Wait} {b : BarAt} (h : b.spad = true) : s.barWalk c w b = s := by
  unfold State.barWalk
  exact if_pos h

theorem barLook_spad {s : State} {c : Nat} {b : BarAt} (h : b.spad = true) : s.barLook c b.entry = s := if_pos h

theorem barNow_spad {s : State} {c : Nat} {w : Wait} {b b' : BarAt} (h : b.spad = true) (hn : s.barNow c w b = some (.ok b')) : b' = b := by
  unfold State.barNow at hn
  simp only [h, if_true] at hn
  exact (Except.ok.inj (Option.some.inj hn)).symm

/-- The state that goes on after a look, its object entered in the block's list. -/
def State.barEntered (s : State) (b : BarAt) : State := if s.barListFull b then s else s.barEnter b

theorem barEntered_blocks (s : State) (b : BarAt) : ∃ x, s.barEntered b = { s with blocks := x } := by
  unfold State.barEntered State.barEnter
  split
  · exact ⟨s.blocks, rfl⟩
  · split
    · exact ⟨s.blocks, rfl⟩
    · exact ⟨_, rfl⟩

/-- The state of a waiter that looks on. -/
def State.barStays (s : State) (c g : Nat) (w : Wait) (b : BarAt) : State := { (s.focusWait c g w).barWalk c w b with focus := s.focus }

/-- The state of a waiter whose instruction goes on. -/
def State.barGoes (s : State) (c g : Nat) (w : Wait) (b : BarAt) : State := (s.endWait c g w).barWalk c w b

theorem offPath_barStays (s : State) (c g : Nat) (w : Wait) (b : BarAt) : (s.barStays c g w b).offPath = s.offPath :=
  congrArg (fun x : State × (Nat → CoreSt) × (Nat → Cluster) => ({ x.1 with focus := s.focus }, x.2)) (offPath_barWalk (s.focusWait c g w) c w b)

theorem barStays_spad {s : State} {c g : Nat} {w : Wait} {b : BarAt} (h : b.spad = true) : s.barStays c g w b = s := by
  unfold State.barStays
  rw [barWalk_spad h]
  rfl

section
variable {s : State} {c g : Nat} {w : Wait} {f : Fields} {b b' : BarAt} {p : Nat} (hb : w.barrier = some (f, b, p))
include hb

/-- A look that finds nothing yet. -/
theorem barAgain_unseen (h : (s.endWait c g w).barNow c w b = none ∨
    ∃ b', (s.endWait c g w).barNow c w b = some (.ok b') ∧ (s.barGoes c g w b).barOpen b' false = false) :
    s.barAgain c g w = s.barStays c g w b := by
  unfold State.barAgain
  rw [hb]
  simp only
  rcases h with h | ⟨b', h, ho⟩
  · rw [h]
    rfl
  · rw [h]
    have ho : ((s.endWait c g w).barWalk c w b).barOpen b' false = false := ho
    exact if_pos (by rw [ho]; rfl)

section
variable (h : (s.endWait c g w).barNow c w b = some (.ok b')) (ho : (s.barGoes c g w b).barOpen b' false = true)
  (hr : (s.barGoes c g w b).barReach b' false ((s.barGoes c g w b).orderOf f) = none)
include h ho hr

/-- A look at an object within reach. -/
theorem barAgain_seen : s.barAgain c g w =
    if barBad ((s.barGoes c g w b).barRead c b'.entry) then
      (((s.barGoes c g w b).barEntered b').barLook c b'.entry).barWaitTrap c g w cBarrierBroken
    else if barPassed ((s.barGoes c g w b).barRead c b'.entry) p then
      (((s.barGoes c g w b).barEntered b').barLook c b'.entry).lateScalar ((s.barGoes c g w b).barEntered b') f 0
    else (s.barStays c g w b).barLook c b'.entry := by
  unfold State.barAgain
  rw [hb]
  simp only
  rw [h]
  have ho : ((s.endWait c g w).barWalk c w b).barOpen b' false = true := ho
  have hr : ((s.endWait c g w).barWalk c w b).barReach b' false (((s.endWait c g w).barWalk c w b).orderOf f) = none := hr
  refine (if_neg (by rw [ho]; decide)).trans ?_
  rw [hr]
  rfl

end

end

theorem exec_barrierWaitRecheck {s : State} {c g : Nat} {w : Wait} (hc : c < nCores) (hw : (s.gang c g).waits = [w]) :
    exec (.barrierWaitRecheck c g) s = .next { s.barAgain c g w with focus := s.focus } := by
  show execBarrierWaitRecheck c g s = _
  unfold execBarrierWaitRecheck
  rw [if_neg (by omega), hw]
  rfl

theorem exec_barrierWaitTimeout {s : State} {c g : Nat} {w : Wait} (hr : s.runs c = true) (hw : (s.gang c g).waits = [w]) :
    exec (.barrierWaitTimeout c g) s = .next { s.barTimeout c g w with focus := s.focus } := by
  show execBarrierWaitTimeout c g s = _
  unfold execBarrierWaitTimeout
  rw [if_neg (by simp [hr]), hw]
  rfl

/-! ### The state in which a barrier instruction goes on -/

theorem core_endWait (s : State) (c g : Nat) (w : Wait) (d : Nat) : ∃ x, (s.endWait c g w).core d = { s.core d with gangs := x } :=
  core_modGang (s.focusWait c g w) c g _ d

/-- A state in which the instruction of the wait `w` of `s` goes on: the gang waits no more, and its core has the same latches and work. -/
structure GoesOn (s y : State) (c g : Nat) (w : Wait) : Prop where
  focus : y.focus = w.at c g
  gang : y.gang c g = { s.gang c g with waits := [] }
  core : ∃ x c1 c2 c3 c4, y.core c = { s.core c with gangs := x, coh := c1, l1 := c2, ties := c3, kcache := c4 }

section
variable {s : State} {c g : Nat} {w : Wait}

theorem goesOn_endWait (hw : (s.gang c g).waits = [w]) : GoesOn s (s.endWait c g w) c g w :=
  ⟨focus_endWait s c g w, me_endWait hw, (core_endWait s c g w c).imp fun _ h => ⟨_, _, _, _, h⟩⟩

section
variable {y z : State} (h : GoesOn s y c g w)
include h

theorem GoesOn.of_offPath (e : z.offPath = y.offPath) : GoesOn s z c g w := by
  obtain ⟨x, c1, c2, c3, c4, hc⟩ := h.core
  have hz := core_eq_of_offPath e c
  rw [hc] at hz
  exact ⟨(focus_of_offPath e).trans h.focus, (gang_of_offPath e c g).trans h.gang, _, _, _, _, _, hz⟩

theorem GoesOn.barEntered (b : BarAt) : GoesOn s (y.barEntered b) c g w := by
  obtain ⟨x, hx⟩ := barEntered_blocks y b
  rw [hx]
  exact ⟨h.focus, h.gang, h.core⟩

theorem GoesOn.waits : (y.gang c g).waits = [] := by rw [h.gang]

theorem GoesOn.latches : (y.core c).latches = (s.core c).latches := by
  obtain ⟨x, c1, c2, c3, c4, hc⟩ := h.core
  rw [hc]

theorem GoesOn.lastIssue : (y.core c).lastIssue = (s.core c).lastIssue := by
  obtain ⟨x, c1, c2, c3, c4, hc⟩ := h.core
  rw [hc]

theorem GoesOn.work : (y.core c).work = (s.core c).work := by
  obtain ⟨x, c1, c2, c3, c4, hc⟩ := h.core
  rw [hc]

theorem GoesOn.barrierEnds (hz : GoesOn s z c g w) {o : State} (ho : GoesOn s o c g w) (f : Fields) (r : DWord) :
    BarrierEnds s o (y.lateScalar z f r) c g w f r :=
  barrierEnds_lateScalar h.focus h.waits ho.focus hz.lastIssue hz.latches r

end

theorem goesOn_barGoes (hw : (s.gang c g).waits = [w]) (b : BarAt) : GoesOn s (s.barGoes c g w b) c g w :=
  (goesOn_endWait hw).of_offPath (offPath_barWalk ..)

theorem dram_barGoes {b : BarAt} (h : b.spad = true) : (s.barGoes c g w b).dram = s.dram := by
  unfold State.barGoes
  rw [barWalk_spad h]
  rfl

theorem BarrierEnds.refocus {o t : State} {f : Fields} {r : DWord} (h : BarrierEnds s o t c g w f r) (x : Focus) :
    BarrierEnds s o { t with focus := x } c g w f r :=
  ⟨h.ended.of_gang rfl, h.reg, fun k => by
    obtain ⟨h1, h2, h3, h4⟩ := h.owned k
    exact ⟨h1, h2, h3, h4⟩, h.passed⟩

end

/-! ### A wait that ends in a trap -/

/-- The trap of a barrier wait. -/
def State.barTrapRec (s : State) (c g : Nat) (w : Wait) (e : Nat) (r : Replay) : TrapRec :=
  { slot := g, causes := [(e, w.ex)], inner := if e = cMachineCheck then 8 else 0, va := BitVec.ofNat 64 w.va
    raised := s.timeAt (clusterOf c), entry := { r with cause := BitVec.ofNat 8 e } }

theorem barWaitTrap_eq {s : State} {w : Wait} {r : Replay} (h : w.entry = some r) (c g e : Nat) :
    s.barWaitTrap c g w e = s.finish.takeTrap c (s.barTrapRec c g w e r) := by
  unfold State.barWaitTrap
  rw [h]
  rfl

/-- The trap of a wait joins the handler's work. -/
theorem barWaitTrap_traps {y s : State} {c g : Nat} {w : Wait} {r : Replay} (h : GoesOn s y c g w) (hr : w.entry = some r) (hg : g < 15)
    (hw : ∀ x, HWork.trap x ∈ (s.core c).work → x.slot ≠ g) (e : Nat) :
    ∃ x, ((y.barWaitTrap c g w e).core c).work = (s.core c).work ++ [.trap x] ∧ x.slot = g ∧ x.causes = [(e, w.ex)] ∧ x.entry.pc = r.pc ∧
      ((y.barWaitTrap c g w e).gang c g).trapped = true := by
  obtain ⟨t, ht⟩ : ∃ t, t = y.barTrapRec c g w e r := ⟨_, rfl⟩
  have hs : t.slot = g := by rw [ht]; rfl
  have hns : t.slot ≠ handlerSlot := by rw [hs]; exact Nat.ne_of_lt hg
  obtain ⟨x, hx⟩ := core_finish y c
  have hwork : (y.finish.core c).work = (s.core c).work := by
    rw [hx]
    exact h.work
  rw [barWaitTrap_eq hr, ← ht]
  refine ⟨y.finish.withLats c t, ?_, hs, by rw [ht]; rfl, by rw [ht]; rfl, ?_⟩
  · rw [work_takeTrap hns, hwork]
    exact trapWork_append fun x hx => by
      rw [show (y.finish.withLats c t).slot = g from hs]
      exact hw x hx
  · rw [← hs, gang_takeTrap hns]
    rfl

/-! ### What a look and a bound do (R414) -/

section
variable {s : State} {c g k a p : Nat} {sp : Bool} {w : Wait} {f : Fields} (hc : c < nCores) (hw : (s.gang c g).waits = [w])
  (hb : w.bar = some (sp, k, a, p)) (hi : w.ins = some f)

/-- How an event ends a barrier wait with the result `r`. -/
def BarrierDone (s : State) (c g : Nat) (sp : Bool) (w : Wait) (f : Fields) (i : Instr) (r : DWord) : Prop :=
  ∃ t, exec i s = .next t ∧ BarrierEnds s (s.endWait c g w) t c g w f r ∧ (sp = true → t.dram = s.dram) ∧ t.focus = s.focus

/-- The wait goes on. -/
def BarrierStays (s : State) (c g : Nat) (sp : Bool) (w : Wait) : Prop :=
  ∃ t, exec (.barrierWaitRecheck c g) s = .next t ∧ (t.gang c g).waits = [w] ∧ (sp = true → t = s)

include hb hi in
theorem barrier_eq : w.barrier = some (f, ⟨sp, k, a⟩, p) := by
  unfold Wait.barrier
  rw [hb, hi]

include hw in
theorem waits_barStays (b : BarAt) : ((s.barStays c g w b).gang c g).waits = [w] := by
  rw [gang_of_offPath (offPath_barStays s c g w b), hw]

include hw hb hi

theorem barrierDone_timeout {n : Nat} (hr : s.runs c = true) (hn : w.bound = some n) (ht : w.since + n ≤ s.cycles (clusterOf c))
    (he : ∀ e, (s.endWait c g w).barNow c w ⟨sp, k, a⟩ ≠ some (.error e))
    (hv : ∀ b, (s.endWait c g w).barNow c w ⟨sp, k, a⟩ = some (.ok b) →
      barBad ((s.endWait c g w).barRead c b.entry) = false ∧ barPassed ((s.endWait c g w).barRead c b.entry) p = false) :
    BarrierDone s c g sp w f (.barrierWaitTimeout c g) 1 := by
  have ho := goesOn_endWait hw
  have e : s.barTimeout c g w = (s.endWait c g w).lateScalar (s.endWait c g w) f 1 := by
    unfold State.barTimeout
    rw [barrier_eq hb hi]
    simp only
    refine if_pos ?_
    rw [hn]
    rw [Bool.and_eq_true]
    refine ⟨decide_eq_true ht, ?_⟩
    generalize hl : (s.endWait c g w).barNow c w ⟨sp, k, a⟩ = l at he hv
    match l with
    | none => rfl
    | some (.error e) => exact absurd rfl (he e)
    | some (.ok b) =>
      obtain ⟨h1, h2⟩ := hv b rfl
      simp [h1, h2]
  refine ⟨_, exec_barrierWaitTimeout hr hw, ?_, fun _ => ?_, rfl⟩ <;> rw [e]
  · exact (ho.barrierEnds ho ho f 1).refocus _
  · exact (gangsLatches_lateScalar _ _ f 1).dram

include hc

theorem barrierStays_unseen (h : (s.endWait c g w).barNow c w ⟨sp, k, a⟩ = none ∨ ∃ b', (s.endWait c g w).barNow c w ⟨sp, k, a⟩ = some (.ok b') ∧
    (s.barGoes c g w ⟨sp, k, a⟩).barOpen b' false = false) : BarrierStays s c g sp w := by
  refine ⟨_, exec_barrierWaitRecheck hc hw, ?_, fun hsp => ?_⟩ <;> rw [barAgain_unseen (barrier_eq hb hi) h]
  · exact waits_barStays hw _
  · rw [barStays_spad hsp]

section
variable {b : BarAt} (h : (s.endWait c g w).barNow c w ⟨sp, k, a⟩ = some (.ok b)) (ho : (s.barGoes c g w ⟨sp, k, a⟩).barOpen b false = true)
  (hr : (s.barGoes c g w ⟨sp, k, a⟩).barReach b false ((s.barGoes c g w ⟨sp, k, a⟩).orderOf f) = none)
include h ho hr

theorem barrierStays_notPassed (h1 : barBad ((s.barGoes c g w ⟨sp, k, a⟩).barRead c b.entry) = false)
    (h2 : barPassed ((s.barGoes c g w ⟨sp, k, a⟩).barRead c b.entry) p = false) : BarrierStays s c g sp w := by
  refine ⟨_, exec_barrierWaitRecheck hc hw, ?_, fun hsp => ?_⟩ <;> rw [barAgain_seen (barrier_eq hb hi) h ho hr, h1, h2]
  · show (State.gang (State.barLook _ _ _) c g).waits = _
    rw [gang_of_offPath (offPath_barLook ..), waits_barStays hw]
  · have hs : b.spad = true := by rw [barNow_spad hsp h]; exact hsp
    show { (State.barLook _ _ _) with focus := s.focus } = _
    rw [barLook_spad hs, barStays_spad hsp]

theorem barrierDone_passed (h1 : barBad ((s.barGoes c g w ⟨sp, k, a⟩).barRead c b.entry) = false)
    (h2 : barPassed ((s.barGoes c g w ⟨sp, k, a⟩).barRead c b.entry) p = true) : BarrierDone s c g sp w f (.barrierWaitRecheck c g) 0 := by
  have hz := (goesOn_barGoes hw ⟨sp, k, a⟩).barEntered b
  have hy := hz.of_offPath (offPath_barLook _ c b.entry)
  refine ⟨_, exec_barrierWaitRecheck hc hw, ?_, fun hsp => ?_, rfl⟩ <;> rw [barAgain_seen (barrier_eq hb hi) h ho hr, h1, h2]
  · exact (hy.barrierEnds hz (goesOn_endWait hw) f 0).refocus _
  · have hs : b.spad = true := by rw [barNow_spad hsp h]; exact hsp
    obtain ⟨x, hx⟩ := barEntered_blocks (s.barGoes c g w ⟨sp, k, a⟩) b
    refine ((gangsLatches_lateScalar _ _ f 0).dram).trans ?_
    rw [barLook_spad hs, hx]
    exact dram_barGoes hsp

theorem barrierBroken_traps {r : Replay} (h1 : barBad ((s.barGoes c g w ⟨sp, k, a⟩).barRead c b.entry) = true) (hg : g < 15) (he : w.entry = some r)
    (hx : ∀ x, HWork.trap x ∈ (s.core c).work → x.slot ≠ g) :
    ∃ t x, exec (.barrierWaitRecheck c g) s = .next t ∧ (t.core c).work = (s.core c).work ++ [.trap x] ∧ x.slot = g ∧
      x.causes = [(cBarrierBroken, w.ex)] ∧ x.entry.pc = r.pc ∧ (t.gang c g).trapped = true := by
  have hy := ((goesOn_barGoes hw ⟨sp, k, a⟩).barEntered b).of_offPath (offPath_barLook _ c b.entry)
  obtain ⟨x, hx⟩ := barWaitTrap_traps hy he hg hx cBarrierBroken
  refine ⟨_, x, exec_barrierWaitRecheck hc hw, ?_⟩
  rw [barAgain_seen (barrier_eq hb hi) h ho hr, h1]
  exact hx

end

end

end Sys2Proof.Machine

end

section
/-! SUPPORT. The bounds of a core that pass, together (R132, R135, R283, R404, R414). -/

namespace Sys2Proof.Machine

open Sys2Proof.Claims

/-! ### A save without a hint (R283) -/

/-- Images come from the launch's stock: no core changes. -/
theorem cores_obtainImages {s u : State} {b : Nat} (h : s.obtainImages b = some u) : u.cores = s.cores := by
  unfold State.obtainImages at h
  split at h
  · rw [Option.some.inj h]
  · simp only [] at h
    split at h
    · exact absurd h (Option.some_ne_none u).symm
    · rw [← Option.some.inj h]
      rfl

theorem exec_hintTimeout {c g a : Nat} {s : State} (hg : g < 15) (ha : (s.gang c g).saveReq = some a)
    (hh : (s.cluster (clusterOf c)).halted = false) (ht : a + 20000 ≤ s.now) : exec (.hintTimeout c g) s = .next (s.stopAtHint c g none) := by
  show execHintTimeout c g s = _
  unfold execHintTimeout
  rw [ha]
  exact if_pos ⟨hg, by rw [hh]; rfl, ht⟩

theorem gang_stopAtHint {c g : Nat} {s u : State} {hint : Option DWord} (h : s.obtainImages (s.gang c g).seat.block = some u) :
    (s.stopAtHint c g hint).gang c g = { s.gang c g with saveStop := some hint, saveReq := none } := by
  unfold State.stopAtHint
  rw [h]
  show State.gang (State.markCalls _ c) c g = _
  rw [gang_markCalls, gang_modGang_same, State.gang, core_of_cores (cores_obtainImages h)]
  rfl

theorem hintTimeout_stops {c g a : Nat} {s : State} (hg : g < 15) (ha : (s.gang c g).saveReq = some a)
    (hh : (s.cluster (clusterOf c)).halted = false) (ht : a + 20000 ≤ s.now) :
    (s.obtainImages (s.gang c g).seat.block = none → exec (.hintTimeout c g) s = .next s) ∧
    ∀ u, s.obtainImages (s.gang c g).seat.block = some u → ∃ t, exec (.hintTimeout c g) s = .next t ∧
      t.gang c g = { s.gang c g with saveStop := some none, saveReq := none } := by
  have he := exec_hintTimeout hg ha hh ht
  refine ⟨fun h => ?_, fun u h => ⟨_, he, gang_stopAtHint h⟩⟩
  rw [he]
  unfold State.stopAtHint
  rw [h]

/-! ### Together -/

theorem bounds_hold : Claims.bounds := by
  refine ⟨fun c i h s => holdTimeout_ends, fun c g a s => regangTimeout_releases, fun c g j b w s => ldfeTimeout_drops,
    fun c g j b q w f s => ldfeTimeout_completes, ?_, fun c g a s => hintTimeout_stops⟩
  intro c g k p a sp w f s hc hw hb hi o look u owns ends waits
  have hends {i : Instr} {r : DWord} (h : BarrierDone s c g sp w f i r) : ends i r := by
    obtain ⟨t, ht, hd, hm, hf⟩ := h
    exact ⟨t, ht, hd.ended.waits, hd.reg, hd.owned, hd.passed, hd.ended.pc, hm, hf⟩
  refine ⟨fun b h ho hr => ⟨fun h1 h2 => hends (barrierDone_passed hc hw hb hi h ho hr h1 h2),
      fun h1 h2 => barrierStays_notPassed hc hw hb hi h ho hr h1 h2, fun r h1 hg he hx => barrierBroken_traps hc hw hb hi h ho hr h1 hg he hx⟩,
    fun h => barrierStays_unseen hc hw hb hi h, fun n hr hn ht he hv => hends (barrierDone_timeout hw hb hi hr hn ht he hv)⟩

end Sys2Proof.Machine

end

section
/-! SUPPORT. What leaves the engine contexts of every gang as they are: accesses to memory, traps, words of scratchpad that turn full or empty. -/

namespace Sys2Proof.Machine

open Sys2Proof.Claims

/-- Every gang's engine contexts are the same. -/
def SameCtxs (s t : State) : Prop := ∀ c g, (t.gang c g).ctxs = (s.gang c g).ctxs

theorem SameCtxs.refl (s : State) : SameCtxs s s := fun _ _ => rfl

theorem SameCtxs.trans {s t u : State} (h : SameCtxs s t) (h' : SameCtxs t u) : SameCtxs s u := fun c g => (h' c g).trans (h c g)

theorem SameCtxs.ctx {s t : State} (h : SameCtxs s t) (c g n : Nat) : (t.gang c g).ctx n = (s.gang c g).ctx n := by
  unfold Gang.ctx
  rw [h c g]

theorem sameCtxs_foldl {α : Type} {f : State → α → State} (hf : ∀ s a, SameCtxs s (f s a)) (l : List α) (s : State) :
    SameCtxs s (l.foldl f s) := by
  induction l generalizing s with
  | nil => exact .refl s
  | cons a l ih => exact (hf s a).trans (ih _)

theorem sameCtxs_of_offPath {s t : State} (h : t.offPath = s.offPath) : SameCtxs s t := fun c g => by rw [gang_of_offPath h]

theorem sameCtxs_of_cores {s t : State} (h : ∀ c, t.core c = s.core c) : SameCtxs s t := fun c g => by
  unfold State.gang
  rw [h]

theorem sameCtxs_messages {s t : State} (h : Messages s t) : SameCtxs s t := sameCtxs_of_cores h.core

theorem sameCtxs_modCore (s : State) (c : Nat) {f : CoreSt → CoreSt} (h : ∀ k, (f k).gangs = k.gangs) : SameCtxs s (s.modCore c f) :=
  fun d e => by rw [gang_modCore s c h]

theorem sameCtxs_modGang (s : State) (c g : Nat) {f : Gang → Gang} (h : (f (s.gang c g)).ctxs = (s.gang c g).ctxs) :
    SameCtxs s (s.modGang c g f) := by
  intro d e
  by_cases hd : d = c ∧ e = g
  · rw [hd.1, hd.2, gang_modGang_same, h]
  · rw [gang_modGang_other s f (by by_cases hc : d = c; exacts [.inr fun he => hd ⟨hc, he⟩, .inl hc])]

/-! ### Traps -/

theorem sameCtxs_takeTrap (s : State) (c : Nat) (t : TrapRec) : SameCtxs s (s.takeTrap c t) := by
  by_cases h : t.slot = handlerSlot
  · unfold State.takeTrap
    rw [if_pos h]
    exact (sameCtxs_modCore s c (f := fun k => { k with hStopped := true }) fun _ => rfl).trans (sameCtxs_messages (messages_coreCheck _ _ _))
  · rw [takeTrap_eq h]
    have hq : SameCtxs s (s.trapQueued c t) := fun d e => by rw [gang_trapQueued]
    exact (hq.trans (sameCtxs_messages (messages_trapShown _ _ _))).trans (sameCtxs_modGang _ _ _ rfl)

theorem sameCtxs_takeEndTrap (s : State) (c g code : Nat) (va : DWord) : SameCtxs s (s.takeEndTrap c g code va) := by
  rw [takeEndTrap_eq]
  exact (sameCtxs_takeTrap s c _).trans (sameCtxs_modGang _ c g rfl)

theorem sameCtxs_setGang (s : State) (c g : Nat) {x : Gang} (h : x.ctxs = (s.gang c g).ctxs) : SameCtxs s (s.setGang c g x) :=
  sameCtxs_modGang s c g (f := fun _ => x) h

theorem sameCtxs_markCalls (s : State) (c : Nat) : SameCtxs s (s.markCalls c) := fun d e => by rw [gang_markCalls]

theorem sameCtxs_tryIdle (s : State) (c g : Nat) : SameCtxs s (s.tryIdle c g) := by
  unfold State.tryIdle
  simp only []
  split
  · exact .refl s
  · split
    · refine SameCtxs.trans ?_ (sameCtxs_takeEndTrap _ c g _ _)
      exact sameCtxs_setGang s c g rfl
    · refine SameCtxs.trans ?_ (sameCtxs_markCalls _ _)
      exact sameCtxs_setGang s c g rfl

theorem sameCtxs_tlFaults (s : State) (c g n : Nat) : SameCtxs s (s.tlFaults c g n) := by
  refine sameCtxs_foldl (fun s w => ?_) _ s
  split
  · split
    · exact sameCtxs_takeTrap s c _
    · exact .refl s
  · exact .refl s

theorem sameCtxs_engineTrap (s : State) (c g n : Nat) : SameCtxs s (s.engineTrap c g n) := by
  refine (sameCtxs_tlFaults s c g n).trans ?_
  unfold State.engineTrap
  simp only []
  generalize s.tlFaults c g n = t
  generalize hx : { t.gang c g with endFaults := (t.gang c g).endFaults.filter (· != n) } = x
  have hc : x.ctxs = (t.gang c g).ctxs := by rw [← hx]
  have h := sameCtxs_setGang t c g hc
  split
  · exact (h.trans (sameCtxs_setGang _ c g (by rw [gang_setGang_same, hc]))).trans (sameCtxs_takeEndTrap _ c g _ _)
  · exact h.trans (sameCtxs_tryIdle _ c g)

/-! ### Watchpoints -/

theorem sameCtxs_traceRecord (s : State) (c w : Nat) (b : BitVec 256) : SameCtxs s (s.traceRecord c w b) := by
  unfold State.traceRecord
  split
  · exact sameCtxs_modCore s c (f := fun k => { k with trq := k.trq ++ [{ walker := w, bits := b }] }) fun _ => rfl
  · exact fun _ _ => rfl

theorem sameCtxs_watchRecord (s : State) (c : Nat) (g : Gang) (j va n : Nat) : SameCtxs s (s.watchRecord c g j va n) := by
  unfold State.watchRecord
  simp only []
  split
  · exact sameCtxs_traceRecord s c _ _
  · exact .refl s

theorem sameCtxs_sendHalt (s : State) (k : Nat) (on : Bool) (src core : Nat) : SameCtxs s (s.sendHalt k on src core) := by
  obtain ⟨a, b, c, d, e⟩ := noteHalt_rest (s.sendBeacon k (.halt on src core)) on src core
  unfold State.sendHalt
  rw [e]
  exact fun _ _ => rfl

theorem sameCtxs_watch (s : State) (c slot j : Nat) (spad : Bool) (a : Access) (va oldWord : Nat) (new : Option Nat) :
    SameCtxs s (s.watch c slot j spad a va oldWord new).1 := by
  unfold State.watch
  split
  · exact .refl s
  · simp only []
    generalize (if a.noWatch then _ else _ : List (Nat × Nat)) = fired
    split
    · exact .refl s
    · refine sameCtxs_foldl (fun t p => ?_) fired s
      split
      · exact sameCtxs_watchRecord _ _ _ _ _ _
      · exact sameCtxs_sendHalt _ _ _ _ _

/-! ### Full-empty words -/

theorem sameCtxs_setLatch (s : State) (l : Nat) (v : List (Nat × DWord)) (x : Option DWord) : SameCtxs s (s.setLatch l v x) :=
  fun c g => by rw [gang_setLatch]

theorem sameCtxs_setV (s : State) (l : List (Nat × Nat × Nat)) : SameCtxs s (s.modMe fun g => g.setV l) :=
  sameCtxs_modGang s _ _ (f := fun g => g.setV l) rfl

theorem sameCtxs_wrVAt (s : State) (f : Fields) (r : Nat) (wide : Bool) (ex zero : Mask) (val : Nat → Nat) :
    SameCtxs s (s.wrVAt f r wide ex zero val) := by
  unfold State.wrVAt
  simp only []
  split
  · exact sameCtxs_setLatch s _ _ _
  · exact (sameCtxs_setLatch s _ _ _).trans (sameCtxs_setV _ _)

theorem sameCtxs_finish (s : State) : SameCtxs s s.finish := fun c g => by
  obtain ⟨r, w, l, h⟩ := gang_finish s c g
  rw [h]

theorem sameCtxs_feRegs (s : State) (f : Fields) (w : Wait) : SameCtxs s (s.feRegs f w) := by
  unfold State.feRegs
  split <;> split
  · exact sameCtxs_wrVAt s _ _ _ _ _ _
  · exact sameCtxs_wrVAt s _ _ _ _ _ _
  · exact sameCtxs_wrVAt s _ _ _ _ _ _
  · exact .refl s

theorem sameCtxs_feResult (s : State) (f : Fields) (w : Wait) : SameCtxs s (s.feResult f w) := by
  rw [feResult_eq]
  refine (sameCtxs_feRegs s f w).trans (SameCtxs.trans ?_ (sameCtxs_finish _))
  exact fun c g => by rw [gang_lateLatch]

theorem sameCtxs_endWait (s : State) (c g : Nat) (w : Wait) : SameCtxs s (s.endWait c g w) := sameCtxs_modGang (s.focusWait c g w) c g rfl

theorem sameCtxs_feSettle (s : State) (c g : Nat) : SameCtxs s (s.feSettle c g) := by
  refine sameCtxs_foldl (fun s w => ?_) _ s
  split
  · split
    · exact (sameCtxs_endWait s c g w).trans (sameCtxs_feResult _ _ w)
    · exact .refl s
  · exact .refl s

theorem sameCtxs_setGran (s : State) (c gr : Nat) (b : Bool) : SameCtxs s (s.setGran c gr b) :=
  sameCtxs_modCore s c (f := fun k => { k with spadFE := k.spadFE.put gr b }) fun _ => rfl

theorem sameCtxs_feGot (s : State) (c g lane : Nat) (v : Word) : SameCtxs s (s.feGot c g lane v) := sameCtxs_modGang s c g rfl

theorem sameCtxs_feTrap (s : State) (c g lane va : Nat) : SameCtxs s (s.feTrap c g lane va) := by
  unfold State.feTrap
  simp only []
  split
  · exact .refl s
  · split
    · exact (sameCtxs_takeTrap s c _).trans (sameCtxs_modGang _ c g rfl)
    · exact sameCtxs_modGang _ c g rfl

theorem sameCtxs_spadWrite (s : State) (c a n v : Nat) : SameCtxs s (s.spadWrite c a n v) :=
  sameCtxs_modCore s c (f := fun k => { k with spad := k.spad.writeN a n v }) fun _ => rfl

theorem sameCtxs_feStore (s : State) (c : Nat) (w : FeWaiter) : SameCtxs s (s.feStore c w) := by
  have hw := sameCtxs_watch s c w.slot w.lane true { va := w.va, bytes := 4, kind := .store, noWatch := w.noWatch } w.addr
    (s.spadRead c (w.addr / 8 * 8) 8) (some w.data.toNat)
  unfold State.feStore
  simp only []
  split
  · exact hw.trans (sameCtxs_feTrap _ c _ _ _)
  · exact hw.trans (((sameCtxs_spadWrite _ c _ _ _).trans (sameCtxs_setGran _ c _ _)).trans (sameCtxs_feGot _ c _ _ _))

theorem sameCtxs_feServe (c gr n : Nat) (s : State) : SameCtxs s (State.feServe c gr n s) := by
  induction n generalizing s with
  | zero => exact .refl s
  | succ n ih =>
    unfold State.feServe
    simp only []
    split
    · exact .refl s
    · next w _ =>
      have hd : SameCtxs s (s.modCore c (·.feDrop w)) := sameCtxs_modCore s c (f := (·.feDrop w)) fun _ => rfl
      split
      · refine SameCtxs.trans (hd.trans ?_) (ih _)
        split
        · exact (sameCtxs_setGran _ c gr false).trans (sameCtxs_feGot _ c _ _ _)
        · exact sameCtxs_feGot _ c _ _ _
      · exact (hd.trans (sameCtxs_feStore _ c w)).trans (ih _)

theorem sameCtxs_granTurned (s : State) (c gr : Nat) : SameCtxs s (s.granTurned c gr) :=
  (sameCtxs_feServe c gr _ s).trans (sameCtxs_foldl (fun s g => sameCtxs_feSettle s c g) _ _)

theorem dram_granTurned (s : State) (c gr : Nat) : (s.granTurned c gr).dram = s.dram := by
  have h : GangsLatches (State.feServe c gr (s.core c).feWait.length s) (s.granTurned c gr) :=
    gangsLatches_foldl (fun s g => gangsLatches_feSettle s c g) _ _
  rw [h.dram, dram_feServe]

end Sys2Proof.Machine

end

section
/-! SUPPORT. The events of an engine's entry in progress: rows, completion, faults (R211, R225, R226, R230, R235, R240, R243). -/

namespace Sys2Proof.Machine

open Sys2Proof.Claims

/-! ### The entry in progress -/

/-- What the entry in progress of a gang's context is. -/
structure InProgress (s : State) (c g n : Nat) (v : EngineAt) : Prop where
  gang : v.gang = some (c, g)
  ctx : v.ctx = n
  rows : v.rows = ((s.gang c g).ctx n).done
  small : n < 8
  runs : ((s.gang c g).ctx n).stopped = false
  left : ((s.gang c g).ctx n).tlcnt.toNat < ((s.gang c g).ctx n).tliss.toNat

theorem routed_eq (s : State) (v : EngineAt) : ∃ o, s.routed v = { v with agent := { v.agent with order := o } } := by
  unfold State.routed
  split
  · exact ⟨_, rfl⟩
  · exact ⟨v.agent.order, rfl⟩

theorem inProgress_of_engineAt {s : State} {c g n : Nat} {v : EngineAt} (h : s.engineAt (.gang c g n) = some v) : InProgress s c g n v := by
  unfold State.engineAt at h
  simp only [Bool.and_eq_true, decide_eq_true_eq, Bool.not_eq_true'] at h
  split at h
  · next hc =>
    obtain ⟨⟨⟨-, hn⟩, hs⟩, hl⟩ := hc
    have hv := (Option.some.inj h).symm
    unfold State.entryAt at hv
    simp only [] at hv
    obtain ⟨o, ho⟩ := routed_eq s { agent := s.gangAgent c g, gang := some (c, g), ctx := n
                                    va := ringSlot ((s.gang c g).ctx n).chring ((s.gang c g).ctx n).tlcnt.toNat
                                    rows := ((s.gang c g).ctx n).done
                                    held := ((s.gang c g).ctx n).held.or ((((s.gang c g).ctx n).mats.find? fun m =>
                                      m.seq == ((s.gang c g).ctx n).tlcnt + 1).map fun m =>
                                        ({ va := ringSlot ((s.gang c g).ctx n).chring ((s.gang c g).ctx n).tlcnt.toNat, entry := m.bits } : Held)) }
    have hv := hv.trans ho
    exact ⟨by rw [hv], by rw [hv], by rw [hv], hn, hs, hl⟩
  · exact absurd h (by simp)

theorem ctx_modEngCtx {s : State} {v : EngineAt} {c g n : Nat} (hg : v.gang = some (c, g)) (hn : v.ctx = n) (f : ECtx → ECtx) :
    ((s.modEngCtx v f).gang c g).ctx n = f ((s.gang c g).ctx n) := by
  unfold State.modEngCtx
  rw [hg, hn]
  show (State.gang (State.modGang s c g _) c g).ctx n = _
  rw [gang_modGang_same, ctx_setCtx, if_pos rfl]

/-! ### Completion (R211, R240) -/

/-- How an entry of a gang's context completes. -/
structure EntryDone (s t : State) (c g n : Nat) : Prop where
  tlcnt : ((t.gang c g).ctx n).tlcnt = ((s.gang c g).ctx n).tlcnt + 1
  tliss : ((t.gang c g).ctx n).tliss = ((s.gang c g).ctx n).tliss
  done : ((t.gang c g).ctx n).done = 0
  cause : ((t.gang c g).ctx n).cause = 0
  am : (t.core c).am = (s.core c).am.putAll
    ((((s.gang c g).ctx n).mats.filter fun m => m.seq == ((s.gang c g).ctx n).tlcnt + 1).flatMap (·.out))

/-- A context whose entry in progress has completed. -/
def ECtx.next (k : ECtx) : ECtx :=
  { k with
    tlcnt := k.tlcnt + 1, done := 0, cause := 0, resumed := false, held := none
    mats := k.mats.filter fun m => m.seq != k.tlcnt + 1
    ahead := k.ahead.filter fun p => p.1 != k.tlcnt.toNat + 1 }

/-- The words that the entry in progress has computed. -/
def ECtx.words (x : ECtx) : List (Nat × Word) := (x.mats.filter fun m => m.seq == x.tlcnt + 1).flatMap (·.out)

/-- AM once the words that the entry in progress has computed are in it. -/
def State.amDone (s : State) (c g n : Nat) : State :=
  if ((s.gang c g).ctx n).words.isEmpty then s
  else s.modCore c fun k => { k with am := k.am.putAll ((s.gang c g).ctx n).words }

theorem completeEntry_gang (s : State) (c g n : Nat) (v : EngineAt) (next : Nat) : s.completeEntry (.gang c g n) v next =
    (((s.entryStatus v 1 none).amDone c g n).modEngCtx v ECtx.next).tlSettle c g := rfl

theorem gang_amDone (s : State) (c g n d e : Nat) : (s.amDone c g n).gang d e = s.gang d e := by
  unfold State.amDone
  split
  · rfl
  · exact gang_modCore s c (f := fun k => { k with am := k.am.putAll _ }) (fun _ => rfl) d e

theorem am_amDone (s : State) (c g n : Nat) : ((s.amDone c g n).core c).am =
    (s.core c).am.putAll ((s.gang c g).ctx n).words := by
  unfold State.amDone
  split
  · next h => rw [List.isEmpty_iff.mp h]; rfl
  · rw [core_modCore_same]

theorem am_modEngCtx (s : State) (v : EngineAt) (f : ECtx → ECtx) (c : Nat) : ((s.modEngCtx v f).core c).am = (s.core c).am := by
  unfold State.modEngCtx
  split
  · next d g _ =>
    obtain ⟨x, hx⟩ := core_modGang s d g (fun x => x.setCtx v.ctx (f (x.ctx v.ctx))) c
    rw [hx]
  · rfl

theorem ControlOnly.am {c g : Nat} {s t : State} (h : ControlOnly c g s t) (d : Nat) : (t.core d).am = (s.core d).am :=
  (congrArg (fun k : CoreSt => k.am) (h.core d) :)

theorem entryDone_completeEntry {s : State} {c g n : Nat} {v : EngineAt} (hg : v.gang = some (c, g)) (hn : v.ctx = n) (next : Nat) :
    EntryDone s (s.completeEntry (.gang c g n) v next) c g n := by
  have hs : (s.entryStatus v 1 none).gang c g = s.gang c g := gang_of_offPath (offPath_entryStatus s v 1 none 0) c g
  have hk := controlOnly_tlSettle (((s.entryStatus v 1 none).amDone c g n).modEngCtx v ECtx.next) c g
  have hx : ((s.completeEntry (.gang c g n) v next).gang c g).ctx n = ((s.gang c g).ctx n).next := by
    rw [completeEntry_gang, hk.ctx, ctx_modEngCtx hg hn, gang_amDone, hs]
  refine ⟨by rw [hx]; rfl, by rw [hx]; rfl, by rw [hx]; rfl, by rw [hx]; rfl, ?_⟩
  rw [completeEntry_gang, hk.am, am_modEngCtx, am_amDone, hs]
  rw [core_eq_of_offPath (offPath_entryStatus s v 1 none 0) c]
  rfl

section
variable {s : State} {c g n e : Nat} {v : EngineAt} (hv : s.engineAt (.gang c g n) = some v) (he : s.entryBits v = .ok e)
include hv he

theorem exec_complete_copy {sl : Slot} {dims : List Dim} (hn : n < 4) (hp : s.copyPlan v e = .ok (sl, dims)) (hr : rowCount dims ≤ v.rows) :
    exec (.engineEntryComplete (.gang c g n)) s = .next (s.completeEntry (.gang c g n) v (bits e 0 64)) := by
  show execEngineEntryComplete _ s = _
  unfold execEngineEntryComplete
  rw [hv]
  simp only [he, hp, (inProgress_of_engineAt hv).ctx, hn, if_true]
  exact if_neg (by omega)

theorem exec_complete_matrix (hn : n = 4 ∨ n = 5)
    (hl : ∀ m ∈ ((s.gang c g).ctx n).mats, m.seq = ((s.gang c g).ctx n).tlcnt + 1 → m.left = []) :
    exec (.engineEntryComplete (.gang c g n)) s = .next (s.completeEntry (.gang c g n) v 0) := by
  have hin := inProgress_of_engineAt hv
  have h4 : ¬ n < 4 := by omega
  have h6 : n < 6 := by omega
  show execEngineEntryComplete _ s = _
  unfold execEngineEntryComplete
  rw [hv]
  simp only [he, hin.gang, hin.ctx, h4, h6, if_true, if_false]
  refine if_neg fun h => ?_
  obtain ⟨m, hm, h⟩ := List.any_eq_true.mp h
  rw [Bool.and_eq_true, beq_iff_eq] at h
  rw [hl m hm h.1] at h
  exact absurd h.2 (by decide)

theorem exec_complete_collective (hn : n = 6) (hm : ((s.gang c g).ctx n).tlcnt.toNat < ((s.gang c g).ctx n).matched) :
    exec (.engineEntryComplete (.gang c g n)) s = .next (s.completeEntry (.gang c g n) v 0) := by
  have hin := inProgress_of_engineAt hv
  subst hn
  show execEngineEntryComplete _ s = _
  unfold execEngineEntryComplete
  rw [hv]
  simp only [he, hin.gang, hin.ctx, Nat.lt_irrefl, if_false, if_true, hm, show ¬ 6 < 4 by omega]

theorem exec_complete_put {u : State} (hn : n = 7) (hu : s.edgePut (.gang c g n) v e = .ok (some u)) :
    exec (.engineEntryComplete (.gang c g n)) s = .next u := by
  have hin := inProgress_of_engineAt hv
  subst hn
  show execEngineEntryComplete _ s = _
  unfold execEngineEntryComplete
  rw [hv]
  simp only [he, hin.gang, hin.ctx, hu, if_false, show ¬ 7 < 4 by omega, show ¬ 7 < 6 by omega, show ¬ 7 = 6 by omega]

end

/-! ### Rows (R226, R235) -/

theorem sameCtxs_modCluster (s : State) (k : Nat) (f : Cluster → Cluster) : SameCtxs s (s.modCluster k f) := fun _ _ => rfl

theorem offPath_freshL2 (s : State) (k : Nat) (l : List (List Nat)) : (s.freshL2 k l).offPath = s.offPath := by
  unfold State.freshL2
  refine offPath_foldl (fun t u => ?_) l s
  split
  · rfl
  · exact offPath_foldl (fun t la => offPath_setL2 t k la _) u t

theorem offPath_agRead {s t : State} {a : Agent} {va n x : Nat} (h : s.agRead a va n = .ok (t, x)) : t.offPath = s.offPath := by
  unfold State.agRead at h
  cases hp : s.agPlace a va .read with
  | error e => rw [hp] at h; exact nomatch h
  | ok p =>
    rw [hp] at h
    have : t = ((s.agWalk a va).engineRead a.core p n).1 := (congrArg Prod.fst (Except.ok.inj h)).symm
    rw [this, offPath_engineRead]
    exact offPath_queueWalk ..

theorem state_of_ok {s t : State} {x y : Nat} (h : (Except.ok (s, x) : Except Nat (State × Nat)) = .ok (t, y)) : s = t :=
  congrArg Prod.fst (Except.ok.inj h)

theorem offPath_agReads {a : Agent} {l : List (Nat × Nat)} {s t : State} {x : Nat} (h : s.agReads a l = .ok (t, x)) : t.offPath = s.offPath := by
  induction l generalizing s t x with
  | nil =>
    rw [← state_of_ok h]
  | cons p l ih =>
    unfold State.agReads at h
    split at h
    · exact nomatch h
    · next s1 v h1 =>
      split at h
      · exact nomatch h
      · next s2 r h2 =>
        rw [← state_of_ok h, ih h2, offPath_agRead h1]

theorem offPath_agWrite {s t : State} {a : Agent} {va n v : Nat} (h : s.agWrite a va n v = .ok t) : t.offPath = s.offPath := by
  unfold State.agWrite at h
  cases hp : s.agPlace a va .write with
  | error e => rw [hp] at h; exact nomatch h
  | ok p =>
    rw [hp] at h
    have : t = (s.agWalk a va).engineWrite a.core p n v := (Except.ok.inj h).symm
    rw [this, offPath_engineWrite]
    exact offPath_queueWalk ..

theorem offPath_agWrites {a : Agent} {l : List (Nat × Nat)} {s t : State} {x : Nat} (h : s.agWrites a l x = .ok t) : t.offPath = s.offPath := by
  induction l generalizing s x with
  | nil => rw [← (Except.ok.inj h : s = t)]
  | cons p l ih =>
    unfold State.agWrites at h
    split at h
    · exact nomatch h
    · next s1 h1 => rw [ih h, offPath_agWrite h1]

theorem ok_of_engErr {α : Type} {x : Except Nat α} {a : α} (h : engErr x = .ok a) : x = .ok a := by
  cases x with
  | error e => exact nomatch h
  | ok b => exact h

theorem offPath_spaceRead {s t : State} {v : EngineAt} {sp a n x : Nat} (h : s.spaceRead v sp a n = .ok (t, x)) : t.offPath = s.offPath := by
  unfold State.spaceRead at h
  split at h
  · exact offPath_agReads (ok_of_engErr h)
  · split at h
    · rw [← state_of_ok h]
    · exact nomatch h
  · simp only [] at h
    split at h
    · exact nomatch h
    · rw [← state_of_ok h]
  · exact nomatch h

theorem offPath_spaceReads {v : EngineAt} {sp : Nat} {l : List (Nat × Nat)} {s t : State} {x : Nat} (h : s.spaceReads v sp l = .ok (t, x)) :
    t.offPath = s.offPath := by
  induction l generalizing s t x with
  | nil => rw [← state_of_ok h]
  | cons p l ih =>
    unfold State.spaceReads at h
    split at h
    · exact nomatch h
    · next s1 v h1 =>
      split at h
      · exact nomatch h
      · next s2 r h2 =>
        rw [← state_of_ok h, ih h2, offPath_spaceRead h1]

theorem sameCtxs_spaceWrite {s t : State} {v : EngineAt} {sp a n x : Nat} (h : s.spaceWrite v sp a n x = .ok t) : SameCtxs s t := by
  unfold State.spaceWrite at h
  split at h
  · exact sameCtxs_of_offPath (offPath_agWrites (ok_of_engErr h))
  · split at h
    · rw [← Except.ok.inj h]
      exact sameCtxs_spadWrite s _ _ _ _
    · exact nomatch h
  · split at h
    · exact nomatch h
    · rw [← Except.ok.inj h]
      exact fun _ _ => rfl
  · next c g _ =>
    simp only [] at h
    split at h
    · exact nomatch h
    · rw [← Except.ok.inj h]
      exact sameCtxs_modCore s c (f := fun k => { k with am := _ }) fun _ => rfl
  · exact nomatch h

theorem sameCtxs_spaceWrites {v : EngineAt} {sp : Nat} {l : List (Nat × Nat)} {s t : State} {x : Nat} (h : s.spaceWrites v sp l x = .ok t) :
    SameCtxs s t := by
  induction l generalizing s x with
  | nil => rw [← (Except.ok.inj h : s = t)]; exact .refl s
  | cons p l ih =>
    unfold State.spaceWrites at h
    split at h
    · exact nomatch h
    · next s1 h1 => exact (sameCtxs_spaceWrite h1).trans (ih h)

end Sys2Proof.Machine

end

section
/-! SUPPORT. The rows, faults and collectives of an engine, and the answers of the array (R226, R230, R235, R242). -/

namespace Sys2Proof.Machine

open Sys2Proof.Claims

/-! ### Rows (R226, R235) -/

theorem offPath_readRow {s t : State} {v : EngineAt} {e x y : Nat} {src : Side} (h : s.readRow v e src = .ok (t, x, y)) :
    t.offPath = s.offPath := by
  unfold State.readRow at h
  split at h
  · exact nomatch h
  · next s1 w h1 =>
    cases h2 : s1.spaceReads v (cpSsp e) (src.scales.map fun a => (a, 1)) with
    | error c => rw [h2] at h; exact nomatch h
    | ok r =>
      rw [h2] at h
      have : t = r.1 := (congrArg Prod.fst (Except.ok.inj h)).symm
      rw [this, offPath_spaceReads h2, offPath_spaceReads h1]

theorem map_eq_ok {α β : Type} {f : α → β} {x : Except Nat α} {b : β} (h : x.map f = .ok b) : ∃ a, x = .ok a ∧ f a = b := by
  cases x with
  | error e => exact nomatch h
  | ok a => exact ⟨a, rfl, Except.ok.inj h⟩

/-- A row leaves every context as it is but for its own LFS. -/
theorem copyRow_ctxs {s u : State} {v : EngineAt} {e row : Nat} {sl : Slot} {dims : List Dim} (h : s.copyRow v e sl dims row = .ok u) :
    ∃ w lfs, u = State.modEngCtx w v (fun q => { q with lfs }) ∧ SameCtxs s w := by
  unfold State.copyRow at h
  simp only [] at h
  split at h
  · exact nomatch h
  · next s2 x sc h2 =>
    have k2 : SameCtxs s s2 := by
      split at h2
      · rw [show s2 = s from (congrArg Prod.fst (Except.ok.inj h2)).symm]
        exact .refl s
      · exact sameCtxs_of_offPath ((offPath_readRow h2).trans (offPath_freshL2 ..))
    split at h
    · exact nomatch h
    · next s3 h3 =>
      have k3 : SameCtxs s2 s3 := by
        refine SameCtxs.trans ?_ (sameCtxs_spaceWrites h3)
        split
        · exact .refl s2
        · exact sameCtxs_modCluster s2 _ _
      obtain ⟨w, hw, hu⟩ := map_eq_ok h
      exact ⟨w, _, hu.symm, (k2.trans k3).trans (sameCtxs_spaceWrites hw)⟩

theorem sameCtxs_copyFills (s : State) (v : EngineAt) (e : Nat) (sl : Slot) (dims : List Dim) (row : Nat) :
    SameCtxs s (s.copyFills v e sl dims row) := by
  unfold State.copyFills
  split
  · next c g _ =>
    split
    · exact .refl s
    · exact sameCtxs_foldl (fun s gr => (sameCtxs_setGran s c gr true).trans (sameCtxs_granTurned _ c gr)) _ s
  · exact .refl s

theorem dram_copyFills (s : State) (v : EngineAt) (e : Nat) (sl : Slot) (dims : List Dim) (row : Nat) :
    (s.copyFills v e sl dims row).dram = s.dram := by
  unfold State.copyFills
  split
  · next c g _ =>
    split
    · rfl
    · exact dram_foldl (fun s gr => (dram_granTurned (s.setGran c gr true) c gr).trans rfl) _ s
  · rfl

/-- The descriptor as the entry in progress has it. -/
def State.descRead (s : State) (v : EngineAt) (e : Nat) : Nat :=
  match s.descBits v e with
  | .ok d => d
  | .error _ => 0

section
variable {s : State} {c g n e : Nat} {v : EngineAt} (hv : s.engineAt (.gang c g n) = some v) (he : s.entryBits v = .ok e)
include hv he

theorem exec_row {sl : Slot} {dims : List Dim} {u : State} (hn : n < 4) (hp : s.copyPlan v e = .ok (sl, dims)) (hr : v.rows < rowCount dims)
    (hu : s.copyRow v e sl dims v.rows = .ok u) :
    ∃ held, exec (.engineRowWritten (.gang c g n)) s = .next ((u.rowDoneBy (.gang c g n) v held).copyFills v e sl dims v.rows) := by
  have hctx : v.ctx = n := (inProgress_of_engineAt hv).ctx
  have hx : exec (.engineRowWritten (.gang c g n)) s = .next ((u.rowDoneBy (.gang c g n) v (some
      { va := v.va, entry := BitVec.ofNat 512 e, desc := BitVec.ofNat 2048 (s.descRead v e) })).copyFills v e sl dims v.rows) := by
    show execEngineRowWritten _ s = _
    unfold execEngineRowWritten
    rw [hv]
    simp only [he, hp, hu]
    rw [if_neg (show ¬ 4 ≤ v.ctx by omega), if_neg (show ¬ rowCount dims ≤ v.rows by omega)]
    rfl
  exact ⟨_, hx⟩

theorem engineRowWritten_writes {sl : Slot} {dims : List Dim} {u : State} (hn : n < 4) (hp : s.copyPlan v e = .ok (sl, dims))
    (hr : v.rows < rowCount dims) (hu : s.copyRow v e sl dims v.rows = .ok u) :
    ∃ t, exec (.engineRowWritten (.gang c g n)) s = .next t ∧ ((t.gang c g).ctx n).done = ((s.gang c g).ctx n).done + 1 ∧
      ((t.gang c g).ctx n).tlcnt = ((s.gang c g).ctx n).tlcnt ∧ t.dram = u.dram := by
  have hin := inProgress_of_engineAt hv
  obtain ⟨held, hx⟩ := exec_row hv he hn hp hr hu
  obtain ⟨w, lfs, hw, hk⟩ := copyRow_ctxs hu
  have hc : ((((u.rowDoneBy (.gang c g n) v held).copyFills v e sl dims v.rows).gang c g).ctx n) =
      { (s.gang c g).ctx n with lfs, done := ((s.gang c g).ctx n).done + 1, held } := by
    rw [(sameCtxs_copyFills _ v e sl dims v.rows).ctx]
    show ((State.modEngCtx u v _).gang c g).ctx n = _
    rw [ctx_modEngCtx hin.gang hin.ctx, hw, ctx_modEngCtx hin.gang hin.ctx, hk.ctx]
  refine ⟨_, hx, by rw [hc], by rw [hc], ?_⟩
  rw [dram_copyFills, dram_rowDoneBy]

end

/-! ### Faults (R230) -/

theorem faultEntry_gang (s : State) (c g n : Nat) (v : EngineAt) (cause : Nat) : s.faultEntry (.gang c g n) v cause =
    (State.modEngCtx ((((if cause = eMachineCheck then s.bboxOpen (fieldOf c) 3 else s).entryStatus v 2 (some cause)).modCore c fun k =>
      { k with octQ := k.octQ.filter fun q => !(q.slot == g && q.ctx == n) })) v
        fun k => { k with cause := BitVec.ofNat 8 cause, resumed := false }).engineTrap c g n := rfl

theorem ctx_faultEntry {s : State} {c g n : Nat} {v : EngineAt} (hg : v.gang = some (c, g)) (hn : v.ctx = n) (cause : Nat) :
    ((s.faultEntry (.gang c g n) v cause).gang c g).ctx n =
      { (s.gang c g).ctx n with cause := BitVec.ofNat 8 cause, resumed := false } := by
  have hb : SameCtxs s (if cause = eMachineCheck then s.bboxOpen (fieldOf c) 3 else s) := by
    split
    · exact sameCtxs_messages (messages_bboxOpen _ _ _)
    · exact .refl s
  have hs := hb.trans (sameCtxs_of_offPath (offPath_entryStatus _ v 2 (some cause) 0))
  have hq := hs.trans (sameCtxs_modCore _ c (f := fun k => { k with octQ := k.octQ.filter fun q => !(q.slot == g && q.ctx == n) }) fun _ => rfl)
  rw [faultEntry_gang, (sameCtxs_engineTrap _ c g n).ctx, ctx_modEngCtx hg hn, hq.ctx]

theorem engineEntryFault_stops {s : State} {c g n : Nat} {v : EngineAt} (hv : s.engineAt (.gang c g n) = some v) {k : BitVec 8} (hk : k ≠ 0)
    (h : k = 0x0b ∨ s.entryFault (.gang c g n) v = some k.toNat) :
    ∃ t, exec (.engineEntryFault (.gang c g n) k) s = .next t ∧ ((t.gang c g).ctx n).cause = k ∧
      ((t.gang c g).ctx n).tlcnt = ((s.gang c g).ctx n).tlcnt ∧ ((t.gang c g).ctx n).tliss = ((s.gang c g).ctx n).tliss := by
  have hin := inProgress_of_engineAt hv
  have hc := ctx_faultEntry (s := s) hin.gang hin.ctx k.toNat
  have hk0 : k.toNat ≠ cWaits := fun h0 => hk (BitVec.eq_of_toNat_eq h0)
  refine ⟨s.faultEntry (.gang c g n) v k.toNat, ?_, by rw [hc]; simp, by rw [hc], by rw [hc]⟩
  show execEngineEntryFault _ k s = _
  unfold execEngineEntryFault
  rw [hv]
  refine if_pos ?_
  rcases h with h | h
  · exact .inl (by rw [h]; rfl)
  · exact .inr ⟨hk0, h⟩

/-! ### A collective of one member (R242) -/

theorem core_modEngCtx (s : State) (v : EngineAt) (f : ECtx → ECtx) (c : Nat) : ∃ x, (s.modEngCtx v f).core c = { s.core c with gangs := x } := by
  unfold State.modEngCtx
  split
  · next d g _ => exact core_modGang s d g (fun x => x.setCtx v.ctx (f (x.ctx v.ctx))) c
  · exact ⟨_, rfl⟩

section
variable {s u : State} {c g e : Nat} {v : EngineAt} (hv : s.engineAt (.gang c g 6) = some v)
  (hm : ((s.gang c g).ctx 6).matched < ((s.gang c g).ctx 6).tlcnt.toNat + 1)
include hv hm

theorem collReady_alone : s.collReady (((s.gang c g).ctx 6).tlcnt.toNat + 1) (c, g) = true := by
  have hin := inProgress_of_engineAt hv
  have := hin.left
  unfold State.collReady
  simp only [hin.runs, Bool.not_false, Bool.true_and, beq_self_eq_true, Bool.and_eq_true, decide_eq_true_eq]
  exact ⟨hm, by omega⟩

theorem exec_collectiveMatch_alone {d : State × Nat} (he : s.entryBits v = .ok e) (hk : entryKind e = 5) (hr : coRoot e = 0) (hf : s.collFault v c g e = none)
    (hs : s.collMembers c g e = [(c, g)]) (hd : s.spaceRead v (bits e 168 2) (cpSrc e) (4 * coCount e) = .ok d)
    (hu : s.spaceWrite v (bits e 170 2) (cpDst e) (4 * coCount e) d.2 = .ok u) :
    exec (.collectiveMatch c g) s = .next (u.modEngCtx v fun x =>
      { x with matched := ((s.gang c g).ctx 6).tlcnt.toNat + 1, held := some { va := v.va, entry := BitVec.ofNat 512 e } }) := by
  have hready := collReady_alone hv hm
  have hsame : collSame e e = true := by simp [collSame]
  show execCollectiveMatch c g s = _
  unfold execCollectiveMatch
  rw [hv]
  simp only [he, hf, Option.isSome_none, Bool.or_false, decide_eq_true_eq, hs, List.any_cons, List.any_nil, List.filterMap_cons, hv,
    Option.map_some, List.filterMap_nil, List.map_cons, List.map_nil, hready, hsame, List.length_singleton, Bool.not_true, Bool.or_self,
    List.zip_cons_cons, List.zip_nil_left, hd, hk, hr, bne_self_eq_false]
  rw [if_neg (by omega), if_neg (by omega)]
  simp [hu]

theorem collectiveMatch_alone {d : State × Nat} (he : s.entryBits v = .ok e) (hk : entryKind e = 5) (hr : coRoot e = 0)
    (hf : s.collFault v c g e = none) (hs : s.collMembers c g e = [(c, g)])
    (hd : s.spaceRead v (bits e 168 2) (cpSrc e) (4 * coCount e) = .ok d)
    (hu : s.spaceWrite v (bits e 170 2) (cpDst e) (4 * coCount e) d.2 = .ok u) :
    ∃ t, exec (.collectiveMatch c g) s = .next t ∧ ((t.gang c g).ctx 6).matched = ((s.gang c g).ctx 6).tlcnt.toNat + 1 ∧ t.dram = u.dram ∧
      ∀ k, (t.core k).spad = (u.core k).spad := by
  have hin := inProgress_of_engineAt hv
  refine ⟨_, exec_collectiveMatch_alone hv hm he hk hr hf hs hd hu, ?_, dram_modEngCtx .., fun k => ?_⟩
  · rw [ctx_modEngCtx hin.gang hin.ctx]
  · obtain ⟨x, hx⟩ := core_modEngCtx u v (fun x =>
      { x with matched := ((s.gang c g).ctx 6).tlcnt.toNat + 1, held := some { va := v.va, entry := BitVec.ofNat 512 e } }) k
    rw [hx]

end

end Sys2Proof.Machine

end

section
/-! SUPPORT. The matrix array, ring writes and commands, and the engines' events together (R225, R232, R240, R294). -/

namespace Sys2Proof.Machine

open Sys2Proof.Claims

/-! ### A pass of one octet (R240) -/

/-- An entry once one of its octets has run with the words `ws`. -/
def MatRun.ran (x : MatRun) (o : Nat) (ws : List (Nat × Word)) : MatRun := { x with left := x.left.filter (· != o), out := x.out ++ ws }

/-- The words that the pass of an octet computes. -/
def State.passWords (s : State) (c : Nat) (q : OctOp) (m : MatRun) : List (Nat × Word) :=
  (s.amThrough c q.slot q.ctx q.seq).octetWords c (s.gang c q.slot) m.bits.toNat q.oct m.regs

/-- The entries of a context of which one octet has run. -/
def ECtx.ran (x : ECtx) (q : OctOp) (ws : List (Nat × Word)) : ECtx :=
  { x with mats := x.mats.map fun m => if m.seq = q.seq then m.ran q.oct ws else m }

theorem runOctet_eq {s : State} {c : Nat} {q : OctOp} {m : MatRun} (h : s.octRun c q = some m) :
    s.runOctet c q = s.modGang c q.slot fun g =>
      (g.setCtx (9 - q.ctx) { g.ctx (9 - q.ctx) with mats := (g.ctx (9 - q.ctx)).mats.map (·.renew (s.passWords c q m)) }).setCtx q.ctx
        ((g.ctx q.ctx).ran q (s.passWords c q m)) := by
  unfold State.runOctet
  rw [h]
  rfl

theorem find_ran (l : List MatRun) (seq : DWord) (o : Nat) (ws : List (Nat × Word)) :
    (l.map fun m => if m.seq = seq then m.ran o ws else m).find? (·.seq == seq) = (l.find? (·.seq == seq)).map fun m => m.ran o ws := by
  induction l with
  | nil => rfl
  | cons m l ih =>
    by_cases h : m.seq = seq
    · simp [h, MatRun.ran]
    · simp only [List.map_cons, h, if_false]
      rw [List.find?_cons_of_neg (by simpa using h), List.find?_cons_of_neg (by simpa using h), ih]

/-- Where no entry holds a word yet, a pass finds AM as it stands. -/
theorem amThrough_of_no_words {s : State} {c g n : Nat} (h : ∀ k, ∀ x ∈ ((s.gang c g).ctx k).mats, x.out = []) (seq : DWord) :
    s.amThrough c g n seq = s := by
  have : (s.gang c g).matWords n seq = [] := by
    unfold Gang.matWords
    refine List.flatMap_eq_nil_iff.mpr fun x hx => ?_
    rcases List.mem_append.mp hx with hx | hx
    · exact h _ x hx
    · exact h _ x (List.mem_of_mem_filter hx)
  unfold State.amThrough
  rw [this]
  rfl

theorem exec_matrixPass {s : State} {c : Nat} {q : OctOp} (hr : s.enginesRun c = true) (hq : (s.core c).octQ = [q]) :
    exec (.matrixPass c) s = .next ((s.runOctet c q).modCore c fun k => { k with octQ := k.octQ.filter fun p => !([q].contains p) }) := by
  have hp : s.nextPass c = [q] := by
    unfold State.nextPass
    rw [hq]
    rfl
  show execMatrixPass c s = _
  unfold execMatrixPass
  rw [if_neg (by simp [hr]), hp]
  rfl

theorem matrixPass_runs {s : State} {c : Nat} {q : OctOp} {m : MatRun} (hr : s.enginesRun c = true) (hq : (s.core c).octQ = [q])
    (hm : s.octRun c q = some m) :
    ∃ t, exec (.matrixPass c) s = .next t ∧ (t.core c).octQ = [] ∧
      (t.core c).am = (s.core c).am ∧ t.dram = s.dram ∧ (∃ y, t.octRun c q = some y ∧ y.left = m.left.filter (· != q.oct) ∧
        ((∀ n, ∀ x ∈ ((s.gang c q.slot).ctx n).mats, x.out = []) →
          y.out = s.octetWords c (s.gang c q.slot) m.bits.toNat q.oct m.regs)) := by
  have he := runOctet_eq hm
  obtain ⟨x, hx⟩ : ∃ x, (s.runOctet c q).core c = { s.core c with gangs := x } := by
    rw [he]
    exact core_modGang s c q.slot _ c
  refine ⟨_, exec_matrixPass hr hq, ?_, ?_, ?_, m.ran q.oct (s.passWords c q m), ?_, rfl, fun h => ?_⟩
  · rw [core_modCore_same, hx]
    show (s.core c).octQ.filter _ = []
    rw [hq]
    simp
  · rw [core_modCore_same, hx]
  · rw [he]
    rfl
  · unfold State.octRun at hm ⊢
    rw [gang_modOctQ _ c (fun l => l.filter fun p => !([q].contains p)), he, gang_modGang_same, ctx_setCtx, if_pos rfl]
    unfold ECtx.ran
    rw [find_ran, hm]
    rfl
  · have hmem : m ∈ ((s.gang c q.slot).ctx q.ctx).mats := List.mem_of_find?_eq_some hm
    show m.out ++ s.passWords c q m = _
    unfold State.passWords
    rw [h _ m hmem, amThrough_of_no_words h]
    rfl

/-! ### The array's test (R294) -/

theorem told_of_cq {s t u : State} {e : CqEntry} (h : Told s t e) (hc : u.cq = t.cq) (ht : u.cqTail = t.cqTail) (hi : u.irqs = t.irqs) :
    Told s u e := ⟨by rw [hc, h.entry], by rw [ht, h.tail], by rw [hi, h.irqs]⟩

/-- What the host is told of a test of core `c` that failed. -/
def testEntry (s : State) (c : Nat) : CqEntry :=
  { payload := BitVec.ofNat 64 ((c + (s.core c).selfTest % 2 ^ 34 * 2 ^ 14) % 2 ^ 48), tag := 0, src := BitVec.ofNat 16 (clusterOf c)
    cause := BitVec.ofNat 8 (Config.freeValue s.freeCtr).toNat, kind := kindMachineCheck }

theorem bits_testEntry {s : State} {c : Nat} (hc : c < nCores) : bits (testEntry s c).payload.toNat 0 14 = c := by
  have h : c < 2 ^ 14 := Nat.lt_trans hc (by decide)
  unfold testEntry Machine.bits
  simp only [BitVec.toNat_ofNat]
  omega

theorem matrixSelfTest_passed {s : State} {c : Nat} (hc : c < nCores) :
    ∃ t, exec (.matrixSelfTest c true) s = .next t ∧ (t.core c).selfTest = (s.cluster (clusterOf c)).frames ∧ t.cq = s.cq := by
  refine ⟨s.modCore c fun k => { k with selfTest := s.timeAt (clusterOf c) }, if_pos hc, ?_, rfl⟩
  rw [core_modCore_same]
  rfl

theorem matrixSelfTest_failed {s : State} {c : Nat} (hc : c < nCores) (hr : room s) :
    ∃ t, ∃ e : CqEntry, exec (.matrixSelfTest c false) s = .next t ∧ (t.core c).selfTest = (s.core c).selfTest ∧ e.kind = 7 ∧
      bits e.payload.toNat 0 14 = c ∧ Told s t e := by
  obtain ⟨u, hu⟩ : ∃ u : State, u = { s with freeCtr := s.freeCtr + 1 } := ⟨_, rfl⟩
  have hur : room u := by rw [hu]; exact hr
  have htold := told_cqPost hur (testEntry s c)
  have hmsg := messages_cqPost u (e := testEntry s c) (by show kindMachineCheck ≠ kindGraphFault; decide)
  refine ⟨(u.cqPost (testEntry s c)).bboxEvent (fieldOf c) 3 c ((s.core c).selfTest % 2 ^ 56), testEntry s c, ?_, ?_, rfl, bits_testEntry hc, ?_⟩
  · show execMatrixSelfTest c false s = _
    unfold execMatrixSelfTest
    rw [if_pos hc, hu]
    rfl
  · show ((u.cqPost (testEntry s c)).core c).selfTest = _
    rw [hmsg.core, hu]
    rfl
  · have : Told s (u.cqPost (testEntry s c)) (testEntry s c) := by
      rw [hu] at htold ⊢
      exact ⟨htold.entry, htold.tail, htold.irqs⟩
    exact told_of_cq this rfl rfl rfl

/-! ### Ring writes (R225) -/

theorem findSome?_of_unique {α β : Type} {f : α → Option β} {k : α} {b : β} {l : List α} (hk : k ∈ l) (hb : f k = some b)
    (hno : ∀ h ∈ l, h ≠ k → f h = none) : l.findSome? f = some b := by
  induction l with
  | nil => exact absurd hk List.not_mem_nil
  | cons a l ih =>
    by_cases ha : a = k
    · rw [ha, List.findSome?_cons_of_isSome (by rw [hb]; rfl), hb]
    · rw [List.findSome?_cons_of_isNone (by rw [hno a List.mem_cons_self ha]; rfl)]
      exact ih ((List.mem_cons.mp hk).resolve_left (Ne.symm ha)) fun h hh => hno h (List.mem_cons_of_mem a hh)

section
variable {s : State} {c g k n : Nat} {v : DWord} {w : Wait} (hk : k < 16) (hno : ∀ h, h ≠ k → (s.gang c h).waits = [])
  (hw : (s.gang c k).waits = [w]) (hs : w.sysw = some (g, 0x18 + n, v)) (hd : ((s.gang c g).ctx n).tlcnt = ((s.gang c g).ctx n).tliss)
include hk hno hw hs hd

theorem exec_chringWrite : exec (.chringWrite c g n) s = .next { ((s.setRing c g n v).endWait c k w).finish with focus := s.focus } := by
  have hfind := findSome?_of_unique (f := fun k => ((s.gang c k).waits.reverse.find? fun w =>
      (w.sysw.map fun r => (r.1, r.2.1)) == some (g, 0x18 + n)).map fun w => (k, w)) (b := (k, w)) (List.mem_range.mpr hk)
    (by rw [hw]; simp [hs]) fun h _ hh => by rw [hno h hh]; rfl
  show execChringWrite c g n s = _
  unfold execChringWrite
  simp only [hfind, hs, Gang.drained, hd, beq_self_eq_true, Bool.not_true, Bool.false_eq_true, if_false]

theorem chringWrite_writes :
    ∃ t, exec (.chringWrite c g n) s = .next t ∧ ((t.gang c g).ctx n).chring = v &&& 0x01ffffffffffff01 ∧ (t.gang c k).waits = [] ∧
      (∀ j, j < 64 → w.lanes.getLsbD j = true → ((t.gang c k).lane j).pc = w.pc + BitVec.ofNat 64 w.len) ∧ t.focus = s.focus := by
  have hring : ((s.setRing c g n v).gang c g).ctx n = { (s.gang c g).ctx n with chring := ringBits v } := by
    unfold State.setRing
    rw [gang_modGang_same, ctx_setCtx, if_pos rfl]
  have hwait : ((s.setRing c g n v).gang c k).waits = [w] := by
    by_cases hkg : k = g
    · rw [hkg, State.setRing, gang_modGang_same, ← hkg, ← hw]
      rfl
    · rw [State.setRing, gang_modGang_other s _ (.inr hkg), hw]
  have hme := me_endWait hwait
  have hend := waitEnded_finish (focus_endWait (s.setRing c g n v) c k w) (by rw [hme])
  have hctx := ((sameCtxs_endWait (s.setRing c g n v) c k w).trans (sameCtxs_finish _)).ctx c g n
  refine ⟨_, exec_chringWrite hk hno hw hs hd, ?_, hend.waits, hend.pc, rfl⟩
  show ((((s.setRing c g n v).endWait c k w).finish.gang c g).ctx n).chring = _
  rw [hctx, hring]
  rfl

end

/-! ### Commands (R232) -/

section
variable {s : State} {c g n : Nat} (hu : (s.gang c g).seat.used = true) (hl : (s.gang c g).live = true ∨ (s.gang c handlerSlot).live = true)
  (hc : ((s.gang c g).ctx n).cause ≠ 0) (hr : ((s.gang c g).ctx n).resumed = false)

include hu hl in
theorem commands_of_live : s.commands c g = true := by
  unfold State.commands
  rw [hu]
  rcases hl with h | h <;> simp [h]

include hc hr in
theorem stopped_of_cause : ((s.gang c g).ctx n).stopped = true := by
  unfold ECtx.stopped
  rw [hr, bne_iff_ne.mpr hc]
  rfl

include hu hl hc hr

theorem ectlResume_runs :
    ∃ t, exec (.ectlResume c g n) s = .next t ∧ (t.gang c g).ctx n = { (s.gang c g).ctx n with resumed := true, held := none } ∧
      (∀ m ∈ ((s.gang c g).ctx n).mats, ∀ o ∈ m.left, ∃ q ∈ (t.core c).octQ, q.slot = g ∧ q.ctx = n ∧ q.seq = m.seq ∧ q.oct = o) ∧
      ∀ m, m ≠ n → (t.gang c g).ctx m = (s.gang c g).ctx m := by
  have hs := stopped_of_cause hc hr
  refine ⟨s.resumeCtx c g n, ?_, ?_, fun m hm o ho => ?_, fun m hm => by rw [ctx_resumeCtx hs, if_neg hm]⟩
  · show Host.Outcome.next _ = _
    rw [commands_of_live hu hl]
    rfl
  · rw [ctx_resumeCtx hs, if_pos rfl]
    rfl
  · have hq : ((s.resumeCtx c g n).core c).octQ = (s.core c).octQ ++ s.octsLeft c g n := by
      rw [resumeCtx_eq hs, ← octQ_requeue]
      obtain ⟨x, hx⟩ := core_modGang (s.requeue c g n) c g
        (fun y => { y.setCtx n ((s.gang c g).ctx n).resume with endFaults := y.endFaults.filter (· != n) }) c
      rw [hx]
    refine ⟨{ slot := g, ctx := n, seq := m.seq, oct := o, arrived := s.cycles (clusterOf c) }, ?_, rfl, rfl, rfl, rfl⟩
    rw [hq]
    exact List.mem_append_right _ (List.mem_flatMap.mpr ⟨m, hm, List.mem_map.mpr ⟨o, ho, rfl⟩⟩)

theorem ectlAbandon_skips :
    ∃ t, exec (.ectlAbandon c g n) s = .next t ∧ ((t.gang c g).ctx n).cause = 0 ∧ ((t.gang c g).ctx n).done = 0 ∧
      ((t.gang c g).ctx n).mats = [] ∧
      ((t.gang c g).ctx n).tlcnt = ((s.gang c g).ctx n).tliss ∧ ((t.gang c g).ctx n).tliss = ((s.gang c g).ctx n).tliss ∧
      ∀ m, m ≠ n → (t.gang c g).ctx m = (s.gang c g).ctx m := by
  have hs := stopped_of_cause hc hr
  have hx : ((s.abandonCtx c g n).gang c g).ctx n = ((s.gang c g).ctx n).abandon := by rw [ctx_abandonCtx hs, if_pos rfl]
  refine ⟨s.abandonCtx c g n, ?_, by rw [hx]; rfl, by rw [hx]; rfl, by rw [hx]; rfl, by rw [hx]; rfl, by rw [hx]; rfl,
    fun m hm => by rw [ctx_abandonCtx hs, if_neg hm]⟩
  show Host.Outcome.next _ = _
  rw [commands_of_live hu hl]
  rfl

end

/-! ### Together -/

theorem engines_hold : Claims.engines := by
  refine ⟨?_, fun c q m s => matrixPass_runs, fun c s hc => ⟨matrixSelfTest_passed hc, matrixSelfTest_failed hc⟩,
    fun c g k n v w s hk hno hw hs hd _ => chringWrite_writes hk hno hw hs hd,
    fun c g n s hu hl hc hr => ⟨ectlResume_runs hu hl hc hr, ectlAbandon_skips hu hl hc hr⟩⟩
  intro c g n e v s hv he x completes
  have hin := inProgress_of_engineAt hv
  have hdone {next : Nat} (h : exec (.engineEntryComplete (.gang c g n)) s = .next (s.completeEntry (.gang c g n) v next)) : completes := by
    obtain ⟨h1, h2, h3, h4, h5⟩ := entryDone_completeEntry (s := s) hin.gang hin.ctx next
    exact ⟨_, h, h1, h2, h3, h4, h5⟩
  refine ⟨fun sl dims hn hp => ⟨fun hr => hdone (exec_complete_copy hv he hn hp hr), fun u hr hu => engineRowWritten_writes hv he hn hp hr hu⟩,
    fun hn hl => hdone (exec_complete_matrix hv he hn hl), fun hn hm => hdone (exec_complete_collective hv he hn hm),
    fun u hn hu => exec_complete_put hv he hn hu, fun k hk h => engineEntryFault_stops hv hk h, ?_⟩
  intro d u hn hm hk hr hf hs hd hu
  subst hn
  exact collectiveMatch_alone hv hm he hk hr hf hs hd hu

end Sys2Proof.Machine

end

section
/-! SUPPORT. Writes that a filter, the handler and a debugger's handler complete (R47, R299, R306). -/

namespace Sys2Proof.Machine

open Sys2Proof.Claims

/-! ### Filters (R47) -/

/-- The filter and landing registers of a cluster are those numbered from 0x050 to 0x067. -/
theorem sysReg_filter {x : Nat} (h1 : 0x050 ≤ x) (h2 : x < 0x068) :
    ∃ r, sysReg x = some r ∧ r.filter = true ∧ ∀ n, x = 0x050 + n → n < 8 → r = .bfltBase n := by
  by_cases ha : x < 0x058
  · refine ⟨.bfltBase (x - 0x050), ?_, rfl, fun n hx _ => congrArg _ (by omega)⟩
    have := sysReg_number (.bfltBase (x - 0x050)) (by show x - 0x050 < 8; omega)
    rwa [show SysReg.number (.bfltBase (x - 0x050)) = x by show 0x050 + (x - 0x050) = x; omega] at this
  · by_cases hb : x < 0x060
    · refine ⟨.bfltLim (x - 0x058), ?_, rfl, fun n hx hn => by omega⟩
      have := sysReg_number (.bfltLim (x - 0x058)) (by show x - 0x058 < 8; omega)
      rwa [show SysReg.number (.bfltLim (x - 0x058)) = x by show 0x058 + (x - 0x058) = x; omega] at this
    · refine ⟨.bland (x - 0x060), ?_, rfl, fun n hx hn => by omega⟩
      have := sysReg_number (.bland (x - 0x060)) (by show x - 0x060 < 8; omega)
      rwa [show SysReg.number (.bland (x - 0x060)) = x by show 0x060 + (x - 0x060) = x; omega] at this

section
variable {c g k x : Nat} {v : DWord} {w : Wait} {s : State} (hw : (s.gang c g).waits = [w]) (hs : w.sysw = some (k, x, v))
include hw hs

theorem exec_filterWrite {r : SysReg} (hr : sysReg x = some r) (hf : r.filter = true) : exec (.filterWrite c g) s =
    .next { ((s.setFilter (clusterOf c) r v).endWait c g w).finish with focus := s.focus } := by
  have hfind : ((s.gang c g).waits.reverse.find? fun w => ((w.sysw.bind fun r => sysReg r.2.1).map (·.filter)).getD false) = some w := by
    rw [hw]
    simp [hs, hr, hf]
  show execFilterWrite c g s = _
  unfold execFilterWrite
  rw [hfind]
  simp only [hs, hr]

theorem filterWrite_writes (h1 : 0x050 ≤ x) (h2 : x < 0x068) :
    ∃ t, exec (.filterWrite c g) s = .next t ∧ (t.gang c g).waits = [] ∧
      (∀ n, x = 0x050 + n → n < 8 → (t.cluster (clusterOf c)).fbase.get 0 n = v &&& 0x800000ffffffff80) ∧
      (∀ j, j < 64 → w.lanes.getLsbD j = true → ((t.gang c g).lane j).pc = w.pc + BitVec.ofNat 64 w.len) ∧ t.focus = s.focus := by
  obtain ⟨r, hr, hf, hn⟩ := sysReg_filter h1 h2
  have hme := me_endWait (s := s.setFilter (clusterOf c) r v) (w := w) hw
  have hend := waitEnded_finish (focus_endWait (s.setFilter (clusterOf c) r v) c g w) (by rw [hme])
  refine ⟨_, exec_filterWrite hw hs hr hf, hend.waits, fun n hx hn8 => ?_, hend.pc, rfl⟩
  have hk := (controlOnly_endWait_finish (s.setFilter (clusterOf c) r v) c g w).cluster (clusterOf c)
  show (State.cluster { ((s.setFilter (clusterOf c) r v).endWait c g w).finish with focus := (s.setFilter (clusterOf c) r v).focus }
    (clusterOf c)).fbase.get 0 n = _
  rw [hk, hn n hx hn8]
  unfold State.setFilter
  rw [cluster_modCluster_same]
  exact SMap.get_put_same ..

end

/-! ### MONDONE (R306) -/

theorem monDone_eq (s : State) (c : Nat) (v : DWord) : s.monDone c v = s.cqPost
    { payload := BitVec.ofNat 64 (v.toNat % 2 ^ 16), tag := 0, src := BitVec.ofNat 16 c, cause := BitVec.ofNat 8 (v.toNat / 2 ^ 16), kind := 9 } := by
  have hc := extract_of_nat v.toNat 16 8 v.isLt
  rw [BitVec.ofNat_toNat, BitVec.setWidth_eq] at hc
  unfold State.monDone
  rw [hc, show bits v.toNat 0 16 = v.toNat % 2 ^ 16 by simp [Machine.bits]]
  rfl

section
variable {c : Nat} {s : State} (hl : (s.gang c handlerSlot).live = true)
include hl

theorem mondoneWrite_waits (v : DWord) (h : s.handlerWrites c = true) : exec (.mondoneWrite c v) s = .next s := by
  show Host.Outcome.next _ = _
  rw [hl, h]
  rfl

theorem mondoneWrite_tells {v : DWord} (hv : v.toNat < 2 ^ 24) (h : s.handlerWrites c = false) (hr : room s) :
    ∃ t, exec (.mondoneWrite c v) s = .next t ∧ Told s t
      { payload := BitVec.ofNat 64 (v.toNat % 2 ^ 16), tag := 0, src := BitVec.ofNat 16 c, cause := BitVec.ofNat 8 (v.toNat / 2 ^ 16), kind := 9 } := by
  refine ⟨s.monDone c v, ?_, by rw [monDone_eq]; exact told_cqPost hr _⟩
  show Host.Outcome.next _ = _
  rw [hl, h, decide_eq_true hv]
  rfl

/-! ### Stops and steps (R299) -/

variable {g : Nat} (hc : c < nCores) (hg : g < 15)
include hc hg

theorem exec_gangStop (stop : Bool) : exec (.gangStop c g stop) s = .next (s.setGdbg c g (if stop then 1 else 0)) := by
  show Host.Outcome.next _ = _
  rw [if_pos ⟨hc, hg, hl⟩]

theorem gangStop_stops : ∃ t, exec (.gangStop c g true) s = .next t ∧ (t.gang c g).gdbStop = true ∧ { t.gang c g with
    gdbStop := (s.gang c g).gdbStop, gdbStep := (s.gang c g).gdbStep } = s.gang c g := by
  refine ⟨_, exec_gangStop hl hc hg true, ?_, ?_⟩ <;> unfold State.setGdbg <;> rw [gang_modGang_same]
  rfl

theorem gangStop_goes : ∃ t, exec (.gangStop c g false) s = .next t ∧ (t.gang c g).gdbStop = false ∧ (t.gang c g).gdbStep = false := by
  refine ⟨_, exec_gangStop hl hc hg false, ?_, ?_⟩ <;> unfold State.setGdbg <;> rw [gang_modGang_same] <;> rfl

theorem gangStep_steps (hs : (s.gang c g).gdbStop = true) :
    ∃ t, exec (.gangStep c g) s = .next t ∧ (t.gang c g).gdbStop = true ∧ (t.gang c g).gdbStep = true := by
  refine ⟨s.setGdbg c g 3, ?_, ?_, ?_⟩
  · show Host.Outcome.next _ = _
    rw [if_pos ⟨hc, hg, hl, hs⟩]
  · unfold State.setGdbg
    rw [gang_modGang_same]
    rfl
  · unfold State.setGdbg
    rw [gang_modGang_same]
    show (true && ((s.gang c g).gdbStep || true)) = true
    rw [Bool.or_true]
    rfl

end

/-! ### The handler starts (R274, R276) -/

theorem gang_startHandler (s : State) (c s1 s3 s4 : Nat) : ∃ x, (s.startHandler c s1 s3 s4).gang c handlerSlot =
    { { s.gang c handlerSlot with kind := .handler }.fresh 0xffff (BitVec.ofNat 64 (bits s.hentry.toNat 0 57))
        [(1, BitVec.ofNat 64 s1), (3, BitVec.ofNat 64 s3), (4, BitVec.ofNat 64 s4)] with stampRx := x } :=
  ⟨_, gang_modGang_same ..⟩

/-- The handler that starts, as every entry finds it; `s` gives the entry's address and the other gangs. -/
theorem handlerStarts_startHandler {s u : State} (he : u.hentry = s.hentry) {c : Nat} (hg : ∀ h, h ≠ handlerSlot → u.gang c h = s.gang c h)
    (s1 s3 s4 : Nat) : handlerStarts s (u.startHandler c s1 s3 s4) c s1 s3 s4 := by
  obtain ⟨x, hx⟩ := gang_startHandler u c s1 s3 s4
  unfold handlerStarts
  simp only [hx]
  refine ⟨rfl, rfl, rfl, rfl, rfl, rfl, fun n h1 h3 h4 => ?_, fun n hn => ?_, fun r j => rfl, fun j hj => ?_, fun h hh => ?_⟩
  · unfold Gang.sreg
    split
    · rfl
    · refine (SMap.get_putAll_other _ _ _ _ fun p hp => ?_).trans rfl
      simp only [List.mem_cons, List.not_mem_nil, or_false] at hp
      rcases hp with rfl | rfl | rfl
      exacts [Ne.symm h1, Ne.symm h3, Ne.symm h4]
  · refine get_of_not_mem fun p hp => ?_
    rw [List.mem_singleton.mp hp]
    exact Ne.symm hn
  · have hl : j ∈ lanesOf 0xffff := by
      refine mem_lanesOf.mpr ⟨by omega, ?_⟩
      interval_cases j <;> decide
    have : SMap.get {} ((lanesOf 0xffff).map fun j => (j, ({ pc := BitVec.ofNat 64 (bits u.hentry.toNat 0 57) } : LaneSt))) j =
        { pc := BitVec.ofNat 64 (bits u.hentry.toNat 0 57) } := SMap.get_map_keys _ _ hl
    refine ⟨?_, ?_, ?_⟩ <;> refine Eq.trans (congrArg _ this) ?_
    · rw [he]
    · rfl
    · rfl
  · rw [← hg h hh]
    exact gang_modGang_other _ _ (.inr hh)

end Sys2Proof.Machine

end

section
/-! SUPPORT. The handler takes its work: a doorbell, and a trap whose frame finds no page (R274, R276, R280, R305). -/

namespace Sys2Proof.Machine

open Sys2Proof.Claims

/-! ### What the handler serves -/

/-- The work of a core as the handler serves its first piece. -/
def State.serves (s : State) (c : Nat) (rest : List HWork) (x : Serving) : State :=
  s.modCore c fun k => { k with work := rest, serving := some x }

theorem core_startHandler (s : State) (c s1 s3 s4 : Nat) : ∃ x, (s.startHandler c s1 s3 s4).core c = { s.core c with gangs := x } :=
  core_modGang _ c handlerSlot _ c

theorem gang_serves (s : State) (c : Nat) (rest : List HWork) (x : Serving) (d e : Nat) : (s.serves c rest x).gang d e = s.gang d e :=
  gang_modCore s c (f := fun k => { k with work := rest, serving := some x }) (fun _ => rfl) d e

theorem hentry_serves (s : State) (c : Nat) (rest : List HWork) (x : Serving) : (s.serves c rest x).hentry = s.hentry := rfl

theorem core_serves_started (s : State) (c : Nat) (rest : List HWork) (x : Serving) (s1 s3 s4 : Nat) :
    (((s.serves c rest x).startHandler c s1 s3 s4).core c).work = rest ∧
      (((s.serves c rest x).startHandler c s1 s3 s4).core c).serving = some x := by
  obtain ⟨y, hy⟩ := core_startHandler (s.serves c rest x) c s1 s3 s4
  rw [hy]
  unfold State.serves
  rw [core_modCore_same]
  exact ⟨rfl, rfl⟩

theorem offPath_lookedUp (s : State) (c : Nat) : (lookedUp s c).offPath = s.offPath := offPath_queueWalk ..

theorem frameVa_lookedUp (s : State) (c : Nat) : (lookedUp s c).frameVa c = s.frameVa c := by
  have h : (lookedUp s c).offPath.1.frameVa c = s.offPath.1.frameVa c := by rw [offPath_lookedUp]
  exact h

/-- What the host is told where a frame cannot be written. -/
def stopEntry (c e : Nat) : CqEntry :=
  { payload := BitVec.ofNat 64 c, tag := 0, src := BitVec.ofNat 16 (clusterOf c), cause := BitVec.ofNat 8 e, kind := 7 }

theorem coreCheck_tells {c : Nat} (hc : c < nCores) {o : State} (ho : room o) (e : Nat) : Told o (o.coreCheck c e) (stopEntry c e) := by
  have h := told_cqPost ho (stopEntry c e)
  have he : o.message kindMachineCheck (clusterOf c) e c = o.cqPost (stopEntry c e) := by
    unfold State.message stopEntry
    rw [Nat.mod_eq_of_lt (Nat.lt_trans hc (by decide))]
    rfl
  unfold State.coreCheck
  simp only [he]
  exact told_of_cq h rfl rfl rfl

section
variable {c : Nat} {rest : List HWork} {s : State} (hr : s.coreRuns c = true) (hc : c < nCores) (hs : (s.core c).hStopped = false)
  (hl : (s.gang c handlerSlot).live = false)
include hr hc hs hl

/-- A handler that is free takes the next of its work. -/
theorem handlerFree : ¬ (!s.coreRuns c ∨ nCores ≤ c ∨ (s.core c).hStopped ∨ (s.gang c handlerSlot).live) := by
  simp [hr, hs, hl, hc]

/-! ### Doorbells (R305) -/

theorem exec_handlerEntry_doorbell {seq : Half} (hw : (s.core c).work = .doorbell seq :: rest) : exec (.handlerEntry c) s =
    .next ((s.serves c rest (.monitor seq)).startHandler c (bits (s.hostRegs.get 0 0x36000).toNat 12 45 * 4096 + 256 * c) 0x1f 0) := by
  show execHandlerEntry c s = _
  unfold execHandlerEntry
  rw [if_neg (handlerFree hr hc hs hl), hw]
  rfl

theorem handlerEntry_doorbell {seq : Half} (hw : (s.core c).work = .doorbell seq :: rest) :
    ∃ t, exec (.handlerEntry c) s = .next t ∧ (t.core c).work = rest ∧ (t.core c).serving = some (.monitor seq) ∧
      handlerStarts s t c (bits (s.hostRegs.get 0 0x36000).toNat 12 45 * 4096 + 256 * c) 0x1f 0 ∧ t.dram = s.dram := by
  obtain ⟨h1, h2⟩ := core_serves_started s c rest (.monitor seq) (bits (s.hostRegs.get 0 0x36000).toNat 12 45 * 4096 + 256 * c) 0x1f 0
  refine ⟨_, exec_handlerEntry_doorbell hr hc hs hl hw, h1, h2, ?_, rfl⟩
  exact handlerStarts_startHandler (s := s) (u := s.serves c rest (.monitor seq)) rfl (fun h _ => gang_serves ..) _ _ _

/-! ### Traps -/

/-- The handler stops, and the host is told. -/
def State.stopsHandler (s : State) (c e : Nat) : State := (s.modCore c fun k => { k with hStopped := true }).coreCheck c e

/-- How the handler takes a trap, once its frame's page can be looked up. -/
def State.takesTrap (s : State) (c : Nat) (u : TrapRec) (rest : List HWork) : Out :=
  match (lookedUp s c).translate c (handlerAsn s) (handlerRoot s) ((lookedUp s c).frameVa c) .write with
  | .error e => .next (s.stopsHandler c e)
  | .ok p =>
    match (lookedUp s c).reach c p 8 true with
    | some e => .next (s.stopsHandler c e)
    | none => if (lookedUp s c).frameOpen c p true then .next ((lookedUp s c).serveTrap c u rest p) else .next (lookedUp s c)

theorem exec_handlerEntry_trap {u : TrapRec} (hw : (s.core c).work = .trap u :: rest) (hf : (s.cluster (clusterOf c)).nextFreq = none)
    (ho : s.walkOpen c (handlerAsn s) (handlerRoot s) (s.frameVa c) = true) : exec (.handlerEntry c) s = s.takesTrap c u rest := by
  show execHandlerEntry c s = _
  unfold execHandlerEntry
  rw [if_neg (handlerFree hr hc hs hl), hw]
  simp only [hf, Option.isSome_none, Bool.false_eq_true, if_false]
  unfold State.takesTrap lookedUp
  unfold handlerAsn handlerRoot at ho ⊢
  rw [ho]
  rfl

theorem handlerEntry_noPage {u : TrapRec} {e : Nat} (hw : (s.core c).work = .trap u :: rest) (hf : (s.cluster (clusterOf c)).nextFreq = none)
    (ho : s.walkOpen c (handlerAsn s) (handlerRoot s) (s.frameVa c) = true)
    (ht : (lookedUp s c).translate c (handlerAsn s) (handlerRoot s) (s.frameVa c) .write = .error e) (hroom : room s) :
    ∃ t, exec (.handlerEntry c) s = .next t ∧ (t.core c).hStopped = true ∧ (t.core c).work = (s.core c).work ∧ Told s t (stopEntry c e) := by
  have hmsg := messages_coreCheck (s.modCore c fun k => { k with hStopped := true }) c e
  have htold := coreCheck_tells (o := s.modCore c fun k => { k with hStopped := true }) hc hroom e
  refine ⟨s.stopsHandler c e, ?_, ?_, ?_, htold.entry, htold.tail, htold.irqs⟩
  · rw [exec_handlerEntry_trap hr hc hs hl hw hf ho]
    unfold State.takesTrap
    rw [frameVa_lookedUp, ht]
  · unfold State.stopsHandler
    rw [hmsg.core, core_modCore_same]
  · unfold State.stopsHandler
    rw [hmsg.core, core_modCore_same]

end

end Sys2Proof.Machine

end

section
/-! SUPPORT. Coherent writes of a core where its cluster's L2 holds no dirty byte: DRAM takes them, and nothing else (R185, R187, R188). -/

namespace Sys2Proof.Machine

open Sys2Proof.Claims

/-! ### A clean L2 -/

/-- No line of a cluster's L2 is dirty. -/
def CleanL2 (k : Nat) (s : State) : Prop := ∀ e ∈ (s.cluster k).l2, e.2.mask = 0

/-- From `s` to `t` DRAM is the same, and cluster `k` has taken no line into its L2. -/
structure StaysClean (k : Nat) (s t : State) : Prop where
  dram : t.dram = s.dram
  l2 : ∀ e ∈ (t.cluster k).l2, e ∈ (s.cluster k).l2

theorem StaysClean.refl (k : Nat) (s : State) : StaysClean k s s := ⟨rfl, fun _ h => h⟩

theorem StaysClean.trans {k : Nat} {s t u : State} (h : StaysClean k s t) (h' : StaysClean k t u) : StaysClean k s u :=
  ⟨h'.dram.trans h.dram, fun e he => h.l2 e (h'.l2 e he)⟩

theorem StaysClean.clean {k : Nat} {s t : State} (h : StaysClean k s t) (hs : CleanL2 k s) : CleanL2 k t := fun e he => hs e (h.l2 e he)

theorem staysClean_foldl {α : Type} {k : Nat} {f : State → α → State} (hf : ∀ s a, CleanL2 k s → StaysClean k s (f s a)) (l : List α) {s : State}
    (hs : CleanL2 k s) : StaysClean k s (l.foldl f s) := by
  induction l generalizing s with
  | nil => exact .refl k s
  | cons a l ih => exact (hf s a hs).trans (ih ((hf s a hs).clean hs))

theorem staysClean_of_clusters {k : Nat} {s t : State} (h1 : t.dram = s.dram) (h2 : t.clusters = s.clusters) : StaysClean k s t :=
  ⟨h1, fun e he => by rwa [cluster_of_clusters h2] at he⟩

theorem staysClean_of_snoop {s t : State} (h : SnoopOnly s t) (k : Nat) : StaysClean k s t := by
  refine ⟨by rw [h.rest], fun e he => ?_⟩
  rw [← h.cluster k]
  exact he

theorem staysClean_modCluster (k : Nat) (s : State) (q : Nat) {f : Cluster → Cluster} (h : ∀ x, ∀ e ∈ (f x).l2, e ∈ x.l2) :
    StaysClean k s (s.modCluster q f) := by
  refine ⟨rfl, fun e he => ?_⟩
  by_cases hq : k = q
  · rw [hq, cluster_modCluster_same] at he
    rw [hq]
    exact h _ e he
  · rwa [cluster_modCluster_other _ _ hq] at he

theorem staysClean_readEntry (k : Nat) (s : State) (r e : Nat) : StaysClean k s (s.readEntry r e) := by
  rw [readEntry_rest]
  exact staysClean_of_clusters rfl rfl

theorem staysClean_inject (k : Nat) (s : State) (src dst : Nat) (l : Launch) (rc addr : Nat) (body : PktBody) :
    StaysClean k s (s.inject src dst l rc addr body) :=
  (staysClean_readEntry k s (s.physOf src) dst).trans (staysClean_of_clusters rfl rfl)

theorem staysClean_sendMsg (k : Nat) (s : State) (bus q core frames : Nat) (body : MsgBody) (ltag : Half) :
    StaysClean k s (s.sendMsg bus q core frames body ltag).1 := staysClean_of_clusters rfl rfl

theorem staysClean_evicting (k : Nat) (s : State) (l : List Nat) : StaysClean k s { s with evicting := l } := staysClean_of_clusters rfl rfl

theorem staysClean_homeBits (k : Nat) (s : State) (x : SMap (BitVec 2)) : StaysClean k s { s with homeBits := x } := staysClean_of_clusters rfl rfl

theorem staysClean_countSnoop (k : Nat) (s : State) (bus q : Nat) : StaysClean k s (s.countSnoop bus q) := staysClean_of_clusters rfl rfl

theorem staysClean_loseCoherent (k : Nat) (s : State) (q sb : Nat) : StaysClean k s (s.loseCoherent q sb) := by
  have h := (staysClean_of_snoop (snoopOnly_setMoesi s q sb .i) k).trans
    (staysClean_modCluster k _ q (f := fun x => { x with evicts := x.evicts + 1 }) fun _ _ h => h)
  unfold State.loseCoherent
  simp only []
  split
  · exact h
  · refine h.trans ((staysClean_sendMsg k _ (sb % 16) q (transmitter q) 1 (.snoop .ev sb 0) 0).trans ?_)
    exact (staysClean_inject k _ (transmitter q) (256 * sb / 2 ^ 27) {} 0 (256 * sb) (.evict sb)).trans (staysClean_evicting k _ _)

section
variable {k : Nat} {s : State} (h : CleanL2 k s)
include h

theorem l2WriteBack_of_clean (la : Nat) : s.l2WriteBack k la = s := by
  have hm : (s.l2Line k la).mask = 0 := SMap.get_of_all (P := fun l : Line => l.mask = 0) rfl h la
  unfold State.l2WriteBack
  exact if_pos hm

theorem staysClean_l2WriteUnit (la : Nat) : StaysClean k s (s.l2WriteUnit k la) := by
  have hf : (tied (s.cluster k).ties la).foldl (fun s a => s.l2WriteBack k a) s = s := by
    induction tied (s.cluster k).ties la with
    | nil => rfl
    | cons a l ih => rw [List.foldl_cons, l2WriteBack_of_clean h, ih]
  unfold State.l2WriteUnit
  simp only [hf]
  split
  · exact .refl k s
  · exact staysClean_modCluster k s k fun _ _ h => h

theorem staysClean_l2Evict (sb : Nat) : StaysClean k s (s.l2Evict k sb) := by
  have hf := staysClean_foldl (fun s i hs => staysClean_l2WriteUnit hs (4 * sb + i)) (List.range 4) h
  unfold State.l2Evict
  simp only []
  generalize (List.range 4).foldl (fun s i => s.l2WriteUnit k (4 * sb + i)) s = t at hf ⊢
  exact hf.trans (staysClean_modCluster k t k fun x e he => List.mem_of_mem_filter he)

theorem staysClean_l2Shrink (sb : Nat) (keep : List Nat) : StaysClean k s (s.l2Shrink k sb keep) := by
  unfold State.l2Shrink
  simp only []
  split
  · next v _ =>
    have hv : StaysClean k s (if (tagsOf (s.cluster k).l2).contains v then s.l2Evict k v else s) := by
      split
      · exact staysClean_l2Evict h v
      · exact .refl k s
    revert hv
    generalize (if (tagsOf (s.cluster k).l2).contains v then s.l2Evict k v else s) = u
    intro hv
    split
    · exact hv
    · exact hv.trans (staysClean_loseCoherent k u k v)
  · exact .refl k s

theorem staysClean_l2Room (sb : Nat) (keep : List Nat) : StaysClean k s (s.l2Room k sb keep) := by
  unfold State.l2Room
  simp only []
  split
  · exact .refl k s
  · exact staysClean_l2Shrink h sb keep

theorem staysClean_own (sb : Nat) : StaysClean k s (s.own k sb) := by
  unfold State.own
  split
  · exact .refl k s
  · exact staysClean_of_snoop (snoopOnly_setMoesi s k sb .m) k
  · have hr := (staysClean_l2Room h sb []).trans (staysClean_countSnoop k _ (sb % 16) k)
    have ho := hr.trans (staysClean_of_snoop (snoopOnly_snoopOthers _ k sb .rx) k)
    have hm := ho.trans (staysClean_of_snoop (snoopOnly_setMoesi _ k sb .m) k)
    exact hm.trans (staysClean_homeBits k _ _)

theorem staysClean_share (sb : Nat) : StaysClean k s (s.share k sb) := by
  unfold State.share
  split
  · exact .refl k s
  · have hr := (staysClean_l2Room h sb []).trans (staysClean_countSnoop k _ (sb % 16) k)
    have ho := hr.trans (staysClean_of_snoop (snoopOnly_snoopOthers _ k sb .rs) k)
    simp only []
    exact (ho.trans (staysClean_of_snoop (snoopOnly_setMoesi _ k sb _) k)).trans (staysClean_homeBits k _ _)

end

/-- The walk of a page leaves a clean L2 clean. -/
theorem staysClean_queueWalk {c : Nat} {s : State} (h : CleanL2 (clusterOf c) s) (asn : Half) (root va : Nat) :
    StaysClean (clusterOf c) s (s.queueWalk c asn root va) := by
  unfold State.queueWalk
  split
  · exact .refl _ s
  · have hr : StaysClean (clusterOf c) s (s.readWalk c asn root va) := by
      refine staysClean_foldl (fun t sb ht => ?_) _ h
      split
      · have he := staysClean_readEntry (clusterOf c) t (t.physOf c) (sb / 2 ^ 19)
        exact he.trans (staysClean_share (he.clean ht) sb)
      · exact .refl _ t
    refine hr.trans ?_
    have hw (t : State) (l : List WalkReq) : StaysClean (clusterOf c) t (t.setCluster (clusterOf c) { t.cluster (clusterOf c) with walks := l }) :=
      staysClean_modCluster (clusterOf c) t (clusterOf c) (f := fun x => { x with walks := l }) fun _ _ h => h
    unfold State.askWalk
    simp only []
    split
    · exact .refl _ _
    · split
      · exact hw _ _
      · split
        · exact .refl _ _
        · exact hw _ _

/-! ### A coherent write -/

theorem physOf_of_offPath {s t : State} (h : t.offPath = s.offPath) (c : Nat) : t.physOf c = s.physOf c := by
  have h1 : t.offPath.1.upds = s.offPath.1.upds ∧ t.offPath.1.tbl = s.offPath.1.tbl := by rw [h]; exact ⟨rfl, rfl⟩
  have h2 : (t.cluster (clusterOf c)).offPath.epoch = (s.cluster (clusterOf c)).offPath.epoch := by rw [cluster_of_offPath h]
  have h1a : t.upds = s.upds := h1.1
  have h1b : t.tbl = s.tbl := h1.2
  have h2a : (t.cluster (clusterOf c)).epoch = (s.cluster (clusterOf c)).epoch := h2
  unfold State.physOf State.tableAt
  rw [h1a, h1b, h2a]

/-- Where coherent bytes at `pa` lie in DRAM. -/
def State.homeKey (s : State) (pa : Nat) : Nat := dramKey (s.physOf (pa / 2 ^ 27)) pa

theorem memWrite_coherent {c n v : Nat} {p : Trans} {s : State} (h : CleanL2 (clusterOf c) s) (hp : p.kind = .coherent) :
    (s.memWrite c p n v).dram = s.dram.writeN (s.homeKey p.pa) n v ∧ CleanL2 (clusterOf c) (s.memWrite c p n v) := by
  obtain ⟨u, hu⟩ : ∃ u, u = ((s.askCoh c p.pa true).own (clusterOf c) (p.pa / 256)).dropCopies (clusterOf c) (p.pa / 256) (· != c) := ⟨_, rfl⟩
  have hm : s.memWrite c p n v = u.cohWrite p.pa n v := by
    unfold State.memWrite
    rw [hp, hu]
  have ha : StaysClean (clusterOf c) s (s.askCoh c p.pa true) := by
    unfold State.askCoh
    split
    · exact .refl _ s
    · exact staysClean_readEntry _ s _ _
  have hk : StaysClean (clusterOf c) s u := by
    rw [hu]
    exact (ha.trans (staysClean_own (ha.clean h) _)).trans (staysClean_of_snoop (snoopOnly_dropCopies _ _ _ _) _)
  have hoff : u.offPath = s.offPath := by
    rw [hu]
    simp
  rw [hm]
  refine ⟨?_, fun e he => h e (hk.l2 e he)⟩
  show u.dram.writeN (dramKey (u.physOf (p.pa / 2 ^ 27)) p.pa) n v = _
  rw [hk.dram, physOf_of_offPath hoff]
  rfl

/-- The words of `val` written at the places of `l`, from the address `p.pa` on. -/
def State.writeWords (s : State) (c : Nat) (p : Trans) (val : Nat → Nat) (l : List Nat) : State :=
  l.foldl (fun (s : State) i => s.memWrite c { p with pa := p.pa + 8 * i } 8 (val i)) s

theorem offPath_writeWords (s : State) (c : Nat) (p : Trans) (val : Nat → Nat) (l : List Nat) : (s.writeWords c p val l).offPath = s.offPath := by
  unfold State.writeWords
  simp

theorem dram_writeWords {c : Nat} {p : Trans} (hp : p.kind = .coherent) (val : Nat → Nat) (l : List Nat) {s : State} (h : CleanL2 (clusterOf c) s) :
    (s.writeWords c p val l).dram = l.foldl (fun m i => Memory.writeN m (s.homeKey (p.pa + 8 * i)) 8 (val i)) s.dram := by
  induction l generalizing s with
  | nil => rfl
  | cons i l ih =>
    obtain ⟨hd, hc⟩ := memWrite_coherent (p := { p with pa := p.pa + 8 * i }) (n := 8) (v := val i) h hp
    have hk (pa : Nat) : (s.memWrite c { p with pa := p.pa + 8 * i } 8 (val i)).homeKey pa = s.homeKey pa := by
      unfold State.homeKey
      rw [physOf_of_offPath (offPath_memWrite ..)]
    show ((s.memWrite c { p with pa := p.pa + 8 * i } 8 (val i)).writeWords c p val l).dram = _
    rw [ih hc, hd, List.foldl_cons]
    simp only [hk]

/-! ### Words in memory -/

theorem readN_congr {m m' : Memory} {a n : Nat} (h : ∀ k, a ≤ k → k < a + n → m.read k = m'.read k) : m.readN a n = m'.readN a n := by
  induction n generalizing a with
  | zero => rfl
  | succ n ih =>
    show (m.read a).toNat + 256 * m.readN (a + 1) n = (m'.read a).toNat + 256 * m'.readN (a + 1) n
    rw [h a (by omega) (by omega), ih fun k h1 h2 => h k (by omega) (by omega)]

/-- Words written one after another: each reads as it was written. -/
theorem readN_foldl_writeN (b : Nat) (val : Nat → Nat) (m : Memory) {n j : Nat} (hj : j < n) :
    Memory.readN ((List.range n).foldl (fun m i => Memory.writeN m (b + 8 * i) 8 (val i)) m) (b + 8 * j) 8 = val j % 2 ^ 64 := by
  induction n with
  | zero => exact absurd hj (Nat.not_lt_zero j)
  | succ n ih =>
    rw [List.range_succ, List.foldl_append, List.foldl_cons, List.foldl_nil]
    by_cases h : j = n
    · rw [h, Memory.readN_writeN, show (256 : Nat) ^ 8 = 2 ^ 64 by decide]
    · rw [readN_congr (m' := (List.range n).foldl (fun m i => Memory.writeN m (b + 8 * i) 8 (val i)) m) fun k h1 h2 =>
        Memory.read_writeN_other _ _ _ _ _ (by omega)]
      exact ih (by omega)

end Sys2Proof.Machine

end

section
/-! SUPPORT and CLAIM. The frame of a trap, the handler's entry on it, and the events of a core together (R274 to R277). -/

namespace Sys2Proof.Machine

open Sys2Proof.Claims

/-! ### The words of a frame (R277) -/

/-- The first words of a frame. -/
def TrapRec.headWords (t : TrapRec) (g : Gang) (ttake : Nat) : List (Nat × Nat) :=
  [(0, ((t.causes.take 8).head?.map (·.1)).getD 0 + t.inner.toNat * 2 ^ 8 + t.rcp.toNat * 2 ^ 16 + t.stage * 2 ^ 21 + t.slot * 2 ^ 24 +
      (if t.fetch then 2 ^ 28 else 0) + (t.queue g).length * 2 ^ 32),
   (1, t.entry.pc.toNat), (2, t.va.toNat), (3, t.raised), (4, ttake)]

theorem frame_eq (t : TrapRec) (g : Gang) (ttake : Nat) : ∃ x, t.frame g ttake = t.headWords g ttake ++ ([(5, x)] ++
    (((t.causes.take 8).zipIdx.map fun p => (6 + p.2, p.1.2.toNat)) ++
      (((List.range 256).map fun k => (32 + k, (t.lats.vec.get 0 k).toNat)) ++
        (((List.range 4).map fun l => (288 + l, (t.lats.sca.get 0 l).toNat)) ++
          ([(292, t.valid + t.slot * 16)] ++ ((t.queue g).zipIdx.flatMap fun p => p.1.words p.2)))))) := by
  refine ⟨((t.causes.take 8).zipIdx.map fun p => p.1.1 * 2 ^ (8 * p.2)).sum, ?_⟩
  unfold TrapRec.frame TrapRec.headWords
  simp only [List.append_assoc, List.cons_append, List.nil_append]

/-- The first of a trap's replay entries is its own. -/
theorem queue_cons (t : TrapRec) (g : Gang) : ∃ l, t.queue g = t.entry :: l := ⟨_, rfl⟩

/-- The words of replay entry `n` lie from its first word on. -/
theorem le_of_mem_words {r : Replay} {n : Nat} {p : Nat × Nat} (h : p ∈ r.words n) : 512 + 384 * n ≤ p.1 := by
  unfold Replay.words entryWord at h
  rcases List.mem_append.mp h with h | h
  · simp only [List.mem_cons, List.not_mem_nil, or_false] at h
    rcases h with rfl | rfl | rfl | rfl | rfl | rfl <;> simp
  · obtain ⟨q, -, rfl⟩ := List.mem_map.mp h
    simp only
    omega

/-- The first words of a frame's first replay entry. -/
def Replay.headWords (r : Replay) : List (Nat × Nat) :=
  [(512, r.base.toNat % 2 ^ 64), (513, bits r.base.toNat 64 64), (514, r.pfx.toNat), (515, r.pc.toNat), (516, r.mask.toNat),
   (517, r.cause.toNat + (r.cap.toNat + if r.pfx = 0 then 0 else 32) * 256)]

theorem words_eq (r : Replay) : r.words 0 = r.headWords ++ r.vals.map fun p => (entryWord 0 (8 + p.1), p.2.toNat) := by
  have hb : bits r.base.toNat 0 64 = r.base.toNat % 2 ^ 64 := by simp [Machine.bits]
  unfold Replay.words
  rw [hb]
  rfl

/-- A frame's first words, and those at the start of its first replay entry, are written once. -/
theorem mem_frame {t : TrapRec} {g : Gang} {ttake : Nat} {p : Nat × Nat} (h : p ∈ t.frame g ttake) (hk : p.1 < 5 ∨ 512 ≤ p.1 ∧ p.1 < 520) :
    p ∈ t.headWords g ttake ++ t.entry.headWords := by
  obtain ⟨x, hx⟩ := frame_eq t g ttake
  rw [hx] at h
  simp only [List.mem_append] at h
  rcases h with h | h | h | h | h | h | h
  · exact List.mem_append_left _ h
  · rw [List.mem_singleton.mp h] at hk
    simp only at hk
    omega
  · obtain ⟨q, hq, rfl⟩ := List.mem_map.mp h
    have hlt : q.2 < (t.causes.take 8).length := by
      have := List.snd_lt_add_of_mem_zipIdx hq
      omega
    have : (t.causes.take 8).length ≤ 8 := List.length_take_le 8 _
    simp only at hk
    omega
  · obtain ⟨q, hq, rfl⟩ := List.mem_map.mp h
    have := List.mem_range.mp hq
    simp only at hk
    omega
  · obtain ⟨q, hq, rfl⟩ := List.mem_map.mp h
    have := List.mem_range.mp hq
    simp only at hk
    omega
  · rw [List.mem_singleton.mp h] at hk
    simp only at hk
    omega
  · obtain ⟨q, hq, h⟩ := List.mem_flatMap.mp h
    have hle := le_of_mem_words h
    obtain ⟨l, hl⟩ := queue_cons t g
    rw [hl, List.zipIdx_cons] at hq
    rcases List.mem_cons.mp hq with rfl | hq
    · rw [words_eq] at h
      rcases List.mem_append.mp h with h | h
      · exact List.mem_append_right _ h
      · obtain ⟨q, -, rfl⟩ := List.mem_map.mp h
        simp only [entryWord] at hk
        omega
    · have := List.le_snd_of_mem_zipIdx hq
      omega

theorem mem_frame_of_words {t : TrapRec} {g : Gang} {ttake : Nat} {p : Nat × Nat} (h : p ∈ t.headWords g ttake ++ t.entry.headWords) :
    p ∈ t.frame g ttake := by
  obtain ⟨x, hx⟩ := frame_eq t g ttake
  rw [hx]
  rcases List.mem_append.mp h with h | h
  · exact List.mem_append_left _ h
  · obtain ⟨l, hl⟩ := queue_cons t g
    simp only [List.mem_append]
    refine .inr (.inr (.inr (.inr (.inr (.inr (List.mem_flatMap.mpr ⟨(t.entry, 0), ?_, ?_⟩))))))
    · rw [hl, List.zipIdx_cons]
      exact List.mem_cons_self
    · rw [words_eq]
      exact List.mem_append_left _ h

/-- A first word of a frame, or of its first replay entry, stands in the frame's table. -/
theorem table_get {t : TrapRec} {g : Gang} {ttake k v : Nat} (h : (k, v) ∈ t.headWords g ttake ++ t.entry.headWords) :
    (t.table g ttake).get 0 k = v := by
  have hkeys : (t.headWords g ttake ++ t.entry.headWords).map Prod.fst = [0, 1, 2, 3, 4, 512, 513, 514, 515, 516, 517] := rfl
  have hk : k < 5 ∨ 512 ≤ k ∧ k < 520 := by
    have := List.mem_map_of_mem (f := Prod.fst) h
    rw [hkeys] at this
    simp only [List.mem_cons, List.not_mem_nil, or_false] at this
    omega
  refine SMap.get_putAll_of _ _ _ _ _ ⟨(k, v), mem_frame_of_words h, rfl⟩ fun p hp e => ?_
  have hp := mem_frame hp (by rw [e]; exact hk)
  have := List.inj_on_of_nodup_map (f := Prod.fst) (by rw [hkeys]; decide) hp h e
  rw [this]

/-! ### The frame in memory (R275) -/

/-- The place of a frame's word: a frame lies in one page, whose home is one core. -/
theorem homeKey_add {s : State} {pa i : Nat} (h : pa % 2 ^ 16 = 0) (hi : i < frameWords) : s.homeKey (pa + 8 * i) = s.homeKey pa + 8 * i := by
  have hi : i < 8192 := hi
  unfold State.homeKey dramKey
  rw [show (pa + 8 * i) / 2 ^ 27 = pa / 2 ^ 27 by omega]
  omega

/-- The words of a frame written at a coherent page of a clean cluster: each reads as it was written. -/
theorem readN_writeWords {c : Nat} {p : Trans} {s : State} (hp : p.kind = .coherent) (hpa : p.pa % 2 ^ 16 = 0) (h : CleanL2 (clusterOf c) s)
    (val : Nat → Nat) {j : Nat} (hj : j < frameWords) :
    (s.writeWords c p val (List.range frameWords)).dram.readN (s.homeKey (p.pa + 8 * j)) 8 = val j % 2 ^ 64 := by
  have hfold : (List.range frameWords).foldl (fun m i => Memory.writeN m (s.homeKey (p.pa + 8 * i)) 8 (val i)) s.dram =
      (List.range frameWords).foldl (fun m i => Memory.writeN m (s.homeKey p.pa + 8 * i) 8 (val i)) s.dram :=
    List.foldl_ext _ _ _ fun m i hi => by rw [homeKey_add hpa (List.mem_range.mp hi)]
  rw [dram_writeWords hp val _ h, hfold, homeKey_add hpa hj]
  exact readN_foldl_writeN _ val s.dram hj

/-! ### The handler's entry on a trap (R274, R276) -/

/-- The state in which a trap's frame has been written. -/
def State.framed (s : State) (c : Nat) (u : TrapRec) (p : Trans) : State :=
  s.writeWords c p (fun i => (u.table (s.gang c u.slot) (s.timeAt (clusterOf c))).get 0 i) (List.range frameWords)

/-- The first code of a trap. -/
def TrapRec.code (u : TrapRec) : Nat := (u.causes.head?.map (·.1)).getD 0

theorem serveTrap_eq (s : State) (c : Nat) (u : TrapRec) (rest : List HWork) (p : Trans) : s.serveTrap c u rest p =
    ((s.framed c u p).serves c rest (.trap u (BitVec.ofNat 64 ((s.framed c u p).frameVa c)))).startHandler c ((s.framed c u p).frameVa c)
      u.slot u.code := rfl

theorem offPath_framed (s : State) (c : Nat) (u : TrapRec) (p : Trans) : (s.framed c u p).offPath = s.offPath := offPath_writeWords ..

theorem frameVa_of_offPath {s t : State} (h : t.offPath = s.offPath) (c : Nat) : t.frameVa c = s.frameVa c := by
  have : t.offPath.1.frameVa c = s.offPath.1.frameVa c := by rw [h]
  exact this

theorem hentry_of_offPath {s t : State} (h : t.offPath = s.offPath) : t.hentry = s.hentry := by
  have : t.offPath.1.hentry = s.offPath.1.hentry := by rw [h]
  exact this

theorem timeAt_of_offPath {s t : State} (h : t.offPath = s.offPath) (k : Nat) : t.timeAt k = s.timeAt k := by
  have : (t.cluster k).offPath.frames = (s.cluster k).offPath.frames := by rw [cluster_of_offPath h]
  exact this

/-- The handler's start writes no memory. -/
theorem homeRead_handler (s : State) (c : Nat) (rest : List HWork) (x : Serving) (s1 s3 s4 k pa n : Nat) :
    ((s.serves c rest x).startHandler c s1 s3 s4).homeRead k pa n = s.homeRead k pa n := rfl

section
variable {c : Nat} {rest : List HWork} {s : State} {u : TrapRec} {p : Trans}

/-- A word of the frame that an entry has written, as the trap's table has it. -/
theorem homeRead_entered (hf : framePage s c p) {j : Nat} (hj : j < frameWords) (k : Nat) :
    ((lookedUp s c).serveTrap c u rest p).homeRead k (p.pa + 8 * j) 8 =
      (u.table (s.gang c u.slot) (s.timeAt (clusterOf c))).get 0 j % 2 ^ 64 := by
  obtain ⟨-, -, -, hkind, hpa, -, -, hclean⟩ := hf
  have hp := offPath_lookedUp s c
  have hc : CleanL2 (clusterOf c) (lookedUp s c) := (staysClean_queueWalk (s := s) hclean _ _ _).clean hclean
  have hr := readN_writeWords hkind hpa hc (fun i => (u.table ((lookedUp s c).gang c u.slot) ((lookedUp s c).timeAt (clusterOf c))).get 0 i) hj
  simp only [gang_of_offPath hp, timeAt_of_offPath hp] at hr
  rw [← hr]
  rw [serveTrap_eq, homeRead_handler]
  unfold State.homeRead
  rw [physOf_of_offPath (offPath_framed ..)]
  unfold State.framed State.homeKey
  rw [gang_of_offPath hp, timeAt_of_offPath hp]

theorem stage_lt (u : TrapRec) : u.stage < 8 := by
  unfold TrapRec.stage stageOf
  (repeat' split) <;> decide

/-- The first word of a frame names the trap's first cause and its slot. -/
theorem bits_firstWord (hs : u.slot < 15) (hc : u.code < 256) (g : Gang) (ttake : Nat) :
    bits ((u.table g ttake).get 0 0 % 2 ^ 64) 0 8 = u.code ∧ bits ((u.table g ttake).get 0 0 % 2 ^ 64) 24 4 = u.slot := by
  have hcode : ((u.causes.take 8).head?.map (·.1)).getD 0 = u.code := by
    unfold TrapRec.code
    rw [List.head?_take, if_neg (by decide)]
  rw [table_get (k := 0) List.mem_cons_self, hcode]
  have h1 := stage_lt u
  have h2 := u.inner.isLt
  have h3 := u.rcp.isLt
  generalize (u.queue g).length = l
  unfold Machine.bits
  split <;> constructor <;> omega

section
variable (hr : s.coreRuns c = true) (hc : c < nCores) (hs : (s.core c).hStopped = false) (hl : (s.gang c handlerSlot).live = false)
  (hw : (s.core c).work = .trap u :: rest) (hn : (s.cluster (clusterOf c)).nextFreq = none) (hf : framePage s c p)
include hr hc hs hl hw hn hf

theorem exec_handlerEntry_framed : exec (.handlerEntry c) s = .next ((lookedUp s c).serveTrap c u rest p) := by
  obtain ⟨ho, ht, hreach, -, -, hopen, -, -⟩ := hf
  rw [exec_handlerEntry_trap hr hc hs hl hw hn ho]
  unfold State.takesTrap
  rw [frameVa_lookedUp, ht]
  simp only [hreach, hopen, if_true]

theorem handlerEntry_trap (hslot : u.slot < 15) (hcode : u.code < 256) :
    ∃ t, exec (.handlerEntry c) s = .next t ∧ (t.core c).work = rest ∧
      (t.core c).serving = some (.trap u (BitVec.ofNat 64 (bits s.hfbase.toNat 17 40 * 2 ^ 17 + 0x10000 * c))) ∧
      handlerStarts s t c (bits s.hfbase.toNat 17 40 * 2 ^ 17 + 0x10000 * c) u.slot u.code ∧
      (let word (i : Nat) : Nat := t.homeRead (clusterOf c) (p.pa + 8 * i) 8
       bits (word 0) 0 8 = u.code ∧ bits (word 0) 24 4 = u.slot ∧
         word 1 = u.entry.pc.toNat ∧ word 2 = u.va.toNat ∧ word 3 = u.raised % 2 ^ 64 ∧
         word 4 = (s.cluster (clusterOf c)).frames % 2 ^ 64 ∧ word 512 = u.entry.base.toNat % 2 ^ 64 ∧ word 515 = u.entry.pc.toNat ∧
         word 516 = u.entry.mask.toNat) := by
  have hoff := (offPath_framed (lookedUp s c) c u p).trans (offPath_lookedUp s c)
  have hva : ((lookedUp s c).framed c u p).frameVa c = bits s.hfbase.toNat 17 40 * 2 ^ 17 + 0x10000 * c := by
    rw [frameVa_of_offPath hoff, State.frameVa, Nat.mul_comm c]
  have hword {j v : Nat} (hj : j < frameWords) (h : (j, v) ∈ u.headWords (s.gang c u.slot) (s.timeAt (clusterOf c)) ++ u.entry.headWords) :
      ((lookedUp s c).serveTrap c u rest p).homeRead (clusterOf c) (p.pa + 8 * j) 8 = v % 2 ^ 64 := by
    rw [homeRead_entered hf hj, table_get h]
  have hfirst := homeRead_entered (u := u) (rest := rest) hf (j := 0) (by decide) (clusterOf c)
  obtain ⟨hb1, hb2⟩ := bits_firstWord hslot hcode (s.gang c u.slot) (s.timeAt (clusterOf c))
  rw [← hfirst] at hb1 hb2
  have small (x : DWord) : x.toNat % 2 ^ 64 = x.toNat := Nat.mod_eq_of_lt x.isLt
  refine ⟨_, exec_handlerEntry_framed hr hc hs hl hw hn hf, ?_, ?_, ?_, hb1, hb2, ?_, ?_, ?_, ?_, ?_, ?_, ?_⟩
  · rw [serveTrap_eq]
    exact (core_serves_started _ c rest _ _ _ _).1
  · rw [serveTrap_eq, ← hva]
    exact (core_serves_started _ c rest _ _ _ _).2
  · rw [serveTrap_eq, ← hva]
    exact handlerStarts_startHandler ((hentry_serves ..).trans (hentry_of_offPath hoff))
      (fun h _ => by rw [gang_serves, gang_of_offPath hoff]) _ _ _
  · exact (hword (j := 1) (by decide) (by simp [TrapRec.headWords])).trans (small _)
  · exact (hword (j := 2) (by decide) (by simp [TrapRec.headWords])).trans (small _)
  · exact hword (j := 3) (by decide) (by simp [TrapRec.headWords])
  · exact hword (j := 4) (v := s.timeAt (clusterOf c)) (by decide) (by simp [TrapRec.headWords])
  · exact (hword (j := 512) (v := u.entry.base.toNat % 2 ^ 64) (by decide) (by simp [Replay.headWords])).trans (Nat.mod_mod _ _)
  · exact (hword (j := 515) (v := u.entry.pc.toNat) (by decide) (by simp [Replay.headWords])).trans (small _)
  · exact (hword (j := 516) (v := u.entry.mask.toNat) (by decide) (by simp [Replay.headWords])).trans (small _)

end

end

/-! ### Together -/

theorem handlers_hold : Claims.handlers := by
  refine ⟨fun c g k x v w s hw hs h1 h2 _ => filterWrite_writes hw hs h1 h2,
    fun c s hl => ⟨mondoneWrite_waits hl, fun v hv hh hr => mondoneWrite_tells hl hv hh hr,
      fun g hc hg => ⟨gangStop_stops hl hc hg, gangStop_goes hl hc hg, gangStep_steps hl hc hg⟩⟩,
    fun c rest s hr hc hs hl => ⟨fun seq hw => handlerEntry_doorbell hr hc hs hl hw,
      fun u p hw hslot hn hf hcode => handlerEntry_trap hr hc hs hl hw hn hf hslot hcode,
      fun u e hw hn ho ht hroom _ => handlerEntry_noPage hr hc hs hl hw hn ho ht hroom⟩⟩

/-- Settles O54: each event is evaluated at its gang, its core or its handler; what it leaves elsewhere follows from the frames of a wait's end, of
an engine's accesses and of a clean cluster's writes. -/
theorem coreEvents : Obligations.CoreEvents := by
  unfold Obligations.CoreEvents
  exact ⟨bounds_hold, engines_hold, handlers_hold⟩

end Sys2Proof.Machine

end

section
/-! SUPPORT and CLAIM. Boost claims: a claim in a cluster that moves to another pool, and O46. -/

namespace Sys2Proof.Machine

open Sys2Proof.Claims

/-- A cluster on its way to another pool registers no claim. -/
theorem claimBoost_of_moving {s : State} {c : Nat} (h : (s.cluster (clusterOf c)).moving.isSome = true) (g f : Nat) :
    s.claimBoost c g f = s := by
  unfold State.claimBoost
  exact if_pos (.inr (.inr h))

/-- There a `bclaim` completes, and its gang has the claim that it had. -/
theorem bclaim_of_moving {f : Fields} {sp : OpSpec} {s : State} (hsp : opSpec (.bclaim f) = some sp) (h : s.issuesPlain sp f = true)
    (hm : ((s.plainOperands sp f).cluster (s.plainOperands sp f).myCluster).moving.isSome = true) :
    ∃ t, exec (.bclaim f) s = .next t ∧ ((s.plainOperands sp f).mine t).claim = (s.plainOperands sp f).me.claim := by
  have hrun : exec (.bclaim f) s =
      .next (((s.plainOperands sp f).wrS f ((s.plainOperands sp f).pwstat (s.plainOperands sp f).myCluster)).finish) := by
    show execBclaim f s = _
    unfold execBclaim
    rw [run_plain hsp h]
    simp only []
    rw [claimBoost_of_moving hm]
  obtain ⟨hframe, -⟩ := scalar_done (s.plainOperands sp f) f ((s.plainOperands sp f).pwstat (s.plainOperands sp f).myCluster)
  have hclaim := congrArg Gang.claim hframe.others
  exact ⟨_, hrun, hclaim⟩

/-- `bclaim s6, 17`, unguarded. -/
def claim17 : Fields :=
  { ty := 0, fn := 0, c := .reg 0, b := .reg 0, a := .imm 17, dst := 6, lat := 0, nwb := false, guard := ⟨false, 0⟩, len := .l64, x := 0
    ctl := ⟨0, 0, 0, 0, false, 0, 0, 0⟩, pfx := none }

/-- The handler of core 0 about to issue; its cluster, which no other gang keeps from moving (R62), counts in the c3 pool until its move to the c1
pool is complete. -/
def claimantMoving : State :=
  { State.reset with
    focus := { core := 0, slot := handlerSlot, lanes := 1, len := 8 }
    clusters := [(0, { inPool := true, pool := 3, moving := some 1 })]
    cores := [(0, { gangs := [(handlerSlot, { freshHandler 0 with live := true, m := [(0, 1)], lanes := [(0, {})] })] })] }

/-- Refutes O46: in a cluster that still counts in the c3 pool while it moves to another, a `bclaim` registers nothing. -/
theorem not_systemInstructions : ¬ Obligations.SystemInstructions := by
  unfold Obligations.SystemInstructions
  rintro ⟨hclaims, -⟩
  have hopen : claimantMoving.issuesPlain (ySpec 2 claim17 .s .u .none .none) claim17 = true := by decide +kernel
  obtain ⟨t, ht, -, -, -, -, -, hregisters⟩ := hclaims claim17 _ claimantMoving rfl hopen
  obtain ⟨u, hu, hkept⟩ := bclaim_of_moving (f := claim17) rfl hopen (by decide +kernel)
  obtain rfl : t = u := Host.Outcome.next.inj (ht.symm.trans hu)
  obtain ⟨hclaim, -⟩ := hregisters (by decide +kernel) (by decide +kernel)
  have hnone : (claimantMoving.plainOperands (ySpec 2 claim17 .s .u .none .none) claim17).me.claim = none := by decide +kernel
  rw [hkept, hnone] at hclaim
  exact Option.some_ne_none _ hclaim.symm

end Sys2Proof.Machine

end

section
/-! SUPPORT. What the end of boost claims, of gangs and of blocks leaves of regions and clusters (R64, R65, R73, R291). -/

namespace Sys2Proof.Machine

/-! ### Claims that end -/

/-- From `s` to `t` boost in region `r` has ended at most: a region's accounts apart, `r` differs in its holder, and without one no cluster of `r`
takes a new frequency; clusters differ in claims, frequencies and idle times, and in their caches. -/
structure BoostLapses (r : Nat) (s t : State) : Prop where
  region : t.region r = { s.region r with
    holder := (t.region r).holder, idleFrom := (t.region r).idleFrom, orphan := (t.region r).orphan }
  holder : (s.region r).holder = none → (t.region r).holder = none
  cluster : ∀ k, t.cluster k = { s.cluster k with
    claimAge := (t.cluster k).claimAge, nextFreq := (t.cluster k).nextFreq, idleSince := (t.cluster k).idleSince, moesi := (t.cluster k).moesi
    l2 := (t.cluster k).l2, evicts := (t.cluster k).evicts, ties := (t.cluster k).ties, walks := (t.cluster k).walks }
  claim : ∀ k, (s.cluster k).claimAge = none → (t.cluster k).claimAge = none
  freq : (s.region r).holder = none → ∀ k, regionOf k = r → (t.cluster k).nextFreq = (s.cluster k).nextFreq

variable {r : Nat}

theorem BoostLapses.refl (s : State) : BoostLapses r s s := ⟨rfl, id, fun _ => rfl, fun _ => id, fun _ _ _ => rfl⟩

theorem BoostLapses.trans {s t u : State} (h : BoostLapses r s t) (h' : BoostLapses r t u) : BoostLapses r s u where
  region := by rw [h'.region, h.region]
  holder e := h'.holder (h.holder e)
  cluster k := by rw [h'.cluster k, h.cluster k]
  claim k e := h'.claim k (h.claim k e)
  freq e k hk := (h'.freq (h.holder e) k hk).trans (h.freq e k hk)

theorem boostLapses_foldl {α : Type} {f : State → α → State} (hf : ∀ s a, BoostLapses r s (f s a)) (l : List α) (s : State) :
    BoostLapses r s (l.foldl f s) := by
  induction l generalizing s with
  | nil => exact .refl s
  | cons a l ih => exact (hf s a).trans (ih _)

/-- A change of neither regions nor clusters. -/
theorem boostLapses_of_rest {s t : State} (hr : t.regions = s.regions) (hk : t.clusters = s.clusters) : BoostLapses r s t := by
  have er : t.region r = s.region r := by rw [State.region, hr]; rfl
  have ek (k : Nat) : t.cluster k = s.cluster k := cluster_of_clusters hk k
  exact ⟨by rw [er], by rw [er]; exact id, fun k => by rw [ek], fun k => by rw [ek]; exact id, fun _ k _ => by rw [ek]⟩

theorem boostLapses_of_offPath {s t : State} (h : t.offPath = s.offPath) : BoostLapses r s t := by
  have er : t.region r = s.region r := congrArg (fun q => State.region q.1 r) h
  have ek := cluster_eq_of_offPath h
  refine ⟨by rw [er], by rw [er]; exact id, fun k => ?_, fun k e => ?_, fun _ k _ => ?_⟩
  · rw [ek k]
  · rw [ek k]; exact e
  · rw [ek k]

theorem CoresAndHost.boostLapses {s t : State} (h : CoresAndHost s t) : BoostLapses r s t :=
  boostLapses_of_rest (by rw [h.rest]) (by rw [h.rest])

theorem region_setRegion (s : State) (q p : Nat) (x : Region) : (s.setRegion q x).region p = if p = q then x else s.region p := by
  by_cases h : p = q
  · rw [if_pos h, h, region_setRegion_same]
  · rw [if_neg h, region_setRegion_other _ _ h]

theorem region_modRegion (s : State) (q p : Nat) (f : Region → Region) : (s.modRegion q f).region p = if p = q then f (s.region q) else s.region p :=
  region_setRegion s q p _

theorem cluster_modCluster (s : State) (k q : Nat) (f : Cluster → Cluster) :
    (s.modCluster k f).cluster q = if q = k then f (s.cluster k) else s.cluster q := by
  by_cases h : q = k
  · rw [if_pos h, h, cluster_modCluster_same]
  · rw [if_neg h, cluster_modCluster_other _ _ h]

theorem boostLapses_modRegion (s : State) (q : Nat) {f : Region → Region}
    (hf : ∀ x, f x = { x with holder := (f x).holder, idleFrom := (f x).idleFrom, orphan := (f x).orphan })
    (hh : ∀ x : Region, x.holder = none → (f x).holder = none) : BoostLapses r s (s.modRegion q f) := by
  refine ⟨?_, ?_, fun _ => rfl, fun _ => id, fun _ _ _ => rfl⟩ <;> rw [region_modRegion] <;> split
  · next e => rw [e]; exact hf _
  · rfl
  · next e => rw [e]; exact hh _
  · exact id

theorem boostLapses_modCluster (s : State) (q : Nat) {f : Cluster → Cluster}
    (hf : ∀ x, f x = { x with claimAge := (f x).claimAge, nextFreq := (f x).nextFreq, idleSince := (f x).idleSince })
    (hc : ∀ x : Cluster, x.claimAge = none → (f x).claimAge = none)
    (hn : (s.region (regionOf q)).holder = none → ∀ x : Cluster, (f x).nextFreq = x.nextFreq) : BoostLapses r s (s.modCluster q f) := by
  refine ⟨rfl, id, fun k => ?_, fun k => ?_, fun e k hk => ?_⟩ <;> rw [cluster_modCluster] <;> split
  · next e =>
    subst e
    conv_lhs => rw [hf]
    rw [hf]
  · rfl
  · next e => rw [e]; exact hc _
  · exact id
  · next e' => rw [e'] at hk ⊢; exact hn (hk ▸ e) _
  · rfl

/-- A cluster takes a new frequency, which it takes as its region's holder alone. -/
theorem boostLapses_nextFreq (s : State) (q : Nat) (n : Cluster → Option Nat)
    (hn : (s.region (regionOf q)).holder = none → ∀ x : Cluster, n x = x.nextFreq) :
    BoostLapses r s (s.modCluster q fun x => { x with nextFreq := n x }) :=
  boostLapses_modCluster s q (fun _ => rfl) (fun _ h => h) hn

theorem boostLapses_endClaim (s : State) (c g : Nat) : BoostLapses r s (s.endClaim c g) := by
  have hg : BoostLapses r s (s.modGang c g fun x => { x with claim := none }) := boostLapses_of_rest rfl rfl
  unfold State.endClaim
  simp only []
  split
  · exact hg
  · split
    · split
      · next hholds =>
        refine hg.trans (boostLapses_nextFreq _ _ _ fun e => ?_)
        exact absurd (hholds.symm.trans e) (Option.some_ne_none _)
      · exact hg
    · refine hg.trans ((boostLapses_modCluster _ _ (fun _ => rfl) (fun _ _ => rfl) fun e x => ?_).trans
        (boostLapses_modRegion _ _ (fun x => ?_) fun x e => ?_))
      · exact if_neg (by rw [e]; simp)
      · split <;> rfl
      · split
        · rfl
        · exact e

theorem boostLapses_endClaims (s : State) (k : Nat) : BoostLapses r s (s.endClaims k) :=
  boostLapses_foldl (fun s (p : Nat × Nat) => boostLapses_endClaim s p.1 p.2) _ s

/-- A cluster without a claiming gang has no claim to end. -/
theorem endClaims_of_none {s : State} {k : Nat} (h : ∀ c ∈ clusterCores k, ∀ g, g < 16 → (s.gang c g).claim = none) : s.endClaims k = s := by
  unfold State.endClaims
  rw [List.filter_eq_nil_iff.mpr]
  · rfl
  · intro p hp
    obtain ⟨c, hc, hp⟩ := List.mem_flatMap.mp hp
    obtain ⟨g, hg, rfl⟩ := List.mem_map.mp hp
    simp [h c hc g (List.mem_range.mp hg)]

/-! ### Gangs and blocks that end -/

theorem boostLapses_orphan (s : State) (c : Nat) : BoostLapses r s (s.orphan c) := by
  refine BoostLapses.trans (t := (s.filler c).1) (boostLapses_of_rest rfl rfl) ?_
  exact boostLapses_modRegion _ (regionOf (clusterOf c)) (f := fun x => { x with orphan := x.orphan + BitVec.ofNat 64 (s.filler c).2 })
    (fun _ => rfl) fun _ => id

theorem boostLapses_dropGang (s : State) (c g : Nat) : BoostLapses r s (s.dropGang c g) := by
  refine BoostLapses.trans (t := (s.endHold c g).forgetLatches c g) (boostLapses_of_rest rfl rfl) ?_
  exact (boostLapses_endClaim _ c g).trans (boostLapses_of_rest rfl rfl)

theorem boostLapses_markIdle (s : State) (c : Nat) : BoostLapses r s (s.markIdle c) := by
  unfold State.markIdle
  simp only []
  split
  · exact boostLapses_modCluster s _ (fun _ => rfl) (fun _ => id) fun _ _ => rfl
  · exact .refl s

@[simp] theorem offPath_unlockL1 (s : State) (c g : Nat) (p : Nat → Bool) : (s.unlockL1 c g p).offPath = s.offPath := by simp [State.unlockL1]

@[simp] theorem offPath_lateBack (s : State) (k la : Nat) (ltag : Half) : (s.lateBack k la ltag).offPath = s.offPath :=
  (offPath_setL2 ..).trans (offPath_foldl (fun s _ => offPath_latePut s ..) _ s)

@[simp] theorem offPath_unlockL2 (s : State) (c g : Nat) (p : Nat → Bool) : (s.unlockL2 c g p).offPath = s.offPath := by
  refine offPath_foldl (fun s la => ?_) _ s
  simp only [offPath_setL2]
  split
  · exact offPath_l2WriteUnit s _ la
  · exact offPath_lateBack s _ la _

@[simp] theorem offPath_gangPut (s : State) (c g va v : Nat) : (s.gangPut c g va v).offPath = s.offPath := offPath_hwPut ..

theorem offPath_abandonAll (s : State) (b : Nat) : (s.abandonAll b).offPath = s.offPath :=
  offPath_foldl (fun s _ => offPath_foldl (fun s _ => offPath_foldl (fun s _ => offPath_gangPut s ..) _ s) _ s) _ s

theorem boostLapses_breakColls (s : State) (b : Nat) : BoostLapses r s (s.breakColls b) := by
  refine boostLapses_foldl (fun s p => ?_) _ s
  simp only []
  split
  · refine BoostLapses.trans ?_ (coresAndHost_modGang _ p.1 p.2 _).boostLapses
    exact boostLapses_of_offPath ((offPath_gangPut ..).trans (offPath_gangPut ..))
  · exact .refl s

theorem boostLapses_barBreak (s : State) (c : Nat) (e : BarEntry) (v : Nat) (ltag : Half) : BoostLapses r s (s.barBreak c e v ltag) := by
  unfold State.barBreak
  simp only []
  split
  · unfold State.barWrite
    split
    · exact boostLapses_of_rest rfl rfl
    · exact boostLapses_of_offPath (by simp)
  · exact boostLapses_of_offPath (offPath_latePut ..)

theorem boostLapses_breakBarriers (s : State) (b : Nat) : BoostLapses r s (s.breakBarriers b) := by
  refine boostLapses_foldl (fun s e => ?_) _ s
  simp only []
  split
  · exact boostLapses_barBreak s _ e _ _
  · exact .refl s

theorem boostLapses_returnImages (s : State) (w : Nat) (vas : List DWord) : BoostLapses r s (s.returnImages w vas) := by
  unfold State.returnImages
  split
  · exact boostLapses_of_rest rfl rfl
  · exact .refl s

/-- A gang of a block that is freed, its locks released. -/
theorem boostLapses_freeGang (s : State) (killed : Bool) (c g : Nat) : BoostLapses r s
    ((if killed then (s.releaseLocks c g).orphan c else s.releaseLocks c g).dropGang c g) := by
  have hl : BoostLapses r s (s.releaseLocks c g) := boostLapses_of_offPath (by simp [State.releaseLocks])
  refine BoostLapses.trans ?_ (boostLapses_dropGang _ c g)
  split
  · exact hl.trans (boostLapses_orphan _ c)
  · exact hl

theorem boostLapses_blocks (s : State) (x : SMap Block) : BoostLapses r s { s with blocks := x } := boostLapses_of_rest rfl rfl

theorem boostLapses_setLaunch (s : State) (l : Nat) (x : Launch) : BoostLapses r s (s.setLaunch l x) := boostLapses_of_rest rfl rfl

theorem boostLapses_runFault (s : State) (w cause node edge : Nat) : BoostLapses r s (s.runFault w cause node edge) := boostLapses_of_rest rfl rfl

/-- A core that a block of launch `l` has left. -/
theorem boostLapses_leaveCore (s : State) (c : Nat) (l : Half) (keep : QRec → Bool) (f : CoreSt → CoreSt) : BoostLapses r s
    ((((if s.residentAt c l then s else s.keepRecs c keep).modCore c f).markCalls c).markIdle c) := by
  refine BoostLapses.trans ?_ (boostLapses_markIdle _ c)
  refine BoostLapses.trans ?_ (coresAndHost_markCalls _ c).boostLapses
  split <;> exact boostLapses_of_rest rfl rfl

theorem boostLapses_freeBlock (s : State) (b : Nat) (killed : Bool) : BoostLapses r s (s.freeBlock b killed) := by
  unfold State.freeBlock
  simp only []
  refine BoostLapses.trans ?_ (boostLapses_blocks _ _)
  refine BoostLapses.trans ?_ (boostLapses_foldl (fun u c => boostLapses_leaveCore u c (s.block b).ltag
    (fun r => r.bits.extractLsb' 240 16 != (s.block b).ltag)
    fun k => { k with calleeQ := k.calleeQ.map fun q => (q.1, q.2.filter (·.block != b)) }) _ _)
  have hgangs := boostLapses_foldl (r := r) fun s (p : Nat × Nat) => boostLapses_freeGang s killed p.1 p.2
  refine BoostLapses.trans ?_ (hgangs _ _)
  exact (boostLapses_returnImages s _ _).trans (boostLapses_breakBarriers _ b)

theorem boostLapses_killLaunch (s : State) (ltag : Half) : BoostLapses r s (s.killLaunch ltag) := by
  unfold State.killLaunch
  simp only []
  split
  · exact .refl s
  · exact boostLapses_of_rest rfl rfl

theorem boostLapses_killBlock (s : State) (b : Nat) : BoostLapses r s (s.killBlock b) := by
  unfold State.killBlock
  simp only []
  refine BoostLapses.trans ?_ (boostLapses_setLaunch _ _ _)
  refine BoostLapses.trans ?_ (boostLapses_killLaunch _ _)
  refine BoostLapses.trans ?_ (boostLapses_runFault _ _ _ _ _)
  refine BoostLapses.trans ?_ (boostLapses_freeBlock _ b true)
  have hbroken : BoostLapses r s
      (((s.bboxEvent (fieldOf (s.block b).origin) 8 (s.block b).origin (s.block b).index).abandonAll b).breakColls b) :=
    (messages_bboxEvent s _ _ _ _).coresAndHost.boostLapses.trans
      ((boostLapses_of_offPath (offPath_abandonAll _ b)).trans (boostLapses_breakColls _ b))
  split
  · exact hbroken.trans (boostLapses_of_rest rfl rfl)
  · exact hbroken

theorem boostLapses_forceSave (s : State) (b : Nat) : BoostLapses r s (s.forceSave b) := by
  unfold State.forceSave
  split
  · exact (boostLapses_killBlock s b).trans (messages_openMessage _ (by decide) _).coresAndHost.boostLapses
  · next t e =>
    have ht : t.regions = s.regions ∧ t.clusters = s.clusters := by
      unfold State.obtainImages at e
      split at e
      · rw [Option.some.inj e]; exact ⟨rfl, rfl⟩
      · simp only [] at e
        split at e
        · exact absurd e (Option.some_ne_none t).symm
        · rw [← Option.some.inj e]; exact ⟨rfl, rfl⟩
    refine (boostLapses_of_rest ht.1 ht.2).trans (BoostLapses.trans (boostLapses_blocks t _) (boostLapses_foldl (fun s p => ?_) _ _))
    exact (coresAndHost_modGang s p.1 p.2 _).boostLapses.trans (coresAndHost_markCalls _ _).boostLapses

end Sys2Proof.Machine

end

section
/-! SUPPORT. What power events change of a region and of its two clusters (R55, R56, R62 to R69, R72). -/

namespace Sys2Proof.Machine

open Sys2Proof.Claims

variable {s t : State} {r : Nat}

/-! ### What a region's or a cluster's change leaves -/

theorem region_of_regions {s t : State} (h : t.regions = s.regions) (r : Nat) : t.region r = s.region r := by
  unfold State.region
  rw [h]

theorem gang_of_cores {s t : State} (h : t.cores = s.cores) (c g : Nat) : t.gang c g = s.gang c g := by
  unfold State.gang
  rw [core_of_cores h]

theorem regions_modCluster (s : State) (k : Nat) (f : Cluster → Cluster) : (s.modCluster k f).regions = s.regions := rfl

theorem cores_modCluster (s : State) (k : Nat) (f : Cluster → Cluster) : (s.modCluster k f).cores = s.cores := rfl

theorem cores_modRegion (s : State) (r : Nat) (f : Region → Region) : (s.modRegion r f).cores = s.cores := rfl

theorem clusters_modRegion (s : State) (r : Nat) (f : Region → Region) : (s.modRegion r f).clusters = s.clusters := rfl

/-! ### A region becomes another -/

theorem regionBecomes_modRegion (s : State) (r : Nat) {f : Region → Region} {x : Region} (h : f (s.region r) = x) :
    RegionBecomes s (s.modRegion r f) r x :=
  ⟨(region_modRegion_same s r f).trans h, fun _ hq => region_setRegion_other s _ hq, rfl⟩

theorem regionBecomes_refuseRegion (s : State) (r : Nat) : RegionBecomes s (s.refuseRegion r) r { s.region r with refused := true } :=
  regionBecomes_modRegion s r rfl

theorem regionBecomes_bboxEvent {x : Region} (h : RegionBecomes s t r x) (field kind source data : Nat) :
    RegionBecomes s (t.bboxEvent field kind source data) r x := ⟨h.region, h.others, h.rest⟩

theorem regionBecomes_trans_modRegion {x y : Region} (h : RegionBecomes s t r x) {f : Region → Region} (hf : f x = y) :
    RegionBecomes s (t.modRegion r f) r y where
  region := by rw [region_modRegion_same, h.region, hf]
  others q hq := (region_setRegion_other t _ hq).trans (h.others q hq)
  rest := h.rest

theorem regionBecomes_setRegState (s : State) (r : Nat) (x : RegState) : RegionBecomes s (s.setRegState r x) r
    { s.region r with st := x, since := s.now, counted := (s.region r).counted || x == .on } :=
  regionBecomes_bboxEvent (regionBecomes_modRegion s r rfl) ..

/-- Every state but ON leaves the clusters counted or not, as they are. -/
theorem regionBecomes_setRegState_dark (s : State) (r : Nat) {x : RegState} (h : (x == .on) = false) :
    RegionBecomes s (s.setRegState r x) r { s.region r with st := x, since := s.now } := by
  have hb := regionBecomes_setRegState s r x
  rwa [h, Bool.or_false] at hb

theorem cluster_of_regionBecomes {x : Region} (h : RegionBecomes s t r x) (k : Nat) : t.cluster k = s.cluster k :=
  cluster_of_clusters (congrArg State.clusters h.rest) k

/-! ### Both clusters of a region change -/

/-- Both clusters of a region change in one way. -/
def State.modBoth (s : State) (r : Nat) (f : Cluster → Cluster) : State := (s.modCluster (2 * r) f).modCluster (2 * r + 1) f

theorem cluster_modBoth (s : State) (r k : Nat) (f : Cluster → Cluster) :
    (s.modBoth r f).cluster k = if k / 2 = r then f (s.cluster k) else s.cluster k := by
  rw [State.modBoth, cluster_modCluster, cluster_modCluster, cluster_modCluster]
  by_cases h1 : k = 2 * r + 1
  · rw [if_pos h1, if_neg (by omega), if_pos (by omega), h1]
  · rw [if_neg h1]
    by_cases h0 : k = 2 * r
    · rw [if_pos h0, if_pos (by omega), h0]
    · rw [if_neg h0, if_neg (by omega)]

theorem region_modBoth (s : State) (r q : Nat) (f : Cluster → Cluster) : (s.modBoth r f).region q = s.region q := rfl

/-- The cluster after it has left stage 2: at the class of its pool, that of a move under way. -/
def Cluster.unthrottled (x : Cluster) : Cluster := { x with thr := false, nextFreq := some (Config.classFreq (x.moving.getD x.pool)) }

theorem endThrottle_eq (s : State) (r : Nat) : s.endThrottle r = s.modBoth r Cluster.unthrottled := rfl

/-- Two clusters of a region, and no others. -/
theorem mem_regionClusters {k : Nat} : k ∈ regionClusters r ↔ k / 2 = r := by
  simp only [regionClusters, List.mem_cons, List.not_mem_nil, or_false]
  omega

theorem mem_clusterCores {c k : Nat} : c ∈ clusterCores k ↔
    ∃ y < 8, ∃ x < 8, (k / 16 * 8 + y) * 128 + k % 16 * 8 + x = c := by
  simp only [clusterCores, List.mem_flatMap, List.mem_map, List.mem_range]

theorem clusterOf_of_mem {c k : Nat} (h : c ∈ clusterCores k) : clusterOf c = k := by
  obtain ⟨y, hy, x, hx, rfl⟩ := mem_clusterCores.mp h
  unfold clusterOf
  omega

theorem mem_regionCores {c : Nat} (h : c ∈ regionCores r) : clusterOf c / 2 = r ∧ (r < 96 → c < nCores) := by
  obtain ⟨k, hk, hc⟩ := List.mem_flatMap.mp h
  have hr := mem_regionClusters.mp hk
  rw [clusterOf_of_mem hc]
  refine ⟨hr, fun h96 => ?_⟩
  obtain ⟨y, hy, x, hx, rfl⟩ := mem_clusterCores.mp hc
  unfold nCores
  omega

/-! ### A cluster becomes another -/

theorem clusterBecomes_modCluster (s : State) (k : Nat) {f : Cluster → Cluster} {x : Cluster} (h : f (s.cluster k) = x) :
    ClusterBecomes s (s.modCluster k f) k x :=
  ⟨(cluster_modCluster_same s k f).trans h, fun _ hq => cluster_modCluster_other s f hq, rfl⟩

end Sys2Proof.Machine

end

section
/-! CLAIM. The governor, current ramps, boost and frequencies (R63 to R69). -/

namespace Sys2Proof.Machine

open Sys2Proof.Claims

/-- The claim served next: the older one of the region's two clusters, the lower cluster's on a tie. -/
theorem nextClaim_eq {r k j a : Nat} {s : State} (hkj : k = 2 * r ∧ j = 2 * r + 1 ∨ k = 2 * r + 1 ∧ j = 2 * r)
    (hk : (s.cluster k).claimAge = some a) (hj : ∀ b, (s.cluster j).claimAge = some b → a < b ∨ a = b ∧ k < j) :
    s.nextClaim r = some k := by
  unfold State.nextClaim regionClusters
  simp only [List.foldl_cons, List.foldl_nil]
  obtain ⟨rfl, rfl⟩ | ⟨rfl, rfl⟩ := hkj
  · rw [hk]
    cases hb : (s.cluster (2 * r + 1)).claimAge with
    | none => rfl
    | some b =>
      have hlt := hj b hb
      simp only [hk, Option.getD_some]
      rw [if_neg (by omega)]
  · rw [hk]
    cases hb : (s.cluster (2 * r)).claimAge with
    | none => rfl
    | some b =>
      have hlt := hj b hb
      simp only [hb, Option.getD_some]
      rw [if_pos (by omega)]

/-- A permit granted to cluster `k`. -/
def State.boostGranted (s : State) (r k : Nat) : State :=
  (s.modRegion r fun y => { y with holder := some k, permits := y.permits - 1, grantAt := s.now, idleFrom := none }).modCluster k fun y =>
    { y with nextFreq := some (s.claimedFreq k), fallAt := none }

theorem boostGrant_clause (r k j a : Nat) (s : State) (hr : r < 96) (hst : (s.region r).st = .on) (hh : (s.region r).holder = none)
    (hp : 1 ≤ (s.region r).permits) (hb : s.boostOk = true) (hs : (s.region r).stage < 2)
    (hkj : k = 2 * r ∧ j = 2 * r + 1 ∨ k = 2 * r + 1 ∧ j = 2 * r) (hk : (s.cluster k).claimAge = some a)
    (hj : ∀ b, (s.cluster j).claimAge = some b → a < b ∨ a = b ∧ k < j) :
    ∃ t, exec (.boostGrant r) s = .next t ∧
      t.region r = { s.region r with holder := some k, permits := (s.region r).permits - 1, grantAt := s.now, idleFrom := none } ∧
      t.cluster k = { s.cluster k with nextFreq := some (s.claimedFreq k), fallAt := none } ∧
      (∀ q, q ≠ r → t.region q = s.region q) ∧ (∀ q, q ≠ k → t.cluster q = s.cluster q) ∧
      { t with regions := s.regions, clusters := s.clusters } = s := by
  have hx : exec (.boostGrant r) s = .next (s.boostGranted r k) := by
    show execBoostGrant r s = _
    unfold execBoostGrant
    simp only []
    rw [if_pos ⟨hr, hst, hh, hp, hb, hs⟩, nextClaim_eq hkj hk hj]
    rfl
  refine ⟨_, hx, ?_, ?_, fun q hq => ?_, fun q hq => ?_, rfl⟩ <;> unfold State.boostGranted
  · rw [region_of_regions (regions_modCluster ..), region_modRegion_same]
  · rw [cluster_modCluster_same, cluster_of_clusters (clusters_modRegion ..)]
  · rw [region_of_regions (regions_modCluster ..), region_modRegion, if_neg hq]
  · rw [cluster_modCluster, if_neg hq, cluster_of_clusters (clusters_modRegion ..)]

/-! ### A claim that is cancelled -/

/-- What every step keeps and one of the steps brings holds at the end of a fold. -/
theorem foldl_of_mem {α β : Type} {f : β → α → β} {P : β → Prop} (keep : ∀ s a, P s → P (f s a)) {l : List α} {a : α} (ha : a ∈ l)
    (bring : ∀ s, P (f s a)) (s : β) : P (l.foldl f s) := by
  induction l generalizing s with
  | nil => cases ha
  | cons b l ih =>
    rcases List.mem_cons.mp ha with rfl | hm
    · exact List.foldlRecOn l f (bring s) fun t ht b _ => keep t b ht
    · exact ih hm _

/-- Gang `g` of core `c` drops a claim that it has. -/
def State.dropClaim (s : State) (c g : Nat) : State :=
  if (s.gang c g).claim.isSome then s.modGang c g fun x => { x with claim := none } else s

/-- The gangs of a core drop their claims. -/
def State.dropCore (s : State) (c : Nat) : State := (List.range 16).foldl (fun s g => s.dropClaim c g) s

/-- The gangs of the cores drop their claims. -/
def State.dropClaims (s : State) (l : List Nat) : State := l.foldl State.dropCore s

theorem cancelClaim_eq (s : State) (k : Nat) :
    s.cancelClaim k = (s.dropClaims (clusterCores k)).modCluster k fun x => { x with claimAge := none, bexh := true } := rfl

theorem coresAndHost_foldl {α : Type} {f : State → α → State} (hf : ∀ s a, CoresAndHost s (f s a)) (l : List α) (s : State) :
    CoresAndHost s (l.foldl f s) :=
  List.foldlRecOn l f (.refl s) fun t ht a _ => ht.trans (hf t a)

theorem coresAndHost_dropClaim (s : State) (c g : Nat) : CoresAndHost s (s.dropClaim c g) := by
  unfold State.dropClaim
  split
  · exact coresAndHost_modGang s c g _
  · exact .refl s

theorem coresAndHost_dropClaims (s : State) (l : List Nat) : CoresAndHost s (s.dropClaims l) :=
  coresAndHost_foldl (fun s c => coresAndHost_foldl (fun s g => coresAndHost_dropClaim s c g) _ s) l s

theorem claim_dropClaim_same (s : State) (c g : Nat) : ((s.dropClaim c g).gang c g).claim = none := by
  unfold State.dropClaim
  split
  · rw [gang_modGang_same]
  · next h => exact Option.not_isSome_iff_eq_none.mp h

theorem claim_dropClaim_none {s : State} {c g : Nat} (d e : Nat) (h : (s.gang c g).claim = none) : ((s.dropClaim d e).gang c g).claim = none := by
  by_cases hce : c = d ∧ g = e
  · obtain ⟨rfl, rfl⟩ := hce
    exact claim_dropClaim_same s c g
  · unfold State.dropClaim
    split
    · rw [gang_modGang_other s _ (by omega), h]
    · exact h

/-- Gang `g` of core `c` has no claim. -/
def State.unclaimed (c g : Nat) (s : State) : Prop := (s.gang c g).claim = none

theorem unclaimed_dropClaim {s : State} {c g : Nat} (d e : Nat) (h : s.unclaimed c g) : (s.dropClaim d e).unclaimed c g := claim_dropClaim_none d e h

theorem unclaimed_dropClaim_same (s : State) (c g : Nat) : (s.dropClaim c g).unclaimed c g := claim_dropClaim_same s c g

theorem unclaimed_dropCore {s : State} {c g : Nat} (d : Nat) (h : s.unclaimed c g) : (s.dropCore d).unclaimed c g :=
  List.foldlRecOn _ _ h fun _ ht e _ => unclaimed_dropClaim d e ht

theorem unclaimed_dropCore_same (s : State) (c : Nat) {g : Nat} (hg : g < 16) : (s.dropCore c).unclaimed c g :=
  foldl_of_mem (β := State) (P := State.unclaimed c g) (fun _ e h => unclaimed_dropClaim c e h) (List.mem_range.mpr hg)
    (fun s => unclaimed_dropClaim_same s c g) s

theorem unclaimed_dropClaims (s : State) {l : List Nat} {c g : Nat} (hc : c ∈ l) (hg : g < 16) : (s.dropClaims l).unclaimed c g :=
  foldl_of_mem (f := State.dropCore) (P := State.unclaimed c g) (fun _ d h => unclaimed_dropCore d h) hc
    (fun s => unclaimed_dropCore_same s c hg) s

theorem CoresAndHost.clusters {s t : State} (h : CoresAndHost s t) : t.clusters = s.clusters := by rw [h.rest]

theorem CoresAndHost.regions {s t : State} (h : CoresAndHost s t) : t.regions = s.regions := by rw [h.rest]

theorem cluster_cancelClaim (s : State) (k q : Nat) :
    (s.cancelClaim k).cluster q = if q = k then { s.cluster k with claimAge := none, bexh := true } else s.cluster q := by
  have hk := cluster_of_clusters (coresAndHost_dropClaims s (clusterCores k)).clusters
  rw [cancelClaim_eq, cluster_modCluster, hk, hk]

theorem regions_cancelClaim (s : State) (k : Nat) : (s.cancelClaim k).regions = s.regions := by
  rw [cancelClaim_eq, regions_modCluster, (coresAndHost_dropClaims s _).regions]

theorem gang_cancelClaim (s : State) (k c g : Nat) : (s.cancelClaim k).gang c g = (s.dropClaims (clusterCores k)).gang c g := by
  rw [cancelClaim_eq]
  exact gang_of_cores (cores_modCluster ..) c g

/-! ### The clauses -/

/-- A permit's interval that finds no further permit: the holder falls. -/
def State.exhausted (s : State) (r k : Nat) : State :=
  ((s.cancelClaim k).modRegion r fun y => { y with holder := none, idleFrom := some (y.grantAt + 10000) }).modCluster k fun y =>
    { y with nextFreq := some 16, fallAt := some ((s.region r).grantAt + 30000) }

theorem boostInterval_clause (r k : Nat) (s : State) (hh : (s.region r).holder = some k) (hg : (s.region r).grantAt + 10000 ≤ s.now) :
    (1 ≤ (s.region r).permits → ∃ t, exec (.boostInterval r) s = .next t ∧
      RegionBecomes s t r { s.region r with permits := (s.region r).permits - 1, grantAt := (s.region r).grantAt + 10000 }) ∧
    ((s.region r).permits = 0 → ∃ t, exec (.boostInterval r) s = .next t ∧
      t.region r = { s.region r with holder := none, idleFrom := some ((s.region r).grantAt + 10000) } ∧
      (∀ c ∈ clusterCores k, ∀ g, g < 16 → (t.gang c g).claim = none) ∧
      t.cluster k = { s.cluster k with
        claimAge := none, bexh := true, nextFreq := some 16, fallAt := some ((s.region r).grantAt + 30000) }) := by
  have hx : exec (.boostInterval r) s = .next (if 1 ≤ (s.region r).permits then
      s.modRegion r fun y => { y with permits := y.permits - 1, grantAt := y.grantAt + 10000 } else s.exhausted r k) := by
    show execBoostInterval r s = _
    unfold execBoostInterval
    simp only [hh]
    rw [if_neg (Nat.not_lt.mpr hg)]
    split <;> rfl
  refine ⟨fun hp => ⟨_, by rw [hx, if_pos hp], regionBecomes_modRegion s r rfl⟩, fun hp => ⟨_, by rw [hx, if_neg (by omega)], ?_, ?_, ?_⟩⟩
  · rw [State.exhausted, region_of_regions (regions_modCluster ..), region_modRegion_same, region_of_regions (regions_cancelClaim s k)]
  · intro c hc g hg
    rw [State.exhausted, gang_of_cores (cores_modCluster ..), gang_of_cores (cores_modRegion ..), gang_cancelClaim]
    exact unclaimed_dropClaims s hc hg
  · rw [State.exhausted, cluster_modCluster_same, cluster_of_clusters (clusters_modRegion ..), cluster_cancelClaim, if_pos rfl]

theorem boostFallStep_clause (k a : Nat) (s : State) (hk : k < 192) (hf : (s.cluster k).fallAt = some a) (ha : a ≤ s.now) :
    ∃ t, exec (.boostFallStep k) s = .next t ∧ ClusterBecomes s t k { s.cluster k with nextFreq := some 14, fallAt := none } := by
  refine ⟨_, ?_, clusterBecomes_modCluster s k (f := fun x => { x with nextFreq := some 14, fallAt := none }) rfl⟩
  show execBoostFallStep k s = _
  unfold execBoostFallStep
  simp only [hf]
  rw [if_pos ⟨hk, ha⟩]

theorem permitRefill_clause (r a : Nat) (s : State) (hr : r < 96) (hi : (s.region r).idleFrom = some a) (ha : a + 40000 ≤ s.now) :
    ∃ t, exec (.permitRefill r) s = .next t ∧
      RegionBecomes s t r { s.region r with permits := min 64 ((s.region r).permits + 1), idleFrom := some (a + 40000) } := by
  refine ⟨_, ?_, regionBecomes_modRegion s r (f := fun x => { x with permits := min 64 (x.permits + 1), idleFrom := some (a + 40000) }) rfl⟩
  show execPermitRefill r s = _
  unfold execPermitRefill
  simp only [hi]
  rw [if_pos ⟨hr, ha⟩]

theorem frequencyChangeComplete_clause (k q : Nat) (s : State) (hk : k < 192) (hn : (s.cluster k).nextFreq = some q) :
    ∃ t, exec (.frequencyChangeComplete k) s = .next t ∧ ClusterBecomes s t k { s.cluster k with freq := q, nextFreq := none } := by
  refine ⟨_, ?_, clusterBecomes_modCluster s k (f := fun x => { x with freq := q, nextFreq := none }) rfl⟩
  show execFrequencyChangeComplete k s = _
  unfold execFrequencyChangeComplete
  simp only [hn]
  rw [if_pos hk]

theorem governorTick_early (w : Nat) (s : State) (h : s.now < s.govAt + 10000) : exec (.governorTick w) s = .next s := if_pos h

theorem governorTick_due (w : Nat) (s : State) (h : s.govAt + 10000 ≤ s.now) : exec (.governorTick w) s = .next { s with
    govAt := s.now
    gov := if 30000 < w then max 3 (s.gov - 1) else if w < 29000 then min 15 (s.gov + 1) else s.gov
    boostOk := decide (w ≤ 30000) } :=
  if_neg (Nat.not_lt.mpr h)

theorem currentRampStep_clause (r d : Nat) (s : State) (hr : r < 96) (hd : d ≤ 420000) (ht : (s.region r).st ≠ .trip) :
    ((s.region r).rampAt + 100 ≤ s.now → ∃ t, exec (.currentRampStep r d) s = .next t ∧ RegionBecomes s t r { s.region r with
      rampAt := s.now
      amps := if (s.region r).amps ≤ d then min ((s.region r).amps + 2520) d else max ((s.region r).amps - 2520) d }) ∧
    (s.now < (s.region r).rampAt + 100 → exec (.currentRampStep r d) s = .next s) := by
  refine ⟨fun hn => ⟨_, if_pos ⟨hr, ht, hn⟩, regionBecomes_modRegion s r ?_⟩, fun hn => if_neg fun h => Nat.not_lt.mpr h.2.2 hn⟩
  rw [Nat.min_eq_left hd]

theorem currents_holds : currents :=
  ⟨governorTick_early, governorTick_due, currentRampStep_clause, boostGrant_clause, boostInterval_clause, boostFallStep_clause,
    permitRefill_clause, frequencyChangeComplete_clause⟩

end Sys2Proof.Machine

end

section
/-! CLAIM. The host's commands to a region (R55, R59, R73); the drained region that loses its supply comes after what that loss takes. -/

namespace Sys2Proof.Machine

open Sys2Proof.Claims

/-- R59: the region's control register, a word each. -/
theorem hostReg_regionCtl {r : Nat} (h : r < 96) : hostReg (0x1011000 + 8 * r) = some (.regionCtl r, 8) := by
  have hall : ∀ q : Fin 96, hostReg (0x1011000 + 8 * q.val) = some (.regionCtl q.val, 8) := by decide +kernel
  exact hall ⟨r, h⟩

/-- A command that no region knows is refused. -/
theorem registerWrite_refused (r : Nat) (s : State) (hr : r < 96) (v : DWord) (hv : 5 ≤ v.toNat % 8) :
    ∃ t, exec (.registerWrite (mailboxBase + 0x1011000 + 8 * r) 8 v) s = .next t ∧ RegionBecomes s t r { s.region r with refused := true } := by
  have ho : s.object16 (0x1011000 + 8 * r) = none := by
    unfold State.object16
    rw [if_neg (by omega), if_neg (by omega)]
  refine ⟨_, ?_, regionBecomes_refuseRegion s r⟩
  rw [Nat.add_assoc, exec_registerWrite (by omega) ho, hostReg_regionCtl hr]
  have hb : 5 ≤ bits v.toNat 0 3 := by
    unfold bits
    omega
  have hw : s.plainWrite (0x1011000 + 8 * r) (.regionCtl r) v = s.refuseRegion r := if_pos hb
  simp only [if_true, hw]

theorem regionEnable_off (r : Nat) (s : State) (hr : r < 96) (h : (s.region r).st = .off) :
    ∃ t, exec (.regionEnable r) s = .next t ∧ RegionBecomes s t r { s.region r with st := .ramp, since := s.now } :=
  ⟨_, (if_neg (Nat.not_le.mpr hr)).trans (if_pos h), regionBecomes_setRegState_dark s r rfl⟩

theorem regionEnable_refused (r : Nat) (s : State) (hr : r < 96) (h : (s.region r).st ≠ .off) :
    ∃ t, exec (.regionEnable r) s = .next t ∧ RegionBecomes s t r { s.region r with refused := true } :=
  ⟨_, (if_neg (Nat.not_le.mpr hr)).trans (if_neg h), regionBecomes_refuseRegion s r⟩

theorem regionDisable_hold (r : Nat) (s : State) (hr : r < 96) (h : (s.region r).st = .hold) :
    ∃ t, exec (.regionDisable r) s = .next t ∧ RegionBecomes s t r { s.region r with st := .off, since := s.now } :=
  ⟨_, (if_neg (Nat.not_le.mpr hr)).trans (if_pos h), regionBecomes_setRegState_dark s r rfl⟩

theorem exec_regionDisable_drained {r : Nat} {s : State} (hr : r < 96) (h : (s.region r).st = .on) (hd : s.regionDrained r = true) :
    exec (.regionDisable r) s = .next ((s.regionLost r).setRegState r .off) := by
  show execRegionDisable r s = _
  unfold execRegionDisable
  rw [if_neg (Nat.not_le.mpr hr), if_neg (by rw [h]; decide), if_pos ⟨h, hd⟩]

theorem regionDisable_refused (r : Nat) (s : State) (hr : r < 96) (h : (s.region r).st ≠ .hold)
    (hd : ¬((s.region r).st = .on ∧ s.regionDrained r = true)) :
    ∃ t, exec (.regionDisable r) s = .next t ∧ RegionBecomes s t r { s.region r with refused := true } :=
  ⟨_, (if_neg (Nat.not_le.mpr hr)).trans ((if_neg h).trans (if_neg hd)), regionBecomes_refuseRegion s r⟩

theorem regionRestart_hold (r : Nat) (s : State) (hr : r < 96) (h : (s.region r).st = .hold) :
    ∃ t, exec (.regionRestart r) s = .next t ∧
      RegionBecomes s t r { s.region r with st := .restart, since := s.now, settled := false, tablesIn := false } :=
  ⟨_, (if_neg (Nat.not_le.mpr hr)).trans (if_pos h),
    regionBecomes_trans_modRegion (regionBecomes_setRegState_dark s r rfl) (f := fun x => { x with settled := false, tablesIn := false }) rfl⟩

theorem regionRestart_refused (r : Nat) (s : State) (hr : r < 96) (h : (s.region r).st ≠ .hold) :
    ∃ t, exec (.regionRestart r) s = .next t ∧ RegionBecomes s t r { s.region r with refused := true } :=
  ⟨_, (if_neg (Nat.not_le.mpr hr)).trans (if_neg h), regionBecomes_refuseRegion s r⟩

/-! ### The release of a halt -/

/-- R72: below stage 3 the stage follows the temperature alone. -/
theorem stageBelow_eq (temp : Nat) : stageBelow temp = if temp < 90 then 0 else if temp < 95 then 1 else 2 := by
  unfold stageBelow
  split_ifs <;> omega

theorem stageBelow_lt {temp : Nat} : stageBelow temp < 2 ↔ temp < 95 := by
  rw [stageBelow_eq]
  split_ifs <;> omega

/-- The region with its halt released. -/
def State.haltReleased (s : State) (r : Nat) : State :=
  (s.modRegion r fun y => { y with stage := stageBelow y.temp }).bboxEvent (r / 16 * 8 + r % 8) 7 r (stageBelow (s.region r).temp)

theorem regionBecomes_haltReleased (s : State) (r : Nat) :
    RegionBecomes s (s.haltReleased r) r { s.region r with stage := stageBelow (s.region r).temp } :=
  regionBecomes_bboxEvent (regionBecomes_modRegion s r rfl) ..

theorem exec_regionReleaseHalt {r : Nat} {s : State} (hr : r < 96) (h : (s.region r).st = .on ∧ (s.region r).stage = 3 ∧ (s.region r).temp < 100) :
    exec (.regionReleaseHalt r) s =
      .next (if (s.region r).temp < 95 then (s.haltReleased r).endThrottle r else s.haltReleased r) := by
  show execRegionReleaseHalt r s = _
  unfold execRegionReleaseHalt
  rw [if_neg (Nat.not_le.mpr hr)]
  simp only []
  rw [if_pos h]
  simp only [stageBelow_lt]
  rfl

theorem regionReleaseHalt_clause (r : Nat) (s : State) (hr : r < 96) (h : (s.region r).st = .on) (hs : (s.region r).stage = 3)
    (ht : (s.region r).temp < 100) : ∃ t, exec (.regionReleaseHalt r) s = .next t ∧
      (t.region r).stage = (if (s.region r).temp < 90 then 0 else if (s.region r).temp < 95 then 1 else 2) ∧
      { t.region r with stage := (s.region r).stage } = s.region r ∧
      ((s.region r).temp < 95 → ∀ k, k / 2 = r → (t.cluster k).thr = false ∧
        (t.cluster k).nextFreq = some (Config.classFreq ((s.cluster k).moving.getD (s.cluster k).pool))) ∧
      (95 ≤ (s.region r).temp → ∀ k, t.cluster k = s.cluster k) := by
  have hb := regionBecomes_haltReleased s r
  have hk := cluster_of_regionBecomes hb
  refine ⟨_, exec_regionReleaseHalt hr ⟨h, hs, ht⟩, ?_⟩
  rw [← stageBelow_eq]
  split
  · next hlt =>
    rw [endThrottle_eq, region_modBoth, hb.region]
    refine ⟨rfl, rfl, fun _ k hkr => ?_, fun hge => absurd hlt (Nat.not_lt.mpr hge)⟩
    rw [cluster_modBoth, if_pos hkr, hk]
    exact ⟨rfl, rfl⟩
  · next hge =>
    rw [hb.region]
    exact ⟨rfl, rfl, fun hlt => absurd hlt hge, fun _ => hk⟩

theorem regionReleaseHalt_refused (r : Nat) (s : State) (hr : r < 96)
    (h : ¬((s.region r).st = .on ∧ (s.region r).stage = 3 ∧ (s.region r).temp < 100)) :
    ∃ t, exec (.regionReleaseHalt r) s = .next t ∧ RegionBecomes s t r { s.region r with refused := true } :=
  ⟨_, (if_neg (Nat.not_le.mpr hr)).trans (if_neg h), regionBecomes_refuseRegion s r⟩

end Sys2Proof.Machine

end

section
/-! CLAIM. Clusters that move between pools (R62, R63, R64, R74, R103). -/

namespace Sys2Proof.Machine

open Sys2Proof.Claims

/-- The more urgent of the launch found so far and a further one. -/
def HubList.moreUrgent (found : Option HubList) (y : HubList) : Option HubList :=
  match found with
  | none => some y
  | some a => if a.eff < y.eff then some y else some a

/-- Of launches that are all the same one, that one is the most urgent. -/
theorem foldl_moreUrgent {l : HubList} {ys : List HubList} (hne : ys ≠ []) (hall : ∀ y ∈ ys, y = l) :
    ys.foldl HubList.moreUrgent none = some l := by
  cases ys with
  | nil => exact absurd rfl hne
  | cons y ys =>
    refine List.foldlRecOn (motive := (· = some l)) ys HubList.moreUrgent (congrArg some (hall y (List.mem_cons_self ..))) fun found hf z hz => ?_
    rw [hf, hall z (List.mem_cons_of_mem _ hz)]
    exact ite_self _

/-- A hub in which one launch alone has a head block that waits seeks a cluster for that launch, if its block has waited for 20 µs. -/
theorem starved_eq {hub : Nat} {l : HubList} {s : State} (hm : l ∈ (s.hub hub).lists) (hb : l.blocks ≠ [])
    (ht : ∃ t, l.blockedAt = some t ∧ t + 20000 ≤ s.now) (ho : s.originIn hub (s.launch l.ltag.toNat) = none)
    (hall : ∀ y ∈ (s.hub hub).lists, y = l ∨ y.blocks = [] ∨ y.blockedAt = none) : s.starved hub = some l := by
  obtain ⟨t, hat, hdue⟩ := ht
  refine foldl_moreUrgent (List.ne_nil_of_mem (List.mem_filter.mpr ⟨hm, ?_⟩)) fun y hy => ?_
  · simp [hb, hat, hdue, ho]
  · obtain ⟨hy, hwaits⟩ := List.mem_filter.mp hy
    rcases hall y hy with e | e | e
    · exact e
    · simp [e] at hwaits
    · simp [e] at hwaits

theorem poolTargetMove_clause (hub k : Nat) (l : HubList) (s : State) (hh : hub < 48) (hk : k ∈ fieldClusters hub)
    (hm : l ∈ (s.hub hub).lists) (hb : l.blocks ≠ []) (ht : ∃ t, l.blockedAt = some t ∧ t + 20000 ≤ s.now)
    (ho : s.originIn hub (s.launch l.ltag.toNat) = none) (hall : ∀ y ∈ (s.hub hub).lists, y = l ∨ y.blocks = [] ∨ y.blockedAt = none)
    (hf : s.fieldHalted hub = false) (hon : (s.region (regionOf k)).st = .on) (hs : (s.region (regionOf k)).stage < 3)
    (hmov : (s.cluster k).moving = none) (hp : (s.cluster k).pool ≠ (s.launch l.ltag.toNat).cls ∨ (s.cluster k).inPool = false)
    (hi : s.clusterIdle k = true) (his : (s.cluster k).idleSince + 20000 ≤ s.now)
    (hc : ((fieldClusters hub).filter fun q => (s.cluster q).moving == some (s.launch l.ltag.toNat).cls).length <
      max 1 (2 ^ (s.launch l.ltag.toNat).bw / 8) * max 1 (2 ^ (s.launch l.ltag.toNat).bh / 8))
    (hcl : ∀ c ∈ clusterCores k, ∀ g, g < 16 → (s.gang c g).claim = none) :
    ∃ t, exec (.poolTargetMove hub k) s = .next t ∧ ClusterBecomes s t k { s.cluster k with
      moving := some (s.launch l.ltag.toNat).cls, fallAt := none
      nextFreq := if (s.cluster k).thr = true then (s.cluster k).nextFreq
        else if (s.cluster k).freq = Config.classFreq (s.launch l.ltag.toNat).cls then none
        else some (Config.classFreq (s.launch l.ltag.toNat).cls) } := by
  refine ⟨_, ?_, clusterBecomes_modCluster s k (f := fun y => { y with
    moving := some (s.launch l.ltag.toNat).cls, fallAt := none
    nextFreq := if y.thr then y.nextFreq else if y.freq = Config.classFreq (s.launch l.ltag.toNat).cls then none
      else some (Config.classFreq (s.launch l.ltag.toNat).cls) }) rfl⟩
  show execPoolTargetMove hub k s = _
  unfold execPoolTargetMove
  simp only [starved_eq hm hb ht ho hall]
  rw [if_pos ⟨hh, List.elem_eq_true_of_mem hk, by simp [hf], hon, hs, hmov, hp.imp_right fun h => by simp [h], hi, his, hc⟩, endClaims_of_none hcl]

theorem poolMoveComplete_clause (k p : Nat) (s : State) (hk : k < 192) (hm : (s.cluster k).moving = some p) :
    ((s.region (regionOf k)).stage < 3 ∧
        ((s.cluster k).thr = true ∨ (s.cluster k).nextFreq = none ∧ (s.cluster k).freq = Config.classFreq p) →
      ∃ t, exec (.poolMoveComplete k) s = .next t ∧
        ClusterBecomes s t k { s.cluster k with pool := p, inPool := true, moving := none, idleSince := s.now }) ∧
    (¬((s.region (regionOf k)).stage < 3 ∧
        ((s.cluster k).thr = true ∨ (s.cluster k).nextFreq = none ∧ (s.cluster k).freq = Config.classFreq p)) →
      exec (.poolMoveComplete k) s = .next s) := by
  have hx : exec (.poolMoveComplete k) s = if k < 192 ∧ (s.region (regionOf k)).stage < 3 ∧
        ((s.cluster k).thr ∨ ((s.cluster k).nextFreq = none ∧ (s.cluster k).freq = Config.classFreq p)) then
      .next (s.modCluster k fun x => { x with pool := p, inPool := true, moving := none, idleSince := s.now })
      else .next s := by
    show execPoolMoveComplete k s = _
    unfold execPoolMoveComplete
    simp only [hm]
  exact ⟨fun h => ⟨_, hx.trans (if_pos ⟨hk, h⟩), clusterBecomes_modCluster s k rfl⟩, fun h => hx.trans (if_neg fun h' => h h'.2)⟩

theorem pools_holds : pools := ⟨poolTargetMove_clause, poolMoveComplete_clause⟩

end Sys2Proof.Machine

end

section
/-! SUPPORT. What a region that loses its supply takes with it, and what a trip leaves (R54, R55, R57, R60, R70). -/

namespace Sys2Proof.Machine

open Sys2Proof.Claims

variable {s t u : State} {r : Nat}

/-! ### Data that is lost with a region -/

/-- From `s` to `t` no region changes, no core without coherent lines, and the pending accesses stay those of their cores. -/
structure LosesData (s t : State) : Prop where
  regions : t.regions = s.regions
  core : ∀ c, (s.core c).coh = [] → t.core c = s.core c
  pends : t.pends.map (·.core) = s.pends.map (·.core)

theorem LosesData.refl (s : State) : LosesData s s := ⟨rfl, fun _ _ => rfl, rfl⟩

theorem LosesData.trans (h : LosesData s t) (h' : LosesData t u) : LosesData s u where
  regions := h'.regions.trans h.regions
  core c hc := (h'.core c (by rw [h.core c hc, hc])).trans (h.core c hc)
  pends := h'.pends.trans h.pends

theorem losesData_foldl {α : Type} {f : State → α → State} (hf : ∀ s a, LosesData s (f s a)) (l : List α) (s : State) :
    LosesData s (l.foldl f s) :=
  List.foldlRecOn l f (.refl s) fun t ht a _ => ht.trans (hf t a)

/-- A change of neither regions, cores nor pending accesses. -/
theorem losesData_of_rest (hr : t.regions = s.regions) (hc : t.cores = s.cores) (hp : t.pends = s.pends) : LosesData s t :=
  ⟨hr, fun c _ => core_of_cores hc c, by rw [hp]⟩

theorem losesData_loseSuperblock (s : State) (sb : Nat) : LosesData s (s.loseSuperblock sb) := losesData_of_rest rfl rfl rfl

theorem losesData_withSbReqs (s : State) (l : List SbReq) : LosesData s { s with sbReqs := l } := losesData_of_rest rfl rfl rfl

theorem losesData_withHomeBits (s : State) (x : SMap (BitVec 2)) : LosesData s { s with homeBits := x } := losesData_of_rest rfl rfl rfl

theorem losesData_loseOwned (s : State) (sb : Nat) : LosesData s (s.loseOwned sb) :=
  (losesData_loseSuperblock s sb).trans (losesData_withSbReqs _ _)

theorem losesData_failEvict (s : State) (sb : Nat) : LosesData s (s.failEvict sb) :=
  (losesData_loseSuperblock s sb).trans (losesData_of_rest rfl rfl rfl)

/-- The pending accesses of a request that is given up fail. -/
theorem losesData_failPends (s : State) (l : List SbReq) (f : Pend → Pend) (hf : ∀ p, (f p).core = p.core) :
    LosesData s { s with sbReqs := l, pends := s.pends.map f } := by
  refine ⟨rfl, fun _ _ => rfl, ?_⟩
  show (s.pends.map f).map (·.core) = _
  rw [List.map_map]
  exact List.map_congr_left fun p _ => hf p

theorem losesData_failRequest (s : State) (msg : Nat) : LosesData s (s.failRequest msg) := by
  unfold State.failRequest
  split
  · exact .refl s
  · next q _ =>
    have hp : LosesData s { s with
        sbReqs := s.sbReqs.filter fun q => q.msg != msg
        pends := s.pends.map fun (p : Pend) => if p.msg = some msg ∧ !p.performed then { p with failed := some cMachineCheck, msg := none } else p } :=
      losesData_failPends s _ _ fun p => by split <;> rfl
    simp only []
    split
    · exact hp
    · exact hp.trans ((losesData_loseSuperblock _ q.sb).trans (losesData_withSbReqs _ _))

theorem losesData_dropCopies (s : State) (k sb : Nat) (p : Nat → Bool) : LosesData s (s.dropCopies k sb p) := by
  refine losesData_foldl (fun s c => ?_) _ s
  split
  · next h =>
    obtain ⟨_, hin⟩ := Bool.and_eq_true_iff.mp h
    refine ⟨rfl, fun d hd => ?_, rfl⟩
    refine core_modCore_other _ _ fun e => ?_
    rw [← e, hd] at hin
    exact Bool.false_ne_true hin
  · exact .refl s

theorem losesData_setMoesi (s : State) (k sb : Nat) (x : Moesi) : LosesData s (s.setMoesi k sb x) := by
  unfold State.setMoesi
  simp only []
  refine LosesData.trans (t := if x = .i then s.dropCopies k sb fun _ => true else s) ?_ (losesData_of_rest rfl rfl rfl)
  split
  · exact losesData_dropCopies s k sb _
  · exact .refl s

/-- A superblock leaves every cluster that has it. -/
theorem losesData_dropHolder (s : State) (sb k : Nat) : LosesData s (if s.moesiOf k sb = .i then s else s.setMoesi k sb .i) := by
  split
  · exact .refl s
  · exact losesData_setMoesi s k sb .i

theorem losesData_endRequest (s : State) (q : SbReq) : LosesData s (s.endRequest q) := by
  unfold State.endRequest
  simp only []
  split
  · exact losesData_failRequest s q.msg
  · refine LosesData.trans ?_ (losesData_loseOwned _ q.sb)
    exact (losesData_failRequest s q.msg).trans (losesData_foldl (fun s k => losesData_dropHolder s q.sb k) _ _)

/-! ### The loss of supply -/

/-- Is core `c` one of region `r`? -/
def hitBy (r c : Nat) : Bool := regionOf (clusterOf c) == r && c < nCores

theorem hitBy_of_mem {c : Nat} (hr : r < 96) (h : c ∈ regionCores r) : hitBy r c = true := by
  obtain ⟨he, hc⟩ := mem_regionCores h
  simp [hitBy, regionOf, he, hc hr]

/-- The cores of region `r` and their pending accesses are gone. -/
def State.unpowered (s : State) (r : Nat) : State :=
  { s with cores := s.cores.filter fun p => !hitBy r p.1, pends := s.pends.filter fun p => !hitBy r p.core }

/-- The cores of the list are held. -/
def State.heldAt (s : State) (l : List Nat) : State := l.foldl (fun s c => s.modCore c fun k => { k with held := true }) s

/-- The DRAM of region `r` reads 0. -/
def State.dramLost (s : State) (r : Nat) : State := { s with dram := s.dram.filter fun p => regionOfPhys (p.1 / 2 ^ 27) != r }

/-- The DRAM of region `r` reads 0, the cores of the list are held, and the region has no holder. -/
def State.darkened (s : State) (r : Nat) (l : List Nat) : State :=
  ((s.dramLost r).heldAt l).modRegion r fun x => { x with holder := none, idleFrom := some ((s.dramLost r).heldAt l).now }

theorem regionLost_eq (s : State) (r : Nat) :
    ∃ u, LosesData (s.unpowered r) u ∧ s.regionLost r = u.darkened r ((regionCores r).filter fun c => (s.core c).held) := by
  unfold State.regionLost
  refine ⟨_, ?_, rfl⟩
  refine LosesData.trans ?_ (losesData_foldl (fun s (q : SbReq) => losesData_failRequest s q.msg) _ _)
  refine LosesData.trans ?_ (losesData_withHomeBits _ _)
  refine LosesData.trans ?_ (losesData_foldl losesData_loseOwned _ _)
  refine LosesData.trans ?_ (losesData_foldl losesData_failEvict _ _)
  refine LosesData.trans ?_ (losesData_foldl losesData_endRequest _ _)
  exact losesData_of_rest rfl rfl rfl

theorem core_heldAt (s : State) (l : List Nat) (c : Nat) :
    (s.heldAt l).core c = if c ∈ l then { s.core c with held := true } else s.core c := by
  induction l generalizing s with
  | nil => rfl
  | cons d l ih =>
    refine (ih _).trans ?_
    by_cases hd : c = d
    · subst hd
      rw [core_modCore_same, if_pos (List.mem_cons_self ..)]
      exact ite_self _
    · rw [core_modCore_other _ _ hd]
      simp only [List.mem_cons, hd, false_or]

/-- Holding cores changes cores alone. -/
theorem heldAt_rest (s : State) (l : List Nat) : s.heldAt l = { s with cores := (s.heldAt l).cores } :=
  List.foldlRecOn (motive := fun t : State => t = { s with cores := t.cores }) l _ rfl fun t ht c _ => by
    conv_lhs => rw [ht]
    rfl

/-- Region `r` loses its supply: what lives in it is gone, and it differs in its holder, its idle time and the filler that it lost. -/
structure Unpowered (s t : State) (r : Nat) : Prop where
  gone : RegionGone s t r
  region : t.region r = { s.region r with
    holder := (t.region r).holder, idleFrom := (t.region r).idleFrom, orphan := (t.region r).orphan }
  others : ∀ q, q ≠ r → t.region q = s.region q

theorem core_unpowered {c : Nat} (hr : r < 96) (hc : c ∈ regionCores r) : (s.unpowered r).core c = {} := by
  refine get_of_not_mem fun p hp e => ?_
  have hkept := (List.mem_filter.mp hp).2
  rw [e, hitBy_of_mem hr hc] at hkept
  exact Bool.false_ne_true hkept

theorem pends_unpowered {p : Pend} (hr : r < 96) (hp : p ∈ (s.unpowered r).pends) : p.core ∉ regionCores r := by
  intro hc
  have hkept := (List.mem_filter.mp hp).2
  rw [hitBy_of_mem hr hc] at hkept
  exact Bool.false_ne_true hkept

theorem core_darkened (u : State) (r : Nat) (l : List Nat) (c : Nat) :
    (u.darkened r l).core c = if c ∈ l then { u.core c with held := true } else u.core c :=
  core_heldAt _ l c

theorem dram_darkened (u : State) (r : Nat) (l : List Nat) :
    (u.darkened r l).dram = u.dram.filter fun p => regionOfPhys (p.1 / 2 ^ 27) != r := by
  show ((u.dramLost r).heldAt l).dram = _
  rw [heldAt_rest]
  rfl

theorem read_darkened (u : State) (r : Nat) (l : List Nat) {x : Nat} (h : regionOfPhys (x / 2 ^ 27) = r) : (u.darkened r l).dram.read x = 0 := by
  rw [dram_darkened]
  refine (Memory.read_filter (fun a => regionOfPhys (a / 2 ^ 27) != r) u.dram x).trans (if_neg ?_)
  rw [h, bne_self_eq_false]
  exact Bool.false_ne_true

theorem pends_darkened (u : State) (r : Nat) (l : List Nat) : (u.darkened r l).pends = u.pends := by
  show ((u.dramLost r).heldAt l).pends = _
  rw [heldAt_rest]
  rfl

theorem region_darkened (u : State) (r : Nat) (l : List Nat) (q : Nat) : ∃ n,
    (u.darkened r l).region q = if q = r then { u.region r with holder := none, idleFrom := some n } else u.region q := by
  have hregion (p : Nat) : ((u.dramLost r).heldAt l).region p = u.region p := region_of_regions (by rw [heldAt_rest]; rfl) p
  refine ⟨((u.dramLost r).heldAt l).now, ?_⟩
  unfold State.darkened
  rw [region_modRegion, hregion, hregion]

theorem unpowered_regionLost (s : State) (hr : r < 96) : Unpowered s (s.regionLost r) r := by
  obtain ⟨u, hu, e⟩ := regionLost_eq s r
  have hregion (q : Nat) : u.region q = s.region q := region_of_regions hu.regions q
  rw [e]
  refine ⟨⟨fun c hc => ?_, fun x hx => read_darkened u r _ hx, fun p hp hc => ?_⟩, ?_, fun q hq => ?_⟩
  · have hcore : u.core c = {} := by rw [hu.core c (by rw [core_unpowered hr hc]), core_unpowered hr hc]
    rw [core_darkened, hcore]
    cases hheld : (s.core c).held with
    | true => rw [if_pos (List.mem_filter.mpr ⟨hc, hheld⟩)]
    | false =>
      have hout : c ∉ (regionCores r).filter fun c => (s.core c).held := fun hm =>
        Bool.false_ne_true (hheld.symm.trans (List.mem_filter.mp hm).2)
      rw [if_neg hout]
  · rw [pends_darkened] at hp
    have hm : p.core ∈ (s.unpowered r).pends.map (·.core) := hu.pends ▸ List.mem_map_of_mem hp
    obtain ⟨p', hp', e'⟩ := List.mem_map.mp hm
    exact pends_unpowered hr hp' (e' ▸ hc)
  · obtain ⟨n, en⟩ := region_darkened u r ((regionCores r).filter fun c => (s.core c).held) r
    rw [en, if_pos rfl, hregion]
  · obtain ⟨n, en⟩ := region_darkened u r ((regionCores r).filter fun c => (s.core c).held) q
    rw [en, if_neg hq, hregion]

/-! ### The filler that is lost -/

/-- From `s` to `t` region `r` has lost filler, and nothing else has changed but the free values taken. -/
structure Orphans (s t : State) (r : Nat) : Prop where
  rest : t = { s with freeCtr := t.freeCtr, regions := t.regions }
  region : t.region r = { s.region r with orphan := (t.region r).orphan }
  others : ∀ q, q ≠ r → t.region q = s.region q

theorem Orphans.refl (s : State) (r : Nat) : Orphans s s r := ⟨rfl, rfl, fun _ _ => rfl⟩

theorem Orphans.trans (h : Orphans s t r) (h' : Orphans t u r) : Orphans s u r where
  rest := by rw [h'.rest, h.rest]
  region := by rw [h'.region, h.region]
  others q hq := (h'.others q hq).trans (h.others q hq)

theorem orphans_orphan (s : State) {c : Nat} (h : regionOf (clusterOf c) = r) : Orphans s (s.orphan c) r := by
  subst h
  refine ⟨rfl, ?_, fun q hq => region_setRegion_other _ _ hq⟩
  unfold State.orphan
  rw [region_modRegion_same]
  rfl

theorem orphans_orphanAll (s : State) (r : Nat) : Orphans s (s.orphanAll r) r :=
  List.foldlRecOn (motive := fun t => Orphans s t r) _ _ (.refl s r) fun _ ht _ hc =>
    List.foldlRecOn (motive := fun t => Orphans s t r) _ _ ht fun _ hu _ _ => hu.trans (orphans_orphan _ (mem_regionCores hc).1)

theorem regionGone_of_cores (hc : t.cores = s.cores) (h : RegionGone t u r) : RegionGone s u r := by
  refine ⟨fun c hm => ?_, h.dram, h.pends⟩
  rw [h.cores c hm, core_of_cores hc]

/-- A tripping region loses its supply with the filler of its contexts. -/
theorem unpowered_orphaned (s : State) (hr : r < 96) : Unpowered s ((s.orphanAll r).regionLost r) r := by
  have ho := orphans_orphanAll s r
  have hl := unpowered_regionLost (s.orphanAll r) hr
  refine ⟨regionGone_of_cores (by rw [ho.rest]) hl.gone, ?_, fun q hq => (hl.others q hq).trans (ho.others q hq)⟩
  rw [hl.region, ho.region]

/-! ### Trips -/

/-- The region before it trips: without what lives in it, if it was ON or RESTART. -/
def State.tripping (s : State) (r : Nat) : State :=
  if (s.region r).st = .on ∨ (s.region r).st = .restart then (s.orphanAll r).regionLost r else s

/-- A region in TRIP, with its cause and its counters. -/
def State.tripped (s : State) (r : Nat) (cause : BitVec 4) : State :=
  ((s.setRegState r .trip).modRegion r fun x =>
    { x with cause, amps := 0, trips := sat16 (x.trips + 1), rampfail := if cause = 4 ∨ cause = 6 then sat16 (x.rampfail + 1) else x.rampfail }).bboxEvent
      (r / 16 * 8 + r % 8) 2 r cause.toNat

theorem trip_eq (s : State) (r : Nat) (cause : BitVec 4) : s.trip r cause = ((s.tripping r).tripped r cause).openMessage kindRegion r := rfl

theorem regionBecomes_tripped (s : State) (r : Nat) (cause : BitVec 4) : RegionBecomes s (s.tripped r cause) r { s.region r with
    st := .trip, since := s.now, cause, amps := 0, trips := sat16 ((s.region r).trips + 1)
    rampfail := if cause = 4 ∨ cause = 6 then sat16 ((s.region r).rampfail + 1) else (s.region r).rampfail } :=
  regionBecomes_bboxEvent (regionBecomes_trans_modRegion (regionBecomes_setRegState_dark s r rfl) rfl) ..

/-- What is gone stays gone when a region becomes another. -/
theorem regionGone_of_regionBecomes {q : Nat} {x : Region} (h : RegionGone s t r) (hb : RegionBecomes t u q x) : RegionGone s u r := by
  have hc : u.cores = t.cores := by rw [← hb.rest]
  have hd : u.dram = t.dram := by rw [← hb.rest]
  have hp : u.pends = t.pends := by rw [← hb.rest]
  exact ⟨fun c hm => (core_of_cores hc c).trans (h.cores c hm), fun x hx => by rw [hd]; exact h.dram x hx, fun p hm => h.pends p (hp ▸ hm)⟩

/-- The host's queue stands as it stood when a region becomes another. -/
theorem told_of_regionBecomes {x : Region} {e : CqEntry} (hb : RegionBecomes s t r x) (h : Told t u e) : Told s u e := by
  have htail : t.cqTail = s.cqTail := by rw [← hb.rest]
  have hhead : t.cqHead = s.cqHead := by rw [← hb.rest]
  have hirqs : t.irqs = s.irqs := by rw [← hb.rest]
  exact ⟨by rw [← htail, h.entry], by rw [h.tail, htail], by rw [h.irqs, htail, hhead, hirqs]⟩

theorem room_of_regionBecomes {x : Region} (hb : RegionBecomes s t r x) (h : room s) : room t := by
  rw [← hb.rest] at h
  exact h

/-- What is gone stays gone when the host is told. -/
theorem regionGone_of_messages (h : RegionGone s t r) (hm : Messages t u) : RegionGone s u r := by
  refine ⟨fun c hc => (hm.core c).trans (h.cores c hc), fun x hx => ?_, fun p hp => h.pends p ?_⟩
  · rw [hm.rest]
    exact h.dram x hx
  · rw [hm.rest] at hp
    exact hp

theorem tripping_of_dark (h : ¬((s.region r).st = .on ∨ (s.region r).st = .restart)) : s.tripping r = s := if_neg h

/-- The fields of a region that a trip counts on are those before its supply was lost. -/
theorem region_tripping (s : State) (hr : r < 96) : (s.tripping r).region r = { s.region r with
      holder := ((s.tripping r).region r).holder, idleFrom := ((s.tripping r).region r).idleFrom, orphan := ((s.tripping r).region r).orphan } ∧
    ∀ q, q ≠ r → (s.tripping r).region q = s.region q := by
  unfold State.tripping
  split
  · exact ⟨(unpowered_orphaned s hr).region, (unpowered_orphaned s hr).others⟩
  · exact ⟨rfl, fun _ _ => rfl⟩

theorem trips_trip (s : State) (hr : r < 96) (c : BitVec 4) : Trips s (s.trip r c) r c := by
  have hm : Messages ((s.tripping r).tripped r c) (s.trip r c) := messages_openMessage _ (kind := kindRegion) (by decide) r
  have hb := regionBecomes_tripped (s.tripping r) r c
  obtain ⟨hregion, hothers⟩ := region_tripping s hr
  have hx : (s.trip r c).region r = _ := (region_of_regions hm.coresAndHost.regions r).trans hb.region
  rw [hregion] at hx
  refine ⟨by rw [hx], by rw [hx], by rw [hx]; rfl, by rw [hx]; rfl, fun q hq => ?_, fun hst => ?_⟩
  · rw [region_of_regions hm.coresAndHost.regions, hb.others q hq, hothers q hq]
  · have hgone : RegionGone s (s.tripping r) r := by
      unfold State.tripping
      rw [if_pos hst]
      exact (unpowered_orphaned s hr).gone
    exact regionGone_of_messages (regionGone_of_regionBecomes hgone hb) hm

/-- The trip of a region that is neither ON nor RESTART loses nothing, and the host is told at once if its queue has room. -/
theorem told_trip (s : State) (r : Nat) (c : BitVec 4) (h : ¬((s.region r).st = .on ∨ (s.region r).st = .restart)) (hroom : room s) :
    Told s (s.trip r c) (openEntry (s.tripped r c) kindRegion r) := by
  rw [trip_eq, tripping_of_dark h]
  have hb := regionBecomes_tripped s r c
  exact told_of_regionBecomes hb (told_openMessage (room_of_regionBecomes hb hroom) kindRegion r)

/-- A trip counts from the state before, if that has the region's state and counters and the cores. -/
theorem trips_of_start {c : BitVec 4} (h : Trips t u r c) (hst : (t.region r).st = (s.region r).st) (ht : (t.region r).trips = (s.region r).trips)
    (hf : (t.region r).rampfail = (s.region r).rampfail) (ho : ∀ q, q ≠ r → t.region q = s.region q) (hc : t.cores = s.cores) : Trips s u r c where
  st := h.st
  cause := h.cause
  trips := by rw [h.trips, ht]
  rampfail := by rw [h.rampfail, hf]
  others q hq := (h.others q hq).trans (ho q hq)
  gone hon := regionGone_of_cores hc (h.gone (by rwa [hst]))

end Sys2Proof.Machine

end

section
/-! CLAIM. Supply: commands, ramps, faults and restarts (R55, R56, R57, R59, R60, R62, R72, R73). -/

namespace Sys2Proof.Machine

open Sys2Proof.Claims

variable {s t : State} {r : Nat}

/-! ### The commands -/

theorem regionDisable_drained (r : Nat) (s : State) (hr : r < 96) (h : (s.region r).st = .on) (hd : s.regionDrained r = true) :
    ∃ t, exec (.regionDisable r) s = .next t ∧ (t.region r).st = .off ∧ (t.region r).amps = (s.region r).amps ∧ RegionGone s t r := by
  have hu := unpowered_regionLost s hr
  have hb := regionBecomes_setRegState_dark (s.regionLost r) r (x := .off) rfl
  exact ⟨_, exec_regionDisable_drained hr h hd, by rw [hb.region], by rw [hb.region, hu.region], regionGone_of_regionBecomes hu.gone hb⟩

theorem regionCommands_holds : regionCommands := fun r s hr =>
  ⟨regionEnable_off r s hr, regionEnable_refused r s hr, regionDisable_hold r s hr, regionDisable_drained r s hr, regionDisable_refused r s hr,
    regionRestart_hold r s hr, regionRestart_refused r s hr, regionReleaseHalt_clause r s hr, regionReleaseHalt_refused r s hr,
    registerWrite_refused r s hr⟩

/-! ### Ramps -/

/-- The receivers of a cluster start with the next frame. -/
def Cluster.receiving (now : Nat) (x : Cluster) : Cluster :=
  { x with
    frames := now, rxTo := now
    appliedTo := SMap.putAll [] ((List.range 16).map fun b => (b, now)), reports := SMap.putAll [] ((List.range 16).map fun b => (b, now)) }

/-- The cluster enters pool 1 under stage `n`. -/
def Cluster.pooled (n now : Nat) (x : Cluster) : Cluster :=
  { x with
    inPool := decide (n < 3), pool := 1, freq := if n < 2 then 14 else 10, thr := decide (2 ≤ n), idleSince := now, moving := none }

theorem startReceivers_eq (s : State) (r : Nat) : s.startReceivers r = if s.phase ≠ 3 then s else s.modBoth r (Cluster.receiving s.now) := rfl

theorem joinPools_eq (s : State) (r : Nat) :
    s.joinPools r = if s.phase ≠ 3 then s else s.modBoth r (Cluster.pooled (s.region r).stage s.now) := rfl

theorem regions_joinPools (s : State) (r : Nat) : (s.joinPools r).regions = s.regions := by
  rw [joinPools_eq]
  split <;> rfl

theorem regions_startReceivers (s : State) (r : Nat) : (s.startReceivers r).regions = s.regions := by
  rw [startReceivers_eq]
  split <;> rfl

theorem phase_modBoth (s : State) (r : Nat) (f : Cluster → Cluster) : (s.modBoth r f).phase = s.phase := rfl

/-- The region as its ramp ends. -/
theorem regionBecomes_on (s : State) (r : Nat) :
    RegionBecomes s (s.setRegState r .on) r { s.region r with st := .on, since := s.now, counted := true } := by
  have hb := regionBecomes_setRegState s r .on
  rwa [show ((RegState.on == .on) = true) from rfl, Bool.or_true] at hb

/-- Both clusters of a region that has come ON. -/
theorem cluster_ramped (u : State) (r k : Nat) : ((u.startReceivers r).joinPools r).cluster k =
    if u.phase = 3 ∧ k / 2 = r then Cluster.pooled (u.region r).stage u.now (Cluster.receiving u.now (u.cluster k)) else u.cluster k := by
  rw [startReceivers_eq]
  by_cases hp : u.phase = 3
  · rw [if_neg (not_not.mpr hp), joinPools_eq, phase_modBoth, if_neg (not_not.mpr hp), cluster_modBoth, cluster_modBoth, region_modBoth]
    by_cases hk : k / 2 = r
    · rw [if_pos hk, if_pos hk, if_pos ⟨hp, hk⟩]
      rfl
    · rw [if_neg hk, if_neg hk, if_neg fun h => hk h.2]
  · rw [if_pos hp, joinPools_eq, if_pos hp, if_neg fun h => hp h.1]

theorem rampComplete_clause (r : Nat) (s : State) (hr : r < 96) (h : (s.region r).st = .ramp) (hlo : (s.region r).since + 10000 ≤ s.now)
    (hhi : s.now < (s.region r).since + 500000) : ∃ t, exec (.rampComplete r) s = .next t ∧
      t.region r = { s.region r with st := .on, since := s.now, counted := true } ∧ (s.phase ≠ 3 → ∀ k, t.cluster k = s.cluster k) ∧
      (s.phase = 3 → ∀ k, k / 2 = r → (t.cluster k).inPool = decide ((s.region r).stage < 3) ∧ (t.cluster k).pool = 1 ∧
        (t.cluster k).freq = (if (s.region r).stage < 2 then 14 else 10) ∧ (t.cluster k).frames = s.now) := by
  have hb := regionBecomes_on s r
  have hcluster (k : Nat) := cluster_ramped (s.setRegState r .on) r k
  rw [hb.region] at hcluster
  refine ⟨_, if_pos ⟨hr, h, hlo, hhi⟩, ?_, fun hp k => ?_, fun hp k hk => ?_⟩
  · show (((s.setRegState r .on).startReceivers r).joinPools r).region r = _
    rw [region_of_regions (regions_joinPools ..), region_of_regions (regions_startReceivers ..), hb.region]
  · show (((s.setRegState r .on).startReceivers r).joinPools r).cluster k = _
    rw [hcluster, if_neg fun h => hp h.1, cluster_of_regionBecomes hb]
  · show (State.cluster (((s.setRegState r .on).startReceivers r).joinPools r) k).inPool = _ ∧
      (State.cluster (((s.setRegState r .on).startReceivers r).joinPools r) k).pool = _ ∧
      (State.cluster (((s.setRegState r .on).startReceivers r).joinPools r) k).freq = _ ∧
      (State.cluster (((s.setRegState r .on).startReceivers r).joinPools r) k).frames = _
    rw [hcluster, if_pos ⟨hp, hk⟩]
    exact ⟨rfl, rfl, rfl, rfl⟩

theorem rampTimeout_clause (r : Nat) (s : State) (hr : r < 96) (h : (s.region r).st = .ramp) (hl : (s.region r).since + 500000 ≤ s.now) :
    ∃ t, exec (.rampTimeout r) s = .next t ∧ Trips s t r 4 ∧
      (room s → ∃ p c, Told s t { payload := p, tag := 0, src := BitVec.ofNat 16 r, cause := c, kind := 5 }) := by
  have hdark : ¬((s.region r).st = .on ∨ (s.region r).st = .restart) := by
    rw [h]
    decide
  exact ⟨_, if_pos ⟨hr, h, hl⟩, trips_trip s hr 4, fun hroom => ⟨_, _, told_trip s r 4 hdark hroom⟩⟩

/-! ### Faults -/

theorem supplyFault_clause (r : Nat) (s : State) (hr : r < 96) (c : BitVec 4) (h : (s.region r).st = .on ∨ (s.region r).st = .restart)
    (hc : c = 1 ∨ c = 2 ∨ c = 3 ∨ c = 7) : ∃ t, exec (.supplyFault r c) s = .next t ∧ Trips s t r c :=
  ⟨_, if_pos ⟨hr, h, hc⟩, trips_trip s hr c⟩

theorem tripDischarged_clause (r : Nat) (s : State) (hr : r < 96) (h : (s.region r).st = .trip) :
    ∃ t, exec (.tripDischarged r) s = .next t ∧ RegionBecomes s t r { s.region r with st := .hold, since := s.now } :=
  ⟨_, if_pos ⟨hr, h⟩, regionBecomes_setRegState_dark s r rfl⟩

theorem overcurrentWarning_clause (r : Nat) (s : State) (hr : r < 96) (h : (s.region r).st = .on) :
    ∃ t, exec (.overcurrentWarning r) s = .next t ∧ RegionBecomes s t r { s.region r with ocwarn := min 0xffff ((s.region r).ocwarn + 1) } :=
  ⟨_, if_pos ⟨hr, h⟩, regionBecomes_modRegion s r rfl⟩

/-- A message about the region's temperature tells the host, at the most with one more interrupt. -/
theorem messages_thermalMessage (s : State) (r : Nat) : Messages s (s.thermalMessage r) := by
  have hm : Messages s (s.openMessage kindThermal r) := messages_openMessage s (by decide) r
  unfold State.thermalMessage
  simp only []
  split
  · exact hm.trans ⟨.inl rfl, rfl⟩
  · exact hm

/-- The region notes that it enters stage `k`. -/
def State.stageNoted (s : State) (r k : Nat) : State :=
  ((s.thermalMessage r).bboxEvent (r / 16 * 8 + r % 8) 7 r k).modRegion r fun x =>
    { x with stage := k, therm := if 2 ≤ k then sat16 (x.therm + 1) else x.therm }

theorem messages_stageTold (s : State) (r k : Nat) : Messages s ((s.thermalMessage r).bboxEvent (r / 16 * 8 + r % 8) 7 r k) :=
  (messages_thermalMessage s r).trans (messages_bboxEvent _ _ _ _ _)

theorem region_stageNoted (s : State) (r k q : Nat) : (s.stageNoted r k).region q =
    if q = r then { s.region r with stage := k, therm := if 2 ≤ k then sat16 ((s.region r).therm + 1) else (s.region r).therm } else s.region q := by
  unfold State.stageNoted
  rw [region_modRegion, region_of_regions (messages_stageTold s r k).coresAndHost.regions,
    region_of_regions (messages_stageTold s r k).coresAndHost.regions]

theorem cores_stageNoted (s : State) (r k : Nat) : (s.stageNoted r k).cores = s.cores := by
  unfold State.stageNoted
  rw [cores_modRegion, (messages_stageTold s r k).rest]

theorem clusters_stageNoted (s : State) (r k : Nat) : (s.stageNoted r k).clusters = s.clusters := by
  unfold State.stageNoted
  rw [clusters_modRegion, (messages_stageTold s r k).coresAndHost.clusters]

theorem thermalTrip_clause (r : Nat) (s : State) (hr : r < 96) (h : (s.region r).st = .on ∨ (s.region r).st = .restart) :
    ∃ t, exec (.thermalTrip r) s = .next t ∧ Trips s t r 5 := by
  refine ⟨(s.stageNoted r 4).trip r 5, if_pos ⟨hr, h⟩, ?_⟩
  have hregion := region_stageNoted s r 4
  refine trips_of_start (trips_trip (s.stageNoted r 4) hr 5) ?_ ?_ ?_ (fun q hq => by rw [hregion, if_neg hq]) (cores_stageNoted s r 4) <;>
  · rw [hregion, if_pos rfl]

/-! ### The steps of a restart -/

theorem restartRailsSettled_clause (r : Nat) (s : State) (hr : r < 96) (h : (s.region r).st = .restart) (hs : (s.region r).settled = false) :
    ∃ t, exec (.restartRailsSettled r) s = .next t ∧ RegionBecomes s t r { s.region r with settled := true, settledAt := s.now } :=
  ⟨_, if_pos ⟨hr, h, by rw [hs]; rfl⟩, regionBecomes_modRegion s r rfl⟩

theorem restartTimeout_clause (r : Nat) (s : State) (hr : r < 96) (h : (s.region r).st = .restart) (hl : (s.region r).since + 1000000 ≤ s.now) :
    ∃ t, exec (.restartTimeout r) s = .next t ∧ Trips s t r 6 :=
  ⟨_, if_pos ⟨hr, h, hl⟩, trips_trip s hr 6⟩

/-- The beacons of some kinds that region `r` has buffered and the source region `q` had not applied. -/
def State.buffered (s : State) (r q : Nat) (p : BeaconKind → Bool) : List Beacon :=
  s.beacons.filter fun b => (s.cluster (2 * q)).beaconAt ≤ b.seq && (s.region r).settledAt ≤ b.frame && b.frame < s.now && p b.kind

def BeaconKind.isTable (k : BeaconKind) : Bool :=
  match k with
  | .table _ _ => true
  | _ => false

def BeaconKind.isBind (k : BeaconKind) : Bool :=
  match k with
  | .bind _ _ _ => true
  | _ => false

theorem bufferedAfter_eq (s : State) (r q : Nat) :
    s.bufferedAfter r (s.cluster (2 * q)).beaconAt = s.buffered r q fun k => k.isTable || k.isBind := by
  refine List.filter_congr fun b _ => ?_
  cases b.kind <;> rfl

/-- The table updates among the buffered table updates and binds. -/
theorem filter_isTable_buffered (s : State) (r q : Nat) :
    (s.buffered r q fun k => k.isTable || k.isBind).filter Beacon.isTable = s.buffered r q BeaconKind.isTable := by
  refine (List.filter_filter ..).trans (List.filter_congr fun b _ => ?_)
  unfold Beacon.isTable
  cases b.kind <;> simp [BeaconKind.isTable, BeaconKind.isBind]

/-- The rest of them are the binds. -/
theorem filter_not_isTable_buffered (s : State) (r q : Nat) :
    (s.buffered r q fun k => k.isTable || k.isBind).filter (fun b => !b.isTable) = s.buffered r q BeaconKind.isBind := by
  refine (List.filter_filter ..).trans (List.filter_congr fun b _ => ?_)
  unfold Beacon.isTable
  cases b.kind <;> simp [BeaconKind.isTable, BeaconKind.isBind]

theorem nearestOn_of {q : Nat} (hq : q < 96) (hon : (s.region q).st = .on)
    (hn : ∀ p, p < 96 → (s.region p).st = .on → regionHops r q ≤ regionHops r p) : s.nearestOn r q = true := by
  unfold State.nearestOn
  simp only [hq, hon, decide_true, beq_self_eq_true, Bool.true_and, List.all_eq_true, List.mem_range, Bool.or_eq_true, decide_eq_true_eq, bne_iff_ne]
  intro p hp
  by_cases h : (s.region p).st = .on
  · exact .inr (hn p hp h)
  · exact .inl h

/-- A cluster with the tables of `source`, after `ups` further table updates and `binds` further binds. -/
def Cluster.loadedFrom (source : Cluster) (ups binds last : Nat) (x : Cluster) : Cluster :=
  { x with
    epoch := source.epoch + ups, bindEpoch := source.bindEpoch + binds, beaconAt := last, rxTo := source.rxTo
    appliedTo := source.appliedTo, reports := source.reports, applied := source.applied, frames := source.frames }

theorem exec_restartTableLoad {q : Nat} (hr : r < 96) (h : (s.region r).st = .restart) (hs : (s.region r).settled = true)
    (ht : (s.region r).tablesIn = false) (hl : (s.region r).settledAt + 4000 ≤ s.now) (hn : s.nearestOn r q = true) :
    ∃ last, exec (.restartTableLoad r q) s = .next ((s.modBoth r (Cluster.loadedFrom (s.cluster (2 * q))
      (s.buffered r q BeaconKind.isTable).length (s.buffered r q BeaconKind.isBind).length last)).modRegion r fun y => { y with tablesIn := true }) := by
  have hlen := List.length_eq_length_filter_add (l := s.buffered r q fun k => k.isTable || k.isBind) Beacon.isTable
  rw [filter_isTable_buffered, filter_not_isTable_buffered] at hlen
  have hbinds := Nat.sub_eq_of_eq_add' hlen
  refine ⟨(s.buffered r q fun k => k.isTable || k.isBind).foldl (fun a b => max a (b.seq + 1)) (s.cluster (2 * q)).beaconAt, ?_⟩
  show execRestartTableLoad r q s = _
  unfold execRestartTableLoad
  simp only []
  rw [if_pos ⟨hr, h, hs, by rw [ht]; rfl, hl, hn⟩, bufferedAfter_eq, filter_isTable_buffered, hbinds]
  rfl

theorem restartTableLoad_clause (r : Nat) (s : State) (hr : r < 96) (q : Nat) (h : (s.region r).st = .restart) (hs : (s.region r).settled = true)
    (ht : (s.region r).tablesIn = false) (hl : (s.region r).settledAt + 4000 ≤ s.now) (hq : q < 96) (hon : (s.region q).st = .on)
    (hn : ∀ p, p < 96 → (s.region p).st = .on → regionHops r q ≤ regionHops r p) :
    ∃ t, exec (.restartTableLoad r q) s = .next t ∧ t.region r = { s.region r with tablesIn := true } ∧
      (∀ k, k / 2 = r → (t.cluster k).frames = (s.cluster (2 * q)).frames ∧ (t.cluster k).appliedTo = (s.cluster (2 * q)).appliedTo ∧
        (t.cluster k).epoch = (s.cluster (2 * q)).epoch + (s.buffered r q BeaconKind.isTable).length ∧
        (t.cluster k).bindEpoch = (s.cluster (2 * q)).bindEpoch + (s.buffered r q BeaconKind.isBind).length) ∧
      ∀ k, k / 2 ≠ r → t.cluster k = s.cluster k := by
  obtain ⟨last, hx⟩ := exec_restartTableLoad hr h hs ht hl (nearestOn_of hq hon hn)
  refine ⟨_, hx, ?_, fun k hk => ?_, fun k hk => ?_⟩
  · rw [region_modRegion_same, region_modBoth]
  · rw [cluster_of_clusters (clusters_modRegion ..), cluster_modBoth, if_pos hk]
    exact ⟨rfl, rfl, rfl, rfl⟩
  · rw [cluster_of_clusters (clusters_modRegion ..), cluster_modBoth, if_neg hk]

/-- Core `c` stands in reset with its handler fresh. -/
structure Restarted (c : Nat) (t : State) : Prop where
  handler : t.gang c handlerSlot = freshHandler c
  inReset : (t.core c).inReset = true

/-- A core of a region that is ON again. -/
def State.restart (s : State) (c : Nat) : State := (s.setGang c handlerSlot (freshHandler c)).modCore c fun k => { k with inReset := true }

theorem gang_restart (s : State) (c d g : Nat) : (s.restart c).gang d g = (s.setGang c handlerSlot (freshHandler c)).gang d g :=
  gang_modCore _ c (f := fun k => { k with inReset := true }) (fun _ => rfl) d g

theorem restarted_restart (s : State) (c : Nat) : Restarted c (s.restart c) := by
  refine ⟨by rw [gang_restart, gang_setGang_same], ?_⟩
  unfold State.restart
  rw [core_modCore_same]

theorem Restarted.restart {c : Nat} (h : Restarted c t) (d : Nat) : Restarted c (t.restart d) := by
  by_cases hd : c = d
  · rw [hd]
    exact restarted_restart t d
  · refine ⟨by rw [gang_restart, gang_setGang_core _ _ _ _ hd, h.handler], ?_⟩
    unfold State.restart State.setGang
    rw [core_modCore_other _ _ hd, core_modCore_other _ _ hd, h.inReset]

/-- All cores of a region stand in reset. -/
def State.restartCores (s : State) (r : Nat) : State := (regionCores r).foldl State.restart s

theorem coresAndHost_restartCores (s : State) (r : Nat) : CoresAndHost s (s.restartCores r) :=
  coresAndHost_foldl (fun s c => (coresAndHost_setGang s c _ _).trans (coresAndHost_modCore _ c _)) _ s

theorem restarted_restartCores (s : State) {c : Nat} (h : c ∈ regionCores r) : Restarted c (s.restartCores r) :=
  foldl_of_mem (f := State.restart) (P := Restarted c) (fun _ d ht => ht.restart d) h (fun s => restarted_restart s c) s

/-- The region as its restart ends: ON, in stage 3 at the most. -/
def State.restartedOn (s : State) (r : Nat) : State := (s.setRegState r .on).modRegion r fun y => { y with stage := min 3 y.stage }

theorem regionBecomes_restartedOn (s : State) (r : Nat) : RegionBecomes s (s.restartedOn r) r
    { s.region r with st := .on, since := s.now, stage := min 3 (s.region r).stage, counted := true } :=
  regionBecomes_trans_modRegion (regionBecomes_on s r) rfl

theorem hostRegs_of_regionBecomes {x : Region} (h : RegionBecomes s t r x) : t.hostRegs = s.hostRegs := by rw [← h.rest]

theorem CoresAndHost.hostRegs (h : CoresAndHost s t) : t.hostRegs = s.hostRegs := by rw [h.rest]

theorem hostRegs_joinPools (s : State) (r : Nat) : (s.joinPools r).hostRegs = s.hostRegs := by
  rw [joinPools_eq]
  split <;> rfl

/-- The handlers' registers are taken from the host's as they stand. -/
def State.handlersSet (s : State) (r : Nat) : State :=
  { s.linksBack r with hroot := s.hostRegs.get 0 0x34000, hentry := s.hostRegs.get 0 0x34008, hfbase := s.hostRegs.get 0 0x34010 }

theorem regions_handlersSet (s : State) (r : Nat) : (s.handlersSet r).regions = s.regions := rfl

theorem cores_handlersSet (s : State) (r : Nat) : (s.handlersSet r).cores = s.cores := rfl

theorem exec_restartComplete (hr : r < 96) (h : (s.region r).st = .restart) (hs : (s.region r).settled = true) (ht : (s.region r).tablesIn = true)
    (hl : s.now ≤ (s.region r).since + 1000000) :
    exec (.restartComplete r) s = .next ((((s.restartedOn r).joinPools r).restartCores r).handlersSet r) := if_pos ⟨hr, h, hs, ht, hl⟩

theorem restartComplete_clause (r : Nat) (s : State) (hr : r < 96) (h : (s.region r).st = .restart) (hs : (s.region r).settled = true)
    (ht : (s.region r).tablesIn = true) (hl : s.now ≤ (s.region r).since + 1000000) : ∃ t, exec (.restartComplete r) s = .next t ∧
      t.region r = { s.region r with st := .on, since := s.now, stage := min 3 (s.region r).stage, counted := true } ∧
      (∀ c ∈ regionCores r, t.gang c handlerSlot = freshHandler c ∧ (t.core c).inReset = true) ∧
      t.hroot = s.hostRegs.get 0 0x34000 ∧ t.hentry = s.hostRegs.get 0 0x34008 ∧ t.hfbase = s.hostRegs.get 0 0x34010 := by
  have hb := regionBecomes_restartedOn s r
  have hcores := coresAndHost_restartCores ((s.restartedOn r).joinPools r) r
  have hregs : (((s.restartedOn r).joinPools r).restartCores r).hostRegs = s.hostRegs := by
    rw [hcores.hostRegs, hostRegs_joinPools, hostRegs_of_regionBecomes hb]
  have hregion : (((s.restartedOn r).joinPools r).restartCores r).region r = _ :=
    (region_of_regions (hcores.regions.trans (regions_joinPools _ r)) r).trans hb.region
  have hrestarted (c : Nat) (hc : c ∈ regionCores r) := restarted_restartCores ((s.restartedOn r).joinPools r) hc
  refine ⟨_, exec_restartComplete hr h hs ht hl, ?_⟩
  generalize ((s.restartedOn r).joinPools r).restartCores r = u at hregs hregion hrestarted
  rw [← hregs]
  refine ⟨?_, fun c hc => ?_, rfl, rfl, rfl⟩
  · rw [region_of_regions (regions_handlersSet u r), hregion]
  · rw [gang_of_cores (cores_handlersSet u r), core_of_cores (cores_handlersSet u r)]
    exact ⟨(hrestarted c hc).handler, (hrestarted c hc).inReset⟩

theorem regionSupply_holds : regionSupply := fun r s hr =>
  ⟨rampComplete_clause r s hr, rampTimeout_clause r s hr, supplyFault_clause r s hr, tripDischarged_clause r s hr, restartRailsSettled_clause r s hr,
    restartTableLoad_clause r s hr, restartComplete_clause r s hr, restartTimeout_clause r s hr, thermalTrip_clause r s hr,
    overcurrentWarning_clause r s hr⟩

end Sys2Proof.Machine

end

section
/-! CLAIM. The thermal ladder (R72 to R74), and with it the power events. -/

namespace Sys2Proof.Machine

open Sys2Proof.Claims

variable {s t u : State} {r : Nat}

/-! ### Stage 2 -/

/-- Both clusters of region `r` run at c0 without claims, and no cluster holds its boost. -/
structure Throttled (r : Nat) (t : State) : Prop where
  holder : (t.region r).holder = none
  clusters : ∀ k, k / 2 = r → (t.cluster k).thr = true ∧ (t.cluster k).nextFreq = some 10 ∧ (t.cluster k).claimAge = none

/-- Cluster `k` goes to c0, its claim cancelled. -/
def State.throttle (s : State) (k : Nat) : State :=
  (if (s.cluster k).claimAge.isSome then s.cancelClaim k else s).modCluster k fun x => { x with thr := true, nextFreq := some 10, fallAt := none }

/-- A region without a holder. -/
def Region.released (now : Nat) (x : Region) : Region := if x.holder.isSome then { x with holder := none, idleFrom := some now } else x

theorem enterThrottle_eq (s : State) (r : Nat) : s.enterThrottle r =
    ((s.throttle (2 * r)).throttle (2 * r + 1)).modRegion r (Region.released ((s.throttle (2 * r)).throttle (2 * r + 1)).now) := rfl

theorem regions_throttle (s : State) (k : Nat) : (s.throttle k).regions = s.regions := by
  unfold State.throttle
  rw [regions_modCluster]
  split
  · exact regions_cancelClaim s k
  · rfl

theorem cluster_throttle_other (s : State) {k q : Nat} (h : q ≠ k) : (s.throttle k).cluster q = s.cluster q := by
  unfold State.throttle
  rw [cluster_modCluster, if_neg h]
  split
  · rw [cluster_cancelClaim, if_neg h]
  · rfl

theorem cluster_throttle_same (s : State) (k : Nat) : ((s.throttle k).cluster k).thr = true ∧
    ((s.throttle k).cluster k).nextFreq = some 10 ∧ ((s.throttle k).cluster k).claimAge = none := by
  unfold State.throttle
  rw [cluster_modCluster_same]
  refine ⟨rfl, rfl, ?_⟩
  split
  · rw [cluster_cancelClaim, if_pos rfl]
  · next h => exact Option.not_isSome_iff_eq_none.mp h

theorem released_eq (now : Nat) (x : Region) : Region.released now x = { x with holder := none, idleFrom := (Region.released now x).idleFrom } := by
  unfold Region.released
  split
  · rfl
  · next h => rw [← Option.not_isSome_iff_eq_none.mp h]

theorem region_enterThrottle (s : State) (r q : Nat) : (s.enterThrottle r).region q = if q = r then
    { s.region r with holder := none, idleFrom := ((s.enterThrottle r).region r).idleFrom } else s.region q := by
  have hregion (p : Nat) : ((s.throttle (2 * r)).throttle (2 * r + 1)).region p = s.region p :=
    region_of_regions ((regions_throttle _ _).trans (regions_throttle s _)) p
  rw [enterThrottle_eq, region_modRegion, region_modRegion_same, hregion, hregion]
  split
  · exact released_eq _ _
  · rfl

theorem throttled_enterThrottle (s : State) (r : Nat) : Throttled r (s.enterThrottle r) := by
  refine ⟨by rw [region_enterThrottle, if_pos rfl], fun k hk => ?_⟩
  rw [enterThrottle_eq, cluster_of_clusters (clusters_modRegion ..)]
  by_cases h1 : k = 2 * r + 1
  · rw [h1]
    exact cluster_throttle_same _ _
  · have h0 : k = 2 * r := by omega
    rw [cluster_throttle_other _ h1, h0]
    exact cluster_throttle_same s _

/-! ### Stage 3 -/

/-- What ends of boost leaves a region throttled. -/
theorem Throttled.of_boostLapses (h : Throttled r s) (hl : BoostLapses r s t) : Throttled r t := by
  refine ⟨hl.holder h.holder, fun k hk => ?_⟩
  obtain ⟨hthr, hfreq, hclaim⟩ := h.clusters k hk
  exact ⟨by rw [hl.cluster k]; exact hthr, (hl.freq h.holder k hk).trans hfreq, hl.claim k hclaim⟩

/-- Cluster `k` stands in no pool and moves to none. -/
def State.poolless (k : Nat) (s : State) : Prop := (s.cluster k).inPool = false ∧ (s.cluster k).moving = none

theorem poolless_of_boostLapses {k : Nat} (h : s.poolless k) (hl : BoostLapses r s t) : t.poolless k := by
  unfold State.poolless
  rw [hl.cluster k]
  exact h

/-- The cluster outside all pools. -/
def Cluster.unpooled (x : Cluster) : Cluster := { x with inPool := false, moving := none }

/-- Cluster `k` leaves its pool, its claims ended. -/
def State.leavePool (s : State) (k : Nat) : State := (s.endClaims k).modCluster k Cluster.unpooled

theorem enterHaltStage_eq (s : State) (r : Nat) : s.enterHaltStage r =
    (regionClusters r).foldl State.leavePool ((((regionCores r).flatMap s.blocksOn).dedup).foldl State.forceSave s) := rfl

theorem cluster_leavePool (s : State) (k q : Nat) :
    (s.leavePool k).cluster q = if q = k then ((s.endClaims k).cluster k).unpooled else (s.endClaims k).cluster q :=
  cluster_modCluster _ k q _

theorem poolless_leavePool_same (s : State) (k : Nat) : (s.leavePool k).poolless k := by
  unfold State.poolless
  rw [cluster_leavePool, if_pos rfl]
  exact ⟨rfl, rfl⟩

theorem poolless_leavePool {k : Nat} (q : Nat) (h : s.poolless k) : (s.leavePool q).poolless k := by
  by_cases hq : k = q
  · rw [hq]
    exact poolless_leavePool_same s q
  · have hend := poolless_of_boostLapses h (boostLapses_endClaims (r := 0) s q)
    unfold State.poolless
    rw [cluster_leavePool, if_neg hq]
    exact hend

theorem Throttled.leavePool (h : Throttled r s) (q : Nat) : Throttled r (s.leavePool q) := by
  obtain ⟨hholder, hclusters⟩ := h.of_boostLapses (boostLapses_endClaims s q)
  refine ⟨hholder, fun k hk => ?_⟩
  rw [cluster_leavePool]
  split
  · next e =>
    subst e
    exact hclusters k hk
  · exact hclusters k hk

/-- The end of boost in stage 3 leaves the region's other fields. -/
theorem region_enterHaltStage (s : State) (r : Nat) : (s.enterHaltStage r).region r = { s.region r with
    holder := ((s.enterHaltStage r).region r).holder, idleFrom := ((s.enterHaltStage r).region r).idleFrom
    orphan := ((s.enterHaltStage r).region r).orphan } := by
  have hl (s : State) (k : Nat) : BoostLapses r s (s.endClaims k) := boostLapses_endClaims s k
  have hsaved : BoostLapses r s _ := boostLapses_foldl (fun s b => boostLapses_forceSave s b) (((regionCores r).flatMap s.blocksOn).dedup) s
  exact List.foldlRecOn (motive := fun t => t.region r = { s.region r with
    holder := (t.region r).holder, idleFrom := (t.region r).idleFrom, orphan := (t.region r).orphan }) (regionClusters r) State.leavePool
    hsaved.region fun t ht k _ => by
      show (t.endClaims k).region r = { s.region r with
        holder := ((t.endClaims k).region r).holder, idleFrom := ((t.endClaims k).region r).idleFrom, orphan := ((t.endClaims k).region r).orphan }
      rw [(hl t k).region, ht]

theorem poolless_enterHaltStage (s : State) {r k : Nat} (hk : k / 2 = r) : (s.enterHaltStage r).poolless k := by
  rw [enterHaltStage_eq]
  exact foldl_of_mem (f := State.leavePool) (P := State.poolless k) (fun _ q h => poolless_leavePool q h)
    (mem_regionClusters.mpr hk) (fun s => poolless_leavePool_same s k) _

theorem Throttled.enterHaltStage (h : Throttled r s) : Throttled r (s.enterHaltStage r) := by
  rw [enterHaltStage_eq]
  exact List.foldlRecOn (regionClusters r) State.leavePool (h.of_boostLapses (boostLapses_foldl (fun s b => boostLapses_forceSave s b) _ s))
    fun _ ht k _ => ht.leavePool k

/-! ### The climb -/

/-- From stage `old` in `s` region `r` has come to stage `new` in `t`, at temperature `temp`. -/
structure Climbed (s : State) (r old temp new : Nat) (t : State) : Prop where
  st : (t.region r).st = .on
  temp : (t.region r).temp = min 255 temp
  stage : (t.region r).stage = new
  others : new < 3 → ∀ q, q ≠ r → t.region q = s.region q
  kept : new ≤ 1 → ∀ k, t.cluster k = s.cluster k
  throttled : old < 2 → 2 ≤ new → Throttled r t
  halted : old < 3 → new = 3 → ∀ k, k / 2 = r → t.poolless k

variable {old temp : Nat}

theorem enterStage_one (s : State) (r : Nat) : s.enterStage r 1 = s.stageNoted r 1 := rfl

theorem enterStage_two (s : State) (r : Nat) : s.enterStage r 2 = (s.stageNoted r 2).enterThrottle r := rfl

theorem enterStage_three (s : State) (r : Nat) : s.enterStage r 3 = (s.stageNoted r 3).enterHaltStage r := rfl

theorem region_stageNoted_same (s : State) (r k : Nat) : (s.stageNoted r k).region r =
    { s.region r with stage := k, therm := if 2 ≤ k then sat16 ((s.region r).therm + 1) else (s.region r).therm } := by
  rw [region_stageNoted, if_pos rfl]

theorem region_stageNoted_other (s : State) {r q : Nat} (k : Nat) (h : q ≠ r) : (s.stageNoted r k).region q = s.region q := by
  rw [region_stageNoted, if_neg h]

theorem climbed_one (h : Climbed s r old temp 0 t) : Climbed s r old temp 1 (t.enterStage r 1) := by
  have hregion := region_stageNoted_same t r 1
  rw [enterStage_one]
  exact {
    st := by rw [hregion]; exact h.st
    temp := by rw [hregion]; exact h.temp
    stage := by rw [hregion]
    others := fun _ q hq => by rw [region_stageNoted_other _ _ hq, h.others (by decide) q hq]
    kept := fun _ k => by rw [cluster_of_clusters (clusters_stageNoted ..), h.kept (by decide) k]
    throttled := fun _ h2 => absurd h2 (by decide)
    halted := fun _ h3 => absurd h3 (by decide) }

theorem climbed_two (h : Climbed s r old temp 1 t) : Climbed s r old temp 2 (t.enterStage r 2) := by
  have hregion := region_enterThrottle (t.stageNoted r 2) r
  have hsame := (hregion r).trans (if_pos rfl)
  rw [region_stageNoted_same] at hsame
  rw [enterStage_two]
  exact {
    st := by rw [hsame]; exact h.st
    temp := by rw [hsame]; exact h.temp
    stage := by rw [hsame]
    others := fun _ q hq => by rw [hregion, if_neg hq, region_stageNoted_other _ _ hq, h.others (by decide) q hq]
    kept := fun h1 => absurd h1 (by decide)
    throttled := fun _ _ => throttled_enterThrottle _ r
    halted := fun _ h3 => absurd h3 (by decide) }

/-- A stage that is noted takes no region out of its throttle. -/
theorem Throttled.stageNoted (h : Throttled r s) (k : Nat) : Throttled r (s.stageNoted r k) where
  holder := by
    rw [region_stageNoted_same]
    exact h.holder
  clusters q hq := by
    rw [cluster_of_clusters (clusters_stageNoted ..)]
    exact h.clusters q hq

theorem climbed_three (h : Climbed s r old temp 2 t) : Climbed s r old temp 3 (t.enterStage r 3) := by
  have hregion := region_enterHaltStage (t.stageNoted r 3) r
  rw [region_stageNoted_same] at hregion
  rw [enterStage_three]
  exact {
    st := by rw [hregion]; exact h.st
    temp := by rw [hregion]; exact h.temp
    stage := by rw [hregion]
    others := fun h3 => absurd h3 (by decide)
    kept := fun h1 => absurd h1 (by decide)
    throttled := fun hold _ => ((h.throttled hold (by decide)).stageNoted 3).enterHaltStage
    halted := fun _ _ _ hk => poolless_enterHaltStage _ hk }

theorem Climbed.enterStage {k : Nat} (h : Climbed s r old temp k t) (hk : k < 3) : Climbed s r old temp (k + 1) (t.enterStage r (k + 1)) := by
  match k, hk with
  | 0, _ => exact climbed_one h
  | 1, _ => exact climbed_two h
  | 2, _ => exact climbed_three h

/-- A climb of `n` stages, one after the other. -/
theorem climbed_foldl (h : Climbed s r old temp old t) (n : Nat) (hn : n = 0 ∨ old + n ≤ 3) :
    Climbed s r old temp (old + n) ((List.range n).foldl (fun s i => s.enterStage r (old + i + 1)) t) := by
  induction n with
  | zero => exact h
  | succ n ih =>
    rw [List.range_succ, List.foldl_append]
    exact (ih (.inr (by omega))).enterStage (by omega)

/-! ### A sample -/

theorem stageFor_eq (old temp : Nat) : stageFor old temp = ladder old temp := by
  unfold stageFor ladder stageBelow
  simp only []
  split_ifs <;> omega

theorem ladder_of_three {old : Nat} (temp : Nat) (h : 3 ≤ old) : ladder old temp = old := if_pos h

theorem ladder_le (old temp : Nat) : ladder old temp ≤ max 3 old := by
  unfold ladder
  split_ifs <;> omega

/-- The region with its new temperature. -/
def State.sampled (s : State) (r temp : Nat) : State := s.modRegion r fun x => { x with temp := min 255 temp }

theorem regionBecomes_sampled (s : State) (r temp : Nat) : RegionBecomes s (s.sampled r temp) r { s.region r with temp := min 255 temp } :=
  regionBecomes_modRegion s r rfl

/-- The region with its new temperature and a lower stage. -/
def State.cooled (s : State) (r temp new : Nat) : State :=
  ((s.sampled r temp).modRegion r fun x => { x with stage := new }).bboxEvent (r / 16 * 8 + r % 8) 7 r new

theorem regionBecomes_cooled (s : State) (r temp new : Nat) :
    RegionBecomes s (s.cooled r temp new) r { s.region r with temp := min 255 temp, stage := new } :=
  regionBecomes_bboxEvent (regionBecomes_trans_modRegion (regionBecomes_sampled s r temp) rfl) ..

theorem exec_thermalSample (hr : r < 96) (h : (s.region r).st = .on) (temp : Nat) : exec (.thermalSample r temp) s = .next (
    if (s.region r).stage ≤ ladder (s.region r).stage temp then
      (List.range (ladder (s.region r).stage temp - (s.region r).stage)).foldl (fun t i => t.enterStage r ((s.region r).stage + i + 1))
        (s.sampled r temp)
    else if (s.region r).stage = 2 then (s.cooled r temp (ladder (s.region r).stage temp)).endThrottle r
    else s.cooled r temp (ladder (s.region r).stage temp)) := by
  have hn : ¬(96 ≤ r ∨ (s.region r).st ≠ .on) := fun h' => h'.elim (Nat.not_le.mpr hr) fun hne => hne h
  show execThermalSample r temp s = _
  unfold execThermalSample
  rw [if_neg hn]
  simp only [stageFor_eq]
  split <;> rfl

/-- What a sample that leads from stage `old` of `s` to stage `new` leaves. -/
structure Sampled (s : State) (r temp old new : Nat) (t : State) : Prop where
  temp : (t.region r).temp = min 255 temp
  stage : (t.region r).stage = new
  st : (t.region r).st = .on
  others : new < 3 → ∀ q, q ≠ r → t.region q = s.region q
  throttled : old < 2 → 2 ≤ new → ∀ k, k / 2 = r → (t.cluster k).thr = true ∧ (t.cluster k).nextFreq = some 10 ∧ (t.cluster k).claimAge = none
  halted : old < 3 → new = 3 → ∀ k, k / 2 = r → (t.cluster k).inPool = false ∧ (t.cluster k).moving = none
  ended : old = 2 → new < 2 → ∀ k, k / 2 = r → (t.cluster k).thr = false ∧
    (t.cluster k).nextFreq = some (Config.classFreq ((s.cluster k).moving.getD (s.cluster k).pool))
  kept : new ≤ 1 → old ≠ 2 → ∀ k, t.cluster k = s.cluster k

/-- The temperature leads to no lower stage. -/
theorem Climbed.sampled {new : Nat} (h : Climbed s r old temp new t) (hle : old ≤ new) : Sampled s r temp old new t where
  temp := h.temp
  stage := h.stage
  st := h.st
  others := h.others
  throttled hold hnew := (h.throttled hold hnew).clusters
  halted := h.halted
  ended hold hnew := absurd hnew (by omega)
  kept hnew _ := h.kept hnew

theorem climbed_sampled (hst : (s.region r).st = .on) (temp : Nat) :
    Climbed s r (s.region r).stage temp (s.region r).stage (s.sampled r temp) := by
  have hb := regionBecomes_sampled s r temp
  exact {
    st := by rw [hb.region]; exact hst
    temp := by rw [hb.region]
    stage := by rw [hb.region]
    others := fun _ => hb.others
    kept := fun _ => cluster_of_regionBecomes hb
    throttled := fun hlt hle => absurd hlt (Nat.not_lt.mpr hle)
    halted := fun hlt he => absurd he (Nat.ne_of_lt hlt) }

/-- The temperature leads to a lower stage, from stage 1 or 2. -/
theorem sampled_of_cooled {new : Nat} (hst : (s.region r).st = .on) (hold : old < 3) (hlt : new < old) : Sampled s r temp old new
    (if old = 2 then (s.cooled r temp new).endThrottle r else s.cooled r temp new) := by
  have hb := regionBecomes_cooled s r temp new
  have hk := cluster_of_regionBecomes hb
  have hregion (q : Nat) : (if old = 2 then (s.cooled r temp new).endThrottle r else s.cooled r temp new).region q = (s.cooled r temp new).region q := by
    split <;> rfl
  refine ⟨by rw [hregion, hb.region], by rw [hregion, hb.region], ?_, fun _ q hq => ?_, fun h1 h2 => ?_, fun _ h3 => ?_, fun h2 _ k hkr => ?_, fun _ h2 k => ?_⟩
  · rw [hregion, hb.region]
    exact hst
  · rw [hregion, hb.others q hq]
  · exact absurd hlt (by omega)
  · exact absurd hlt (by omega)
  · rw [if_pos h2, endThrottle_eq, cluster_modBoth, if_pos hkr, hk]
    exact ⟨rfl, rfl⟩
  · rw [if_neg h2, hk]

theorem thermalSample_sampled (hr : r < 96) (hst : (s.region r).st = .on) (temp : Nat) :
    ∃ t, exec (.thermalSample r temp) s = .next t ∧ Sampled s r temp (s.region r).stage (ladder (s.region r).stage temp) t := by
  have hmax := ladder_le (s.region r).stage temp
  have htop := ladder_of_three (old := (s.region r).stage) temp
  refine ⟨_, exec_thermalSample hr hst temp, ?_⟩
  split
  · next hle =>
    have hc := climbed_foldl (climbed_sampled hst temp) (ladder (s.region r).stage temp - (s.region r).stage) (by omega)
    rw [Nat.add_sub_cancel' hle] at hc
    exact hc.sampled hle
  · next hgt => exact sampled_of_cooled hst (by omega) (by omega)

theorem thermal_holds : thermal := fun r temp s hr hst => by
  obtain ⟨t, hx, h⟩ := thermalSample_sampled hr hst temp
  exact ⟨t, hx, h.temp, h.stage, h.st, h.others, h.throttled, h.halted, h.ended, h.kept⟩

/-- Settles O51, one part after the other. -/
theorem powerEvents : Obligations.PowerEvents := by
  unfold Obligations.PowerEvents
  exact ⟨regionCommands_holds, regionSupply_holds, currents_holds, pools_holds, thermal_holds⟩

end Sys2Proof.Machine

end
